-- ==== Sys2Proof/Word.lean ====
section
/-! DEFINITION. The words of the KX4 (R7, R39): a byte, a 32-bit word, a 64-bit double word, and the
6-bit register fields of an instruction word. -/

namespace Sys2Proof

/-- A byte of 8 bits (R7). -/
abbrev Byte := BitVec 8

/-- A word of 32 bits: the contents of a g register, and an instruction word (R7, R61). -/
abbrev Word := BitVec 32

/-- A double word of 64 bits: the contents of a w pair, and a virtual address (R7, R20). -/
abbrev DWord := BitVec 64

/-- A 6-bit register field of an instruction word (R66). -/
abbrev RegNo := BitVec 6

end Sys2Proof
end

