-- ==== Sys2Proof/Syntax.lean ====
section
/-! DEFINITION. The instructions of the KX4 (R61 to R80), one constructor for each row of the opcode
table: the 333 encodings of one word, the three LONG forms with their literal, and the 63 events of
the hardware's own agents, which have no word (file 95 of the spec). -/

namespace Sys2Proof

/-- The scopes of R5, from the inside out. -/
inductive Scope where
  | core | cluster | die | package | system
  deriving DecidableEq, Repr

/-- The ORD field of an ordered access (R74): 00 relaxed, 01 acquire, 10 release, 11 both. -/
inductive Ord where
  | relaxed | acquire | release | acqRel
  deriving DecidableEq, Repr

/-- The ORD field of `fence` (R74): 00 sc, 01 acquire, 10 release, 11 acq_rel. -/
inductive FenceOrd where
  | sc | acquire | release | acqRel
  deriving DecidableEq, Repr

/-- The SP field of a plain access (R66, R85): 00 global, 01 scratch-local, 10 scratch-interleave. -/
inductive Space where
  | global | scratchLocal | interleave
  deriving DecidableEq, Repr

/-- The 3-bit rounding field (R48): the four modes, `.rs` with a random operand, and 111, which
takes the mode of `fctl`. -/
inductive RmField where
  | rne | rtz | rup | rdn | rs | dyn
  deriving DecidableEq, Repr

/-- What an access is, for translation, permissions and fault records (R151, R296). -/
inductive AccKind where
  | read | write | fetch | atomic
  /-- A sync-cell read, `sacq`: read permission, and an atomic request at the target (R275, R296, R310). -/
  | syncRead
  deriving DecidableEq, Repr

/-- What a parked thread waits on: the key of a park (R170, R208, R335, R345). -/
inductive Key where
  /-- A memory wait: the physical address of a line (reason 1). -/
  | line (pa : Nat)
  /-- A join: the physical line of the join counter (reason 3). -/
  | join (pa : Nat)
  /-- A ring of the cluster ring table (reason 2, keys 0 to 63). -/
  | ring (cluster entry : Nat)
  /-- The free list of a cluster's ring table (reason 2, key 64). -/
  | ringFree (cluster : Nat)
  /-- The engine queue of a cluster (reason 2, key 65). -/
  | engineQueue (cluster : Nat)
  /-- An engine job of a launch in a cluster (reason 2, key 2^32 + n). -/
  | job (cluster : Nat) (lid : BitVec 32) (n : BitVec 32)
  /-- A convocation or a formed group of a cluster (reason 4). -/
  | group (cluster gid : Nat)
  /-- The group table of a cluster (reason 4). -/
  | groupTable (cluster : Nat)
  /-- An accumulator of a cluster (reason 4). -/
  | acc (cluster : Nat) (a : BitVec 2)
  /-- Operation k of a communicator (reason 4). -/
  | coll (comm k : Nat)
  /-- A physical queue of a core (reason 5). -/
  | queue (core q : Nat)
  /-- A virtual page: an address-space number and va[56:16] (reason 6, FAULT). -/
  | page (asn : BitVec 16) (vpn : BitVec 41)
  /-- A core's queue pool (reason 7). -/
  | pool (core : Nat)
  /-- A core's mailbox (reason 8). -/
  | mailbox (core : Nat)
  /-- A launch queue (reason 9). -/
  | launchQueue (q : BitVec 6)
  deriving DecidableEq, Repr

/-- A request of a host function through a BAR (R368, R369). -/
inductive HostReq where
  | bar0Read (off n : Nat)
  | bar0Write (off : Nat) (bytes : List Byte)
  | bar2Read (off n : Nat)
  | bar2Write (off : Nat) (bytes : List Byte)
  /-- A read of host memory is the host's own affair; a write of it is what a watch may see (R370). -/
  | memWrite (pa : Nat) (bytes : List Byte)
  deriving DecidableEq, Repr

/-- How a request of another module comes: over a UALink port, from a peer's number, or over Ethernet, from a fabric
endpoint (R372, R379). -/
inductive Sender where
  | ualink (peer : BitVec 10)
  | ethernet (endpoint : BitVec 32)
  deriving DecidableEq, Repr

/-- A request of a peer module (R372, R374, R376, R384): a read, a write, or a 4- or 8-byte atomic on this module's
device memory, an operation that performs there as the owner home, a request for a grant on one of its pages, an answer
to a recall, and a forwarded launch, which is a packet write followed by a write of TAIL. -/
inductive PeerReq where
  | read (pa n : Nat)
  | write (pa : Nat) (bytes : List Byte)
  /-- The operation of R72 by its code, on 8 bytes or on 4, with its operand and the value that `cas` expects. -/
  | atomic (pa : Nat) (wide : Bool) (code : Nat) (x expected : DWord)
  /-- A sync-cell operation (R275): 0 `srel`, 1 `sacq`, 2 `sadd`, 3 `scas`, with its operands and the releaser's K and
  H. -/
  | cell (pa op : Nat) (x expected : DWord) (k : BitVec 512) (h : DWord)
  /-- The join-block update of `spawn`, which counts a child and takes a name, or of `tdone` (R184). -/
  | joinUpdate (pa : Nat) (spawn : Bool)
  /-- A watch is armed on a line, for a wait or a `join` (R376). -/
  | watch (pa : Nat)
  | grant (page : Nat) (exclusive : Bool)
  | forward (q : BitVec 6) (pa : Nat) (packet : List Byte) (tail : BitVec 16)
  /-- The answer to a recall (R375): the bytes it writes back, and whether it keeps the page shared. -/
  | giveBack (page : Nat) (dirty : List (Nat × List Byte)) (shared : Bool)
  /-- A write of another module to peer memory, at its owner home (R373). -/
  | ownWrite (pa : Nat) (bytes : List Byte)
  /-- An arrival of another member of a communicator at one of its operations, with its data (R382): the op
  code of R73 or 14 or 15, COUNT, LEVEL, INDEX and NLEAF, and whether it has lost a mapping, or a target has refused it. -/
  | arrive (comm k form count level index nleaf : Nat) (bytes : List Byte) (failed : Bool)
  deriving DecidableEq, Repr

/-- One constructor for each row of the opcode table. A word's fields stand in the order of the table;
the L bit belongs to the bundle (R62), not to the instruction. -/
inductive Instr where
  /-- Each arithmetic cycle a core picks a ready leader from its Roll pointer, issues the group of ready threads that merge with it, and advances the pointer (R165). -/
  | rollCycle (core : Nat)
  /-- A Chime reaching a core wakes every context parked on its key, or sets the wake-pending mark of suspended and spilled ones (R171). -/
  | chimeArrival (key : Key)
  /-- The 64 arithmetic cycles of a pause expire and the thread becomes eligible to issue again (R136). -/
  | pauseEnd (core : Nat) (num : Nat)
  /-- When the home slice's watch table is full, a waiting thread receives a Chime every 1,024 ns of stime (R135). -/
  | watchPoll (core : Nat) (num : Nat)
  /-- A software-managed L1 line whose age nears 2^15 stamp units is written back and leaves the L1 (R264). -/
  | sLineSweep (core : Nat) (line : Nat)
  /-- A sharer L1 applies an update forwarded by the home slice for an H line and acknowledges it (R265). -/
  | coherentUpdate (core : Nat)
  /-- A page-table walk completes, yielding a translation, a FAULT park, a FAULTX fault or a MIG park (R293). -/
  | walk (acc : AccKind) (va : DWord) (n : Nat)
  /-- Once the die fault queue has room or is enabled, held records are written in STIME order and PROD advances (R302). -/
  | pendingRecordWrite (die : Nat)
  /-- The spill engine writes a suspended or faulted context, with its queue records, to the core's spill area and frees its blocks (R179). -/
  | spill (core : Nat) (num : Nat)
  /-- A spilled context is read back into its core, its CRC and poison checked, and a pending kill or faulted state applied (R179). -/
  | refill (core : Nat) (num : Nat)
  /-- A core with room takes a deque entry, locally or from a victim, and starts a new thread from it (R194). -/
  | takeEntry (core : Nat)
  /-- A queued TCE job whose ordering edges and ring slot allow it starts moving sectors (R216). -/
  | tceJobRun (cluster : Nat) (job : Nat)
  /-- A sector write is accepted at its destination, its done bit is set and ring BYTES advance (R224). -/
  | tceSectorWrite (cluster : Nat) (job : Nat)
  /-- A TCE job ends, sets DONE and BYTES of its slot, runs Advance and Chimes waiters (R219). -/
  | tceJobEnd (cluster : Nat) (job : Nat)
  /-- An mma job completes and its chunk root is carried into the accumulator's pending roots (R250). -/
  | mmaJob (cluster : Nat) (job : Nat)
  /-- An mx.merge job inserts an external node tile into the accumulator by Carry (R245). -/
  | mxMergeJob (cluster : Nat) (job : Nat)
  /-- An mx.zero job empties the accumulator's roots (R244). -/
  | mxZeroJob (cluster : Nat) (job : Nat)
  /-- An mx.st job folds, converts and writes the accumulator tile or its image, then ends and wakes its issuer (R246). -/
  | mxStJob (cluster : Nat) (job : Nat)
  /-- An mx.ld job reads and checks an accumulator image and replaces the accumulator state, or ends in STATE 4 (R247). -/
  | mxLdJob (cluster : Nat) (job : Nat)
  /-- A scratchpad page that lost its frame is refilled from its backing page for the waiting access (R205). -/
  | scratchPageRefill (cluster : Nat) (lid : Word) (page : Nat)
  /-- A region switch drains, flushes L1s die by die, resets homes and sets the new kind (R269). -/
  | switch (region : Nat)
  /-- A write to a launch-queue descriptor stores only EN while EN reads 1, otherwise every field (R318). -/
  | lqdWrite (q : BitVec 6) (v : DWord)
  /-- A write to TAIL of lqp makes the scheduler read packets from the queue ring (R319). -/
  | doorbell (q : BitVec 6) (tail : BitVec 16)
  /-- The scheduler reads a 128-byte packet, accepts it with a launch id and sampled seed, or refuses it, and advances HEAD (R319). -/
  | packetAcceptance (q : BitVec 6)
  /-- A watched after-token cell changes, making the launch ready or failed (R323). -/
  | launchReady (lid : Word)
  /-- Every 2 ms that a candidate waits its queue's effective level drops by one, down to 1 (R327). -/
  | aging (q : BitVec 6)
  /-- The last thread of a pre-empted launch leaves the Roll and the cores report it suspended (R178). -/
  | launchSuspended (lid : Word)
  /-- A launch with no live context, entry, pending decrement or job writes its completion cell (R325). -/
  | launchCompletion (lid : Word)
  /-- A launch's active time reaches WDOG ms and the launch is ended with STATUS 2 (R340). -/
  | watchdog (lid : Word)
  /-- A write of a launch id to lqk aborts that launch with STATUS 3 (R341). -/
  | abort (q : BitVec 6) (lid : Word)
  /-- A deterministic thread's 2^QLOG-th bundle of the quantum completes and it ends its quantum (R336). -/
  | quantumEnd (core : Nat) (num : Nat)
  /-- Once every thread has ended its quantum, stores commit in key order, operations perform, engines run and threads resume (R337). -/
  | quantumBoundary (lid : Word)
  /-- A gongc write with MODE 00 and GO runs the seven freeze steps and streams the image to host memory (R348). -/
  | freeze (v : DWord)
  /-- A gongc write with MODE 01 and GO freezes, then thaws on the same module from device memory (R351). -/
  | checkpoint (v : DWord)
  /-- A gongc write with MODE 10 and GO checks a manifest and restores its launches, memory and contexts (R352). -/
  | thaw (v : DWord)
  /-- A gongc write with MODE 11 is ignored and sets ERR 1 (R347). -/
  | gongBadMode (v : DWord)
  /-- A host link down for 10 ms ends the Gong stream with ERR 3 (R349). -/
  | hostLinkFailure
  /-- A fatal error stops every island, dumps state and sends machine event 8 (R356). -/
  | fatalError (cause : Word) (die : Nat)
  /-- A cluster's poisonings exceed 16 in one hour and machine event 5 is sent (R354). -/
  | poisonThreshold (cluster : Nat)
  /-- The management controller changes an island's frequency, with machine event 6 (R359). -/
  | throttle (cluster : Nat) (fmhz : BitVec 12) (cause : BitVec 4)
  /-- A cluster island leaves reset, sets AM and starts the boot thread on core 0 (R360). -/
  | islandResetRelease (cluster : Nat)
  /-- A mesh message reaches a core's mailbox and Chimes it, or is discarded at a cluster with no live core (R343). -/
  | messageArrival (core : Nat)
  /-- An 8-byte host write to a die's chime port acts as chime on every die, or raises machine event 10 if non-canonical (R303). -/
  | chimePortWrite (die : Nat) (master : BitVec 20) (v : DWord)
  /-- An aligned 8-byte write to a register block register without behaviour of its own stores its fields (R368). -/
  | registerWrite (master : Option (BitVec 20)) (pa : Nat) (v : DWord)
  /-- A host read or write through BAR0 or BAR2 is checked and performed at its target (R369). -/
  | hostRequest (fn : BitVec 16) (req : HostReq)
  /-- A UALink or Ultra Ethernet request from a peer module is checked and performed (R372). -/
  | peerRequest (sender : Sender) (req : PeerReq)
  /-- A module holding E on a peer page completes its accesses, writes back the page and downgrades its grant (R375). -/
  | grantRecall (page : Nat) (forRead : Bool)
  /-- A recall unanswered for 10 ms poisons the page at its owner and sends machine event 9 (R375). -/
  | recallTimeout (peer : BitVec 10) (page : Nat)
  /-- A collective operation completes at NPART arrivals, writes DST and returns the status to every participant (R382). -/
  | collCompletion (comm : Nat) (k : Nat)
  /-- Every PER ms the package writes a residency report and signals MSI-X vector 1 (R385). -/
  | residencyReport
  /-- Debug command 1 suspends the target at its next instruction boundary (R157). -/
  | halt (die : Nat)
  /-- Debug command 2 resumes a halted target (R157). -/
  | cont (die : Nat)
  /-- Debug command 3 lets a halted target issue one bundle and halts it again (R158). -/
  | step (die : Nat)
  /-- Debug command 4 returns a g register of a halted target (R159). -/
  | rdreg (die : Nat)
  /-- Debug command 5 writes a g register of a halted target and clears its poison (R159). -/
  | wrreg (die : Nat)
  /-- Debug command 6 returns a special register of a halted target (R159). -/
  | rdsreg (die : Nat)
  /-- Debug command 7 writes a special register of a halted target (R159). -/
  | wrsreg (die : Nat)
  /-- Debug command 8 returns the PC of a halted target (R159). -/
  | rdpc (die : Nat)
  /-- Debug command 9 sets the PC used at the next CONT or STEP (R159). -/
  | wrpc (die : Nat)
  /-- The package leaves reset: field diagnostics fence failing clusters, firmware writes the boot map and reset values, and the package waits there after a fatal error until this reset (R357). -/
  | packageReset (failing : List Nat)
  /-- A level-1 candidate has stood at E = 1 for 2 ms while a running level-1 launch has run 2 ms since dispatch, so the scheduler serves again and pre-empts it (R328). -/
  | level1Turn (q : BitVec 6)
  /-- A member module of a communicator, or a peer holding a grant, is lost from the pod, so pending collectives complete with status 4 (R382). -/
  | memberLost (peer : BitVec 10)
  /-- One PCIe host link goes down or comes back, and the homes of both halves of host memory move to the other bridge or return (R370). -/
  | hostLinkDown (iodB : Bool) (down : Bool)
  /-- Branch to the offset target (R117). -/
  | bra (off : BitVec 23)
  /-- Write the return address to g1 and branch (R117). -/
  | call (off : BitVec 23)
  /-- Branch if gA is zero (R117). -/
  | bz (a : RegNo) (off : BitVec 17)
  /-- Branch if gA is non-zero (R117). -/
  | bnz (a : RegNo) (off : BitVec 17)
  /-- Branch if gA equals gB (R117). -/
  | beq (a : RegNo) (b : RegNo) (off : BitVec 11)
  /-- Branch if gA differs from gB (R117). -/
  | bne (a : RegNo) (b : RegNo) (off : BitVec 11)
  /-- Branch if gA is signed-less than gB (R117). -/
  | blt (a : RegNo) (b : RegNo) (off : BitVec 11)
  /-- Branch if gA is signed-greater or equal to gB (R117). -/
  | bge (a : RegNo) (b : RegNo) (off : BitVec 11)
  /-- Branch if gA is unsigned-less than gB (R117). -/
  | blo (a : RegNo) (b : RegNo) (off : BitVec 11)
  /-- Branch if gA is unsigned-higher or same as gB (R117). -/
  | bhs (a : RegNo) (b : RegNo) (off : BitVec 11)
  /-- Count a child on the join block, push the continuation and jump into the child (R190). -/
  | spawn (a : RegNo) (off : BitVec 17)
  /-- Load a 32-bit literal into gD (R102). -/
  | li (d : RegNo) (imm : Word)
  /-- Load a 32-bit literal into the high word of wD (R102). -/
  | lih (d : RegNo) (imm : Word)
  /-- Call a target given by a 32-bit literal offset (R118). -/
  | callx (imm : Word)
  /-- Call the address in wA (R119). -/
  | callr (a : RegNo)
  /-- Return to PC[63:32] :: g1 (R119). -/
  | ret
  /-- Jump to the address in wA (R119). -/
  | jr (a : RegNo)
  /-- Release at system scope, leave the group and retire the thread (R137). -/
  | exit
  /-- Keep the thread from issuing for 64 cycles (R136). -/
  | pause
  /-- End the task: decrement its join block and resume the continuation or retire (R191). -/
  | tdone
  /-- Wait until the join block's PEND is 0, then acquire at system scope (R192). -/
  | join (a : RegNo)
  /-- End the thread named by a handle, converting its deque entries (R196). -/
  | tkill (a : RegNo)
  /-- Continue a faulted thread at its record's RESUME address (R197). -/
  | tresume (a : RegNo)
  /-- Trap with cause TRAP and the code in tval (R138). -/
  | trap (imm : BitVec 17)
  /-- Read a special register (R141). -/
  | sget (d : RegNo) (imm : BitVec 11)
  /-- Write a special register (R142). -/
  | sset (a : RegNo) (imm : BitVec 11)
  /-- Halt for the debugger or trap BRK (R139). -/
  | brk
  /-- Return from a trap handler to tepc, clearing TR (R140). -/
  | tret
  /-- Write back L1 data and invalidate the instruction cache (R133). -/
  | fenceI
  /-- Remove translations of one page in one ASN from every TLB (R298). -/
  | tlbi (a : RegNo)
  /-- Remove every translation of one ASN (R298). -/
  | tlbiAsn (a : RegNo)
  /-- Remove every translation (R298). -/
  | tlbiAll
  /-- Clear a page from the outstanding tables and wake its FAULT waiters and stopped jobs (R303). -/
  | chime (a : RegNo)
  /-- Pin lines in their home L2 slices (R306). -/
  | l2pin (a : RegNo) (b : RegNo)
  /-- Unpin lines in their home L2 slices (R306). -/
  | l2unpin (a : RegNo) (b : RegNo)
  /-- Start switching a region's kind and wait for the switch (R268). -/
  | rgnSet (a : RegNo) (b : RegNo)
  /-- Take a region's ownership token and invalidate its lines in L1 (R270). -/
  | rgnAcq (a : RegNo)
  /-- Release a region's token after a system-scope release (R270). -/
  | rgnRel (a : RegNo)
  /-- Wait until a 4-byte location equals gB (R134). -/
  | waiteqW (a : RegNo) (b : RegNo) (sc : Scope) (od : Ord)
  /-- Wait until a 4-byte location differs from gB (R134). -/
  | waitneW (a : RegNo) (b : RegNo) (sc : Scope) (od : Ord)
  /-- Wait until an 8-byte location equals wB (R134). -/
  | waiteqD (a : RegNo) (b : RegNo) (sc : Scope) (od : Ord)
  /-- Wait until an 8-byte location differs from wB (R134). -/
  | waitneD (a : RegNo) (b : RegNo) (sc : Scope) (od : Ord)
  /-- Load a sign-extended byte (R121). -/
  | ld8s (d : RegNo) (a : RegNo) (sp : Space) (imm : BitVec 9)
  /-- Load a zero-extended byte (R121). -/
  | ld8z (d : RegNo) (a : RegNo) (sp : Space) (imm : BitVec 9)
  /-- Load a sign-extended half word (R121). -/
  | ld16s (d : RegNo) (a : RegNo) (sp : Space) (imm : BitVec 9)
  /-- Load a zero-extended half word (R121). -/
  | ld16z (d : RegNo) (a : RegNo) (sp : Space) (imm : BitVec 9)
  /-- Load a word (R121). -/
  | ld32 (d : RegNo) (a : RegNo) (sp : Space) (imm : BitVec 9)
  /-- Load a double word into a w pair (R121). -/
  | ld64 (d : RegNo) (a : RegNo) (sp : Space) (imm : BitVec 9)
  /-- Load 16 bytes into a quad (R121). -/
  | ld128 (d : RegNo) (a : RegNo) (sp : Space) (imm : BitVec 9)
  /-- Prefetch a line into L1 or L2 (R129). -/
  | pf (d : RegNo) (a : RegNo) (imm : BitVec 9)
  /-- Store a byte (R121). -/
  | st8 (d : RegNo) (a : RegNo) (sp : Space) (imm : BitVec 9)
  /-- Store a half word (R121). -/
  | st16 (d : RegNo) (a : RegNo) (sp : Space) (imm : BitVec 9)
  /-- Store a word (R121). -/
  | st32 (d : RegNo) (a : RegNo) (sp : Space) (imm : BitVec 9)
  /-- Store a w pair (R121). -/
  | st64 (d : RegNo) (a : RegNo) (sp : Space) (imm : BitVec 9)
  /-- Store a quad (R121). -/
  | st128 (d : RegNo) (a : RegNo) (sp : Space) (imm : BitVec 9)
  /-- Load n consecutive words, restartable through tprog (R128). -/
  | ldm (d : RegNo) (a : RegNo) (n : BitVec 5)
  /-- Store n consecutive words, restartable through tprog (R128). -/
  | stm (d : RegNo) (a : RegNo) (n : BitVec 5)
  /-- Ordered sign-extended byte load (R121). -/
  | ld8sOrd (d : RegNo) (a : RegNo) (sc : Scope) (od : Ord)
  /-- Ordered zero-extended byte load (R121). -/
  | ld8zOrd (d : RegNo) (a : RegNo) (sc : Scope) (od : Ord)
  /-- Ordered sign-extended half-word load (R121). -/
  | ld16sOrd (d : RegNo) (a : RegNo) (sc : Scope) (od : Ord)
  /-- Ordered zero-extended half-word load (R121). -/
  | ld16zOrd (d : RegNo) (a : RegNo) (sc : Scope) (od : Ord)
  /-- Ordered word load (R121). -/
  | ld32Ord (d : RegNo) (a : RegNo) (sc : Scope) (od : Ord)
  /-- Ordered double-word load (R121). -/
  | ld64Ord (d : RegNo) (a : RegNo) (sc : Scope) (od : Ord)
  /-- Ordered 16-byte load (R121). -/
  | ld128Ord (d : RegNo) (a : RegNo) (sc : Scope) (od : Ord)
  /-- Order the thread's accesses as sc, acquire, release or acq_rel at a scope (R132). -/
  | fence (sc : Scope) (od : FenceOrd)
  /-- Ordered byte store (R121). -/
  | st8Ord (d : RegNo) (a : RegNo) (sc : Scope) (od : Ord)
  /-- Ordered half-word store (R121). -/
  | st16Ord (d : RegNo) (a : RegNo) (sc : Scope) (od : Ord)
  /-- Ordered word store (R121). -/
  | st32Ord (d : RegNo) (a : RegNo) (sc : Scope) (od : Ord)
  /-- Ordered double-word store (R121). -/
  | st64Ord (d : RegNo) (a : RegNo) (sc : Scope) (od : Ord)
  /-- Ordered 16-byte store (R121). -/
  | st128Ord (d : RegNo) (a : RegNo) (sc : Scope) (od : Ord)
  /-- Atomic 32-bit add (R130). -/
  | amoAddW (d : RegNo) (a : RegNo) (b : RegNo) (sc : Scope) (od : Ord)
  /-- Atomic 64-bit add (R130). -/
  | amoAddD (d : RegNo) (a : RegNo) (b : RegNo) (sc : Scope) (od : Ord)
  /-- Atomic 32-bit and (R130). -/
  | amoAndW (d : RegNo) (a : RegNo) (b : RegNo) (sc : Scope) (od : Ord)
  /-- Atomic 64-bit and (R130). -/
  | amoAndD (d : RegNo) (a : RegNo) (b : RegNo) (sc : Scope) (od : Ord)
  /-- Atomic 32-bit or (R130). -/
  | amoOrW (d : RegNo) (a : RegNo) (b : RegNo) (sc : Scope) (od : Ord)
  /-- Atomic 64-bit or (R130). -/
  | amoOrD (d : RegNo) (a : RegNo) (b : RegNo) (sc : Scope) (od : Ord)
  /-- Atomic 32-bit xor (R130). -/
  | amoXorW (d : RegNo) (a : RegNo) (b : RegNo) (sc : Scope) (od : Ord)
  /-- Atomic 64-bit xor (R130). -/
  | amoXorD (d : RegNo) (a : RegNo) (b : RegNo) (sc : Scope) (od : Ord)
  /-- Atomic 32-bit signed minimum (R130). -/
  | amoMinW (d : RegNo) (a : RegNo) (b : RegNo) (sc : Scope) (od : Ord)
  /-- Atomic 64-bit signed minimum (R130). -/
  | amoMinD (d : RegNo) (a : RegNo) (b : RegNo) (sc : Scope) (od : Ord)
  /-- Atomic 32-bit signed maximum (R130). -/
  | amoMaxW (d : RegNo) (a : RegNo) (b : RegNo) (sc : Scope) (od : Ord)
  /-- Atomic 64-bit signed maximum (R130). -/
  | amoMaxD (d : RegNo) (a : RegNo) (b : RegNo) (sc : Scope) (od : Ord)
  /-- Atomic 32-bit unsigned minimum (R130). -/
  | amoMinnW (d : RegNo) (a : RegNo) (b : RegNo) (sc : Scope) (od : Ord)
  /-- Atomic 64-bit unsigned minimum (R130). -/
  | amoMinnD (d : RegNo) (a : RegNo) (b : RegNo) (sc : Scope) (od : Ord)
  /-- Atomic 32-bit unsigned maximum (R130). -/
  | amoMaxnW (d : RegNo) (a : RegNo) (b : RegNo) (sc : Scope) (od : Ord)
  /-- Atomic 64-bit unsigned maximum (R130). -/
  | amoMaxnD (d : RegNo) (a : RegNo) (b : RegNo) (sc : Scope) (od : Ord)
  /-- Atomic 32-bit swap (R130). -/
  | amoSwpW (d : RegNo) (a : RegNo) (b : RegNo) (sc : Scope) (od : Ord)
  /-- Atomic 64-bit swap (R130). -/
  | amoSwpD (d : RegNo) (a : RegNo) (b : RegNo) (sc : Scope) (od : Ord)
  /-- Atomic 32-bit compare and swap (R130). -/
  | amoCasW (d : RegNo) (a : RegNo) (b : RegNo) (sc : Scope) (od : Ord)
  /-- Atomic 64-bit compare and swap (R130). -/
  | amoCasD (d : RegNo) (a : RegNo) (b : RegNo) (sc : Scope) (od : Ord)
  /-- Atomic f32 add rounded by rne (R130). -/
  | amoFaddW (d : RegNo) (a : RegNo) (b : RegNo) (sc : Scope) (od : Ord)
  /-- Atomic f64 add rounded by rne (R130). -/
  | amoFaddD (d : RegNo) (a : RegNo) (b : RegNo) (sc : Scope) (od : Ord)
  /-- Atomic f32 minimum (R130). -/
  | amoFminW (d : RegNo) (a : RegNo) (b : RegNo) (sc : Scope) (od : Ord)
  /-- Atomic f64 minimum (R130). -/
  | amoFminD (d : RegNo) (a : RegNo) (b : RegNo) (sc : Scope) (od : Ord)
  /-- Atomic f32 maximum (R130). -/
  | amoFmaxW (d : RegNo) (a : RegNo) (b : RegNo) (sc : Scope) (od : Ord)
  /-- Atomic f64 maximum (R130). -/
  | amoFmaxD (d : RegNo) (a : RegNo) (b : RegNo) (sc : Scope) (od : Ord)
  /-- Release through a sync cell, storing VALUE, clave and horizon (R275). -/
  | srel (d : RegNo) (a : RegNo) (sc : Scope)
  /-- Acquire through a sync cell, invalidating lines its clave or horizon names (R275). -/
  | sacq (d : RegNo) (a : RegNo) (sc : Scope)
  /-- Add to a sync cell's VALUE as an acq_rel operation (R275). -/
  | sadd (d : RegNo) (a : RegNo) (b : RegNo) (sc : Scope)
  /-- Compare and swap a sync cell's VALUE (R275). -/
  | scas (d : RegNo) (a : RegNo) (b : RegNo) (sc : Scope)
  /-- Bind or unbind a ring handle, creating the ring entry if needed (R207). -/
  | rbind (d : RegNo) (a : RegNo)
  /-- Wait until n slots are filled, then acquire (R209). -/
  | rwf (d : RegNo) (a : RegNo)
  /-- Wait until n slots are free, then acquire (R209). -/
  | rwe (d : RegNo) (a : RegNo)
  /-- Release and claim n filled slots as producer (R209). -/
  | radvp (d : RegNo) (a : RegNo)
  /-- Release and give back n slots as consumer (R209). -/
  | radvc (d : RegNo) (a : RegNo)
  /-- Return the interleave address of a slot relative to CP or CLM (R210). -/
  | raddr (d : RegNo) (a : RegNo) (b : RegNo)
  /-- Return the bytes arrived in a slot and acquire them (R210). -/
  | rbytes (d : RegNo) (a : RegNo) (b : RegNo)
  /-- Bind or unbind a queue register to a logical queue (R174). -/
  | qbind (d : RegNo) (a : RegNo)
  /-- Arrive at a convocation and receive a rank when the group forms (R230). -/
  | conv (d : RegNo) (a : RegNo) (b : RegNo)
  /-- Group barrier (R233). -/
  | gbar
  /-- Broadcast the root's 32-bit value to the group (R233). -/
  | gbc (d : RegNo) (a : RegNo) (b : RegNo)
  /-- Broadcast the root's 64-bit value to the group (R233). -/
  | gbcD (d : RegNo) (a : RegNo) (b : RegNo)
  /-- Leave the group (R236). -/
  | gdis
  /-- Group tree reduction, f32 sum (R234). -/
  | gredAddF32 (d : RegNo) (a : RegNo)
  /-- Group tree reduction, f64 sum (R234). -/
  | gredAddF64 (d : RegNo) (a : RegNo)
  /-- Group compensated f32 sum (R235). -/
  | gredCaddF32 (d : RegNo) (a : RegNo)
  /-- Group reduction, i32 sum (R234). -/
  | gredAddI32 (d : RegNo) (a : RegNo)
  /-- Group reduction, i64 sum (R234). -/
  | gredAddI64 (d : RegNo) (a : RegNo)
  /-- Group reduction, f32 maximum (R234). -/
  | gredMaxF32 (d : RegNo) (a : RegNo)
  /-- Group reduction, f32 minimum (R234). -/
  | gredMinF32 (d : RegNo) (a : RegNo)
  /-- Group reduction, f64 maximum (R234). -/
  | gredMaxF64 (d : RegNo) (a : RegNo)
  /-- Group reduction, f64 minimum (R234). -/
  | gredMinF64 (d : RegNo) (a : RegNo)
  /-- Group reduction, i32 maximum (R234). -/
  | gredMaxI32 (d : RegNo) (a : RegNo)
  /-- Group reduction, i32 minimum (R234). -/
  | gredMinI32 (d : RegNo) (a : RegNo)
  /-- Group reduction, bitwise and (R234). -/
  | gredAnd (d : RegNo) (a : RegNo)
  /-- Group reduction, bitwise or (R234). -/
  | gredOr (d : RegNo) (a : RegNo)
  /-- Group reduction, bitwise xor (R234). -/
  | gredXor (d : RegNo) (a : RegNo)
  /-- Issue a TCE job between global memory and scratchpad (R214). -/
  | tcopy (d : RegNo) (a : RegNo) (b : RegNo)
  /-- Issue a TCE job within the scratchpad (R214). -/
  | scopy (d : RegNo) (a : RegNo) (b : RegNo)
  /-- Issue a TCE fill job (R214). -/
  | tfill (d : RegNo) (a : RegNo) (b : RegNo)
  /-- Wait for an engine job and acquire its writes (R222). -/
  | ewait (a : RegNo)
  /-- Read an engine job's state and sectors done (R223). -/
  | eprog (d : RegNo) (a : RegNo)
  /-- Claim, reconfigure or release an accumulator (R239). -/
  | mxCfg (d : RegNo) (a : RegNo)
  /-- Enqueue a job that empties an accumulator (R244). -/
  | mxZero (d : RegNo)
  /-- Issue a job loading an accumulator image and park until it ends (R247). -/
  | mxLd (d : RegNo) (a : RegNo)
  /-- Issue a store job for an accumulator and park until it ends (R246). -/
  | mxSt (d : RegNo) (a : RegNo) (b : RegNo)
  /-- Issue a job inserting an external tree node (R245). -/
  | mxMerge (d : RegNo) (a : RegNo) (b : RegNo)
  /-- Issue an f64 matrix chunk into an accumulator (R243). -/
  | mmaF64 (d : RegNo) (a : RegNo) (b : RegNo)
  /-- Issue an f32 matrix chunk (R243). -/
  | mmaF32 (d : RegNo) (a : RegNo) (b : RegNo)
  /-- Issue a bf16 matrix chunk (R243). -/
  | mmaBf16 (d : RegNo) (a : RegNo) (b : RegNo)
  /-- Issue an f16 matrix chunk (R243). -/
  | mmaF16 (d : RegNo) (a : RegNo) (b : RegNo)
  /-- Issue an e4m3 matrix chunk (R243). -/
  | mmaE4m3 (d : RegNo) (a : RegNo) (b : RegNo)
  /-- Issue an e5m2 matrix chunk (R243). -/
  | mmaE5m2 (d : RegNo) (a : RegNo) (b : RegNo)
  /-- Issue an MXFP8 matrix chunk (R243). -/
  | mmaMx8 (d : RegNo) (a : RegNo) (b : RegNo)
  /-- Issue an FP4 matrix chunk (R243). -/
  | mmaE2m1 (d : RegNo) (a : RegNo) (b : RegNo)
  /-- Offer a launch packet to the issuer's launch queue (R335). -/
  | launch (d : RegNo) (a : RegNo)
  /-- Send a 64-byte mesh message to one core (R344). -/
  | nsend (a : RegNo) (b : RegNo)
  /-- Take the oldest message of the core's mailbox (R345). -/
  | nrecv (d : RegNo) (a : RegNo)
  /-- Multicast a mesh message over a rectangle of clusters (R346). -/
  | nmcast (a : RegNo) (b : RegNo)
  /-- Collective f32 sum across modules (R382). -/
  | collRedAddF32 (d : RegNo) (a : RegNo)
  /-- Collective f64 sum (R382). -/
  | collRedAddF64 (d : RegNo) (a : RegNo)
  /-- Collective compensated f32 sum (R382). -/
  | collRedCaddF32 (d : RegNo) (a : RegNo)
  /-- Collective i32 sum (R382). -/
  | collRedAddI32 (d : RegNo) (a : RegNo)
  /-- Collective i64 sum (R382). -/
  | collRedAddI64 (d : RegNo) (a : RegNo)
  /-- Collective f32 maximum (R382). -/
  | collRedMaxF32 (d : RegNo) (a : RegNo)
  /-- Collective f32 minimum (R382). -/
  | collRedMinF32 (d : RegNo) (a : RegNo)
  /-- Collective f64 maximum (R382). -/
  | collRedMaxF64 (d : RegNo) (a : RegNo)
  /-- Collective f64 minimum (R382). -/
  | collRedMinF64 (d : RegNo) (a : RegNo)
  /-- Collective i32 maximum (R382). -/
  | collRedMaxI32 (d : RegNo) (a : RegNo)
  /-- Collective i32 minimum (R382). -/
  | collRedMinI32 (d : RegNo) (a : RegNo)
  /-- Collective bitwise and (R382). -/
  | collRedAnd (d : RegNo) (a : RegNo)
  /-- Collective bitwise or (R382). -/
  | collRedOr (d : RegNo) (a : RegNo)
  /-- Collective bitwise xor (R382). -/
  | collRedXor (d : RegNo) (a : RegNo)
  /-- Collective broadcast from the root (R382). -/
  | collBc (d : RegNo) (a : RegNo)
  /-- Collective all-gather (R382). -/
  | collAg (d : RegNo) (a : RegNo)
  /-- 32-bit add (R94). -/
  | add (d : RegNo) (a : RegNo) (b : RegNo)
  /-- 32-bit subtract (R94). -/
  | sub (d : RegNo) (a : RegNo) (b : RegNo)
  /-- Low 32 bits of a product (R94). -/
  | mul (d : RegNo) (a : RegNo) (b : RegNo)
  /-- High 32 bits of a signed product (R94). -/
  | mulh (d : RegNo) (a : RegNo) (b : RegNo)
  /-- High 32 bits of an unsigned product (R94). -/
  | mulhn (d : RegNo) (a : RegNo) (b : RegNo)
  /-- Signed division (R95). -/
  | div (d : RegNo) (a : RegNo) (b : RegNo)
  /-- Unsigned division (R95). -/
  | divn (d : RegNo) (a : RegNo) (b : RegNo)
  /-- Signed remainder (R95). -/
  | rem (d : RegNo) (a : RegNo) (b : RegNo)
  /-- Unsigned remainder (R95). -/
  | remn (d : RegNo) (a : RegNo) (b : RegNo)
  /-- Signed minimum (R94). -/
  | min (d : RegNo) (a : RegNo) (b : RegNo)
  /-- Signed maximum (R94). -/
  | max (d : RegNo) (a : RegNo) (b : RegNo)
  /-- Unsigned minimum (R94). -/
  | minn (d : RegNo) (a : RegNo) (b : RegNo)
  /-- Unsigned maximum (R94). -/
  | maxn (d : RegNo) (a : RegNo) (b : RegNo)
  /-- Absolute value (R94). -/
  | abs (d : RegNo) (a : RegNo)
  /-- Bitwise and (R94). -/
  | and (d : RegNo) (a : RegNo) (b : RegNo)
  /-- Bitwise or (R94). -/
  | or (d : RegNo) (a : RegNo) (b : RegNo)
  /-- Bitwise xor (R94). -/
  | xor (d : RegNo) (a : RegNo) (b : RegNo)
  /-- Shift left by the whole register amount (R96). -/
  | shl (d : RegNo) (a : RegNo) (b : RegNo)
  /-- Logical shift right (R96). -/
  | shr (d : RegNo) (a : RegNo) (b : RegNo)
  /-- Arithmetic shift right (R96). -/
  | sar (d : RegNo) (a : RegNo) (b : RegNo)
  /-- Count leading zeros (R94). -/
  | clz (d : RegNo) (a : RegNo)
  /-- Count trailing zeros (R94). -/
  | ctz (d : RegNo) (a : RegNo)
  /-- Count one bits (R94). -/
  | popc (d : RegNo) (a : RegNo)
  /-- Reverse bits (R94). -/
  | brev (d : RegNo) (a : RegNo)
  /-- Extract a bit field (R97). -/
  | bfx (d : RegNo) (a : RegNo) (b : RegNo)
  /-- Insert a bit field into gD (R97). -/
  | bfi (d : RegNo) (a : RegNo) (b : RegNo)
  /-- Set if signed less (R94). -/
  | slt (d : RegNo) (a : RegNo) (b : RegNo)
  /-- Set if unsigned less (R94). -/
  | sltn (d : RegNo) (a : RegNo) (b : RegNo)
  /-- Set if equal (R94). -/
  | seq (d : RegNo) (a : RegNo) (b : RegNo)
  /-- Set if not equal (R94). -/
  | sne (d : RegNo) (a : RegNo) (b : RegNo)
  /-- Step rngs and return the new state (R98). -/
  | rng (d : RegNo)
  /-- 64-bit add (R99). -/
  | addD (d : RegNo) (a : RegNo) (b : RegNo)
  /-- 64-bit subtract (R99). -/
  | subD (d : RegNo) (a : RegNo) (b : RegNo)
  /-- Low 64 bits of a product (R99). -/
  | mulD (d : RegNo) (a : RegNo) (b : RegNo)
  /-- 64-bit shift left (R99). -/
  | shlD (d : RegNo) (a : RegNo) (b : RegNo)
  /-- 64-bit logical shift right (R99). -/
  | shrD (d : RegNo) (a : RegNo) (b : RegNo)
  /-- 64-bit arithmetic shift right (R99). -/
  | sarD (d : RegNo) (a : RegNo) (b : RegNo)
  /-- 64-bit and (R99). -/
  | andD (d : RegNo) (a : RegNo) (b : RegNo)
  /-- 64-bit or (R99). -/
  | orD (d : RegNo) (a : RegNo) (b : RegNo)
  /-- 64-bit xor (R99). -/
  | xorD (d : RegNo) (a : RegNo) (b : RegNo)
  /-- 64-bit signed minimum (R99). -/
  | minD (d : RegNo) (a : RegNo) (b : RegNo)
  /-- 64-bit signed maximum (R99). -/
  | maxD (d : RegNo) (a : RegNo) (b : RegNo)
  /-- 64-bit unsigned minimum (R99). -/
  | minnD (d : RegNo) (a : RegNo) (b : RegNo)
  /-- 64-bit unsigned maximum (R99). -/
  | maxnD (d : RegNo) (a : RegNo) (b : RegNo)
  /-- Set gD if signed 64-bit less (R99). -/
  | sltD (d : RegNo) (a : RegNo) (b : RegNo)
  /-- Set gD if unsigned 64-bit less (R99). -/
  | sltnD (d : RegNo) (a : RegNo) (b : RegNo)
  /-- Set gD if 64-bit equal (R99). -/
  | seqD (d : RegNo) (a : RegNo) (b : RegNo)
  /-- Add a signed immediate (R100). -/
  | addi (d : RegNo) (a : RegNo) (imm : BitVec 11)
  /-- And with an immediate (R100). -/
  | andi (d : RegNo) (a : RegNo) (imm : BitVec 11)
  /-- Or with an immediate (R100). -/
  | ori (d : RegNo) (a : RegNo) (imm : BitVec 11)
  /-- Xor with an immediate (R100). -/
  | xori (d : RegNo) (a : RegNo) (imm : BitVec 11)
  /-- Set if signed less than an immediate (R100). -/
  | slti (d : RegNo) (a : RegNo) (imm : BitVec 11)
  /-- Shift left by an immediate (R100). -/
  | shli (d : RegNo) (a : RegNo) (imm : BitVec 5)
  /-- Logical shift right by an immediate (R100). -/
  | shri (d : RegNo) (a : RegNo) (imm : BitVec 5)
  /-- Arithmetic shift right by an immediate (R100). -/
  | sari (d : RegNo) (a : RegNo) (imm : BitVec 5)
  /-- Load a shifted 17-bit immediate (R101). -/
  | lui (d : RegNo) (imm : BitVec 17)
  /-- f32 add (R104). -/
  | fadd (d : RegNo) (a : RegNo) (b : RegNo)
  /-- f32 subtract (R104). -/
  | fsub (d : RegNo) (a : RegNo) (b : RegNo)
  /-- f32 multiply (R104). -/
  | fmul (d : RegNo) (a : RegNo) (b : RegNo)
  /-- f32 divide (R104). -/
  | fdiv (d : RegNo) (a : RegNo) (b : RegNo)
  /-- f32 square root (R104). -/
  | fsqrt (d : RegNo) (a : RegNo)
  /-- f32 minimumNumber (R105). -/
  | fmin (d : RegNo) (a : RegNo) (b : RegNo)
  /-- f32 maximumNumber (R105). -/
  | fmax (d : RegNo) (a : RegNo) (b : RegNo)
  /-- Clear the f32 sign bit (R107). -/
  | fabs (d : RegNo) (a : RegNo)
  /-- Invert the f32 sign bit (R107). -/
  | fneg (d : RegNo) (a : RegNo)
  /-- f32 equal compare (R106). -/
  | feq (d : RegNo) (a : RegNo) (b : RegNo)
  /-- f32 less-than compare (R106). -/
  | flt (d : RegNo) (a : RegNo) (b : RegNo)
  /-- f32 less-or-equal compare (R106). -/
  | fle (d : RegNo) (a : RegNo) (b : RegNo)
  /-- f32 unordered compare (R106). -/
  | funOrd (d : RegNo) (a : RegNo) (b : RegNo)
  /-- Classify an f32 (R108). -/
  | fclass (d : RegNo) (a : RegNo)
  /-- Round an f32 to an integral f32 (R109). -/
  | frnd (d : RegNo) (a : RegNo) (b : RegNo) (rm : RmField)
  /-- f64 add (R104). -/
  | dadd (d : RegNo) (a : RegNo) (b : RegNo)
  /-- f64 subtract (R104). -/
  | dsub (d : RegNo) (a : RegNo) (b : RegNo)
  /-- f64 multiply (R104). -/
  | dmul (d : RegNo) (a : RegNo) (b : RegNo)
  /-- f64 divide (R104). -/
  | ddiv (d : RegNo) (a : RegNo) (b : RegNo)
  /-- f64 square root (R104). -/
  | dsqrt (d : RegNo) (a : RegNo)
  /-- f64 minimumNumber (R105). -/
  | dmin (d : RegNo) (a : RegNo) (b : RegNo)
  /-- f64 maximumNumber (R105). -/
  | dmax (d : RegNo) (a : RegNo) (b : RegNo)
  /-- Clear the f64 sign bit (R107). -/
  | dabs (d : RegNo) (a : RegNo)
  /-- Invert the f64 sign bit (R107). -/
  | dneg (d : RegNo) (a : RegNo)
  /-- f64 equal compare (R106). -/
  | deq (d : RegNo) (a : RegNo) (b : RegNo)
  /-- f64 less-than compare (R106). -/
  | dlt (d : RegNo) (a : RegNo) (b : RegNo)
  /-- f64 less-or-equal compare (R106). -/
  | dle (d : RegNo) (a : RegNo) (b : RegNo)
  /-- f64 unordered compare (R106). -/
  | dunOrd (d : RegNo) (a : RegNo) (b : RegNo)
  /-- Classify an f64 (R108). -/
  | dclass (d : RegNo) (a : RegNo)
  /-- Round an f64 to an integral f64 (R109). -/
  | drnd (d : RegNo) (a : RegNo) (b : RegNo) (rm : RmField)
  /-- Packed f16 add (R110). -/
  | p2addH (d : RegNo) (a : RegNo) (b : RegNo)
  /-- Packed f16 subtract (R110). -/
  | p2subH (d : RegNo) (a : RegNo) (b : RegNo)
  /-- Packed f16 multiply (R110). -/
  | p2mulH (d : RegNo) (a : RegNo) (b : RegNo)
  /-- Packed f16 fused multiply-add into gD (R110). -/
  | p2fmaH (d : RegNo) (a : RegNo) (b : RegNo)
  /-- Packed f16 minimum (R110). -/
  | p2minH (d : RegNo) (a : RegNo) (b : RegNo)
  /-- Packed f16 maximum (R110). -/
  | p2maxH (d : RegNo) (a : RegNo) (b : RegNo)
  /-- Packed bf16 add (R110). -/
  | p2addB (d : RegNo) (a : RegNo) (b : RegNo)
  /-- Packed bf16 subtract (R110). -/
  | p2subB (d : RegNo) (a : RegNo) (b : RegNo)
  /-- Packed bf16 multiply (R110). -/
  | p2mulB (d : RegNo) (a : RegNo) (b : RegNo)
  /-- Packed bf16 fused multiply-add into gD (R110). -/
  | p2fmaB (d : RegNo) (a : RegNo) (b : RegNo)
  /-- Packed bf16 minimum (R110). -/
  | p2minB (d : RegNo) (a : RegNo) (b : RegNo)
  /-- Packed bf16 maximum (R110). -/
  | p2maxB (d : RegNo) (a : RegNo) (b : RegNo)
  /-- Convert f32 to f64 (R113). -/
  | cvtF64F32 (d : RegNo) (a : RegNo) (b : RegNo) (rm : RmField) (sat : Bool)
  /-- Convert f16 to f64 (R113). -/
  | cvtF64F16 (d : RegNo) (a : RegNo) (b : RegNo) (rm : RmField) (sat : Bool)
  /-- Convert bf16 to f64 (R113). -/
  | cvtF64Bf16 (d : RegNo) (a : RegNo) (b : RegNo) (rm : RmField) (sat : Bool)
  /-- Convert e4m3 to f64 (R113). -/
  | cvtF64E4m3 (d : RegNo) (a : RegNo) (b : RegNo) (rm : RmField) (sat : Bool)
  /-- Convert e5m2 to f64 (R113). -/
  | cvtF64E5m2 (d : RegNo) (a : RegNo) (b : RegNo) (rm : RmField) (sat : Bool)
  /-- Convert i32 to f64 (R113). -/
  | cvtF64I32 (d : RegNo) (a : RegNo) (b : RegNo) (rm : RmField) (sat : Bool)
  /-- Convert n32 to f64 (R113). -/
  | cvtF64N32 (d : RegNo) (a : RegNo) (b : RegNo) (rm : RmField) (sat : Bool)
  /-- Convert i64 to f64 (R113). -/
  | cvtF64I64 (d : RegNo) (a : RegNo) (b : RegNo) (rm : RmField) (sat : Bool)
  /-- Convert n64 to f64 (R113). -/
  | cvtF64N64 (d : RegNo) (a : RegNo) (b : RegNo) (rm : RmField) (sat : Bool)
  /-- Convert f64 to f32 (R113). -/
  | cvtF32F64 (d : RegNo) (a : RegNo) (b : RegNo) (rm : RmField) (sat : Bool)
  /-- Convert f16 to f32 (R113). -/
  | cvtF32F16 (d : RegNo) (a : RegNo) (b : RegNo) (rm : RmField) (sat : Bool)
  /-- Convert bf16 to f32 (R113). -/
  | cvtF32Bf16 (d : RegNo) (a : RegNo) (b : RegNo) (rm : RmField) (sat : Bool)
  /-- Convert e4m3 to f32 (R113). -/
  | cvtF32E4m3 (d : RegNo) (a : RegNo) (b : RegNo) (rm : RmField) (sat : Bool)
  /-- Convert e5m2 to f32 (R113). -/
  | cvtF32E5m2 (d : RegNo) (a : RegNo) (b : RegNo) (rm : RmField) (sat : Bool)
  /-- Convert e2m1 to f32 (R113). -/
  | cvtF32E2m1 (d : RegNo) (a : RegNo) (b : RegNo) (rm : RmField) (sat : Bool)
  /-- Convert e8m0 to f32 (R113). -/
  | cvtF32E8m0 (d : RegNo) (a : RegNo) (b : RegNo) (rm : RmField) (sat : Bool)
  /-- Convert e3m5 to f32 (R113). -/
  | cvtF32E3m5 (d : RegNo) (a : RegNo) (b : RegNo) (rm : RmField) (sat : Bool)
  /-- Convert i32 to f32 (R113). -/
  | cvtF32I32 (d : RegNo) (a : RegNo) (b : RegNo) (rm : RmField) (sat : Bool)
  /-- Convert n32 to f32 (R113). -/
  | cvtF32N32 (d : RegNo) (a : RegNo) (b : RegNo) (rm : RmField) (sat : Bool)
  /-- Convert i64 to f32 (R113). -/
  | cvtF32I64 (d : RegNo) (a : RegNo) (b : RegNo) (rm : RmField) (sat : Bool)
  /-- Convert n64 to f32 (R113). -/
  | cvtF32N64 (d : RegNo) (a : RegNo) (b : RegNo) (rm : RmField) (sat : Bool)
  /-- Convert f64 to f16 (R113). -/
  | cvtF16F64 (d : RegNo) (a : RegNo) (b : RegNo) (rm : RmField) (sat : Bool)
  /-- Convert f32 to f16 (R113). -/
  | cvtF16F32 (d : RegNo) (a : RegNo) (b : RegNo) (rm : RmField) (sat : Bool)
  /-- Convert bf16 to f16 (R113). -/
  | cvtF16Bf16 (d : RegNo) (a : RegNo) (b : RegNo) (rm : RmField) (sat : Bool)
  /-- Convert e4m3 to f16 (R113). -/
  | cvtF16E4m3 (d : RegNo) (a : RegNo) (b : RegNo) (rm : RmField) (sat : Bool)
  /-- Convert e5m2 to f16 (R113). -/
  | cvtF16E5m2 (d : RegNo) (a : RegNo) (b : RegNo) (rm : RmField) (sat : Bool)
  /-- Convert f64 to bf16 (R113). -/
  | cvtBf16F64 (d : RegNo) (a : RegNo) (b : RegNo) (rm : RmField) (sat : Bool)
  /-- Convert f32 to bf16 (R113). -/
  | cvtBf16F32 (d : RegNo) (a : RegNo) (b : RegNo) (rm : RmField) (sat : Bool)
  /-- Convert f16 to bf16 (R113). -/
  | cvtBf16F16 (d : RegNo) (a : RegNo) (b : RegNo) (rm : RmField) (sat : Bool)
  /-- Convert e4m3 to bf16 (R113). -/
  | cvtBf16E4m3 (d : RegNo) (a : RegNo) (b : RegNo) (rm : RmField) (sat : Bool)
  /-- Convert e5m2 to bf16 (R113). -/
  | cvtBf16E5m2 (d : RegNo) (a : RegNo) (b : RegNo) (rm : RmField) (sat : Bool)
  /-- Convert f64 to e4m3 (R113). -/
  | cvtE4m3F64 (d : RegNo) (a : RegNo) (b : RegNo) (rm : RmField) (sat : Bool)
  /-- Convert f32 to e4m3 (R113). -/
  | cvtE4m3F32 (d : RegNo) (a : RegNo) (b : RegNo) (rm : RmField) (sat : Bool)
  /-- Convert f16 to e4m3 (R113). -/
  | cvtE4m3F16 (d : RegNo) (a : RegNo) (b : RegNo) (rm : RmField) (sat : Bool)
  /-- Convert bf16 to e4m3 (R113). -/
  | cvtE4m3Bf16 (d : RegNo) (a : RegNo) (b : RegNo) (rm : RmField) (sat : Bool)
  /-- Convert e5m2 to e4m3 (R113). -/
  | cvtE4m3E5m2 (d : RegNo) (a : RegNo) (b : RegNo) (rm : RmField) (sat : Bool)
  /-- Convert f64 to e5m2 (R113). -/
  | cvtE5m2F64 (d : RegNo) (a : RegNo) (b : RegNo) (rm : RmField) (sat : Bool)
  /-- Convert f32 to e5m2 (R113). -/
  | cvtE5m2F32 (d : RegNo) (a : RegNo) (b : RegNo) (rm : RmField) (sat : Bool)
  /-- Convert f16 to e5m2 (R113). -/
  | cvtE5m2F16 (d : RegNo) (a : RegNo) (b : RegNo) (rm : RmField) (sat : Bool)
  /-- Convert bf16 to e5m2 (R113). -/
  | cvtE5m2Bf16 (d : RegNo) (a : RegNo) (b : RegNo) (rm : RmField) (sat : Bool)
  /-- Convert e4m3 to e5m2 (R113). -/
  | cvtE5m2E4m3 (d : RegNo) (a : RegNo) (b : RegNo) (rm : RmField) (sat : Bool)
  /-- Convert f64 to e2m1 (R113). -/
  | cvtE2m1F64 (d : RegNo) (a : RegNo) (b : RegNo) (rm : RmField) (sat : Bool)
  /-- Convert f32 to e2m1 (R113). -/
  | cvtE2m1F32 (d : RegNo) (a : RegNo) (b : RegNo) (rm : RmField) (sat : Bool)
  /-- Convert f16 to e2m1 (R113). -/
  | cvtE2m1F16 (d : RegNo) (a : RegNo) (b : RegNo) (rm : RmField) (sat : Bool)
  /-- Convert bf16 to e2m1 (R113). -/
  | cvtE2m1Bf16 (d : RegNo) (a : RegNo) (b : RegNo) (rm : RmField) (sat : Bool)
  /-- Convert f32 to e8m0 (R113). -/
  | cvtE8m0F32 (d : RegNo) (a : RegNo) (b : RegNo) (rm : RmField) (sat : Bool)
  /-- Convert f32 to e3m5 (R113). -/
  | cvtE3m5F32 (d : RegNo) (a : RegNo) (b : RegNo) (rm : RmField) (sat : Bool)
  /-- Convert f64 to i32 (R113). -/
  | cvtI32F64 (d : RegNo) (a : RegNo) (b : RegNo) (rm : RmField) (sat : Bool)
  /-- Convert f32 to i32 (R113). -/
  | cvtI32F32 (d : RegNo) (a : RegNo) (b : RegNo) (rm : RmField) (sat : Bool)
  /-- Convert i64 to i32 (R113). -/
  | cvtI32I64 (d : RegNo) (a : RegNo) (sat : Bool)
  /-- Convert f64 to n32 (R113). -/
  | cvtN32F64 (d : RegNo) (a : RegNo) (b : RegNo) (rm : RmField) (sat : Bool)
  /-- Convert f32 to n32 (R113). -/
  | cvtN32F32 (d : RegNo) (a : RegNo) (b : RegNo) (rm : RmField) (sat : Bool)
  /-- Convert n64 to n32 (R113). -/
  | cvtN32N64 (d : RegNo) (a : RegNo) (sat : Bool)
  /-- Convert f64 to i64 (R113). -/
  | cvtI64F64 (d : RegNo) (a : RegNo) (b : RegNo) (rm : RmField) (sat : Bool)
  /-- Convert f32 to i64 (R113). -/
  | cvtI64F32 (d : RegNo) (a : RegNo) (b : RegNo) (rm : RmField) (sat : Bool)
  /-- Convert i32 to i64 (R113). -/
  | cvtI64I32 (d : RegNo) (a : RegNo) (sat : Bool)
  /-- Convert f64 to n64 (R113). -/
  | cvtN64F64 (d : RegNo) (a : RegNo) (b : RegNo) (rm : RmField) (sat : Bool)
  /-- Convert f32 to n64 (R113). -/
  | cvtN64F32 (d : RegNo) (a : RegNo) (b : RegNo) (rm : RmField) (sat : Bool)
  /-- Convert n32 to n64 (R113). -/
  | cvtN64N32 (d : RegNo) (a : RegNo) (sat : Bool)
  /-- Convert i32 to i8 (R113). -/
  | cvtI8I32 (d : RegNo) (a : RegNo) (sat : Bool)
  /-- Convert i32 to n8 (R113). -/
  | cvtN8I32 (d : RegNo) (a : RegNo) (sat : Bool)
  /-- Convert i32 to i16 (R113). -/
  | cvtI16I32 (d : RegNo) (a : RegNo) (sat : Bool)
  /-- Convert i32 to n16 (R113). -/
  | cvtN16I32 (d : RegNo) (a : RegNo) (sat : Bool)
  /-- Convert two f32 into two e4m3 byte lanes of gD (R115). -/
  | cvtpE4m3 (d : RegNo) (a : RegNo) (b : RegNo) (rm : RmField) (sat : Bool) (h : Bool)
  /-- Convert two f32 into two e5m2 byte lanes of gD (R115). -/
  | cvtpE5m2 (d : RegNo) (a : RegNo) (b : RegNo) (rm : RmField) (sat : Bool) (h : Bool)
  /-- Convert two f32 into e2m1 nibble lanes 0 to 3 of gD (R115). -/
  | cvtpE2m1Low (d : RegNo) (a : RegNo) (b : RegNo) (rm : RmField) (sat : Bool) (h : Bool)
  /-- Convert two f32 into e2m1 nibble lanes 4 to 7 of gD (R115). -/
  | cvtpE2m1High (d : RegNo) (a : RegNo) (b : RegNo) (rm : RmField) (sat : Bool) (h : Bool)
  /-- Convert two f32 into packed f16 (R115). -/
  | cvtpF16 (d : RegNo) (a : RegNo) (b : RegNo) (rm : RmField) (sat : Bool)
  /-- Convert two f32 into packed bf16 (R115). -/
  | cvtpBf16 (d : RegNo) (a : RegNo) (b : RegNo) (rm : RmField) (sat : Bool)
  /-- f32 fused multiply-add with one rounding (R111). -/
  | ffma (d : RegNo) (a : RegNo) (b : RegNo) (c : RegNo)
  /-- f64 fused multiply-add with one rounding (R111). -/
  | dfma (d : RegNo) (a : RegNo) (b : RegNo) (c : RegNo)
  /-- 32-bit integer multiply-add (R112). -/
  | imad (d : RegNo) (a : RegNo) (b : RegNo) (c : RegNo)
  /-- Select gA or gB by gC (R112). -/
  | sel (d : RegNo) (a : RegNo) (b : RegNo) (c : RegNo)
  deriving DecidableEq, Repr

end Sys2Proof
end

