-- ==== Sys2Proof/Machine/Flags.lean ====
section
/-! DEFINITION. The five sticky flags of `fctl` (R12, R27) and the rounding modes (R48). Every function
that computes a rounded value returns the flags it raises; an instruction ORs them into `fctl` (R49),
and an engine, a reduction or an atomic drops them (R12). -/

namespace Sys2Proof.Machine

/-- A set of flags, in the places they have in `fctl`[4:0] (R27). -/
abbrev Flags := BitVec 5

/-- Invalid operation (R27). -/
def flagNV : Flags := 0x10#5
/-- Division by zero (R27). -/
def flagDZ : Flags := 0x08#5
/-- Overflow (R27). -/
def flagOF : Flags := 0x04#5
/-- Underflow (R27). -/
def flagUF : Flags := 0x02#5
/-- Inexact (R27). -/
def flagNX : Flags := 0x01#5

/-- A flag that is raised where a condition holds. -/
def flagIf (c : Bool) (f : Flags) : Flags := if c then f else 0#5

/-- A rounding mode (R48): the four of `fctl`.RM, and stochastic rounding. -/
inductive Rm where
  | rne | rtz | rup | rdn | rs
  deriving DecidableEq, Repr

/-- The mode that `fctl`[10:8] names; no write leaves a code above 011 there (R27). -/
def Rm.ofFctl (fctl : Word) : Rm :=
  match (fctl.extractLsb' 8 3).toNat with
  | 0 => .rne
  | 1 => .rtz
  | 2 => .rup
  | _ => .rdn

/-- The mode of a rounding field, where 111 takes the mode that `fctl` held at the start of the bundle
(R48, R49). -/
def RmField.mode (fctl : Word) : RmField → Rm
  | .rne => .rne
  | .rtz => .rtz
  | .rup => .rup
  | .rdn => .rdn
  | .rs => .rs
  | .dyn => Rm.ofFctl fctl

/-- SetFlag: `fctl` with flags ORed in (R12, R27). -/
def orFlags (fctl : Word) (f : Flags) : Word := fctl ||| f.zeroExtend 32

end Sys2Proof.Machine
end

