-- ==== Sys2Proof/Machine/Integer.lean ====
section
/-! DEFINITION. Integer arithmetic (R94 to R101, R112) and the random generator (R51, R52), as functions
of bit vectors. -/

namespace Sys2Proof.Machine

/-- 1 or 0 in a g register, for the compare forms. -/
def ofBool (c : Bool) : Word := if c then 1#32 else 0#32

/-- `mulh`: the high half of the signed product (R94). -/
def mulhS (a b : Word) : Word := ((a.signExtend 64) * (b.signExtend 64)).extractLsb' 32 32

/-- `mulhn`: the high half of the unsigned product (R94). -/
def mulhU (a b : Word) : Word := ((a.zeroExtend 64) * (b.zeroExtend 64)).extractLsb' 32 32

/-- `div` and `rem`: quotient, remainder and the flag DZ (R95). -/
def divRemS (a b : Word) : Word × Word × Flags :=
  let x := a.toInt
  let y := b.toInt
  if y = 0 then (0xFFFFFFFF#32, a, flagDZ)
  else if x = -2147483648 ∧ y = -1 then (0x80000000#32, 0#32, 0#5)
  else (BitVec.ofInt 32 (x.tdiv y), BitVec.ofInt 32 (x.tmod y), 0#5)

/-- `divn` and `remn`: quotient, remainder and the flag DZ (R95). -/
def divRemU (a b : Word) : Word × Word × Flags :=
  if b = 0#32 then (0xFFFFFFFF#32, a, flagDZ)
  else (BitVec.ofNat 32 (a.toNat / b.toNat), BitVec.ofNat 32 (a.toNat % b.toNat), 0#5)

/-- The lesser or greater of two signed values. -/
def minMaxS {n : Nat} (wantMax : Bool) (a b : BitVec n) : BitVec n :=
  if wantMax then (if a.toInt < b.toInt then b else a) else (if b.toInt < a.toInt then b else a)

/-- The lesser or greater of two unsigned values. -/
def minMaxU {n : Nat} (wantMax : Bool) (a b : BitVec n) : BitVec n :=
  if wantMax then (if a.toNat < b.toNat then b else a) else (if b.toNat < a.toNat then b else a)

/-- `abs`; the most negative number gives itself (R94). -/
def absS (a : Word) : Word := if a.toInt < 0 then 0#32 - a else a

/-- Shift left; an amount of the width or more gives 0 (R96, R99). -/
def shiftL {n : Nat} (a : BitVec n) (k : Nat) : BitVec n := if n ≤ k then 0 else a <<< k

/-- Logical shift right; an amount of the width or more gives 0 (R96, R99). -/
def shiftR {n : Nat} (a : BitVec n) (k : Nat) : BitVec n := if n ≤ k then 0 else a >>> k

/-- Arithmetic shift right; a large amount fills with the sign (R96, R99). -/
def shiftA {n : Nat} (a : BitVec n) (k : Nat) : BitVec n := a.sshiftRight (if n ≤ k then n - 1 else k)

/-- Leading zero bits among the low n bits of a (R94). -/
def leadingZeros (a : Nat) : Nat → Nat
  | 0 => 0
  | n + 1 => if a.testBit n then 0 else 1 + leadingZeros a n

/-- The number of one bits among the low n bits (R94). -/
def onesOf (a : Nat) : Nat → Nat
  | 0 => 0
  | n + 1 => (if a.testBit n then 1 else 0) + onesOf a n

/-- `clz` (R94). -/
def clz32 (a : Word) : Word := BitVec.ofNat 32 (leadingZeros a.toNat 32)
/-- `popc` (R94). -/
def popc32 (a : Word) : Word := BitVec.ofNat 32 (onesOf a.toNat 32)
/-- `brev`: bit i of the result is bit 31 − i of the operand (R94). -/
def brev32 (a : Word) : Word :=
  BitVec.ofNat 32 ((List.range 32).foldl (fun r i => r * 2 + (if a.toNat.testBit i then 1 else 0)) 0)
/-- `ctz`: the leading zeros of the reversed word (R94). -/
def ctz32 (a : Word) : Word := clz32 (brev32 a)

/-- The position and length of `bfx` and `bfi` (R97). -/
def fieldOf (b : Word) : Nat × Nat :=
  let pos := (b.extractLsb' 0 5).toNat
  (pos, min (b.extractLsb' 8 6).toNat (32 - pos))

/-- `bfx` (R97). -/
def bitExtract (a b : Word) : Word :=
  let (pos, len) := fieldOf b
  let f := a.toNat / 2 ^ pos % 2 ^ len
  if len = 0 then 0#32
  else if b.getLsbD 16 && f.testBit (len - 1) then BitVec.ofNat 32 (f + (2 ^ 32 - 2 ^ len))
  else BitVec.ofNat 32 f

/-- `bfi` into d (R97). -/
def bitInsert (d a b : Word) : Word :=
  let (pos, len) := fieldOf b
  let mask := BitVec.ofNat 32 ((2 ^ len - 1) * 2 ^ pos)
  (d &&& ~~~mask) ||| ((a <<< pos) &&& mask)

/-- RngStep, a xorshift32 (R51). -/
def rngStep (x : Word) : Word :=
  let x := x ^^^ (x <<< 13)
  let x := x ^^^ (x >>> 17)
  x ^^^ (x <<< 5)

/-- The value that `rngs` takes where 0 is written to it (R29, R52). -/
def rngNonZero (x : Word) : Word := if x = 0#32 then 0x6D2B79F5#32 else x

/-- The starting state of a thread's generator (R52). -/
def rngStart (seed tix : Word) : Word := rngNonZero (seed ^^^ (tix * 0x9E3779B9#32))

/-- `lui` (R67, R101). -/
def luiValue (imm : BitVec 17) : Word := (imm.signExtend 32) <<< 11

end Sys2Proof.Machine
end

