-- ==== Sys2Proof/Config.lean ====
section
/-! DEFINITION. What an implementation fixes and what the spec leaves free. A free value has no body:
nothing can be proved of it (assumptions 5 and 10). The constants with a body are the firmware's own
choices, each named in the assumption log. -/

namespace Sys2Proof.Config

/-- The free value of a choice that the spec leaves open: the n-th one that the machine makes. -/
opaque freeNat : Nat → Nat

/-- After how many elements of an `ldm` or `stm` the core turns to other events, at each of its evaluations: none where
it performs them all (R128, R143, assumption 7). -/
opaque burst : Nat → Option Nat

/-- The set of a core's L1 data cache, and of a cluster's second-level TLB, in which a line or a page lies: the spec
gives the ways and not the index (R3, R295, assumption 5). -/
opaque l1Set : Nat → Nat
opaque tlbSet : Nat → Nat

/-- Whether a load that misses performs after its bundle (R284), and whether the watch table of a home slice is full
for a wait (R135), at a free point of the run. -/
opaque lateLoad : Nat → Bool
opaque watchFull : Nat → Bool

/-- The host links carry CXL.cache (R370). -/
opaque cxlCache : Bool

/-- How near 2^15 stamp units the sweep lets a line come (R264). -/
opaque sweepLead : Nat

/-- The module is a member of a pod, which widens the age test of an acquire sweep (R378, assumption 12). -/
opaque podMember : Bool

/-- The byte of the boot ROM at an address outside the primary's program (assumption 11): the spec gives that program as
a listing and no bytes of the rest. -/
opaque romByte : Nat → Byte

/-- The physical address of the boot map (assumption 12). -/
def bootMapAddr : Nat := 0xBFFFFFC000
/-- The physical address of the region table (assumption 12). -/
def regionTable : Nat := 0xBFFF000000
/-- The physical address of the dump region (assumption 12). -/
def dumpRegion : Nat := 0xBE00000000
/-- The bytes of a cluster's backing pool: 16 MiB of pages and 1 MiB of staging (R205). -/
def poolBytes : Nat := 17 * 1048576
/-- The physical address from which die d's backing pools lie, one after another (R205, assumption 12). -/
def backingBase (d : Nat) : Nat := d * 0x1800000000 + 0x1700000000
/-- The bytes reserved for a die's debug command ring: the largest ring that `dbgd` can describe (R156). -/
def debugRingBytes : Nat := 131072 + 65536
/-- The physical address of the range pinned at boot for die d's debug command ring (R156, assumption 12). -/
def debugRing (d : Nat) : Nat := d * 0x1800000000 + 0x1744000000
/-- The firmware's supervisor trap entry, SVEC of the boot map (R358, assumption 8). -/
def svec : DWord := 0#64
/-- The firmware's major version (R350, R358, assumption 12). -/
def fwMajor : Nat := 1
/-- This module's peer number, which firmware takes from the pod's configuration (R372, assumption 12). -/
def peerNumber : Nat := 0

end Sys2Proof.Config
end

