-- ==== Sys2Proof/Machine/State.lean ====
section
/-! DEFINITION. The state of a package, as plain data: its threads (R19 to R38), cores (R163 to R188),
clusters (R202 to R250), dies (R262 to R311), the launches and the package's registers (R318 to R359), the
fabric (R367 to R385), memory, and what the model adds to schedule its agents. A keyed list has strictly
rising keys, and a key that is absent stands for the default of its type. -/

namespace Sys2Proof.Machine

/-- A general register or a queue entry: its value and its poison mark (R153). The residue mod 3 is a
function of the value and is not stored. -/
structure Reg where
  val : Word := 0#32
  pois : Bool := false
  deriving DecidableEq, Repr, Inhabited

/-- The life states (R34). -/
inductive Life where
  | running | parked | suspended | spilled | faulted | exited
  deriving DecidableEq, Repr, Inhabited

/-- A park: its reason code (R170, R335, R345) and its key. -/
structure Park where
  reason : Nat
  key : Key
  deriving DecidableEq, Repr

/-- What an instruction keeps across a park (R128), with the operands that its first evaluation read. -/
inductive KeptKind where
  /-- An arrival at a convocation of the cluster's group table (R230). -/
  | conv (gid : Nat)
  /-- An arrival for a group operation (R232). -/
  | groupOp
  /-- An issued matrix store or load job (R246, R247). -/
  | mxJob (job : Word)
  /-- A started switch of a region (R268). -/
  | switch (region : Nat)
  /-- An arrival at operation k of a communicator (R382). -/
  | coll (comm k : Nat)
  /-- A mesh message on its way to a full mailbox (R344, R346). -/
  | sent
  deriving DecidableEq, Repr

/-- A kept effect and the recorded operands, A then B (R23). -/
structure Kept where
  kind : KeptKind
  a : DWord := 0#64
  b : DWord := 0#64
  deriving DecidableEq, Repr

/-- Where a thread's latest fault record lies (R147). -/
structure FaultRef where
  /-- Kind 2, 3 or 4 of R150. -/
  kind : Nat
  /-- Virtual address of a kind-2 record, in the thread's address space (R146, R326). -/
  va : DWord := 0#64
  die : Nat := 0
  /-- The record's number in the die fault queue, none while the die holds it pending (R302). -/
  recNo : Option Word := none
  pc : DWord := 0#64
  /-- The queue that held the record is another module's, or a reset has begun it anew (R353, R357). -/
  elsewhere : Bool := false
  deriving DecidableEq, Repr

/-- The elements that an interrupted `ldm` or `stm` has done since its first evaluation (R125, R128): the bundle, the
element from which it began, and the one that comes next. -/
structure Xfer where
  pc : DWord
  start : Nat
  next : Nat
  deriving DecidableEq, Repr

/-- A load that has missed and performs at its home after later accesses (R284): where, through which page, how many
bytes, whether it extends their sign, and the registers that it writes. -/
structure LateLoad where
  pa : Nat
  vpn : BitVec 41
  /-- Size code of the page, as the size of a TLB entry (R298). -/
  size : Nat := 0
  n : Nat
  signed : Bool
  regs : List Nat
  /-- The ticks at which it issued: those of its issue group's cycle (R166). -/
  at' : Nat := 0
  deriving DecidableEq, Repr

/-- A deque entry (R185). -/
structure Entry where
  kind : Nat
  pc : DWord := 0#64
  join : DWord := 0#64
  path : DWord := 0#64
  cjoin : DWord := 0#64
  sp : Word := 0#32
  fp : Word := 0#32
  tix : Word := 0#32
  lid : Word := 0#32
  owner : Word := 0#32
  sidx : Word := 0#32
  asn : BitVec 16 := 0#16
  mode : Bool := false
  det : Bool := false
  orphan : Bool := false
  /-- Its place in the order of insertion (R186, R200). -/
  seq : Nat := 0
  /-- Record of the overflow area that holds it, none on chip (R187). -/
  slot : Option Nat := none
  deriving DecidableEq, Repr

/-- A thread: its context (R38) and what its core and launch keep about it. -/
structure Thread where
  /-- Package core index: 8 × package cluster index + `cix` (R150). -/
  core : Nat := 0
  /-- Context number within the core (R163). -/
  num : Nat := 0
  /-- Generation of the context slot (R152). -/
  gen : BitVec 10 := 0#10
  /-- Register blocks: the allocation is 8 × this (R19, R33). -/
  blocks : Nat := 1
  regs : Vector Reg 64 := Vector.replicate 64 {}
  /-- Ring handles k0 to k7: an index into the cluster ring table (R24). -/
  rings : Vector (Option (BitVec 6)) 8 := Vector.replicate 8 none
  /-- Queue registers q0 to q3: the physical queue each is bound to (R22, R174). -/
  qb : Vector (Option (BitVec 6)) 4 := Vector.replicate 4 none
  tix : Word := 0#32
  tcnt : Word := 1#32
  lid : Word := 0#32
  grank : Word := 0#32
  gsize : Word := 0#32
  fctl : Word := 0#32
  tctl : Word := 0#32
  rngs : Word := 0x6D2B79F5#32
  path : DWord := 0#64
  tcause : Word := 0#32
  tepc : DWord := 0#64
  tval : DWord := 0#64
  tprog : Word := 0#32
  tvec : DWord := 0#64
  svec : DWord := Config.svec
  sscratch : DWord := 0#64
  /-- Write filter S (R273). -/
  wfilter : BitVec 512 := 0#512
  /-- Horizon HT (R273). -/
  ht : DWord := 0#64
  /-- Address-space number (R288). -/
  asn : BitVec 16 := 0#16
  /-- Address of the next bundle. -/
  pc : DWord := 0#64
  /-- The next bundle is reached by a control transfer (R63), not in sequence. -/
  landed : Bool := true
  life : Life := .running
  park : Option Park := none
  /-- Wake-pending mark (R36). -/
  wake : Bool := false
  /-- Debug-halted mark (R157). -/
  halted : Bool := false
  /-- Step mark (R158). -/
  stepMark : Bool := false
  /-- A debug halt at a `brk`: its A word, if there is one, and the next bundle (R157). -/
  atBrk : Bool := false
  /-- That `brk` stands in a pair. -/
  brkPair : Bool := false
  /-- Kill-pending flag of a spilled context (R181, R196). -/
  killPend : Bool := false
  /-- The alternate mark of a spilled context (R182). -/
  alternate : Bool := false
  /-- The spill engine has still to write the flags byte of a spilled context's record anew (R179, R181, R196). -/
  reflag : Bool := false
  /-- The time of suspension, in ticks, which orders spills (R179). -/
  suspAt : Nat := 0
  /-- Where a faulted context that is spilled goes on once it is refilled (R197). -/
  resumeAt : Option DWord := none
  /-- A spilled context whose launch has resumed and that has not been read back yet (R179). -/
  wanted : Bool := false
  kept : Option Kept := none
  /-- An `ldm` or `stm` that has been interrupted (R128). -/
  xfer : Option Xfer := none
  /-- Cycles left of a `pause` (R136). -/
  pauseLeft : Nat := 0
  /-- The formed group of which the thread is a member, in its cluster's table (R229). -/
  gid : Option Nat := none
  /-- Group operations issued since it joined (R232). -/
  gops : Nat := 0
  /-- Launched from a launch with debug enabled is a property of the launch; this is the fault record of
  a faulted thread (R147). -/
  frec : Option FaultRef := none
  /-- A kind-1 record of this thread that its die holds pending (R302). -/
  recPend : Bool := false
  /-- A boot thread: fetch and data untranslated (R360). -/
  boot : Bool := false
  /-- A boot thread that is a receiver (R363). -/
  receiver : Bool := false
  /-- Bundles issued in the quantum (R336). -/
  qcount : Nat := 0
  /-- The thread has ended its quantum (R336). -/
  qended : Bool := false
  /-- Its next bundle is the operation that ended the quantum, which performs at the boundary (R337). -/
  qop : Bool := false
  /-- Store buffer of a deterministic thread: physical byte addresses and bytes, rising (R126). -/
  sbuf : List Host.Cell := []
  /-- Sectors of global memory that one buffered instruction has written whole (R125). -/
  swhole : List Nat := []
  /-- The translations that buffered stores hold, by home line: the page through which the latest store to it went, with
  its size code, and whether a shootdown has removed the translation since (R126, R298). -/
  slines : List (Nat × BitVec 41 × Nat × Bool) := []
  /-- Slot of the commit area (R338). -/
  slot : Nat := 0
  /-- Loads that have missed and have not performed yet, oldest first (R284). -/
  loads : List LateLoad := []
  /-- A thread started from an entry that inherits a join block: the stub that it has still to push, once its core's deque
  has room (R187, R194). -/
  owed : Option Entry := none
  /-- A wait whose watch the full table of its slice has not taken: the ticks of its next Chime (R135, R370). -/
  pollAt : Option Nat := none
  deriving DecidableEq, Repr, Inhabited

/-- Operands of a bundle as they stood at its start (R10, R49): the A word of a pair reads these. -/
structure OpSrc where
  regs : Vector Reg 64
  qb : Vector (Option (BitVec 6)) 4
  fctl : Word
  tctl : Word
  rngs : Word
  deriving DecidableEq, Repr

/-- The bundle in execution. -/
structure Frame where
  /-- Address of the bundle's first word (R12). -/
  first : DWord := 0#64
  /-- Address of the next bundle in sequence (R62). -/
  next : DWord := 4#64
  /-- The word in execution, for `tval` (R81). -/
  word : Word := 0#32
  /-- PAIR and AW of `tcause` (R149). -/
  pair : Bool := false
  aw : Bool := false
  /-- Whether the bundle was reached by a control transfer. -/
  landed : Bool := true
  latch : Option OpSrc := none
  /-- A trap, a park, a kill or a fault has ended the bundle. -/
  stopped : Bool := false
  /-- The bundle stands to be issued again. -/
  again : Bool := false
  /-- It waits for a page, which an agent or a peer has still to give back (R205, R375). -/
  waits : Bool := false
  /-- The operation performs at a quantum boundary (R337). -/
  boundary : Bool := false
  /-- Elements after which an `ldm` or `stm` leaves room for other events, none where it performs them all (R128). -/
  burst : Option Nat := none
  /-- A plain load that misses performs after the bundle (R284). -/
  late : Bool := false
  /-- The address space of the access in execution, where it is not the thread's own (R147, R150). -/
  space : Option (BitVec 16) := none
  deriving DecidableEq, Repr

/-- A line of a core's L1 data cache (R264). -/
structure Line where
  /-- Line number: physical address / 128. -/
  n : Nat
  data : List Byte := List.replicate 128 0#8
  /-- Valid mark of each 32-byte sector. -/
  valid : List Bool := [false, false, false, false]
  /-- Poison of each sector as filled (R125). -/
  pois : List Bool := [false, false, false, false]
  /-- Dirty mask, one bit a byte. -/
  dirty : BitVec 128 := 0#128
  /-- Sectors that one instruction has written whole since they were filled (R125). -/
  whole : List Bool := [false, false, false, false]
  /-- A line of an H region, of which the core is a sharer (R265). -/
  h : Bool := false
  /-- Fill stamp stime[27:12] (R264). -/
  stamp : BitVec 16 := 0#16
  /-- Sectors in which the L1's own storage has lost bytes, whatever the home's marks are (R354). -/
  struck : List Bool := [false, false, false, false]
  /-- The address space and page through which it was filled, and the page's size code (R298). -/
  asn : BitVec 16 := 0#16
  vpn : BitVec 41 := 0#41
  size : Nat := 0
  /-- The master whose store made its bytes dirty (R308, R310). -/
  master : BitVec 20 := 0#20
  deriving DecidableEq, Repr

/-- A word of an L1 instruction cache, with the address space and page through which it was filled (R133,
R298). -/
structure FetchedWord where
  w : Word
  asn : BitVec 16
  vpn : BitVec 41
  size : Nat := 0
  deriving DecidableEq, Repr

/-- A write to an H line on its way from its core to the home, or performed there while the core's own copy has still to
be told (R265). -/
structure Sent where
  pa : Nat
  bytes : List Byte
  /-- The master whose write it is (R308). -/
  master : BitVec 20 := 0#20
  /-- The address space and page through which it was made (R298). -/
  asn : BitVec 16 := 0#16
  vpn : BitVec 41 := 0#41
  size : Nat := 0
  /-- It has performed at the home. -/
  home : Bool := false
  deriving DecidableEq, Repr

/-- An update of an H line on its way to a sharer (R265). -/
structure Update where
  pa : Nat
  bytes : List Byte
  /-- The core whose write it is, none for an agent's. -/
  writer : Option Nat := none
  /-- Poison of the line's sectors at the home after the write (R125). -/
  pois : List Bool := [false, false, false, false]
  deriving DecidableEq, Repr

/-- A physical queue of a core (R172). -/
structure PQueue where
  lid : Word
  logical : BitVec 6
  entries : List Reg := []
  deriving DecidableEq, Repr

/-- A TLB entry (R295): a translation with its permissions and the grants of its master (R296, R311). -/
structure Tlb where
  asn : BitVec 16
  /-- va[56:16] of the page base. -/
  vpn : BitVec 41
  /-- 0 for 64 KiB, 1 for 2 MiB, 2 for 1 GiB. -/
  size : Nat
  /-- Size of the page of which it is the whole, or one 2 MiB unit (R295, R298). -/
  page : Nat := size
  ppn : Nat
  r : Bool
  w : Bool
  x : Bool
  sup : Bool
  /-- Grants read, write, atomic for the class 0, 1 and 2 masters of the address space. -/
  grants : List (Bool × Bool × Bool)
  deriving DecidableEq, Repr

/-- A core (R33, R163 to R188). -/
structure Core where
  /-- Roll pointer (R165). -/
  p : Nat := 0
  /-- `clk`: cycles since the island left reset (R26). -/
  clk : DWord := 0#64
  /-- Acquire mark AM (R273). -/
  am : DWord := 0#64
  /-- Protection mode of the register file: detect-only (R33, R177). -/
  detect : Bool := false
  /-- Generations of context slots, by number (R152). -/
  gens : List (Nat × BitVec 10) := []
  /-- Physical queues in use, by number (R172). -/
  queues : List (Nat × PQueue) := []
  l1 : List Line := []
  /-- L1 instruction cache: words fetched, by physical address (R133). -/
  icache : List (Nat × FetchedWord) := []
  updates : List Update := []
  /-- Writes to H lines that the core has not been told of, oldest first (R265). -/
  sent : List Sent := []
  /-- L1 data TLB and L1 instruction TLB (R295). -/
  dtlb : List Tlb := []
  itlb : List Tlb := []
  deque : List Entry := []
  /-- Mailbox: header and 64 bytes (R343). -/
  mail : List (Word × List Byte) := []
  /-- Messages that wait for room in the mailbox, with the context key of the sender (R344). -/
  inbound : List (Nat × Word × List Byte) := []
  spla : DWord := 0#64
  splb : DWord := 0#64
  dqa : DWord := 0#64
  dql : DWord := 0#64
  /-- The engine spills no further context until `spla` is rewritten (R182). -/
  spillHeld : Bool := false
  /-- The core refuses further spills and placements (R182). -/
  spillFailed : Bool := false
  deriving DecidableEq, Repr

/-- An entry of the cluster ring table (R206). -/
structure Ring where
  lid : Word
  lrn : BitVec 6
  base : Nat
  slot : Nat
  nslot : Nat
  clm : Word := 0#32
  pp : Word := 0#32
  cp : Word := 0#32
  done : List Bool := []
  bytes : List Nat := []
  jobs : Nat := 0
  deriving DecidableEq, Repr

/-- The operations of R73. -/
inductive RedOp where
  | addF32 | addF64 | caddF32 | addI32 | addI64 | maxF32 | minF32 | maxF64 | minF64
  | maxI32 | minI32 | and | or | xor
  deriving DecidableEq, Repr

/-- What a group operation is: its kind, its reduction and its root (R232, R233). -/
inductive GKind where
  | bar | bcast | bcast64 | red (op : RedOp)
  deriving DecidableEq, Repr

/-- An arrival of a member for a group operation (R232). -/
structure GArrival where
  rank : Nat
  op : Nat
  kind : GKind
  root : Nat
  v : DWord
  deriving DecidableEq, Repr

/-- An entry of the group table: a pending convocation or a formed group (R229). -/
structure Group where
  lid : Word
  key : DWord
  n : Nat
  formed : Bool := false
  /-- Context keys of the arrived threads, in order of arrival; once formed, of the members by rank. -/
  members : List Nat := []
  /-- Ranks that have left (R236). -/
  departed : List Nat := []
  arrivals : List GArrival := []
  deriving DecidableEq, Repr

/-- An interval of a footprint, tagged with its space (R215): a global interval in an address space, or a
set of instance bytes given by a view. -/
structure Interval where
  /-- 0 global, 1 scratch-local, 2 scratch-interleave (R66). -/
  sp : Nat
  /-- The core within the cluster whose local view it is taken in (R213). -/
  cix : Nat := 0
  lo : Int
  hi : Int
  deriving DecidableEq, Repr

/-- A plane of a TCE job (R213). -/
structure Plane where
  src : DWord
  dst : DWord
  sstr : Int
  dstr : Int
  rb : Nat
  rows : Nat
  ssp : Nat
  dsp : Nat
  deriving DecidableEq, Repr

/-- What an engine job does. -/
inductive JobKind where
  | tcopy | scopy | tfill
  | mma (form : Nat) | mxZero | mxMerge | mxSt | mxLd
  deriving DecidableEq, Repr

/-- An engine job, queued or running (R213 to R228, R242 to R249). -/
structure Job where
  id : Nat
  /-- Its place in the order of issue (R217). -/
  seq : Nat := 0
  kind : JobKind
  lid : Word
  n : Word
  asn : BitVec 16
  core : Nat
  mode : Bool
  /-- The issuer's handle, `tix`, `path`, bundle, PAIR and TR at issue (R225). -/
  handle : Word
  tix : Word
  path : DWord
  pc : DWord
  pair : Bool
  tr : Bool
  planes : List Plane := []
  reads : List Interval := []
  writes : List Interval := []
  /-- Ring entry and claim number (R214). -/
  claim : Option (Nat × Word) := none
  /-- STATE of R223: 1 queued, 2 running, 3 stopped on a fault, 5 paused. -/
  state : Nat := 1
  /-- STATE before a pause. -/
  held : Nat := 1
  /-- Sectors done, in the job's sector order (R224). -/
  done : Nat := 0
  /-- Staged source bytes of a job whose own intervals overlap, by sector (R216). -/
  staged : List (List Byte × Bool) := []
  /-- The page on which it stopped, and whether its record is pending (R224, R302). -/
  page : Option (BitVec 41) := none
  recorded : Option (BitVec 41) := none
  recPend : Bool := false
  /-- Its claim is not writable yet, so that it does not count as issued (R219, R248). -/
  late : Bool := false
  /-- Poisoned sectors that it has written in part (R125, R205): 2 × sector, plus 1 in scratchpad, and a bit
  for each byte written since the sector was poisoned. -/
  part : List (Nat × Nat) := []
  /-- A Chime that arrived while paused or frozen (R316). -/
  chimed : Bool := false
  acc : Nat := 0
  /-- Chunk number and valid elements (R243), or level, index and trailing mark (R245), or the control
  word (R246). -/
  q : Nat := 0
  kv : Nat := 0
  trail : Bool := false
  ctl : Word := 0#32
  /-- `fctl`.RM at issue (R246). -/
  rm : Nat := 0
  /-- The descriptor's bytes as read at issue (R242, R246). -/
  desc : List Byte := []
  deriving DecidableEq, Repr

/-- A job of the window of an instance that has ended (R221): its number, STATE 0 or 4, sectors done, and its global
write intervals. -/
structure Ended where
  n : Word
  state : Nat
  done : Nat
  writes : List Interval
  /-- The address space of its global intervals (R215). -/
  asn : BitVec 16 := 0#16
  deriving DecidableEq, Repr

/-- A scratchpad instance of one launch in one cluster (R202, R205). -/
structure Inst where
  size : Nat
  /-- The group of `tix` placed with it, where R330 gives each its own. -/
  grp : Nat := 0
  /-- Bytes by interleave address, rising; an unlisted byte is 0. -/
  data : List Host.Cell := []
  /-- Poisoned sectors: 8 × (share offset / 32) + partition (R205). -/
  pois : List Nat := []
  /-- NEXT of R221; 1 before the first job. -/
  next : Word := 1#32
  issued : Bool := false
  ended : List Ended := []
  pinned : Bool := true
  /-- Pages that have lost their frame since they were unpinned (R205). -/
  lost : List Nat := []
  /-- Pages that were read back from their backing pages, with the bytes of each that have been written since: of every
  other page all bytes differ from its backing page (R205). -/
  clean : List (Nat × List Nat) := []
  /-- The backing page of each page, by its number in the cluster's pool (R205). -/
  backing : List Nat := []
  /-- The frame of each page, which a page that has lost its frame keeps only as a number (R204). -/
  frames : List Nat := []
  /-- A boot thread's instance, with no backing page (R360). -/
  boot : Bool := false
  deriving DecidableEq, Repr

/-- A node of a reduction tree (R57). -/
structure Node where
  l : Nat
  j : Nat
  deriving DecidableEq, Repr

/-- An accumulator (R238). -/
structure Acc where
  /-- The owning group's entry, none when free. -/
  owner : Option Nat := none
  /-- The owning group has ended or released it, and its queued jobs still run (R238). -/
  releasing : Bool := false
  cfg : Word := 0#32
  form : Nat := 0
  base : Nat := 0
  /-- Issue-side state: CNT, the roots' labels, CLOSED (R238). -/
  cnt : Nat := 0
  labels : List Node := []
  closed : Bool := false
  /-- State after the jobs that have ended: the roots with their tiles of 4,096 encodings, row-major. -/
  vcnt : Nat := 0
  vclosed : Bool := false
  roots : List (Node × List Nat) := []
  deriving DecidableEq, Repr

/-- A cluster (R202 to R250, R354, R359). -/
structure Cluster where
  /-- Its island has left reset (R360). -/
  live : Bool := false
  rings : List (Nat × Ring) := []
  groups : List (Nat × Group) := []
  jobs : List Job := []
  insts : List (Nat × Inst) := []
  accs : List (Nat × Acc) := []
  /-- Second-level TLB, and the address-space entries that it caches (R295). -/
  tlb : List Tlb := []
  asEntries : List (Nat × DWord) := []
  /-- `islst`: FMHZ and CAUSE (R359). -/
  fmhz : BitVec 12 := 2250#12
  cause : BitVec 4 := 0#4
  /-- Frequency units collected towards the next cycle of a throttled island. -/
  phase : Nat := 0
  replays : Nat := 0
  corrections : Nat := 0
  poisonings : Nat := 0
  /-- Times of the poisonings of the last hour, in ticks (R354). -/
  poisonTimes : List Nat := []
  deriving DecidableEq, Repr

/-- The frequency of an uncore or I/O-die island in MHz, and why it is throttled (R359): the mesh and the L2 run at 1.8 GHz
(R3). -/
structure Island where
  fmhz : BitVec 12 := 1800#12
  cause : BitVec 4 := 0#4
  deriving DecidableEq, Repr

/-- A fault record held pending by a die (R302): its bytes, and whom it concerns. -/
structure PendRec where
  stime : DWord
  kind : Nat
  bytes : List Byte
  /-- The context key of the thread, or none. -/
  thread : Option Nat := none
  /-- The handles that the context has had since, the present one first: a thaw may change it (R353). -/
  handles : List Word := []
  /-- Cluster and identity of the engine job, or none. -/
  job : Option (Nat × Nat) := none
  deriving DecidableEq, Repr

/-- A machine event on its way to its die's ring (R355). -/
structure MachineEvent where
  code : Nat
  core : Nat
  stime : DWord
  data : List Byte
  deriving DecidableEq, Repr

/-- A C-die's uncore (R300 to R302, R355, R156). -/
structure Die where
  fqd : DWord := 6#64
  mevd : DWord := 6#64
  dbgd : DWord := 6#64
  /-- Records and events written (R301, R355). -/
  fprod : Word := 0#32
  mprod : Word := 0#32
  /-- Events dropped since the last one written (R355). -/
  mdrop : Nat := 0
  /-- Machine events that wait for the page of the ring's CONS, which a peer holds (R375). -/
  events : List MachineEvent := []
  /-- Debug commands completed (R156). -/
  taken : Word := 0#32
  /-- The STEP that the die executes has let its target go (R158). -/
  stepping : Bool := false
  pending : List PendRec := []
  /-- The outstanding table: pages with a record (R300). -/
  outst : List (BitVec 16 × BitVec 41) := []
  deriving DecidableEq, Repr

/-- An entry of an access table (R309). -/
structure AccessEntry where
  w0 : DWord := 0#64
  w1 : DWord := 0#64
  deriving DecidableEq, Repr

/-- The condition of an accepted launch. -/
inductive LState where
  /-- Waiting for its after-tokens (R323). -/
  | waiting
  /-- Ready; some units may be placed (R327). -/
  | ready
  /-- Being pre-empted: its last threads leave the Roll (R178). -/
  | suspending
  /-- Suspended, not resumed yet (R178). -/
  | suspended
  /-- Ended by the watchdog, an abort or a failed token, with the STATUS of its cell (R323, R340, R341). -/
  | ending (status : Nat)
  deriving DecidableEq, Repr

/-- A launch packet's fields (R321, R322). -/
structure Packet where
  entry : DWord := 0#64
  tcnt : Word := 0#32
  nreg : Nat := 0
  place : Nat := 0
  flags : BitVec 16 := 0#16
  scratch : Nat := 0
  cgrp : Nat := 0
  seed : Word := 0#32
  wdog : Nat := 0
  tvec : DWord := 0#64
  farea : DWord := 0#64
  fanum : Nat := 0
  qlog : Nat := 0
  dbuf : DWord := 0#64
  ccell : DWord := 0#64
  dbn : Nat := 0
  after : List DWord := []
  deriving DecidableEq, Repr

/-- A decrement of a join block that waits for its page (R387). -/
structure PendDec where
  va : DWord
  core : Nat
  mode : Bool
  handle : Word
  tix : Word
  path : DWord
  /-- The page, of the tables or of the block, that a peer holds and for whose return it waits (R375). -/
  page : Option Nat := none
  deriving DecidableEq, Repr

/-- An accepted launch that is not complete (R319 to R342). -/
structure Launch where
  q : Nat := 0
  asn : BitVec 16 := 0#16
  sup : Bool := false
  level : Nat := 3
  pkt : Packet := {}
  /-- The sampled seed (R324). -/
  seed : Word := 0#32
  st : LState := .waiting
  /-- Physical addresses translated at acceptance: valid tokens' cells, CCELL (R319). -/
  tokens : List Nat := []
  ccell : Option Nat := none
  /-- Units placed (R330). -/
  placed : Nat := 0
  /-- Package index of the cluster that took the latest unit (R331). -/
  lastCluster : Option Nat := none
  /-- Core of the launch's previous thread, by cluster (R332). -/
  lastCore : List (Nat × Nat) := []
  /-- Order of acceptance within the package. -/
  order : Nat := 0
  /-- Ticks since which its candidate waits (R327), and since which it runs (R328). -/
  waitSince : Nat := 0
  runSince : Nat := 0
  /-- Ticks at which it reached E = 1 as a candidate (R328). -/
  e1Since : Option Nat := none
  /-- E when the scheduler last served (R327). -/
  lastE : Option Nat := none
  /-- Watchdog active time in ticks (R340). -/
  active : Nat := 0
  /-- A boundary of a deterministic launch has committed, and its operations perform (R337). -/
  boundary : Bool := false
  /-- Its operations have performed, and its engine jobs are still to end (R337). -/
  engines : Bool := false
  /-- Bytes of memory, as they stood at the latest boundary of a deterministic launch, that a write from
  outside has changed since (R287). -/
  since : List Host.Cell := []
  /-- Records written to the fault area (R326). -/
  faults : Nat := 0
  pend : List PendDec := []
  /-- Cores on which it was placed, ascending (R195). -/
  cores : List Nat := []
  renames : List (Word × Word) := []
  deriving DecidableEq, Repr

/-- A launch queue's registers (R318, R341). -/
structure Queue where
  lqd : DWord := 0xC#64
  tail : BitVec 16 := 0#16
  head : BitVec 16 := 0#16
  log : BitVec 4 := 6#4
  lqk : Word := 0#32
  deriving DecidableEq, Repr

/-- A switch of a region in progress (R269). -/
structure Switch where
  region : Nat
  kind : Bool
  deriving DecidableEq, Repr

/-- An arrival at a collective operation (R382). -/
structure CArrival where
  /-- Context key of the local participant, or none for one of another module. -/
  thread : Option Nat := none
  asn : BitVec 16 := 0#16
  /-- The data that another module's participant has sent. -/
  bytes : List Byte := []
  form : Nat
  src : DWord := 0#64
  dst : DWord := 0#64
  count : Nat
  level : Nat
  index : Nat
  nleaf : Nat
  /-- Another module's participant has lost a mapping or been refused (R382). -/
  failed : Bool := false
  deriving DecidableEq, Repr

/-- An operation of a communicator (R382). -/
structure Coll where
  comm : Nat
  k : Nat
  arrivals : List CArrival := []
  /-- The status returned to every participant once complete. -/
  status : Option Nat := none
  lost : Bool := false
  deriving DecidableEq, Repr

/-- A grant on a 64 KiB page (R374): of a peer page held by this module, or of a page of this module
held by peers. -/
structure Grant where
  page : Nat
  exclusive : Bool
  holders : List Nat := []
  deriving DecidableEq, Repr

/-- A frozen context (R350): the thread as its record gives it, the QBIND bytes and the queue records of
R181 that go with it, by register, and whether its record fails its checks. -/
structure FrozenCtx where
  th : Thread
  qbind : List Nat := []
  queues : List (Nat × PQueue) := []
  bad : Bool := false
  /-- The alternate mark of a context whose record lies in its core's area: a checkpoint leaves it there (R351). -/
  place : Option Bool := none
  deriving DecidableEq, Repr

/-- A 64 KiB unit of an image (R350): its address space, virtual and physical base at the freeze, and size
code. -/
structure MemUnit where
  asn : BitVec 16
  va : DWord
  pa : Nat
  size : Nat
  deriving DecidableEq, Repr

/-- An accumulator as the Gong freezes it (R238): its owner, its issue-side state, and its image of R247. -/
structure FrozenAcc where
  owner : Option Nat
  releasing : Bool
  cnt : Nat
  labels : List Node
  closed : Bool
  image : List Byte
  deriving DecidableEq, Repr

/-- A frozen image in a freeze area (R350), by segment (assumption 16). -/
structure Image where
  /-- The package that made it is another one. -/
  foreign : Bool := false
  /-- `stime` at step 1 of the freeze, and the manifest header (R350). -/
  stime : DWord := 0#64
  head : List Byte := []
  /-- `stime` at which the thaw of it began (R278). -/
  begun : DWord := 0#64
  launches : List (Nat × Launch) := []
  ctxs : List FrozenCtx := []
  /-- Deques: core and entries in order (R200). -/
  deques : List (Nat × List Entry) := []
  /-- Queues with entries and no binder, by core (R173, R176). -/
  queues : List (Nat × PQueue) := []
  /-- Instances, rings, groups, jobs and accumulators by cluster (R212, R226, R238). -/
  insts : List (Nat × Nat × Inst) := []
  rings : List (Nat × Nat × Ring) := []
  groups : List (Nat × Nat × Group) := []
  jobs : List (Nat × Job) := []
  accs : List (Nat × Nat × FrozenAcc) := []
  units : List MemUnit := []
  /-- Bytes of the units that are not 0, by physical address at the freeze, and poisoned sectors. -/
  mem : List Host.Cell := []
  pois : List Nat := []
  /-- Region entries of frozen token holders: region and handle (R270). -/
  tokens : List (Nat × Word) := []
  colls : List Coll := []
  deriving DecidableEq, Repr, Inhabited

/-- Who raised an interrupt or completed a host request: what the host sees of the package (R369). -/
inductive Signal where
  | msix (vector : Nat)
  | reply (fn : BitVec 16) (bytes : List Byte)
  | unsupported (fn : BitVec 16)
  | peerReply (peer : BitVec 10) (bytes : List Byte)
  | peerError (peer : BitVec 10)
  | peerGrant (peer : BitVec 10) (page : Nat) (exclusive : Bool)
  | peerRecall (page : Nat) (forRead : Bool)
  /-- The Chime of a watch that a peer has armed here (R376). -/
  | peerChime (peer : BitVec 10) (line : Nat)
  deriving DecidableEq, Repr

/-- An error in register storage (R155, R177): the context's key, the register, and whether two bits of its codeword
are wrong. -/
structure RegErr where
  key : Nat
  reg : Nat
  double : Bool
  deriving DecidableEq, Repr

/-- Where an error in storage other than a register's has come about (R205, R354). -/
inductive ErrPlace where
  /-- A byte of an instance, by its cluster, launch and interleave address. -/
  | scratch (cluster : Nat) (lid : Word) (a : Nat)
  /-- A sector of a line of a core's L1. -/
  | l1 (core line sector : Nat)
  /-- A sector of memory or of its L2 line. -/
  | memory (sector : Nat)
  deriving DecidableEq, Repr

/-- A single-bit or double-bit error in storage (R205, R354, assumption 31). -/
structure MemErr where
  place : ErrPlace
  double : Bool
  deriving DecidableEq, Repr

/-- The package. -/
structure State where
  /-- The thread in execution; its life is `exited` when no thread is. -/
  t : Thread := { life := .exited }
  /-- Context keys of the deterministic threads whose operations are still to perform at a boundary (R337). -/
  perform : List Nat := []
  /-- The first of these operations waits for a page, which a peer or the backing memory has still to give back (R337). -/
  stalled : Bool := false
  /-- Every other context, resident or spilled, keyed by 1024 × core + context number. -/
  ctxs : List (Nat × Thread) := []
  fr : Frame := {}
  /-- Inputs and agents' steps that come next, in order (assumption 3). -/
  agenda : List Instr := []
  /-- Context keys of the issue group that have not issued yet (R165, R166). -/
  issue : List Nat := []
  /-- Issue groups of which a member waits where it is or stands off: that member, then those after it (R166). -/
  opened : List (List Nat) := []
  cores : List (Nat × Core) := []
  clusters : List (Nat × Cluster) := []
  dies : List (Nat × Die) := []
  /-- The uncore islands 512 to 519 and the I/O-die islands 520 and 521 (R2, R359). -/
  islands : List (Nat × Island) := []
  launches : List (Nat × Launch) := []
  queues : List (Nat × Queue) := []
  mem : List Host.Cell := []
  /-- Poisoned sectors of memory: physical address / 32 (R125). -/
  pois : List Nat := []
  rom : List Host.Cell := []
  /-- L2 lines pinned, by line number (R306). -/
  pins : List Nat := []
  switches : List Switch := []
  /-- Access tables: 1024 × target + entry (R309). -/
  access : List (Nat × AccessEntry) := []
  /-- Refusals counted by each target (R311). -/
  violations : List (Nat × Nat) := []
  ptb : DWord := 0x30A#64
  asb : DWord := 0#64
  gongc : DWord := 0#64
  gongl : DWord := 0#64
  gongErr : Nat := 0
  gongStep : Nat := 0
  gongNl : Nat := 0
  /-- Ticks at the latest GO, none before the first (R347). -/
  gongFrom : Option Nat := none
  /-- Launches read no packets and nothing is dispatched while a stream stands (R349). -/
  stream : Bool := false
  fdump : DWord := 0#64
  dseed : Word := 0#32
  rrep : DWord := 0#64
  /-- Ticks at the latest report or write of `rrep` (R385). -/
  reported : Nat := 0
  bmap : DWord := 0#64
  mypn : BitVec 10 := 0#10
  ccb : DWord := 0#64
  endpoints : List (Nat × DWord) := []
  nextLid : Word := 1#32
  accepted : Nat := 0
  /-- Round-robin pointer of each level (R327). -/
  rr : List Nat := [0, 0, 0, 0]
  /-- The pre-emptions under way: the launch that is pre-empted, and the candidate for which it is (R327, R328). -/
  preempting : List (Word × Word) := []
  fenced : List Nat := []
  /-- Clusters that were fenced at boot, for which no backing pool is reserved (R357). -/
  poolless : List Nat := []
  /-- Clusters to be fenced at the next checkpoint (R357). -/
  toFence : List Nat := []
  mapGen : Word := 0#32
  colls : List Coll := []
  /-- Arrivals of this module that each communicator has recorded (R382). -/
  arrived : List (Nat × Nat) := []
  /-- Grants this module holds on peer pages, and grants it has given (R374). -/
  grants : List Grant := []
  directory : List Grant := []
  /-- The latest time that each peer module's clock has shown here (R378). -/
  peerClocks : List (Nat × Nat) := []
  /-- Peers that have left the pod (R382). -/
  lostPeers : List Nat := []
  /-- Watches that peers have armed on lines of this module (R376). -/
  peerWatches : List (BitVec 10 × Nat) := []
  /-- Recalls that are not answered yet: the page, and the ticks at which it was recalled (R375). -/
  recalls : List (Nat × Nat) := []
  /-- Bytes written to pages that peers hold, which their homes perform once the pages are back, in order (R375). -/
  heldBytes : List Host.Cell := []
  /-- Requests that wait for the recall of a page (R375). -/
  deferred : List (Nat × Instr) := []
  linkA : Bool := true
  linkB : Bool := true
  images : List (Nat × Image) := []
  /-- The units that a freeze has streamed so far (R349). -/
  streamed : Image := {}
  /-- Thawed launches no part of which has found its place yet, by launch id (R352, assumption 28). -/
  unplaced : List (Nat × Image) := []
  signals : List Signal := []
  /-- The cause of a fatal error, until reset (R356). -/
  fatal : Option Word := none
  /-- The image that the management controller writes into the primary's instance before it releases reset, none for that of
the run of R361 (R360, assumption 58). -/
  bootImage : Option (List Byte) := none
  /-- Machine: time in ninths of a nanosecond, the core whose cycle is next, free values drawn. -/
  ticks : Nat := 0
  turn : Nat := 0
  fresh : Nat := 0
  /-- Datapath mismatches that strike the next bundle: 1 is replayed, 2 poison or DPERR (R154). -/
  upset : Nat := 0
  /-- Entries inserted into deques so far (R186). -/
  inserted : Nat := 0
  /-- Engine jobs issued so far (R217). -/
  jobsIssued : Nat := 0
  /-- Uncorrectable write errors that strike the next spill: 1 in the primary area, 2 in both (R182). -/
  spillErr : Nat := 0
  /-- Errors in the storage of registers that no read has met yet (R155, R177). -/
  regErrs : List RegErr := []
  /-- Errors in other storage that have come about (R205, R354). -/
  memErrs : List MemErr := []
  deriving DecidableEq, Repr

/-- Why a step can stop. -/
inductive Fault where
  /-- Raised by the step function alone: a fatal error has stopped every island, and the package waits
  for reset (R356). Safe: the hardware makes no step either. -/
  | waitsForReset
  deriving DecidableEq, Repr

/-- Why an instruction has no meaning. -/
inductive Refusal where
  /-- Raised by the dispatch alone, for a row of the table that the model does not give a meaning yet.
  Safe: no step is taken. -/
  | notModelled (mnemonic : String)
  deriving DecidableEq, Repr

/-- The package right after reset: every register at its reset value, nothing in memory, and the
firmware's own start as the next event (R357, assumption 3). -/
def State.reset : State := { agenda := [.packageReset []] }

end Sys2Proof.Machine
end

