-- ==== Sys2Proof/Machine/Lists.lean ====
section
/-! DEFINITION. Keyed lists with strictly rising keys, the canonical byte memories among them, sets of
numbers, and little-endian bytes (R7). -/

namespace Sys2Proof.Machine

/-- The value of a key in a keyed list. -/
def aget {α : Type} (k : Nat) : List (Nat × α) → Option α
  | [] => none
  | (i, x) :: l => if i = k then some x else if k < i then none else aget k l

/-- Set the value of a key. -/
def aset {α : Type} (k : Nat) (x : α) : List (Nat × α) → List (Nat × α)
  | [] => [(k, x)]
  | (i, y) :: l => if i = k then (k, x) :: l else if k < i then (k, x) :: (i, y) :: l else (i, y) :: aset k x l

/-- Remove a key. -/
def adel {α : Type} (k : Nat) : List (Nat × α) → List (Nat × α)
  | [] => []
  | (i, y) :: l => if i = k then l else if k < i then (i, y) :: l else (i, y) :: adel k l

/-- The least natural number that is no key of a keyed list, counted from a start. -/
def freshKey {α : Type} (start : Nat) : List (Nat × α) → Nat
  | [] => start
  | (i, _) :: l => if i < start then freshKey start l else if i = start then freshKey (start + 1) l else start

/-- The byte at an address of a canonical memory in which an unlisted address reads 0 (assumption 1). -/
def cellRead (m : List Host.Cell) (a : Nat) : Byte := (aget a m).getD 0#8

/-- Write a byte; a byte of 0 is not listed. -/
def cellWrite (m : List Host.Cell) (a : Nat) (b : Byte) : List Host.Cell :=
  if b = 0#8 then adel a m else aset a b m

/-- The n bytes from an address up. -/
def cellReadN (m : List Host.Cell) (a : Nat) : Nat → List Byte
  | 0 => []
  | n + 1 => cellRead m a :: cellReadN m (a + 1) n

/-- Write bytes from an address up. -/
def cellWriteN (m : List Host.Cell) (a : Nat) : List Byte → List Host.Cell
  | [] => m
  | b :: bs => cellWriteN (cellWrite m a b) (a + 1) bs

/-- A byte memory is in canonical form: rising addresses, no listed 0. -/
def Memory.wf (m : List Host.Cell) : Bool :=
  decide ((m.map Prod.fst).Pairwise (· < ·)) && m.all fun c => c.2 != 0#8

/-- Insert a number into a rising list of numbers. -/
def sinsert (k : Nat) : List Nat → List Nat
  | [] => [k]
  | i :: l => if i = k then i :: l else if k < i then k :: i :: l else i :: sinsert k l

/-- Remove a number from a rising list of numbers. -/
def sremove (k : Nat) (l : List Nat) : List Nat := l.filter fun i => i != k

/-- The little-endian value of bytes (R7). -/
def leNat : List Byte → Nat
  | [] => 0
  | b :: bs => b.toNat + 256 * leNat bs

/-- The low n bytes of a value, little-endian (R7). -/
def leBytes : Nat → Nat → List Byte
  | 0, _ => []
  | n + 1, v => BitVec.ofNat 8 v :: leBytes n (v / 256)

/-- n bytes of a list from an offset, as a number. -/
def field (bs : List Byte) (off n : Nat) : Nat := leNat ((bs.drop off).take n)

/-- Replace the i-th element. -/
def setAt {α : Type} (i : Nat) (x : α) : List α → List α
  | [] => []
  | y :: l => match i with
    | 0 => x :: l
    | i + 1 => y :: setAt i x l

/-- Replace elements from the i-th up. -/
def setManyAt {α : Type} (i : Nat) (xs l : List α) : List α :=
  l.take i ++ xs.take (l.length - i) ++ l.drop (i + xs.length)

/-- Bits [hi:lo] of a double word as a number. -/
def bits (v : DWord) (hi lo : Nat) : Nat := v.toNat / 2 ^ lo % 2 ^ (hi + 1 - lo)

/-- Bits [hi:lo] of a word as a number. -/
def wbits (v : Word) (hi lo : Nat) : Nat := v.toNat / 2 ^ lo % 2 ^ (hi + 1 - lo)

/-- One bit of a double word. -/
def dbit (v : DWord) (i : Nat) : Bool := v.getLsbD i

/-- va[63:57] equals copies of va[56] (R13). -/
def canonical (va : DWord) : Bool := va.extractLsb' 57 7 == (if va.getLsbD 56 then 0x7F#7 else 0#7)

/-- CRC-32 of IEEE 802.3: one bit of the reflected polynomial. -/
def crcBit (c : Nat) : Nat := if c % 2 = 1 then (c / 2) ^^^ 0xEDB88320 else c / 2

/-- CRC-32 of IEEE 802.3 over bytes (R181, R247, R350). -/
def crc32 (bs : List Byte) : Nat :=
  (bs.foldl (fun c b =>
    let c := c ^^^ b.toNat
    crcBit (crcBit (crcBit (crcBit (crcBit (crcBit (crcBit (crcBit c)))))))) 0xFFFFFFFF) ^^^ 0xFFFFFFFF

end Sys2Proof.Machine
end

