-- ==== Sys2Proof/Machine/Base.lean ====
section
/-! DEFINITION. The parts of the state by name and number: cores, clusters, dies, launches, threads and
their handles (R152), the fields of `tctl` (R28), the clocks (R26), and Chimes (R12, R36, R170). -/

namespace Sys2Proof.Machine

/-- A core by package core index. -/
def State.core (s : State) (c : Nat) : Core := (aget c s.cores).getD {}
/-- Change a core. -/
def State.modCore (s : State) (c : Nat) (f : Core → Core) : State :=
  { s with cores := aset c (f (s.core c)) s.cores }
/-- A cluster by package cluster index. -/
def State.cluster (s : State) (c : Nat) : Cluster := (aget c s.clusters).getD {}
/-- Change a cluster. -/
def State.modCluster (s : State) (c : Nat) (f : Cluster → Cluster) : State :=
  { s with clusters := aset c (f (s.cluster c)) s.clusters }
/-- A C-die. -/
def State.die (s : State) (d : Nat) : Die := (aget d s.dies).getD {}
/-- Change a C-die. -/
def State.modDie (s : State) (d : Nat) (f : Die → Die) : State :=
  { s with dies := aset d (f (s.die d)) s.dies }
/-- A launch queue. -/
def State.queue (s : State) (q : Nat) : Queue := (aget q s.queues).getD {}
/-- Change a launch queue. -/
def State.modQueue (s : State) (q : Nat) (f : Queue → Queue) : State :=
  { s with queues := aset q (f (s.queue q)) s.queues }
/-- An accepted launch that is not complete. -/
def State.launch? (s : State) (lid : Word) : Option Launch := aget lid.toNat s.launches
/-- Change a launch. -/
def State.modLaunch (s : State) (lid : Word) (f : Launch → Launch) : State :=
  match aget lid.toNat s.launches with
  | some l => { s with launches := aset lid.toNat (f l) s.launches }
  | none => s
/-- Change the current thread. -/
def State.modT (s : State) (f : Thread → Thread) : State := { s with t := f s.t }

/-- The cluster of a core (R2). -/
def clusterOf (core : Nat) : Nat := core / 8
/-- The die of a core (R2). -/
def dieOf (core : Nat) : Nat := core / 512

/-- `stime`, in nanoseconds (R25, R26). -/
def State.stime (s : State) : DWord := BitVec.ofNat 64 (s.ticks / 9)

/-- stime[27:12], the unit of fill stamps (R264). -/
def State.stampNow (s : State) : BitVec 16 := s.stime.extractLsb' 12 16

/-- The key of a context. -/
def Thread.ckey (t : Thread) : Nat := 1024 * t.core + t.num

/-- QM of `tctl` (R28). -/
def Thread.qm (t : Thread) : Bool := t.tctl.getLsbD 0
/-- QE of `tctl`. -/
def Thread.qe (t : Thread) : Bool := t.tctl.getLsbD 1
/-- DET of `tctl`. -/
def Thread.det (t : Thread) : Bool := t.tctl.getLsbD 2
/-- PROT of `tctl`. -/
def Thread.prot (t : Thread) : Bool := t.tctl.getLsbD 3
/-- MODE of `tctl`: supervisor. -/
def Thread.mode (t : Thread) : Bool := t.tctl.getLsbD 6
/-- PMODE of `tctl`. -/
def Thread.pmode (t : Thread) : Bool := t.tctl.getLsbD 7
/-- TR of `tctl`. -/
def Thread.tr (t : Thread) : Bool := t.tctl.getLsbD 8

/-- A word with one bit set to a value. -/
def setBit (w : Word) (i : Nat) (b : Bool) : Word :=
  if b then w ||| BitVec.ofNat 32 (2 ^ i) else w &&& ~~~(BitVec.ofNat 32 (2 ^ i))

/-- TR, PMODE and MODE written together. -/
def Thread.setModes (t : Thread) (tr pmode mode : Bool) : Thread :=
  { t with tctl := setBit (setBit (setBit t.tctl 8 tr) 7 pmode) 6 mode }

/-- The handle of a context (R152). -/
def Thread.handle (t : Thread) : Word :=
  t.gen ++ (BitVec.ofNat 12 t.core ++ BitVec.ofNat 10 t.num : BitVec 22)

/-- The current thread is there. -/
def State.hasT (s : State) : Bool := s.t.life != .exited

/-- A context by its key. -/
def State.thread? (s : State) (k : Nat) : Option Thread :=
  if s.hasT && s.t.ckey == k then some s.t else aget k s.ctxs

/-- Write a context back by its key; an exited one leaves. -/
def State.putThread (s : State) (th : Thread) : State :=
  if s.hasT && s.t.ckey == th.ckey then { s with t := th }
  else if th.life = .exited then { s with ctxs := adel th.ckey s.ctxs }
  else { s with ctxs := aset th.ckey th s.ctxs }

/-- Every context, resident or spilled. -/
def State.threads (s : State) : List Thread :=
  if s.hasT then s.t :: s.ctxs.map Prod.snd else s.ctxs.map Prod.snd

/-- Change every context. -/
def State.mapThreads (s : State) (f : Thread → Thread) : State :=
  { s with t := if s.hasT then f s.t else s.t, ctxs := s.ctxs.map fun c => (c.1, f c.2) }

/-- Store the current thread among the contexts; none is current after it. -/
def State.checkIn (s : State) : State :=
  if s.hasT then { s with ctxs := aset s.t.ckey s.t s.ctxs, t := { life := .exited } } else s

/-- Make the context with a key the current thread. -/
def State.switchTo (s : State) (k : Nat) : State :=
  if s.hasT && s.t.ckey == k then s
  else
    let s := s.checkIn
    match aget k s.ctxs with
    | some th => { s with t := th, ctxs := adel k s.ctxs }
    | none => s

/-- A buffered store of a thread holds a translation that a shootdown has removed (R126, R298). -/
def Thread.stale (t : Thread) : Bool := t.slines.any fun l => l.2.2.2

/-- The contexts of a launch. -/
def State.ofLaunch (s : State) (lid : Word) : List Thread := s.threads.filter fun th => th.lid == lid

/-- The contexts of a core. -/
def State.ofCore (s : State) (c : Nat) : List Thread := s.threads.filter fun th => th.core == c

/-- The context holds a slot and its registers are in the core (R34). -/
def Thread.resident (t : Thread) : Bool := t.life != .spilled && t.life != .exited

/-- A handle as the launch's rename table translates it (R353). -/
def State.renamed (s : State) (lid h : Word) : Word :=
  match s.launch? lid with
  | some l => (((l.renames.find? fun p => p.1 == h).map Prod.snd)).getD h
  | none => h

/-- The context that a handle names, if there is one (R152). -/
def State.byHandle (s : State) (h : Word) : Option Thread :=
  match s.thread? (1024 * wbits h 21 10 + wbits h 9 0) with
  | some th => if th.handle = h ∧ th.life ≠ .exited then some th else none
  | none => none

/-- Raise the acquire mark of a core to `stime` (R273). -/
def State.markAcquire (s : State) (c : Nat) : State :=
  s.modCore c fun k => { k with am := if k.am.toNat < s.stime.toNat then s.stime else k.am }

/-- The page of a virtual address, va[56:16] (R299). -/
def vpnOf (va : DWord) : BitVec 41 := va.extractLsb' 16 41

/-- A context's flags have changed: of a spilled one the record's flags byte is to be written anew (R179, R181, R196). -/
def Thread.flagged (th : Thread) : Thread := if th.life = .spilled then { th with reflag := true } else th

/-- What a Chime does to one context (R12, R36): a parked one re-enters the Roll, a suspended or spilled
one takes the wake-pending mark. A deterministic thread re-evaluates its instruction at the boundary
instead, unless it is parked with FAULT (R337), one whose record its die still holds pending wakes when the record is
written (R302), and one that its slice's full watch table has not taken waits for the poll (R135). -/
def Thread.chimed (k : Key) (th : Thread) : Thread :=
  match th.park with
  | none => th
  | some p =>
    if p.key ≠ k ∨ th.pollAt.isSome then th
    else match th.life with
      | .parked =>
        if th.det && p.reason != 6 then th
        else if th.recPend then { th with wake := true }
        else { th with life := .running, park := none }
      | .suspended => { th with wake := true }
      | .spilled => { th with wake := true, reflag := true }
      | _ => th

/-- Chime(key): every context parked, suspended or spilled on the key (R12, R171). -/
def State.chime (s : State) (k : Key) : State := s.mapThreads (Thread.chimed k)

/-- Every Chime of a list. -/
def State.chimes (s : State) (ks : List Key) : State := ks.foldl State.chime s

/-- The host sees a signal (R369). -/
def State.signal (s : State) (x : Signal) : State := { s with signals := s.signals ++ [x] }

/-- The launch is pre-empted or being so, and its threads stay out of the Roll (R178). A boundary of a deterministic
launch that has begun completes first: it is one operation of all of its threads (R143, R337, assumption 17). -/
def State.held (s : State) (lid : Word) : Bool :=
  match s.launch? lid with
  | some l => (l.st == .suspending || l.st == .suspended) && !l.boundary
  | none => false

/-- What a context has begun completes before it leaves the Roll (R143, R178): a bundle of an issue group that is still
to issue (R37), a message that it has sent (R344), or a boundary of its launch. -/
def State.finishing (s : State) (th : Thread) : Bool :=
  (th.life == .running && (s.issue.contains th.ckey || th.kept.any fun k => k.kind == .sent)) ||
    (s.launch? th.lid).any (·.boundary)

/-- Draw a free value (assumption 10). -/
def State.draw (s : State) : Nat × State := (Config.freeNat s.fresh, { s with fresh := s.fresh + 1 })

/-- PathStep(p, k) (R189). -/
def pathStep (p k : DWord) : DWord :=
  let z := p ^^^ ((k + 1#64) * 0x9E3779B97F4A7C15#64)
  let z := (z ^^^ (z >>> 30)) * 0xBF58476D1CE4E5B9#64
  let z := (z ^^^ (z >>> 27)) * 0x94D049BB133111EB#64
  z ^^^ (z >>> 31)

/-- The order of threads at a boundary and of ranks: the key (`tix`, `path`), then the handle (R195, R231). -/
def Thread.before (a b : Thread) : Bool :=
  if a.tix ≠ b.tix then decide (a.tix.toNat < b.tix.toNat)
  else if a.path ≠ b.path then decide (a.path.toNat < b.path.toNat)
  else decide (a.handle.toNat < b.handle.toNat)

/-- Insertion into a list that is in order. -/
def insertBy {α : Type} (lt : α → α → Bool) (x : α) : List α → List α
  | [] => [x]
  | y :: l => if lt x y then x :: y :: l else y :: insertBy lt x l

/-- Insertion sort. -/
def sortBy {α : Type} (lt : α → α → Bool) : List α → List α
  | [] => []
  | x :: l => insertBy lt x (sortBy lt l)

end Sys2Proof.Machine
end

