-- ==== Sys2Proof/Machine/Phys.lean ====
section
/-! DEFINITION. The physical address space (R367), access tables (R308 to R311), homes (R262, R370, R373)
and what a write at a home does (R125, R135, R265), the region table (R267), machine events (R355), and
the values that registers of the register blocks read (R368). -/

namespace Sys2Proof.Machine

/-- Bytes of local device memory (R262). -/
def deviceBytes : Nat := 0xC000000000

/-- What a physical address names (R367). -/
inductive Place where
  | device (pa : Nat)
  | dieBlock (die off : Nat)
  | iodA (off : Nat)
  | iodB (off : Nat)
  | peer (p da : Nat)
  | host (pa : Nat)
  | hole
  deriving DecidableEq, Repr

/-- The place of a physical address; the window of the module's own number aliases device memory (R367). -/
def State.place (s : State) (pa : Nat) : Place :=
  if pa < deviceBytes then .device pa
  else if pa < 0xC020000000 then .dieBlock ((pa - 0xC000000000) / 0x4000000) (pa % 0x4000000)
  else if pa < 0xC024000000 then .iodA (pa - 0xC020000000)
  else if pa < 0xC028000000 then .iodB (pa - 0xC024000000)
  else if pa < 0x4000000000000 then .hole
  else if pa < 0x8000000000000 then
    let p := pa / 2 ^ 40 % 1024
    let da := pa % 2 ^ 40
    if deviceBytes ≤ da then .hole
    else if p = s.mypn.toNat then .device da
    else .peer p da
  else if pa < 0x10000000000000 then .host pa
  else .hole

/-- The address under which memory and caches hold a byte. -/
def State.homeAddr (s : State) (pa : Nat) : Nat :=
  match s.place pa with
  | .device da => da
  | _ => pa

/-- Ordinary memory: device, peer and host memory. -/
def Place.isMemory : Place → Bool
  | .device _ | .peer _ _ | .host _ => true
  | _ => false

/-- A register of a register block (R368). -/
def Place.isBlock : Place → Bool
  | .dieBlock _ _ | .iodA _ | .iodB _ => true
  | _ => false

/-- The die of a device address (R262). -/
def homeDie (da : Nat) : Nat := da / 0x1800000000

/-- The home slice of a line within its die (R262). -/
def homeSlice (a : Nat) : Nat :=
  (a / 2 ^ 7 % 64) ^^^ (a / 2 ^ 13 % 64) ^^^ (a / 2 ^ 19 % 64) ^^^ (a / 2 ^ 25 % 64) ^^^ (a / 2 ^ 31 % 64)

/-- The die and the slice of the home, or of the local proxy home, of a line (R262, R373). -/
def State.sliceOf (s : State) (pa : Nat) : Option (Nat × Nat) :=
  match s.place pa with
  | .device da => some (homeDie da, homeSlice da)
  | .peer _ da => some (da / 65536 % 8, homeSlice da)
  | _ => none

/-- The target that checks requests at an address, and the address's unit (R309): slices of die d are d,
the block of die d is 8 + d, IOD-A's host bridge and block 16 and 17, the UALink ingress 18, IOD-B's host
bridge and block 19 and 20. With one host link down, the other bridge serves both halves (R370). -/
def State.targetOf (s : State) (pa : Nat) : Option (Nat × Nat) :=
  match s.place pa with
  | .device da => some (homeDie da, da / 2097152)
  | .dieBlock d off => some (8 + d, off / 4096)
  | .iodA off => some (17, off / 4096)
  | .iodB off => some (20, off / 4096)
  | .peer _ da => some (da / 65536 % 8, pa / 2097152)
  | .host a =>
    let b := a / 4096 % 2 = 1
    some (if (b ∧ s.linkB) ∨ ¬ s.linkA then 19 else 16, pa / 2097152)
  | .hole => none

/-- What a request needs of an access table (R310). -/
def AccessEntry.bit (e : AccessEntry) : AccKind → Bool
  | .read | .fetch => dbit e.w0 1
  | .write => dbit e.w0 2
  | .atomic | .syncRead => dbit e.w0 3

/-- A valid entry that grants a master a unit (R310). -/
def AccessEntry.covers (e : AccessEntry) (m : BitVec 20) (u : Nat) : Bool :=
  dbit e.w0 0 && ((m ^^^ e.w0.extractLsb' 44 20) &&& e.w0.extractLsb' 24 20) == 0#20 &&
    decide (bits e.w1 30 0 ≤ u) && decide (u ≤ bits e.w1 61 31)

/-- A target's table grants a request (R310). -/
def State.tableGrants (s : State) (target u : Nat) (m : BitVec 20) (k : AccKind) : Bool :=
  s.access.any fun p => p.1 / 1024 == target && p.2.covers m u && p.2.bit k

/-- The request changes what it names. -/
def changes : AccKind → Bool
  | .write | .atomic => true
  | _ => false

/-- The 2 MiB units that hold the region table, which no store changes (R267). -/
def inRegionTable (a : Nat) : Bool := decide (Config.regionTable ≤ a) && decide (a < Config.regionTable + 2 * 2097152)

/-- A write from an address touches the region table (R267). -/
def touchesRegions (a n : Nat) : Bool := decide (a < Config.regionTable + 2 * 2097152) && decide (Config.regionTable < a + n)

/-- The request is granted where it goes (R310, R367); none changes the region table (R267). -/
def State.granted (s : State) (m : BitVec 20) (pa : Nat) (k : AccKind) : Bool :=
  match s.targetOf pa with
  | some (t, u) => s.tableGrants t u m k && !(changes k && inRegionTable (s.homeAddr pa))
  | none => false

/-- A master ID (R308). -/
def masterId (cls idx : Nat) : BitVec 20 := BitVec.ofNat 4 cls ++ BitVec.ofNat 16 idx

/-- The master ID of a thread (R308); a boot thread is class 1 with INDEX 0 (R360). -/
def Thread.master (t : Thread) : BitVec 20 :=
  if t.boot then masterId 1 0 else masterId (if t.mode then 1 else 0) t.asn.toNat

/-- The line of a home address. -/
def lineNo (a : Nat) : Nat := a / 128

/-- Bytes at a home. -/
def State.homeRead (s : State) (pa n : Nat) : List Byte := cellReadN s.mem (s.homeAddr pa) n

/-- Whether a sector that the bytes touch is poisoned (R125). -/
def State.homePois (s : State) (pa n : Nat) : Bool :=
  let a := s.homeAddr pa
  s.pois.any fun p => decide (a / 32 ≤ p) && decide (p < (a + n + 31) / 32)

/-- The word at a physical address. -/
def State.memWord (s : State) (pa : Nat) : Word := BitVec.ofNat 32 (leNat (s.homeRead pa 4))
/-- The double word at a physical address. -/
def State.memDword (s : State) (pa : Nat) : DWord := BitVec.ofNat 64 (leNat (s.homeRead pa 8))

/-- A write of the core that it has not been told of covers a byte (R265). -/
def Core.covered (k : Core) (a : Nat) : Bool := k.sent.any fun w => decide (w.pa ≤ a) && decide (a < w.pa + w.bytes.length)

/-- Bytes of an update as they reach a line of a core: where the core has a write on its way, which the home orders
later, its own byte stays (R265, R283). -/
def Core.arriving (k : Core) (l : Line) (u : Update) : List Byte :=
  ((List.range u.bytes.length).zip (u.bytes.zip (l.data.drop (u.pa % 128)))).map fun p =>
    if k.covered (u.pa + p.1) then p.2.2 else p.2.1

/-- The sectors that an L1's own storage has lost, after an update: one that the update writes whole is good again (R125,
R354). -/
def Line.struckAfter (l : Line) (u : Update) : List Bool :=
  (List.range 4).map fun k => (l.struck.drop k).headD false &&
    !(decide (u.pa % 128 ≤ 32 * k) && decide (32 * k + 32 ≤ u.pa % 128 + u.bytes.length))

/-- Apply an update to a held H line (R265); a sector that the L1's own storage has lost stays poisoned (R354). -/
def Core.updated (k : Core) (u : Update) (l : Line) : Line :=
  if l.h ∧ lineNo u.pa = l.n then { l with
    data := setManyAt (u.pa % 128) (k.arriving l u) l.data
    pois := if l.struck.contains true then (u.pois.zip (l.struckAfter u)).map fun p => p.1 || p.2 else u.pois
    struck := l.struckAfter u }
  else l

/-- The core is told of the oldest of its own writes to a line that has performed there. -/
def tellSent (n : Nat) : List Sent → List Sent
  | [] => []
  | w :: l => if w.home && lineNo w.pa == n then l else w :: tellSent n l

/-- A sharer applies an update; one of its own writes tells it that the write has performed (R265). -/
def Core.apply (k : Core) (c : Nat) (u : Update) : Core :=
  let k := if u.writer = some c then { k with sent := tellSent (lineNo u.pa) k.sent } else k
  { k with l1 := k.l1.map (k.updated u) }

/-- Apply the updates that wait for a core, in their order (R265). -/
def State.drain (s : State) (c : Nat) : State :=
  if (s.core c).updates.isEmpty then s
  else s.modCore c fun k => { k.updates.foldl (fun k u => k.apply c u) k with updates := [] }

/-- Apply the updates that wait anywhere, so that every write at a home is acknowledged (R124, R265). -/
def State.drainAll (s : State) : State := s.cores.foldl (fun s c => s.drain c.1) s

/-- The updates of a sharer that a writer's acknowledgements wait for: those of each home up to the writer's last one
(R265); `due` is true for them. -/
def State.splitDue (s : State) (w : Option Nat) : List Update → List (Bool × Update)
  | [] => []
  | u :: l => ((u :: l).any fun x => x.writer == w && s.sliceOf x.pa == s.sliceOf u.pa, u) :: s.splitDue w l

/-- The acknowledgements of a writer's writes at their homes have come (R124, R265). -/
def State.acked (s : State) (w : Option Nat) : State :=
  { s with cores := s.cores.map fun c =>
      let us := s.splitDue w c.2.updates
      (c.1, { (us.filter Prod.fst).foldl (fun k u => k.apply c.1 u.2) c.2 with
        updates := (us.filter fun u => !u.1).map Prod.snd }) }

/-- The poison marks of a line's sectors at its home (R125). -/
def State.linePois (s : State) (n : Nat) : List Bool := (List.range 4).map fun k => s.pois.any fun p => p == 4 * n + k

/-- The core is recorded as a sharer of a line (R265). -/
def Core.shares (k : Core) (n : Nat) : Bool := k.l1.any fun l => l.h && l.n == n

/-- Forward new bytes of one line and the home's poison marks to every sharer but the writer (R125, R265). -/
def State.forward (s : State) (writer : Option Nat) (a : Nat) (bytes : List Byte) : State :=
  let n := lineNo a
  let u : Update := { pa := a, bytes := bytes, writer := writer, pois := s.linePois n }
  { s with cores := s.cores.map fun c =>
      if some c.1 ≠ writer ∧ c.2.shares n then (c.1, { c.2 with updates := c.2.updates ++ [u] }) else c }

/-- The lines that a run of bytes touches, by their first addresses. -/
def linesOf (a n : Nat) : List Nat :=
  (List.range ((a + n + 127) / 128 - a / 128)).map fun i => 128 * (a / 128 + i)

/-- Forward bytes that may lie in several lines, line by line (R265). -/
def State.forwardLines (s : State) (writer : Option Nat) (a : Nat) (bytes : List Byte) : State :=
  if a % 128 + bytes.length ≤ 128 then s.forward writer a bytes
  else (linesOf a bytes.length).foldl (fun s x =>
    let lo := max a x
    s.forward writer lo ((bytes.drop (lo - a)).take (x + 128 - lo))) s

/-- A deterministic launch keeps the bytes of its latest boundary that a write changes (R287). -/
def Launch.noted (mem : List Host.Cell) (a n : Nat) (l : Launch) : Launch :=
  if l.pkt.flags.getLsbD 0 && l.placed != 0 && !l.boundary then
    { l with since := (List.range n).foldl (fun m i =>
        if (aget (a + i) m).isSome then m else aset (a + i) (cellRead mem (a + i)) m) l.since }
  else l

/-- Note a write of n bytes at a home for the deterministic launches (R287). -/
def State.noteWrite (s : State) (a n : Nat) : State :=
  { s with launches := s.launches.map fun x => (x.1, x.2.noted s.mem a n) }

/-- The page of a device address is held exclusively by a peer (R374). -/
def State.heldByPeer (s : State) (a : Nat) : Bool :=
  decide (a < deviceBytes) && s.directory.any fun g => g.page == a / 65536 && g.exclusive

/-- The owner home recalls the grant on a page, unless it has recalled it already (R375). -/
def State.recall (s : State) (page : Nat) (forRead : Bool) : State :=
  if s.recalls.any fun r => r.1 == page then s
  else ({ s with recalls := s.recalls ++ [(page, s.ticks)] } : State).signal (.peerRecall page forRead)

/-- A page of some bytes that a peer holds (R374). -/
def State.heldPage (s : State) (a n : Nat) : Option Nat :=
  ((List.range ((a + n - 1) / 65536 - a / 65536 + 1)).map fun i => a / 65536 + i).find? fun p => s.heldByPeer (65536 * p)

/-- Bytes written to a page that a peer holds wait at the home for its return (R375, assumption 40). -/
def State.holdWrite (s : State) (page a : Nat) (bytes : List Byte) : State :=
  { s.recall page false with heldBytes := s.heldBytes ++ ((List.range bytes.length).map (a + ·)).zip bytes }

/-- The bytes of lines have changed at their homes, or their homes drop their watches: a Chime to every watch, a peer's
over UALink (R135, R376). -/
def State.lineChimes (s : State) (lines : List Nat) : State :=
  let s := s.chimes (lines.flatMap fun l => [.line l, .join l])
  { s with
    signals := s.signals ++ (s.peerWatches.filter fun w => lines.contains w.2).map fun w => .peerChime w.1 w.2
    peerWatches := s.peerWatches.filter fun w => !lines.contains w.2 }

/-- A write that performs at the home of its bytes: memory, the poison that a single write of whole sectors clears (R125),
updates to sharers, and the Chime of a line whose bytes change (R135). -/
def State.performWrite (s : State) (writer : Option Nat) (pa : Nat) (bytes : List Byte) : State :=
  let a := s.homeAddr pa
  let n := bytes.length
  let changed := s.homeRead pa n ≠ bytes
  let s := s.noteWrite a n
  let s := { s with
    mem := cellWriteN s.mem a bytes
    pois := s.pois.filter fun p => !(decide (a ≤ 32 * p) && decide (32 * p + 32 ≤ a + n)) }
  let s := s.forwardLines writer a bytes
  if changed then s.lineChimes (linesOf a n) else s

/-- A write at the home of its bytes, after the return of a page that a peer holds (R375). -/
def State.homeWrite (s : State) (writer : Option Nat) (pa : Nat) (bytes : List Byte) : State :=
  match s.heldPage (s.homeAddr pa) bytes.length with
  | some page => s.holdWrite page (s.homeAddr pa) bytes
  | none => s.performWrite writer pa bytes

/-- Mark a sector poisoned, at its home and at the line's sharers (R125). -/
def State.poisonSector (s : State) (sector : Nat) : State :=
  ({ s with pois := sinsert sector s.pois } : State).forward none (32 * sector) []

/-- A sector is poisoned no longer, at its home and at the line's sharers, which learn of it in the order of its home
(R125, R265). -/
def State.healSector (s : State) (sector : Nat) : State :=
  ({ s with pois := s.pois.filter fun p => p != sector } : State).forward none (32 * sector) []

/-- Bytes that are not known: free values (assumption 26). -/
def freeBytes (draws n : Nat) : List Byte := (List.range n).map fun i => BitVec.ofNat 8 (Config.freeNat (draws + i))

/-- Bytes of memory as an agent other than a thread reads them: those of a poisoned sector are free values, numbered from
`draws` (R125, assumption 26). -/
def State.knownBytes (s : State) (pa n draws : Nat) : List Byte :=
  let bytes := s.homeRead pa n
  if s.homePois pa n then
    ((bytes.zip (freeBytes draws n)).zip (List.range n)).map fun x => if s.homePois (pa + x.2) 1 then x.1.2 else x.1.1
  else bytes

/-- A grant that this module holds on a peer page goes back to its owner (R374, R375): the bytes that the proxy holds,
and the grant becomes SR, or goes. -/
def State.yieldGrant (s : State) (g : Grant) (forRead : Bool) : State :=
  let bytes := if g.exclusive then s.homeRead (65536 * g.page) 65536 else []
  let grants := if forRead then s.grants.map fun x => if x.page == g.page then { x with exclusive := false } else x
    else s.grants.filter fun x => x.page != g.page
  ({ s with grants := grants } : State).signal (.peerReply (BitVec.ofNat 10 (g.page / 2 ^ 24)) bytes)

/-- An operation that performs at the owner home of a peer page recalls this module's own exclusive grant (R375, R376). -/
def State.returnPage (s : State) (pa : Nat) (forRead : Bool) : State :=
  match s.place pa with
  | .peer _ _ => match s.grants.find? fun g => g.page == pa / 65536 && g.exclusive with
    | some g => s.yieldGrant g forRead
    | none => s
  | _ => s

/-- The grants that a request at the proxy of a peer page obtains (R374): SR for a read, and for written bytes E where
no other module holds a grant, which this module cannot know (assumption 10). A full grant table recalls the least
recently used grant; the list has the most recently used one last. -/
def State.takeGrant (s : State) (pa : Nat) (write : Bool) : State :=
  match s.place pa with
  | .peer _ _ =>
    let page := pa / 65536
    let had := s.grants.find? fun g => g.page == page
    let e := had.any (·.exclusive)
    let (v, s) := if write && !e then s.draw else (0, s)
    let s := match had, s.grants with
      | none, g :: _ => if 16384 ≤ s.grants.length then s.yieldGrant g false else s
      | _, _ => s
    { s with grants := (s.grants.filter fun g => g.page != page) ++ [{ page := page, exclusive := e || v % 2 = 1 }] }
  | _ => s

/-- A write at a home by an agent that goes on once every sharer has acknowledged it (R265), or at the proxy of a peer page
(R374); none changes the region table (R267). -/
def State.agentWrite (s : State) (pa : Nat) (bytes : List Byte) : State :=
  if touchesRegions (s.homeAddr pa) bytes.length then s else ((s.takeGrant pa true).homeWrite none pa bytes).acked none

/-- A write that performs at the home in the module that owns the memory, after the return of this module's own grant (R375,
R376); none changes the region table (R267). -/
def State.ownerWrite (s : State) (pa : Nat) (bytes : List Byte) : State :=
  if touchesRegions (s.homeAddr pa) bytes.length then s
  else ((s.returnPage pa false).homeWrite none pa bytes).acked none

/-- An agent writes a little-endian value of n bytes at a home. -/
def State.homeWriteNat (s : State) (pa n v : Nat) : State := s.agentWrite pa (leBytes n v)

/-- An uncore agent's request goes to memory and is granted at its target (R308, R310, R368). -/
def State.agentGranted (s : State) (agent pa : Nat) (k : AccKind) : Bool :=
  (s.place pa).isMemory && match s.targetOf pa with
    | some (t, u) => s.tableGrants t u (masterId 5 agent) k
    | none => false

/-- The address of a region's entry (R267). -/
def regionEntryAddr (r : Nat) : Nat := Config.regionTable + 8 * r
/-- A region's entry. -/
def State.regionEntry (s : State) (r : Nat) : DWord := BitVec.ofNat 64 (leNat (cellReadN s.mem (regionEntryAddr r) 8))
/-- Write a region's entry; its line Chimes (R267). -/
def State.setRegionEntry (s : State) (r : Nat) (e : DWord) : State :=
  (s.homeWrite none (regionEntryAddr r) (leBytes 8 e.toNat)).acked none
/-- The kind of the region of a home address: true for a coherent region; host and peer memory is
software-managed (R267). -/
def State.regionH (s : State) (a : Nat) : Bool :=
  decide (a < deviceBytes) && (s.regionEntry (a / 2097152)).getLsbD 0
/-- A switch of the region is in progress (R269). -/
def State.regionSwitching (s : State) (a : Nat) : Bool :=
  decide (a < deviceBytes) && (s.regionEntry (a / 2097152)).getLsbD 2

/-- BASE of `fqd`, `mevd` and `dbgd` (R301). -/
def ringBase (d : DWord) : Nat := bits d 51 12 * 4096
/-- LOG of `fqd`, `mevd` and `dbgd`. -/
def ringLog (d : DWord) : Nat := bits d 4 0

/-- The address of CONS of a die's ring (R301). -/
def ringCons (d : DWord) : Nat := ringBase d + 64

/-- The page of CONS of a die's enabled ring, where a peer holds it: the die's read of it waits (R375). -/
def State.ringHeld (s : State) (d : DWord) : Bool := dbit d 5 && s.heldByPeer (s.homeAddr (ringCons d))

/-- A die's ring can take an element: enabled, in memory, and not full (R301, R368). The fault-queue writer, an uncore
agent, is granted its read of CONS (R308, assumption 56). -/
def State.ringOpen (s : State) (agent : Option Nat) (d : DWord) (prod : Word) : Bool :=
  let cons := s.memWord (ringCons d)
  dbit d 5 && (s.place (ringCons d)).isMemory && !s.ringHeld d &&
    (match agent with
      | some i => s.agentGranted i (ringCons d) .read
      | none => true) && decide ((prod - cons).toNat < 2 ^ ringLog d)

/-- The 32 bytes of a machine event of a die, with the count of those dropped before it (R355). -/
def MachineEvent.bytes (e : MachineEvent) (die dropped : Nat) : List Byte :=
  leBytes 2 e.code ++ leBytes 1 die ++ leBytes 1 (min dropped 255) ++ leBytes 4 e.core ++ leBytes 8 e.stime.toNat ++
    (e.data ++ List.replicate 16 0#8).take 16

/-- A machine event goes to its die's ring, counted and dropped while the ring takes none; MSI-X vector 0 when IEN
asks for it (R355, R369, assumption 20). -/
def State.postEvent (s : State) (die : Nat) (e : MachineEvent) : State :=
  let k := s.die die
  if s.ringOpen none k.mevd k.mprod then
    let s := s.agentWrite (ringBase k.mevd + 128 + 32 * (k.mprod.toNat % 2 ^ ringLog k.mevd)) (e.bytes die k.mdrop)
    let s := s.homeWriteNat (ringBase k.mevd) 4 (k.mprod + 1#32).toNat
    let s := s.modDie die fun k => { k with mprod := k.mprod + 1#32, mdrop := 0 }
    if dbit k.mevd 6 then s.signal (.msix 0) else s
  else s.modDie die fun k => { k with mdrop := k.mdrop + 1 }

/-- The machine events of a die that have waited for its ring's page reach the ring, once the page is back (R375). -/
def State.postEvents (s : State) (die : Nat) : State :=
  if s.ringHeld (s.die die).mevd then s
  else (s.die die).events.foldl (fun s e => s.postEvent die e) (s.modDie die fun k => { k with events := [] })

/-- A machine event (R355): one whose ring's CONS lies in a page that a peer holds waits for the page (R375). The core of
an event that no core raises is a free value. -/
def State.machineEvent (s : State) (die code : Nat) (core : Option Nat) (data : List Byte) : State :=
  let (v, s) := s.draw
  let e : MachineEvent := { code := code, core := core.getD v, stime := s.stime, data := data }
  let d := (s.die die).mevd
  if s.ringHeld d then
    (s.recall (s.homeAddr (ringCons d) / 65536) true).modDie die fun k => { k with events := k.events ++ [e] }
  else (s.postEvents die).postEvent die e

/-- The code of an access kind in a fault record (R151) and in a refusal event. -/
def accCode : AccKind → Nat
  | .read => 0
  | .write => 1
  | .fetch => 2
  | .atomic | .syncRead => 3

/-- A refused request: counted by its target, and machine event 4 (R311). -/
def State.refuse (s : State) (m : BitVec 20) (pa : Nat) (k : AccKind) (core : Option Nat) : State :=
  let t := ((s.targetOf pa).map Prod.fst).getD 21
  let s := { s with violations := aset t ((aget t s.violations).getD 0 + 1) s.violations }
  let die := if t < 8 then t else if t < 16 then t - 8 else 0
  s.machineEvent die 4 core (leBytes 4 m.toNat ++ leBytes 8 pa ++ leBytes 4 (accCode k))

/-- A refused request of a master that R308 gives no ID: the ID that its event reports is a free value (assumption 57). -/
def State.refuseNameless (s : State) (pa : Nat) (k : AccKind) : State :=
  let (v, s) := s.draw
  s.refuse (BitVec.ofNat 20 v) pa k none

/-- An uncore agent's write, which its target drops where it refuses it (R308, R311). -/
def State.uncoreWrite (s : State) (agent pa : Nat) (bytes : List Byte) : State :=
  if s.agentGranted agent pa .write then s.agentWrite pa bytes else s.refuse (masterId 5 agent) pa .write none

/-- A write by the scheduler or the report writer, which have no ID and are checked by no table: memory takes it, a peer
page's at the proxy, and a register block or a hole refuses it (R308, R367, R368, R374). -/
def State.namelessWrite (s : State) (pa : Nat) (bytes : List Byte) : State :=
  if (s.place pa).isMemory then s.agentWrite pa bytes else s.refuseNameless pa .write

/-- `stime` at the home of an address: of the module that owns it, within 512 ns of this module's clock, since each is
within 256 ns of the pod's, and never before what it has shown already (R378, assumption 10). -/
def State.clockAt (s : State) (pa : Nat) : DWord × State :=
  match s.place pa with
  | .peer p _ =>
    let (v, s) := s.draw
    let t := max (s.stime.toNat + v % 1025 - 512) ((aget p s.peerClocks).getD 0)
    (BitVec.ofNat 64 t, { s with peerClocks := aset p t s.peerClocks })
  | _ => (s.stime, s)

/-- `gongs` (R347). -/
def State.gongs (s : State) : DWord :=
  let us := match s.gongFrom with
    | some t => (s.ticks - t) / 9000
    | none => 0
  BitVec.ofNat 64 (us % 2 ^ 32 * 2 ^ 32 + s.gongErr % 256 * 2 ^ 24 + s.gongStep % 256 * 2 ^ 16 + s.gongNl % 65536)

/-- `islst` (R359). -/
def Cluster.islst (k : Cluster) : DWord := BitVec.ofNat 64 (k.cause.toNat * 65536 + k.fmhz.toNat)

/-- `lqp` (R318). -/
def Queue.lqp (q : Queue) : DWord :=
  BitVec.ofNat 64 (q.log.toNat * 2 ^ 32 + q.head.toNat * 65536 + q.tail.toNat)

/-- A word of an access-table window of 64 entries (R309). -/
def State.accessWord (s : State) (target off : Nat) : DWord :=
  let e := (aget (1024 * target + off / 16) s.access).getD {}
  if off / 8 % 2 = 0 then e.w0 else e.w1

/-- What an aligned 8-byte read of a register block returns; an unassigned offset reads 0 (R368). -/
def State.regRead (s : State) : Place → DWord
  | .dieBlock d off =>
    if off = 0x1000 then (s.die d).fqd
    else if off = 0x1008 then (s.die d).mevd
    else if off = 0x1010 then (s.die d).dbgd
    else if 0x10000 ≤ off ∧ off < 0x14000 then
      let k := s.core (512 * d + (off - 0x10000) / 32)
      match off / 8 % 4 with
      | 0 => k.spla
      | 1 => k.splb
      | 2 => k.dqa
      | _ => k.dql
    else if 0x20000 ≤ off ∧ off < 0x20200 then (s.cluster (64 * d + (off - 0x20000) / 8)).islst
    else if 0x30000 ≤ off ∧ off < 0x30400 then s.accessWord d (off - 0x30000)
    else if 0x31000 ≤ off ∧ off < 0x31400 then s.accessWord (8 + d) (off - 0x31000)
    else if off = 0x40000 then s.ptb
    else if off = 0x40008 then s.asb
    else 0#64
  | .iodA off =>
    if off < 0x200 then (s.queue (off / 8)).lqd
    else if 0x1000 ≤ off ∧ off < 0x1200 then (s.queue ((off - 0x1000) / 8)).lqp
    else if 0x2000 ≤ off ∧ off < 0x2200 then (s.queue ((off - 0x2000) / 8)).lqk.setWidth 64
    else if off = 0x3000 then s.gongc
    else if off = 0x3008 then s.gongl
    else if off = 0x3010 then s.gongs
    else if off = 0x3018 then s.fdump
    else if off = 0x3100 then s.dseed.setWidth 64
    else if off = 0x3108 then s.stime
    else if off = 0x3110 then s.rrep
    else if off = 0x3118 then s.ptb
    else if off = 0x3120 then s.asb
    else if off = 0x3128 then s.bmap
    else if 0x4000 ≤ off ∧ off < 0x4400 then s.accessWord 16 (off - 0x4000)
    else if 0x5000 ≤ off ∧ off < 0x5400 then s.accessWord 17 (off - 0x5000)
    else 0#64
  | .iodB off =>
    if off = 0 then s.mypn.setWidth 64
    else if off = 8 then s.ccb
    else if 0x1000 ≤ off ∧ off < 0x1400 then s.accessWord 18 (off - 0x1000)
    else if 0x2000 ≤ off ∧ off < 0x2400 then s.accessWord 19 (off - 0x2000)
    else if 0x3000 ≤ off ∧ off < 0x3400 then s.accessWord 20 (off - 0x3000)
    else if 0x10000 ≤ off ∧ off < 0x12000 then (aget ((off - 0x10000) / 8) s.endpoints).getD 0#64
    else 0#64
  | _ => 0#64

end Sys2Proof.Machine
end

