-- ==== Sys2Proof/Machine/Cache.lean ====
section
/-! DEFINITION. The L1 data caches (R264, R265), the ordering actions of R124 on them, and the signatures
of claves (R272 to R274). -/

namespace Sys2Proof.Machine

/-- The line with a number in a core's L1. -/
def Core.line? (k : Core) (n : Nat) : Option Line := k.l1.find? fun l => l.n == n

/-- Put a line into a core's L1, in the place of the line with its number if there is one. -/
def Core.putLine (k : Core) (l : Line) : Core :=
  if k.l1.any (fun x => x.n == l.n) then { k with l1 := k.l1.map fun x => if x.n == l.n then l else x }
  else { k with l1 := k.l1 ++ [l] }

/-- Bits of a sector of a dirty mask. -/
def sectorMask (dirty : BitVec 128) (k : Nat) : BitVec 32 := dirty.extractLsb' (32 * k) 32

/-- The i-th sector is marked. -/
def marked (l : List Bool) (i : Nat) : Bool := (l.drop i).headD false

/-- The bytes that a write-back leaves at the home: dirty bytes of the line, the rest as memory holds it. -/
def mergeDirty (dirty : BitVec 128) (data old : List Byte) : List Byte :=
  ((List.range 128).zip (data.zip old)).map fun p => if dirty.getLsbD p.1 then p.2.1 else p.2.2

/-- A line of a core's L1 holds no dirty bytes any more. -/
def State.cleanLine (s : State) (c n : Nat) : State :=
  s.modCore c fun k => match k.line? n with
    | some x => k.putLine { x with dirty := 0#128, whole := [false, false, false, false] }
    | none => k

/-- Dirty bytes of a line reach its home, where a sector that one instruction wrote whole loses its poison (R124, R125,
R264), or at the proxy of a peer page obtain its grant (R374). -/
def State.putBack (s : State) (l : Line) : State :=
  let a := 128 * l.n
  if s.heldByPeer a then
    (((List.range 128).zip l.data).filter fun p => l.dirty.getLsbD p.1).foldl (fun s p =>
      s.holdWrite (a / 65536) (a + p.1) [p.2]) s
  else
  let clear := (List.range 4).filter fun k => marked l.whole k && sectorMask l.dirty k != 0#32
  let old := cellReadN s.mem a 128
  let new := mergeDirty l.dirty l.data old
  let s := (s.takeGrant a true).noteWrite a 128
  let s := { s with
    mem := cellWriteN s.mem a new
    pois := s.pois.filter fun p => !(clear.any fun k => p == 4 * l.n + k) }
  if old ≠ new then s.lineChimes [a] else s

/-- Write a line's dirty bytes back to its home (R124, R264), for the master whose store made them dirty; a target that
does not grant it the write drops them (R310, R311, assumption 39). -/
def State.writeBackLine (s : State) (c : Nat) (l : Line) : State :=
  if l.dirty = 0#128 then s
  else if s.granted l.master (128 * l.n) .write then (s.putBack l).cleanLine c l.n
  else (s.refuse l.master (128 * l.n) .write (some c)).cleanLine c l.n

/-- Write back the dirty bytes of the lines of a core's L1 that satisfy a condition. -/
def State.writeBackWhere (s : State) (c : Nat) (p : Line → Bool) : State :=
  ((s.core c).l1.filter p).foldl (fun s l => s.writeBackLine c l) s

/-- Write back every dirty byte of a core's L1. -/
def State.writeBackAll (s : State) (c : Nat) : State := s.writeBackWhere c fun _ => true

/-- Invalidate the lines of a core's L1 that satisfy a condition; no update waits for a line that is gone
(R265). -/
def State.dropWhere (s : State) (c : Nat) (p : Line → Bool) : State :=
  s.modCore c fun k =>
    let gone := fun a => k.l1.any fun l => l.n == lineNo a && p l
    { k with
      l1 := k.l1.filter fun l => !p l
      updates := k.updates.filter fun u => !gone u.pa
      sent := k.sent.filter fun w => !(w.home && gone w.pa) }

/-- Write back, then invalidate. -/
def State.flushWhere (s : State) (c : Nat) (p : Line → Bool) : State :=
  (s.writeBackWhere c p).dropWhere c p

/-- The lines of a core's L1 in the set of a line: 96 sets of 8 ways hold 768 lines (R1, R3). -/
def Core.setOf (k : Core) (n : Nat) : List Line := k.l1.filter fun l => Config.l1Set l.n % 96 == Config.l1Set n % 96

/-- A line of a core's L1, allocated if it is absent: with its 8 ways in use, one that the hardware picks leaves
first (R3, R264, assumption 5). -/
def State.allocLine (s : State) (c a : Nat) (asn : BitVec 16) (vpn : BitVec 41) (size : Nat) : State :=
  let n := lineNo a
  if ((s.core c).line? n).isSome then s
  else
    let set := (s.core c).setOf n
    let s :=
      if set.length < 8 then s
      else
        let (v, s) := s.draw
        match (set.drop (v % set.length)).head? with
        | some x => s.flushWhere c fun l => l.n == x.n
        | none => s
    s.modCore c fun k => k.putLine
      { n := n, h := s.regionH a, stamp := s.stampNow, asn := asn, vpn := vpn, size := size }

/-- Bytes of a line with a core's own writes that are on their way to it (R265, R283). -/
def overSent (n : Nat) (sent : List Sent) (data : List Byte) : List Byte :=
  (sent.filter fun w => lineNo w.pa == n).foldl (fun d w => setManyAt (w.pa % 128) w.bytes d) data

/-- Fill the missing sectors of a held line from its home; dirty bytes, and bytes that the core has written to an H line,
stay (R264, R265, R283, assumption 6). -/
def State.fillLine (s : State) (c a : Nat) : State :=
  let n := lineNo a
  match (s.core c).line? n with
  | none => s
  | some l =>
    let home := overSent n (s.core c).sent (cellReadN s.mem (128 * n) 128)
    let data := ((List.range 128).zip (l.data.zip home)).map fun p =>
      if marked l.valid (p.1 / 32) || l.dirty.getLsbD p.1 then p.2.1 else p.2.2
    let pois := (List.range 4).map fun k =>
      if marked l.valid k || marked l.whole k then marked l.pois k else s.pois.any fun p => p == 4 * n + k
    s.modCore c fun k => k.putLine { l with data := data, valid := [true, true, true, true], pois := pois }

/-- A load of bytes of one sector hits in a core's L1 (R264). -/
def State.l1Hit (s : State) (c a : Nat) : Bool :=
  match (s.core c).line? (lineNo a) with
  | some l => marked l.valid (a % 128 / 32)
  | none => false

/-- The bytes of a load that performs in a core's L1, filling the line where it misses, and whether they
come from a poisoned sector (R124, R125). The bytes lie in one sector. -/
def State.l1Load (s : State) (c pa n : Nat) (asn : BitVec 16) (vpn : BitVec 41) (size : Nat) : List Byte × Bool × State :=
  let a := s.homeAddr pa
  let s := s.allocLine c a asn vpn size
  let s := if s.l1Hit c a then s else s.fillLine c a
  match (s.core c).line? (lineNo a) with
  | some l => ((l.data.drop (a % 128)).take n, marked l.pois (a % 128 / 32), s)
  | none => (s.homeRead pa n, s.homePois pa n, s)

/-- The dirty mask of n bytes from an offset. -/
def byteMask (off n : Nat) : BitVec 128 := BitVec.ofNat 128 ((2 ^ n - 1) * 2 ^ off)

/-- A plain store to a line of an S region: into the core's L1, with dirty bits (R124). -/
def State.l1Store (s : State) (c pa : Nat) (bytes : List Byte) (asn : BitVec 16) (vpn : BitVec 41) (size : Nat) :
    State :=
  let a := s.homeAddr pa
  let s := s.allocLine c a asn vpn size
  s.modCore c fun k => match k.line? (lineNo a) with
    | some l => k.putLine { l with
        data := setManyAt (a % 128) bytes l.data
        dirty := l.dirty ||| byteMask (a % 128) bytes.length
        master := s.t.master }
    | none => k

/-- Write the bytes of a write-through store into a present copy; they are not dirty after it (R124). -/
def State.l1Through (s : State) (c pa : Nat) (bytes : List Byte) : State :=
  let a := s.homeAddr pa
  s.modCore c fun k => match k.line? (lineNo a) with
    | some l => k.putLine { l with
        data := setManyAt (a % 128) bytes l.data
        dirty := l.dirty &&& ~~~(byteMask (a % 128) bytes.length) }
    | none => k

/-- The first write of a core to a line that is on its way performs at the home, in the order of arrival there (R265): a
target that does not grant it drops it (R311). A core that is a sharer is told of it in its turn. -/
def State.arriveWrite (s : State) (c n : Nat) : State :=
  let p := fun (w : Sent) => !w.home && lineNo w.pa == n
  match (s.core c).sent.find? p with
  | none => s
  | some w =>
    let ok := s.granted w.master w.pa .write
    let told := ok && (s.core c).shares n
    let i := (s.core c).sent.findIdx p
    let s := s.modCore c fun k => { k with sent := if told then setAt i { w with home := true } k.sent else k.sent.eraseIdx i }
    if !ok then s.refuse w.master w.pa .write (some c)
    else
      let s := s.homeWrite (some c) w.pa w.bytes
      if told then s.modCore c fun k =>
        { k with updates := k.updates ++ [{ pa := w.pa, bytes := w.bytes, writer := some c, pois := s.linePois n }] }
      else s

/-- The writes of a core to one line reach the home. -/
def State.sendLine (s : State) (c n : Nat) : State :=
  ((s.core c).sent.filter fun w => !w.home && lineNo w.pa == n).foldl (fun s _ => s.arriveWrite c n) s

/-- The updates of one home slice that wait for a core are applied, in their order (R265). -/
def State.drainAt (s : State) (c a : Nat) : State :=
  let here := fun (u : Update) => s.sliceOf u.pa == s.sliceOf a
  s.modCore c fun k =>
    { (k.updates.filter here).foldl (fun k u => k.apply c u) k with updates := k.updates.filter fun u => !here u }

/-- A core turns to the home of a line for an atomic action (R131, R265): its copy of a software-managed line goes first;
its own writes to a coherent line perform before, and what the home has sent it arrives before the answer. -/
def State.atHome (s : State) (c a : Nat) : State :=
  if s.regionH a then (s.sendLine c (lineNo a)).drainAt c a else s.flushWhere c fun l => l.n == lineNo a

/-- The write of a core's atomic action at the home, which reaches the core's own copy with the answer (R131, R265). -/
def State.atomicWrite (s : State) (c pa : Nat) (bytes : List Byte) : State :=
  (s.l1Through c pa bytes).homeWrite (some c) pa bytes

/-- Every write of a core on its way reaches its home. -/
def State.sendWrites (s : State) (c : Nat) : State :=
  ((s.core c).sent.filter fun w => !w.home).foldl (fun s w => s.arriveWrite c (lineNo w.pa)) s

/-- Every write on its way anywhere reaches its home, and every sharer acknowledges it (R269). -/
def State.settleAll (s : State) : State := (s.cores.foldl (fun s c => s.sendWrites c.1) s).drainAll

/-- A home slice drops a sharer record for capacity: it invalidates the line in every L1 that the record names (R266). -/
def State.dropSharers (s : State) (n : Nat) : State :=
  s.cores.foldl (fun s c => s.dropWhere c.1 fun l => l.h && l.n == n) s

/-- A sector that the L1's own storage had lost has been written whole by one instruction (R125, R354). -/
def Line.mended (l : Line) (k : Nat) : Line :=
  if (l.struck.drop k).headD false then { l with struck := setAt k false l.struck, pois := setAt k false l.pois } else l

/-- Mark a sector that one instruction has written whole (R125): a held software-managed line's; a coherent one's at its
home, once the bytes are there, and in the core's own copy after all that the home has sent before. -/
def State.wholeSector (s : State) (c a : Nat) : State :=
  match (s.core c).line? (lineNo a) with
  | some l =>
    if l.h then
      (((s.sendLine c (lineNo a)).healSector (a / 32)).drainAt c a).modCore c fun q => match q.line? (lineNo a) with
        | some x => q.putLine (x.mended (a % 128 / 32))
        | none => q
    else s.modCore c fun q => q.putLine
      { l with whole := setAt (a % 128 / 32) true l.whole, pois := setAt (a % 128 / 32) false l.pois }
  | none => (s.sendLine c (lineNo a)).healSector (a / 32)

/-- A sector that one instruction has written whole, and whose bytes later stores have all written through since, is
poisoned no longer (R125). -/
def State.settleWhole (s : State) (c a : Nat) : State :=
  match (s.core c).line? (lineNo a) with
  | some l =>
    if marked l.whole (a % 128 / 32) && sectorMask l.dirty (a % 128 / 32) == 0#32 then
      (s.healSector (a / 32)).modCore c fun q => q.putLine { l with whole := setAt (a % 128 / 32) false l.whole }
    else s
  | none => s

/-- The software-managed column of an acquire wider than core scope (R124): write back and invalidate. -/
def State.sweepAll (s : State) (c : Nat) : State := (s.writeBackAll c).dropWhere c fun l => !l.h

/-- The acquire action of R124, with the acquire mark of R273. At a scope wider than core it takes effect after what the
homes have sent the core, so that an update which happens before it is never missed (R265, R283, assumption 63). -/
def State.acquire (s : State) (c : Nat) (sc : Scope) : State :=
  let s := s.markAcquire c
  if sc = .core then s else (s.drain c).sweepAll c

/-- The release action of R124: write back, and wait for the acknowledgements of earlier coherent stores. -/
def State.release (s : State) (c : Nat) (sc : Scope) : State :=
  if sc = .core then s else ((s.writeBackAll c).sendWrites c).acked (some c)

/-- A rotation right within 9 bits (R272). -/
def rotR9 (x k : Nat) : Nat := (x / 2 ^ (k % 9) ||| x * 2 ^ (9 - k % 9)) % 512

/-- The line number of R272; for a peer window it is PA[39:7] (R377). -/
def State.sigLine (s : State) (pa : Nat) : Nat :=
  match s.place pa with
  | .peer _ da => da / 128
  | .device da => da / 128
  | _ => pa / 128

/-- Hash(i, n) (R272). -/
def sigHash (i n : Nat) : Nat :=
  (List.range 5).foldl (fun h c => h ^^^ rotR9 (n / 2 ^ (9 * c) % 512) (c * i)) 0

/-- The three bits of a line (R272). -/
def sigBits (n : Nat) : BitVec 512 :=
  BitVec.ofNat 512 (2 ^ sigHash 0 n) ||| BitVec.ofNat 512 (2 ^ sigHash 1 n) ||| BitVec.ofNat 512 (2 ^ sigHash 2 n)

/-- A line hits a filter (R272). -/
def sigHit (f : BitVec 512) (n : Nat) : Bool := f &&& sigBits n == sigBits n

/-- The number of bits set. -/
def popBits (v : Nat) : Nat → Nat
  | 0 => 0
  | k + 1 => v % 2 + popBits (v / 2) k

/-- Older(x, h) at the current time (R274). -/
def State.older (s : State) (l : Line) (h : Nat) : Bool :=
  let now := s.stime.toNat
  let d : Int := (now / 4096 : Nat) - (h / 4096 : Nat)
  if d ≥ 32768 then false
  else decide (d ≤ ((s.stampNow - l.stamp).toNat : Int))

/-- The horizon against which a sweep tests, 512 ns earlier on a member of a pod (R378). -/
def sweepHorizon (h : Nat) : Nat := if Config.podMember then h - 512 else h

/-- The lines of a core's L1 with dirty bytes, as a signature: Sig(X) of R275. -/
def State.dirtySig (s : State) (c : Nat) : BitVec 512 :=
  ((s.core c).l1.filter fun l => l.dirty ≠ 0#128).foldl (fun f l => f ||| sigBits (s.sigLine (128 * l.n))) 0#512

/-- Add a line to the current thread's write filter (R273). -/
def State.addFilter (s : State) (pa : Nat) : State :=
  s.modT fun t => { t with wfilter := t.wfilter ||| sigBits (s.sigLine pa) }

end Sys2Proof.Machine
end

