-- ==== Sys2Proof/Machine/Walk.lean ====
section
/-! DEFINITION. The page table, its walk and the TLBs (R288 to R296). -/

namespace Sys2Proof.Machine

/-- PtHash's fold of a key into b bits (R292); 64 turns are more than any key has. -/
def foldBits (b k : Nat) : Nat → Nat
  | 0 => 0
  | n + 1 => (k % 2 ^ b) ^^^ foldBits b (k / 2 ^ b) n

/-- The shift of a page size: 16, 21 or 30. -/
def pageShift (sz : Nat) : Nat := if sz = 0 then 16 else if sz = 1 then 21 else 30

/-- The virtual page number of a size: va[56:shift]. -/
def pageOf (va : DWord) (sz : Nat) : Nat := va.toNat % 2 ^ 57 / 2 ^ pageShift sz

/-- PtHash (R292). -/
def ptHash (b : Nat) (asn : BitVec 16) (va : DWord) (sz : Nat) : Nat :=
  foldBits b (pageOf va sz ^^^ (asn.toNat * 2 ^ 25) ^^^ (sz * 2 ^ 23)) 64

/-- LOGB of `ptb` (R289). -/
def State.logB (s : State) : Nat := bits s.ptb 4 0
/-- The physical base of the page table; bits below its alignment are ignored (R289). -/
def State.ptBase (s : State) : Nat :=
  let size := 2 ^ (s.logB + 7)
  bits s.ptb 51 17 * 131072 / size * size

/-- A page-table entry: its two words (R291). -/
structure Pte where
  w0 : DWord
  w1 : DWord
  deriving DecidableEq, Repr

/-- The eight entries of a bucket (R291): the bytes that its sectors hold, poisoned or not (assumption 69). -/
def State.bucket (s : State) (h : Nat) : List Pte :=
  (List.range 8).map fun i =>
    let a := s.ptBase + 128 * h + 16 * i
    { w0 := s.memDword a, w1 := s.memDword (a + 8) }

/-- An entry matches an access at a size (R293). -/
def Pte.matches (e : Pte) (asn : BitVec 16) (va : DWord) (sz : Nat) : Bool :=
  dbit e.w1 0 && bits e.w0 15 0 == asn.toNat && bits e.w1 15 14 == sz &&
    bits e.w0 56 16 * 65536 / 2 ^ pageShift sz == pageOf va sz

/-- An empty entry (R291). -/
def Pte.empty (e : Pte) : Bool := !dbit e.w1 0 && !dbit e.w1 1

/-- The address of an address space's entry (R290). -/
def State.asEntryPa (s : State) (asn : BitVec 16) : Nat := bits s.asb 51 19 * 524288 + 8 * asn.toNat

/-- The walker, an uncore agent, is granted its reads of the two tables, which lie in memory (R308, R310, R368). -/
def State.walkerReads (s : State) (pa : Nat) : Bool := s.agentGranted 0 pa .read

/-- What the walker's reads come to (R293). -/
inductive Walk where
  /-- The matching entry and its size. -/
  | found (e : Pte) (sz : Nat)
  | nothing
  /-- A read that the walker's target refuses (R311). -/
  | refused (pa : Nat)
  /-- A read of a page that a peer holds (R375). -/
  | held (page : Nat)
  deriving DecidableEq, Repr

/-- The walk goes on with the next size where this one has found nothing. -/
def Walk.orElse (w next : Walk) : Walk :=
  match w with
  | .nothing => next
  | w => w

/-- The probe of one size, over the buckets that are left (R293): each bucket is read under the walker's ID, from a page
that no peer holds (R308, R375). -/
def State.probe (s : State) (asn : BitVec 16) (va : DWord) (sz h : Nat) : Nat → Walk
  | 0 => .nothing
  | n + 1 =>
    let a := s.ptBase + 128 * (h % 2 ^ s.logB)
    if !s.walkerReads a then .refused a
    else if s.heldByPeer (s.homeAddr a) then .held (s.homeAddr a / 65536)
    else
      let b := s.bucket (h % 2 ^ s.logB)
      match b.find? fun e => e.matches asn va sz with
      | some e => .found e sz
      | none => if b.any Pte.empty then .nothing else s.probe asn va sz (h + 1) n

/-- The probe of one size, where the address space's entry enables it (R290, R293). -/
def State.probeSize (s : State) (asn : BitVec 16) (va : DWord) (entry : DWord) (sz : Nat) : Walk :=
  if dbit s.asb 0 && dbit entry sz then s.probe asn va sz (ptHash s.logB asn va sz) (bits s.ptb 10 8 + 1) else .nothing

/-- Walk(n, va): the match of the smallest enabled size (R293), with its size, from the address space's entry. A size of
which a read is refused finds nothing, and no larger one is taken for it (R311, assumption 39). -/
def State.walkTable (s : State) (asn : BitVec 16) (va : DWord) (entry : DWord) : Walk :=
  (s.probeSize asn va entry 0).orElse ((s.probeSize asn va entry 1).orElse (s.probeSize asn va entry 2))

/-- The reads of a walk that the walker's target refuses: one at most of each size, since the sizes are probed in parallel
(R293, R311). -/
def State.walkRefusals (s : State) (asn : BitVec 16) (va : DWord) (entry : DWord) : List Nat :=
  [0, 1, 2].filterMap fun sz => match s.probeSize asn va entry sz with
    | .refused pa => some pa
    | _ => none

/-- The grants of the three classes of masters of an address space at a physical address (R311). No target answers for a
hole: the walk accepts its address, and every access through it is refused (R367). -/
def State.grantsAt (s : State) (asn : BitVec 16) (pa : Nat) : List (Bool × Bool × Bool) :=
  [0, 1, 2].map fun c =>
    let m := masterId c asn.toNat
    let hole := s.place pa == .hole
    (hole || s.granted m pa .read, hole || s.granted m pa .write, hole || s.granted m pa .atomic)

/-- The translation that an entry gives for an address. A 1 GiB page whose units differ in their grants
gives the 2 MiB unit alone (R295). -/
def State.toTlb (s : State) (asn : BitVec 16) (va : DWord) (e : Pte) (sz : Nat) : Tlb :=
  let base := bits e.w1 51 16 * 65536 / 2 ^ pageShift sz * 2 ^ pageShift sz
  let here := base + va.toNat % 2 ^ pageShift sz
  let g := s.grantsAt asn here
  let uniform := sz ≠ 2 || (List.range 512).all fun i => s.grantsAt asn (base + i * 2097152) == g
  let sz' := if uniform then sz else 1
  let lo := here / 2 ^ pageShift sz' * 2 ^ pageShift sz'
  { asn := asn, vpn := BitVec.ofNat 41 (pageOf va sz' * 2 ^ (pageShift sz' - 16)), size := sz', page := sz, ppn := lo / 65536,
    r := dbit e.w1 3, w := dbit e.w1 4, x := dbit e.w1 5, sup := dbit e.w1 6, grants := g }

/-- What a translation comes to (R299). -/
inductive Xl where
  | miss | bad | mig
  /-- The page table's page is one that a peer holds (R375). -/
  | held (page : Nat)
  | hit (e : Tlb)
  deriving DecidableEq, Repr

/-- A TLB entry translates an address. -/
def Tlb.covers (e : Tlb) (asn : BitVec 16) (va : DWord) : Bool :=
  e.asn == asn && e.vpn.toNat / 2 ^ (pageShift e.size - 16) == pageOf va e.size

/-- The page of which the entry is the whole or a unit contains an address of its address space (R298). -/
def Tlb.within (e : Tlb) (asn : BitVec 16) (va : DWord) : Bool :=
  e.asn == asn && e.vpn.toNat / 2 ^ (pageShift e.page - 16) == pageOf va e.page

/-- The physical address that a translation gives. -/
def Tlb.pa (e : Tlb) (va : DWord) : Nat := e.ppn * 65536 + va.toNat % 2 ^ pageShift e.size

/-- A list without its element of a number, counted cyclically. -/
def dropNth {α : Type} (l : List α) (i : Nat) : List α := l.eraseIdx (i % l.length)

/-- The set of a cluster's second-level TLB in which a translation lies: 512 sets of 8 ways hold 4,096 (R295). -/
def Tlb.set (e : Tlb) : Nat := Config.tlbSet (e.asn.toNat * 2 ^ 48 + e.vpn.toNat * 4 + e.size) % 512

/-- Keep a translation in a cluster; with the 8 ways of its set in use, one that the hardware picks leaves (R295,
assumption 5). -/
def State.keepTlb (s : State) (cl : Nat) (e : Tlb) : State :=
  let set := (s.cluster cl).tlb.filter fun x => x.set == e.set
  if set.length < 8 then s.modCluster cl fun k => { k with tlb := e :: k.tlb }
  else
    let (v, s) := s.draw
    let out := (set.drop (v % set.length)).head?
    s.modCluster cl fun k => { k with tlb := e :: k.tlb.filter fun x => some x != out }

/-- A refused read of the walker, counted and reported (R308, R311). -/
def State.walkerRefused (s : State) (pa : Nat) : State := s.refuse (masterId 5 0) pa .read none

/-- The entry of an address space, which the cluster's second-level TLB caches (R290, R295): with 4,096 held, one that
the hardware picks leaves (assumption 5). A refused read gives an entry that maps nothing (assumption 39); one of a page
that a peer holds gives none yet (R375). -/
def State.asEntry (s : State) (cl : Nat) (asn : BitVec 16) : DWord × State :=
  match aget asn.toNat (s.cluster cl).asEntries with
  | some e => (e, s)
  | none =>
    if !dbit s.asb 0 ∨ s.heldByPeer (s.homeAddr (s.asEntryPa asn)) then (0#64, s)
    else if !s.walkerReads (s.asEntryPa asn) then (0#64, s.walkerRefused (s.asEntryPa asn))
    else
      let e := s.memDword (s.asEntryPa asn)
      let held := (s.cluster cl).asEntries
      if held.length < 4096 then (e, s.modCluster cl fun k => { k with asEntries := aset asn.toNat e k.asEntries })
      else
        let (v, s) := s.draw
        (e, s.modCluster cl fun k => { k with asEntries := aset asn.toNat e (dropNth k.asEntries v) })

/-- The page of an address space's entry, where the walker must read it and a peer holds it (R375). -/
def State.heldEntry (s : State) (asn : BitVec 16) : Option Nat :=
  let a := s.homeAddr (s.asEntryPa asn)
  if dbit s.asb 0 && s.heldByPeer a then some (a / 65536) else none

/-- What a walk from an address space's entry comes to (R293, R299). -/
def State.walkFrom (s : State) (asn : BitVec 16) (va : DWord) (entry : DWord) : Xl :=
  match s.walkTable asn va entry with
  | .nothing | .refused _ => .miss
  | .held page => .held page
  | .found e sz => if dbit e.w1 8 then .bad else if dbit e.w1 7 then .mig else .hit (s.toTlb asn va e sz)

/-- The entry of an address space as the walker reads it, uncached. -/
def State.entryOf (s : State) (asn : BitVec 16) : DWord :=
  if s.walkerReads (s.asEntryPa asn) then s.memDword (s.asEntryPa asn) else 0#64

/-- A walk, uncached (R293, R299). -/
def State.walkXl (s : State) (asn : BitVec 16) (va : DWord) : Xl :=
  match s.heldEntry asn with
  | some page => .held page
  | none => s.walkFrom asn va (s.entryOf asn)

/-- The refused reads of buckets in a walk are counted and reported (R311); a walk that waits for a page is made again. -/
def State.noteWalk (s : State) (asn : BitVec 16) (va : DWord) (entry : DWord) : State :=
  match s.walkTable asn va entry with
  | .held _ => s
  | _ => (s.walkRefusals asn va entry).foldl State.walkerRefused s

/-- The refused reads of an uncached walk are counted and reported (R311). -/
def State.noteXl (s : State) (asn : BitVec 16) (va : DWord) : State :=
  if !canonical va || (s.heldEntry asn).isSome then s
  else if dbit s.asb 0 && !s.walkerReads (s.asEntryPa asn) then s.walkerRefused (s.asEntryPa asn)
  else s.noteWalk asn va (s.entryOf asn)

/-- A walk of a cluster's, whose result its second-level TLB keeps (R295, R311). -/
def State.walkIn (s : State) (cl : Nat) (asn : BitVec 16) (va : DWord) : Xl × State :=
  if (aget asn.toNat (s.cluster cl).asEntries).isNone && (s.heldEntry asn).isSome then
    (.held ((s.heldEntry asn).getD 0), s)
  else
    let (entry, s) := s.asEntry cl asn
    let noted := s.noteWalk asn va entry
    match s.walkFrom asn va entry with
    | .hit e => (.hit e, noted.keepTlb cl e)
    | x => (x, noted)

/-- A translation from a cluster's second-level TLB, else by a walk (R295). -/
def State.lookup (s : State) (cl : Nat) (asn : BitVec 16) (va : DWord) : Xl × State :=
  match (s.cluster cl).tlb.find? fun e => e.covers asn va with
  | some e => (.hit e, s)
  | none => s.walkIn cl asn va

/-- A full L1 TLB gives up the translation that the hardware picks (R295, assumption 5). -/
def State.l1TlbRoom (s : State) (n : Nat) (l : List Tlb) : List Tlb × State :=
  if l.length < n then (l, s) else ((dropNth l s.draw.1), s.draw.2)

/-- A translation for a thread of a core: from the core's L1 TLB for instructions or for data, else from its cluster
(R295). -/
def State.lookupCore (s : State) (c : Nat) (fetch : Bool) (asn : BitVec 16) (va : DWord) : Xl × State :=
  let k := s.core c
  match (if fetch then k.itlb else k.dtlb).find? fun e => e.covers asn va with
  | some e => (.hit e, s)
  | none => match s.lookup (clusterOf c) asn va with
    | (.hit e, s) =>
      if fetch then
        let (l, s) := s.l1TlbRoom 32 (s.core c).itlb
        (.hit e, s.modCore c fun k => { k with itlb := e :: l })
      else
        let (l, s) := s.l1TlbRoom 64 (s.core c).dtlb
        (.hit e, s.modCore c fun k => { k with dtlb := e :: l })
    | x => x

/-- The size of the page through which a core has just translated an address for data or for a fetch (R298); 0 for a boot
thread's, which no page maps. -/
def State.pageSize (s : State) (c : Nat) (fetch : Bool) (asn : BitVec 16) (va : DWord) : Nat :=
  (((if fetch then (s.core c).itlb else (s.core c).dtlb).find? fun e => e.covers asn va).map (·.page)).getD 0

/-- What the page permits an access (R296). -/
def Tlb.permits (e : Tlb) (mode : Bool) (k : AccKind) : Bool :=
  (mode || !e.sup) && match k with
    | .read | .syncRead => e.r
    | .write => e.w
    | .fetch => e.x
    | .atomic => e.r && e.w

/-- What the kept grants allow a master of class c (R296, R310). -/
def Tlb.grantsTo (e : Tlb) (c : Nat) (k : AccKind) : Bool :=
  match (e.grants.drop c).head? with
  | some (r, w, a) => match k with
    | .read | .fetch => r
    | .write => w
    | .atomic | .syncRead => a
  | none => false

/-- The translation of an uncore agent's access to memory, which no TLB keeps: the address, where the page and the
target's table allow it (R288, R308, R368). -/
def State.uncorePa (s : State) (agent : Nat) (asn : BitVec 16) (va : DWord) (k : AccKind) : Option Nat :=
  if !canonical va then none
  else match s.walkXl asn va with
    | .hit e =>
      let pa := e.pa va
      if e.permits true k && (s.place pa).isMemory && s.granted (masterId 5 agent) pa k then some pa else none
    | _ => none

/-- The page for which an uncore agent's access must wait, since a peer holds it: one of the tables', or its own (R375). -/
def State.uncoreHeld (s : State) (asn : BitVec 16) (va : DWord) : Option Nat :=
  if !canonical va then none
  else match s.walkXl asn va with
    | .held page => some page
    | .hit e => let a := s.homeAddr (e.pa va); if s.heldByPeer a then some (a / 65536) else none
    | _ => none

/-- A page of the tables at which a walk waits, since a peer holds it (R375). -/
def State.walkHeld (s : State) (asn : BitVec 16) (va : DWord) : Option Nat :=
  if !canonical va then none
  else match s.walkXl asn va with
    | .held page => some page
    | _ => none

/-- An uncore agent's access, or a read of its walk, that its target refuses is counted and reported (R311). -/
def State.uncoreRefused (s : State) (agent : Nat) (asn : BitVec 16) (va : DWord) (k : AccKind) (core : Option Nat) : State :=
  if !canonical va then s
  else match s.walkXl asn va with
    | .hit e =>
      let pa := e.pa va
      if e.permits true k && !((s.place pa).isMemory && s.granted (masterId 5 agent) pa k) then
        (s.noteXl asn va).refuse (masterId 5 agent) pa k core else s.noteXl asn va
    | _ => s.noteXl asn va

end Sys2Proof.Machine
end

