-- ==== Sys2Proof/Machine/Ops.lean ====
section
/-! DEFINITION. The shared operations of a bundle: how a meaning stops (R12), fault records (R150, R301,
R302), parks (R12, R299), taking an exception (R144 to R147) and the return from one (R140), the deque
(R186, R187), and the accesses of a thread to global memory and the scratchpad (R13, R121 to R126, R203). -/

namespace Sys2Proof.Machine

/-- The result of a part of an instruction: it goes on with a value, or a trap, a park or the like has
ended the bundle (R10, R12). -/
inductive Res (α : Type) where
  | ok (v : α) (s : State)
  | stop (s : State)

/-- Go on with the value, if there is one. -/
def Res.andThen {α β : Type} (r : Res α) (f : α → State → Res β) : Res β :=
  match r with
  | .ok v s => f v s
  | .stop s => .stop s

/-- The state after an instruction that ends with the given effect. -/
def Res.run {α : Type} (r : Res α) (f : α → State → State) : State :=
  match r with
  | .ok v s => f v s
  | .stop s => s

/-- The bundle goes no further (R10). -/
def State.stopped (s : State) : State := { s with fr := { s.fr with stopped := true } }

/-- The next bundle of the current thread, reached by a control transfer (R63). -/
def State.jump (s : State) (target : DWord) : State := s.modT fun t => { t with pc := target, landed := true }

/-- The bundle has no effect and stands to be issued again. -/
def State.again (s : State) : State :=
  let s := (s.modT fun t => { t with pc := s.fr.first, landed := s.fr.landed }).stopped
  { s with fr := { s.fr with again := true } }

/-- The bundle waits where it is; the members of its issue group that come after it wait too, so that their accesses keep
their place in the order (R166, `State.openGroup`). -/
def State.lingers (s : State) : State :=
  let s := s.again
  { s with fr := { s.fr with waits := true } }

/-- An `ldm` or `stm` stands off between two of its elements (R128, assumption 7). -/
def State.standOff (s : State) : State := s.lingers

/-- An access waits where it is, without a park, until what it asks for is done (R205, R375). -/
def State.wait (s : State) (todo : List Instr) : State := ({ s with agenda := s.agenda ++ todo } : State).lingers

/-- A deterministic thread ends its quantum before the operation that it has reached (R336). -/
def State.endQuantum (s : State) : State := (s.modT fun t => { t with qended := true, qop := true }).again

/-- Whether a watch on a line is one that its slice's full table does not take, or that the host bridge cannot hold: it
gets a Chime every 1,024 ns instead, the first of them then (R135, R370). -/
def State.polls (s : State) (key : Key) : Option Nat :=
  match key with
  | .line a | .join a =>
    let host := match s.place a with
      | .host _ => !Config.cxlCache
      | _ => false
    if host || Config.watchFull (s.ticks * 2 ^ 22 + s.t.ckey) then some (s.ticks + 9 * 1024) else none
  | _ => none

/-- Park(reason, key) (R12); parking for any reason but FAULT ends a quantum (R336). -/
def State.park (s : State) (reason : Nat) (key : Key) : State :=
  (s.modT fun t => { t with
    life := .parked, park := some { reason := reason, key := key }, wake := false, pollAt := s.polls key,
    qended := t.qended || (t.det && reason != 6) }).again

/-- The fields of a fault record (R150). -/
structure FaultRec where
  va : DWord
  pc : DWord
  /-- RESUME of a thread's record; JOB and SECT of a kind-5 record (R225). -/
  resume : DWord
  path : DWord
  handle : Word
  tix : Word
  lid : Word
  asn : BitVec 16
  cause : Nat
  kind : Nat
  flags : Nat
  tprog : Nat
  core : Nat

/-- The 64 bytes of a fault record, with its STIME and SEQ (R150). -/
def FaultRec.bytes (r : FaultRec) (stime : DWord) (seq : Nat) : List Byte :=
  leBytes 8 r.va.toNat ++ leBytes 8 r.pc.toNat ++ leBytes 8 r.path.toNat ++ leBytes 8 stime.toNat ++
  leBytes 8 r.resume.toNat ++ leBytes 4 r.handle.toNat ++ leBytes 4 r.tix.toNat ++ leBytes 4 r.lid.toNat ++
  leBytes 2 r.asn.toNat ++ leBytes 1 r.cause ++ leBytes 1 r.kind ++ leBytes 2 r.flags ++
  leBytes 2 r.tprog ++ leBytes 2 r.core ++ leBytes 2 seq

/-- FLAGS (R151). -/
def faultFlags (acc : Nat) (aw pair mode tr : Bool) (lsize : Nat) : Nat :=
  acc * 1024 + (if aw then 512 else 0) + (if pair then 256 else 0) + (if mode then 128 else 0) +
    (if tr then 64 else 0) + lsize

/-- The log2 of an access size. -/
def lsizeOf (n : Nat) : Nat :=
  match n with
  | 1 => 0
  | 2 => 1
  | 4 => 2
  | 8 => 3
  | 16 => 4
  | 32 => 5
  | 64 => 6
  | 128 => 7
  | _ => 0

/-- The record of the bundle in execution (R150, R151). -/
def State.faultRec (s : State) (va : DWord) (cause kind : Nat) (acc : Option (AccKind × Nat)) : FaultRec :=
  let t := s.t
  { va := va, pc := s.fr.first, resume := s.fr.first, path := t.path, handle := t.handle, tix := t.tix, lid := t.lid,
    asn := s.fr.space.getD t.asn, cause := cause, kind := kind, tprog := t.tprog.toNat % 65536, core := t.core,
    flags := match acc with
      | some (k, n) => faultFlags (accCode k) s.fr.aw s.fr.pair t.mode t.tr (lsizeOf n)
      | none => faultFlags 0 s.fr.aw s.fr.pair t.mode t.tr 0 }

/-- The access in execution is one in an address space (R150). -/
def State.inSpace (s : State) (asn : BitVec 16) : State := { s with fr := { s.fr with space := some asn } }

/-- Accesses are ones in the thread's own address space again (R150). -/
def State.ownSpace (s : State) : State := { s with fr := { s.fr with space := none } }

/-- A job in STATE 3 goes on, or is held with its launch (R224, R316). -/
def Job.woken (j : Job) (held : Bool) : Job :=
  { j with state := if held then 5 else 2, held := 2, recPend := false, chimed := false, recorded := none }

/-- What a record that reaches its queue tells the context that it concerns (R147, R302). -/
def Thread.recorded (th : Thread) (kind die : Nat) (i : Word) : Thread :=
  if kind = 1 then { th with recPend := false }
  else { th with frec := th.frec.map fun r =>
    if r.die = die ∧ r.recNo = none ∧ r.kind = kind then { r with recNo := some i } else r }

/-- What a record that reaches its queue tells the job that it concerns (R302, R316). -/
def Job.recordOut (j : Job) (held : Bool) : Job :=
  if j.chimed && j.state == 3 then j.woken held else { j with recPend := false }

/-- A number that no context has: the link of a pending record, or of an arrival at a collective, to a context that the
Gong has taken off the package is the context's key from here on (assumption 28). -/
def noKey : Nat := 2 ^ 22

/-- The record of a job, which its LID, its issuer's HANDLE and its number name wherever a thaw has put it (R150, R225). -/
def PendRec.ofJob (p : PendRec) (j : Job) : Bool :=
  p.job.isSome && field p.bytes 32 4 == j.n.toNat && field p.bytes 40 4 == j.handle.toNat && field p.bytes 48 4 == j.lid.toNat

/-- A record that its die held pending at a freeze reaches its queue: the frozen context or job that it concerns is told
(R147, R302, R316, R348). -/
def Image.recorded (img : Image) (die : Nat) (i : Word) (p : PendRec) : Image :=
  if img.foreign then img
  else { img with
    ctxs := img.ctxs.map fun f =>
      if p.thread.isSome ∧ p.handles.contains f.th.handle then { f with th := f.th.recorded p.kind die i } else f
    jobs := img.jobs.map fun j => if p.ofJob j.2 then (j.1, j.2.recordOut true) else j }

/-- The context that a pending record concerns, if it is still there (R147, R152, R302). -/
def State.recordThread (s : State) (p : PendRec) : Option Thread :=
  (p.thread.bind s.thread?).filter fun th => p.handles.head? == some th.handle

/-- What a record that reaches its queue tells the context or the job it concerns, the frozen ones among them (R147,
R302). -/
def State.recordWritten (s : State) (die : Nat) (i : Word) (p : PendRec) : State :=
  let s : State := match s.recordThread p with
    | some th =>
      if p.kind == 1 && th.wake && th.life == Life.parked then
        s.putThread { th.recorded p.kind die i with wake := false, life := .running, park := none }
      else s.putThread (th.recorded p.kind die i)
    | none => s
  let s : State := match p.job with
    | some (cl, id) =>
      if cl < 512 then s.modCluster cl fun k =>
        { k with jobs := k.jobs.map fun j => if j.id ≠ id || !p.ofJob j then j else j.recordOut (s.held j.lid) }
      else s
    | none => s
  { s with
    images := s.images.map fun x => (x.1, x.2.recorded die i p)
    unplaced := s.unplaced.map fun x => (x.1, x.2.recorded die i p) }

/-- The fault-queue writer writes a record into a die's fault queue and publishes it (R301, R308). -/
def State.writeRecord (s : State) (die : Nat) (p : PendRec) : State :=
  let d := (s.die die).fqd
  let i := (s.die die).fprod
  let bytes := p.bytes.take 62 ++ leBytes 2 (i.toNat % 65536)
  let s := s.uncoreWrite 3 (ringBase d + 128 + 64 * (i.toNat % 2 ^ ringLog d)) bytes
  let s := s.uncoreWrite 3 (ringBase d) (leBytes 4 (i + 1#32).toNat)
  let s := s.modDie die fun k => { k with fprod := i + 1#32 }
  let s := if dbit d 6 then s.signal (.msix (8 + die)) else s
  s.recordWritten die i p

/-- The fault-queue writer's read of CONS, where it is refused, is counted and reported (R308, R311). -/
def State.ringRefused (s : State) (die : Nat) : State :=
  let d := (s.die die).fqd
  if dbit d 5 && !s.agentGranted 3 (ringCons d) .read then s.refuse (masterId 5 3) (ringCons d) .read none else s

/-- A record goes to a die's fault queue, or is held pending while the queue takes none (R301, R302). -/
def State.postRecord (s : State) (die : Nat) (r : FaultRec) (thread : Option Nat) (job : Option (Nat × Nat)) :
    State :=
  let p : PendRec :=
    { stime := s.stime, kind := r.kind, bytes := r.bytes s.stime 0, thread := thread, handles := [r.handle], job := job }
  if (s.die die).pending.isEmpty && s.ringOpen (some 3) (s.die die).fqd (s.die die).fprod then s.writeRecord die p
  else
    let s := (s.ringRefused die).modDie die fun k => { k with pending := k.pending ++ [p] }
    let s := match job with
      | some (cl, id) => s.modCluster cl fun k =>
          { k with jobs := k.jobs.map fun j => if j.id = id then { j with recPend := true } else j }
      | none => s
    match thread.bind s.thread? with
    | some th => if r.kind = 1 then s.putThread { th with recPend := true } else s
    | none => s

/-- Enter a page into a die's outstanding table, which holds 1,024 (R300). -/
def State.outstand (s : State) (die : Nat) (page : BitVec 16 × BitVec 41) : State :=
  s.modDie die fun k =>
    if k.outst.length < 1024 && !k.outst.contains page then { k with outst := k.outst ++ [page] } else k

/-- Park(FAULT, page) on a page of an address space, with a kind-1 record unless the page is outstanding or being
migrated (R299, R300). -/
def State.parkFaultIn (s : State) (asn : BitVec 16) (va : DWord) (acc : AccKind) (n : Nat) (record : Bool) : State :=
  let page := (asn, vpnOf va)
  let die := dieOf s.t.core
  let r : FaultRec := { s.faultRec va 0x0A 1 (some (acc, n)) with asn := asn }
  let s := s.park 6 (.page asn (vpnOf va))
  if record && !(s.die die).outst.contains page then
    (s.outstand die page).postRecord die r (some s.t.ckey) none
  else s

/-- Park(FAULT, page) on a page of the thread's own address space (R299). -/
def State.parkFault (s : State) (va : DWord) (acc : AccKind) (n : Nat) (record : Bool) : State :=
  s.parkFaultIn s.t.asn va acc n record

/-- The cores among which a path chooses for a deterministic thread of a core: those on which its launch was placed, or,
where the launch's threads form groups, those of them in the cluster that holds its group (R194, R195, R330,
assumption 23). -/
def Launch.pathCores (l : Launch) (c : Nat) : List Nat :=
  if l.pkt.cgrp = 0 then l.cores else l.cores.filter fun x => clusterOf x == clusterOf c

/-- The number of a launch's core that a path chooses (R195). -/
def pathCore (cores : List Nat) (path : DWord) : Nat :=
  (cores.drop (bits path 63 32 * cores.length / 2 ^ 32)).headD (cores.headD 0)

/-- The bytes of a deque entry (R185). -/
def Entry.bytes (e : Entry) : List Byte :=
  leBytes 8 e.pc.toNat ++ leBytes 8 e.join.toNat ++ leBytes 8 e.path.toNat ++ leBytes 8 e.cjoin.toNat ++
  leBytes 4 e.sp.toNat ++ leBytes 4 e.fp.toNat ++ leBytes 4 e.tix.toNat ++ leBytes 4 e.lid.toNat ++
  leBytes 4 e.owner.toNat ++ leBytes 4 e.sidx.toNat ++ leBytes 2 e.asn.toNat ++ leBytes 1 e.kind ++
  leBytes 1 ((if e.mode then 1 else 0) + (if e.det then 2 else 0) + (if e.orphan then 4 else 0)) ++
  leBytes 4 0

/-- The records of the overflow area that a core may use (R187, R188). -/
def Core.overflow (k : Core) : Nat := if dbit k.dqa 21 then bits k.dql 16 0 else 0

/-- The virtual address of a record of the overflow area (R187, R188). -/
def Core.slotVa (k : Core) (i : Nat) : DWord := BitVec.ofNat 64 (bits k.dqa 56 22 * 4194304 + 64 * i)

/-- The place of a record of a core's overflow area that an entry can be written to: one of the area's, whose page
translates (R187, R188). -/
def State.overflowPa (s : State) (c i : Nat) : Option Nat :=
  let k := s.core c
  if i < k.overflow then s.uncorePa 2 (k.dqa.extractLsb' 0 16) (k.slotVa i) .write else none

/-- Entries of a deque on chip (R187). -/
def Core.onChip (k : Core) : Nat := (k.deque.filter fun e => e.slot.isNone).length

/-- The lowest free records of the overflow area (R187). -/
def Core.freeSlots (k : Core) (n : Nat) : List Nat :=
  ((List.range (k.deque.length + n)).filter fun i => !(k.deque.any fun e => e.slot == some i)).take n

/-- The deque of a core can take n more entries (R187). -/
def State.dequeRoom (s : State) (c n : Nat) : Bool :=
  let k := s.core c
  (k.freeSlots (k.onChip + n - 64)).all fun i => (s.overflowPa c i).isSome

/-- Give the oldest entry on chip a record of the overflow area. -/
def spillOldest (slot : Nat) : List Entry → List Entry
  | [] => []
  | e :: l => if e.slot.isNone then { e with slot := some slot } :: l else e :: spillOldest slot l

/-- With more than 64 entries on chip, the oldest goes to a free record of the overflow area (R187). -/
def State.settleDeque (s : State) (c : Nat) : State :=
  let k := s.core c
  if k.onChip ≤ 64 then s
  else match k.deque.find? (fun e => e.slot.isNone), (k.freeSlots 1).head? with
    | some old, some i => match s.overflowPa c i with
      | some pa => ((s.takeGrant pa true).homeWrite none pa old.bytes).modCore c fun q =>
          { q with deque := spillOldest i q.deque }
      | none => s
    | _, _ => s

/-- Insert an entry at the newest end (R186). Whoever pushes has found that there is room (`dequeRoom`); no entry is lost
without it. -/
def State.pushEntry (s : State) (c : Nat) (e : Entry) : State :=
  ({ s.modCore c fun k => { k with deque := k.deque ++ [{ e with seq := s.inserted }] } with
    inserted := s.inserted + 1 } : State).settleDeque c

/-- A fault record for the die fault queue leaves the current thread faulted (R146, R147). -/
def State.faultTo (s : State) (r : FaultRec) : State :=
  let die := dieOf s.t.core
  let s := (s.modT fun t => { t with
    life := .faulted, park := none, wake := false, pc := s.fr.first, landed := s.fr.landed, suspAt := s.ticks,
    frec := some { kind := r.kind, die := die, pc := r.pc } }).stopped
  s.postRecord die r (some s.t.ckey) none

/-- EnterFaulted(DOUBLE): a kind-4 record with the second trap; the first one's registers stay (R147). -/
def State.enterFaulted (s : State) (cause : Nat) (val : DWord) (acc : Option (AccKind × Nat)) : State :=
  s.faultTo (s.faultRec val cause 4 acc)

/-- Deliver(cause): enter `tvec` or `svec` with TR set (R145). -/
def State.deliver (s : State) : State :=
  (s.modT fun t =>
    if !t.mode && t.tvec != 0#64 then { (t.setModes true false false) with pc := t.tvec, landed := true }
    else { (t.setModes true t.mode true) with pc := t.svec, landed := true }).stopped

/-- The handler task's entry (R199). -/
def Thread.handlerEntry (t : Thread) (recVa : DWord) : Entry :=
  { kind := 3, pc := t.tvec, join := recVa, path := pathStep t.path (BitVec.ofNat 64 (2 ^ 64 - 1)),
    sp := (t.regs[2]!).val, fp := (t.regs[3]!).val, tix := t.tix, lid := t.lid, owner := t.handle, asn := t.asn,
    det := t.det, orphan := true }

/-- The core to whose deque the handler task of a thread goes (R195, R199). -/
def Thread.handlerCore (t : Thread) (l : Launch) : Nat :=
  if t.det then pathCore (l.pathCores t.core) (pathStep t.path (BitVec.ofNat 64 (2 ^ 64 - 1))) else t.core

/-- The launch's fault area has a free record (R326). -/
def Launch.slotFree (l : Launch) : Bool := l.pkt.farea != 0#64 && decide (l.faults < l.pkt.fanum)

/-- The virtual address of the next record of a launch's fault area (R326). -/
def Launch.slotVa (l : Launch) : DWord := l.pkt.farea + BitVec.ofNat 64 (64 * l.faults)

/-- The page for which the write of a fault-area record must wait, since a peer holds it (R326, R375). -/
def State.slotWaits (s : State) : Option Nat :=
  match s.launch? s.t.lid with
  | some l => if l.slotFree then s.uncoreHeld l.asn l.slotVa else none
  | none => none

/-- The next free record of a launch's fault area: its virtual address, and where its bytes go. None where the area has
no free record, or the write of the record cannot complete, its page being translated as it stands then (R146, R326,
assumption 46). -/
def State.faultSlot (s : State) (l : Launch) : Option (DWord × Nat) :=
  if l.slotFree then (s.uncorePa 3 l.asn l.slotVa .write).map fun pa => (l.slotVa, pa) else none

/-- A class-F fault in user mode with `tvec` ≠ 0 and TR = 0: a kind-2 record and a handler task, or a kind-3
record where the fault area takes none (R146, R326) or the deque has no room for the handler task (assumption 46). -/
def State.taskFault (s : State) (cause : Nat) (val : DWord) (acc : Option (AccKind × Nat)) : State :=
  match s.launch? s.t.lid with
  | none => s.faultTo (s.faultRec val cause 3 acc)
  | some l => match s.faultSlot l with
    | none =>
      let s := if l.slotFree then s.uncoreRefused 3 l.asn l.slotVa .write (some s.t.core) else s
      s.faultTo (s.faultRec val cause 3 acc)
    | some (va, pa) =>
      let t := s.t
      let a := s.homeAddr pa
      if !s.dequeRoom (t.handlerCore l) 1 then s.faultTo (s.faultRec val cause 3 acc)
      else
        let s' := (s.takeGrant pa true).homeWrite none pa ((s.faultRec val cause 2 acc).bytes s.stime 0)
        let s' := s'.modLaunch t.lid fun l => { l with
          faults := l.faults + 1
          since := l.since.filter fun c => !(decide (a ≤ c.1) && decide (c.1 < a + 64)) }
        let s' := (s'.modT fun t => { t with
          life := .faulted, park := none, wake := false, pc := s.fr.first, landed := s.fr.landed, suspAt := s.ticks,
          frec := some { kind := 2, va := va, die := dieOf t.core, pc := s.fr.first } }).stopped
        s'.pushEntry (t.handlerCore l) (t.handlerEntry va)

/-- `tcause` for a cause of the word in execution (R30, R149). -/
def Frame.causeWord (f : Frame) (cause : Nat) : Word :=
  BitVec.ofNat 32 (cause + (if f.pair then 256 else 0) + (if f.aw then 512 else 0))

/-- A cause of class F leaves a thread in user mode with `tvec` ≠ 0 to a handler task (R144, R146). -/
def Thread.leavesTask (t : Thread) (cause : Nat) : Bool :=
  decide (0x0B ≤ cause) && decide (cause ≤ 0x10) && !t.mode && t.tvec != 0#64

/-- The registers of the exception (R30, R145). -/
def State.except (s : State) (cause : Nat) (val : DWord) : State :=
  s.modT fun t => { t with tcause := s.fr.causeWord cause, tepc := s.fr.first, tval := val }

/-- Trap(cause, val) (R12): the registers of the exception, then the path of the cause's class (R144). A fault whose
record is to go into a page that a peer holds waits for the page (R375). -/
def State.raise (s : State) (cause : Nat) (val : DWord) (acc : Option (AccKind × Nat)) : State :=
  if s.t.tr then s.enterFaulted cause val acc
  else if s.t.leavesTask cause then match s.slotWaits with
    | some page => (s.recall page false).wait []
    | none => (s.except cause val).taskFault cause val acc
  else (s.except cause val).deliver

/-- Trap(ILL, the word in execution) (R81). -/
def State.ill (s : State) : State := s.raise 0x01 (s.fr.word.setWidth 64) none
/-- Trap(PRIV, the word in execution) (R144). -/
def State.priv (s : State) : State := s.raise 0x02 (s.fr.word.setWidth 64) none

/-- A target leaves the 4 GiB code window of an address (R67). -/
def outside (window : Option DWord) (target : DWord) : Bool :=
  match window with
  | some a => target.extractLsb' 32 32 != a.extractLsb' 32 32
  | none => false

/-- The target checks of R116: an alignment trap, the code window where it applies, and canonicality. -/
def targetCheck (window : Option DWord) (target : DWord) : Option Nat :=
  if target.extractLsb' 0 2 ≠ 0#2 then some 0x03
  else if outside window target then some 0x04
  else if !canonical target then some 0x04
  else none

/-- The return from a trap handler, its target already checked: TR clears, the mode returns to PMODE, and
control goes to `tepc` (R140). -/
def State.trapReturn (s : State) : State :=
  (s.modT fun t => t.setModes false t.pmode t.pmode).jump s.t.tepc

/-- The bytes of the scratchpad instance that the current thread may address (R202, R360). -/
def State.scratchBytes (s : State) : Nat :=
  if s.t.boot then 65536
  else match s.launch? s.t.lid with
    | some l => l.pkt.scratch
    | none => 0

/-- The translation of an access of the current thread in an address space (R13, R296, R299). -/
def State.translateIn (s : State) (asn : BitVec 16) (va : DWord) (n : Nat) (k : AccKind) : Res Nat :=
  if !canonical va then .stop (s.raise 0x04 va (some (k, n)))
  else match s.lookupCore s.t.core (k == .fetch) asn va with
    | (.miss, s) => .stop (s.parkFaultIn asn va k n true)
    | (.bad, s) => .stop (s.raise 0x0B va (some (k, n)))
    | (.mig, s) => .stop (s.parkFaultIn asn va k n false)
    | (.held page, s) => .stop ((s.recall page true).wait [])
    | (.hit e, s) =>
      if !e.permits s.t.mode k then .stop (s.raise 0x06 va (some (k, n)))
      else if !e.grantsTo (if s.t.mode then 1 else 0) k then .stop (s.raise 0x0F va (some (k, n)))
      else .ok (e.pa va) s

/-- The translation of a thread's access to global memory. -/
def State.translate (s : State) (va : DWord) (n : Nat) (k : AccKind) : Res Nat := s.translateIn s.t.asn va n k

/-- A boot thread's address is the physical address, and no page permission applies (R360); R13's check of its upper
bits does. -/
def State.untranslated (s : State) (va : DWord) (n : Nat) (k : AccKind) : Res Nat :=
  if !canonical va then .stop (s.raise 0x04 va (some (k, n))) else .ok va.toNat s

/-- What a translated access waits for: the drain of a region that is being switched (R122, R269), and a page that a
peer holds (R375). -/
def State.settle (s : State) (pa : Nat) (k : AccKind) : Res Nat :=
  let a := s.homeAddr pa
  if s.regionSwitching a then .stop (s.park 1 (.line (regionEntryAddr (a / 2097152) / 128 * 128)))
  else if s.heldByPeer a then .stop ((s.recall (a / 65536) (!changes k)).wait [])
  else .ok pa s

/-- The address that an access names (R13, R360). -/
def State.address (s : State) (va : DWord) (n : Nat) (k : AccKind) : Res Nat :=
  if s.t.boot then s.untranslated va n k else s.translate va n k

/-- The translation of an access, and what it waits for. -/
def State.xlate (s : State) (va : DWord) (n : Nat) (k : AccKind) : Res Nat :=
  (s.address va n k).andThen fun pa s => s.settle pa k

/-- MemCheck in the global space (R13): alignment, then the translation. -/
def State.memCheck (s : State) (va : DWord) (n : Nat) (k : AccKind) : Res Nat :=
  if va.toNat % n ≠ 0 then .stop (s.raise 0x03 va (some (k, n)))
  else s.xlate va n k

/-- A request that its target refuses, or that a register block does not take: a read returns poison, which
traps (R311, R368). -/
def State.refusedRead (s : State) (pa : Nat) (va : DWord) (n : Nat) (k : AccKind) : State :=
  (s.refuse s.t.master pa k (some s.t.core)).raise 0x0C va (some (k, n))

/-- An access that must perform in ordinary memory: the target grants it, or it is refused (R311, R368). -/
def State.atMemory (s : State) (pa : Nat) (k : AccKind) : Bool :=
  (s.place pa).isMemory && s.granted s.t.master pa k

/-- Overlay a deterministic thread's buffered bytes on bytes read (R126). -/
def overlay (sbuf : List Host.Cell) (key : Nat) : List Byte → List Byte
  | [] => []
  | b :: bs => (aget key sbuf).getD b :: overlay sbuf (key + 1) bs

/-- Every byte of an access is in the store buffer. -/
def buffered (sbuf : List Host.Cell) (key n : Nat) : Bool :=
  (List.range n).all fun i => (aget (key + i) sbuf).isSome

/-- Lines in a store buffer (R336). -/
def sbufLines (sbuf : List Host.Cell) : List Nat := sbuf.foldl (fun l c => sinsert (c.1 / 128) l) []

/-- Bytes buffered by a store. -/
def sbufPut (sbuf : List Host.Cell) (key : Nat) : List Byte → List Host.Cell
  | [] => sbuf
  | b :: bs => sbufPut (aset key b sbuf) (key + 1) bs

/-- The words that a load's bytes give: extended to 32 bits, or one word for each 4 bytes (R121). -/
def loadWords (signed : Bool) (bytes : List Byte) : List Word :=
  match bytes.length with
  | 1 => [if signed then (BitVec.ofNat 8 (leNat bytes)).signExtend 32 else BitVec.ofNat 32 (leNat bytes)]
  | 2 => [if signed then (BitVec.ofNat 16 (leNat bytes)).signExtend 32 else BitVec.ofNat 32 (leNat bytes)]
  | n => (List.range (n / 4)).map fun i => BitVec.ofNat 32 (field bytes (4 * i) 4)

/-- A load that has missed performs at its home (R284): the line is filled as the home then stands, and the registers are
written. A sector that has been poisoned since it issued poisons them (assumption 54). -/
def State.performLoad (s : State) (key i : Nat) : State :=
  match s.thread? key with
  | none => s
  | some th => match th.loads[i]? with
    | none => s
    | some x =>
      let (bytes, pois, s) := (s.takeGrant x.pa false).l1Load th.core x.pa x.n th.asn x.vpn x.size
      let regs := (x.regs.zip (loadWords x.signed bytes)).foldl
        (fun (m : Vector Reg 64) p => if p.1 = 0 then m else m.set! p.1 { val := p.2, pois := pois }) th.regs
      s.putThread { th with loads := th.loads.eraseIdx i, regs := regs }

/-- The loads of a thread that have missed perform, oldest first. -/
def State.performLoads (s : State) (key : Nat) : State :=
  match s.thread? key with
  | some th => th.loads.foldl (fun s _ => s.performLoad key 0) s
  | none => s

/-- The loads that have missed and come before what the current thread now accesses: its own (R123), and those of the
members of its issue group that issued before it in this cycle (R166). -/
def State.priors (s : State) : List (Nat × LateLoad) :=
  s.threads.flatMap fun th => (th.loads.filter fun x =>
    th.ckey == s.t.ckey || (th.core == s.t.core && x.at' == s.ticks)).map fun x => (th.ckey, x)

/-- A load of a thread performs, if it has not yet. -/
def State.performFirst (s : State) (key : Nat) (x : LateLoad) : State :=
  match s.thread? key with
  | some th => s.performLoad key (th.loads.findIdx (· == x))
  | none => s

/-- The loads of a line that come before an access of the current thread to it perform (R123, R166). -/
def State.meetLoads (s : State) (a : Nat) : State :=
  (s.priors.filter fun p => lineNo (s.homeAddr p.2.pa) == lineNo a).foldl (fun s p => s.performFirst p.1 p.2) s

/-- A core's own bytes of a line reach the home before the core reads there, so that a thread never misses its own
earlier store (R123, assumption 22), and what the home has sent the core arrives before the answer (R265, R283). -/
def State.ownHome (s : State) (c pa : Nat) : State :=
  ((s.writeBackWhere c fun l => l.n == lineNo (s.homeAddr pa)).sendLine c (lineNo (s.homeAddr pa))).drainAt c (s.homeAddr pa)

/-- The bytes of memory that a deterministic thread reads: as its launch's latest boundary left them, or, in
an operation that performs at a boundary, as they stand (R287). -/
def State.committed (s : State) (pa n : Nat) : List Byte :=
  let bytes := s.homeRead pa n
  match s.launch? s.t.lid with
  | some l => if s.fr.boundary then bytes else overlay l.since (s.homeAddr pa) bytes
  | none => bytes

/-- A plain store of a deterministic thread goes into its store buffer, with the translation that it holds, unless the
buffer has no line left (R126, R298, R336). -/
def State.bufferStore (s : State) (pa : Nat) (va : DWord) (bytes : List Byte) : Res Unit :=
  let sbuf := sbufPut s.t.sbuf (s.homeAddr pa) bytes
  let held := (vpnOf va, s.pageSize s.t.core false s.t.asn va, false)
  if 24 < (sbufLines sbuf).length then .stop s.endQuantum
  else .ok () (s.modT fun t => { t with sbuf := sbuf, slines := aset (lineNo (s.homeAddr pa)) held t.slines })

/-- MemRead of the global space at a translated address (R13, R124, R125, R368): `home` for an ordered load
wider than core scope, which reads an S line at its home. A target checks what reaches it, which a hit does not (R311). -/
def State.readGlobal (s : State) (pa : Nat) (va : DWord) (n : Nat) (home : Bool) : Res (List Byte) :=
  if (s.place pa).isBlock && n == 8 then
    if s.granted s.t.master pa .read then
      let bytes := leBytes 8 (s.regRead (s.place pa)).toNat
      .ok (if s.t.det then overlay s.t.sbuf pa bytes else bytes) s
    else .stop (s.refusedRead pa va n .read)
  else
    let a := s.homeAddr pa
    let atHome := home && !s.regionH a
    let own := s.t.det && buffered s.t.sbuf a n
    let hit := !atHome && s.l1Hit s.t.core a
    if !(s.place pa).isMemory || !(hit || own || s.granted s.t.master pa .read) then .stop (s.refusedRead pa va n .read)
    else
      let s := if hit then s else s.takeGrant pa false
      let (bytes, pois, s) :=
        if atHome then
          let s := s.ownHome s.t.core pa
          (s.homeRead pa n, s.homePois pa n, s)
        else s.l1Load s.t.core pa n s.t.asn (vpnOf va) (s.pageSize s.t.core false s.t.asn va)
      if pois && !own then .stop (s.raise 0x0C va (some (.read, n)))
      else .ok (if s.t.det then overlay s.t.sbuf a (s.committed pa n) else bytes) s

/-- A load of n bytes of the global space (R13, R121). -/
def State.loadGlobal (s : State) (va : DWord) (n : Nat) (home : Bool) : Res (List Byte) :=
  (s.memCheck va n .read).andThen fun pa s => (s.meetLoads (s.homeAddr pa)).readGlobal pa va n home

/-- A store's bytes reach the core's L1 or set out for the home (R124, R265): a write to an H line goes into the core's
own copy, if it holds one, and on its way to the home; one to an S line into L1, or through to the home. -/
def State.performStore (s : State) (pa : Nat) (va : DWord) (bytes : List Byte) (through : Bool) : State :=
  let c := s.t.core
  let a := s.homeAddr pa
  let s := s.meetLoads a
  if s.regionH a then
    (s.l1Through c pa bytes).modCore c fun k =>
      { k with sent := k.sent ++ [{ pa := a, bytes := bytes, master := s.t.master, asn := s.t.asn, vpn := vpnOf va,
                                    size := s.pageSize c false s.t.asn va }] }
  else
    let s := if through then (((s.takeGrant pa true).l1Through c pa bytes).homeWrite (some c) pa bytes).settleWhole c a
      else s.l1Store c pa bytes s.t.asn (vpnOf va) (s.pageSize c false s.t.asn va)
    s.addFilter pa

/-- MemWrite of the global space at a translated address (R13, R124, R126, R368): `through` for an ordered
store wider than core scope, which alone reaches its target now (R311). -/
def State.writeGlobal (s : State) (pa : Nat) (va : DWord) (bytes : List Byte) (through : Bool) : Res Unit :=
  let refused := Res.ok () (s.refuse s.t.master pa .write (some s.t.core))
  let buffers := s.t.det && !through
  if (s.place pa).isBlock then
    if bytes.length ≠ 8 ∨ !s.granted s.t.master pa .write then refused
    else if buffers then s.bufferStore pa va bytes
    else .ok () { s with
      agenda := s.agenda ++ [.registerWrite (some s.t.master) pa (BitVec.ofNat 64 (leNat bytes))] }
  else if !(s.place pa).isMemory then refused
  else if buffers then s.bufferStore pa va bytes
  else if through && !s.regionH (s.homeAddr pa) && !s.granted s.t.master pa .write then refused
  else .ok () (s.performStore pa va bytes through)

/-- A store of bytes to the global space (R13, R121). -/
def State.storeGlobal (s : State) (va : DWord) (bytes : List Byte) (through : Bool) : Res Unit :=
  (s.memCheck va bytes.length .write).andThen fun pa s => s.writeGlobal pa va bytes through

/-- The interleave address of a scratchpad byte: itself, or the byte that the local view of a core names
(R203). -/
def scratchByte (sp : Space) (size cix a : Nat) : Nat :=
  match sp with
  | .scratchLocal =>
    let share := size / 8
    if share = 0 then a
    else
      let p := (cix + a / share) % 8
      let off := a % share
      off / 8 * 64 + p * 8 + off % 8
  | _ => a

/-- The interleave addresses of the bytes of a scratchpad access. -/
def scratchSpan (sp : Space) (size cix a n : Nat) : List Nat :=
  (List.range n).map fun i => scratchByte sp size cix (a + i)

/-- The sector of an interleave address: 8 × (share offset / 32) + partition (R205). -/
def scratchSector (a : Nat) : Nat := 8 * ((a / 64 * 8 + a % 8) / 32) + a / 8 % 8

/-- A launch's instance in a cluster (R202). -/
def State.inst (s : State) (cl : Nat) (lid : Word) : Inst := (aget lid.toNat (s.cluster cl).insts).getD { size := 0 }
/-- Change a launch's instance in a cluster. -/
def State.modInst (s : State) (cl : Nat) (lid : Word) (f : Inst → Inst) : State :=
  s.modCluster cl fun k => match aget lid.toNat k.insts with
    | some i => { k with insts := aset lid.toNat (f i) k.insts }
    | none => k

/-- Key of a scratchpad byte in a store buffer (assumption 17). -/
def scratchKey (a : Nat) : Nat := 2 ^ 60 + a

/-- The first page of some bytes that has lost its frame (R205). -/
def Inst.lostPage (i : Inst) (as : List Nat) : Option Nat :=
  (as.find? fun a => i.lost.contains (a / 16384)).map fun a => a / 16384

/-- The checks of a scratchpad access (R13): alignment, the instance's bytes, and the wait for a page that
has lost its frame (R205). -/
def State.scratchCheck (s : State) (sp : Space) (a n : Nat) (k : AccKind) : Res (List Nat) :=
  if a % n ≠ 0 then .stop (s.raise 0x03 (BitVec.ofNat 64 a) (some (k, n)))
  else if s.scratchBytes < a + n then .stop (s.raise 0x05 (BitVec.ofNat 64 a) (some (k, n)))
  else
    let as := scratchSpan sp s.scratchBytes (s.t.core % 8) a n
    match (s.inst (clusterOf s.t.core) s.t.lid).lostPage as with
    | some p => .stop (s.wait [.scratchPageRefill (clusterOf s.t.core) s.t.lid p])
    | none => .ok as s

/-- Bytes of an instance. -/
def Inst.read (i : Inst) (as : List Nat) : List Byte := as.map (cellRead i.data)
/-- Write bytes of an instance. -/
def Inst.write (i : Inst) (as : List Nat) (bytes : List Byte) : Inst :=
  { i with
    data := (as.zip bytes).foldl (fun m p => cellWrite m p.1 p.2) i.data
    clean := i.clean.map fun p => (p.1, (as.filter fun a => a / 16384 == p.1).foldl (fun l a => sinsert a l) p.2) }

/-- A load of n bytes of the scratchpad; a poisoned sector traps (R121, R205), unless every byte is the thread's own
buffered one (assumption 62). -/
def State.loadScratch (s : State) (sp : Space) (a n : Nat) : Res (List Byte) :=
  (s.scratchCheck sp a n .read).andThen fun as s =>
    let i := s.inst (clusterOf s.t.core) s.t.lid
    let own := s.t.det && as.all fun a => (aget (scratchKey a) s.t.sbuf).isSome
    if !own && as.any (fun a => i.pois.contains (scratchSector a)) then
      .stop (s.raise 0x0C (BitVec.ofNat 64 a) (some (.read, n)))
    else
      let bytes := i.read as
      .ok (if s.t.det then (as.zip bytes).map fun p => (aget (scratchKey p.1) s.t.sbuf).getD p.2 else bytes) s

/-- A store of bytes to the scratchpad (R121). -/
def State.storeScratch (s : State) (sp : Space) (a : Nat) (bytes : List Byte) : Res Unit :=
  (s.scratchCheck sp a bytes.length .write).andThen fun as s =>
    if s.t.det then
      let sbuf := (as.zip bytes).foldl (fun b p => aset (scratchKey p.1) p.2 b) s.t.sbuf
      if 24 < (sbufLines sbuf).length then .stop s.endQuantum
      else .ok () (s.modT fun t => { t with sbuf := sbuf })
    else .ok () (s.modInst (clusterOf s.t.core) s.t.lid fun i => i.write as bytes)

/-- The address of an operation that performs at a home, in memory that grants the access. -/
def State.homeGranted (s : State) (va : DWord) (n : Nat) (k : AccKind) : Res Nat :=
  (s.memCheck va n k).andThen fun pa s =>
    let s := s.meetLoads (s.homeAddr pa)
    if s.atMemory pa k then .ok pa (s.returnPage pa (!changes k)) else .stop (s.refusedRead pa va n k)

/-- The location that an atomic, a wait or a join reads at its home (R131, R134, R192): its address, in
memory that grants the access. -/
def State.homeCheck (s : State) (va : DWord) (n : Nat) (k : AccKind) : Res Nat :=
  (s.homeGranted va n k).andThen fun pa s => .ok pa (s.ownHome s.t.core pa)

/-- A value read at its home; a poisoned sector traps (R125). -/
def State.readHome (s : State) (pa : Nat) (va : DWord) (n : Nat) (k : AccKind) : Res Nat :=
  if s.homePois pa n then .stop (s.raise 0x0C va (some (k, n)))
  else .ok (leNat (s.homeRead pa n)) s

end Sys2Proof.Machine
end

