-- ==== Sys2Proof/WellFormed.lean ====
section
/-! DEFINITION. What an encoding must satisfy on its own, whatever the thread's state: the register
classes of R68 and the field values of R74, R77, R79, R127 and R129. A word that fails one of these
traps ILL at decode (R81). The shape of an instruction says which registers its operand fields name
and what it does with them; the checks of R81 and R148 that depend on a thread read it too. -/

namespace Sys2Proof

/-- What an operand field names (R68). -/
inductive Opd where
  /-- No operand. -/
  | no
  /-- A g register. -/
  | g (r : RegNo)
  /-- A w pair. -/
  | w (r : RegNo)
  /-- The high half of a w pair, which is all that `lih` writes (R102). -/
  | whi (r : RegNo)
  /-- A quad, four registers (R68). -/
  | quad (r : RegNo)
  /-- The n consecutive registers of an `ldm` or `stm` (R127). -/
  | span (r : RegNo) (n : Nat)
  deriving DecidableEq, Repr

/-- The registers an instruction names: its A, B and C operands, which pop queues in that order (R23);
the destination D; D where it is a source (R93, R121); and registers read or written without a field. -/
structure Shape where
  a : Opd := .no
  b : Opd := .no
  c : Opd := .no
  dst : Opd := .no
  dsrc : Opd := .no
  extraR : List RegNo := []
  extraW : List RegNo := []
  /-- A supervisor-only form (R71). -/
  sup : Bool := false
  /-- It ends the quantum of a deterministic thread (R336). -/
  det : Bool := false
  deriving DecidableEq, Repr

/-- The width of a special register and its access (R8, R25). -/
inductive SAccess where
  | ro | rw | rs | so
  deriving DecidableEq, Repr

/-- The special registers of R25. -/
inductive SReg where
  | tix | tcnt | cix | lix | dix | lid | grank | gsize | clk | stime | fctl | tctl | rngs | path
  | tcause | tepc | tval | tprog | tvec | svec | sscratch
  deriving DecidableEq, Repr

/-- A special register's number (R25). -/
def SReg.ofNum : Nat → Option SReg
  | 0x00 => some .tix
  | 0x01 => some .tcnt
  | 0x02 => some .cix
  | 0x03 => some .lix
  | 0x04 => some .dix
  | 0x05 => some .lid
  | 0x06 => some .grank
  | 0x07 => some .gsize
  | 0x08 => some .clk
  | 0x09 => some .stime
  | 0x0A => some .fctl
  | 0x0B => some .tctl
  | 0x0C => some .rngs
  | 0x0D => some .path
  | 0x10 => some .tcause
  | 0x11 => some .tepc
  | 0x12 => some .tval
  | 0x13 => some .tprog
  | 0x14 => some .tvec
  | 0x18 => some .svec
  | 0x19 => some .sscratch
  | _ => none

/-- Whether a special register has 64 bits (R25). -/
def SReg.wide : SReg → Bool
  | .clk | .stime | .path | .tepc | .tval | .tvec | .svec | .sscratch => true
  | _ => false

/-- The access of a special register (R25); `tctl` is written through QM alone (R28). -/
def SReg.access : SReg → SAccess
  | .tix | .tcnt | .cix | .lix | .dix | .lid | .grank | .gsize | .clk | .stime => .ro
  | .path => .rs
  | .svec | .sscratch => .so
  | _ => .rw

/-- The width and access of the special register with a number, if there is one (R25). -/
def sregInfo (n : Nat) : Option (Bool × SAccess) :=
  (SReg.ofNum n).map fun r => (r.wide, r.access)

/-- The register operand of `sget` and `sset`: a w pair for a 64-bit special register (R25). -/
def sregOpd (imm : BitVec 11) (r : RegNo) : Opd :=
  match sregInfo imm.toNat with
  | some (true, _) => .w r
  | _ => .g r

/-- `sget` of a supervisor-only register (R8, R141). -/
def sgetSup (imm : BitVec 11) : Bool :=
  match sregInfo imm.toNat with
  | some (_, .so) => true
  | _ => false

/-- `sset` of a supervisor-only register, or of one that only supervisor mode writes (R8, R142). -/
def ssetSup (imm : BitVec 11) : Bool :=
  match sregInfo imm.toNat with
  | some (_, .so) | some (_, .rs) => true
  | _ => false

/-- The random operand of a conversion, named only under `.rs` (R77). -/
def rsOpd (rm : RmField) (b : RegNo) : Opd := if rm = .rs then .g b else .no

/-- The base of a plain access: a w pair in the global space, a g register in a scratchpad space (R70). -/
def baseOpd (sp : Space) (a : RegNo) : Opd := if sp = .global then .w a else .g a

/-- ORD of an ordered load or a wait: relaxed or acquire (R74). -/
def Ord.forLoad : Ord → Bool
  | .relaxed | .acquire => true
  | .release | .acqRel => false

/-- ORD of an ordered store: relaxed or release (R74). -/
def Ord.forStore : Ord → Bool
  | .relaxed | .release => true
  | .acquire | .acqRel => false

/-- Neither half of the base pair of an `ldm` lies among the registers it loads (R127). -/
def ldmBaseFree (d a : RegNo) (n : BitVec 5) : Bool :=
  let lo := d.toNat
  let hi := d.toNat + n.toNat
  (decide (a.toNat < lo) || decide (hi < a.toNat)) &&
    (decide (a.toNat + 1 < lo) || decide (hi < a.toNat + 1))

/-- The registers that the fields of an instruction name (R70 to R80). -/
def Instr.shape : Instr → Shape
  | .rollCycle _ => {}
  | .chimeArrival _ => {}
  | .pauseEnd _ _ => {}
  | .watchPoll _ _ => {}
  | .sLineSweep _ _ => {}
  | .coherentUpdate _ => {}
  | .walk _ _ _ => {}
  | .pendingRecordWrite _ => {}
  | .spill _ _ => {}
  | .refill _ _ => {}
  | .takeEntry _ => {}
  | .tceJobRun _ _ => {}
  | .tceSectorWrite _ _ => {}
  | .tceJobEnd _ _ => {}
  | .mmaJob _ _ => {}
  | .mxMergeJob _ _ => {}
  | .mxZeroJob _ _ => {}
  | .mxStJob _ _ => {}
  | .mxLdJob _ _ => {}
  | .scratchPageRefill _ _ _ => {}
  | .switch _ => {}
  | .lqdWrite _ _ => {}
  | .doorbell _ _ => {}
  | .packetAcceptance _ => {}
  | .launchReady _ => {}
  | .aging _ => {}
  | .launchSuspended _ => {}
  | .launchCompletion _ => {}
  | .watchdog _ => {}
  | .abort _ _ => {}
  | .quantumEnd _ _ => {}
  | .quantumBoundary _ => {}
  | .freeze _ => {}
  | .checkpoint _ => {}
  | .thaw _ => {}
  | .gongBadMode _ => {}
  | .hostLinkFailure => {}
  | .fatalError _ _ => {}
  | .poisonThreshold _ => {}
  | .throttle _ _ _ => {}
  | .islandResetRelease _ => {}
  | .messageArrival _ => {}
  | .chimePortWrite _ _ _ => {}
  | .registerWrite _ _ _ => {}
  | .hostRequest _ _ => {}
  | .peerRequest _ _ => {}
  | .grantRecall _ _ => {}
  | .recallTimeout _ _ => {}
  | .collCompletion _ _ => {}
  | .residencyReport => {}
  | .halt _ => {}
  | .cont _ => {}
  | .step _ => {}
  | .rdreg _ => {}
  | .wrreg _ => {}
  | .rdsreg _ => {}
  | .wrsreg _ => {}
  | .rdpc _ => {}
  | .wrpc _ => {}
  | .packageReset _ => {}
  | .level1Turn _ => {}
  | .memberLost _ => {}
  | .hostLinkDown _ _ => {}
  | .bra _ => {}
  | .call _ => { extraW := [1] }
  | .bz a _ => { a := .g a }
  | .bnz a _ => { a := .g a }
  | .beq a b _ => { a := .g a, b := .g b }
  | .bne a b _ => { a := .g a, b := .g b }
  | .blt a b _ => { a := .g a, b := .g b }
  | .bge a b _ => { a := .g a, b := .g b }
  | .blo a b _ => { a := .g a, b := .g b }
  | .bhs a b _ => { a := .g a, b := .g b }
  | .spawn a _ => { a := .w a, extraR := [2, 3], det := true }
  | .li d _ => { dst := .g d }
  | .lih d _ => { dst := .whi d }
  | .callx _ => { extraW := [1] }
  | .callr a => { a := .w a, extraW := [1] }
  | .ret => { extraR := [1] }
  | .jr a => { a := .w a }
  | .exit => { det := true }
  | .pause => {}
  | .tdone => { extraW := [2, 3], det := true }
  | .join a => { a := .w a, det := true }
  | .tkill a => { a := .g a, det := true }
  | .tresume a => { a := .g a }
  | .trap _ => {}
  | .sget d imm => { dst := sregOpd imm d, sup := sgetSup imm }
  | .sset a imm => { a := sregOpd imm a, sup := ssetSup imm }
  | .brk => {}
  | .tret => {}
  | .fenceI => {}
  | .tlbi a => { a := .w a, sup := true, det := true }
  | .tlbiAsn a => { a := .g a, sup := true, det := true }
  | .tlbiAll => { sup := true, det := true }
  | .chime a => { a := .w a, sup := true }
  | .l2pin a b => { a := .w a, b := .g b, sup := true }
  | .l2unpin a b => { a := .w a, b := .g b, sup := true }
  | .rgnSet a b => { a := .w a, b := .g b, sup := true }
  | .rgnAcq a => { a := .w a }
  | .rgnRel a => { a := .w a }
  | .waiteqW a b _ _ => { a := .w a, b := .g b, det := true }
  | .waitneW a b _ _ => { a := .w a, b := .g b, det := true }
  | .waiteqD a b _ _ => { a := .w a, b := .w b, det := true }
  | .waitneD a b _ _ => { a := .w a, b := .w b, det := true }
  | .ld8s d a sp _ => { a := baseOpd sp a, dst := .g d }
  | .ld8z d a sp _ => { a := baseOpd sp a, dst := .g d }
  | .ld16s d a sp _ => { a := baseOpd sp a, dst := .g d }
  | .ld16z d a sp _ => { a := baseOpd sp a, dst := .g d }
  | .ld32 d a sp _ => { a := baseOpd sp a, dst := .g d }
  | .ld64 d a sp _ => { a := baseOpd sp a, dst := .w d }
  | .ld128 d a sp _ => { a := baseOpd sp a, dst := .quad d }
  | .pf _ a _ => { a := .w a }
  | .st8 d a sp _ => { a := baseOpd sp a, dsrc := .g d }
  | .st16 d a sp _ => { a := baseOpd sp a, dsrc := .g d }
  | .st32 d a sp _ => { a := baseOpd sp a, dsrc := .g d }
  | .st64 d a sp _ => { a := baseOpd sp a, dsrc := .w d }
  | .st128 d a sp _ => { a := baseOpd sp a, dsrc := .quad d }
  | .ldm d a n => { a := .w a, dst := .span d (n.toNat + 1) }
  | .stm d a n => { a := .w a, dsrc := .span d (n.toNat + 1) }
  | .ld8sOrd d a _ _ => { a := .w a, dst := .g d, det := true }
  | .ld8zOrd d a _ _ => { a := .w a, dst := .g d, det := true }
  | .ld16sOrd d a _ _ => { a := .w a, dst := .g d, det := true }
  | .ld16zOrd d a _ _ => { a := .w a, dst := .g d, det := true }
  | .ld32Ord d a _ _ => { a := .w a, dst := .g d, det := true }
  | .ld64Ord d a _ _ => { a := .w a, dst := .w d, det := true }
  | .ld128Ord d a _ _ => { a := .w a, dst := .quad d, det := true }
  | .fence _ _ => { det := true }
  | .st8Ord d a _ _ => { a := .w a, dsrc := .g d, det := true }
  | .st16Ord d a _ _ => { a := .w a, dsrc := .g d, det := true }
  | .st32Ord d a _ _ => { a := .w a, dsrc := .g d, det := true }
  | .st64Ord d a _ _ => { a := .w a, dsrc := .w d, det := true }
  | .st128Ord d a _ _ => { a := .w a, dsrc := .quad d, det := true }
  | .amoAddW d a b _ _ => { a := .w a, b := .g b, dst := .g d, det := true }
  | .amoAddD d a b _ _ => { a := .w a, b := .w b, dst := .w d, det := true }
  | .amoAndW d a b _ _ => { a := .w a, b := .g b, dst := .g d, det := true }
  | .amoAndD d a b _ _ => { a := .w a, b := .w b, dst := .w d, det := true }
  | .amoOrW d a b _ _ => { a := .w a, b := .g b, dst := .g d, det := true }
  | .amoOrD d a b _ _ => { a := .w a, b := .w b, dst := .w d, det := true }
  | .amoXorW d a b _ _ => { a := .w a, b := .g b, dst := .g d, det := true }
  | .amoXorD d a b _ _ => { a := .w a, b := .w b, dst := .w d, det := true }
  | .amoMinW d a b _ _ => { a := .w a, b := .g b, dst := .g d, det := true }
  | .amoMinD d a b _ _ => { a := .w a, b := .w b, dst := .w d, det := true }
  | .amoMaxW d a b _ _ => { a := .w a, b := .g b, dst := .g d, det := true }
  | .amoMaxD d a b _ _ => { a := .w a, b := .w b, dst := .w d, det := true }
  | .amoMinnW d a b _ _ => { a := .w a, b := .g b, dst := .g d, det := true }
  | .amoMinnD d a b _ _ => { a := .w a, b := .w b, dst := .w d, det := true }
  | .amoMaxnW d a b _ _ => { a := .w a, b := .g b, dst := .g d, det := true }
  | .amoMaxnD d a b _ _ => { a := .w a, b := .w b, dst := .w d, det := true }
  | .amoSwpW d a b _ _ => { a := .w a, b := .g b, dst := .g d, det := true }
  | .amoSwpD d a b _ _ => { a := .w a, b := .w b, dst := .w d, det := true }
  | .amoCasW d a b _ _ => { a := .w a, b := .g b, dst := .g d, dsrc := .g d, det := true }
  | .amoCasD d a b _ _ => { a := .w a, b := .w b, dst := .w d, dsrc := .w d, det := true }
  | .amoFaddW d a b _ _ => { a := .w a, b := .g b, dst := .g d, det := true }
  | .amoFaddD d a b _ _ => { a := .w a, b := .w b, dst := .w d, det := true }
  | .amoFminW d a b _ _ => { a := .w a, b := .g b, dst := .g d, det := true }
  | .amoFminD d a b _ _ => { a := .w a, b := .w b, dst := .w d, det := true }
  | .amoFmaxW d a b _ _ => { a := .w a, b := .g b, dst := .g d, det := true }
  | .amoFmaxD d a b _ _ => { a := .w a, b := .w b, dst := .w d, det := true }
  | .srel d a _ => { a := .w a, dsrc := .w d, det := true }
  | .sacq d a _ => { a := .w a, dst := .w d, det := true }
  | .sadd d a b _ => { a := .w a, b := .w b, dst := .w d, det := true }
  | .scas d a b _ => { a := .w a, b := .w b, dst := .w d, dsrc := .w d, det := true }
  | .rbind _ a => { a := .g a, det := true }
  | .rwf _ a => { a := .g a, det := true }
  | .rwe _ a => { a := .g a, det := true }
  | .radvp _ a => { a := .g a, det := true }
  | .radvc _ a => { a := .g a, det := true }
  | .raddr d _ b => { b := .g b, dst := .g d, det := true }
  | .rbytes d _ b => { b := .g b, dst := .g d, det := true }
  | .qbind _ a => { a := .g a }
  | .conv d a b => { a := .w a, b := .g b, dst := .g d, det := true }
  | .gbar => { det := true }
  | .gbc d a b => { a := .g a, b := .g b, dst := .g d, det := true }
  | .gbcD d a b => { a := .w a, b := .g b, dst := .w d, det := true }
  | .gdis => { det := true }
  | .gredAddF32 d a => { a := .g a, dst := .g d, det := true }
  | .gredAddF64 d a => { a := .w a, dst := .w d, det := true }
  | .gredCaddF32 d a => { a := .w a, dst := .w d, det := true }
  | .gredAddI32 d a => { a := .g a, dst := .g d, det := true }
  | .gredAddI64 d a => { a := .w a, dst := .w d, det := true }
  | .gredMaxF32 d a => { a := .g a, dst := .g d, det := true }
  | .gredMinF32 d a => { a := .g a, dst := .g d, det := true }
  | .gredMaxF64 d a => { a := .w a, dst := .w d, det := true }
  | .gredMinF64 d a => { a := .w a, dst := .w d, det := true }
  | .gredMaxI32 d a => { a := .g a, dst := .g d, det := true }
  | .gredMinI32 d a => { a := .g a, dst := .g d, det := true }
  | .gredAnd d a => { a := .g a, dst := .g d, det := true }
  | .gredOr d a => { a := .g a, dst := .g d, det := true }
  | .gredXor d a => { a := .g a, dst := .g d, det := true }
  | .tcopy d a _ => { a := .g a, dst := .g d, det := true }
  | .scopy d a _ => { a := .g a, dst := .g d, det := true }
  | .tfill d a _ => { a := .g a, dst := .g d, det := true }
  | .ewait a => { a := .g a, det := true }
  | .eprog d a => { a := .g a, dst := .g d, det := true }
  | .mxCfg _ a => { a := .g a, det := true }
  | .mxZero _ => { det := true }
  | .mxLd _ a => { a := .g a, det := true }
  | .mxSt _ a b => { a := .g a, b := .g b, det := true }
  | .mxMerge _ a b => { a := .g a, b := .g b, det := true }
  | .mmaF64 _ a b => { a := .g a, b := .g b, det := true }
  | .mmaF32 _ a b => { a := .g a, b := .g b, det := true }
  | .mmaBf16 _ a b => { a := .g a, b := .g b, det := true }
  | .mmaF16 _ a b => { a := .g a, b := .g b, det := true }
  | .mmaE4m3 _ a b => { a := .g a, b := .g b, det := true }
  | .mmaE5m2 _ a b => { a := .g a, b := .g b, det := true }
  | .mmaMx8 _ a b => { a := .g a, b := .g b, det := true }
  | .mmaE2m1 _ a b => { a := .g a, b := .g b, det := true }
  | .launch d a => { a := .w a, dst := .g d, det := true }
  | .nsend a b => { a := .g a, b := .g b, sup := true, det := true }
  | .nrecv d a => { a := .g a, dst := .g d, sup := true, det := true }
  | .nmcast a b => { a := .g a, b := .g b, sup := true, det := true }
  | .collRedAddF32 d a => { a := .w a, dst := .g d, det := true }
  | .collRedAddF64 d a => { a := .w a, dst := .g d, det := true }
  | .collRedCaddF32 d a => { a := .w a, dst := .g d, det := true }
  | .collRedAddI32 d a => { a := .w a, dst := .g d, det := true }
  | .collRedAddI64 d a => { a := .w a, dst := .g d, det := true }
  | .collRedMaxF32 d a => { a := .w a, dst := .g d, det := true }
  | .collRedMinF32 d a => { a := .w a, dst := .g d, det := true }
  | .collRedMaxF64 d a => { a := .w a, dst := .g d, det := true }
  | .collRedMinF64 d a => { a := .w a, dst := .g d, det := true }
  | .collRedMaxI32 d a => { a := .w a, dst := .g d, det := true }
  | .collRedMinI32 d a => { a := .w a, dst := .g d, det := true }
  | .collRedAnd d a => { a := .w a, dst := .g d, det := true }
  | .collRedOr d a => { a := .w a, dst := .g d, det := true }
  | .collRedXor d a => { a := .w a, dst := .g d, det := true }
  | .collBc d a => { a := .w a, dst := .g d, det := true }
  | .collAg d a => { a := .w a, dst := .g d, det := true }
  | .add d a b => { dst := .g d, a := .g a, b := .g b }
  | .sub d a b => { dst := .g d, a := .g a, b := .g b }
  | .mul d a b => { dst := .g d, a := .g a, b := .g b }
  | .mulh d a b => { dst := .g d, a := .g a, b := .g b }
  | .mulhn d a b => { dst := .g d, a := .g a, b := .g b }
  | .div d a b => { dst := .g d, a := .g a, b := .g b }
  | .divn d a b => { dst := .g d, a := .g a, b := .g b }
  | .rem d a b => { dst := .g d, a := .g a, b := .g b }
  | .remn d a b => { dst := .g d, a := .g a, b := .g b }
  | .min d a b => { dst := .g d, a := .g a, b := .g b }
  | .max d a b => { dst := .g d, a := .g a, b := .g b }
  | .minn d a b => { dst := .g d, a := .g a, b := .g b }
  | .maxn d a b => { dst := .g d, a := .g a, b := .g b }
  | .abs d a => { dst := .g d, a := .g a }
  | .and d a b => { dst := .g d, a := .g a, b := .g b }
  | .or d a b => { dst := .g d, a := .g a, b := .g b }
  | .xor d a b => { dst := .g d, a := .g a, b := .g b }
  | .shl d a b => { dst := .g d, a := .g a, b := .g b }
  | .shr d a b => { dst := .g d, a := .g a, b := .g b }
  | .sar d a b => { dst := .g d, a := .g a, b := .g b }
  | .clz d a => { dst := .g d, a := .g a }
  | .ctz d a => { dst := .g d, a := .g a }
  | .popc d a => { dst := .g d, a := .g a }
  | .brev d a => { dst := .g d, a := .g a }
  | .bfx d a b => { dst := .g d, a := .g a, b := .g b }
  | .bfi d a b => { dst := .g d, a := .g a, b := .g b, dsrc := .g d }
  | .slt d a b => { dst := .g d, a := .g a, b := .g b }
  | .sltn d a b => { dst := .g d, a := .g a, b := .g b }
  | .seq d a b => { dst := .g d, a := .g a, b := .g b }
  | .sne d a b => { dst := .g d, a := .g a, b := .g b }
  | .rng d => { dst := .g d }
  | .addD d a b => { a := .w a, b := .w b, dst := .w d }
  | .subD d a b => { a := .w a, b := .w b, dst := .w d }
  | .mulD d a b => { a := .w a, b := .w b, dst := .w d }
  | .shlD d a b => { a := .w a, b := .g b, dst := .w d }
  | .shrD d a b => { a := .w a, b := .g b, dst := .w d }
  | .sarD d a b => { a := .w a, b := .g b, dst := .w d }
  | .andD d a b => { a := .w a, b := .w b, dst := .w d }
  | .orD d a b => { a := .w a, b := .w b, dst := .w d }
  | .xorD d a b => { a := .w a, b := .w b, dst := .w d }
  | .minD d a b => { a := .w a, b := .w b, dst := .w d }
  | .maxD d a b => { a := .w a, b := .w b, dst := .w d }
  | .minnD d a b => { a := .w a, b := .w b, dst := .w d }
  | .maxnD d a b => { a := .w a, b := .w b, dst := .w d }
  | .sltD d a b => { a := .w a, b := .w b, dst := .g d }
  | .sltnD d a b => { a := .w a, b := .w b, dst := .g d }
  | .seqD d a b => { a := .w a, b := .w b, dst := .g d }
  | .addi d a _ => { a := .g a, dst := .g d }
  | .andi d a _ => { a := .g a, dst := .g d }
  | .ori d a _ => { a := .g a, dst := .g d }
  | .xori d a _ => { a := .g a, dst := .g d }
  | .slti d a _ => { a := .g a, dst := .g d }
  | .shli d a _ => { a := .g a, dst := .g d }
  | .shri d a _ => { a := .g a, dst := .g d }
  | .sari d a _ => { a := .g a, dst := .g d }
  | .lui d _ => { dst := .g d }
  | .fadd d a b => { a := .g a, b := .g b, dst := .g d }
  | .fsub d a b => { a := .g a, b := .g b, dst := .g d }
  | .fmul d a b => { a := .g a, b := .g b, dst := .g d }
  | .fdiv d a b => { a := .g a, b := .g b, dst := .g d }
  | .fsqrt d a => { a := .g a, dst := .g d }
  | .fmin d a b => { a := .g a, b := .g b, dst := .g d }
  | .fmax d a b => { a := .g a, b := .g b, dst := .g d }
  | .fabs d a => { a := .g a, dst := .g d }
  | .fneg d a => { a := .g a, dst := .g d }
  | .feq d a b => { a := .g a, b := .g b, dst := .g d }
  | .flt d a b => { a := .g a, b := .g b, dst := .g d }
  | .fle d a b => { a := .g a, b := .g b, dst := .g d }
  | .funOrd d a b => { a := .g a, b := .g b, dst := .g d }
  | .fclass d a => { a := .g a, dst := .g d }
  | .frnd d a b rm => { a := .g a, b := rsOpd rm b, dst := .g d }
  | .dadd d a b => { a := .w a, b := .w b, dst := .w d }
  | .dsub d a b => { a := .w a, b := .w b, dst := .w d }
  | .dmul d a b => { a := .w a, b := .w b, dst := .w d }
  | .ddiv d a b => { a := .w a, b := .w b, dst := .w d }
  | .dsqrt d a => { a := .w a, dst := .w d }
  | .dmin d a b => { a := .w a, b := .w b, dst := .w d }
  | .dmax d a b => { a := .w a, b := .w b, dst := .w d }
  | .dabs d a => { a := .w a, dst := .w d }
  | .dneg d a => { a := .w a, dst := .w d }
  | .deq d a b => { a := .w a, b := .w b, dst := .g d }
  | .dlt d a b => { a := .w a, b := .w b, dst := .g d }
  | .dle d a b => { a := .w a, b := .w b, dst := .g d }
  | .dunOrd d a b => { a := .w a, b := .w b, dst := .g d }
  | .dclass d a => { a := .w a, dst := .g d }
  | .drnd d a b rm => { a := .w a, b := rsOpd rm b, dst := .w d }
  | .p2addH d a b => { a := .g a, b := .g b, dst := .g d }
  | .p2subH d a b => { a := .g a, b := .g b, dst := .g d }
  | .p2mulH d a b => { a := .g a, b := .g b, dst := .g d }
  | .p2fmaH d a b => { a := .g a, b := .g b, dst := .g d, dsrc := .g d }
  | .p2minH d a b => { a := .g a, b := .g b, dst := .g d }
  | .p2maxH d a b => { a := .g a, b := .g b, dst := .g d }
  | .p2addB d a b => { a := .g a, b := .g b, dst := .g d }
  | .p2subB d a b => { a := .g a, b := .g b, dst := .g d }
  | .p2mulB d a b => { a := .g a, b := .g b, dst := .g d }
  | .p2fmaB d a b => { a := .g a, b := .g b, dst := .g d, dsrc := .g d }
  | .p2minB d a b => { a := .g a, b := .g b, dst := .g d }
  | .p2maxB d a b => { a := .g a, b := .g b, dst := .g d }
  | .cvtF64F32 d a b rm _ => { a := .g a, dst := .w d, b := rsOpd rm b }
  | .cvtF64F16 d a b rm _ => { a := .g a, dst := .w d, b := rsOpd rm b }
  | .cvtF64Bf16 d a b rm _ => { a := .g a, dst := .w d, b := rsOpd rm b }
  | .cvtF64E4m3 d a b rm _ => { a := .g a, dst := .w d, b := rsOpd rm b }
  | .cvtF64E5m2 d a b rm _ => { a := .g a, dst := .w d, b := rsOpd rm b }
  | .cvtF64I32 d a b rm _ => { a := .g a, dst := .w d, b := rsOpd rm b }
  | .cvtF64N32 d a b rm _ => { a := .g a, dst := .w d, b := rsOpd rm b }
  | .cvtF64I64 d a b rm _ => { a := .w a, dst := .w d, b := rsOpd rm b }
  | .cvtF64N64 d a b rm _ => { a := .w a, dst := .w d, b := rsOpd rm b }
  | .cvtF32F64 d a b rm _ => { a := .w a, dst := .g d, b := rsOpd rm b }
  | .cvtF32F16 d a b rm _ => { a := .g a, dst := .g d, b := rsOpd rm b }
  | .cvtF32Bf16 d a b rm _ => { a := .g a, dst := .g d, b := rsOpd rm b }
  | .cvtF32E4m3 d a b rm _ => { a := .g a, dst := .g d, b := rsOpd rm b }
  | .cvtF32E5m2 d a b rm _ => { a := .g a, dst := .g d, b := rsOpd rm b }
  | .cvtF32E2m1 d a b rm _ => { a := .g a, dst := .g d, b := rsOpd rm b }
  | .cvtF32E8m0 d a b rm _ => { a := .g a, dst := .g d, b := rsOpd rm b }
  | .cvtF32E3m5 d a b rm _ => { a := .g a, dst := .g d, b := rsOpd rm b }
  | .cvtF32I32 d a b rm _ => { a := .g a, dst := .g d, b := rsOpd rm b }
  | .cvtF32N32 d a b rm _ => { a := .g a, dst := .g d, b := rsOpd rm b }
  | .cvtF32I64 d a b rm _ => { a := .w a, dst := .g d, b := rsOpd rm b }
  | .cvtF32N64 d a b rm _ => { a := .w a, dst := .g d, b := rsOpd rm b }
  | .cvtF16F64 d a b rm _ => { a := .w a, dst := .g d, b := rsOpd rm b }
  | .cvtF16F32 d a b rm _ => { a := .g a, dst := .g d, b := rsOpd rm b }
  | .cvtF16Bf16 d a b rm _ => { a := .g a, dst := .g d, b := rsOpd rm b }
  | .cvtF16E4m3 d a b rm _ => { a := .g a, dst := .g d, b := rsOpd rm b }
  | .cvtF16E5m2 d a b rm _ => { a := .g a, dst := .g d, b := rsOpd rm b }
  | .cvtBf16F64 d a b rm _ => { a := .w a, dst := .g d, b := rsOpd rm b }
  | .cvtBf16F32 d a b rm _ => { a := .g a, dst := .g d, b := rsOpd rm b }
  | .cvtBf16F16 d a b rm _ => { a := .g a, dst := .g d, b := rsOpd rm b }
  | .cvtBf16E4m3 d a b rm _ => { a := .g a, dst := .g d, b := rsOpd rm b }
  | .cvtBf16E5m2 d a b rm _ => { a := .g a, dst := .g d, b := rsOpd rm b }
  | .cvtE4m3F64 d a b rm _ => { a := .w a, dst := .g d, b := rsOpd rm b }
  | .cvtE4m3F32 d a b rm _ => { a := .g a, dst := .g d, b := rsOpd rm b }
  | .cvtE4m3F16 d a b rm _ => { a := .g a, dst := .g d, b := rsOpd rm b }
  | .cvtE4m3Bf16 d a b rm _ => { a := .g a, dst := .g d, b := rsOpd rm b }
  | .cvtE4m3E5m2 d a b rm _ => { a := .g a, dst := .g d, b := rsOpd rm b }
  | .cvtE5m2F64 d a b rm _ => { a := .w a, dst := .g d, b := rsOpd rm b }
  | .cvtE5m2F32 d a b rm _ => { a := .g a, dst := .g d, b := rsOpd rm b }
  | .cvtE5m2F16 d a b rm _ => { a := .g a, dst := .g d, b := rsOpd rm b }
  | .cvtE5m2Bf16 d a b rm _ => { a := .g a, dst := .g d, b := rsOpd rm b }
  | .cvtE5m2E4m3 d a b rm _ => { a := .g a, dst := .g d, b := rsOpd rm b }
  | .cvtE2m1F64 d a b rm _ => { a := .w a, dst := .g d, b := rsOpd rm b }
  | .cvtE2m1F32 d a b rm _ => { a := .g a, dst := .g d, b := rsOpd rm b }
  | .cvtE2m1F16 d a b rm _ => { a := .g a, dst := .g d, b := rsOpd rm b }
  | .cvtE2m1Bf16 d a b rm _ => { a := .g a, dst := .g d, b := rsOpd rm b }
  | .cvtE8m0F32 d a b rm _ => { a := .g a, dst := .g d, b := rsOpd rm b }
  | .cvtE3m5F32 d a b rm _ => { a := .g a, dst := .g d, b := rsOpd rm b }
  | .cvtI32F64 d a b rm _ => { a := .w a, dst := .g d, b := rsOpd rm b }
  | .cvtI32F32 d a b rm _ => { a := .g a, dst := .g d, b := rsOpd rm b }
  | .cvtI32I64 d a _ => { a := .w a, dst := .g d }
  | .cvtN32F64 d a b rm _ => { a := .w a, dst := .g d, b := rsOpd rm b }
  | .cvtN32F32 d a b rm _ => { a := .g a, dst := .g d, b := rsOpd rm b }
  | .cvtN32N64 d a _ => { a := .w a, dst := .g d }
  | .cvtI64F64 d a b rm _ => { a := .w a, dst := .w d, b := rsOpd rm b }
  | .cvtI64F32 d a b rm _ => { a := .g a, dst := .w d, b := rsOpd rm b }
  | .cvtI64I32 d a _ => { a := .g a, dst := .w d }
  | .cvtN64F64 d a b rm _ => { a := .w a, dst := .w d, b := rsOpd rm b }
  | .cvtN64F32 d a b rm _ => { a := .g a, dst := .w d, b := rsOpd rm b }
  | .cvtN64N32 d a _ => { a := .g a, dst := .w d }
  | .cvtI8I32 d a _ => { a := .g a, dst := .g d }
  | .cvtN8I32 d a _ => { a := .g a, dst := .g d }
  | .cvtI16I32 d a _ => { a := .g a, dst := .g d }
  | .cvtN16I32 d a _ => { a := .g a, dst := .g d }
  | .cvtpE4m3 d a b _ _ _ => { a := .g a, b := .g b, dst := .g d, dsrc := .g d }
  | .cvtpE5m2 d a b _ _ _ => { a := .g a, b := .g b, dst := .g d, dsrc := .g d }
  | .cvtpE2m1Low d a b _ _ _ => { a := .g a, b := .g b, dst := .g d, dsrc := .g d }
  | .cvtpE2m1High d a b _ _ _ => { a := .g a, b := .g b, dst := .g d, dsrc := .g d }
  | .cvtpF16 d a b _ _ => { a := .g a, b := .g b, dst := .g d }
  | .cvtpBf16 d a b _ _ => { a := .g a, b := .g b, dst := .g d }
  | .ffma d a b c => { a := .g a, b := .g b, c := .g c, dst := .g d }
  | .dfma d a b c => { a := .w a, b := .w b, c := .w c, dst := .w d }
  | .imad d a b c => { a := .g a, b := .g b, c := .g c, dst := .g d }
  | .sel d a b c => { a := .g a, b := .g b, c := .g c, dst := .g d }

/-- The class of a register field on its own: a w field is even, a quad a multiple of 4 (R68). -/
def Opd.classOk : Opd → Bool
  | .no | .g _ => true
  | .w r | .whi r => r.toNat % 2 == 0
  | .quad r => r.toNat % 4 == 0
  | .span r n => decide (r.toNat + n ≤ 64)

/-- Every register field of the shape is within its class (R68). -/
def Shape.classOk (s : Shape) : Bool :=
  s.a.classOk && s.b.classOk && s.c.classOk && s.dst.classOk && s.dsrc.classOk

/-- The field values that a form admits beyond its register classes (R74, R77, R79, R118, R127, R129, R141). -/
def Instr.fieldsOk : Instr → Bool
  | .rollCycle _ => true
  | .chimeArrival _ => true
  | .pauseEnd _ _ => true
  | .watchPoll _ _ => true
  | .sLineSweep _ _ => true
  | .coherentUpdate _ => true
  | .walk _ _ _ => true
  | .pendingRecordWrite _ => true
  | .spill _ _ => true
  | .refill _ _ => true
  | .takeEntry _ => true
  | .tceJobRun _ _ => true
  | .tceSectorWrite _ _ => true
  | .tceJobEnd _ _ => true
  | .mmaJob _ _ => true
  | .mxMergeJob _ _ => true
  | .mxZeroJob _ _ => true
  | .mxStJob _ _ => true
  | .mxLdJob _ _ => true
  | .scratchPageRefill _ _ _ => true
  | .switch _ => true
  | .lqdWrite _ _ => true
  | .doorbell _ _ => true
  | .packetAcceptance _ => true
  | .launchReady _ => true
  | .aging _ => true
  | .launchSuspended _ => true
  | .launchCompletion _ => true
  | .watchdog _ => true
  | .abort _ _ => true
  | .quantumEnd _ _ => true
  | .quantumBoundary _ => true
  | .freeze _ => true
  | .checkpoint _ => true
  | .thaw _ => true
  | .gongBadMode _ => true
  | .hostLinkFailure => true
  | .fatalError _ _ => true
  | .poisonThreshold _ => true
  | .throttle _ _ _ => true
  | .islandResetRelease _ => true
  | .messageArrival _ => true
  | .chimePortWrite _ _ _ => true
  | .registerWrite _ _ _ => true
  | .hostRequest _ _ => true
  | .peerRequest _ _ => true
  | .grantRecall _ _ => true
  | .recallTimeout _ _ => true
  | .collCompletion _ _ => true
  | .residencyReport => true
  | .halt _ => true
  | .cont _ => true
  | .step _ => true
  | .rdreg _ => true
  | .wrreg _ => true
  | .rdsreg _ => true
  | .wrsreg _ => true
  | .rdpc _ => true
  | .wrpc _ => true
  | .packageReset _ => true
  | .level1Turn _ => true
  | .memberLost _ => true
  | .hostLinkDown _ _ => true
  | .bra _ => true
  | .call _ => true
  | .bz _ _ => true
  | .bnz _ _ => true
  | .beq _ _ _ => true
  | .bne _ _ _ => true
  | .blt _ _ _ => true
  | .bge _ _ _ => true
  | .blo _ _ _ => true
  | .bhs _ _ _ => true
  | .spawn _ _ => true
  | .li _ _ => true
  | .lih _ _ => true
  | .callx imm => imm.extractLsb' 0 2 == 0#2
  | .callr _ => true
  | .ret => true
  | .jr _ => true
  | .exit => true
  | .pause => true
  | .tdone => true
  | .join _ => true
  | .tkill _ => true
  | .tresume _ => true
  | .trap _ => true
  | .sget _ imm => (sregInfo imm.toNat).isSome
  | .sset _ imm => (sregInfo imm.toNat).isSome
  | .brk => true
  | .tret => true
  | .fenceI => true
  | .tlbi _ => true
  | .tlbiAsn _ => true
  | .tlbiAll => true
  | .chime _ => true
  | .l2pin _ _ => true
  | .l2unpin _ _ => true
  | .rgnSet _ _ => true
  | .rgnAcq _ => true
  | .rgnRel _ => true
  | .waiteqW _ _ _ od => od.forLoad
  | .waitneW _ _ _ od => od.forLoad
  | .waiteqD _ _ _ od => od.forLoad
  | .waitneD _ _ _ od => od.forLoad
  | .ld8s _ _ _ _ => true
  | .ld8z _ _ _ _ => true
  | .ld16s _ _ _ _ => true
  | .ld16z _ _ _ _ => true
  | .ld32 _ _ _ _ => true
  | .ld64 _ _ _ _ => true
  | .ld128 _ _ _ _ => true
  | .pf d _ _ => decide (d.toNat < 2)
  | .st8 _ _ _ _ => true
  | .st16 _ _ _ _ => true
  | .st32 _ _ _ _ => true
  | .st64 _ _ _ _ => true
  | .st128 _ _ _ _ => true
  | .ldm d a n => decide (d.toNat + n.toNat ≤ 63) && ldmBaseFree d a n
  | .stm d _ n => decide (d.toNat + n.toNat ≤ 63)
  | .ld8sOrd _ _ _ od => od.forLoad
  | .ld8zOrd _ _ _ od => od.forLoad
  | .ld16sOrd _ _ _ od => od.forLoad
  | .ld16zOrd _ _ _ od => od.forLoad
  | .ld32Ord _ _ _ od => od.forLoad
  | .ld64Ord _ _ _ od => od.forLoad
  | .ld128Ord _ _ _ od => od.forLoad
  | .fence _ _ => true
  | .st8Ord _ _ _ od => od.forStore
  | .st16Ord _ _ _ od => od.forStore
  | .st32Ord _ _ _ od => od.forStore
  | .st64Ord _ _ _ od => od.forStore
  | .st128Ord _ _ _ od => od.forStore
  | .amoAddW _ _ _ _ _ => true
  | .amoAddD _ _ _ _ _ => true
  | .amoAndW _ _ _ _ _ => true
  | .amoAndD _ _ _ _ _ => true
  | .amoOrW _ _ _ _ _ => true
  | .amoOrD _ _ _ _ _ => true
  | .amoXorW _ _ _ _ _ => true
  | .amoXorD _ _ _ _ _ => true
  | .amoMinW _ _ _ _ _ => true
  | .amoMinD _ _ _ _ _ => true
  | .amoMaxW _ _ _ _ _ => true
  | .amoMaxD _ _ _ _ _ => true
  | .amoMinnW _ _ _ _ _ => true
  | .amoMinnD _ _ _ _ _ => true
  | .amoMaxnW _ _ _ _ _ => true
  | .amoMaxnD _ _ _ _ _ => true
  | .amoSwpW _ _ _ _ _ => true
  | .amoSwpD _ _ _ _ _ => true
  | .amoCasW _ _ _ _ _ => true
  | .amoCasD _ _ _ _ _ => true
  | .amoFaddW _ _ _ _ _ => true
  | .amoFaddD _ _ _ _ _ => true
  | .amoFminW _ _ _ _ _ => true
  | .amoFminD _ _ _ _ _ => true
  | .amoFmaxW _ _ _ _ _ => true
  | .amoFmaxD _ _ _ _ _ => true
  | .srel _ _ _ => true
  | .sacq _ _ _ => true
  | .sadd _ _ _ _ => true
  | .scas _ _ _ _ => true
  | .rbind d _ => decide (d.toNat < 8)
  | .rwf d _ => decide (d.toNat < 8)
  | .rwe d _ => decide (d.toNat < 8)
  | .radvp d _ => decide (d.toNat < 8)
  | .radvc d _ => decide (d.toNat < 8)
  | .raddr _ a _ => decide (a.toNat < 8)
  | .rbytes _ a _ => decide (a.toNat < 8)
  | .qbind d _ => decide (d.toNat < 4)
  | .conv _ _ _ => true
  | .gbar => true
  | .gbc _ _ _ => true
  | .gbcD _ _ _ => true
  | .gdis => true
  | .gredAddF32 _ _ => true
  | .gredAddF64 _ _ => true
  | .gredCaddF32 _ _ => true
  | .gredAddI32 _ _ => true
  | .gredAddI64 _ _ => true
  | .gredMaxF32 _ _ => true
  | .gredMinF32 _ _ => true
  | .gredMaxF64 _ _ => true
  | .gredMinF64 _ _ => true
  | .gredMaxI32 _ _ => true
  | .gredMinI32 _ _ => true
  | .gredAnd _ _ => true
  | .gredOr _ _ => true
  | .gredXor _ _ => true
  | .tcopy _ _ b => (decide (b.toNat < 8) || b == 63#6)
  | .scopy _ _ b => (decide (b.toNat < 8) || b == 63#6)
  | .tfill _ _ b => (decide (b.toNat < 8) || b == 63#6)
  | .ewait _ => true
  | .eprog _ _ => true
  | .mxCfg d _ => decide (d.toNat < 4)
  | .mxZero d => decide (d.toNat < 4)
  | .mxLd d _ => decide (d.toNat < 4)
  | .mxSt d _ _ => decide (d.toNat < 4)
  | .mxMerge d _ _ => decide (d.toNat < 4)
  | .mmaF64 d _ _ => decide (d.toNat < 4)
  | .mmaF32 d _ _ => decide (d.toNat < 4)
  | .mmaBf16 d _ _ => decide (d.toNat < 4)
  | .mmaF16 d _ _ => decide (d.toNat < 4)
  | .mmaE4m3 d _ _ => decide (d.toNat < 4)
  | .mmaE5m2 d _ _ => decide (d.toNat < 4)
  | .mmaMx8 d _ _ => decide (d.toNat < 4)
  | .mmaE2m1 d _ _ => decide (d.toNat < 4)
  | .launch _ _ => true
  | .nsend _ _ => true
  | .nrecv _ _ => true
  | .nmcast _ _ => true
  | .collRedAddF32 _ _ => true
  | .collRedAddF64 _ _ => true
  | .collRedCaddF32 _ _ => true
  | .collRedAddI32 _ _ => true
  | .collRedAddI64 _ _ => true
  | .collRedMaxF32 _ _ => true
  | .collRedMinF32 _ _ => true
  | .collRedMaxF64 _ _ => true
  | .collRedMinF64 _ _ => true
  | .collRedMaxI32 _ _ => true
  | .collRedMinI32 _ _ => true
  | .collRedAnd _ _ => true
  | .collRedOr _ _ => true
  | .collRedXor _ _ => true
  | .collBc _ _ => true
  | .collAg _ _ => true
  | .add _ _ _ => true
  | .sub _ _ _ => true
  | .mul _ _ _ => true
  | .mulh _ _ _ => true
  | .mulhn _ _ _ => true
  | .div _ _ _ => true
  | .divn _ _ _ => true
  | .rem _ _ _ => true
  | .remn _ _ _ => true
  | .min _ _ _ => true
  | .max _ _ _ => true
  | .minn _ _ _ => true
  | .maxn _ _ _ => true
  | .abs _ _ => true
  | .and _ _ _ => true
  | .or _ _ _ => true
  | .xor _ _ _ => true
  | .shl _ _ _ => true
  | .shr _ _ _ => true
  | .sar _ _ _ => true
  | .clz _ _ => true
  | .ctz _ _ => true
  | .popc _ _ => true
  | .brev _ _ => true
  | .bfx _ _ _ => true
  | .bfi _ _ _ => true
  | .slt _ _ _ => true
  | .sltn _ _ _ => true
  | .seq _ _ _ => true
  | .sne _ _ _ => true
  | .rng _ => true
  | .addD _ _ _ => true
  | .subD _ _ _ => true
  | .mulD _ _ _ => true
  | .shlD _ _ _ => true
  | .shrD _ _ _ => true
  | .sarD _ _ _ => true
  | .andD _ _ _ => true
  | .orD _ _ _ => true
  | .xorD _ _ _ => true
  | .minD _ _ _ => true
  | .maxD _ _ _ => true
  | .minnD _ _ _ => true
  | .maxnD _ _ _ => true
  | .sltD _ _ _ => true
  | .sltnD _ _ _ => true
  | .seqD _ _ _ => true
  | .addi _ _ _ => true
  | .andi _ _ _ => true
  | .ori _ _ _ => true
  | .xori _ _ _ => true
  | .slti _ _ _ => true
  | .shli _ _ _ => true
  | .shri _ _ _ => true
  | .sari _ _ _ => true
  | .lui _ _ => true
  | .fadd _ _ _ => true
  | .fsub _ _ _ => true
  | .fmul _ _ _ => true
  | .fdiv _ _ _ => true
  | .fsqrt _ _ => true
  | .fmin _ _ _ => true
  | .fmax _ _ _ => true
  | .fabs _ _ => true
  | .fneg _ _ => true
  | .feq _ _ _ => true
  | .flt _ _ _ => true
  | .fle _ _ _ => true
  | .funOrd _ _ _ => true
  | .fclass _ _ => true
  | .frnd _ _ b rm => (rm == .rs || b == 0#6)
  | .dadd _ _ _ => true
  | .dsub _ _ _ => true
  | .dmul _ _ _ => true
  | .ddiv _ _ _ => true
  | .dsqrt _ _ => true
  | .dmin _ _ _ => true
  | .dmax _ _ _ => true
  | .dabs _ _ => true
  | .dneg _ _ => true
  | .deq _ _ _ => true
  | .dlt _ _ _ => true
  | .dle _ _ _ => true
  | .dunOrd _ _ _ => true
  | .dclass _ _ => true
  | .drnd _ _ b rm => (rm == .rs || b == 0#6)
  | .p2addH _ _ _ => true
  | .p2subH _ _ _ => true
  | .p2mulH _ _ _ => true
  | .p2fmaH _ _ _ => true
  | .p2minH _ _ _ => true
  | .p2maxH _ _ _ => true
  | .p2addB _ _ _ => true
  | .p2subB _ _ _ => true
  | .p2mulB _ _ _ => true
  | .p2fmaB _ _ _ => true
  | .p2minB _ _ _ => true
  | .p2maxB _ _ _ => true
  | .cvtF64F32 _ _ b rm _ => (rm == .rs || b == 0#6)
  | .cvtF64F16 _ _ b rm _ => (rm == .rs || b == 0#6)
  | .cvtF64Bf16 _ _ b rm _ => (rm == .rs || b == 0#6)
  | .cvtF64E4m3 _ _ b rm _ => (rm == .rs || b == 0#6)
  | .cvtF64E5m2 _ _ b rm _ => (rm == .rs || b == 0#6)
  | .cvtF64I32 _ _ b rm _ => (rm == .rs || b == 0#6)
  | .cvtF64N32 _ _ b rm _ => (rm == .rs || b == 0#6)
  | .cvtF64I64 _ _ b rm _ => (rm == .rs || b == 0#6)
  | .cvtF64N64 _ _ b rm _ => (rm == .rs || b == 0#6)
  | .cvtF32F64 _ _ b rm _ => (rm == .rs || b == 0#6)
  | .cvtF32F16 _ _ b rm _ => (rm == .rs || b == 0#6)
  | .cvtF32Bf16 _ _ b rm _ => (rm == .rs || b == 0#6)
  | .cvtF32E4m3 _ _ b rm _ => (rm == .rs || b == 0#6)
  | .cvtF32E5m2 _ _ b rm _ => (rm == .rs || b == 0#6)
  | .cvtF32E2m1 _ _ b rm _ => (rm == .rs || b == 0#6)
  | .cvtF32E8m0 _ _ b rm _ => (rm == .rs || b == 0#6)
  | .cvtF32E3m5 _ _ b rm _ => (rm == .rs || b == 0#6)
  | .cvtF32I32 _ _ b rm _ => (rm == .rs || b == 0#6)
  | .cvtF32N32 _ _ b rm _ => (rm == .rs || b == 0#6)
  | .cvtF32I64 _ _ b rm _ => (rm == .rs || b == 0#6)
  | .cvtF32N64 _ _ b rm _ => (rm == .rs || b == 0#6)
  | .cvtF16F64 _ _ b rm _ => (rm == .rs || b == 0#6)
  | .cvtF16F32 _ _ b rm _ => (rm == .rs || b == 0#6)
  | .cvtF16Bf16 _ _ b rm _ => (rm == .rs || b == 0#6)
  | .cvtF16E4m3 _ _ b rm _ => (rm == .rs || b == 0#6)
  | .cvtF16E5m2 _ _ b rm _ => (rm == .rs || b == 0#6)
  | .cvtBf16F64 _ _ b rm _ => (rm == .rs || b == 0#6)
  | .cvtBf16F32 _ _ b rm _ => (rm == .rs || b == 0#6)
  | .cvtBf16F16 _ _ b rm _ => (rm == .rs || b == 0#6)
  | .cvtBf16E4m3 _ _ b rm _ => (rm == .rs || b == 0#6)
  | .cvtBf16E5m2 _ _ b rm _ => (rm == .rs || b == 0#6)
  | .cvtE4m3F64 _ _ b rm _ => (rm == .rs || b == 0#6)
  | .cvtE4m3F32 _ _ b rm _ => (rm == .rs || b == 0#6)
  | .cvtE4m3F16 _ _ b rm _ => (rm == .rs || b == 0#6)
  | .cvtE4m3Bf16 _ _ b rm _ => (rm == .rs || b == 0#6)
  | .cvtE4m3E5m2 _ _ b rm _ => (rm == .rs || b == 0#6)
  | .cvtE5m2F64 _ _ b rm _ => (rm == .rs || b == 0#6)
  | .cvtE5m2F32 _ _ b rm _ => (rm == .rs || b == 0#6)
  | .cvtE5m2F16 _ _ b rm _ => (rm == .rs || b == 0#6)
  | .cvtE5m2Bf16 _ _ b rm _ => (rm == .rs || b == 0#6)
  | .cvtE5m2E4m3 _ _ b rm _ => (rm == .rs || b == 0#6)
  | .cvtE2m1F64 _ _ b rm _ => (rm == .rs || b == 0#6)
  | .cvtE2m1F32 _ _ b rm _ => (rm == .rs || b == 0#6)
  | .cvtE2m1F16 _ _ b rm _ => (rm == .rs || b == 0#6)
  | .cvtE2m1Bf16 _ _ b rm _ => (rm == .rs || b == 0#6)
  | .cvtE8m0F32 _ _ b rm _ => (rm == .rs || b == 0#6)
  | .cvtE3m5F32 _ _ b rm _ => (rm == .rs || b == 0#6)
  | .cvtI32F64 _ _ b rm _ => (rm == .rs || b == 0#6)
  | .cvtI32F32 _ _ b rm _ => (rm == .rs || b == 0#6)
  | .cvtI32I64 _ _ _ => true
  | .cvtN32F64 _ _ b rm _ => (rm == .rs || b == 0#6)
  | .cvtN32F32 _ _ b rm _ => (rm == .rs || b == 0#6)
  | .cvtN32N64 _ _ _ => true
  | .cvtI64F64 _ _ b rm _ => (rm == .rs || b == 0#6)
  | .cvtI64F32 _ _ b rm _ => (rm == .rs || b == 0#6)
  | .cvtI64I32 _ _ _ => true
  | .cvtN64F64 _ _ b rm _ => (rm == .rs || b == 0#6)
  | .cvtN64F32 _ _ b rm _ => (rm == .rs || b == 0#6)
  | .cvtN64N32 _ _ _ => true
  | .cvtI8I32 _ _ _ => true
  | .cvtN8I32 _ _ _ => true
  | .cvtI16I32 _ _ _ => true
  | .cvtN16I32 _ _ _ => true
  | .cvtpE4m3 _ _ _ rm _ _ => rm != .rs
  | .cvtpE5m2 _ _ _ rm _ _ => rm != .rs
  | .cvtpE2m1Low _ _ _ rm _ _ => rm != .rs
  | .cvtpE2m1High _ _ _ rm _ _ => rm != .rs
  | .cvtpF16 _ _ _ rm _ => rm != .rs
  | .cvtpBf16 _ _ _ rm _ => rm != .rs
  | .ffma _ _ _ _ => true
  | .dfma _ _ _ _ => true
  | .imad _ _ _ _ => true
  | .sel _ _ _ _ => true

/-- The instruction is one that some encoding names (R81 steps 2 and 3, the part that no state enters). -/
def Instr.wellFormed (i : Instr) : Bool := i.shape.classOk && i.fieldsOk

end Sys2Proof
end

