-- ==== Sys2Proof/Machine/Operands.lean ====
section
/-! DEFINITION. Operands and results of a word: registers and queue registers (R10, R11, R19 to R23), the
checks that a word meets before it executes (R81, R148), and the write of its results and flags. -/

namespace Sys2Proof.Machine

/-- The registers that an operand names, in the order in which queues pop or push (R20, R23, R121); the zero
pair names none. -/
def opRegs : Opd → List Nat
  | .no => []
  | .g r => [r.toNat]
  | .w r => if r = 0 then [] else [r.toNat, r.toNat + 1]
  | .whi r => if r = 0 then [] else [r.toNat + 1]
  | .quad r => if r = 0 then [2, 3] else [r.toNat, r.toNat + 1, r.toNat + 2, r.toNat + 3]
  | .span r n => (List.range n).map fun i => r.toNat + i

/-- The operands of the word in execution: those of the bundle's start (R10). -/
def State.src (s : State) : OpSrc :=
  match s.fr.latch with
  | some o => o
  | none => { regs := s.t.regs, qb := s.t.qb, fctl := s.t.fctl, tctl := s.t.tctl, rngs := s.t.rngs }

/-- QM at the bundle's start (R28). -/
def OpSrc.qm (o : OpSrc) : Bool := o.tctl.getLsbD 0

/-- A register number names a queue register (R22). -/
def OpSrc.isQueue (o : OpSrc) (r : Nat) : Bool := o.qm && decide (60 ≤ r)

/-- The physical queue of a queue register. -/
def OpSrc.queueOf (o : OpSrc) (r : Nat) : Option Nat := (o.qb[r - 60]!).map BitVec.toNat

/-- The operands that read: A, B and C (R23). -/
def sourcesOf (sh : Shape) : List Nat := opRegs sh.a ++ opRegs sh.b ++ opRegs sh.c

/-- The physical queues that a word pops, in order (R23). -/
def OpSrc.pops (o : OpSrc) (sh : Shape) : List Nat := ((sourcesOf sh).filter o.isQueue).filterMap o.queueOf
/-- The physical queues that a word pushes, in order (R23). -/
def OpSrc.pushes (o : OpSrc) (sh : Shape) : List Nat := ((opRegs sh.dst).filter o.isQueue).filterMap o.queueOf

/-- The entries of a physical queue of a core. -/
def State.entries (s : State) (c q : Nat) : List Reg := ((aget q (s.core c).queues).map (·.entries)).getD []

/-- The value of a register; a queue register reads the first entry of its queue that the earlier names of the queue
have not taken (R23). -/
def State.readReg (s : State) (o : OpSrc) (taken : List Nat) (r : Nat) : Reg :=
  if o.isQueue r then
    match o.queueOf r with
    | some q => ((s.entries s.t.core q).drop (taken.count q)).headD {}
    | none => {}
  else if r = 0 then {}
  else o.regs[r]!

/-- The queue from which the name of a register takes an entry. -/
def OpSrc.takes (o : OpSrc) (r : Nat) : List Nat := if o.isQueue r then (o.queueOf r).toList else []

/-- The values of registers in order; the n-th naming of a queue reads its n-th entry (R23). -/
def State.readRegs (s : State) (o : OpSrc) (taken : List Nat) : List Nat → List Reg
  | [] => []
  | r :: rs => s.readReg o taken r :: s.readRegs o (taken ++ o.takes r) rs

/-- The shape of an instruction once a kept effect has recorded its operands: no source (R23, R128). -/
def recorded (sh : Shape) : Shape := { sh with a := .no, b := .no, c := .no, dsrc := .no, extraR := [] }

/-- The values of a word's operands. -/
structure Vals where
  a : List Reg
  b : List Reg
  c : List Reg
  /-- The destination's registers where the destination is a source too (R93). -/
  d : List Reg

/-- The operands of a word (R10, R23). -/
def State.vals (s : State) (sh : Shape) : Vals :=
  let o := s.src
  let l := s.readRegs o [] (sourcesOf sh)
  let na := (opRegs sh.a).length
  let nb := (opRegs sh.b).length
  { a := l.take na, b := (l.drop na).take nb, c := l.drop (na + nb),
    d := s.readRegs o [] (opRegs sh.dsrc) }

/-- A g operand. -/
def gOf (l : List Reg) : Word := (l.headD {}).val
/-- A w operand; the zero pair reads 0 (R20). -/
def wOf (l : List Reg) : DWord := ((l.drop 1).headD {}).val ++ (l.headD {}).val

/-- A register of the current thread outside the queue map. -/
def State.reg (s : State) (r : Nat) : Word := if r = 0 then 0#32 else (s.src.regs[r]!).val

/-- Every register that a word names is in the thread's allocation, or a bound queue register; no source in
the D field, and no register of an `ldm`, is a queue register (R11, R19, R22, R81, R121, R127). -/
def State.namesOk (s : State) (sh : Shape) : Bool :=
  let o := s.src
  let inAlloc := fun r => o.isQueue r || decide (r < 8 * s.t.blocks)
  let bound := fun r => !o.isQueue r || (o.queueOf r).isSome
  ((sourcesOf sh) ++ opRegs sh.dst ++ opRegs sh.dsrc).all inAlloc &&
  ((sourcesOf sh) ++ opRegs sh.dst).all bound &&
  ((opRegs sh.dsrc).all fun r => !o.isQueue r) &&
  (match sh.dst with
    | .span _ _ => (opRegs sh.dst).all fun r => !o.isQueue r
    | _ => true)

/-- A queue is short for some words together (R23): the first short one, popped queues first. -/
def State.shortQueue (s : State) (pops pushes : List Nat) : Option Nat :=
  (pops ++ pushes).find? fun q =>
    let n := (s.entries s.t.core q).length
    decide (n < pops.count q) || decide (16 + pops.count q < n + pushes.count q)

/-- The first poisoned operand of a word, in the operand order of R23, then sources in the D field, then
registers read without a field (R148, assumption 18); queue entries that an earlier word pops are `taken`. -/
def State.poisoned (s : State) (taken : List Nat) (sh : Shape) : Option Nat :=
  let o := s.src
  let rs := (sourcesOf sh) ++ opRegs sh.dsrc ++ sh.extraR.map BitVec.toNat
  let vs := s.readRegs o taken (sourcesOf sh) ++ s.readRegs { o with tctl := 0#32 } [] (opRegs sh.dsrc ++ sh.extraR.map BitVec.toNat)
  ((rs.zip vs).find? fun p => p.2.pois).map Prod.fst

/-- What a `pf` reads: its operand, unless that is poisoned or in a short queue, since it neither traps nor parks
(R129, assumption 49). -/
def State.pfShape (s : State) (a : RegNo) : Shape :=
  let sh : Shape := { a := .w a }
  if (s.shortQueue (s.src.pops sh) []).isSome || (s.poisoned [] sh).isSome then {} else sh

/-- A word uses a queue (R175). -/
def OpSrc.usesQueue (o : OpSrc) (sh : Shape) : Bool := ((sourcesOf sh) ++ opRegs sh.dst).any o.isQueue

/-- The word ends the quantum of a deterministic thread before it performs (R336). -/
def State.endsQuantum (s : State) (sh : Shape) : Bool :=
  s.t.det && !s.fr.boundary && (sh.det || s.src.usesQueue sh)

/-- RPOIS on a register (R155). -/
def State.rpois (s : State) (r : Nat) : State := s.raise 0x0D (BitVec.ofNat 64 r) none

/-- The checks of a word before it executes, in the order of R148; the state if one of them ends the bundle. The queues
of a pair have been tested for both of its words together (R23, `State.prologue`). -/
def State.precheck (s : State) (sh : Shape) : Option State :=
  if !sh.classOk || !s.namesOk sh then some s.ill
  else if sh.sup && !s.t.mode then some s.priv
  else if s.endsQuantum sh then some s.endQuantum
  else match (if s.fr.pair then none else s.shortQueue (s.src.pops sh) (s.src.pushes sh)) with
    | some q => some (s.park 5 (.queue s.t.core q))
    | none => match s.poisoned [] sh with
      | some r => some (s.rpois r)
      | none => none

/-- A meaning: the checks of the word, then its effect on its operands. -/
def State.within (s : State) (sh : Shape) (body : Vals → State → State) :
    Host.Outcome State Fault Refusal :=
  match s.precheck sh with
  | some s' => .next s'
  | none => .next (body (s.vals sh) s)

/-- A core with the entries of one of its queues changed. -/
def Core.modQueue (k : Core) (q : Nat) (f : List Reg → List Reg) : Core :=
  match aget q k.queues with
  | some x => { k with queues := aset q { x with entries := f x.entries } k.queues }
  | none => k

/-- Pop a queue of a core: an acquire at core scope, and a Chime on the queue (R170, R175). -/
def State.popQueue (s : State) (c q : Nat) : State :=
  ((s.modCore c fun k => k.modQueue q fun l => l.drop 1).markAcquire c).chime (.queue c q)

/-- Push an entry on a queue of a core, with a Chime (R170, R175). -/
def State.pushQueue (s : State) (c q : Nat) (v : Reg) : State :=
  (s.modCore c fun k => k.modQueue q fun l => l ++ [v]).chime (.queue c q)

/-- A physical queue without binders and entries is released, which Chimes the pool (R173). -/
def State.releaseQueue (s : State) (c q : Nat) : State :=
  let binders := s.threads.filter fun th => th.core == c && th.life != .spilled &&
    th.qb.toList.any fun b => b == some (BitVec.ofNat 6 q)
  if (s.entries c q).isEmpty && binders.isEmpty && (aget q (s.core c).queues).isSome then
    (s.modCore c fun k => { k with queues := adel q k.queues }).chime (.pool c)
  else s

/-- One naming of a queue register as a source takes its queue's oldest entry (R23). A queue that this leaves without binders
and entries is released (R173), in a pair only once both of its words have taken effect. -/
def State.popOne (s : State) (q : Nat) : State :=
  let p := s.popQueue s.t.core q
  if s.fr.pair then p else p.releaseQueue s.t.core q

/-- The pops of a word's operands (R23). A queue that the words of a pair leave empty is released after both (R173,
`State.releaseIdle`). -/
def State.popOps (s : State) (sh : Shape) : State :=
  (s.src.pops sh).foldl State.popOne s

/-- The word's check fails twice (R154). -/
def State.struck (s : State) : Bool := s.upset == (if s.fr.aw && s.fr.latch.isSome then 3 else 2)

/-- A cluster counts a poisoning (R154, R354). -/
def State.countPoison (s : State) (cl : Nat) : State :=
  s.modCluster cl fun k => { k with poisonings := k.poisonings + 1, poisonTimes := k.poisonTimes ++ [s.ticks] }

/-- Write registers in order: g0 discards, a queue register pushes (R11, R22). -/
def State.writeRegs (s : State) (o : OpSrc) : List (Nat × Word) → State
  | [] => s
  | (r, v) :: rs =>
    let x : Reg := { val := v, pois := s.struck }
    let s :=
      if o.isQueue r then
        match o.queueOf r with
        | some q => s.pushQueue s.t.core q x
        | none => s
      else if r = 0 then s
      else s.modT fun t => { t with regs := t.regs.set! r x }
    s.writeRegs o rs

/-- The values that fall to the registers of a destination: a quad at w0 discards its low half (R121). -/
def dstVals (d : Opd) (vals : List Word) : List (Nat × Word) :=
  match d with
  | .w r => if r = 0 then [] else (opRegs d).zip vals
  | .quad r => if r = 0 then (opRegs d).zip (vals.drop 2) else (opRegs d).zip vals
  | _ => (opRegs d).zip vals

/-- The words of a double word, low first (R7). -/
def wordsOf (v : DWord) : List Word := [v.extractLsb' 0 32, v.extractLsb' 32 32]

/-- Write a word's results to its destination (R10, R23). -/
def State.writeDst (s : State) (d : Opd) (vals : List Word) : State := s.writeRegs s.src (dstVals d vals)

/-- SetFlag for each flag raised; an instruction whose check fails twice raises none (R12, R154). -/
def State.setFlags (s : State) (f : Flags) : State :=
  if s.struck then s else s.modT fun t => { t with fctl := orFlags t.fctl f }

/-- The end of a word with results: its pops, its writes, its flags. -/
def State.put (s : State) (sh : Shape) (vals : List Word) (f : Flags) : State :=
  let s := s.popOps sh
  (s.writeDst sh.dst vals).setFlags f

/-- The end of a word without results. -/
def State.fin (s : State) (sh : Shape) : State := s.popOps sh

/-- No flag. -/
def noFlags : Flags := 0#5

/-- D, A and B are g registers. -/
def shG3 (d a b : RegNo) : Shape := { a := .g a, b := .g b, dst := .g d }
/-- D and A are g registers. -/
def shG2 (d a : RegNo) : Shape := { a := .g a, dst := .g d }
/-- D, A and B are g registers, and D is a source too (R93). -/
def shG3d (d a b : RegNo) : Shape := { a := .g a, b := .g b, dst := .g d, dsrc := .g d }
/-- D, A, B and C are g registers. -/
def shG4 (d a b c : RegNo) : Shape := { a := .g a, b := .g b, c := .g c, dst := .g d }
/-- D, A, B and C are w pairs. -/
def shW4 (d a b c : RegNo) : Shape := { a := .w a, b := .w b, c := .w c, dst := .w d }
/-- D, A and B are w pairs. -/
def shW3 (d a b : RegNo) : Shape := { a := .w a, b := .w b, dst := .w d }
/-- D and A are w pairs. -/
def shW2 (d a : RegNo) : Shape := { a := .w a, dst := .w d }
/-- A w pair shifted by a g register. -/
def shWg (d a b : RegNo) : Shape := { a := .w a, b := .g b, dst := .w d }
/-- Two w pairs compared into a g register. -/
def shGw (d a b : RegNo) : Shape := { a := .w a, b := .w b, dst := .g d }
/-- A w pair into a g register. -/
def shGw2 (d a : RegNo) : Shape := { a := .w a, dst := .g d }
/-- A g register into a w pair. -/
def shWg2 (d a : RegNo) : Shape := { a := .g a, dst := .w d }

/-- A 32-bit result of two g operands. -/
def State.alu (s : State) (sh : Shape) (f : Word → Word → Word) : Host.Outcome State Fault Refusal :=
  s.within sh fun v s => s.put sh [f (gOf v.a) (gOf v.b)] noFlags

/-- A 32-bit result of two g operands, with flags. -/
def State.aluF (s : State) (sh : Shape) (f : Word → Word → Word × Flags) : Host.Outcome State Fault Refusal :=
  s.within sh fun v s => let r := f (gOf v.a) (gOf v.b); s.put sh [r.1] r.2

/-- A 64-bit result of two w operands, with flags. -/
def State.aluW (s : State) (sh : Shape) (f : DWord → DWord → DWord × Flags) : Host.Outcome State Fault Refusal :=
  s.within sh fun v s => let r := f (wOf v.a) (wOf v.b); s.put sh (wordsOf r.1) r.2

/-- A 32-bit result of two w operands, with flags. -/
def State.aluWG (s : State) (sh : Shape) (f : DWord → DWord → Word × Flags) : Host.Outcome State Fault Refusal :=
  s.within sh fun v s => let r := f (wOf v.a) (wOf v.b); s.put sh [r.1] r.2

end Sys2Proof.Machine
end

