-- ==== Sys2Proof/Machine/Real.lean ====
section
/-! DEFINITION. Exact values and their rounding: Value and Encode (R40 to R42), RoundTo and Overflow
(R14, R15), the unsigned scale formats (R44), ToInteger and IntToInt (R46, R47), Convert (R45). A finite
value is an exact fraction of natural numbers with a sign. -/

namespace Sys2Proof.Machine

/-- The floating-point and scale formats (R40). -/
inductive Fmt where
  | f64 | f32 | f16 | bf16 | e5m2 | e4m3 | e2m1 | e8m0 | e3m5
  deriving DecidableEq, Repr

/-- The integer types (R39). -/
structure IntTy where
  signed : Bool
  width : Nat
  deriving DecidableEq, Repr

/-- A type of a conversion (R45, R78). -/
inductive NumTy where
  | flt (f : Fmt)
  | int (t : IntTy)
  deriving DecidableEq, Repr

/-- Stored width in bits (R40). -/
def Fmt.width : Fmt → Nat
  | .f64 => 64
  | .f32 => 32
  | .f16 | .bf16 => 16
  | .e5m2 | .e4m3 | .e8m0 | .e3m5 => 8
  | .e2m1 => 4

/-- Stored significand bits (R40). -/
def Fmt.mantBits : Fmt → Nat
  | .f64 => 52
  | .f32 => 23
  | .f16 => 10
  | .bf16 => 7
  | .e5m2 => 2
  | .e4m3 => 3
  | .e2m1 => 1
  | .e8m0 => 0
  | .e3m5 => 5

/-- The exponent bias (R40). -/
def Fmt.bias : Fmt → Nat
  | .f64 => 1023
  | .f32 | .bf16 | .e8m0 => 127
  | .f16 | .e5m2 => 15
  | .e4m3 => 7
  | .e2m1 => 1
  | .e3m5 => 3

/-- The exponent of the smallest normal value; for e8m0 the rule gives −127 (R40). -/
def Fmt.eMin : Fmt → Int
  | .e8m0 => -127
  | f => 1 - (f.bias : Int)

/-- The encoding of the largest finite value (R40). -/
def Fmt.maxBits : Fmt → Nat
  | .f64 => 0x7FEFFFFFFFFFFFFF
  | .f32 => 0x7F7FFFFF
  | .f16 => 0x7BFF
  | .bf16 => 0x7F7F
  | .e5m2 => 0x7B
  | .e4m3 => 0x7E
  | .e2m1 => 0x7
  | .e8m0 => 0xFE
  | .e3m5 => 0xFF

/-- Whether the format has infinities and NaNs at an exponent of all ones (R40, R41). -/
def Fmt.ieee : Fmt → Bool
  | .f64 | .f32 | .f16 | .bf16 | .e5m2 => true
  | _ => false

/-- Whether the format has a sign bit (R40). -/
def Fmt.hasSign : Fmt → Bool
  | .e8m0 | .e3m5 => false
  | _ => true

/-- The canonical NaN (R42); e2m1 has none and answers +6 (R15), e3m5 answers 0x00 (R44). -/
def Fmt.canonicalNaN : Fmt → Nat
  | .f64 => 0x7FF8000000000000
  | .f32 => 0x7FC00000
  | .f16 => 0x7E00
  | .bf16 => 0x7FC0
  | .e5m2 => 0x7E
  | .e4m3 => 0x7F
  | .e2m1 => 0x7
  | .e8m0 => 0xFF
  | .e3m5 => 0x00

/-- The value of an operand: a NaN, an infinity or an exact number ±num/den; a zero keeps its sign. -/
inductive Val where
  | nan (signalling : Bool)
  | inf (neg : Bool)
  | fin (neg : Bool) (num den : Nat)
  deriving DecidableEq, Repr

/-- The value is a NaN. -/
def Val.isNaN : Val → Bool
  | .nan _ => true
  | _ => false

/-- The value is a signalling NaN. -/
def Val.isSNaN : Val → Bool
  | .nan s => s
  | _ => false

/-- num · 2^k over den, as a fraction. -/
def finPow (neg : Bool) (num : Nat) (k : Int) : Val :=
  if 0 ≤ k then .fin neg (num * 2 ^ k.toNat) 1 else .fin neg num (2 ^ (-k).toNat)

/-- Value(fmt, b) (R41). -/
def valueOf (f : Fmt) (b : Nat) : Val :=
  match f with
  | .e8m0 => if b = 0xFF then .nan false else finPow false 1 ((b : Int) - 127)
  | f =>
    let m := b % 2 ^ f.mantBits
    let eb := f.width - f.mantBits - (if f.hasSign then 1 else 0)
    let e := b / 2 ^ f.mantBits % 2 ^ eb
    let neg := f.hasSign && b.testBit (f.width - 1)
    if f.ieee && e == 2 ^ eb - 1 then
      if m = 0 then .inf neg else .nan (!m.testBit (f.mantBits - 1))
    else if f = .e4m3 ∧ e = 15 ∧ m = 7 then .nan false
    else if e = 0 then finPow neg m (f.eMin - f.mantBits)
    else finPow neg (2 ^ f.mantBits + m) ((e : Int) - f.bias - f.mantBits)

/-- floor(log2(num/den)) for positive num and den. -/
def floorLog2 (num den : Nat) : Int :=
  let l : Int := (Nat.log2 num : Int) - Nat.log2 den
  -- 2^l ≤ num/den decides between l and l − 1
  let le := if 0 ≤ l then den * 2 ^ l.toNat ≤ num else den ≤ num * 2 ^ (-l).toNat
  if le then l else l - 1

/-- num/den divided by 2^k, as a fraction. -/
def scaleDown (num den : Nat) (k : Int) : Nat × Nat :=
  if 0 ≤ k then (num, den * 2 ^ k.toNat) else (num * 2 ^ (-k).toNat, den)

/-- Encode(fmt, v) for a value that the format holds (R41), with the canonical NaN for every NaN. -/
def encodeVal (f : Fmt) (v : Val) : Nat :=
  let signBit (neg : Bool) : Nat := if neg && f.hasSign then 2 ^ (f.width - 1) else 0
  match v with
  | .nan _ => f.canonicalNaN
  | .inf neg =>
    signBit neg + (f.maxBits + 1)
  | .fin neg num den =>
    if f = .e8m0 then
      if num = 0 then 0 else (floorLog2 num den + 127).toNat
    else if num = 0 then signBit neg
    else
      let e := max (floorLog2 num den) f.eMin
      let (n, d) := scaleDown num den (e - f.mantBits)
      let u := n / d
      if u < 2 ^ f.mantBits then signBit neg + u
      else signBit neg + ((e + f.bias).toNat * 2 ^ f.mantBits + (u - 2 ^ f.mantBits))

/-- The largest finite value of a format with a sign (R40). -/
def maxFinite (f : Fmt) (neg : Bool) : Val :=
  match valueOf f f.maxBits with
  | .fin _ n d => .fin neg n d
  | v => v

/-- Whether a magnitude lo + rem/den (in units of the last place) rounds up to lo + 1: the case arms of
RoundTo and ToInteger (R14, R46, R50). -/
def roundsUp (rm : Rm) (neg : Bool) (lo rem den rnd : Nat) : Bool :=
  if rem = 0 then false
  else
    match rm with
    | .rne => decide (den < 2 * rem) || (decide (2 * rem = den) && lo % 2 == 1)
    | .rtz => false
    | .rup => !neg
    | .rdn => neg
    | .rs => decide (2 ^ 32 ≤ rem * 2 ^ 32 / den + rnd)

/-- Overflow(fmt, s, rm, sat): the encoding and the flags OF and NX (R15). -/
def overflow (f : Fmt) (neg : Bool) (rm : Rm) (sat : Bool) : Nat × Flags :=
  let mx := encodeVal f (maxFinite f neg)
  let inf := encodeVal f (.inf neg)
  let r :=
    if sat then mx
    else match f with
      | .e4m3 => if neg then 0xFF else 0x7F
      | .e2m1 => mx
      | _ =>
        match rm with
        | .rne | .rs => inf
        | .rtz => mx
        | .rup => if neg then mx else inf
        | .rdn => if neg then inf else mx
  (r, flagOF ||| flagNX)

/-- NaNResult(fmt, x): the canonical NaN, NV for a signalling NaN; e2m1 answers +6 and NV (R15). -/
def nanResult (f : Fmt) (signalling : Bool) : Nat × Flags :=
  (f.canonicalNaN, flagIf (signalling || f == .e2m1) flagNV)

/-- The finite arm of RoundTo (R14) for num/den > 0: either an overflow, or the rounded magnitude with
NX and UF. -/
def roundFin (f : Fmt) (rm : Rm) (neg : Bool) (num den rnd : Nat) : Option (Val × Flags) :=
  let e := max (floorLog2 num den) f.eMin
  let k := e - f.mantBits
  let (n, d) := scaleDown num den k
  let lo := n / d
  let rem := n % d
  let y := if roundsUp rm neg lo rem d rnd then lo + 1 else lo
  let v := finPow neg y k
  -- y · 2^k is compared with MaxFinite and with 2^EMin as fractions
  let exceeds := match v, maxFinite f false with
    | .fin _ yn yd, .fin _ mn md => decide (mn * yd < yn * md)
    | _, _ => false
  let tiny := match v, finPow false 1 f.eMin with
    | .fin _ yn yd, .fin _ mn md => decide (yn * md < mn * yd)
    | _, _ => false
  if exceeds then none
  else some (v, flagIf (rem != 0) flagNX ||| flagIf (rem != 0 && tiny) flagUF)

/-- Encode(fmt, RoundTo(x, fmt, rm, sat, rnd)) with the flags raised (R14, R15), and R44's cases for
e8m0 and e3m5. -/
def roundTo (f : Fmt) (rm : Rm) (sat : Bool) (rnd : Nat) (x : Val) : Nat × Flags :=
  match f with
  | .e8m0 =>
    match x with
    | .nan _ => (0xFF, flagNV)
    | .inf true => (0xFF, flagNV)
    | .inf false => (if sat then 0xFE else 0xFF, flagOF ||| flagNX)
    | .fin neg n d =>
      if n = 0 then (0x00, flagUF ||| flagNX)
      else if neg then (0xFF, flagNV)
      else match roundFin .e8m0 rm false n d rnd with
        | none => (if sat then 0xFE else 0xFF, flagOF ||| flagNX)
        | some (v, fl) =>
          match v with
          | .fin _ 0 _ => (0x00, flagUF ||| flagNX)
          | v => (encodeVal .e8m0 v, fl)
  | .e3m5 =>
    match x with
    | .nan _ => (0x00, flagNV)
    | .inf true => (0x00, flagNV)
    | .inf false => (0xFF, flagOF ||| flagNX)
    | .fin neg n d =>
      if n = 0 then (0x00, 0#5)
      else if neg then (0x00, flagNV)
      else match roundFin .e3m5 rm false n d rnd with
        | none => (0xFF, flagOF ||| flagNX)
        | some (v, fl) => (encodeVal .e3m5 v, fl)
  | f =>
    match x with
    | .nan s => nanResult f s
    | .inf neg => overflow f neg rm sat
    | .fin neg n d =>
      if n = 0 then (encodeVal f (.fin neg 0 1), 0#5)
      else match roundFin f rm neg n d rnd with
        | none => overflow f neg rm sat
        | some (v, fl) => (encodeVal f v, fl)

/-- Every value of the first format is a value of the second, infinities included (R114). -/
def holdsEvery (src dst : Fmt) : Bool :=
  match dst, src with
  | .f64, .f32 | .f64, .f16 | .f64, .bf16 | .f64, .e4m3 | .f64, .e5m2 => true
  | .f32, .f16 | .f32, .bf16 | .f32, .e4m3 | .f32, .e5m2 | .f32, .e2m1 | .f32, .e8m0 | .f32, .e3m5 => true
  | .f16, .e4m3 | .f16, .e5m2 | .bf16, .e4m3 | .bf16, .e5m2 => true
  | _, _ => false

/-- The largest value of an integer type (R39). -/
def IntTy.maxInt (t : IntTy) : Int := if t.signed then 2 ^ (t.width - 1) - 1 else 2 ^ t.width - 1
/-- The least value of an integer type (R39). -/
def IntTy.minInt (t : IntTy) : Int := if t.signed then -(2 ^ (t.width - 1)) else 0
/-- The value of an encoding of an integer type (R41). -/
def IntTy.valueOf (t : IntTy) (b : Nat) : Int :=
  let u := b % 2 ^ t.width
  if t.signed && u.testBit (t.width - 1) then (u : Int) - 2 ^ t.width else u
/-- The encoding of an integer, reduced to the width (R39). -/
def IntTy.encode (t : IntTy) (x : Int) : Nat := (x % 2 ^ t.width).toNat

/-- An exact integer as a value. -/
def Val.ofInt (x : Int) : Val := .fin (decide (x < 0)) x.natAbs 1

/-- ToInteger(x, t, rm, rnd) (R46): the integer and the flags. -/
def toInteger (t : IntTy) (rm : Rm) (rnd : Nat) (x : Val) : Int × Flags :=
  match x with
  | .nan _ => (0, flagNV)
  | .inf false => (t.maxInt, flagNV)
  | .inf true => (t.minInt, flagNV)
  | .fin neg n d =>
    let lo := n / d
    let m := if roundsUp rm neg lo (n % d) d rnd then lo + 1 else lo
    let y : Int := if neg then -(m : Int) else m
    if t.maxInt < y then (t.maxInt, flagNV)
    else if y < t.minInt then (t.minInt, flagNV)
    else (y, flagIf (n % d != 0) flagNX)

/-- IntToInt(x, t, sat) (R47). -/
def intToInt (t : IntTy) (sat : Bool) (x : Int) : Int × Flags :=
  if sat then
    if t.maxInt < x then (t.maxInt, flagOF)
    else if x < t.minInt then (t.minInt, flagOF)
    else (x, 0#5)
  else (x, 0#5)

/-- Convert(b, src, dst, rm, sat, rnd) (R45): the encoding in the destination's width and the flags. -/
def convert (src dst : NumTy) (rm : Rm) (sat : Bool) (rnd b : Nat) : Nat × Flags :=
  match dst, src with
  | .int t, .int u =>
    let (x, fl) := intToInt t sat (u.valueOf b)
    (t.encode x, fl)
  | .int t, .flt f =>
    let (x, fl) := toInteger t rm rnd (valueOf f b)
    (t.encode x, fl)
  | .flt f, .int u => roundTo f rm sat rnd (.ofInt (u.valueOf b))
  | .flt f, .flt g =>
    match valueOf g b with
    | .inf neg => if holdsEvery g f then (encodeVal f (.inf neg), 0#5) else roundTo f rm sat rnd (.inf neg)
    | x => roundTo f rm sat rnd x

end Sys2Proof.Machine
end

