-- ==== Sys2Proof/Machine/Float.lean ====
section
/-! DEFINITION. Floating-point arithmetic on encodings (R103 to R111): each function takes the format,
the rounding mode and the operands' encodings, and answers the result's encoding and the flags. -/

namespace Sys2Proof.Machine

/-- The canonical NaN with NV where some operand is signalling (R103). -/
def nanOut (f : Fmt) (signalling : Bool) : Nat × Flags := (f.canonicalNaN, flagIf signalling flagNV)

/-- An invalid operation: the canonical NaN and NV (R103). -/
def invalid (f : Fmt) : Nat × Flags := (f.canonicalNaN, flagNV)

/-- The sum of two finite values: exact, rounded once; a zero takes its sign by the sum rule (R103). -/
def addFin (f : Fmt) (rm : Rm) (n1 : Bool) (a1 d1 : Nat) (n2 : Bool) (a2 d2 : Nat) : Nat × Flags :=
  let x : Int := (if n1 then -(a1 : Int) else a1) * d2 + (if n2 then -(a2 : Int) else a2) * d1
  if x = 0 then
    let neg := if a1 = 0 ∧ a2 = 0 ∧ n1 = n2 then n1 else decide (rm = .rdn)
    (encodeVal f (.fin neg 0 1), 0#5)
  else roundTo f rm false 0 (.fin (decide (x < 0)) x.natAbs (d1 * d2))

/-- The sum of two values (R103, R104). -/
def addVal (f : Fmt) (rm : Rm) (x y : Val) : Nat × Flags :=
  match x, y with
  | .nan s, v => nanOut f (s || v.isSNaN)
  | v, .nan s => nanOut f (s || v.isSNaN)
  | .inf s, .inf t => if s = t then (encodeVal f (.inf s), 0#5) else invalid f
  | .inf s, .fin _ _ _ => (encodeVal f (.inf s), 0#5)
  | .fin _ _ _, .inf s => (encodeVal f (.inf s), 0#5)
  | .fin n1 a1 d1, .fin n2 a2 d2 => addFin f rm n1 a1 d1 n2 a2 d2

/-- The value with its sign inverted; a NaN stays (R104). -/
def Val.negate : Val → Val
  | .nan s => .nan s
  | .inf neg => .inf (!neg)
  | .fin neg n d => .fin (!neg) n d

/-- `fadd` and its formats (R104). -/
def fpAdd (f : Fmt) (rm : Rm) (a b : Nat) : Nat × Flags := addVal f rm (valueOf f a) (valueOf f b)

/-- `fsub` and its formats (R104). -/
def fpSub (f : Fmt) (rm : Rm) (a b : Nat) : Nat × Flags := addVal f rm (valueOf f a) (valueOf f b).negate

/-- `fmul` and its formats (R104). -/
def fpMul (f : Fmt) (rm : Rm) (a b : Nat) : Nat × Flags :=
  match valueOf f a, valueOf f b with
  | .nan s, v => nanOut f (s || v.isSNaN)
  | v, .nan s => nanOut f (s || v.isSNaN)
  | .inf s, .inf t => (encodeVal f (.inf (s != t)), 0#5)
  | .inf s, .fin t n _ => if n = 0 then invalid f else (encodeVal f (.inf (s != t)), 0#5)
  | .fin s n _, .inf t => if n = 0 then invalid f else (encodeVal f (.inf (s != t)), 0#5)
  | .fin s n d, .fin t m e => roundTo f rm false 0 (.fin (s != t) (n * m) (d * e))

/-- `fdiv` and its formats (R104). -/
def fpDiv (f : Fmt) (rm : Rm) (a b : Nat) : Nat × Flags :=
  match valueOf f a, valueOf f b with
  | .nan s, v => nanOut f (s || v.isSNaN)
  | v, .nan s => nanOut f (s || v.isSNaN)
  | .inf _, .inf _ => invalid f
  | .inf s, .fin t _ _ => (encodeVal f (.inf (s != t)), 0#5)
  | .fin s _ _, .inf t => (encodeVal f (.fin (s != t) 0 1), 0#5)
  | .fin s n d, .fin t m e =>
    if m = 0 then
      if n = 0 then invalid f else (encodeVal f (.inf (s != t)), flagDZ)
    else roundTo f rm false 0 (.fin (s != t) (n * e) (d * m))

/-- The integer square root by bits: the greatest r, built from the bit 2^k down, with r² ≤ n. -/
def isqrtFrom : Nat → Nat → Nat → Nat
  | 0, _, r => r
  | k + 1, n, r =>
    let r' := r + 2 ^ k
    isqrtFrom k n (if r' * r' ≤ n then r' else r)

/-- The integer square root. -/
def isqrt (n : Nat) : Nat := isqrtFrom (Nat.log2 n / 2 + 1) n 0

/-- A fraction that every rounding of √(num/den), den a power of two, treats as that root: 160 binary
places of the root, and a last place that says whether anything lies below them (R103: the square root
is correctly rounded, and no format keeps more than 53 bits). -/
def sqrtVal (num den : Nat) : Val :=
  -- √(num/den) = √(num · den) / den
  let n := num * den * 2 ^ 320
  let r := isqrt n
  .fin false (2 * r + (if r * r = n then 0 else 1)) (den * 2 ^ 161)

/-- `fsqrt` and its formats (R104). -/
def fpSqrt (f : Fmt) (rm : Rm) (a : Nat) : Nat × Flags :=
  match valueOf f a with
  | .nan s => nanOut f s
  | .inf neg => if neg then invalid f else (encodeVal f (.inf false), 0#5)
  | .fin neg n d =>
    if n = 0 then (encodeVal f (.fin neg 0 1), 0#5)
    else if neg then invalid f
    else roundTo f rm false 0 (sqrtVal n d)

/-- `ffma` and its formats: a × b + c rounded once (R111). -/
def fpFma (f : Fmt) (rm : Rm) (a b c : Nat) : Nat × Flags :=
  let x := valueOf f a
  let y := valueOf f b
  let z := valueOf f c
  let snan := x.isSNaN || y.isSNaN || z.isSNaN
  if x.isNaN || y.isNaN then nanOut f snan
  else
    match x, y with
    | .inf s, .inf t => addInf (s != t) z snan
    | .inf s, .fin t n _ => if n = 0 then invalid f else addInf (s != t) z snan
    | .fin s n _, .inf t => if n = 0 then invalid f else addInf (s != t) z snan
    | .fin s n d, .fin t m e => addVal f rm (.fin (s != t) (n * m) (d * e)) z
    | _, _ => nanOut f snan
where
  /-- An infinite product and the addend. -/
  addInf (neg : Bool) (z : Val) (snan : Bool) : Nat × Flags :=
    match z with
    | .nan _ => nanOut f snan
    | .inf t => if t = neg then (encodeVal f (.inf neg), 0#5) else invalid f
    | .fin _ _ _ => (encodeVal f (.inf neg), 0#5)

/-- The order of two values that are no NaN, as −1, 0 or 1; zeros are equal. -/
def cmpVal : Val → Val → Int
  | .inf s, .inf t => if s = t then 0 else if s then -1 else 1
  | .inf s, _ => if s then -1 else 1
  | _, .inf t => if t then 1 else -1
  | .fin s n d, .fin t m e =>
    let x : Int := (if s then -(n : Int) else n) * e
    let y : Int := (if t then -(m : Int) else m) * d
    if x < y then -1 else if x = y then 0 else 1
  | _, _ => 0

/-- The sign of a value that is no NaN. -/
def Val.isNeg : Val → Bool
  | .inf neg => neg
  | .fin neg _ _ => neg
  | .nan _ => false

/-- x lies below y, with −0 below +0 (R16, R105). -/
def ltOrdered (x y : Val) : Bool :=
  let c := cmpVal x y
  decide (c < 0) || (decide (c = 0) && x.isNeg && !y.isNeg)

/-- `fmin` and `fmax` and their formats: an operand's bits, or the canonical NaN (R105). -/
def fpMinMax (f : Fmt) (wantMax : Bool) (a b : Nat) : Nat × Flags :=
  let x := valueOf f a
  let y := valueOf f b
  let r :=
    if x.isNaN && y.isNaN then f.canonicalNaN
    else if x.isNaN then b
    else if y.isNaN then a
    else if (if wantMax then ltOrdered x y else ltOrdered y x) then b else a
  (r, flagIf (x.isSNaN || y.isSNaN) flagNV)

/-- `feq` and its formats (R106). -/
def fpEq (f : Fmt) (a b : Nat) : Bool × Flags :=
  let x := valueOf f a
  let y := valueOf f b
  (!(x.isNaN || y.isNaN) && decide (cmpVal x y = 0), flagIf (x.isSNaN || y.isSNaN) flagNV)

/-- `flt` and its formats (R106). -/
def fpLt (f : Fmt) (a b : Nat) : Bool × Flags :=
  let x := valueOf f a
  let y := valueOf f b
  (!(x.isNaN || y.isNaN) && decide (cmpVal x y < 0), flagIf (x.isNaN || y.isNaN) flagNV)

/-- `fle` and its formats (R106). -/
def fpLe (f : Fmt) (a b : Nat) : Bool × Flags :=
  let x := valueOf f a
  let y := valueOf f b
  (!(x.isNaN || y.isNaN) && decide (cmpVal x y ≤ 0), flagIf (x.isNaN || y.isNaN) flagNV)

/-- `fun` and its formats (R106). -/
def fpUn (f : Fmt) (a b : Nat) : Bool × Flags :=
  let x := valueOf f a
  let y := valueOf f b
  (x.isNaN || y.isNaN, flagIf (x.isSNaN || y.isSNaN) flagNV)

/-- The class of an operand as a number 0 to 9 (R108). -/
def fpClassNo (f : Fmt) (a : Nat) : Nat :=
  let subnormal := a % 2 ^ (f.width - 1) < 2 ^ f.mantBits
  match valueOf f a with
  | .nan s => if s then 8 else 9
  | .inf neg => if neg then 0 else 7
  | .fin neg n _ =>
    if n = 0 then (if neg then 3 else 4)
    else if subnormal then (if neg then 2 else 5)
    else (if neg then 1 else 6)

/-- `fclass` and its formats (R108). -/
def fpClass (f : Fmt) (a : Nat) : Nat := 2 ^ fpClassNo f a

/-- `frnd` and its formats: an integral value of the format (R109). -/
def fpRoundInt (f : Fmt) (rm : Rm) (rnd a : Nat) : Nat × Flags :=
  match valueOf f a with
  | .nan s => nanOut f s
  | .inf _ => (a, 0#5)
  | .fin neg n d =>
    if n = 0 then (a, 0#5)
    else
      let lo := n / d
      let y := if roundsUp rm neg lo (n % d) d rnd then lo + 1 else lo
      (encodeVal f (.fin neg y 1), flagIf (n % d != 0) flagNX)

end Sys2Proof.Machine
end

