-- ==== Sys2Proof/Machine/Tree.lean ====
section
/-! DEFINITION. The architectural reduction tree (R16 to R18, R56 to R60) over encodings, for the
operations that `gred` and `coll.red` name (R73), and the nodes of the matrix engine. No node touches
`fctl` (R12). -/

namespace Sys2Proof.Machine

/-- The width of an operation's operands in bits (R73). -/
def RedOp.width : RedOp → Nat
  | .addF64 | .caddF32 | .addI64 | .maxF64 | .minF64 => 64
  | _ => 32

/-- A floating-point max or min node: a NaN dominates, −0 lies below +0 (R16). -/
def treeMinMax (f : Fmt) (wantMax : Bool) (a b : Nat) : Nat :=
  let x := valueOf f a
  let y := valueOf f b
  if x.isNaN || y.isNaN then f.canonicalNaN
  else if (if wantMax then ltOrdered x y else ltOrdered y x) then b else a

/-- A floating-point sum node: rne, the zero rule of R16, no flag. -/
def treeAdd (f : Fmt) (a b : Nat) : Nat := (fpAdd f .rne a b).1

/-- The exact sum of two finite values; 0 has no sign here. -/
def Val.plus : Val → Val → Val
  | .fin n1 a1 d1, .fin n2 a2 d2 =>
    let x : Int := (if n1 then -(a1 : Int) else a1) * d2 + (if n2 then -(a2 : Int) else a2) * d1
    .fin (decide (x < 0)) x.natAbs (d1 * d2)
  | v, _ => v

/-- The value is zero. -/
def Val.isZero : Val → Bool
  | .fin _ n _ => n == 0
  | _ => false

/-- The value is an infinity. -/
def Val.isInf : Val → Bool
  | .inf _ => true
  | _ => false

/-- A compensated pair as one 64-bit operand: h in the low word, l in the high word (R234). -/
def caddPair (h l : Nat) : Nat := h + l * 2 ^ 32

/-- The finite part of CaddNode, once s is finite and neither l is an infinity or a NaN (R235). -/
def caddFinite (h1 l1 h2 l2 s : Nat) : Nat :=
  let v := fun x => valueOf .f32 x
  let e := ((v h1).plus (v h2)).plus (v s).negate
  let sum := ((v l1).plus (v l2)).plus e
  let t :=
    if sum.isZero then (if l1 = 0x80000000 ∧ l2 = 0x80000000 ∧ e.isZero then 0x80000000 else 0)
    else (roundTo .f32 .rne false 0 sum).1
  if (v t).isZero then caddPair s t
  else
    let h := treeAdd .f32 s t
    if (v h).isInf then caddPair h 0
    else
      let l := ((v s).plus (v t)).plus (v h).negate
      caddPair h (if l.isZero then 0 else encodeVal .f32 l)

/-- CaddNode (R235). -/
def caddNode (x y : Nat) : Nat :=
  let h1 := x % 2 ^ 32
  let l1 := x / 2 ^ 32 % 2 ^ 32
  let h2 := y % 2 ^ 32
  let l2 := y / 2 ^ 32 % 2 ^ 32
  let v := fun x => valueOf .f32 x
  let nan := caddPair Fmt.f32.canonicalNaN Fmt.f32.canonicalNaN
  let opposite := fun a b => (v a).isInf && (v b).isInf && v a != v b
  if (v h1).isNaN || (v l1).isNaN || (v h2).isNaN || (v l2).isNaN || opposite h1 h2 then nan
  else
    let s := treeAdd .f32 h1 h2
    if (v s).isInf then caddPair s 0
    else if opposite l1 l2 then nan
    else if (v l1).isInf then caddPair l1 0
    else if (v l2).isInf then caddPair l2 0
    else caddFinite h1 l1 h2 l2 s

/-- TreeCombine of two present operands, over encodings (R16, R235). -/
def RedOp.combine (op : RedOp) (a b : Nat) : Nat :=
  match op with
  | .addF32 => treeAdd .f32 a b
  | .addF64 => treeAdd .f64 a b
  | .caddF32 => caddNode a b
  | .addI32 => (a + b) % 2 ^ 32
  | .addI64 => (a + b) % 2 ^ 64
  | .maxF32 => treeMinMax .f32 true a b
  | .minF32 => treeMinMax .f32 false a b
  | .maxF64 => treeMinMax .f64 true a b
  | .minF64 => treeMinMax .f64 false a b
  | .maxI32 => (minMaxS true (BitVec.ofNat 32 a) (BitVec.ofNat 32 b)).toNat
  | .minI32 => (minMaxS false (BitVec.ofNat 32 a) (BitVec.ofNat 32 b)).toNat
  | .and => a &&& b
  | .or => a ||| b
  | .xor => a ^^^ b

/-- Identity(op, fmt): the result of an empty reduction (R17). -/
def RedOp.identity : RedOp → Nat
  | .addF32 | .addF64 | .caddF32 | .addI32 | .addI64 | .or | .xor => 0
  | .maxF32 => 0xFF800000
  | .minF32 => 0x7F800000
  | .maxF64 => 0xFFF0000000000000
  | .minF64 => 0x7FF0000000000000
  | .maxI32 => 0x80000000
  | .minI32 => 0x7FFFFFFF
  | .and => 0xFFFFFFFF

/-- A node of two operands of which either may be absent (R16). -/
def combineOpt {α : Type} (f : α → α → α) : Option α → Option α → Option α
  | none, y => y
  | x, none => x
  | some a, some b => some (f a b)

/-- One level of the tree: neighbours meet, and a last node without a neighbour meets an absent one (R17). -/
def treeLevel {α : Type} (f : α → α → α) : List (Option α) → List (Option α)
  | x :: y :: l => combineOpt f x y :: treeLevel f l
  | l => l

/-- The levels of the tree, up to its root; the first number bounds them. -/
def treeLevels {α : Type} (f : α → α → α) : Nat → List (Option α) → Option α
  | _, [] => none
  | _, [x] => x
  | 0, x :: _ => x
  | n + 1, l => treeLevels f n (treeLevel f l)

/-- The root of the tree over some leaves, absent ones among them (R17). -/
def treeRoot {α : Type} (f : α → α → α) (leaves : List (Option α)) : Option α := treeLevels f leaves.length leaves

/-- The result of a reduction: every NaN is canonical, that of a leaf which met no other one too, whose
other member stays (R42, R234). -/
def RedOp.canon (op : RedOp) (x : Nat) : Nat :=
  let nan := fun (f : Fmt) (b : Nat) => (valueOf f b).isNaN
  match op with
  | .addF32 | .maxF32 | .minF32 => if nan .f32 x then Fmt.f32.canonicalNaN else x
  | .addF64 | .maxF64 | .minF64 => if nan .f64 x then Fmt.f64.canonicalNaN else x
  | .caddF32 =>
    let member := fun (b : Nat) => if nan .f32 b then Fmt.f32.canonicalNaN else b
    caddPair (member (x % 2 ^ 32)) (member (x / 2 ^ 32 % 2 ^ 32))
  | _ => x

/-- TreeReduce over encodings (R17, R42). -/
def RedOp.reduce (op : RedOp) (leaves : List (Option Nat)) : Nat :=
  op.canon ((treeRoot op.combine leaves).getD op.identity)

/-- A node of a piece that was delivered (R58). -/
structure Delivered where
  l : Nat
  j : Nat
  v : Nat
  deriving DecidableEq, Repr

/-- MergeNodes: the value of node (l, j) over the delivered nodes (R58). A span without a delivered node
holds no index below N. -/
def mergeNode (f : Nat → Nat → Nat) (ds : List Delivered) : Nat → Nat → Option Nat
  | 0, j => (ds.find? fun d => d.l == 0 && d.j == j).map (·.v)
  | l + 1, j =>
    match ds.find? fun d => d.l == l + 1 && d.j == j with
    | some d => some d.v
    | none =>
      if ds.any fun d => decide (d.l ≤ l + 1) && d.j / 2 ^ (l + 1 - d.l) == j then
        combineOpt f (mergeNode f ds l (2 * j)) (mergeNode f ds l (2 * j + 1))
      else none

end Sys2Proof.Machine
end

