-- ==== Sys2Proof/Machine/Groups.lean ====
section
/-! DEFINITION. Convened groups (R229 to R237): convocations, group operations, the ways to leave a group,
and the release of a group's accumulators (R238). -/

namespace Sys2Proof.Machine

/-- Change an entry of a cluster's group table. -/
def State.modGroup (s : State) (cl gid : Nat) (f : Group → Group) : State :=
  s.modCluster cl fun k => match aget gid k.groups with
    | some g => { k with groups := aset gid (f g) k.groups }
    | none => k

/-- An entry of a cluster's group table. -/
def State.group? (s : State) (cl gid : Nat) : Option Group := aget gid (s.cluster cl).groups

/-- Whether a job works on an accumulator (R238). -/
def Job.onAcc (j : Job) (a : Nat) : Bool :=
  match j.kind with
  | .tcopy | .scopy | .tfill => false
  | _ => j.acc == a

/-- The last queued or running job of an accumulator (R239). -/
def State.accJob (s : State) (cl a : Nat) : Option Job := ((s.cluster cl).jobs.filter fun j => j.onAcc a).getLast?

/-- Free an accumulator; its key Chimes (R238). -/
def State.freeAcc (s : State) (cl a : Nat) : State :=
  (s.modCluster cl fun k => { k with accs := adel a k.accs }).chime (.acc cl (BitVec.ofNat 2 a))

/-- Free the accumulators whose release waited for their jobs, then the group entries that only waited for
their accumulators (R236, R238). -/
def State.settleGroups (s : State) (cl : Nat) : State :=
  let s := (s.cluster cl).accs.foldl (fun s p =>
    if p.2.releasing && (s.accJob cl p.1).isNone then s.freeAcc cl p.1 else s) s
  (s.cluster cl).groups.foldl (fun s p =>
    if p.2.formed && p.2.departed.length == p.2.n && (s.cluster cl).accs.all (fun a => a.2.owner != some p.1) then
      (s.modCluster cl fun k => { k with groups := adel p.1 k.groups }).chime (.groupTable cl)
    else s) s

/-- Operation k of a group has completed: every rank has arrived for it or departed (R232). -/
def Group.complete (g : Group) (k : Nat) : Bool :=
  (List.range g.n).all fun r => g.departed.contains r || g.arrivals.any fun a => a.rank == r && a.op == k

/-- A member leaves its group: its rank departs, what waited for it completes, and the last one to leave
ends the group (R236). An arrival at a convocation that has not formed is withdrawn (R230); with its only arrival the model
frees the convocation's entry, size and all (assumption 68). -/
def State.leaveGroup (s : State) (key : Nat) : State :=
  let cl := clusterOf (key / 1024)
  (s.cluster cl).groups.foldl (fun s p =>
    let g := p.2
    if !g.members.contains key then s
    else if !g.formed then
      if g.members.length ≤ 1 then
        (s.modCluster cl fun k => { k with groups := adel p.1 k.groups }).chime (.groupTable cl)
      else s.modGroup cl p.1 fun g => { g with members := g.members.filter fun m => m != key }
    else
      let r := g.members.idxOf key
      if g.departed.contains r then s
      else
        let s := s.modGroup cl p.1 fun g => { g with departed := sinsert r g.departed }
        let g := { g with departed := sinsert r g.departed }
        let s := if g.arrivals.any (fun a => g.complete a.op) then s.chime (.group cl p.1) else s
        if g.departed.length = g.n then
          let mark := fun (a : Nat × Acc) =>
            if a.2.owner == some p.1 then (a.1, { a.2 with releasing := true }) else a
          (s.modCluster cl fun k => { k with accs := k.accs.map mark }).settleGroups cl
        else s) s

/-- Keep an effect with the operands that it recorded; the operands' queues pop now (R23). -/
def State.keep (s : State) (sh : Shape) (k : Kept) : State := (s.popOps sh).modT fun t => { t with kept := some k }

/-- The kept effect is done with. -/
def State.unkeep (s : State) : State := s.modT fun t => { t with kept := none }

/-- Form a group: its members take ranks in the order of (`tix`, `path`) (R230, R231). -/
def State.formGroup (s : State) (cl gid : Nat) : State :=
  match s.group? cl gid with
  | none => s
  | some g =>
    let ths := sortBy Thread.before (g.members.filterMap s.thread?)
    let keys := ths.map Thread.ckey
    let s := s.modGroup cl gid fun g => { g with formed := true, members := keys }
    (s.mapThreads fun th => if keys.contains th.ckey then { th with gid := some gid, gops := 0 } else th).chime
      (.group cl gid)

/-- Record the thread's arrival at a convocation, after Release(cluster) (R230). -/
def State.arriveConv (s : State) (cl gid : Nat) (g : Group) : State :=
  let s := s.release s.t.core .cluster
  let g := { g with members := g.members ++ [s.t.ckey] }
  let s := s.modCluster cl fun k => { k with groups := aset gid g k.groups }
  if g.members.length = g.n then s.formGroup cl gid else s

/-- The end of a `conv` whose arrival is recorded: it waits, or it takes its rank (R230). -/
def State.awaitConv (s : State) (sh : Shape) (gid : Nat) : State :=
  let cl := clusterOf s.t.core
  match s.group? cl gid with
  | none => s.unkeep
  | some g =>
    if !g.formed then s.park 4 (.group cl gid)
    else
      let s := (s.acquire s.t.core .cluster).unkeep
      let rank := BitVec.ofNat 32 (g.members.idxOf s.t.ckey)
      (s.modT fun t => { t with grank := rank, gsize := BitVec.ofNat 32 g.n }).put (recorded sh) [rank] noFlags

/-- `conv` (R230). -/
def execConv (d a b : RegNo) (s : State) : Host.Outcome State Fault Refusal :=
  let sh : Shape := { a := .w a, b := .g b, dst := .g d, det := true }
  match s.t.kept with
  | some { kind := .conv gid, .. } => s.within (recorded sh) fun _ s => s.awaitConv sh gid
  | _ => s.within sh fun v s =>
    let key := wOf v.a
    let n := (gOf v.b).toNat
    let cl := clusterOf s.t.core
    if s.t.gsize ≠ 0#32 then s.ill
    else if !canonical key then s.raise 0x04 key none
    else if key.toNat % 8 ≠ 0 then s.raise 0x03 key none
    else if n = 0 ∨ 1024 < n then s.ill
    else
      match (s.cluster cl).groups.find? fun p => !p.2.formed && p.2.lid == s.t.lid && p.2.key == key with
      | some (gid, g) =>
        if g.n ≠ n then s.ill
        else ((s.keep sh { kind := .conv gid, a := key, b := BitVec.ofNat 64 n }).arriveConv cl gid g).awaitConv sh gid
      | none =>
        let gid := freshKey 0 (s.cluster cl).groups
        if 64 ≤ gid then s.park 4 (.groupTable cl)
        else ((s.keep sh { kind := .conv gid, a := key, b := BitVec.ofNat 64 n }).arriveConv cl gid
          { lid := s.t.lid, key := key, n := n }).awaitConv sh gid

/-- Drop the arrivals for operations that every member left has passed (R232). -/
def State.pruneOps (s : State) (cl gid : Nat) : State :=
  match s.group? cl gid with
  | none => s
  | some g =>
    let counts := (g.members.filterMap s.thread?).filterMap fun th => if th.gid = some gid then some th.gops else none
    s.modGroup cl gid fun g => { g with arrivals := g.arrivals.filter fun a => counts.any fun c => decide (c ≤ a.op) }

/-- The arrivals for one operation agree in kind and root, and the root is a rank (R232). -/
def agree (n : Nat) (l : List GArrival) : Bool :=
  match l with
  | [] => true
  | a :: _ => l.all fun b => b.kind == a.kind && b.root == a.root && decide (b.root < n)

/-- The result of an operation that has completed (R233, R234). -/
def Group.result (g : Group) (k : Nat) (kind : GKind) (root : Nat) : DWord :=
  let l := g.arrivals.filter fun a => a.op == k
  match kind with
  | .bar => 0#64
  | .bcast | .bcast64 => ((l.find? fun a => a.rank == root).map (·.v)).getD 0#64
  | .red op =>
    BitVec.ofNat 64 (op.reduce ((List.range g.n).map fun r => (l.find? fun a => a.rank == r).map (·.v.toNat)))

/-- The end of a group operation whose arrival is recorded: it waits, or it completes or traps with the
others (R232). -/
def State.awaitOp (s : State) (sh : Shape) (words : DWord → List Word) : State :=
  let cl := clusterOf s.t.core
  match s.t.gid.bind fun gid => (s.group? cl gid).map fun g => (gid, g) with
  | none => s.unkeep
  | some (gid, g) =>
    let k := s.t.gops
    let l := g.arrivals.filter fun a => a.op == k
    if !g.complete k then s.park 4 (.group cl gid)
    else
      let own := l.find? fun a => a.rank == s.t.grank.toNat
      let s := (s.unkeep.modT fun t => { t with gops := t.gops + 1 }).pruneOps cl gid
      if !agree g.n l then s.ill
      else match own with
        | none => s
        | some a => (s.acquire s.t.core .cluster).put (recorded sh) (words (g.result k a.kind a.root)) noFlags

/-- GroupOp (R232): its operands are read at the first evaluation only. -/
def State.groupOp (s : State) (sh : Shape) (kind : GKind) (v root : Vals → DWord) (words : DWord → List Word) :
    Host.Outcome State Fault Refusal :=
  match s.t.kept with
  | some { kind := .groupOp, .. } => s.within (recorded sh) fun _ s => s.awaitOp sh words
  | _ => s.within sh fun vs s =>
    if s.t.gsize = 0#32 then s.ill
    else
      let cl := clusterOf s.t.core
      let gid := s.t.gid.getD 0
      let s := (s.release s.t.core .cluster).keep sh { kind := .groupOp, a := v vs, b := root vs }
      let arr : GArrival :=
        { rank := s.t.grank.toNat, op := s.t.gops, kind := kind, root := (root vs).toNat, v := v vs }
      let s := s.modGroup cl gid fun g => { g with arrivals := g.arrivals ++ [arr] }
      let s := match s.group? cl gid with
        | some g => if g.complete s.t.gops then s.chime (.group cl gid) else s
        | none => s
      s.awaitOp sh words

/-- `gbar` (R233). -/
def execGbar (s : State) : Host.Outcome State Fault Refusal :=
  s.groupOp { det := true } .bar (fun _ => 0#64) (fun _ => 0#64) fun _ => []

/-- `gbc` (R233). -/
def execGbc (d a b : RegNo) (s : State) : Host.Outcome State Fault Refusal :=
  s.groupOp { a := .g a, b := .g b, dst := .g d, det := true } .bcast (fun v => (gOf v.a).setWidth 64)
    (fun v => (gOf v.b).setWidth 64) fun r => [r.extractLsb' 0 32]

/-- `gbc.d` (R233). -/
def execGbcD (d a b : RegNo) (s : State) : Host.Outcome State Fault Refusal :=
  s.groupOp { a := .w a, b := .g b, dst := .w d, det := true } .bcast64 (fun v => wOf v.a)
    (fun v => (gOf v.b).setWidth 64) wordsOf

/-- `gdis` (R236). -/
def execGdis (s : State) : Host.Outcome State Fault Refusal :=
  s.within { det := true } fun _ s =>
    if s.t.gsize = 0#32 then s.ill
    else
      let s := (s.release s.t.core .cluster).leaveGroup s.t.ckey
      s.modT fun t => { t with grank := 0#32, gsize := 0#32, gid := none, gops := 0 }

/-- `gred` on g registers (R233, R234). -/
def State.gredG (s : State) (op : RedOp) (d a : RegNo) : Host.Outcome State Fault Refusal :=
  s.groupOp { a := .g a, dst := .g d, det := true } (.red op) (fun v => (gOf v.a).setWidth 64) (fun _ => 0#64)
    fun r => [r.extractLsb' 0 32]

/-- `gred` on w pairs (R233, R234). -/
def State.gredW (s : State) (op : RedOp) (d a : RegNo) : Host.Outcome State Fault Refusal :=
  s.groupOp { a := .w a, dst := .w d, det := true } (.red op) (fun v => wOf v.a) (fun _ => 0#64) wordsOf

/-- `gred.add.f32` (R233, R234). -/
def execGredAddF32 (d a : RegNo) (s : State) : Host.Outcome State Fault Refusal := s.gredG .addF32 d a

/-- `gred.add.f64` (R233, R234). -/
def execGredAddF64 (d a : RegNo) (s : State) : Host.Outcome State Fault Refusal := s.gredW .addF64 d a

/-- `gred.cadd.f32` (R233, R234). -/
def execGredCaddF32 (d a : RegNo) (s : State) : Host.Outcome State Fault Refusal := s.gredW .caddF32 d a

/-- `gred.add.i32` (R233, R234). -/
def execGredAddI32 (d a : RegNo) (s : State) : Host.Outcome State Fault Refusal := s.gredG .addI32 d a

/-- `gred.add.i64` (R233, R234). -/
def execGredAddI64 (d a : RegNo) (s : State) : Host.Outcome State Fault Refusal := s.gredW .addI64 d a

/-- `gred.max.f32` (R233, R234). -/
def execGredMaxF32 (d a : RegNo) (s : State) : Host.Outcome State Fault Refusal := s.gredG .maxF32 d a

/-- `gred.min.f32` (R233, R234). -/
def execGredMinF32 (d a : RegNo) (s : State) : Host.Outcome State Fault Refusal := s.gredG .minF32 d a

/-- `gred.max.f64` (R233, R234). -/
def execGredMaxF64 (d a : RegNo) (s : State) : Host.Outcome State Fault Refusal := s.gredW .maxF64 d a

/-- `gred.min.f64` (R233, R234). -/
def execGredMinF64 (d a : RegNo) (s : State) : Host.Outcome State Fault Refusal := s.gredW .minF64 d a

/-- `gred.max.i32` (R233, R234). -/
def execGredMaxI32 (d a : RegNo) (s : State) : Host.Outcome State Fault Refusal := s.gredG .maxI32 d a

/-- `gred.min.i32` (R233, R234). -/
def execGredMinI32 (d a : RegNo) (s : State) : Host.Outcome State Fault Refusal := s.gredG .minI32 d a

/-- `gred.and` (R233, R234). -/
def execGredAnd (d a : RegNo) (s : State) : Host.Outcome State Fault Refusal := s.gredG .and d a

/-- `gred.or` (R233, R234). -/
def execGredOr (d a : RegNo) (s : State) : Host.Outcome State Fault Refusal := s.gredG .or d a

/-- `gred.xor` (R233, R234). -/
def execGredXor (d a : RegNo) (s : State) : Host.Outcome State Fault Refusal := s.gredG .xor d a

end Sys2Proof.Machine
end

