-- ==== Sys2Proof/Machine/Contexts.lean ====
section
/-! DEFINITION. Contexts as their cores hold them: room and numbers (R33, R163), the start of a thread (R52,
R193, R331), the end of one (R137, R196, R198, R387), the deque's conversions (R194), and the spill engine
(R179 to R183). -/

namespace Sys2Proof.Machine

/-- The physical address of a cluster's backing pool: its die's pools lie side by side, in the order of their clusters
(R205, R358, assumption 12). -/
def State.backingPool (s : State) (cl : Nat) : Nat :=
  let d := cl / 64
  Config.backingBase d + Config.poolBytes * ((List.range (cl % 64)).filter fun i => !s.poolless.contains (64 * d + i)).length

/-- The backing page of an instance's page as a physical address (R205). -/
def State.backingPa (s : State) (i : Inst) (cl page : Nat) : Nat :=
  s.backingPool cl + 16384 * ((i.backing.drop page).headD 0)

/-- A page that a peer holds and in which a page's backing page lies (R205, R375). -/
def State.backingHeld (s : State) (cl : Nat) (lid : Word) (page : Nat) : Option Nat :=
  s.heldPage (s.backingPa (s.inst cl lid) cl page) 16384

/-- A page gets a frame again and is read back from its backing page, with its poison marks and those that its backing
page has got meanwhile (R125, R205). The bytes of a page lie in its backing page in the order of their interleave
addresses, and no table checks their traffic (assumption 65). A backing page that a peer holds is recalled first (R375). -/
def State.refillPage (s : State) (cl : Nat) (lid : Word) (page : Nat) : State :=
  let i := s.inst cl lid
  if !i.lost.contains page then s
  else if let some p := s.backingHeld cl lid page then s.recall p true
  else
    let bytes := cellReadN s.mem (s.backingPa i cl page) 16384
    let first := s.backingPa i cl page / 32
    let bad := (s.pois.filter fun p => decide (first ≤ p) && decide (p < first + 512)).flatMap fun p =>
      (List.range 32).map fun b => scratchSector (16384 * page + 32 * (p - first) + b)
    s.modInst cl lid fun i => { i with
      data := cellWriteN i.data (16384 * page) bytes, lost := sremove page i.lost, clean := aset page [] i.clean
      pois := bad.foldl (fun l k => sinsert k l) i.pois }

/-- Refill every page that some bytes touch. -/
def State.refillPages (s : State) (cl : Nat) (lid : Word) (as : List Nat) : State :=
  as.foldl (fun s a => s.refillPage cl lid (a / 16384)) s

/-- The modified bytes of a page with their offsets: of one that has been read back those written since, else all (R205). -/
def Inst.modified (i : Inst) (page : Nat) : List (Nat × Byte) :=
  match aget page i.clean with
  | some l => l.map fun a => (a % 16384, cellRead i.data a)
  | none => (List.range 16384).zip (cellReadN i.data (16384 * page) 16384)

/-- A page loses its frame: its modified bytes go to its backing page, where a sector that they write whole loses its poison
(R125, R205). In a page that a peer holds they wait at the home (R375). -/
def State.evictPage (s : State) (cl : Nat) (lid : Word) (page : Nat) : State :=
  let i := s.inst cl lid
  let pa := s.backingPa i cl page
  let cells := i.modified page
  let whole := fun k => (cells.filter fun c => c.1 / 32 == k).length == 32
  let s : State := match s.backingHeld cl lid page with
    | some p => { s.recall p false with heldBytes := s.heldBytes ++ cells.map fun c => (pa + c.1, c.2) }
    | none => { s with
        mem := if (aget page i.clean).isSome then cells.foldl (fun m c => cellWrite m (pa + c.1) c.2) s.mem
          else cellWriteN s.mem pa (cells.map Prod.snd)
        pois := s.pois.filter fun p => !(decide (pa / 32 ≤ p) && decide (p < pa / 32 + 512) && whole (p - pa / 32)) }
  s.modInst cl lid fun i => { i with
    data := i.data.filter fun c => c.1 / 16384 != page
    lost := sinsert page i.lost, clean := adel page i.clean }

/-- Frames of a cluster that are pinned (R205). -/
def Cluster.pinnedFrames (k : Cluster) : Nat :=
  ((k.insts.filter fun i => i.2.pinned).map fun i => i.2.size / 16384).sum

/-- Frames of a cluster in use: pinned ones, and those that unpinned pages have kept (R205). -/
def Cluster.usedFrames (k : Cluster) : Nat :=
  (k.insts.map fun i => i.2.size / 16384 - (if i.2.pinned then 0 else i.2.lost.length)).sum

/-- The frames that the pages of an instance hold (R204, R205). -/
def Inst.heldFrames (i : Inst) : List Nat :=
  ((List.range i.frames.length).filter fun p => i.pinned || !i.lost.contains p).map fun p => (i.frames.drop p).headD 0

/-- Frames that no page holds, lowest first (R204, assumption 5). -/
def Cluster.freeFrames (k : Cluster) : List Nat :=
  let used := k.insts.flatMap fun i => i.2.heldFrames
  (List.range 64).filter fun f => !used.contains f

/-- Free frames for the pages that have lost theirs (R205). -/
def Inst.reframed (i : Inst) (free : List Nat) : Inst :=
  { i with frames := (List.range i.frames.length).map fun p =>
      if i.lost.contains p then (free.drop (i.lost.idxOf p)).headD 0 else (i.frames.drop p).headD 0 }

/-- Backing pages that no instance holds, lowest first; R205 leaves the choice open (assumption 65). -/
def Cluster.freeBacking (k : Cluster) : List Nat :=
  let used := k.insts.flatMap fun i => i.2.backing
  (List.range 1024).filter fun p => !used.contains p

/-- The pages of a cluster that may lose their frame for a launch: those of the other unpinned instances (R205). -/
def Cluster.loosePages (k : Cluster) (lid : Word) : List (Word × Nat) :=
  (k.insts.filter fun i => !i.2.pinned && i.1 != lid.toNat).flatMap fun i =>
    ((List.range (i.2.size / 16384)).filter fun p => !i.2.lost.contains p).map fun p => (BitVec.ofNat 32 i.1, p)

/-- Free n frames of a cluster for a launch's pin; which unpinned page of another one leaves is the hardware's choice
(R205, assumption 5). The last number bounds the pages. -/
def State.takeFrames (s : State) (cl : Nat) (lid : Word) (n : Nat) : Nat → State
  | 0 => s
  | k + 1 =>
    if (s.cluster cl).usedFrames + n ≤ 64 then s
    else
      let pages := (s.cluster cl).loosePages lid
      let (v, s) := s.draw
      match (pages.drop (v % pages.length)).head? with
      | some (l, p) => (s.evictPage cl l p).takeFrames cl lid n k
      | none => s

/-- The instance of a launch in a cluster, made when its first thread is placed there (R202, R205). -/
def State.ensureInst (s : State) (cl : Nat) (lid : Word) (size grp : Nat) : State :=
  if (aget lid.toNat (s.cluster cl).insts).isSome then s
  else
    let n := size / 16384
    let s := s.takeFrames cl lid n 64
    s.modCluster cl fun k => { k with
      insts := aset lid.toNat
        { size := size, grp := grp, backing := k.freeBacking.take n, frames := k.freeFrames.take n } k.insts }

/-- A cluster has the frames and backing pages for an instance of a launch, or holds it (R205, R329). -/
def State.instFits (s : State) (cl : Nat) (lid : Word) (size : Nat) : Bool :=
  let k := s.cluster cl
  (aget lid.toNat k.insts).isSome ||
    (decide (k.pinnedFrames + size / 16384 ≤ 64) && decide (size / 16384 ≤ k.freeBacking.length))

/-- Blocks of a core's register file (R33). -/
def Core.blocks (k : Core) : Nat := if k.detect then 4608 else 4096

/-- Blocks in use on a core (R33). -/
def State.usedBlocks (s : State) (c : Nat) : Nat :=
  ((s.ofCore c).filter Thread.resident).foldl (fun n th => n + th.blocks) 0

/-- Resident contexts of a core (R33). -/
def State.residents (s : State) (c : Nat) : Nat := ((s.ofCore c).filter Thread.resident).length

/-- The lowest free context number of a core, 1,024 when none is free (R163). -/
def State.freeNum (s : State) (c : Nat) : Nat :=
  ((List.range 1024).find? fun n => (s.thread? (1024 * c + n)).isNone).getD 1024

/-- The core's protection mode allows a launch of the given mode: it is equal, or the core is empty (R33). -/
def State.modeFits (s : State) (c : Nat) (detect : Bool) : Bool :=
  (s.core c).detect == detect || (s.ofCore c).isEmpty

/-- A context of so many blocks fits on a core without a spill (R33, R163). -/
def State.fits (s : State) (c blocks : Nat) (detect : Bool) : Bool :=
  decide (s.freeNum c < 1024) && decide (s.residents c < 512) && s.modeFits c detect &&
    decide (s.usedBlocks c + blocks ≤ ({ s.core c with detect := detect } : Core).blocks)

/-- SVEC of the boot map (R25, R358). -/
def State.bootSvec (s : State) : DWord :=
  BitVec.ofNat 64 (leNat (cellReadN s.mem (bits s.bmap 51 14 * 16384 + 40) 8)) &&& ~~~7#64

/-- `tctl` at a thread's start (R28, R193, R331). -/
def tctlStart (flags : BitVec 16) (mode : Bool) : Word :=
  BitVec.ofNat 32 ((if flags.getLsbD 2 then 2 else 0) + (if flags.getLsbD 0 then 4 else 0) +
    (if flags.getLsbD 1 then 8 else 0) + (if mode then 64 else 0))

/-- Give a context slot of a core to a new thread: its generation grows by 1 each time, the first time from the 0 that
the slot holds at reset (R152, R163, assumption 9). -/
def State.takeSlot (s : State) (c num : Nat) : BitVec 10 × State :=
  let g := (aget num (s.core c).gens).getD 0#10 + 1#10
  (g, s.modCore c fun k => { k with gens := aset num g k.gens })

/-- The lowest free slot of a deterministic launch's commit area (R338). -/
def State.freeCommit (s : State) (lid : Word) : Nat :=
  let used := (s.ofLaunch lid).map (·.slot)
  ((List.range (used.length + 1)).find? fun i => !used.contains i).getD used.length

/-- Start a thread of a launch on a core, in its lowest free context number (R29, R52, R193, R273, R331). -/
def State.startThread (s : State) (c : Nat) (lid : Word) (l : Launch) (tix : Word) (path pc : DWord) (mode : Bool)
    (regs : List (Nat × Word)) : Nat × State :=
  let num := s.freeNum c
  let s := if (s.ofCore c).isEmpty then s.modCore c fun k => { k with detect := l.pkt.flags.getLsbD 1 } else s
  let slot := s.freeCommit lid
  let s := s.ensureInst (clusterOf c) lid l.pkt.scratch (if l.pkt.cgrp = 0 then 0 else tix.toNat / l.pkt.cgrp)
  let (gen, s) := s.takeSlot c num
  let th : Thread :=
    { core := c, num := num, gen := gen, blocks := l.pkt.nreg, tix := tix, tcnt := l.pkt.tcnt, lid := lid,
      tctl := tctlStart l.pkt.flags mode, rngs := rngStart l.seed tix, path := path, tvec := l.pkt.tvec &&& ~~~7#64,
      svec := s.bootSvec, ht := s.stime, asn := l.asn, pc := pc, slot := slot,
      regs := regs.foldl (fun v p => v.set! p.1 { val := p.2 }) (Vector.replicate 64 {}) }
  (th.ckey, s.putThread th)

/-- An entry of a cluster's ring table. -/
def State.ring? (s : State) (cl i : Nat) : Option Ring := aget i (s.cluster cl).rings

/-- Change an entry of a cluster's ring table. -/
def State.modRing (s : State) (cl i : Nat) (f : Ring → Ring) : State :=
  s.modCluster cl fun k => match aget i k.rings with
    | some r => { k with rings := aset i (f r) k.rings }
    | none => k

/-- Release an entry that has no binder and no job (R207). -/
def State.releaseRing (s : State) (cl i : Nat) : State :=
  match s.ring? cl i with
  | none => s
  | some r =>
    let bound := s.threads.any fun th =>
      clusterOf th.core == cl && th.rings.toList.any fun k => k == some (BitVec.ofNat 6 i)
    if bound || r.jobs ≠ 0 then s
    else (s.modCluster cl fun k => { k with rings := adel i k.rings }).chime (.ringFree cl)

/-- A job of the tile copy engine. -/
def Job.copies (j : Job) : Bool :=
  match j.kind with
  | .tcopy | .scopy | .tfill => true
  | _ => false

/-- The regions whose token a handle holds (R267, R270): their entries stand in the region table. -/
def State.tokensOf (s : State) (h : Word) : List Nat :=
  (s.mem.filterMap fun c =>
    if Config.regionTable ≤ c.1 ∧ c.1 < Config.regionTable + 8 * 393216 ∧ c.1 % 8 = 0 then
      some ((c.1 - Config.regionTable) / 8) else none).filter fun r =>
    let e := s.regionEntry r
    dbit e 3 && e.extractLsb' 32 32 == h

/-- The line belongs to a region. -/
def Line.inRegion (l : Line) (r : Nat) : Bool := 128 * l.n / 2097152 == r

/-- Hand back the token of a region (R270): the release at system scope, the invalidation, and the entry. -/
def State.dropToken (s : State) (c r : Nat) : State :=
  let s := (s.release c .system).dropWhere c fun l => l.inRegion r
  s.setRegionEntry r (s.regionEntry r &&& 0xFFFFFFF7#64)

/-- A launch's instance in a cluster ends once no context of the launch is left there and no engine job; its
ring entries go with it (R202, R226). -/
def State.settleInst (s : State) (cl : Nat) (lid : Word) : State :=
  if lid = 0#32 || s.threads.any (fun th => clusterOf th.core == cl && th.lid == lid && !th.boot) ||
      (s.cluster cl).jobs.any (fun j => j.lid == lid) then s
  else
    let gone := (s.cluster cl).rings.filter fun p => p.2.lid == lid
    let s := s.modCluster cl fun k =>
      { k with insts := adel lid.toNat k.insts, rings := k.rings.filter fun p => p.2.lid != lid }
    if gone.isEmpty then s else s.chime (.ringFree cl)

/-- Release a physical queue with its entries (R173). -/
def State.dropQueue (s : State) (c q : Nat) : State :=
  (s.modCore c fun k => { k with queues := adel q k.queues }).chime (.pool c)

/-- Retire(): the thread hands back its tokens, leaves its group, unbinds its queues and its rings, and its
blocks and its slot are free (R137, R173, R174, R191, R202, R207, R270). -/
def State.retire (s : State) (key : Nat) : State :=
  match s.thread? key with
  | none => s
  | some th =>
    let s := (s.tokensOf th.handle).foldl (fun s r => s.dropToken th.core r) s
    let s := s.leaveGroup key
    let bound := th.qb.toList.filterMap fun q => q.map BitVec.toNat
    let s := s.putThread { th with life := .exited }
    let s := bound.foldl (fun s q => s.releaseQueue th.core q) s
    let cl := clusterOf th.core
    let s := (th.rings.toList.filterMap id).foldl (fun s k => s.releaseRing cl k.toNat) s
    let s := s.settleInst cl th.lid
    if (s.ofCore th.core).any (fun o => o.lid == th.lid) then s
    else (s.core th.core).queues.foldl (fun s p => if p.2.lid == th.lid then s.dropQueue th.core p.1 else s) s

/-- The entries of a core's deque that a context owns, oldest first (R186). -/
def Core.owned (k : Core) (h : Word) : List Entry := k.deque.filter fun e => e.owner == h && !e.orphan

/-- Write an entry of the overflow area anew (R187); a refused write is counted and reported (R311). -/
def State.storeEntry (s : State) (c : Nat) (e : Entry) : State :=
  match e.slot with
  | none => s
  | some i =>
    match s.uncorePa 2 ((s.core c).dqa.extractLsb' 0 16) ((s.core c).slotVa i) .write with
    | some pa => s.agentWrite pa e.bytes
    | none => s.uncoreRefused 2 ((s.core c).dqa.extractLsb' 0 16) ((s.core c).slotVa i) .write (some c)

/-- An entry of a deque comes back from the overflow area, if its core holds it there (R187): the read is the deque
overflow's, an uncore agent's (R308, R310), and none where it cannot be made. A page that a peer holds is recalled, and a
refused read is counted (R311, R375). -/
def State.fetchEntry (s : State) (c : Nat) (e : Entry) : Option State × State :=
  match e.slot with
  | none => (some s, s)
  | some i =>
    let asn := (s.core c).dqa.extractLsb' 0 16
    let va := (s.core c).slotVa i
    match s.uncoreHeld asn va with
    | some page => (none, s.recall page true)
    | none => match s.uncorePa 2 asn va .read with
      | some pa => (some (s.takeGrant pa false), s)
      | none => (none, s.uncoreRefused 2 asn va .read (some c))

/-- The stub that a conversion creates for an entry's owner (R194). -/
def Entry.stub (e : Entry) : Entry := { e with kind := 2, pc := 0#64, cjoin := 0#64, orphan := false }

/-- An owner's stub in a deque. -/
def stubOf (dq : List Entry) (h : Word) : Option Entry := dq.find? fun e => e.kind == 2 && e.owner == h && !e.orphan

/-- The conversion of an entry that is taken (R194): the owner's stub goes, and a new one takes the entry's
place; the entry taken carries the old stub's join block. -/
def convertTaken (dq : List Entry) (e : Entry) : Entry × List Entry :=
  match stubOf dq e.owner with
  | none => ({ e with cjoin := 0#64 }, dq.map fun x => if x = e then e.stub else x)
  | some st =>
    ({ e with cjoin := st.join }, (dq.filter fun x => x ≠ st).map fun x => if x = e then e.stub else x)

/-- The conversion of an entry that stays (R196): the new stub stands where the old one stood, or directly
before the entry, which keeps its place without an owner. -/
def convertStaying (dq : List Entry) (e : Entry) : List Entry :=
  match stubOf dq e.owner with
  | none => dq.flatMap fun x =>
      if x = e then [{ e.stub with slot := none }, { e with cjoin := 0#64, orphan := true }] else [x]
  | some st => dq.map fun x =>
      if x = st then { e.stub with slot := st.slot, seq := st.seq }
      else if x = e then { e with cjoin := st.join, orphan := true } else x

/-- The fault record of a thread that is not in execution (R150, R302, R387). -/
def Thread.record (th : Thread) (va : DWord) (cause kind flags : Nat) : FaultRec :=
  { va := va, pc := th.pc, resume := th.pc, path := th.path, handle := th.handle, tix := th.tix, lid := th.lid, asn := th.asn,
    cause := cause, kind := kind, flags := flags, tprog := th.tprog.toNat % 65536, core := th.core }

/-- Subtract 1 from the PEND of a join block at its home (R184), which for a peer page is its owner's (R376); no store
changes the region table (R267). -/
def State.decrementAt (s : State) (c pa : Nat) : State :=
  if touchesRegions (s.homeAddr pa) 8 then s
  else
    let s := (s.returnPage pa false).atHome c (s.homeAddr pa)
    s.atomicWrite c pa (leBytes 8 (s.memDword pa - 1#64).toNat)

/-- A decrement of a join block that the core's uncore makes for a thread that ends (R387). A page that is being
migrated takes no record, as R299 gives; one that a peer holds is recalled, and the decrement is made once it is back
(R375, R376). -/
def State.decrement (s : State) (th : Thread) (va : DWord) : State :=
  let die := dieOf th.core
  let flags := faultFlags 3 false false th.mode th.tr 4
  let bad := fun (s : State) cause => s.postRecord die (th.record va cause 3 flags) none none
  let page := (th.asn, vpnOf va)
  let hold := fun (s : State) (page : Option Nat) => s.modLaunch th.lid fun l => { l with pend := l.pend ++
    [{ va := va, core := th.core, mode := th.mode, handle := th.handle, tix := th.tix, path := th.path, page := page }] }
  let x := s.walkXl th.asn va
  let s := if th.boot then s else s.noteXl th.asn va
  if th.boot then s.decrementAt th.core va.toNat
  else match x with
  | .bad => bad s 0x0B
  | .miss =>
    let s := hold s none
    if (s.die die).outst.contains page then s
    else (s.outstand die page).postRecord die (th.record va 0x0A 1 flags) none none
  | .mig => hold s none
  | .held page => hold (s.recall page true) (some page)
  | .hit e =>
    let pa := e.pa va
    if !e.permits th.mode .atomic then bad s 0x06
    else if !e.grantsTo (if th.mode then 1 else 0) .atomic then bad s 0x0F
    else if !(s.place pa).isMemory then bad (s.refuse th.master pa .atomic (some th.core)) 0x0F
    else if s.heldByPeer (s.homeAddr pa) then
      hold (s.recall (s.homeAddr pa / 65536) false) (some (s.homeAddr pa / 65536))
    else s.decrementAt th.core pa

/-- The virtual address of a buffered line, by the page through which its latest store went (R13, R298). -/
def slineVa (line : Nat) (vpn : BitVec 41) : DWord :=
  BitVec.ofNat 64 ((BitVec.signExtend 48 vpn).toNat * 65536 + 128 * line % 65536)

/-- Where a buffered line whose translation has gone lies now (R298): its new line with the size of its page, or nowhere,
where its thread may not write any more and its bytes are dropped (R311, assumption 66); none while it has no translation. -/
def State.slineNow (s : State) (th : Thread) (line : Nat) (vpn : BitVec 41) : Option (Option (Nat × Nat)) :=
  let va := slineVa line vpn
  match s.walkXl th.asn va with
  | .hit e =>
    if e.permits th.mode .write && e.grantsTo (if th.mode then 1 else 0) .write then
      some (some (lineNo (s.homeAddr (e.pa va)), e.page))
    else some none
  | .bad => some none
  | _ => none

/-- A thread whose buffered lines have moved, each to a line or nowhere (R126, R298). -/
def Thread.rebuffered (th : Thread) (dest : List (Nat × Option (Nat × Nat))) : Thread :=
  let now := fun n => (dest.find? fun d => d.1 == n).map Prod.snd
  { th with
    sbuf := th.sbuf.foldl (fun b c => match (if c.1 < 2 ^ 60 then now (lineNo c.1) else none) with
      | none => aset c.1 c.2 b
      | some none => b
      | some (some x) => aset (128 * x.1 + c.1 % 128) c.2 b) []
    swhole := th.swhole.filterMap fun w => match now (w / 4) with
      | none => some w
      | some none => none
      | some (some x) => some (4 * x.1 + w % 4)
    slines := th.slines.foldl (fun b l => match now l.1 with
      | none => aset l.1 l.2 b
      | some none => b
      | some (some x) => aset x.1 (l.2.1, x.2, false) b) [] }

/-- The buffered stores of a thread whose translations a shootdown has removed are translated again (R298): while one has
no translation, its page gets a record as a thread's does (R299, R300), and a page of the tables that a peer holds is
recalled (R375). Those of a spilled context wait in its commit slot until it has been read back (R338). -/
def State.retranslate (s : State) (key : Nat) : State :=
  match s.thread? key with
  | none => s
  | some th =>
    if !th.resident then s
    else
    let stale := th.slines.filter fun l => l.2.2.2
    let s := stale.foldl (fun s l => s.noteXl th.asn (slineVa l.1 l.2.1)) s
    let dest := stale.filterMap fun l => (s.slineNow th l.1 l.2.1).map fun x => (l.1, x)
    let s := s.putThread (th.rebuffered dest)
    match stale.find? fun l => (s.slineNow th l.1 l.2.1).isNone with
    | none => s
    | some l =>
      let va := slineVa l.1 l.2.1
      let page := (th.asn, vpnOf va)
      let die := dieOf th.core
      match s.walkXl th.asn va with
      | .held p => s.recall p true
      | .miss =>
        if (s.die die).outst.contains page then s
        else (s.outstand die page).postRecord die (th.record va 0x0A 1 (faultFlags 1 false false th.mode th.tr 0)) none none
      | _ => s

/-- What `tkill`, `exit` and a retirement do with the deque entries that a thread owns (R196, R198). -/
def State.releaseEntries (s : State) (th : Thread) : State :=
  let c := th.core
  let h := th.handle
  let s := (((s.core c).owned h).filter fun e => e.kind == 1).foldl (fun s e =>
    let s := s.modCore c fun k => { k with deque := convertStaying k.deque e }
    (s.core c).deque.foldl (fun s x => s.storeEntry c x) s) s
  match th.owed, stubOf (s.core c).deque h with
  | some st, _ => s.decrement th st.join
  | none, none => s
  | none, some st => (s.decrement th st.join).modCore c fun k => { k with deque := k.deque.filter fun x => x ≠ st }

/-- The kill of a thread at its instruction boundary (R196). -/
def State.kill (s : State) (key : Nat) : State :=
  match s.thread? key with
  | none => s
  | some th => ((s.release th.core .system).releaseEntries th).retire key

/-- A number for a park's key in a context record (R170, R181). -/
def keyNumber : Key → Nat
  | .line pa | .join pa => pa
  | .ring _ e => e
  | .ringFree _ => 64
  | .engineQueue _ => 65
  | .job _ _ n => 2 ^ 32 + n.toNat
  | .group _ g => g
  | .groupTable _ => 64
  | .acc _ a => 128 + a.toNat
  | .coll m k => 256 + m * 2 ^ 32 + k
  | .queue _ q => q
  | .page asn v => v.toNat * 65536 + asn.toNat
  | .pool c | .mailbox c => c
  | .launchQueue q => q.toNat

/-- The value that n-bit fields give, the first one lowest. -/
def packBits (n : Nat) : List Nat → Nat
  | [] => 0
  | x :: l => x % 2 ^ n + 2 ^ n * packBits n l

/-- The 2-bit mark code with which the register file stores a register: its residue, or 11 for poison (R177). -/
def Reg.code (r : Reg) : BitVec 2 := if r.pois then 3#2 else BitVec.ofNat 2 (r.val.toNat % 3)

/-- The mark of a register in a record, into which the spill engine converts its mark code: residue and poison in bits
of their own (R153, R177, R181). -/
def Reg.mark (r : Reg) : Nat := if r.code = 3#2 then r.val.toNat % 3 + 4 else r.code.toNat

/-- A ring handle as a context record holds it (R181). -/
def ringByte (r : Option (BitVec 6)) : Byte :=
  match r with
  | some k => BitVec.ofNat 8 (128 + k.toNat)
  | none => 0#8

/-- A register as a context record holds it: one that is not allocated is 0 (R181). -/
def Thread.savedReg (th : Thread) (i : Nat) : Reg :=
  if i = 0 ∨ 8 * th.blocks ≤ i ∧ i < 60 then {} else th.regs[i]!

/-- The flags byte of a context record (R181). -/
def Thread.recordFlags (th : Thread) : Nat :=
  (if th.wake then 1 else 0) + (if th.halted then 2 else 0) + (if th.stepMark then 4 else 0) + (if th.killPend then 8 else 0)

/-- The identity and the state of a context, as its record gives them (R181). -/
def Thread.recordHead (th : Thread) : List Byte :=
  leBytes 8 th.pc.toNat ++ leBytes 8 ((th.park.map fun p => keyNumber p.key).getD 0) ++
  leBytes 1 (if th.frec.isSome then 2 else 1) ++ leBytes 1 ((th.park.map (·.reason)).getD 0) ++
  leBytes 1 th.recordFlags ++ leBytes 1 th.blocks ++ leBytes 4 th.handle.toNat ++ leBytes 8 th.ht.toNat

/-- The special registers of a context, as its record gives them (R181). -/
def Thread.recordSpecial (th : Thread) : List Byte :=
  leBytes 4 th.tix.toNat ++ leBytes 4 th.tcnt.toNat ++ leBytes 4 th.lid.toNat ++ leBytes 4 th.grank.toNat ++
  leBytes 4 th.gsize.toNat ++ leBytes 4 th.fctl.toNat ++ leBytes 4 th.tctl.toNat ++ leBytes 4 th.rngs.toNat ++
  leBytes 8 th.path.toNat ++ leBytes 8 th.tepc.toNat ++ leBytes 8 th.tval.toNat ++ leBytes 8 th.tvec.toNat ++
  leBytes 8 th.svec.toNat ++ leBytes 8 th.sscratch.toNat ++ leBytes 4 th.tcause.toNat ++ leBytes 4 th.tprog.toNat

/-- Bytes 0 to 507 of a context record (R181); `qbind` has the bytes of QBIND. -/
def Thread.recordBytes (th : Thread) (qbind : List Nat) : List Byte :=
  let regs := (List.range 64).map th.savedReg
  th.recordHead ++ th.recordSpecial ++ th.rings.toList.map ringByte ++ leBytes 64 th.wfilter.toNat ++
  regs.flatMap (fun r => leBytes 4 r.val.toNat) ++ leBytes 24 (packBits 3 (regs.map Reg.mark)) ++
  qbind.flatMap (leBytes 1) ++ List.replicate 32 0#8

/-- Append the CRC of a record (R181). -/
def withCrc (bs : List Byte) : List Byte := bs ++ leBytes 4 (crc32 bs)

/-- A context that its record has given, with the flags of which the record does not know yet (R179, R181, R196). -/
def Thread.withFlags (th o : Thread) : Thread :=
  if o.reflag then { th with wake := o.wake, halted := o.halted, stepMark := o.stepMark, killPend := o.killPend } else th

/-- A context as its record gives it; the places, the park and the model's own fields stay (R181, R183). -/
def Thread.restored (th : Thread) (bs : List Byte) : Thread :=
  let f := fun off n => field bs off n
  let w := fun off => BitVec.ofNat 32 (f off 4)
  let d := fun off => BitVec.ofNat 64 (f off 8)
  let marks := f 448 24
  let fl := f 18 1
  { th with
    pc := d 0, wake := fl.testBit 0, halted := fl.testBit 1, stepMark := fl.testBit 2, killPend := fl.testBit 3,
    blocks := f 19 1, ht := d 24, tix := w 32, tcnt := w 36, lid := w 40, grank := w 44, gsize := w 48, fctl := w 52,
    tctl := w 56, rngs := w 60, path := d 64, tepc := d 72, tval := d 80, tvec := d 88, svec := d 96, sscratch := d 104,
    tcause := w 112, tprog := w 116,
    rings := Vector.ofFn fun i : Fin 8 =>
      let b := f (120 + i.val) 1
      if 128 ≤ b then some (BitVec.ofNat 6 b) else none
    wfilter := BitVec.ofNat 512 (f 128 64),
    regs := Vector.ofFn fun i : Fin 64 =>
      { val := w (192 + 4 * i.val), pois := (marks / 2 ^ (3 * i.val + 2)).testBit 0 } }

/-- A queue record (R181). -/
def PQueue.recordBytes (q : PQueue) : List Byte :=
  let vals := (q.entries.flatMap fun e => leBytes 4 e.val.toNat) ++ List.replicate (64 - 4 * q.entries.length) 0#8
  vals ++ leBytes 6 (packBits 3 (q.entries.map Reg.mark)) ++ leBytes 2 0 ++ leBytes 4 q.entries.length ++
  leBytes 4 q.logical.toNat ++ leBytes 4 q.lid.toNat ++ List.replicate 44 0#8

/-- The entries that a queue record holds. -/
def queueEntries (bs : List Byte) : List Reg :=
  (List.range (field bs 72 4)).map fun i =>
    { val := BitVec.ofNat 32 (field bs (4 * i) 4), pois := (field bs 64 6 / 2 ^ (3 * i + 2)).testBit 0 }

/-- The lines of a deterministic thread's store buffer as its slot holds them (R338). -/
def bufferBytes (sbuf : List Host.Cell) : List Byte :=
  let lines := sbufLines sbuf
  leBytes 1 lines.length ++ List.replicate 63 0#8 ++ lines.flatMap fun l =>
    let have' := (List.range 128).map fun i => aget (128 * l + i) sbuf
    leBytes 8 (128 * l) ++ leBytes 16 (packBits 1 (have'.map fun b => if b.isSome then 1 else 0)) ++
      have'.map (fun b => b.getD 0#8) ++ List.replicate 8 0#8

/-- The store buffer that a slot holds. -/
def bufferOf (bs : List Byte) : List Host.Cell :=
  (List.range (field bs 0 1)).flatMap fun k =>
    let r := bs.drop (64 + 160 * k)
    (List.range 128).filterMap fun i =>
      if (field r 8 16).testBit i then some (field r 0 8 + i, (r.drop (24 + i)).headD 0#8) else none

/-- The resident binders of a physical queue, by context number (R176). -/
def State.binders (s : State) (c q : Nat) : List Thread :=
  sortBy (fun a b => decide (a.num < b.num)) ((s.ofCore c).filter fun th =>
    th.resident && th.qb.toList.any fun b => b == some (BitVec.ofNat 6 q))

/-- The first register of a context that is bound to a physical queue. -/
def Thread.boundAt (th : Thread) (q : Nat) : Nat :=
  ((List.range 4).find? fun j => th.qb[j]! == some (BitVec.ofNat 6 q)).getD 0

/-- A queue's contents go with a context that is spilled: it is the only resident binder (R176). -/
def State.carries (s : State) (th : Thread) (q : Nat) : Bool :=
  ((s.binders th.core q).map (·.num)) == [th.num]

/-- QBIND of a context (R181). -/
def State.qbindBytes (s : State) (th : Thread) : List Nat :=
  (List.range 4).map fun j => match th.qb[j]! with
    | none => 0
    | some q =>
      let logical := ((aget q.toNat (s.core th.core).queues).map fun x => x.logical.toNat).getD 0
      128 + (if s.carries th q.toNat && th.boundAt q.toNat == j then 64 else 0) + logical

/-- The virtual address of an offset in the area of a spill descriptor (R180). -/
def areaVa (d : DWord) (off : Nat) : DWord := BitVec.ofNat 64 (bits d 56 20 * 1048576 + off)

/-- The physical place of an offset in a spill descriptor's area, for the spill engine's read or write (R180, R182, R308). -/
def State.areaPa (s : State) (d : DWord) (off : Nat) (k : AccKind) : Option Nat :=
  s.uncorePa 1 (d.extractLsb' 0 16) (areaVa d off) k

/-- The virtual address of a context's record in the area of a spill descriptor (R181). -/
def recordVa (d : DWord) (num : Nat) : DWord := BitVec.ofNat 64 (bits d 56 20 * 1048576 + 512 * num)

/-- The spill descriptor of the area that holds a spilled context's record (R181, R182). -/
def State.areaOf (s : State) (th : Thread) : DWord := if th.alternate then (s.core th.core).splb else (s.core th.core).spla

/-- The home address of a spilled context's record, as the area translates when the spill engine accesses it (R181, R307,
R308). -/
def State.recordPa (s : State) (th : Thread) (k : AccKind) : Option Nat :=
  (s.areaPa (s.areaOf th) (512 * th.num) k).map s.homeAddr

/-- A spill failure: machine event with the context's handle and the address of the area (R182, R355). -/
def State.spillEvent (s : State) (th : Thread) (code : Nat) (va : DWord) : State :=
  s.machineEvent (dieOf th.core) code (some th.core) (leBytes 4 th.handle.toNat ++ leBytes 4 0 ++ leBytes 8 va.toNat)

/-- A translation fault at an address of an area, or of the commit area: machine event code 1 with the area's own address,
and no further spill until the supervisor rewrites `spla` (R180, R182, R338, R355). -/
def State.holdSpills (s : State) (th : Thread) (asn : BitVec 16) (va area : DWord) : State :=
  ((s.uncoreRefused 1 asn va .write (some th.core)).spillEvent th 1 area).modCore th.core fun k => { k with spillHeld := true }

/-- The spill engine has to write the flags byte of a spilled context's record anew (R179, R181, R196). -/
def State.reflags (s : State) (th : Thread) : Bool := th.life == .spilled && th.reflag && !(s.core th.core).spillHeld

/-- The spill engine writes the flags byte of a spilled context's record anew, and the CRC (R179, R181, R196, R308); a page
that a peer holds is recalled first (R375). -/
def State.reflag (s : State) (key : Nat) : State :=
  match s.thread? key with
  | none => s
  | some th =>
    let asn := (s.areaOf th).extractLsb' 0 16
    let va := recordVa (s.areaOf th) th.num
    if !s.reflags th then s
    else match s.uncoreHeld asn va with
    | some page => s.recall page false
    | none => match s.recordPa th .write with
      | none => s.holdSpills th asn va (areaVa (s.areaOf th) 0)
      | some pa =>
        let flags := leBytes 1 th.recordFlags
        let crc := crc32 (setManyAt 18 flags (s.homeRead pa 508))
        ((s.putThread { th with reflag := false }).agentWrite (pa + 18) flags).agentWrite (pa + 508) (leBytes 4 crc)

/-- Every queue record that a context needs has a place in the area (R176, R182). -/
def State.queuePlaces (s : State) (th : Thread) (d : DWord) : Bool :=
  (List.range 4).all fun j => match th.qb[j]! with
    | none => true
    | some q => !(s.carries th q.toNat) || (s.areaPa d (524288 + 128 * (4 * th.num + j)) .write).isSome

/-- Write the queue records of a context that is spilled, and release their queues (R176, R181). -/
def State.spillQueues (s : State) (th : Thread) (d : DWord) : State :=
  (List.range 4).foldl (fun s j => match th.qb[j]! with
    | none => s
    | some q =>
      if s.carries th q.toNat && th.boundAt q.toNat == j then
        match aget q.toNat (s.core th.core).queues, s.areaPa d (524288 + 128 * (4 * th.num + j)) .write with
        | some x, some pa => (s.agentWrite pa x.recordBytes).dropQueue th.core q.toNat
        | _, _ => s
      else s) s

/-- The virtual address of a deterministic context's slot of the commit area, and the slot's place where the area
translates (R338). -/
def State.slotPa (s : State) (th : Thread) (l : Launch) (k : AccKind) : DWord × Option Nat :=
  let va := l.pkt.dbuf + BitVec.ofNat 64 (4096 * th.slot)
  (va, s.uncorePa 1 l.asn va k)

/-- Write the store buffer of a deterministic context to its slot of the commit area, or the slot's address where it
does not translate (R338). -/
def State.spillBuffer (s : State) (th : Thread) : DWord ⊕ State :=
  match s.launch? th.lid with
  | none => .inr s
  | some l =>
    if !th.det then .inr s
    else match s.slotPa th l .write with
      | (_, some pa) => .inr (s.agentWrite pa (bufferBytes th.sbuf))
      | (va, none) => .inl va

/-- Read the store buffer of a deterministic context back from its slot, or the slot's address where it does not
translate (R338). -/
def State.refillBuffer (s : State) (th : Thread) : DWord ⊕ List Host.Cell :=
  match s.launch? th.lid with
  | none => .inr []
  | some l =>
    if !th.det then .inr []
    else match s.slotPa th l .read with
      | (_, some pa) => .inr (bufferOf (s.homeRead pa 4096))
      | (va, none) => .inl va

/-- The base of the commit area of a context's launch (R338). -/
def State.commitBase (s : State) (th : Thread) : DWord := ((s.launch? th.lid).map fun l => l.pkt.dbuf).getD 0#64

/-- The page of the tables for which the spill engine's walks for a context wait, since a peer holds it (R182, R338,
R375). -/
def State.spillWaits (s : State) (th : Thread) : Option Nat :=
  let d := (s.core th.core).spla
  let slot := if th.det then (s.launch? th.lid).bind fun l => s.walkHeld l.asn (s.slotPa th l .write).1 else none
  (s.walkHeld (d.extractLsb' 0 16) (recordVa d th.num)).or slot

/-- The queue records and the record of a context go to an area, and the context is spilled (R176, R181). -/
def State.spillTo (s : State) (th : Thread) (d : DWord) (pa : Nat) (alternate : Bool) : State :=
  let qbind := s.qbindBytes th
  let s := s.spillQueues th d
  -- the release of its queues may have woken it
  let th := (s.thread? th.ckey).getD th
  (s.putThread { th with
    life := .spilled, qb := Vector.replicate 4 none, alternate := alternate, sbuf := [], reflag := false }).agentWrite pa
      (withCrc (th.recordBytes qbind))

/-- The spill engine writes a suspended or faulted context to its core's area (R176, R179, R181, R182). A queue record
that does not translate, in either area, counts as that area's own failure (assumption 50). A context of which the `gong`
meets a write error stays resident and goes directly into its image, by the second row of R182 and by the third. -/
def State.spillCtx (s : State) (th : Thread) (gong : Bool) : State :=
  let c := th.core
  let k := s.core c
  if !dbit k.spla 19 || k.spillHeld || k.spillFailed || !(th.life == .suspended || th.life == .faulted) then s
  else if let some page := s.spillWaits th then s.recall page true
  else
    let area := fun d => if s.queuePlaces th d then s.areaPa d (512 * th.num) .write else none
    match area k.spla, s.spillBuffer th with
    | none, _ => s.holdSpills th (k.spla.extractLsb' 0 16) (recordVa k.spla th.num) (areaVa k.spla 0)
    | _, .inl va => s.holdSpills th th.asn va (s.commitBase th)
    | some pa, .inr s' =>
      if s.spillErr = 0 then s'.spillTo th k.spla pa false
      else
        let s' := { s' with spillErr := 0 }
        if gong && dbit k.splb 19 then s'.spillEvent th 2 (areaVa k.spla 0)
        else
          -- an alternate area that does not translate takes no record either: the third row of R182 (assumption 50)
          let alt := if dbit k.splb 19 && s.spillErr == 1 then area k.splb else none
          match alt with
          | some pa => (s'.spillEvent th 2 (areaVa k.spla 0)).spillTo th k.splb pa true
          | none => (({ s with spillErr := 0 } : State).spillEvent th 3
              (areaVa (if dbit k.splb 19 then k.splb else k.spla) 0)).modCore c fun k => { k with spillFailed := true }

/-- The level of a context's launch; a higher number has lower priority (R179). -/
def State.levelOf (s : State) (th : Thread) : Nat := ((s.launch? th.lid).map (·.level)).getD 3

/-- The context that the spill engine takes next for a launch's sake: suspended or faulted, of another launch, of the
lowest priority, suspended longest (R179). A faulted context counts from its fault, and among contexts suspended at one
moment the lowest number is first (assumption 50). -/
def State.spillVictim (s : State) (c : Nat) (lid : Word) : Option Thread :=
  (sortBy (fun (a b : Thread) =>
    if s.levelOf a ≠ s.levelOf b then decide (s.levelOf b < s.levelOf a)
    else if a.suspAt ≠ b.suspAt then decide (a.suspAt < b.suspAt) else decide (a.num < b.num))
    ((s.ofCore c).filter fun th =>
      (th.life == .suspended || th.life == .faulted) && th.lid != lid)).head?

/-- Room for n more resident contexts of so many blocks each. -/
def State.roomNow (s : State) (c n blocks : Nat) : Bool :=
  decide (s.residents c + n ≤ 512) && decide (s.usedBlocks c + n * blocks ≤ (s.core c).blocks)

/-- Spill contexts of other launches until room for n contexts is free; the last number bounds them (R179). -/
def State.makeRoom (s : State) (c n blocks : Nat) (lid : Word) : Nat → State
  | 0 => s
  | k + 1 =>
    if s.roomNow c n blocks then s
    else match s.spillVictim c lid with
      | none => s
      | some v =>
        let s' := s.spillCtx v false
        if (s'.thread? v.ckey).any Thread.resident then s' else s'.makeRoom c n blocks lid k

/-- What resumption does to one context (R36, R178): a halted one stays, a faulted one stays faulted, and a
deterministic one parked with a reason other than FAULT waits for its boundary (R337). -/
def Thread.resumed (th : Thread) : Thread :=
  if th.life ≠ .suspended ∨ th.halted then th
  else match th.park with
    | none => { th with life := .running, wake := false, pauseLeft := 0 }
    | some p =>
      if th.recPend then { th with life := .parked }
      else if th.det && p.reason != 6 then { th with life := .parked, wake := false }
      else if th.wake || p.reason != 6 then { th with life := .running, park := none, wake := false }
      else { th with life := .parked }

/-- The faulted thread goes on (R147, R197). -/
def State.proceed (s : State) (th : Thread) (target : DWord) : State :=
  let th := if th.tr then th.setModes false th.pmode th.pmode else th
  let th := { th with pc := target, landed := true, frec := none, park := none, wake := false, kept := none, resumeAt := none }
  s.putThread { th with life := if th.halted || s.held th.lid then .suspended else .running, suspAt := s.ticks }

/-- The spilled context of a core and launch whose record carries a logical queue's contents, with the register (R176,
R181). -/
def State.queueRecord (s : State) (th : Thread) (n : BitVec 6) : Option (Thread × Nat) :=
  (s.ofCore th.core).findSome? fun o =>
    if (o.life == .spilled || o.num == th.num) && o.lid == th.lid then
      (s.recordPa o .read).bind fun pa => (List.range 4).findSome? fun i =>
        if leNat (cellReadN s.mem (pa + 472 + i) 1) = 192 + n.toNat then some (o, i) else none
    else none

/-- The contents of a queue whose record a spilled context carries, which it carries no longer (R176): nothing where no
context does, and none while the record does not translate. -/
def State.reloadQueue (s : State) (th : Thread) (n : BitVec 6) : Option (List Reg × State) :=
  match s.queueRecord th n with
  | none => some ([], s)
  | some (o, i) =>
    (s.areaPa (s.areaOf o) (524288 + 128 * (4 * o.num + i)) .read).bind fun pa => (s.recordPa o .write).map fun rec' =>
      let mark := leBytes 1 (128 + n.toNat)
      let crc := crc32 (setManyAt (472 + i) mark (s.homeRead rec' 508))
      (queueEntries (s.homeRead pa 128),
        ((s.takeGrant pa false).agentWrite (rec' + 472 + i) mark).agentWrite (rec' + 508) (leBytes 4 crc))

/-- The physical queue of a launch's logical queue on a core, allocated if there is none, with the contents that a
spilled context's record carries before those that it holds (R172, R176, assumption 50). None while no physical queue is
free, or the two together are more than its 16 entries. -/
def State.rebindOne (s : State) (th : Thread) (n : BitVec 6) : Option (Nat × State) :=
  let k := s.core th.core
  let held := k.queues.find? fun p => p.2.lid == th.lid && p.2.logical == n
  let q := (held.map Prod.fst).getD (freshKey 0 k.queues)
  if 64 ≤ q then none
  else (s.reloadQueue th n).bind fun r =>
    let entries := r.1 ++ (held.map fun p => p.2.entries).getD []
    if 16 < entries.length then none
    else some (q, r.2.modCore th.core fun k =>
      { k with queues := aset q { lid := th.lid, logical := n, entries := entries } k.queues })

/-- Bind the queue registers of a context that is refilled, as its record gives them (R176). None while no physical
queue is free. -/
def State.rebind (s : State) (th : Thread) (qbind : List Nat) : Option (State × Vector (Option (BitVec 6)) 4) :=
  (List.range 4).foldl (fun r j => r.bind fun x =>
    let b := (qbind.drop j).headD 0
    if b < 128 then some x
    else (x.1.rebindOne th (BitVec.ofNat 6 b)).map fun y => (y.2, x.2.set! j (some (BitVec.ofNat 6 y.1))))
    (some (s, Vector.replicate 4 none))

/-- Sectors of a context record that poison makes unusable: all but those of the registers (R183). -/
def headerPoisoned (s : State) (pa : Nat) : Bool :=
  (List.range 16).any fun i => (i < 6 || 14 ≤ i) && s.pois.contains (pa / 32 + i)

/-- A spilled context may be read back: its launch has resumed, or a `tresume` names it, whatever its launch (R179). -/
def State.refills (s : State) (th : Thread) : Bool :=
  th.life == .spilled && !s.stream && ((th.wanted && !s.held th.lid) || th.resumeAt.isSome)

/-- The spill engine has cause to write a context: it is the next one to make room for a spilled context of its core
that is to be refilled (R179). The dispatcher and the Gong spill in steps of their own. -/
def State.wantsSpill (s : State) (th : Thread) : Bool :=
  (s.ofCore th.core).any fun o => s.refills o && !s.roomNow th.core 1 o.blocks &&
    (s.spillVictim th.core o.lid).any fun v => v.ckey == th.ckey

/-- A register as a record gives it: a poisoned sector of the record poisons the registers it covers (R183). -/
def State.restoredReg (s : State) (pa : Nat) (th : Thread) (i : Nat) : Reg :=
  let r := th.regs[i]!
  if s.pois.contains (pa / 32 + 6 + i / 8) then { r with pois := true } else r

/-- A record fails: its CRC, or poison outside the registers (R183). -/
def State.recordBad (s : State) (pa : Nat) : Bool :=
  let bs := cellReadN s.mem pa 512
  crc32 (bs.take 508) != field bs 508 4 || headerPoisoned s pa

/-- A context as its record at an address gives it, or as it stood, where the record fails (R181, R183). -/
def State.readRecord (s : State) (th : Thread) (pa : Nat) : Thread :=
  let th1 := if s.recordBad pa then th else (th.restored (cellReadN s.mem pa 512)).withFlags th
  { th1 with regs := Vector.ofFn fun i : Fin 64 => s.restoredReg pa th1 i.val }

/-- What a context that has been read back goes on with: a pending kill takes it (R196); a record that fails makes it
faulted, with a kind-3 record that names the record's address (R183); a pending `tresume` continues it (R197), and with its
launch it re-enters the Roll (R36). -/
def State.refilled (s : State) (th : Thread) (bad : Bool) (va : DWord) : State :=
  let s := s.putThread th
  if th.killPend then s.kill th.ckey
  else if bad then
    let th' := { th with
      life := .faulted, park := none, frec := some { kind := 3, die := dieOf th.core, pc := th.pc }, suspAt := s.ticks }
    (s.putThread th').postRecord (dieOf th.core)
      (th'.record va 0x0C 3 (faultFlags 0 false false th'.mode th'.tr 0)) (some th'.ckey) none
  else match th.resumeAt with
    | some a => s.proceed th a
    | none => if s.held th.lid then s else s.putThread th.resumed

/-- A read of the spill engine that does not translate or is refused: noted like a spill's (R182, assumption 50). -/
def State.holdRefill (s : State) (th : Thread) (asn : BitVec 16) (va area : DWord) : State :=
  if (s.core th.core).spillHeld then s
  else ((s.uncoreRefused 1 asn va .read (some th.core)).spillEvent th 1 area).modCore th.core fun k =>
    { k with spillHeld := true }

/-- A page for which the refill of a context waits, since a peer holds it (R375): one of the tables', or one that holds its
record, its queue records or its commit slot (R176, R181, R338). -/
def State.refillWaits (s : State) (th : Thread) : Option Nat :=
  let d := s.areaOf th
  let asn := d.extractLsb' 0 16
  let slot := if th.det then (s.launch? th.lid).bind fun l => s.uncoreHeld l.asn (s.slotPa th l .read).1 else none
  ((s.uncoreHeld asn (recordVa d th.num)).or slot).or
    ((List.range 4).findSome? fun j => s.uncoreHeld asn (areaVa d (524288 + 128 * (4 * th.num + j))))

/-- The refill of a spilled context (R179, R183, R196, R197), and whether it has come about: not while a queue or room
is missing, or its record or its slot of the commit area cannot be read (R310, R338). What the engine spilled to make room
stays spilled, and what failed stays noted (R182). -/
def State.refillCtx (s : State) (th : Thread) : Bool × State :=
  let s := if th.life = .spilled then s.makeRoom th.core 1 th.blocks th.lid 1024 else s
  if th.life ≠ .spilled ∨ !s.roomNow th.core 1 th.blocks then (false, s)
  else if let some page := s.refillWaits th then (false, s.recall page true)
  else match s.recordPa th .read, s.refillBuffer th with
    | none, _ => (false, s.holdRefill th ((s.areaOf th).extractLsb' 0 16) (recordVa (s.areaOf th) th.num) (areaVa (s.areaOf th) 0))
    | _, .inl va => (false, s.holdRefill th th.asn va (s.commitBase th))
    | some pa, .inr sbuf =>
      let bs := cellReadN s.mem pa 512
      let va := recordVa (s.areaOf th) th.num
      let bad := s.recordBad pa
      let th1 := s.readRecord th pa
      let slot := if th.det then (s.launch? th.lid).bind fun l => (s.slotPa th l .read).2 else none
      let s := slot.toList.foldl (fun s x => s.takeGrant x false) (s.takeGrant pa false)
      match s.rebind th ((List.range 4).map fun j => field bs (472 + j) 1) with
      | none => (false, s)
      | some (s, qb) =>
        let life := if th.frec.isSome then Life.faulted else .suspended
        (true, s.refilled
          { th1 with qb := qb, life := life, reflag := false, alternate := false, wanted := false, sbuf := sbuf } bad va)

end Sys2Proof.Machine
end

