-- ==== Sys2Proof/Machine/Control.lean ====
section
/-! DEFINITION. Control transfer, traps and special registers (R116 to R119, R136, R138 to R142). -/

namespace Sys2Proof.Machine

/-- The target of an offset form, from the address of the control word itself (R67, R116). -/
def offTarget {n : Nat} (a : DWord) (off : BitVec n) : DWord := a + ((off.signExtend 64) <<< 2)

/-- Transfer control after the checks of R116; a failed check traps at the bundle. -/
def State.transfer (s : State) (window : Bool) (target : DWord) (k : State → State) : State :=
  match targetCheck (if window then some s.fr.first else none) target with
  | some cause => s.raise cause target none
  | none => (k s).jump target

/-- A conditional branch: taken, or on to the next bundle; its pops take place either way (R116, R117). -/
def State.branch (s : State) (sh : Shape) (target : DWord) (taken : Vals → Bool) : Host.Outcome State Fault Refusal :=
  s.within sh fun v s => if taken v then s.transfer true target fun s => s.fin sh else s.fin sh

/-- Write the return address, the word after the bundle, into g1 (R67). -/
def State.link (s : State) : State := s.writeRegs s.src [(1, s.fr.next.extractLsb' 0 32)]

/-- `b` (R117). -/
def execBra (off : BitVec 23) (s : State) : Host.Outcome State Fault Refusal :=
  s.within {} fun _ s => s.transfer true (offTarget s.fr.first off) id

/-- `call` (R117). -/
def execCall (off : BitVec 23) (s : State) : Host.Outcome State Fault Refusal :=
  s.within { extraW := [1] } fun _ s => s.transfer true (offTarget s.fr.first off) State.link

/-- `bz` (R117). -/
def execBz (a : RegNo) (off : BitVec 17) (s : State) : Host.Outcome State Fault Refusal :=
  s.branch { a := .g a } (offTarget s.fr.first off) fun v => gOf v.a == 0#32

/-- `bnz` (R117). -/
def execBnz (a : RegNo) (off : BitVec 17) (s : State) : Host.Outcome State Fault Refusal :=
  s.branch { a := .g a } (offTarget s.fr.first off) fun v => gOf v.a != 0#32

/-- `beq` (R117). -/
def execBeq (a b : RegNo) (off : BitVec 11) (s : State) : Host.Outcome State Fault Refusal :=
  s.branch { a := .g a, b := .g b } (offTarget s.fr.first off) fun v => gOf v.a == gOf v.b

/-- `bne` (R117). -/
def execBne (a b : RegNo) (off : BitVec 11) (s : State) : Host.Outcome State Fault Refusal :=
  s.branch { a := .g a, b := .g b } (offTarget s.fr.first off) fun v => gOf v.a != gOf v.b

/-- `blt` (R117). -/
def execBlt (a b : RegNo) (off : BitVec 11) (s : State) : Host.Outcome State Fault Refusal :=
  s.branch { a := .g a, b := .g b } (offTarget s.fr.first off) fun v => (gOf v.a).slt (gOf v.b)

/-- `bge` (R117). -/
def execBge (a b : RegNo) (off : BitVec 11) (s : State) : Host.Outcome State Fault Refusal :=
  s.branch { a := .g a, b := .g b } (offTarget s.fr.first off) fun v => !(gOf v.a).slt (gOf v.b)

/-- `blo` (R117). -/
def execBlo (a b : RegNo) (off : BitVec 11) (s : State) : Host.Outcome State Fault Refusal :=
  s.branch { a := .g a, b := .g b } (offTarget s.fr.first off) fun v => (gOf v.a).ult (gOf v.b)

/-- `bhs` (R117). -/
def execBhs (a b : RegNo) (off : BitVec 11) (s : State) : Host.Outcome State Fault Refusal :=
  s.branch { a := .g a, b := .g b } (offTarget s.fr.first off) fun v => !(gOf v.a).ult (gOf v.b)

/-- `callx`: the literal is a byte offset (R118). -/
def execCallx (imm : Word) (s : State) : Host.Outcome State Fault Refusal :=
  s.within { extraW := [1] } fun _ s => s.transfer true (s.fr.first + imm.signExtend 64) State.link

/-- `callr` (R119). -/
def execCallr (a : RegNo) (s : State) : Host.Outcome State Fault Refusal :=
  s.within { a := .w a, extraW := [1] } fun v s =>
    s.transfer true (wOf v.a) fun s => (s.fin { a := .w a }).link

/-- `ret`: PC[63:32] with g1 (R119). -/
def execRet (s : State) : Host.Outcome State Fault Refusal :=
  s.within { extraR := [1] } fun _ s => s.transfer true (s.fr.first.extractLsb' 32 32 ++ s.reg 1) id

/-- `jr`: no window check (R119). -/
def execJr (a : RegNo) (s : State) : Host.Outcome State Fault Refusal :=
  s.within { a := .w a } fun v s => s.transfer false (wOf v.a) fun s => s.fin { a := .w a }

/-- `pause`: no bundle for the next 64 cycles (R136). -/
def execPause (s : State) : Host.Outcome State Fault Refusal :=
  s.within {} fun _ s => s.modT fun t => { t with pauseLeft := 64 }

/-- `trap` (R138). -/
def execTrap (imm : BitVec 17) (s : State) : Host.Outcome State Fault Refusal :=
  s.within {} fun _ s => s.raise 0x07 (imm.zeroExtend 64) none

/-- The launch of the current thread has debug enabled (R156). -/
def State.debugOn (s : State) : Bool :=
  match s.launch? s.t.lid with
  | some l => l.pkt.flags.getLsbD 4
  | none => false

/-- `brk`: a debug halt where debug is enabled, and a trap otherwise (R139); a STEP over it goes on (R158). -/
def execBrk (s : State) : Host.Outcome State Fault Refusal :=
  s.within {} fun _ s =>
    if !s.debugOn then s.raise 0x08 0#64 none
    else if s.t.stepMark then s
    else (s.modT fun t => { t with life := .suspended, halted := true, atBrk := true, brkPair := s.fr.pair, suspAt := s.ticks }).again

/-- `tret`: return from a trap handler (R140). -/
def execTret (s : State) : Host.Outcome State Fault Refusal :=
  s.within {} fun _ s =>
    if !s.t.tr then s.ill
    else match targetCheck none s.t.tepc with
      | some cause => s.raise cause s.t.tepc none
      | none => s.trapReturn

/-- The logical number of a package cluster in the boot map (R358). -/
def State.lixOf (s : State) (cl : Nat) : Word :=
  let a := bits s.bmap 51 14 * 16384 + 0x1000
  BitVec.ofNat 32 (((List.range 512).find? fun l => leNat (cellReadN s.mem (a + 2 * l) 2) == cl).getD 0)

/-- The value of a special register (R25, R26, R141). -/
def State.sregRead (s : State) : SReg → DWord
  | .tix => s.t.tix.setWidth 64
  | .tcnt => s.t.tcnt.setWidth 64
  | .cix => BitVec.ofNat 64 (s.t.core % 8)
  | .lix => (s.lixOf (clusterOf s.t.core)).setWidth 64
  | .dix => BitVec.ofNat 64 (dieOf s.t.core)
  | .lid => s.t.lid.setWidth 64
  | .grank => s.t.grank.setWidth 64
  | .gsize => s.t.gsize.setWidth 64
  | .clk => (s.core s.t.core).clk
  | .stime => s.stime
  | .fctl => s.t.fctl.setWidth 64
  | .tctl => s.t.tctl.setWidth 64
  | .rngs => s.t.rngs.setWidth 64
  | .path => s.t.path
  | .tcause => s.t.tcause.setWidth 64
  | .tepc => s.t.tepc
  | .tval => s.t.tval
  | .tprog => s.t.tprog.setWidth 64
  | .tvec => s.t.tvec
  | .svec => s.t.svec
  | .sscratch => s.t.sscratch

/-- The write of a special register (R142); none where it traps ILL. -/
def Thread.sregWrite (t : Thread) (r : SReg) (v : DWord) : Option Thread :=
  let w := v.extractLsb' 0 32
  match r with
  | .fctl => if w.getLsbD 10 then none else some { t with fctl := w &&& 0x71F#32 }
  | .tctl => some { t with tctl := setBit t.tctl 0 (w.getLsbD 0 && t.qe) }
  | .rngs => some { t with rngs := rngNonZero w }
  | .path => some { t with path := v }
  | .tcause => some { t with tcause := w &&& 0x3FF#32 }
  | .tepc => some { t with tepc := v }
  | .tval => some { t with tval := v }
  | .tprog => some { t with tprog := w }
  | .tvec => some { t with tvec := v &&& ~~~7#64 }
  | .svec => some { t with svec := v &&& ~~~7#64 }
  | .sscratch => some { t with sscratch := v }
  | .tix | .tcnt | .cix | .lix | .dix | .lid | .grank | .gsize | .clk | .stime => some t

/-- The words of a special register's value. -/
def sregWords (r : SReg) (v : DWord) : List Word :=
  if r.wide then wordsOf v else [v.extractLsb' 0 32]

/-- `sget`; an unassigned number traps ILL (R25, R141). -/
def execSget (d : RegNo) (imm : BitVec 11) (s : State) : Host.Outcome State Fault Refusal :=
  let sh : Shape := { dst := sregOpd imm d, sup := sgetSup imm }
  match SReg.ofNum imm.toNat with
  | none => .next s.ill
  | some r => s.within sh fun _ s => s.put sh (sregWords r (s.sregRead r)) noFlags

/-- `sset`; an unassigned number traps ILL (R25, R142). -/
def execSset (a : RegNo) (imm : BitVec 11) (s : State) : Host.Outcome State Fault Refusal :=
  let sh : Shape := { a := sregOpd imm a, sup := ssetSup imm }
  match SReg.ofNum imm.toNat with
  | none => .next s.ill
  | some r => s.within sh fun v s =>
    match s.t.sregWrite r (if r.wide then wOf v.a else (gOf v.a).setWidth 64) with
    | none => s.ill
    | some _ => (s.fin sh).modT fun t =>
        (t.sregWrite r (if r.wide then wOf v.a else (gOf v.a).setWidth 64)).getD t

end Sys2Proof.Machine
end

