-- ==== Sys2Proof/Machine/Debug.lean ====
section
/-! DEFINITION. The debug commands (R156 to R159): a die's command ring, and the nine commands, each an event
that executes the command that the die takes next. -/

namespace Sys2Proof.Machine

/-- Address of the command that a die takes next (R156). -/
def State.cmdAddr (s : State) (die : Nat) : Nat :=
  let k := s.die die
  ringBase k.dbgd + 128 + 32 * (k.taken.toNat % 2 ^ ringLog k.dbgd)

/-- A die has a command to execute (R156). -/
def State.cmdWaits (s : State) (die : Nat) : Bool :=
  let k := s.die die
  dbit k.dbgd 5 && s.memWord (ringBase k.dbgd) != k.taken

/-- CMD of the command that a die takes next (R156). -/
def State.cmdCode (s : State) (die : Nat) : Nat := leNat (s.homeRead (s.cmdAddr die) 2)

/-- A command is done: VALUE where it returns one, DONE, STATUS, and the advance of TAKEN (R156). -/
def State.cmdDone (s : State) (die status : Nat) (value : Option DWord) : State :=
  let a := s.cmdAddr die
  let s := match value with
    | some v => s.homeWriteNat (a + 16) 8 v.toNat
    | none => s
  let s := (s.homeWriteNat (a + 24) 8 s.stime.toNat).homeWriteNat (a + 2) 2 status
  let s := s.modDie die fun k => { k with taken := k.taken + 1#32, stepping := false }
  s.homeWriteNat (ringBase (s.die die).dbgd + 64) 4 (s.die die).taken.toNat

/-- A handle as any launch's rename table translates it (R353). -/
def State.debugHandle (s : State) (h : Word) : Word :=
  ((s.launches.findSome? fun x => (x.2.renames.find? fun r => r.1 == h).map Prod.snd)).getD h

/-- The target of a command, or the status with which the command ends: the wrong die, a stale handle, a launch
without debug (R156). -/
def State.cmdTarget (s : State) (die : Nat) : Nat ⊕ Thread :=
  let h := s.debugHandle (s.memWord (s.cmdAddr die + 4))
  if dieOf (wbits h 21 10) ≠ die then .inl 5
  else match s.byHandle h with
    | none => .inl 3
    | some th =>
      match s.launch? th.lid with
      | some l => if l.pkt.flags.getLsbD 4 then .inr th else .inl 4
      | none => .inl 4

/-- Execute a die's command if it has the code (or, for code 1, none of the nine) (R156). Where several statuses
apply, the command returns the first of: 5 for its code, 5 for the die, 3, 4, and then those of its own meaning (DESIGN
CHOICE, assumption 51). -/
def State.command (s : State) (die code : Nat) (f : Thread → State) : Host.Outcome State Fault Refusal :=
  if !s.cmdWaits die then .next s
  else
    let c := s.cmdCode die
    let bad := c = 0 ∨ 9 < c
    if bad ∧ code = 1 then .next (s.cmdDone die 5 none)
    else if c ≠ code then .next s
    else match s.cmdTarget die with
      | .inl status => .next (s.cmdDone die status none)
      | .inr th => .next (f th)

/-- Execute a command on a halted target, resident again if it was spilled; it waits while the core has no room
(R159). -/
def State.onHalted (s : State) (die code : Nat) (f : State → Thread → State) : Host.Outcome State Fault Refusal :=
  s.command die code fun th =>
    if !th.halted then s.cmdDone die 2 none
    else if th.life = .spilled then
      match s.refillCtx th with
      | (false, s) => s
      | (true, s) => match s.thread? th.ckey with
        | some th => f s th
        | none => s.cmdDone die 3 none
    else f s th

/-- The debug halt of a context at its instruction boundary: a running or parked one leaves the Roll (R157). -/
def Thread.halt (th : Thread) (now : Nat) : Thread :=
  match th.life with
  | .running | .parked => { th with life := .suspended, suspAt := now, halted := true }
  | _ => { th with halted := true }

/-- Write a context back; a spilled one has its flags byte rewritten (R181). -/
def State.putFlags (s : State) (th : Thread) : State := s.putThread th.flagged

/-- HALT (R157): it waits while its target completes what it has begun (R143). -/
def execHalt (die : Nat) (s : State) : Host.Outcome State Fault Refusal :=
  s.command die 1 fun th =>
    if th.halted then s.cmdDone die 1 none
    else if s.finishing th then s
    else (s.putFlags (th.halt s.ticks)).cmdDone die 1 none

/-- A context that a debugger lets go: past the `brk` at which it halted, to the A word of its pair, if it has
one (R157). -/
def Thread.pastBrk (th : Thread) : Thread :=
  if th.atBrk then { th with pc := th.pc + 4#64, landed := th.brkPair, atBrk := false, brkPair := false } else th

/-- A halted context goes on as after pre-emption, unless its launch is pre-empted (R36, R157); a spilled one is to be
read back (R179). -/
def State.letGo (s : State) (th : Thread) : State :=
  let th := { th.pastBrk with halted := false, wanted := th.wanted || th.life == .spilled }
  s.putFlags (if s.held th.lid then th else th.resumed)

/-- CONT (R157). -/
def execCont (die : Nat) (s : State) : Host.Outcome State Fault Refusal :=
  s.command die 2 fun th =>
    if !th.halted then s.cmdDone die 2 none else (s.letGo th).cmdDone die 1 none

/-- The one bundle of a STEP is still to complete or to park (R158). -/
def Thread.stepping (th : Thread) : Bool :=
  th.stepMark && (th.life == .running || th.life == .spilled || th.life == .suspended && th.park.isNone)

/-- STEP (R158): it lets its target go, and is done once the step has ended. A lone `brk` at which the target
stands counts as the step. -/
def execStep (die : Nat) (s : State) : Host.Outcome State Fault Refusal :=
  if (s.die die).stepping then
    if s.cmdWaits die && s.cmdCode die == 3 then
      match s.cmdTarget die with
      | .inl _ => .next (s.cmdDone die 1 none)
      | .inr th => if th.stepping then .next s else .next (s.cmdDone die 1 none)
    else .next s
  else s.command die 3 fun th =>
    if !th.halted then s.cmdDone die 2 none
    else if th.atBrk && !th.brkPair then (s.putFlags th.pastBrk).cmdDone die 1 none
    else (s.letGo { th with stepMark := true }).modDie die fun k => { k with stepping := true }

/-- ITEM of the command that a die takes next (R156). -/
def State.cmdItem (s : State) (die : Nat) : Nat := (s.memWord (s.cmdAddr die + 8)).toNat
/-- VALUE of the command that a die takes next (R156). -/
def State.cmdValue (s : State) (die : Nat) : DWord := s.memDword (s.cmdAddr die + 16)

/-- A g register that a debugger may name (R159): g60 to g63 while QM = 1 whatever the allocation, since they are kept
hidden (R22, assumption 59). -/
def Thread.names (th : Thread) (r : Nat) : Bool :=
  decide (r < 64) && (decide (r < 8 * th.blocks) || (th.qm && decide (60 ≤ r)))

/-- RDREG (R159). -/
def execRdreg (die : Nat) (s : State) : Host.Outcome State Fault Refusal :=
  s.onHalted die 4 fun s th =>
    let r := s.cmdItem die
    if !th.names r then s.cmdDone die 5 none
    else
      let x := if r = 0 then {} else th.regs[r]!
      s.cmdDone die (if x.pois then 6 else 1) (some (x.val.setWidth 64))

/-- WRREG (R159). -/
def execWrreg (die : Nat) (s : State) : Host.Outcome State Fault Refusal :=
  s.onHalted die 5 fun s th =>
    let r := s.cmdItem die
    if !th.names r then s.cmdDone die 5 none
    else
      let v : Reg := { val := (s.cmdValue die).extractLsb' 0 32 }
      (if r = 0 then s else s.putThread { th with regs := th.regs.set! r v }).cmdDone die 1 none

/-- RDSREG (R159). -/
def execRdsreg (die : Nat) (s : State) : Host.Outcome State Fault Refusal :=
  s.onHalted die 6 fun s th =>
    match SReg.ofNum (s.cmdItem die) with
    | none => s.cmdDone die 5 none
    | some r => s.cmdDone die 1 (some ((s.switchTo th.ckey).sregRead r))

/-- A special register that no software write changes (R25, R159). -/
def SReg.readOnly : SReg → Bool
  | .tix | .tcnt | .cix | .lix | .dix | .lid | .grank | .gsize | .clk | .stime => true
  | _ => false

/-- WRSREG (R159): by the rules of a supervisor's `sset`; a value that traps ILL there gives STATUS 5 here (assumption
59). -/
def execWrsreg (die : Nat) (s : State) : Host.Outcome State Fault Refusal :=
  s.onHalted die 7 fun s th =>
    match SReg.ofNum (s.cmdItem die) with
    | none => s.cmdDone die 5 none
    | some r =>
      if SReg.readOnly r then s.cmdDone die 5 none
      -- MODE is no field that a write changes: a value that would change it is refused
      else if r = .tctl ∧ (s.cmdValue die).getLsbD 6 ≠ th.mode then s.cmdDone die 5 none
      else match th.sregWrite r (s.cmdValue die) with
        | none => s.cmdDone die 5 none
        | some th => (s.putThread th).cmdDone die 1 none

/-- RDPC (R159). -/
def execRdpc (die : Nat) (s : State) : Host.Outcome State Fault Refusal :=
  s.onHalted die 8 fun s th => s.cmdDone die 1 (some th.pc)

/-- WRPC (R159): the checks of the new address are those of its fetch at the next CONT or STEP. -/
def execWrpc (die : Nat) (s : State) : Host.Outcome State Fault Refusal :=
  s.onHalted die 9 fun s th =>
    (s.putThread { th with pc := s.cmdValue die, landed := true, atBrk := false, brkPair := false }).cmdDone die 1 none

end Sys2Proof.Machine
end

