-- ==== Sys2Proof/Machine/Rings.lean ====
section
/-! DEFINITION. Rings (R24, R206 to R212) and the binding of queue registers (R174). -/

namespace Sys2Proof.Machine

/-- FILLED of a ring (R206). -/
def Ring.filled (r : Ring) : Nat := (r.pp - r.cp).toNat
/-- FREE of a ring (R206). -/
def Ring.free (r : Ring) : Nat := r.nslot - (r.clm - r.cp).toNat
/-- The slot of a claim (R206). -/
def Ring.slotOf (r : Ring) (m : Word) : Nat := m.toNat % r.nslot

/-- Advance: slots fill in claim order (R208). -/
def Ring.advance (r : Ring) : Nat → Ring
  | 0 => r
  | n + 1 =>
    let i := r.slotOf r.pp
    if r.pp ≠ r.clm ∧ marked r.done i then
      ({ r with done := setAt i false r.done, pp := r.pp + 1#32 }).advance n
    else r

/-- Advance as far as the claims go (R208). -/
def Ring.advanceAll (r : Ring) : Ring := r.advance r.nslot

/-- A claim may write its slot (R208). -/
def Ring.writable (r : Ring) (m : Word) : Bool := decide ((m - r.cp).toNat < r.nslot)

/-- Unbind a handle of the current thread (R207). -/
def State.unbindRing (s : State) (k : Nat) : State :=
  match s.t.rings[k]! with
  | none => s
  | some i =>
    (s.modT fun t => { t with rings := t.rings.set! k none }).releaseRing (clusterOf s.t.core) i.toNat

/-- `rbind` (R207); of the ring that the handle names already it changes nothing (assumption 62). -/
def execRbind (d a : RegNo) (s : State) : Host.Outcome State Fault Refusal :=
  let sh : Shape := { a := .g a, det := true }
  s.within sh fun v s =>
    let w := gOf v.a
    let cl := clusterOf s.t.core
    let k := d.toNat
    if w = 0xFFFFFFFF#32 then (s.unbindRing k).fin sh
    else if 10 < wbits w 13 10 ∨ wbits w 9 8 ≠ 0 then s.ill
    else
      let base := 256 * wbits w 25 14
      let slot := 2 ^ (wbits w 13 10 + 6)
      let n := wbits w 7 0 + 1
      let lrn := BitVec.ofNat 6 (wbits w 31 26)
      if s.scratchBytes < base + n * slot then s.raise 0x05 (BitVec.ofNat 64 (base + n * slot)) none
      else
        let bind := fun (s : State) (i : Nat) =>
          if s.t.rings[k]! = some (BitVec.ofNat 6 i) then s.fin sh
          else ((s.unbindRing k).modT fun t => { t with rings := t.rings.set! k (some (BitVec.ofNat 6 i)) }).fin sh
        match (s.cluster cl).rings.find? fun p => p.2.lid == s.t.lid && p.2.lrn == lrn with
        | some (i, r) => if r.base ≠ base ∨ r.slot ≠ slot ∨ r.nslot ≠ n then s.ill else bind s i
        | none =>
          let i := freshKey 0 (s.cluster cl).rings
          if 64 ≤ i then s.park 2 (.ringFree cl)
          else
            let r : Ring :=
              { lid := s.t.lid, lrn := lrn, base := base, slot := slot, nslot := n,
                done := List.replicate n false, bytes := List.replicate n 0 }
            bind (s.modCluster cl fun k => { k with rings := aset i r k.rings }) i

/-- An instruction on the ring of a handle of the current thread; an invalid handle traps ILL (R24). -/
def State.onRing (s : State) (k : RegNo) (f : Nat → Nat → Ring → State) : State :=
  let cl := clusterOf s.t.core
  match s.t.rings[k.toNat]! with
  | none => s.ill
  | some i => match s.ring? cl i.toNat with
    | none => s.ill
    | some r => f cl i.toNat r

/-- `rwf` (R209). -/
def execRwf (d a : RegNo) (s : State) : Host.Outcome State Fault Refusal :=
  let sh : Shape := { a := .g a, det := true }
  s.within sh fun v s => s.onRing d fun cl i r =>
    let n := (gOf v.a).toNat
    if r.nslot < n then s.ill
    else if r.filled < n then s.park 2 (.ring cl i)
    else (s.acquire s.t.core .cluster).fin sh

/-- `rwe` (R209). -/
def execRwe (d a : RegNo) (s : State) : Host.Outcome State Fault Refusal :=
  let sh : Shape := { a := .g a, det := true }
  s.within sh fun v s => s.onRing d fun cl i r =>
    let n := (gOf v.a).toNat
    if r.nslot < n then s.ill
    else if r.free < n then s.park 2 (.ring cl i)
    else (s.acquire s.t.core .cluster).fin sh

/-- Claim n slots that are filled at once (R209). -/
def Ring.claimFilled (r : Ring) : Nat → Ring
  | 0 => r
  | n + 1 =>
    let i := r.slotOf r.clm
    ({ r with done := setAt i true r.done, bytes := setAt i r.slot r.bytes, clm := r.clm + 1#32 }).claimFilled n

/-- `radvp` (R209). -/
def execRadvp (d a : RegNo) (s : State) : Host.Outcome State Fault Refusal :=
  let sh : Shape := { a := .g a, det := true }
  s.within sh fun v s => s.onRing d fun cl i r =>
    let n := (gOf v.a).toNat
    if r.nslot < n then s.ill
    else if r.free < n then s.park 2 (.ring cl i)
    else
      let s := (s.release s.t.core .cluster).modRing cl i fun r => (r.claimFilled n).advanceAll
      (if n = 0 then s else s.chime (.ring cl i)).fin sh

/-- Give back n slots (R209). -/
def Ring.giveBack (r : Ring) : Nat → Ring
  | 0 => r
  | n + 1 => ({ r with bytes := setAt (r.slotOf r.cp) 0 r.bytes, cp := r.cp + 1#32 }).giveBack n

/-- Ring jobs whose claims have become writable count as issued from now on, in claim order (R219, R248). -/
def State.settleClaims (s : State) (cl i : Nat) : State :=
  match s.ring? cl i with
  | none => s
  | some r =>
    let ripe := fun (j : Job) => j.late && match j.claim with
      | some (e, m) => e == i && r.writable m
      | none => false
    s.modCluster cl fun k =>
      let moved := (k.jobs.filter ripe).map fun j => { j with late := false }
      { k with jobs := (k.jobs.filter fun j => !ripe j) ++ moved }

/-- `radvc` (R209). -/
def execRadvc (d a : RegNo) (s : State) : Host.Outcome State Fault Refusal :=
  let sh : Shape := { a := .g a, det := true }
  s.within sh fun v s => s.onRing d fun cl i r =>
    let n := (gOf v.a).toNat
    if r.nslot < n then s.ill
    else if r.filled < n then s.park 2 (.ring cl i)
    else
      let s := (s.release s.t.core .cluster).modRing cl i fun r => r.giveBack n
      (if n = 0 then s else (s.settleClaims cl i).chime (.ring cl i)).fin sh

/-- The slot that `raddr` and `rbytes` name; none at or beyond NSLOT (R210). -/
def Ring.named (r : Ring) (b : Word) : Option Nat :=
  let i := wbits b 15 0
  if r.nslot ≤ i then none
  else some (((if b.getLsbD 31 then r.clm else r.cp) + BitVec.ofNat 32 i).toNat % r.nslot)

/-- `raddr` (R210). -/
def execRaddr (d a b : RegNo) (s : State) : Host.Outcome State Fault Refusal :=
  let sh : Shape := { b := .g b, dst := .g d, det := true }
  s.within sh fun v s => s.onRing a fun _ _ r =>
    match r.named (gOf v.b) with
    | none => s.ill
    | some j => s.put sh [BitVec.ofNat 32 (r.base + j * r.slot)] noFlags

/-- A slot is filled and not given back yet (R208). -/
def Ring.slotFilled (r : Ring) (j : Nat) : Bool :=
  (List.range r.filled).any fun i => r.slotOf (r.cp + BitVec.ofNat 32 i) == j

/-- `rbytes` (R210); in a deterministic launch it waits until the slot is filled (R227). -/
def execRbytes (d a b : RegNo) (s : State) : Host.Outcome State Fault Refusal :=
  let sh : Shape := { b := .g b, dst := .g d, det := true }
  s.within sh fun v s => s.onRing a fun cl i r =>
    match r.named (gOf v.b) with
    | none => s.ill
    | some j =>
      if s.t.det && !r.slotFilled j then s.park 2 (.ring cl i)
      else (s.acquire s.t.core .cluster).put sh [BitVec.ofNat 32 ((r.bytes.drop j).headD 0)] noFlags

/-- Unbind a queue register of the current thread (R174). In a pair the queue is released once the A word, which may push
to it, has taken effect (R23, R173). -/
def State.unbindQueue (s : State) (j : Nat) : State :=
  match s.t.qb[j]! with
  | none => s
  | some q =>
    let s := s.modT fun t => { t with qb := t.qb.set! j none }
    if s.fr.pair then s else s.releaseQueue s.t.core q.toNat

/-- `qbind` (R173, R174). -/
def execQbind (d a : RegNo) (s : State) : Host.Outcome State Fault Refusal :=
  let sh : Shape := { a := .g a }
  s.within sh fun v s =>
    let w := gOf v.a
    let c := s.t.core
    let j := d.toNat
    if !s.t.qe then s.ill
    else if w = 0xFFFFFFFF#32 then (s.fin sh).unbindQueue j
    else if 63 < w.toNat then s.ill
    else
      let n := BitVec.ofNat 6 w.toNat
      let bind := fun (s : State) (q : Nat) =>
        let s := if s.t.qb[j]! = some (BitVec.ofNat 6 q) then s else s.unbindQueue j
        s.modT fun t => { t with qb := t.qb.set! j (some (BitVec.ofNat 6 q)) }
      match (s.core c).queues.find? fun p => p.2.lid == s.t.lid && p.2.logical == n with
      | some (q, _) => bind (s.fin sh) q
      | none =>
        let q := freshKey 0 (s.core c).queues
        if 64 ≤ q then s.park 7 (.pool c)
        else bind ((s.fin sh).modCore c fun k => { k with queues := aset q { lid := s.t.lid, logical := n } k.queues }) q

end Sys2Proof.Machine
end

