-- ==== Sys2Proof/Machine/Engine.lean ====
section
/-! DEFINITION. Engine jobs of a cluster (R213 to R227): footprints and their order, the moves of the tile copy
engine, faults of jobs and their records, the instructions that issue and observe jobs, and the pages of the
scratchpad (R205). -/

namespace Sys2Proof.Machine

/-- A sector of a job (R224): where its bytes come from, where they go. -/
structure Sector where
  ssp : Nat
  src : Int
  dsp : Nat
  dst : Int
  n : Nat
  /-- Offset within the row, for the pattern of `tfill` (R216). -/
  off : Nat
  pattern : DWord
  deriving DecidableEq, Repr

/-- The sectors of a row (R224): its parts within aligned 32-byte blocks. -/
def rowSectors (p : Plane) (src y : Int) : List Sector :=
  let first := y / 32
  let count := ((y + p.rb + 31) / 32 - first).toNat
  (List.range count).map fun (i : Nat) =>
    let lo := max y (32 * (first + (i : Int)))
    let hi := min (y + p.rb) (32 * (first + (i : Int) + 1))
    { ssp := p.ssp, src := src + (lo - y), dsp := p.dsp, dst := lo, n := (hi - lo).toNat, off := (lo - y).toNat,
      pattern := p.src }

/-- The sectors of a plane, rows ascending (R224). -/
def Plane.sectors (p : Plane) : List Sector :=
  (List.range p.rows).flatMap fun (r : Nat) =>
    rowSectors p ((p.src.toNat : Int) + (r : Int) * p.sstr) ((p.dst.toNat : Int) + (r : Int) * p.dstr)

/-- The sectors of a job, in its order (R224). -/
def Job.sectors (j : Job) : List Sector := j.planes.flatMap Plane.sectors

/-- The interval of a plane's side (R215). -/
def spanOf (sp cix : Nat) (x t : Int) (rows rb : Nat) : Interval :=
  let last := (rows - 1 : Int) * t
  if 0 ≤ t then { sp := sp, cix := cix, lo := x, hi := x + last + rb } else { sp := sp, cix := cix, lo := x + last, hi := x + rb }

/-- The read interval of a plane (R215). -/
def Plane.reads (p : Plane) (cix : Nat) : Interval := spanOf p.ssp cix p.src.toNat p.sstr p.rows p.rb
/-- The write interval of a plane (R215). -/
def Plane.writes (p : Plane) (cix : Nat) : Interval := spanOf p.dsp cix p.dst.toNat p.dstr p.rows p.rb

/-- The space of an SP code. -/
def spaceOf (sp : Nat) : Space := if sp = 0 then .global else if sp = 1 then .scratchLocal else .interleave

/-- The address at which an interval's view shows the byte with an interleave address (R203). -/
def viewAddr (size : Nat) (i : Interval) (x : Nat) : Nat :=
  if i.sp = 1 ∧ 0 < size / 8 then ((x / 8 % 8 + 8 - i.cix % 8) % 8) * (size / 8) + (x / 64 * 8 + x % 8) else x

/-- Two scratchpad intervals of one instance name a common byte (R215). -/
def scratchMeet (size : Nat) (a b : Interval) : Bool :=
  if a.sp = b.sp ∧ (a.sp = 2 ∨ a.cix = b.cix) then decide (a.lo < b.hi) && decide (b.lo < a.hi)
  else (List.range (a.hi - a.lo).toNat).any fun k =>
    let x := scratchByte (spaceOf a.sp) size a.cix (a.lo.toNat + k)
    decide (b.lo ≤ viewAddr size b x) && decide ((viewAddr size b x : Int) < b.hi)

/-- Two intervals of two jobs overlap (R215, R217); those of the global space are compared as they stand, without wrapping
(assumption 60). -/
def State.meet (s : State) (cl : Nat) (j1 j2 : Job) (a b : Interval) : Bool :=
  if a.sp = 0 ∧ b.sp = 0 then j1.asn == j2.asn && decide (a.lo < b.hi) && decide (b.lo < a.hi)
  else if a.sp ≠ 0 ∧ b.sp ≠ 0 ∧ j1.lid = j2.lid then scratchMeet (s.inst cl j1.lid).size a b
  else false

/-- Some interval of one list meets some interval of another. -/
def State.anyMeet (s : State) (cl : Nat) (j1 j2 : Job) (as bs : List Interval) : Bool :=
  as.any fun a => bs.any fun b => s.meet cl j1 j2 a b

/-- The ordering edge of R217, or the order of jobs on one accumulator (R248). -/
def State.edge (s : State) (cl : Nat) (j1 j2 : Job) : Bool :=
  s.anyMeet cl j2 j1 j2.reads j1.writes || s.anyMeet cl j2 j1 j2.writes j1.reads ||
    s.anyMeet cl j2 j1 j2.writes j1.writes || (j1.onAcc j1.acc && j2.onAcc j1.acc)

/-- The jobs that were issued before a job and have not ended (R217). -/
def State.earlier (s : State) (cl id : Nat) : List Job :=
  ((s.cluster cl).jobs.takeWhile fun j => j.id != id).filter fun j => !j.late

/-- The Gong has stopped the engines: step 3 of a freeze has come, and its stream still stands (R348, R349). -/
def State.enginesStopped (s : State) : Bool := s.stream && decide (3 ≤ s.gongStep)

/-- A queued job may start (R216, R217, R219, R226). -/
def State.startable (s : State) (cl : Nat) (j : Job) : Bool :=
  j.state == 1 && !j.late && !s.held j.lid && !s.enginesStopped && !((s.earlier cl j.id).any fun e => s.edge cl e j)

/-- A job of a cluster. -/
def State.job? (s : State) (cl id : Nat) : Option Job := (s.cluster cl).jobs.find? fun j => j.id == id

/-- Put a job back. -/
def State.putJob (s : State) (cl : Nat) (j : Job) : State :=
  s.modCluster cl fun k => { k with jobs := k.jobs.map fun x => if x.id = j.id then j else x }

/-- Change a job of a cluster. -/
def State.modJob (s : State) (cl id : Nat) (f : Job → Job) : State :=
  match s.job? cl id with
  | some j => s.putJob cl (f j)
  | none => s

/-- A scratchpad page is refilled for the access that waits for it (R205). -/
def execScratchPageRefill (cluster : Nat) (lid : Word) (page : Nat) (s : State) : Host.Outcome State Fault Refusal :=
  .next (s.refillPage cluster lid page)

/-- What an engine's access to memory comes to (R224). -/
inductive Eng (α : Type) where
  | ok (v : α) (s : State)
  /-- A translation miss, with a record unless the page is being migrated (R299). -/
  | miss (va : DWord) (record : Bool) (s : State)
  /-- PROT, ACCV, FAULTX or ADDR. -/
  | bad (va : DWord) (cause : Nat) (s : State)
  /-- The access waits: a region is being switched (R269), or a peer holds the page (R375). -/
  | wait (s : State)

/-- Go on with the value, if there is one. -/
def Eng.andThen {α β : Type} (r : Eng α) (f : α → State → Eng β) : Eng β :=
  match r with
  | .ok v s => f v s
  | .miss va r s => .miss va r s
  | .bad va c s => .bad va c s
  | .wait s => .wait s

/-- The translation of an engine's access (R224, R288, R296, R308). -/
def State.engXlate (s : State) (cl : Nat) (j : Job) (va : DWord) (k : AccKind) : Eng Nat :=
  if !canonical va then .bad va 0x04 s
  else match s.lookup cl j.asn va with
    | (.miss, s) => .miss va true s
    | (.bad, s) => .bad va 0x0B s
    | (.mig, s) => .miss va false s
    | (.held page, s) => .wait (s.recall page true)
    | (.hit e, s) =>
      if !e.permits j.mode k then .bad va 0x06 s
      else if !e.grantsTo 2 k then .bad va 0x0F s
      else
        let pa := e.pa va
        let a := s.homeAddr pa
        if s.regionSwitching a then .wait s
        else if s.heldByPeer a then .wait (s.recall (a / 65536) (!changes k))
        else if !(s.place pa).isMemory || !s.granted (masterId 2 j.asn.toNat) pa k then
          .bad va 0x0F (s.refuse (masterId 2 j.asn.toNat) pa k (some j.core))
        else .ok pa (s.takeGrant pa (k == .write))

/-- Global words of 8 bytes at their homes, and whether each lies in a poisoned sector (R216, R218). -/
def State.engWords (s : State) (cl : Nat) (j : Job) (va : Int) : Nat → Eng (List (List Byte × Bool))
  | 0 => .ok [] s
  | n + 1 =>
    (s.engXlate cl j (BitVec.ofInt 64 va) .read).andThen fun pa s =>
      let w := (s.homeRead pa 8, s.homePois pa 8)
      (s.engWords cl j (va + 8) n).andThen fun r s => .ok (w :: r) s

/-- Global bytes at their homes, and whether a sector of them is poisoned (R216, R218). -/
def State.engRead (s : State) (cl : Nat) (j : Job) (va : Int) (n : Nat) : Eng (List Byte × Bool) :=
  (s.engWords cl j va n).andThen fun r s => .ok (r.flatMap Prod.fst, r.any Prod.snd) s

/-- The pages of some bytes of an instance have their frames again, or the engine waits for a backing page that a peer
holds (R205, R375). -/
def State.engPages (s : State) (cl : Nat) (lid : Word) (as : List Nat) : Eng PUnit :=
  let s := s.refillPages cl lid as
  if ((s.inst cl lid).lostPage as).isSome then .wait s else .ok .unit s

/-- The interleave addresses of scratchpad bytes as a job names them (R203, R213). -/
def State.engSpan (s : State) (cl : Nat) (j : Job) (sp : Nat) (a : Int) (n : Nat) : List Nat :=
  scratchSpan (spaceOf sp) (s.inst cl j.lid).size (j.core % 8) a.toNat n

/-- The source bytes of a sector (R216). -/
def State.engSource (s : State) (cl : Nat) (j : Job) (x : Sector) : Eng (List Byte × Bool) :=
  if j.kind = .tfill then
    .ok ((List.range x.n).map fun i => x.pattern.extractLsb' (8 * ((x.off + i) % 8)) 8, false) s
  else if x.ssp = 0 then s.engRead cl j x.src (x.n / 8)
  else
    let as := s.engSpan cl j x.ssp x.src x.n
    (s.engPages cl j.lid as).andThen fun _ s =>
      let i := s.inst cl j.lid
      .ok (i.read as, as.any fun a => i.pois.contains (scratchSector a)) s

/-- A job has written bytes, each given by its sector and its place there; `bad` are the poisoned sectors.
The sectors that it has now written whole since they were poisoned are healed (R125, R205). -/
def Job.cover (j : Job) (tag : Nat) (bad : List Nat) (cells : List (Nat × Nat)) : Job × List Nat :=
  let part := (cells.filter fun c => bad.contains c.1).foldl
    (fun m c => aset (2 * c.1 + tag) ((aget (2 * c.1 + tag) m).getD 0 ||| 2 ^ c.2) m) j.part
  let full := fun (p : Nat × Nat) => p.1 % 2 == tag && p.2 == 2 ^ 32 - 1
  ({ j with part := part.filter fun p => !full p }, (part.filter full).map fun p => p.1 / 2)

/-- A job has written sectors poisoned: what it wrote of them before covers nothing (R216). -/
def Job.uncover (j : Job) (tag : Nat) (sectors : List Nat) : Job :=
  { j with part := j.part.filter fun p => !(p.1 % 2 == tag && sectors.contains (p.1 / 2)) }

/-- The bytes of scratchpad by sector and place there (R205). -/
def scratchCells (as : List Nat) : List (Nat × Nat) :=
  as.map fun x => (scratchSector x, (x / 64 * 8 + x % 8) % 32)

/-- Note the bytes that a job has written, given by sector and place: what this does to the job, and the
sectors healed. -/
def State.noteJob (s : State) (cl : Nat) (j : Job) (tag : Nat) (bad : List Nat) (cells : List (Nat × Nat))
    (pois : Bool) : State × List Nat :=
  match s.job? cl j.id with
  | some j =>
    if pois then (s.putJob cl (j.uncover tag (cells.map Prod.fst)), [])
    else
      let (j, healed) := j.cover tag bad cells
      (s.putJob cl j, healed)
  | none => (s, [])

/-- The write of a sector, poisoned where its source was (R216, R265). -/
def State.engWrite (s : State) (cl : Nat) (j : Job) (sp : Nat) (dst : Int) (bytes : List Byte) (pois : Bool) : Eng PUnit :=
  if sp = 0 then
    (s.engXlate cl j (BitVec.ofInt 64 dst) .write).andThen fun pa s =>
      let s := s.homeWrite none pa bytes
      let a := s.homeAddr pa
      let (s, healed) := s.noteJob cl j 0 s.pois ((List.range bytes.length).map fun i => ((a + i) / 32, (a + i) % 32)) pois
      .ok .unit (if pois then (s.poisonSector (a / 32)).countPoison cl else healed.foldl State.healSector s)
  else
    let as := s.engSpan cl j sp dst bytes.length
    (s.engPages cl j.lid as).andThen fun _ s =>
      let (s, healed) := s.noteJob cl j 1 (s.inst cl j.lid).pois (scratchCells as) pois
      let marks := if pois then as.map scratchSector else []
      let s := if pois then s.countPoison cl else s
      .ok .unit (s.modInst cl j.lid fun i => { i.write as bytes with
        pois := marks.foldl (fun l k => sinsert k l) (i.pois.filter fun m => !healed.contains m) })

/-- A job's write interval meets its own read interval (R216). -/
def State.selfMeets (s : State) (cl : Nat) (j : Job) : Bool := s.anyMeet cl j j j.reads j.writes

/-- A kind-5 record (R225). -/
def Job.record (j : Job) (va : DWord) (cause sect write done : Nat) : FaultRec :=
  { va := va, pc := j.pc, resume := BitVec.ofNat 32 sect ++ j.n, path := j.path, handle := j.handle, tix := j.tix,
    lid := j.lid, asn := j.asn, cause := cause, kind := 5, flags := faultFlags write false j.pair j.mode j.tr 5,
    tprog := done, core := j.core }

/-- The die of a cluster (R2). -/
def dieOfCluster (cl : Nat) : Nat := cl / 64

/-- BYTES of a ring job's slot: the offset of the first sector that is not done, or SLOT (R219). -/
def State.countBytes (s : State) (cl : Nat) (j : Job) : State :=
  match j.claim with
  | none => s
  | some (e, m) =>
    match s.ring? cl e with
    | none => s
    | some r =>
      let i := r.slotOf m
      let b := match (j.sectors.drop j.done).head? with
        | some x => (x.dst - (r.base + i * r.slot : Nat)).toNat
        | none => r.slot
      if (r.bytes.drop i).headD 0 = b then s
      else (s.modRing cl e fun r => { r with bytes := setAt i b r.bytes }).chime (.ring cl e)

/-- The slot of a job that has ended is filled; after a fault its count stays (R219, R224). -/
def State.completeClaim (s : State) (cl : Nat) (j : Job) (faulted : Bool) : State :=
  match j.claim with
  | none => s
  | some (e, m) =>
    let s := s.modRing cl e fun r =>
      let i := r.slotOf m
      ({ r with
        done := setAt i true r.done
        bytes := if faulted then r.bytes else setAt i r.slot r.bytes
        jobs := r.jobs - 1 }).advanceAll
    ((s.chime (.ring cl e)).settleClaims cl e).releaseRing cl e

/-- A number's age in an instance's sequence (R221). -/
def Inst.last (i : Inst) : Word := if i.next = 1#32 then 0xFFFFFFFF#32 else i.next - 1#32
/-- Age(n) (R221). -/
def Inst.age (i : Inst) (n : Word) : Nat :=
  if n.toNat ≤ i.last.toNat then i.last.toNat - n.toNat else (i.last - n).toNat - 1

/-- A job has ended (R219 to R224): its status in the window, its slot, and the Chimes. -/
def State.endJob (s : State) (cl : Nat) (j : Job) (state : Nat) : State :=
  let s := (s.acked none).modCluster cl fun k => { k with jobs := k.jobs.filter fun x => x.id != j.id }
  let s := s.modInst cl j.lid fun i =>
    let ended := { n := j.n, state := state, done := j.done, writes := j.writes.filter fun w => w.sp == 0, asn := j.asn } :: i.ended
    { i with ended := ended.filter fun e => decide (i.age e.n < 1024) }
  let s := s.completeClaim cl j (state == 4)
  let s := (s.chime (.job cl j.lid j.n)).chime (.engineQueue cl)
  (s.settleGroups cl).settleInst cl j.lid

/-- A job stops on a page, in STATE 3 (R224, R299, R300): one record, unless the page has one. -/
def State.stopJob (s : State) (cl : Nat) (j : Job) (va : DWord) (record : Bool) (sect write : Nat) : State :=
  let die := dieOfCluster cl
  let page := (j.asn, vpnOf va)
  let again := j.recorded == some (vpnOf va)
  let s := s.putJob cl { j with state := 3, page := some (vpnOf va), recorded := some (vpnOf va) }
  if !record || again || (s.die die).outst.contains page then s
  else (s.outstand die page).postRecord die (j.record va 0x0A sect write j.done) none (some (cl, j.id))

/-- A job ends with an unrecoverable fault, in STATE 4 (R224); its record enters its page into the outstanding table
(R300). -/
def State.failJob (s : State) (cl : Nat) (j : Job) (va : DWord) (cause sect write : Nat) : State :=
  let die := dieOfCluster cl
  ((s.outstand die (j.asn, vpnOf va)).postRecord die (j.record va cause sect write j.done) none none).endJob cl j 4

/-- One sector of a copying job: into the staging area while its own intervals overlap and its source is not
all staged, otherwise to its destination (R216, R224). -/
def State.moveSector (s : State) (cl : Nat) (j : Job) : State :=
  let staging := s.selfMeets cl j && decide (j.staged.length < j.sectors.length)
  let k := if staging then j.staged.length else j.done
  match (j.sectors.drop k).head? with
  | none => s
  | some x =>
    let src : Eng (List Byte × Bool) :=
      if !staging && !j.staged.isEmpty then .ok ((j.staged.drop k).headD ([], false)) s else s.engSource cl j x
    match src with
    | .wait s => s
    | .miss va r s => s.stopJob cl j va r k 0
    | .bad va c s => s.failJob cl j va c k 0
    | .ok (bytes, pois) s =>
      if staging then s.putJob cl { j with staged := j.staged ++ [(bytes, pois)] }
      else match s.engWrite cl j x.dsp x.dst bytes pois with
        | .wait s => s
        | .miss va r s => s.stopJob cl j va r k 1
        | .bad va c s => s.failJob cl j va c k 1
        | .ok _ s =>
          match s.job? cl j.id with
          | none => s
          | some j =>
            let j := { j with done := j.done + 1 }
            (s.putJob cl j).countBytes cl j

/-- A running job may go on; a matrix job finishes though its launch is pre-empted (R226, R249). -/
def State.runnable (s : State) (j : Job) : Bool := j.state == 2 && !(j.copies && s.held j.lid) && !s.enginesStopped

/-- A queued job starts (R216, R217, R219). -/
def execTceJobRun (cluster job : Nat) (s : State) : Host.Outcome State Fault Refusal :=
  match s.job? cluster job with
  | some j =>
    if s.startable cluster j then
      let j := { j with state := 2 }
      .next ((s.putJob cluster j).countBytes cluster j)
    else .next s
  | none => .next s

/-- The next sector of a running copy (R224). -/
def execTceSectorWrite (cluster job : Nat) (s : State) : Host.Outcome State Fault Refusal :=
  match s.job? cluster job with
  | some j => if s.runnable j && j.copies then .next (s.moveSector cluster j) else .next s
  | none => .next s

/-- A copy whose sectors are all done ends (R219). -/
def execTceJobEnd (cluster job : Nat) (s : State) : Host.Outcome State Fault Refusal :=
  match s.job? cluster job with
  | some j =>
    if s.runnable j && j.copies && decide (j.sectors.length ≤ j.done) then .next (s.endJob cluster j 0) else .next s
  | none => .next s

/-- What a page's Chime does to one job (R302, R303, R316). -/
def Job.pageChimed (asn : BitVec 16) (vpn : BitVec 41) (held : Bool) (j : Job) : Job :=
  if j.asn ≠ asn ∨ j.page ≠ some vpn then j
  else if j.state = 3 then (if j.recPend then { j with chimed := true } else j.woken held)
  else if j.state = 5 ∧ j.held = 3 then { j with held := 2, recorded := none }
  else j

/-- A page's Chime returns the jobs that stopped on it to STATE 2 (R303); while their record is pending, or
while their launch is pre-empted, the Chime is kept (R302, R316). -/
def State.chimeJobs (s : State) (asn : BitVec 16) (vpn : BitVec 41) : State :=
  let f := fun (k : Cluster) => { k with jobs := k.jobs.map fun j => j.pageChimed asn vpn (s.held j.lid) }
  { s with clusters := s.clusters.map fun c => (c.1, f c.2) }

/-- The engine queue or the window of the instance takes no further job (R220, R221). -/
def State.queueFull (s : State) : Bool :=
  let cl := clusterOf s.t.core
  let i := s.inst cl s.t.lid
  decide (64 ≤ (s.cluster cl).jobs.length) ||
    (s.cluster cl).jobs.any fun j => j.lid == s.t.lid && decide (1023 ≤ i.age j.n)

/-- NextJob (R221). -/
def State.nextJob (s : State) : Word × State :=
  let cl := clusterOf s.t.core
  let n := (s.inst cl s.t.lid).next
  (n, s.modInst cl s.t.lid fun i => { i with
    issued := true
    next := if i.next = 0xFFFFFFFF#32 then 1#32 else i.next + 1#32 })

/-- A job of the current thread, as it stands at its issue (R218, R225). -/
def State.newJob (s : State) (kind : JobKind) (n : Word) : Job :=
  let k := s.cluster (clusterOf s.t.core)
  { id := k.jobs.foldl (fun m j => max m (j.id + 1)) 0, kind := kind, lid := s.t.lid, n := n, asn := s.t.asn,
    core := s.t.core, mode := s.t.mode, handle := s.t.handle, tix := s.t.tix, path := s.t.path, pc := s.fr.first,
    pair := s.fr.pair, tr := s.t.tr }

/-- The virtual address of a line, by the page through which it was filled: va[63:57] are copies of va[56] (R13, R298). -/
def Line.va (l : Line) : Nat := (BitVec.signExtend 48 l.vpn).toNat * 65536 + 128 * l.n % 65536

/-- The page of memory to which an address space maps a page number, if it does: by the cluster's TLB, else by the page
table (R295). -/
def State.pageAt (s : State) (cl : Nat) (asn : BitVec 16) (vp : Int) : Option Nat :=
  let va := BitVec.ofInt 64 (vp * 65536)
  match (s.cluster cl).tlb.find? fun e => e.covers asn va with
  | some e => some (s.homeAddr (e.pa va) / 65536)
  | none => match s.walkXl asn va with
    | .hit e => some (s.homeAddr (e.pa va) / 65536)
    | _ => none

/-- The addresses at which an address space shows the first byte of a line within a global interval: that of its fill
(R298), and every other one that the interval's pages map to the line's page (R215, R218, R222). -/
def State.lineVas (s : State) (cl : Nat) (asn : BitVec 16) (l : Line) (i : Interval) : List Int :=
  let first := i.lo / 65536
  let pages := (List.range ((i.hi - 1) / 65536 - first + 1).toNat).map fun (k : Nat) => first + (k : Int)
  (if l.asn = asn then [(l.va : Int)] else []) ++
    ((pages.filter fun vp => s.pageAt cl asn vp == some (128 * l.n / 65536)).map fun vp =>
      vp * 65536 + ((128 * l.n % 65536 : Nat) : Int))

/-- The bytes of a line that lie in a job's footprint: in its global intervals, in its issuer's address space (R215,
R218). -/
def State.footprint (s : State) (cl : Nat) (l : Line) (j : Job) : BitVec 128 :=
  let at' := ((j.reads ++ j.writes).filter fun i => i.sp == 0).map fun i => (i, s.lineVas cl j.asn l i)
  (List.range 128).foldl (fun m b =>
    if at'.any fun p => p.2.any fun va => decide (p.1.lo ≤ va + (b : Nat)) && decide (va + (b : Nat) < p.1.hi) then
      m ||| byteMask b 1 else m) 0#128

/-- Write back the dirty bytes of a line that a mask names; the others stay dirty (R218). -/
def State.writeBackPart (s : State) (c : Nat) (l : Line) (mask : BitVec 128) : State :=
  let rest := l.dirty &&& ~~~mask
  let s := s.writeBackLine c { l with dirty := l.dirty &&& mask }
  if l.dirty &&& mask = 0#128 ∨ rest = 0#128 then s
  else s.modCore c fun k => match k.line? l.n with
    | some x => k.putLine { x with dirty := rest, whole := l.whole }
    | none => k

/-- The release of an engine issue orders the footprint alone: it writes back the issuer's dirty bytes there (R218,
R281), and its earlier writes to coherent lines perform. -/
def State.releaseFootprint (s : State) (j : Job) : State :=
  let c := s.t.core
  let s := ((s.core c).l1.filter fun l => l.dirty ≠ 0#128).foldl (fun s' l => s'.writeBackPart c l (s.footprint (clusterOf c) l j)) s
  (s.sendWrites c).acked (some c)

/-- Enqueue a job, which releases the issuer's earlier accesses to its footprint (R218). -/
def State.enqueue (s : State) (j : Job) : State :=
  let s' := (s.releaseFootprint j).modCluster (clusterOf s.t.core) fun k => { k with jobs := k.jobs ++ [{ j with seq := s.jobsIssued }] }
  { s' with jobsIssued := s.jobsIssued + 1 }

/-- What the issue of a copy finds wrong first: a trap's cause and value. -/
abbrev Verdict := Option (Nat × DWord)

/-- ILL, with the word as its value. -/
def State.illWord (s : State) : Nat × DWord := (0x01, s.fr.word.setWidth 64)

/-- A plane of a descriptor (R213). -/
def planeOf (desc : List Byte) (off sp : Nat) : Plane :=
  let f := fun o n => field desc (off + o) n
  { src := BitVec.ofNat 64 (f 0 8), dst := BitVec.ofNat 64 (f 8 8), sstr := (BitVec.ofNat 32 (f 16 4)).toInt,
    dstr := (BitVec.ofNat 32 (f 20 4)).toInt, rb := f 24 2, rows := f 26 2, ssp := sp % 4, dsp := sp / 4 % 4 }

/-- The planes of a descriptor that are present (R213). -/
def planesOf (desc : List Byte) : List Plane :=
  let p0 := planeOf desc 0 (field desc 56 1)
  let p1 := planeOf desc 28 (field desc 57 1)
  if p1.rb = 0 then [p0] else [p0, p1]

/-- The spaces that a form allows (R214). -/
def spacesOk (k : JobKind) (p : Plane) : Bool :=
  match k with
  | .tcopy => (p.ssp == 0) != (p.dsp == 0)
  | .scopy => p.ssp != 0 && p.dsp != 0
  | _ => p.ssp == 0 && p.sstr == 0

/-- Check C1 on a plane (R214). -/
def c1Plane (k : JobKind) (ring : Bool) (sp : Nat) (p : Plane) : Bool :=
  decide (sp < 16) && p.ssp != 3 && p.dsp != 3 && spacesOk k p && p.rows != 0 && p.rb != 0 && (!ring || p.dsp == 2)

/-- Check C1 (R214). -/
def c1 (k : JobKind) (ring : Bool) (desc : List Byte) : Bool :=
  let absent := field desc 52 2 == 0
  field desc 58 6 == 0 && c1Plane k ring (field desc 56 1) (planeOf desc 0 (field desc 56 1)) &&
    (if absent then field desc 28 28 == 0 && field desc 57 1 == 0
     else c1Plane k ring (field desc 57 1) (planeOf desc 28 (field desc 57 1)))

/-- Check C2 on a plane: the field that is no multiple of 8 (R214). -/
def c2 (k : JobKind) (p : Plane) : Option DWord :=
  ([(if k = .tfill then 0#64 else p.src), p.dst, BitVec.ofInt 64 p.sstr, BitVec.ofInt 64 p.dstr, BitVec.ofNat 64 p.rb]).find?
    fun v => v.toNat % 8 != 0

/-- Check C4 on an interval: its start below 0, or its end beyond the instance (R214). -/
def c4 (size : Nat) (i : Interval) : Option DWord :=
  if i.sp = 0 then none
  else if i.lo < 0 then some (BitVec.ofInt 64 i.lo)
  else if (size : Int) < i.hi then some (BitVec.ofInt 64 i.hi) else none

/-- Check C5 on an interval: its first or last byte is not canonical (R214). -/
def c5 (i : Interval) : Option DWord :=
  if i.sp ≠ 0 then none
  else if !canonical (BitVec.ofInt 64 i.lo) then some (BitVec.ofInt 64 i.lo)
  else if !canonical (BitVec.ofInt 64 (i.hi - 1)) then some (BitVec.ofInt 64 (i.hi - 1)) else none

/-- The issue checks C1 to C6 in their order (R214); within a plane the read interval comes first (assumption 60). -/
def State.copyVerdict (s : State) (k : JobKind) (ring : Option Ring) (desc : List Byte) : Verdict :=
  let ps := planesOf desc
  let cix := s.t.core % 8
  let reads := fun p : Plane => if k = .tfill then [] else [p.reads cix]
  let size := s.scratchBytes
  if !c1 k ring.isSome desc then some s.illWord
  else match ps.findSome? (c2 k) with
    | some v => some (0x03, v)
    | none =>
      if 65535 < (ps.flatMap Plane.sectors).length ∨ 1048576 < (ps.map fun p => p.rb * p.rows).sum then some s.illWord
      else match ps.findSome? (fun p =>
          (reads p ++ (if ring.isSome then [] else [p.writes cix])).findSome? (c4 size)) with
        | some v => some (0x05, v)
        | none => match ps.findSome? (fun p => (reads p ++ [p.writes cix]).findSome? c5) with
          | some v => some (0x04, v)
          | none => match ring with
            | none => none
            | some r =>
              if ps.any (fun p => decide ((p.writes cix).lo < 0) || decide ((r.slot : Int) < (p.writes cix).hi)) then
                some s.illWord
              else none

/-- Issue a copy (R214). -/
def State.issueCopy (s : State) (k : JobKind) (d a b : RegNo) : Host.Outcome State Fault Refusal :=
  let sh : Shape := { a := .g a, dst := .g d, det := true }
  s.within sh fun v s =>
    let cl := clusterOf s.t.core
    let handle := if b = 63 then none else s.t.rings[b.toNat]!
    let ring := handle.bind fun i => s.ring? cl i.toNat
    if b ≠ 63 ∧ ring.isNone then s.ill
    else
      (s.loadScratch .interleave (gOf v.a).toNat 64).run fun desc s =>
        match s.copyVerdict k ring desc with
        | some (cause, val) => s.raise cause val none
        | none =>
          if s.queueFull then s.park 2 (.engineQueue cl)
          else
            let (n, s) := s.nextJob
            let e := (handle.map BitVec.toNat).getD 0
            let m := (ring.map (·.clm)).getD 0#32
            let base := match ring with
              | some r => r.base + r.slotOf m * r.slot
              | none => 0
            let s := if ring.isSome then
                (s.modRing cl e fun r => { r with
                  clm := r.clm + 1#32
                  jobs := r.jobs + 1
                  done := if r.writable m then setAt (r.slotOf m) false r.done else r.done }).chime (.ring cl e)
              else s
            let ps := (planesOf desc).map fun p => { p with dst := p.dst + BitVec.ofNat 64 base }
            let cix := s.t.core % 8
            let j := s.newJob k n
            let j := { j with
              planes := ps
              reads := if k = .tfill then [] else ps.map fun p => p.reads cix
              writes := ps.map fun p => p.writes cix
              claim := if ring.isSome then some (e, m) else none
              late := match ring with
                | some r => !r.writable m
                | none => false }
            (s.enqueue j).put sh [n] noFlags

/-- `tcopy` (R214). -/
def execTcopy (d a b : RegNo) (s : State) : Host.Outcome State Fault Refusal := s.issueCopy .tcopy d a b

/-- `scopy` (R214). -/
def execScopy (d a b : RegNo) (s : State) : Host.Outcome State Fault Refusal := s.issueCopy .scopy d a b

/-- `tfill` (R214). -/
def execTfill (d a b : RegNo) (s : State) : Host.Outcome State Fault Refusal := s.issueCopy .tfill d a b

/-- A software-managed line of an L1 meets a global interval of a job of an address space (R222). -/
def State.lineMeets (s : State) (cl : Nat) (asn : BitVec 16) (l : Line) (i : Interval) : Bool :=
  !l.h && i.sp == 0 && (s.lineVas cl asn l i).any fun va => decide (va < i.hi) && decide (i.lo < va + 128)

/-- Acquire(n) (R222, R273). -/
def State.acquireJob (s : State) (asn : BitVec 16) (writes : List Interval) : State :=
  let c := s.t.core
  (((s.markAcquire c).drain c).flushWhere c fun l => writes.any fun i => s.lineMeets (clusterOf c) asn l i)

/-- The status of a job number (R221, R222): none for one that was not issued. -/
inductive JobStatus where
  | unissued | old | ended (e : Ended) | live (j : Job)
  deriving DecidableEq, Repr

/-- The status of job n of the current thread's launch (R221 to R223). A number of the window that no job has had was not
issued (assumption 60). -/
def State.jobStatus (s : State) (n : Word) : JobStatus :=
  let cl := clusterOf s.t.core
  let i := s.inst cl s.t.lid
  if !i.issued || 2 ^ 31 ≤ i.age n then .unissued
  else if 1024 ≤ i.age n then .old
  else match i.ended.find? fun e => e.n == n with
    | some e => .ended e
    | none => match (s.cluster cl).jobs.find? fun j => j.lid == s.t.lid && j.n == n with
      | some j => .live j
      | none => .unissued

/-- `ewait` (R222). -/
def execEwait (a : RegNo) (s : State) : Host.Outcome State Fault Refusal :=
  let sh : Shape := { a := .g a, det := true }
  s.within sh fun v s =>
    let n := gOf v.a
    if n = 0#32 then s.fin sh
    else match s.jobStatus n with
      | .unissued => s.ill
      | .old => (s.acquire s.t.core .package).fin sh
      | .ended e => if e.state = 4 then s.raise 0x10 (n.setWidth 64) none else (s.acquireJob e.asn e.writes).fin sh
      | .live _ => s.park 2 (.job (clusterOf s.t.core) s.t.lid n)

/-- The word of `eprog` (R223). -/
def progWord (state done : Nat) : Word := BitVec.ofNat 32 (state * 2 ^ 28 + done % 65536)

/-- `eprog` (R223); in a deterministic launch it waits until the job has ended (R227). -/
def execEprog (d a : RegNo) (s : State) : Host.Outcome State Fault Refusal :=
  let sh : Shape := { a := .g a, dst := .g d, det := true }
  s.within sh fun v s =>
    let n := gOf v.a
    if n = 0#32 then s.put sh [0#32] noFlags
    else match s.jobStatus n with
      | .unissued => s.ill
      | .old => s.put sh [0#32] noFlags
      | .ended e => s.put sh [progWord e.state e.done] noFlags
      | .live j =>
        if s.t.det then s.park 2 (.job (clusterOf s.t.core) s.t.lid n)
        else s.put sh [progWord j.state j.done] noFlags

end Sys2Proof.Machine
end

