-- ==== Sys2Proof/Machine/Die.lean ====
section
/-! DEFINITION. What reaches the whole die or package (R267 to R278, R298 to R306): the region table and its
switches, ownership tokens, sync cells, shootdown, the `chime` and pinned lines. -/

namespace Sys2Proof.Machine

/-- `rgn.set`, `rgn.acq` and `rgn.rel` name a region of device memory; an address elsewhere traps PROT. -/
def State.regionOf (s : State) (pa : Nat) (va : DWord) : Res Nat :=
  match s.place pa with
  | .device da => .ok (da / 2097152) s
  | _ => .stop (s.raise 0x06 va none)

/-- The park on a region's entry (R267). -/
def State.parkRegion (s : State) (r : Nat) : State := s.park 1 (.line (regionEntryAddr r / 128 * 128))

/-- A bit of a region's entry set or cleared (R267). -/
def withBit (e : DWord) (i : Nat) (b : Bool) : DWord :=
  if b then e ||| BitVec.ofNat 64 (2 ^ i) else e &&& ~~~(BitVec.ofNat 64 (2 ^ i))

/-- The steps of `rgn.set` once its operands are read (R268): a switch recorded for another entry than the address's is
none of this one. -/
def State.setRegion (s : State) (sh : Shape) (va m : DWord) (kept : Option Nat) : State :=
  ((s.address va 1 .read).andThen fun pa s => s.regionOf pa va).run fun r s =>
    let e := s.regionEntry r
    if dbit e 1 then s.raise 0x06 va none
    else if kept = some r then (if dbit e 2 then s.parkRegion r else s.unkeep)
    else if dbit e 2 then s.parkRegion r
    else if dbit e 0 = (m == 1#64) then (s.fin sh).unkeep
    else
      let s := (s.setRegionEntry r (withBit e 2 true)).keep sh { kind := .switch r, a := va, b := m }
      ({ s with switches := s.switches ++ [{ region := r, kind := m == 1#64 }] } : State).parkRegion r

/-- `rgn.set` (R268): a started switch is kept across a park, and not across a trap (R128). -/
def execRgnSet (a b : RegNo) (s : State) : Host.Outcome State Fault Refusal :=
  let sh : Shape := { a := .w a, b := .g b, sup := true }
  match s.t.kept with
  | some { kind := .switch r, a := va, b := m } => s.within (recorded sh) fun _ s =>
    let s' := s.setRegion (recorded sh) va m (some r)
    if s'.fr.stopped && s'.t.life != .parked then s'.unkeep else s'
  | _ => s.within sh fun v s =>
    let m := gOf v.b
    if 1 < m.toNat then s.ill else s.setRegion sh (wOf v.a) (m.setWidth 64) none

/-- The watched lines, of waits, joins and peers, that satisfy a condition. -/
def State.watched (s : State) (p : Nat → Bool) : List Nat :=
  (s.threads.filterMap fun (th : Thread) => match th.park.map Park.key with
    | some (Key.line a) | some (Key.join a) => if p a then some a else none
    | _ => none) ++ (s.peerWatches.filter fun w => p w.2).map Prod.snd

/-- Switch(e, m) (R269): the updates in flight arrive, every L1 writes back and drops the region's lines, the
homes drop their watches, and the region switch, an uncore agent, sets the kind (R308). -/
def execSwitch (region : Nat) (s : State) : Host.Outcome State Fault Refusal :=
  match s.switches.find? fun w => w.region == region with
  | none => .next s
  | some w =>
    let s := s.settleAll
    let s := s.cores.foldl (fun s c => s.flushWhere c.1 fun l => l.inRegion region) s
    let s := s.lineChimes (s.watched fun a => a / 2097152 == region)
    let s := { s with switches := s.switches.filter fun w => w.region != region }
    if !s.agentGranted 5 (regionEntryAddr region) .write then
      .next (s.refuse (masterId 5 5) (regionEntryAddr region) .write none)
    else .next (s.setRegionEntry region (withBit (withBit (s.regionEntry region) 0 w.kind) 2 false))

/-- `rgn.acq` (R270). -/
def execRgnAcq (a : RegNo) (s : State) : Host.Outcome State Fault Refusal :=
  let sh : Shape := { a := .w a }
  s.within sh fun v s =>
    let va := wOf v.a
    ((s.memCheck va 1 .read).andThen fun pa s => s.regionOf pa va).run fun r s =>
      let e := s.regionEntry r
      let owner := e.extractLsb' 32 32
      if dbit e 3 ∧ owner ≠ s.t.handle then s.parkRegion r
      else
        let s := if dbit e 3 then s
          else s.setRegionEntry r (s.t.handle ++ (e.extractLsb' 16 16 + 1#16 ++ (e.extractLsb' 0 16 ||| 8#16) : Word))
        (((s.drain s.t.core).flushWhere s.t.core fun l => l.inRegion r).markAcquire s.t.core).fin sh

/-- `rgn.rel` (R270). -/
def execRgnRel (a : RegNo) (s : State) : Host.Outcome State Fault Refusal :=
  let sh : Shape := { a := .w a }
  s.within sh fun v s =>
    let va := wOf v.a
    ((s.memCheck va 1 .read).andThen fun pa s => s.regionOf pa va).run fun r s =>
      let e := s.regionEntry r
      if !dbit e 3 ∨ e.extractLsb' 32 32 ≠ s.t.handle then s.ill
      else (s.dropToken s.t.core r).fin sh

/-- A sync cell's fields (R271). -/
structure Cell where
  value : DWord
  rtime : DWord
  horizon : DWord
  gen : Word
  clave : BitVec 512

/-- A sync cell read from the bytes of its line (R271). -/
def cellOf (bs : List Byte) : Cell :=
  { value := BitVec.ofNat 64 (field bs 0 8), rtime := BitVec.ofNat 64 (field bs 8 8),
    horizon := BitVec.ofNat 64 (field bs 16 8), gen := BitVec.ofNat 32 (field bs 28 4),
    clave := BitVec.ofNat 512 (field bs 64 64) }

/-- The bytes of a sync cell that a writing operation leaves, with REL set (R271, R275). -/
def Cell.bytes (c : Cell) (sat : Bool) : List Byte :=
  leBytes 8 c.value.toNat ++ leBytes 8 c.rtime.toNat ++ leBytes 8 c.horizon.toNat ++
  leBytes 4 (if sat then 3 else 1) ++ leBytes 4 c.gen.toNat ++ List.replicate 32 0#8 ++ leBytes 64 c.clave.toNat

/-- The greater of two times. -/
def maxTime (a b : DWord) : DWord := if a.toNat < b.toNat then b else a

/-- What a sync-cell operation leaves in its cell: nothing for `sacq` and for a `scas` that fails, else its
value, clave and horizon, from the releaser's K and H (R275). -/
inductive CellOp where
  | srel (v : DWord)
  | sacq
  | sadd (b : DWord)
  | scas (expected v : DWord)
  deriving DecidableEq, Repr

/-- The value, clave and horizon that an operation writes (R275). -/
def CellOp.write (op : CellOp) (old : Cell) (k : BitVec 512) (h : DWord) : Option (DWord × BitVec 512 × DWord) :=
  match op with
  | .srel v => some (v, k, h)
  | .sacq => none
  | .sadd b => some (old.value + b, old.clave ||| k, maxTime old.horizon h)
  | .scas e v => if old.value = e then some (v, old.clave ||| k, maxTime old.horizon h) else none

/-- The cell after a write at time t, and SAT: the saturation rule (R275, R276). -/
def Cell.written (old : Cell) (w : DWord × BitVec 512 × DWord) (t : DWord) : Cell × Bool :=
  let sat := decide (160 < popBits w.2.1.toNat 512)
  ({ value := w.1, rtime := t, horizon := if sat then t else w.2.2, gen := old.gen + 1#32,
     clave := if sat then 0#512 else w.2.1 }, sat)

/-- The acquire side (R275): the sweep, after what the homes have sent the core (R283), the fold rule and the horizon. -/
def State.cellAcquire (s : State) (old : Cell) : State :=
  let h := sweepHorizon old.horizon.toNat
  let s := (s.drain s.t.core).flushWhere s.t.core fun l => !l.h && (sigHit old.clave (s.sigLine (128 * l.n)) || s.older l h)
  s.modT fun t =>
    let f := t.wfilter ||| old.clave
    let t := if popBits f.toNat 512 ≤ 160 then { t with wfilter := f } else { t with ht := maxTime t.ht old.rtime }
    { t with ht := maxTime t.ht old.horizon }

/-- The bytes of a cell as a core sees them: its own dirty bytes of a software-managed line over the home's (R277,
assumption 22). -/
def State.cellSeen (s : State) (c pa : Nat) : List Byte :=
  let home := s.homeRead pa 128
  match (s.core c).line? (lineNo (s.homeAddr pa)) with
  | some l => mergeDirty l.dirty l.data home
  | none => home

/-- The clean copies of a cell's bytes that an operation at core scope has written, in the core's own L1 (R125, R277). -/
def State.cellCopy (s : State) (c a : Nat) (bytes : List Byte) (written : BitVec 128) : State :=
  s.modCore c fun k => match k.line? (lineNo a) with
    | some l => k.putLine { l with
        data := mergeDirty written bytes l.data
        dirty := l.dirty &&& ~~~written
        pois := [false, false, false, false] }
    | none => k

/-- The bytes that a writing operation at core scope writes: all but HORIZON and CLAVE (R277). -/
def cellFields : BitVec 128 := byteMask 0 16 ||| byteMask 24 40

/-- A sync-cell operation at core scope (R277): the atomic action alone, which writes back nothing and leaves HORIZON and
CLAVE as they are (assumption 22). -/
def State.cellCore (s : State) (op : CellOp) (pa : Nat) : DWord × State :=
  let c := s.t.core
  let a := s.homeAddr pa
  let s := if s.regionH a then (s.sendLine c (lineNo a)).drainAt c a else s
  let old := cellOf (s.cellSeen c pa)
  match op.write old 0#512 0#64 with
  | none => (old.value, s)
  | some w =>
    let (t, s) := s.clockAt pa
    let new : Cell := { old with value := w.1, rtime := t, gen := old.gen + 1#32 }
    let bytes := new.bytes false
    let home := mergeDirty cellFields bytes (s.homeRead pa 128)
    (old.value, (s.cellCopy c a bytes cellFields).homeWrite (some c) pa home)

/-- A sync-cell operation at a wider scope, once `cellHome` has gone before (R275). -/
def State.cellWide (s : State) (op : CellOp) (pa : Nat) (sc : Scope) : DWord × State :=
  let c := s.t.core
  let k := s.t.wfilter ||| s.dirtySig c
  let h := maxTime s.t.ht (s.core c).am
  let s := if op = .sacq then s else s.release c sc
  let old := cellOf (s.homeRead pa 128)
  let (t, s) := s.clockAt pa
  let s := match op.write old k h with
    | none => s
    | some w =>
      let (new, sat) := old.written w t
      s.homeWrite (some c) pa (new.bytes sat)
  match op with
  | .srel _ => (old.value, s.modT fun th => { th with wfilter := 0#512, ht := t })
  | _ => (old.value, s.cellAcquire old)

/-- What a sync-cell operation at a wider scope does before it turns to the home: the core's copy of the cell's line is
written back and goes, and its writes to the line perform (R275). -/
def State.cellHome (s : State) (pa : Nat) (sc : Scope) : State :=
  let c := s.t.core
  let n := lineNo (s.homeAddr pa)
  if sc = .core then s else (s.flushWhere c fun l => l.n == n).sendLine c n

/-- A sync-cell operation on the line at an address; only `srel` takes a poisoned cell, and the poison is what stands after
the write-back (R275). -/
def State.syncCell (s : State) (op : CellOp) (va : DWord) (sc : Scope) : Res DWord :=
  (s.homeGranted va 128 (if op = .sacq then .syncRead else .atomic)).andThen fun pa s =>
    let s := s.cellHome pa sc
    let poisonMatters := match op with
      | .srel _ => false
      | _ => true
    if poisonMatters && s.homePois pa 128 then .stop (s.raise 0x0C va (some (.atomic, 128)))
    else
      let r := if sc = .core then s.cellCore op pa else s.cellWide op pa sc
      .ok r.1 r.2

/-- `srel` (R275). -/
def execSrel (d a : RegNo) (sc : Scope) (s : State) : Host.Outcome State Fault Refusal :=
  let sh : Shape := { a := .w a, dsrc := .w d, det := true }
  s.within sh fun v s => (s.syncCell (.srel (wOf v.d)) (wOf v.a) sc).run fun _ s => s.fin sh

/-- `sacq` (R275). -/
def execSacq (d a : RegNo) (sc : Scope) (s : State) : Host.Outcome State Fault Refusal :=
  let sh : Shape := { a := .w a, dst := .w d, det := true }
  s.within sh fun v s => (s.syncCell .sacq (wOf v.a) sc).run fun r s => s.put sh (wordsOf r) noFlags

/-- `sadd` (R275). -/
def execSadd (d a b : RegNo) (sc : Scope) (s : State) : Host.Outcome State Fault Refusal :=
  let sh : Shape := { a := .w a, b := .w b, dst := .w d, det := true }
  s.within sh fun v s => (s.syncCell (.sadd (wOf v.b)) (wOf v.a) sc).run fun r s => s.put sh (wordsOf r) noFlags

/-- `scas` (R275). -/
def execScas (d a b : RegNo) (sc : Scope) (s : State) : Host.Outcome State Fault Refusal :=
  let sh : Shape := { a := .w a, b := .w b, dst := .w d, dsrc := .w d, det := true }
  s.within sh fun v s =>
    (s.syncCell (.scas (wOf v.d) (wOf v.b)) (wOf v.a) sc).run fun r s => s.put sh (wordsOf r) noFlags

/-- What a `tlbi` names: a page of an address space, an address space, or everything (R298). -/
inductive Shoot where
  | page (asn : BitVec 16) (va : DWord)
  | asn (asn : BitVec 16)
  | all
  deriving DecidableEq, Repr

/-- A translation is named (R298). -/
def Shoot.names (x : Shoot) (e : Tlb) : Bool :=
  match x with
  | .page a va => e.within a va
  | .asn a => e.asn == a
  | .all => true

/-- A cached address-space entry is named (R298). -/
def Shoot.namesSpace (x : Shoot) (asn : BitVec 16) : Bool :=
  match x with
  | .page _ _ => false
  | .asn a => asn == a
  | .all => true

/-- A translation through which something was filled, or which an access holds, is named too: that of a page, by its size
code, that contains the named one (R298). -/
def Shoot.reaches (x : Shoot) (asn : BitVec 16) (vpn : BitVec 41) (size : Nat) : Bool :=
  match x with
  | .page a va => asn == a && vpn.toNat / 2 ^ (pageShift size - 16) == pageOf va size
  | .asn a => asn == a
  | .all => true

/-- The accesses that hold a dropped translation and have begun perform (R298): the loads that have missed, and the stores
to coherent lines that are on their way to the home. A store that waits in a buffer for its boundary has not begun: it is
to be translated again. -/
def State.finishAccesses (s : State) (x : Shoot) : State :=
  let loads := s.threads.flatMap fun th =>
    (th.loads.filter fun y => x.reaches th.asn y.vpn y.size).map fun y => (th.ckey, y)
  let s := loads.foldl (fun s p => s.performFirst p.1 p.2) s
  let stores := s.cores.flatMap fun c =>
    (c.2.sent.filter fun w => !w.home && x.reaches w.asn w.vpn w.size).map fun w => (c.1, lineNo w.pa)
  let s := stores.foldl (fun s p => s.sendLine p.1 p.2) s
  s.mapThreads fun th => { th with slines := th.slines.map fun l =>
    (l.1, l.2.1, l.2.2.1, l.2.2.2 || x.reaches th.asn l.2.1 l.2.2.1) }

/-- Shootdown in every cluster: what has begun performs, and what was filled through the dropped translations is written
back and invalidated (R298). -/
def State.shoot (s : State) (x : Shoot) : State :=
  let keep := fun (l : List Tlb) => l.filter fun e => !x.names e
  let clean := fun (k : Cluster) => { k with
    tlb := keep k.tlb, asEntries := k.asEntries.filter fun e => !x.namesSpace (BitVec.ofNat 16 e.1) }
  let s : State := { s with
    clusters := s.clusters.map fun c => (c.1, clean c.2)
    cores := s.cores.map fun c => (c.1, { c.2 with dtlb := keep c.2.dtlb, itlb := keep c.2.itlb }) }
  let s := s.finishAccesses x
  s.cores.foldl (fun s c =>
    (s.flushWhere c.1 fun l => x.reaches l.asn l.vpn l.size).modCore c.1 fun k =>
      { k with icache := k.icache.filter fun w => !x.reaches w.2.asn w.2.vpn w.2.size }) s

/-- `tlbi` (R298). -/
def execTlbi (a : RegNo) (s : State) : Host.Outcome State Fault Refusal :=
  let sh : Shape := { a := .w a, sup := true, det := true }
  s.within sh fun v s =>
    let w := wOf v.a
    if !canonical w then s.raise 0x04 w none
    else
      let va := BitVec.ofNat 64 (w.toNat / 65536 * 65536)
      ((s.release s.t.core .package).shoot (.page (w.extractLsb' 0 16) va)).fin sh

/-- `tlbi.asn` (R298). -/
def execTlbiAsn (a : RegNo) (s : State) : Host.Outcome State Fault Refusal :=
  let sh : Shape := { a := .g a, sup := true, det := true }
  s.within sh fun v s =>
    let w := gOf v.a
    if wbits w 31 16 ≠ 0 then s.ill
    else ((s.release s.t.core .package).shoot (.asn (w.extractLsb' 0 16))).fin sh

/-- `tlbi.all` (R298). -/
def execTlbiAll (s : State) : Host.Outcome State Fault Refusal :=
  s.within { sup := true, det := true } fun _ s => (s.release s.t.core .package).shoot .all

/-- The ended thread that a pending decrement acts for (R387). -/
def PendDec.thread (d : PendDec) (lid : Word) (asn : BitVec 16) : Thread :=
  { core := d.core, num := wbits d.handle 9 0, gen := d.handle.extractLsb' 22 10, lid := lid, asn := asn, tix := d.tix,
    path := d.path, tctl := if d.mode then 64#32 else 0#32 }

/-- Retry the pending decrements that satisfy a condition (R387). -/
def State.retryDecs (s : State) (p : Word → Launch → PendDec → Bool) : State :=
  s.launches.foldl (fun s x =>
    let lid := BitVec.ofNat 32 x.1
    let due := x.2.pend.filter (p lid x.2)
    let s := s.modLaunch lid fun l => { l with pend := l.pend.filter fun d => !p lid x.2 d }
    due.foldl (fun s d => s.decrement (d.thread lid x.2.asn) d.va) s) s

/-- A page's Chime reaches what the Gong has frozen: it is kept as a mark (R316, R348). -/
def Image.chimed (asn : BitVec 16) (vpn : BitVec 41) (img : Image) : Image :=
  { img with
    ctxs := img.ctxs.map fun f =>
      if f.th.park.map (·.key) = some (.page asn vpn) then { f with th := { f.th with wake := true } } else f
    jobs := img.jobs.map fun j => (j.1, j.2.pageChimed asn vpn true) }

/-- A `chime` on a page in every die (R303, R387). -/
def State.chimePage (s : State) (asn : BitVec 16) (vpn : BitVec 41) : State :=
  let drop := fun (k : Die) => { k with outst := k.outst.filter fun p => p != (asn, vpn) }
  let s : State := { s with
    dies := s.dies.map fun d => (d.1, drop d.2)
    images := s.images.map fun x => (x.1, x.2.chimed asn vpn)
    unplaced := s.unplaced.map fun x => (x.1, x.2.chimed asn vpn) }
  ((s.chime (.page asn vpn)).chimeJobs asn vpn).retryDecs fun _ l d => l.asn == asn && vpnOf d.va == vpn

/-- `chime` (R303). -/
def execChime (a : RegNo) (s : State) : Host.Outcome State Fault Refusal :=
  let sh : Shape := { a := .w a, sup := true }
  s.within sh fun v s =>
    let w := wOf v.a
    if !canonical w then s.raise 0x04 w none
    else ((s.release s.t.core .package).chimePage (w.extractLsb' 0 16) (vpnOf w)).fin sh

/-- A write to a die's chime port (R303); a value that is not canonical is reported with machine event 10. -/
def execChimePortWrite (die : Nat) (master : BitVec 20) (v : DWord) (s : State) : Host.Outcome State Fault Refusal :=
  if canonical v then .next (s.chimePage (v.extractLsb' 0 16) (vpnOf v))
  else .next (s.machineEvent die 10 none (leBytes 8 v.toNat ++ leBytes 4 master.toNat))

/-- The lines of `l2pin` and `l2unpin`, each checked and then changed (R306). -/
def State.pinLines (s : State) (f : State → Nat → State) (va : DWord) : Nat → Res PUnit
  | 0 => .ok .unit s
  | n + 1 => (s.memCheck va 128 .read).andThen fun pa s =>
    let s := match s.place pa with
      | .device da => f s (lineNo da)
      | _ => s
    s.pinLines f (va + 128#64) n

/-- Pin a line, where its slice pins fewer than 4,096 (R306). -/
def State.pin (s : State) (n : Nat) : State :=
  let slice := fun n => (homeDie (128 * n), homeSlice (128 * n))
  if s.pins.contains n || decide (4096 ≤ (s.pins.filter fun m => slice m == slice n).length) then s
  else { s with pins := sinsert n s.pins }

/-- `l2pin` (R306). -/
def execL2pin (a b : RegNo) (s : State) : Host.Outcome State Fault Refusal :=
  let sh : Shape := { a := .w a, b := .g b, sup := true }
  s.within sh fun v s =>
    let va := wOf v.a
    let n := (gOf v.b).toNat
    if n % 128 ≠ 0 then s.ill
    else if va.toNat % 128 ≠ 0 then s.raise 0x03 va none
    else (s.pinLines State.pin va (n / 128)).run fun _ s => s.fin sh

/-- `l2unpin` (R306). -/
def execL2unpin (a b : RegNo) (s : State) : Host.Outcome State Fault Refusal :=
  let sh : Shape := { a := .w a, b := .g b, sup := true }
  s.within sh fun v s =>
    let va := wOf v.a
    let n := (gOf v.b).toNat
    if n % 128 ≠ 0 then s.ill
    else if n = 0 then ({ s with pins := [] } : State).fin sh
    else if va.toNat % 128 ≠ 0 then s.raise 0x03 va none
    else (s.pinLines (fun s n => { s with pins := sremove n s.pins }) va (n / 128)).run fun _ s => s.fin sh

end Sys2Proof.Machine
end

