-- ==== Sys2Proof/Machine/Memory.lean ====
section
/-! DEFINITION. Loads, stores, multiple transfers, prefetch, atomics, fences and waits (R120 to R135). -/

namespace Sys2Proof.Machine

/-- The address of a plain access (R67, R121): none below 0 in a scratchpad space. -/
def plainAddr (sp : Space) (base : List Reg) (imm : BitVec 9) (n : Nat) : Int :=
  (if sp = .global then ((wOf base).toNat : Int) else ((gOf base).toNat : Int)) + imm.toInt * n

/-- The bytes of a plain load of the scratchpad (R121). -/
def State.plainLoad (s : State) (sp : Space) (base : List Reg) (imm : BitVec 9) (n : Nat) : Res (List Byte) :=
  let va := plainAddr sp base imm n
  if va < 0 then .stop (s.raise 0x05 (BitVec.ofInt 64 va) (some (.read, n)))
  else s.loadScratch sp va.toNat n

/-- A plain store (R121). -/
def State.plainStore (s : State) (sp : Space) (base : List Reg) (imm : BitVec 9) (bytes : List Byte) : Res Unit :=
  let n := bytes.length
  let va := plainAddr sp base imm n
  if sp = .global then s.storeGlobal (BitVec.ofInt 64 va) bytes false
  else if va < 0 then .stop (s.raise 0x05 (BitVec.ofInt 64 va) (some (.write, n)))
  else s.storeScratch sp va.toNat bytes

/-- The bytes that a store sends (R120). -/
def storeBytes (n : Nat) (l : List Reg) : List Byte := (l.flatMap fun r => leBytes 4 r.val.toNat).take n

/-- StoreData of the D field; the low half of a quad at w0 is 0 (R121). -/
def quadRegs (d : RegNo) (l : List Reg) : List Reg := if d = 0 then [default, default] ++ l else l
/-- StoreData of a w pair. -/
def pairRegs (d : RegNo) (l : List Reg) : List Reg := if d = 0 then [default, default] else l

/-- The loads of every thread that have missed perform. -/
def State.settleLoads (s : State) : State :=
  (s.threads.filter fun th => !th.loads.isEmpty).foldl (fun s th => s.performLoads th.ckey) s

/-- A load that misses may perform after its bundle (R284): from memory whose target grants it, of a sector that is not
poisoned, into registers. -/
def State.mayWait (s : State) (pa n : Nat) (dst : Opd) : Bool :=
  s.fr.late && !s.t.det && s.upset == 0 && s.atMemory pa .read && !s.l1Hit s.t.core (s.homeAddr pa) &&
    !s.homePois pa n && !(opRegs dst).any s.src.isQueue

/-- A load that has missed is left to perform later (R284). -/
def State.leaveLoad (s : State) (pa : Nat) (va : DWord) (n : Nat) (signed : Bool) (regs : List Nat) : State :=
  s.modT fun t => { t with
    loads := t.loads ++ [{ pa := pa, vpn := vpnOf va, size := s.pageSize t.core false t.asn va, n := n, signed := signed,
                           regs := regs, at' := s.ticks }] }

/-- A plain load of the global space (R120, R121): it performs with its bundle, or is left to perform later (R284). -/
def State.ldGlobal (s : State) (sh : Shape) (va : DWord) (n : Nat) (signed : Bool) : State :=
  (s.memCheck va n .read).run fun pa s =>
    let s := s.meetLoads (s.homeAddr pa)
    if s.mayWait pa n sh.dst then (s.leaveLoad pa va n signed (opRegs sh.dst)).fin sh
    else (s.readGlobal pa va n false).run fun bytes s => s.put sh (loadWords signed bytes) noFlags

/-- A plain load (R120, R121). -/
def State.ld (s : State) (dst : Opd) (a : RegNo) (sp : Space) (imm : BitVec 9) (n : Nat) (signed : Bool) :
    Host.Outcome State Fault Refusal :=
  let sh : Shape := { a := baseOpd sp a, dst := dst }
  s.within sh fun v s =>
    if sp = .global then s.ldGlobal sh (BitVec.ofInt 64 (plainAddr sp v.a imm n)) n signed
    else (s.plainLoad sp v.a imm n).run fun bytes s => s.put sh (loadWords signed bytes) noFlags

/-- A plain store (R120, R121). -/
def State.st (s : State) (src : Opd) (a : RegNo) (sp : Space) (imm : BitVec 9) (bytes : Vals → List Byte) :
    Host.Outcome State Fault Refusal :=
  let sh : Shape := { a := baseOpd sp a, dsrc := src }
  s.within sh fun v s => (s.plainStore sp v.a imm (bytes v)).run fun _ s => s.fin sh

/-- The acquire of an ordered access after it performs (R124). -/
def State.afterOrd (s : State) (sc : Scope) (od : Ord) : State :=
  if od = .acquire ∨ od = .acqRel then s.acquire s.t.core sc else s
/-- The release of an ordered access before it performs (R124). -/
def State.beforeOrd (s : State) (sc : Scope) (od : Ord) : State :=
  if od = .release ∨ od = .acqRel then s.release s.t.core sc else s

/-- An ordered load (R120, R121, R124). -/
def State.ldOrd (s : State) (dst : Opd) (a : RegNo) (sc : Scope) (od : Ord) (n : Nat) (signed : Bool) :
    Host.Outcome State Fault Refusal :=
  let sh : Shape := { a := .w a, dst := dst, det := true }
  s.within sh fun v s => (s.loadGlobal (wOf v.a) n (sc != .core)).run fun bytes s =>
    (s.afterOrd sc od).put sh (loadWords signed bytes) noFlags

/-- An ordered store (R120, R121, R124). -/
def State.stOrd (s : State) (src : Opd) (a : RegNo) (sc : Scope) (od : Ord) (bytes : Vals → List Byte) :
    Host.Outcome State Fault Refusal :=
  let sh : Shape := { a := .w a, dsrc := src, det := true }
  s.within sh fun v s => ((s.memCheck (wOf v.a) (bytes v).length .write).andThen fun pa s =>
    (s.beforeOrd sc od).writeGlobal pa (wOf v.a) (bytes v) (sc != .core || s.t.det)).run fun _ s => s.fin sh

/-- `ld8s` (R120, R121). -/
def execLd8s (d a : RegNo) (sp : Space) (imm : BitVec 9) (s : State) : Host.Outcome State Fault Refusal :=
  s.ld (.g d) a sp imm 1 true

/-- Ordered `ld8s` (R120, R121). -/
def execLd8sOrd (d a : RegNo) (sc : Scope) (od : Ord) (s : State) : Host.Outcome State Fault Refusal :=
  s.ldOrd (.g d) a sc od 1 true

/-- `ld8z` (R120, R121). -/
def execLd8z (d a : RegNo) (sp : Space) (imm : BitVec 9) (s : State) : Host.Outcome State Fault Refusal :=
  s.ld (.g d) a sp imm 1 false

/-- Ordered `ld8z` (R120, R121). -/
def execLd8zOrd (d a : RegNo) (sc : Scope) (od : Ord) (s : State) : Host.Outcome State Fault Refusal :=
  s.ldOrd (.g d) a sc od 1 false

/-- `ld16s` (R120, R121). -/
def execLd16s (d a : RegNo) (sp : Space) (imm : BitVec 9) (s : State) : Host.Outcome State Fault Refusal :=
  s.ld (.g d) a sp imm 2 true

/-- Ordered `ld16s` (R120, R121). -/
def execLd16sOrd (d a : RegNo) (sc : Scope) (od : Ord) (s : State) : Host.Outcome State Fault Refusal :=
  s.ldOrd (.g d) a sc od 2 true

/-- `ld16z` (R120, R121). -/
def execLd16z (d a : RegNo) (sp : Space) (imm : BitVec 9) (s : State) : Host.Outcome State Fault Refusal :=
  s.ld (.g d) a sp imm 2 false

/-- Ordered `ld16z` (R120, R121). -/
def execLd16zOrd (d a : RegNo) (sc : Scope) (od : Ord) (s : State) : Host.Outcome State Fault Refusal :=
  s.ldOrd (.g d) a sc od 2 false

/-- `ld32` (R120, R121). -/
def execLd32 (d a : RegNo) (sp : Space) (imm : BitVec 9) (s : State) : Host.Outcome State Fault Refusal :=
  s.ld (.g d) a sp imm 4 false

/-- Ordered `ld32` (R120, R121). -/
def execLd32Ord (d a : RegNo) (sc : Scope) (od : Ord) (s : State) : Host.Outcome State Fault Refusal :=
  s.ldOrd (.g d) a sc od 4 false

/-- `ld64` (R120, R121). -/
def execLd64 (d a : RegNo) (sp : Space) (imm : BitVec 9) (s : State) : Host.Outcome State Fault Refusal :=
  s.ld (.w d) a sp imm 8 false

/-- Ordered `ld64` (R120, R121). -/
def execLd64Ord (d a : RegNo) (sc : Scope) (od : Ord) (s : State) : Host.Outcome State Fault Refusal :=
  s.ldOrd (.w d) a sc od 8 false

/-- `ld128` (R120, R121). -/
def execLd128 (d a : RegNo) (sp : Space) (imm : BitVec 9) (s : State) : Host.Outcome State Fault Refusal :=
  s.ld (.quad d) a sp imm 16 false

/-- Ordered `ld128` (R120, R121). -/
def execLd128Ord (d a : RegNo) (sc : Scope) (od : Ord) (s : State) : Host.Outcome State Fault Refusal :=
  s.ldOrd (.quad d) a sc od 16 false

/-- `st8` (R120, R121). -/
def execSt8 (d a : RegNo) (sp : Space) (imm : BitVec 9) (s : State) : Host.Outcome State Fault Refusal :=
  s.st (.g d) a sp imm fun v => storeBytes 1 v.d

/-- Ordered `st8` (R120, R121). -/
def execSt8Ord (d a : RegNo) (sc : Scope) (od : Ord) (s : State) : Host.Outcome State Fault Refusal :=
  s.stOrd (.g d) a sc od fun v => storeBytes 1 v.d

/-- `st16` (R120, R121). -/
def execSt16 (d a : RegNo) (sp : Space) (imm : BitVec 9) (s : State) : Host.Outcome State Fault Refusal :=
  s.st (.g d) a sp imm fun v => storeBytes 2 v.d

/-- Ordered `st16` (R120, R121). -/
def execSt16Ord (d a : RegNo) (sc : Scope) (od : Ord) (s : State) : Host.Outcome State Fault Refusal :=
  s.stOrd (.g d) a sc od fun v => storeBytes 2 v.d

/-- `st32` (R120, R121). -/
def execSt32 (d a : RegNo) (sp : Space) (imm : BitVec 9) (s : State) : Host.Outcome State Fault Refusal :=
  s.st (.g d) a sp imm fun v => storeBytes 4 v.d

/-- Ordered `st32` (R120, R121). -/
def execSt32Ord (d a : RegNo) (sc : Scope) (od : Ord) (s : State) : Host.Outcome State Fault Refusal :=
  s.stOrd (.g d) a sc od fun v => storeBytes 4 v.d

/-- `st64` (R120, R121). -/
def execSt64 (d a : RegNo) (sp : Space) (imm : BitVec 9) (s : State) : Host.Outcome State Fault Refusal :=
  s.st (.w d) a sp imm fun v => storeBytes 8 (pairRegs d v.d)

/-- Ordered `st64` (R120, R121). -/
def execSt64Ord (d a : RegNo) (sc : Scope) (od : Ord) (s : State) : Host.Outcome State Fault Refusal :=
  s.stOrd (.w d) a sc od fun v => storeBytes 8 (pairRegs d v.d)

/-- `st128` (R120, R121). -/
def execSt128 (d a : RegNo) (sp : Space) (imm : BitVec 9) (s : State) : Host.Outcome State Fault Refusal :=
  s.st (.quad d) a sp imm fun v => storeBytes 16 (quadRegs d v.d)

/-- Ordered `st128` (R120, R121). -/
def execSt128Ord (d a : RegNo) (sc : Scope) (od : Ord) (s : State) : Host.Outcome State Fault Refusal :=
  s.stOrd (.quad d) a sc od fun v => storeBytes 16 (quadRegs d v.d)

/-- An element of an `ldm` or `stm` is done (R128): `tprog` counts it, and the thread keeps from which element this
instruction began. -/
def State.elementDone (s : State) (start i : Nat) : State :=
  s.modT fun t => { t with tprog := BitVec.ofNat 32 (i + 1), xfer := some { pc := s.fr.first, start := start, next := i + 1 } }

/-- The element from which the `ldm` or `stm` in execution began: `tprog`, unless it goes on after an interruption
(R125, R128). -/
def State.xferStart (s : State) : Nat :=
  let i := s.t.tprog.toNat
  match s.t.xfer with
  | some x => if x.pc = s.fr.first ∧ x.next = i then x.start else i
  | none => i

/-- An element of an `ldm` (R128): it performs, or is left to perform later where it misses (R284). -/
def State.ldmElement (s : State) (r : Nat) (va : DWord) : Res Unit :=
  (s.memCheck va 4 .read).andThen fun pa s =>
    let s := s.meetLoads (s.homeAddr pa)
    if s.mayWait pa 4 (.g (BitVec.ofNat 6 r)) then .ok () (s.leaveLoad pa va 4 false [r])
    else (s.readGlobal pa va 4 false).andThen fun bytes s =>
      .ok () (s.writeRegs s.src [(r, BitVec.ofNat 32 (leNat bytes))])

/-- The elements of an `ldm` that are left, in ascending order; `tprog` counts the done ones (R128). With no more than
`b` to go before other events, it stands off there. -/
def State.ldmLoop (s : State) (d : Nat) (va0 : DWord) (start i : Nat) : Nat → Option Nat → Res Unit
  | 0, _ => .ok () s
  | _ + 1, some 0 => .stop s.standOff
  | n + 1, b =>
    (s.ldmElement (d + i) (va0 + BitVec.ofNat 64 (4 * i))).andThen fun _ s =>
      (s.elementDone start i).ldmLoop d va0 start (i + 1) n (b.map (· - 1))

/-- The elements of an `stm` that are left; eight words of one sector that this instruction has stored make it written
whole (R125, R128). -/
def State.stmLoop (s : State) (regs : List Reg) (va0 : DWord) (start i : Nat) : Nat → Option Nat → Res Unit
  | 0, _ => .ok () s
  | _ + 1, some 0 => .stop s.standOff
  | n + 1, b =>
    let va := va0 + BitVec.ofNat 64 (4 * i)
    (s.memCheck va 4 .write).andThen fun pa s =>
      (s.writeGlobal pa va (leBytes 4 (regs.headD {}).val.toNat) false).andThen fun _ s =>
        let a := s.homeAddr pa
        let s :=
          if a % 32 = 28 ∧ start + 7 ≤ i ∧ s.atMemory pa .write then
            if s.t.det then s.modT fun t => { t with swhole := sinsert (a / 32) t.swhole }
            else s.wholeSector s.t.core a
          else s
        (s.elementDone start i).stmLoop (regs.drop 1) va0 start (i + 1) n (b.map (· - 1))

/-- The elements at which the evaluation stands off: after one more than the free number (R128). -/
def State.burst (s : State) : Option Nat := s.fr.burst.map (· + 1)

/-- An `ldm` or `stm` completes (R128). -/
def State.xferEnd (s : State) (sh : Shape) : State := (s.fin sh).modT fun t => { t with tprog := 0#32, xfer := none }

/-- An `ldm` that goes no further leaves no load outstanding: what `tprog` counts is done (R128). -/
def State.ldmEnd (sh : Shape) : Res Unit → State
  | .ok _ s => s.xferEnd sh
  | .stop s => s.performLoads s.t.ckey

/-- `ldm`: n + 1 elements, from `tprog` on (R127, R128). -/
def execLdm (d a : RegNo) (n : BitVec 5) (s : State) : Host.Outcome State Fault Refusal :=
  let sh : Shape := { a := .w a, dst := .span d (n.toNat + 1) }
  s.within sh fun v s =>
    let va0 := wOf v.a
    if va0.toNat % 4 ≠ 0 then s.raise 0x03 va0 (some (.read, 4))
    else
      let i := s.t.tprog.toNat
      State.ldmEnd sh (s.ldmLoop d.toNat va0 s.xferStart i (n.toNat + 1 - i) s.burst)

/-- The registers that an evaluation of an `stm` reads: those of the elements not yet done (R128). -/
def stmShape (d a : RegNo) (n : BitVec 5) (done : Nat) : Shape :=
  { a := .w a, dsrc := .span (d + BitVec.ofNat 6 done) (n.toNat + 1 - done) }

/-- `stm`: n + 1 elements, from `tprog` on (R127, R128). -/
def execStm (d a : RegNo) (n : BitVec 5) (s : State) : Host.Outcome State Fault Refusal :=
  let full : Shape := { a := .w a, dsrc := .span d (n.toNat + 1) }
  if !full.classOk || !s.namesOk full then .next s.ill
  else
    let i := s.t.tprog.toNat
    let sh := stmShape d a n (min i (n.toNat + 1))
    s.within sh fun v s =>
      let va0 := wOf v.a
      if va0.toNat % 4 ≠ 0 then s.raise 0x03 va0 (some (.write, 4))
      else (s.stmLoop v.d va0 s.xferStart i (n.toNat + 1 - i) s.burst).run fun _ s => s.xferEnd sh

/-- The line that a prefetch may fill, where nothing stands against it (R129). -/
def State.pfTarget (s : State) (va : DWord) : Option Nat × State :=
  let line := va &&& ~~~127#64
  let (pa, s) :=
    if !canonical va then (none, s)
    else if s.t.boot then (some line.toNat, s)
    else match s.lookupCore s.t.core false s.t.asn line with
      | (.hit e, s) =>
        (if e.permits s.t.mode .read && e.grantsTo (if s.t.mode then 1 else 0) .read then some (e.pa line) else none, s)
      | (_, s) => (none, s)
  match pa with
  | some pa =>
    let a := s.homeAddr pa
    if s.atMemory pa .read && !s.homePois pa 128 && !s.regionSwitching a && !s.heldByPeer a then (some pa, s) else (none, s)
  | none => (none, s)

/-- The address of a prefetch, from its operand (R129). -/
def pfAddr (base : DWord) (imm : BitVec 9) : DWord := BitVec.ofInt 64 ((base.toNat : Int) + imm.toInt * 128)

/-- `pf`: a fill of L1, or of the home L2 slice, which holds memory (R129, R263). An operand that would stop another
instruction, a poisoned register or a short queue, makes it do nothing. -/
def execPf (d a : RegNo) (imm : BitVec 9) (s : State) : Host.Outcome State Fault Refusal :=
  if !s.namesOk { a := .w a } then .next s.ill
  else
    let sh := s.pfShape a
    s.within sh fun v s =>
      if sh.a = .no then s
      else
        let va := pfAddr (wOf v.a) imm
        let (pa, s') := s.pfTarget va
        let s' := match pa with
          | some pa =>
            let a := s'.homeAddr pa
            let s' := s'.takeGrant pa false
            if d = 0 then
              (s'.allocLine s'.t.core a s'.t.asn (vpnOf va) (s'.pageSize s'.t.core false s'.t.asn va)).fillLine s'.t.core a
            else s'
          | none => s'
        s'.fin sh

/-- The new value of an atomic, none where a `cas` fails (R130). -/
inductive AmoOp where
  | add | and | or | xor | min | max | minn | maxn | swp | cas | fadd | fmin | fmax
  deriving DecidableEq, Repr

/-- An atomic on n-bit values: the old value, the operand and the expected value (R130). -/
def AmoOp.apply {n : Nat} (op : AmoOp) (f : Fmt) (old x e : BitVec n) : Option (BitVec n) :=
  match op with
  | .add => some (old + x)
  | .and => some (old &&& x)
  | .or => some (old ||| x)
  | .xor => some (old ^^^ x)
  | .min => some (minMaxS false old x)
  | .max => some (minMaxS true old x)
  | .minn => some (minMaxU false old x)
  | .maxn => some (minMaxU true old x)
  | .swp => some x
  | .cas => if old = e then some x else none
  | .fadd => some (BitVec.ofNat n (fpAdd f .rne old.toNat x.toNat).1)
  | .fmin => some (BitVec.ofNat n (fpMinMax f false old.toNat x.toNat).1)
  | .fmax => some (BitVec.ofNat n (fpMinMax f true old.toNat x.toNat).1)

/-- An atomic at the home of its location (R131). -/
def State.atomicAt (s : State) (pa : Nat) (va : DWord) (n : Nat) (f : Nat → Option Nat) : Res Nat :=
  let c := s.t.core
  let a := s.homeAddr pa
  let h := s.regionH a
  ((s.atHome c a).readHome pa va n .atomic).andThen fun old s =>
    let s := match f old with
      | some new => s.atomicWrite c pa (leBytes n new)
      | none => s
    .ok old (if h then s else s.addFilter pa)

/-- `amo` on a word (R130, R131). -/
def State.amoW (s : State) (op : AmoOp) (d a b : RegNo) (sc : Scope) (od : Ord) : Host.Outcome State Fault Refusal :=
  let sh : Shape := { a := .w a, b := .g b, dst := .g d, dsrc := if op = .cas then .g d else .no, det := true }
  s.within sh fun v s =>
    ((s.homeCheck (wOf v.a) 4 .atomic).andThen fun pa s =>
      (s.beforeOrd sc od).atomicAt pa (wOf v.a) 4 fun old =>
        (op.apply .f32 (BitVec.ofNat 32 old) (gOf v.b) (gOf v.d)).map BitVec.toNat).run fun old s =>
      (s.afterOrd sc od).put sh [BitVec.ofNat 32 old] noFlags

/-- `amo` on a double word (R130, R131). -/
def State.amoD (s : State) (op : AmoOp) (d a b : RegNo) (sc : Scope) (od : Ord) : Host.Outcome State Fault Refusal :=
  let sh : Shape := { a := .w a, b := .w b, dst := .w d, dsrc := if op = .cas then .w d else .no, det := true }
  s.within sh fun v s =>
    ((s.homeCheck (wOf v.a) 8 .atomic).andThen fun pa s =>
      (s.beforeOrd sc od).atomicAt pa (wOf v.a) 8 fun old =>
        (op.apply .f64 (BitVec.ofNat 64 old) (wOf v.b) (wOf v.d)).map BitVec.toNat).run fun old s =>
      (s.afterOrd sc od).put sh (wordsOf (BitVec.ofNat 64 old)) noFlags

/-- `amo.add.w` (R130). -/
def execAmoAddW (d a b : RegNo) (sc : Scope) (od : Ord) (s : State) : Host.Outcome State Fault Refusal :=
  s.amoW .add d a b sc od

/-- `amo.add.d` (R130). -/
def execAmoAddD (d a b : RegNo) (sc : Scope) (od : Ord) (s : State) : Host.Outcome State Fault Refusal :=
  s.amoD .add d a b sc od

/-- `amo.and.w` (R130). -/
def execAmoAndW (d a b : RegNo) (sc : Scope) (od : Ord) (s : State) : Host.Outcome State Fault Refusal :=
  s.amoW .and d a b sc od

/-- `amo.and.d` (R130). -/
def execAmoAndD (d a b : RegNo) (sc : Scope) (od : Ord) (s : State) : Host.Outcome State Fault Refusal :=
  s.amoD .and d a b sc od

/-- `amo.or.w` (R130). -/
def execAmoOrW (d a b : RegNo) (sc : Scope) (od : Ord) (s : State) : Host.Outcome State Fault Refusal :=
  s.amoW .or d a b sc od

/-- `amo.or.d` (R130). -/
def execAmoOrD (d a b : RegNo) (sc : Scope) (od : Ord) (s : State) : Host.Outcome State Fault Refusal :=
  s.amoD .or d a b sc od

/-- `amo.xor.w` (R130). -/
def execAmoXorW (d a b : RegNo) (sc : Scope) (od : Ord) (s : State) : Host.Outcome State Fault Refusal :=
  s.amoW .xor d a b sc od

/-- `amo.xor.d` (R130). -/
def execAmoXorD (d a b : RegNo) (sc : Scope) (od : Ord) (s : State) : Host.Outcome State Fault Refusal :=
  s.amoD .xor d a b sc od

/-- `amo.min.w` (R130). -/
def execAmoMinW (d a b : RegNo) (sc : Scope) (od : Ord) (s : State) : Host.Outcome State Fault Refusal :=
  s.amoW .min d a b sc od

/-- `amo.min.d` (R130). -/
def execAmoMinD (d a b : RegNo) (sc : Scope) (od : Ord) (s : State) : Host.Outcome State Fault Refusal :=
  s.amoD .min d a b sc od

/-- `amo.max.w` (R130). -/
def execAmoMaxW (d a b : RegNo) (sc : Scope) (od : Ord) (s : State) : Host.Outcome State Fault Refusal :=
  s.amoW .max d a b sc od

/-- `amo.max.d` (R130). -/
def execAmoMaxD (d a b : RegNo) (sc : Scope) (od : Ord) (s : State) : Host.Outcome State Fault Refusal :=
  s.amoD .max d a b sc od

/-- `amo.minn.w` (R130). -/
def execAmoMinnW (d a b : RegNo) (sc : Scope) (od : Ord) (s : State) : Host.Outcome State Fault Refusal :=
  s.amoW .minn d a b sc od

/-- `amo.minn.d` (R130). -/
def execAmoMinnD (d a b : RegNo) (sc : Scope) (od : Ord) (s : State) : Host.Outcome State Fault Refusal :=
  s.amoD .minn d a b sc od

/-- `amo.maxn.w` (R130). -/
def execAmoMaxnW (d a b : RegNo) (sc : Scope) (od : Ord) (s : State) : Host.Outcome State Fault Refusal :=
  s.amoW .maxn d a b sc od

/-- `amo.maxn.d` (R130). -/
def execAmoMaxnD (d a b : RegNo) (sc : Scope) (od : Ord) (s : State) : Host.Outcome State Fault Refusal :=
  s.amoD .maxn d a b sc od

/-- `amo.swp.w` (R130). -/
def execAmoSwpW (d a b : RegNo) (sc : Scope) (od : Ord) (s : State) : Host.Outcome State Fault Refusal :=
  s.amoW .swp d a b sc od

/-- `amo.swp.d` (R130). -/
def execAmoSwpD (d a b : RegNo) (sc : Scope) (od : Ord) (s : State) : Host.Outcome State Fault Refusal :=
  s.amoD .swp d a b sc od

/-- `amo.cas.w` (R130). -/
def execAmoCasW (d a b : RegNo) (sc : Scope) (od : Ord) (s : State) : Host.Outcome State Fault Refusal :=
  s.amoW .cas d a b sc od

/-- `amo.cas.d` (R130). -/
def execAmoCasD (d a b : RegNo) (sc : Scope) (od : Ord) (s : State) : Host.Outcome State Fault Refusal :=
  s.amoD .cas d a b sc od

/-- `amo.fadd.w` (R130). -/
def execAmoFaddW (d a b : RegNo) (sc : Scope) (od : Ord) (s : State) : Host.Outcome State Fault Refusal :=
  s.amoW .fadd d a b sc od

/-- `amo.fadd.d` (R130). -/
def execAmoFaddD (d a b : RegNo) (sc : Scope) (od : Ord) (s : State) : Host.Outcome State Fault Refusal :=
  s.amoD .fadd d a b sc od

/-- `amo.fmin.w` (R130). -/
def execAmoFminW (d a b : RegNo) (sc : Scope) (od : Ord) (s : State) : Host.Outcome State Fault Refusal :=
  s.amoW .fmin d a b sc od

/-- `amo.fmin.d` (R130). -/
def execAmoFminD (d a b : RegNo) (sc : Scope) (od : Ord) (s : State) : Host.Outcome State Fault Refusal :=
  s.amoD .fmin d a b sc od

/-- `amo.fmax.w` (R130). -/
def execAmoFmaxW (d a b : RegNo) (sc : Scope) (od : Ord) (s : State) : Host.Outcome State Fault Refusal :=
  s.amoW .fmax d a b sc od

/-- `amo.fmax.d` (R130). -/
def execAmoFmaxD (d a b : RegNo) (sc : Scope) (od : Ord) (s : State) : Host.Outcome State Fault Refusal :=
  s.amoD .fmax d a b sc od

/-- `fence` (R132); a `fence.sc` waits until every write that its earlier loads have read is acknowledged, here every
update that is on its way (assumption 63), and takes its place in the order in which the machine steps (R285). -/
def execFence (sc : Scope) (od : FenceOrd) (s : State) : Host.Outcome State Fault Refusal :=
  s.within { det := true } fun _ s =>
    let s := if od = .acquire then s else s.release s.t.core sc
    let s := if od = .release then s else s.acquire s.t.core sc
    if od = .sc ∧ sc ≠ .core then s.drainAll else s

/-- `fence.i` (R133): every byte that the core has stored is at its home, the stores to coherent lines that are on their
way among them, and the fetched words go. The stores that a deterministic thread's buffer holds stay there (assumption
64). -/
def execFenceI (s : State) : Host.Outcome State Fault Refusal :=
  s.within {} fun _ s =>
    let c := s.t.core
    ((s.writeBackAll c).sendWrites c).modCore c fun k => { k with icache := [] }

/-- A wait on n bytes at W(A) (R134): it completes with its ordering, or parks on the line. -/
def State.waitOn (s : State) (sh : Shape) (n : Nat) (sc : Scope) (od : Ord) (holds : Vals → Nat → Bool) :
    Host.Outcome State Fault Refusal :=
  s.within sh fun v s =>
    ((s.homeCheck (wOf v.a) n .read).andThen fun pa s =>
      (s.readHome pa (wOf v.a) n .read).andThen fun x s =>
        if holds v x then .ok () s else .stop (s.park 1 (.line (s.homeAddr pa / 128 * 128)))).run fun _ s =>
      (s.afterOrd sc od).fin sh

/-- `waiteq.w` (R134). -/
def execWaiteqW (a b : RegNo) (sc : Scope) (od : Ord) (s : State) : Host.Outcome State Fault Refusal :=
  s.waitOn { a := .w a, b := .g b, det := true } 4 sc od fun v x => x == (gOf v.b).toNat

/-- `waitne.w` (R134). -/
def execWaitneW (a b : RegNo) (sc : Scope) (od : Ord) (s : State) : Host.Outcome State Fault Refusal :=
  s.waitOn { a := .w a, b := .g b, det := true } 4 sc od fun v x => x != (gOf v.b).toNat

/-- `waiteq.d` (R134). -/
def execWaiteqD (a b : RegNo) (sc : Scope) (od : Ord) (s : State) : Host.Outcome State Fault Refusal :=
  s.waitOn { a := .w a, b := .w b, det := true } 8 sc od fun v x => x == (wOf v.b).toNat

/-- `waitne.d` (R134). -/
def execWaitneD (a b : RegNo) (sc : Scope) (od : Ord) (s : State) : Host.Outcome State Fault Refusal :=
  s.waitOn { a := .w a, b := .w b, det := true } 8 sc od fun v x => x != (wOf v.b).toNat

end Sys2Proof.Machine
end

