-- ==== Sys2Proof/Decode.lean ====
section
/-! DEFINITION. Decoding (R61, R66 to R81) and the encoder written from the same maps. The decoder is
total on any word and gives nothing where the maps of R70 to R80 assign nothing. -/

namespace Sys2Proof

-- Lean compiles no constructor with arguments past the 245th, so what builds an instruction is for
-- the kernel to evaluate, and is marked so.
noncomputable section

/-- OP, bits [29:23] (R61). -/
def fOp (w : Word) : BitVec 7 := w.extractLsb' 23 7
/-- K, bit 30: 0 for class C, 1 for class A (R61). -/
def fK (w : Word) : BitVec 1 := w.extractLsb' 30 1
/-- L, bit 31: 1 for a lone word (R61). -/
def fL (w : Word) : BitVec 1 := w.extractLsb' 31 1
/-- D of RR, RI, RU, M, MO, LONG and CV; A of BR and BZ (R66). -/
def fD (w : Word) : RegNo := w.extractLsb' 17 6
/-- A of RR, RI, M, MO and CV; B of BR (R66). -/
def fA (w : Word) : RegNo := w.extractLsb' 11 6
/-- B of RR, MO and CV (R66). -/
def fB (w : Word) : RegNo := w.extractLsb' 5 6
/-- F of RR (R66). -/
def fF (w : Word) : BitVec 5 := w.extractLsb' 0 5
/-- IMM11 of RI and OFF11 of BR (R66). -/
def fImm11 (w : Word) : BitVec 11 := w.extractLsb' 0 11
/-- IMM17 of RU and OFF17 of BZ (R66). -/
def fImm17 (w : Word) : BitVec 17 := w.extractLsb' 0 17
/-- OFF23 of J (R66). -/
def fOff23 (w : Word) : BitVec 23 := w.extractLsb' 0 23
/-- SP of M (R66). -/
def fSp (w : Word) : BitVec 2 := w.extractLsb' 9 2
/-- IMM9 of M (R66). -/
def fImm9 (w : Word) : BitVec 9 := w.extractLsb' 0 9
/-- SCOPE of MO, and RM of CV (R66). -/
def fMid (w : Word) : BitVec 3 := w.extractLsb' 2 3
/-- ORD of MO (R66). -/
def fOrd (w : Word) : BitVec 2 := w.extractLsb' 0 2
/-- SAT of CV (R66). -/
def fSat (w : Word) : BitVec 1 := w.extractLsb' 1 1
/-- H of CV (R66). -/
def fH (w : Word) : BitVec 1 := w.extractLsb' 0 1
/-- SUB of F4 (R66). -/
def fSub (w : Word) : BitVec 2 := w.extractLsb' 24 2
/-- D of F4 (R66). -/
def f4D (w : Word) : RegNo := w.extractLsb' 18 6
/-- A of F4 (R66). -/
def f4A (w : Word) : RegNo := w.extractLsb' 12 6
/-- B of F4 (R66). -/
def f4B (w : Word) : RegNo := w.extractLsb' 6 6
/-- C of F4 (R66). -/
def f4C (w : Word) : RegNo := w.extractLsb' 0 6

/-- SCOPE (R5): 000, 110 and 111 name no scope. -/
def decScope (b : BitVec 3) : Option Scope :=
  match b.toNat with
  | 1 => some .core
  | 2 => some .cluster
  | 3 => some .die
  | 4 => some .package
  | 5 => some .system
  | _ => none

/-- The code of a scope (R5). -/
def encScope : Scope → BitVec 3
  | .core => 1#3
  | .cluster => 2#3
  | .die => 3#3
  | .package => 4#3
  | .system => 5#3

/-- ORD of an access (R74). -/
def decOrd (b : BitVec 2) : Ord :=
  match b.toNat with
  | 0 => .relaxed
  | 1 => .acquire
  | 2 => .release
  | _ => .acqRel

/-- The code of an ORD (R74). -/
def encOrd : Ord → BitVec 2
  | .relaxed => 0#2
  | .acquire => 1#2
  | .release => 2#2
  | .acqRel => 3#2

/-- ORD of `fence` (R74, R132). -/
def decFenceOrd (b : BitVec 2) : FenceOrd :=
  match b.toNat with
  | 0 => .sc
  | 1 => .acquire
  | 2 => .release
  | _ => .acqRel

/-- The code of a fence's ORD (R132). -/
def encFenceOrd : FenceOrd → BitVec 2
  | .sc => 0#2
  | .acquire => 1#2
  | .release => 2#2
  | .acqRel => 3#2

/-- SP (R85); 11 is a reserved value (R121). -/
def decSpace (b : BitVec 2) : Option Space :=
  match b.toNat with
  | 0 => some .global
  | 1 => some .scratchLocal
  | 2 => some .interleave
  | _ => none

/-- The code of a space (R85). -/
def encSpace : Space → BitVec 2
  | .global => 0#2
  | .scratchLocal => 1#2
  | .interleave => 2#2

/-- The rounding field (R48); 101 and 110 trap ILL. -/
def decRm (b : BitVec 3) : Option RmField :=
  match b.toNat with
  | 0 => some .rne
  | 1 => some .rtz
  | 2 => some .rup
  | 3 => some .rdn
  | 4 => some .rs
  | 7 => some .dyn
  | _ => none

/-- The code of a rounding field (R48). -/
def encRm : RmField → BitVec 3
  | .rne => 0#3
  | .rtz => 1#3
  | .rup => 2#3
  | .rdn => 3#3
  | .rs => 4#3
  | .dyn => 7#3

/-- Keep an instruction only where a reserved field is zero (R9, R81). -/
def needZero {n : Nat} (b : BitVec n) (r : Option Instr) : Option Instr := if b = 0 then r else none

/-- A one-bit field as a truth value. -/
def bit1 (b : BitVec 1) : Bool := b == 1#1
/-- A truth value as a one-bit field. -/
def ofBit (b : Bool) : BitVec 1 := if b then 1#1 else 0#1

/-- The forms of class C OP 0x0E by F (R71). -/
def rawCOp0E (w : Word) : Option Instr :=
  match (fF w).toNat with
  | 0 => needZero (fD w) <| needZero (fB w) <| some (.callr (fA w))
  | 1 => needZero (fD w) <| needZero (fA w) <| needZero (fB w) <| some .ret
  | 2 => needZero (fD w) <| needZero (fB w) <| some (.jr (fA w))
  | _ => none

/-- The forms of class C OP 0x0F by F (R71). -/
def rawCOp0F (w : Word) : Option Instr :=
  match (fF w).toNat with
  | 0 => needZero (fD w) <| needZero (fA w) <| needZero (fB w) <| some .exit
  | 1 => needZero (fD w) <| needZero (fA w) <| needZero (fB w) <| some .pause
  | 2 => needZero (fD w) <| needZero (fA w) <| needZero (fB w) <| some .tdone
  | 3 => needZero (fD w) <| needZero (fB w) <| some (.join (fA w))
  | 4 => needZero (fD w) <| needZero (fB w) <| some (.tkill (fA w))
  | 5 => needZero (fD w) <| needZero (fB w) <| some (.tresume (fA w))
  | _ => none

/-- The forms of class C OP 0x13 by F (R71). -/
def rawCOp13 (w : Word) : Option Instr :=
  match (fF w).toNat with
  | 0 => needZero (fD w) <| needZero (fA w) <| needZero (fB w) <| some .brk
  | 1 => needZero (fD w) <| needZero (fA w) <| needZero (fB w) <| some .tret
  | 2 => needZero (fD w) <| needZero (fA w) <| needZero (fB w) <| some .fenceI
  | 3 => needZero (fD w) <| needZero (fB w) <| some (.tlbi (fA w))
  | 4 => needZero (fD w) <| needZero (fB w) <| some (.tlbiAsn (fA w))
  | 5 => needZero (fD w) <| needZero (fA w) <| needZero (fB w) <| some .tlbiAll
  | 6 => needZero (fD w) <| needZero (fB w) <| some (.chime (fA w))
  | 7 => needZero (fD w) <| some (.l2pin (fA w) (fB w))
  | 8 => needZero (fD w) <| some (.l2unpin (fA w) (fB w))
  | 9 => needZero (fD w) <| some (.rgnSet (fA w) (fB w))
  | 10 => needZero (fD w) <| needZero (fB w) <| some (.rgnAcq (fA w))
  | 11 => needZero (fD w) <| needZero (fB w) <| some (.rgnRel (fA w))
  | _ => none

/-- The forms of class C OP 0x60 by F (R71). -/
def rawCOp60 (w : Word) : Option Instr :=
  match (fF w).toNat with
  | 0 => needZero (fB w) <| some (.rbind (fD w) (fA w))
  | 1 => needZero (fB w) <| some (.rwf (fD w) (fA w))
  | 2 => needZero (fB w) <| some (.rwe (fD w) (fA w))
  | 3 => needZero (fB w) <| some (.radvp (fD w) (fA w))
  | 4 => needZero (fB w) <| some (.radvc (fD w) (fA w))
  | 5 => some (.raddr (fD w) (fA w) (fB w))
  | 6 => some (.rbytes (fD w) (fA w) (fB w))
  | 7 => needZero (fB w) <| some (.qbind (fD w) (fA w))
  | _ => none

/-- The forms of class C OP 0x61 by F (R71). -/
def rawCOp61 (w : Word) : Option Instr :=
  match (fF w).toNat with
  | 0 => some (.conv (fD w) (fA w) (fB w))
  | 1 => needZero (fD w) <| needZero (fA w) <| needZero (fB w) <| some .gbar
  | 2 => some (.gbc (fD w) (fA w) (fB w))
  | 3 => some (.gbcD (fD w) (fA w) (fB w))
  | 4 => needZero (fD w) <| needZero (fA w) <| needZero (fB w) <| some .gdis
  | _ => none

/-- The forms of class C OP 0x62 by F (R71). -/
def rawCOp62 (w : Word) : Option Instr :=
  match (fF w).toNat with
  | 0 => needZero (fB w) <| some (.gredAddF32 (fD w) (fA w))
  | 1 => needZero (fB w) <| some (.gredAddF64 (fD w) (fA w))
  | 2 => needZero (fB w) <| some (.gredCaddF32 (fD w) (fA w))
  | 3 => needZero (fB w) <| some (.gredAddI32 (fD w) (fA w))
  | 4 => needZero (fB w) <| some (.gredAddI64 (fD w) (fA w))
  | 5 => needZero (fB w) <| some (.gredMaxF32 (fD w) (fA w))
  | 6 => needZero (fB w) <| some (.gredMinF32 (fD w) (fA w))
  | 7 => needZero (fB w) <| some (.gredMaxF64 (fD w) (fA w))
  | 8 => needZero (fB w) <| some (.gredMinF64 (fD w) (fA w))
  | 9 => needZero (fB w) <| some (.gredMaxI32 (fD w) (fA w))
  | 10 => needZero (fB w) <| some (.gredMinI32 (fD w) (fA w))
  | 11 => needZero (fB w) <| some (.gredAnd (fD w) (fA w))
  | 12 => needZero (fB w) <| some (.gredOr (fD w) (fA w))
  | 13 => needZero (fB w) <| some (.gredXor (fD w) (fA w))
  | _ => none

/-- The forms of class C OP 0x63 by F (R71). -/
def rawCOp63 (w : Word) : Option Instr :=
  match (fF w).toNat with
  | 0 => some (.tcopy (fD w) (fA w) (fB w))
  | 1 => some (.scopy (fD w) (fA w) (fB w))
  | 2 => some (.tfill (fD w) (fA w) (fB w))
  | 3 => needZero (fD w) <| needZero (fB w) <| some (.ewait (fA w))
  | 4 => needZero (fB w) <| some (.eprog (fD w) (fA w))
  | _ => none

/-- The forms of class C OP 0x64 by F (R71). -/
def rawCOp64 (w : Word) : Option Instr :=
  match (fF w).toNat with
  | 0 => needZero (fB w) <| some (.mxCfg (fD w) (fA w))
  | 1 => needZero (fA w) <| needZero (fB w) <| some (.mxZero (fD w))
  | 2 => needZero (fB w) <| some (.mxLd (fD w) (fA w))
  | 3 => some (.mxSt (fD w) (fA w) (fB w))
  | 4 => some (.mxMerge (fD w) (fA w) (fB w))
  | _ => none

/-- The forms of class C OP 0x65 by F (R71). -/
def rawCOp65 (w : Word) : Option Instr :=
  match (fF w).toNat with
  | 0 => some (.mmaF64 (fD w) (fA w) (fB w))
  | 1 => some (.mmaF32 (fD w) (fA w) (fB w))
  | 2 => some (.mmaBf16 (fD w) (fA w) (fB w))
  | 3 => some (.mmaF16 (fD w) (fA w) (fB w))
  | 4 => some (.mmaE4m3 (fD w) (fA w) (fB w))
  | 5 => some (.mmaE5m2 (fD w) (fA w) (fB w))
  | 6 => some (.mmaMx8 (fD w) (fA w) (fB w))
  | 7 => some (.mmaE2m1 (fD w) (fA w) (fB w))
  | _ => none

/-- The forms of class C OP 0x66 by F (R71). -/
def rawCOp66 (w : Word) : Option Instr :=
  match (fF w).toNat with
  | 0 => needZero (fB w) <| some (.launch (fD w) (fA w))
  | 1 => needZero (fD w) <| some (.nsend (fA w) (fB w))
  | 2 => needZero (fB w) <| some (.nrecv (fD w) (fA w))
  | 3 => needZero (fD w) <| some (.nmcast (fA w) (fB w))
  | _ => none

/-- The forms of class C OP 0x67 by F (R71). -/
def rawCOp67 (w : Word) : Option Instr :=
  match (fF w).toNat with
  | 0 => needZero (fB w) <| some (.collRedAddF32 (fD w) (fA w))
  | 1 => needZero (fB w) <| some (.collRedAddF64 (fD w) (fA w))
  | 2 => needZero (fB w) <| some (.collRedCaddF32 (fD w) (fA w))
  | 3 => needZero (fB w) <| some (.collRedAddI32 (fD w) (fA w))
  | 4 => needZero (fB w) <| some (.collRedAddI64 (fD w) (fA w))
  | 5 => needZero (fB w) <| some (.collRedMaxF32 (fD w) (fA w))
  | 6 => needZero (fB w) <| some (.collRedMinF32 (fD w) (fA w))
  | 7 => needZero (fB w) <| some (.collRedMaxF64 (fD w) (fA w))
  | 8 => needZero (fB w) <| some (.collRedMinF64 (fD w) (fA w))
  | 9 => needZero (fB w) <| some (.collRedMaxI32 (fD w) (fA w))
  | 10 => needZero (fB w) <| some (.collRedMinI32 (fD w) (fA w))
  | 11 => needZero (fB w) <| some (.collRedAnd (fD w) (fA w))
  | 12 => needZero (fB w) <| some (.collRedOr (fD w) (fA w))
  | 13 => needZero (fB w) <| some (.collRedXor (fD w) (fA w))
  | 14 => needZero (fB w) <| some (.collBc (fD w) (fA w))
  | 15 => needZero (fB w) <| some (.collAg (fD w) (fA w))
  | _ => none

/-- The class C map (R70), the LONG forms aside. -/
def rawC (w : Word) : Option Instr :=
  match (fOp w).toNat with
  | 0x00 => some (.bra (fOff23 w))
  | 0x01 => some (.call (fOff23 w))
  | 0x02 => some (.bz (fD w) (fImm17 w))
  | 0x03 => some (.bnz (fD w) (fImm17 w))
  | 0x04 => some (.beq (fD w) (fA w) (fImm11 w))
  | 0x05 => some (.bne (fD w) (fA w) (fImm11 w))
  | 0x06 => some (.blt (fD w) (fA w) (fImm11 w))
  | 0x07 => some (.bge (fD w) (fA w) (fImm11 w))
  | 0x08 => some (.blo (fD w) (fA w) (fImm11 w))
  | 0x09 => some (.bhs (fD w) (fA w) (fImm11 w))
  | 0x0A => some (.spawn (fD w) (fImm17 w))
  | 0x0E => rawCOp0E w
  | 0x0F => rawCOp0F w
  | 0x10 => needZero (fD w) <| some (.trap (fImm17 w))
  | 0x11 => needZero (fA w) <| some (.sget (fD w) (fImm11 w))
  | 0x12 => needZero (fD w) <| some (.sset (fA w) (fImm11 w))
  | 0x13 => rawCOp13 w
  | 0x14 => needZero (fD w) <| (decScope (fMid w)).bind fun sc => some (.waiteqW (fA w) (fB w) sc (decOrd (fOrd w)))
  | 0x15 => needZero (fD w) <| (decScope (fMid w)).bind fun sc => some (.waitneW (fA w) (fB w) sc (decOrd (fOrd w)))
  | 0x16 => needZero (fD w) <| (decScope (fMid w)).bind fun sc => some (.waiteqD (fA w) (fB w) sc (decOrd (fOrd w)))
  | 0x17 => needZero (fD w) <| (decScope (fMid w)).bind fun sc => some (.waitneD (fA w) (fB w) sc (decOrd (fOrd w)))
  | 0x20 => (decSpace (fSp w)).bind fun sp => some (.ld8s (fD w) (fA w) sp (fImm9 w))
  | 0x21 => (decSpace (fSp w)).bind fun sp => some (.ld8z (fD w) (fA w) sp (fImm9 w))
  | 0x22 => (decSpace (fSp w)).bind fun sp => some (.ld16s (fD w) (fA w) sp (fImm9 w))
  | 0x23 => (decSpace (fSp w)).bind fun sp => some (.ld16z (fD w) (fA w) sp (fImm9 w))
  | 0x24 => (decSpace (fSp w)).bind fun sp => some (.ld32 (fD w) (fA w) sp (fImm9 w))
  | 0x25 => (decSpace (fSp w)).bind fun sp => some (.ld64 (fD w) (fA w) sp (fImm9 w))
  | 0x26 => (decSpace (fSp w)).bind fun sp => some (.ld128 (fD w) (fA w) sp (fImm9 w))
  | 0x27 => needZero (fSp w) <| some (.pf (fD w) (fA w) (fImm9 w))
  | 0x28 => (decSpace (fSp w)).bind fun sp => some (.st8 (fD w) (fA w) sp (fImm9 w))
  | 0x29 => (decSpace (fSp w)).bind fun sp => some (.st16 (fD w) (fA w) sp (fImm9 w))
  | 0x2A => (decSpace (fSp w)).bind fun sp => some (.st32 (fD w) (fA w) sp (fImm9 w))
  | 0x2B => (decSpace (fSp w)).bind fun sp => some (.st64 (fD w) (fA w) sp (fImm9 w))
  | 0x2C => (decSpace (fSp w)).bind fun sp => some (.st128 (fD w) (fA w) sp (fImm9 w))
  | 0x2D => needZero (fB w) <| some (.ldm (fD w) (fA w) (fF w))
  | 0x2E => needZero (fB w) <| some (.stm (fD w) (fA w) (fF w))
  | 0x30 => needZero (fB w) <| (decScope (fMid w)).bind fun sc => some (.ld8sOrd (fD w) (fA w) sc (decOrd (fOrd w)))
  | 0x31 => needZero (fB w) <| (decScope (fMid w)).bind fun sc => some (.ld8zOrd (fD w) (fA w) sc (decOrd (fOrd w)))
  | 0x32 => needZero (fB w) <| (decScope (fMid w)).bind fun sc => some (.ld16sOrd (fD w) (fA w) sc (decOrd (fOrd w)))
  | 0x33 => needZero (fB w) <| (decScope (fMid w)).bind fun sc => some (.ld16zOrd (fD w) (fA w) sc (decOrd (fOrd w)))
  | 0x34 => needZero (fB w) <| (decScope (fMid w)).bind fun sc => some (.ld32Ord (fD w) (fA w) sc (decOrd (fOrd w)))
  | 0x35 => needZero (fB w) <| (decScope (fMid w)).bind fun sc => some (.ld64Ord (fD w) (fA w) sc (decOrd (fOrd w)))
  | 0x36 => needZero (fB w) <| (decScope (fMid w)).bind fun sc => some (.ld128Ord (fD w) (fA w) sc (decOrd (fOrd w)))
  | 0x37 => needZero (fD w) <| needZero (fA w) <| needZero (fB w) <| (decScope (fMid w)).bind fun sc => some (.fence sc (decFenceOrd (fOrd w)))
  | 0x38 => needZero (fB w) <| (decScope (fMid w)).bind fun sc => some (.st8Ord (fD w) (fA w) sc (decOrd (fOrd w)))
  | 0x39 => needZero (fB w) <| (decScope (fMid w)).bind fun sc => some (.st16Ord (fD w) (fA w) sc (decOrd (fOrd w)))
  | 0x3A => needZero (fB w) <| (decScope (fMid w)).bind fun sc => some (.st32Ord (fD w) (fA w) sc (decOrd (fOrd w)))
  | 0x3B => needZero (fB w) <| (decScope (fMid w)).bind fun sc => some (.st64Ord (fD w) (fA w) sc (decOrd (fOrd w)))
  | 0x3C => needZero (fB w) <| (decScope (fMid w)).bind fun sc => some (.st128Ord (fD w) (fA w) sc (decOrd (fOrd w)))
  | 0x40 => (decScope (fMid w)).bind fun sc => some (.amoAddW (fD w) (fA w) (fB w) sc (decOrd (fOrd w)))
  | 0x41 => (decScope (fMid w)).bind fun sc => some (.amoAddD (fD w) (fA w) (fB w) sc (decOrd (fOrd w)))
  | 0x42 => (decScope (fMid w)).bind fun sc => some (.amoAndW (fD w) (fA w) (fB w) sc (decOrd (fOrd w)))
  | 0x43 => (decScope (fMid w)).bind fun sc => some (.amoAndD (fD w) (fA w) (fB w) sc (decOrd (fOrd w)))
  | 0x44 => (decScope (fMid w)).bind fun sc => some (.amoOrW (fD w) (fA w) (fB w) sc (decOrd (fOrd w)))
  | 0x45 => (decScope (fMid w)).bind fun sc => some (.amoOrD (fD w) (fA w) (fB w) sc (decOrd (fOrd w)))
  | 0x46 => (decScope (fMid w)).bind fun sc => some (.amoXorW (fD w) (fA w) (fB w) sc (decOrd (fOrd w)))
  | 0x47 => (decScope (fMid w)).bind fun sc => some (.amoXorD (fD w) (fA w) (fB w) sc (decOrd (fOrd w)))
  | 0x48 => (decScope (fMid w)).bind fun sc => some (.amoMinW (fD w) (fA w) (fB w) sc (decOrd (fOrd w)))
  | 0x49 => (decScope (fMid w)).bind fun sc => some (.amoMinD (fD w) (fA w) (fB w) sc (decOrd (fOrd w)))
  | 0x4A => (decScope (fMid w)).bind fun sc => some (.amoMaxW (fD w) (fA w) (fB w) sc (decOrd (fOrd w)))
  | 0x4B => (decScope (fMid w)).bind fun sc => some (.amoMaxD (fD w) (fA w) (fB w) sc (decOrd (fOrd w)))
  | 0x4C => (decScope (fMid w)).bind fun sc => some (.amoMinnW (fD w) (fA w) (fB w) sc (decOrd (fOrd w)))
  | 0x4D => (decScope (fMid w)).bind fun sc => some (.amoMinnD (fD w) (fA w) (fB w) sc (decOrd (fOrd w)))
  | 0x4E => (decScope (fMid w)).bind fun sc => some (.amoMaxnW (fD w) (fA w) (fB w) sc (decOrd (fOrd w)))
  | 0x4F => (decScope (fMid w)).bind fun sc => some (.amoMaxnD (fD w) (fA w) (fB w) sc (decOrd (fOrd w)))
  | 0x50 => (decScope (fMid w)).bind fun sc => some (.amoSwpW (fD w) (fA w) (fB w) sc (decOrd (fOrd w)))
  | 0x51 => (decScope (fMid w)).bind fun sc => some (.amoSwpD (fD w) (fA w) (fB w) sc (decOrd (fOrd w)))
  | 0x52 => (decScope (fMid w)).bind fun sc => some (.amoCasW (fD w) (fA w) (fB w) sc (decOrd (fOrd w)))
  | 0x53 => (decScope (fMid w)).bind fun sc => some (.amoCasD (fD w) (fA w) (fB w) sc (decOrd (fOrd w)))
  | 0x54 => (decScope (fMid w)).bind fun sc => some (.amoFaddW (fD w) (fA w) (fB w) sc (decOrd (fOrd w)))
  | 0x55 => (decScope (fMid w)).bind fun sc => some (.amoFaddD (fD w) (fA w) (fB w) sc (decOrd (fOrd w)))
  | 0x56 => (decScope (fMid w)).bind fun sc => some (.amoFminW (fD w) (fA w) (fB w) sc (decOrd (fOrd w)))
  | 0x57 => (decScope (fMid w)).bind fun sc => some (.amoFminD (fD w) (fA w) (fB w) sc (decOrd (fOrd w)))
  | 0x58 => (decScope (fMid w)).bind fun sc => some (.amoFmaxW (fD w) (fA w) (fB w) sc (decOrd (fOrd w)))
  | 0x59 => (decScope (fMid w)).bind fun sc => some (.amoFmaxD (fD w) (fA w) (fB w) sc (decOrd (fOrd w)))
  | 0x5C => needZero (fB w) <| needZero (fOrd w) <| (decScope (fMid w)).bind fun sc => some (.srel (fD w) (fA w) sc)
  | 0x5D => needZero (fB w) <| needZero (fOrd w) <| (decScope (fMid w)).bind fun sc => some (.sacq (fD w) (fA w) sc)
  | 0x5E => needZero (fOrd w) <| (decScope (fMid w)).bind fun sc => some (.sadd (fD w) (fA w) (fB w) sc)
  | 0x5F => needZero (fOrd w) <| (decScope (fMid w)).bind fun sc => some (.scas (fD w) (fA w) (fB w) sc)
  | 0x60 => rawCOp60 w
  | 0x61 => rawCOp61 w
  | 0x62 => rawCOp62 w
  | 0x63 => rawCOp63 w
  | 0x64 => rawCOp64 w
  | 0x65 => rawCOp65 w
  | 0x66 => rawCOp66 w
  | 0x67 => rawCOp67 w
  | _ => none

/-- The forms of class A OP 0x00 by F (R76). -/
def rawAOp00 (w : Word) : Option Instr :=
  match (fF w).toNat with
  | 0 => some (.add (fD w) (fA w) (fB w))
  | 1 => some (.sub (fD w) (fA w) (fB w))
  | 2 => some (.mul (fD w) (fA w) (fB w))
  | 3 => some (.mulh (fD w) (fA w) (fB w))
  | 4 => some (.mulhn (fD w) (fA w) (fB w))
  | 5 => some (.div (fD w) (fA w) (fB w))
  | 6 => some (.divn (fD w) (fA w) (fB w))
  | 7 => some (.rem (fD w) (fA w) (fB w))
  | 8 => some (.remn (fD w) (fA w) (fB w))
  | 9 => some (.min (fD w) (fA w) (fB w))
  | 10 => some (.max (fD w) (fA w) (fB w))
  | 11 => some (.minn (fD w) (fA w) (fB w))
  | 12 => some (.maxn (fD w) (fA w) (fB w))
  | 13 => needZero (fB w) <| some (.abs (fD w) (fA w))
  | 14 => some (.and (fD w) (fA w) (fB w))
  | 15 => some (.or (fD w) (fA w) (fB w))
  | 16 => some (.xor (fD w) (fA w) (fB w))
  | 17 => some (.shl (fD w) (fA w) (fB w))
  | 18 => some (.shr (fD w) (fA w) (fB w))
  | 19 => some (.sar (fD w) (fA w) (fB w))
  | 20 => needZero (fB w) <| some (.clz (fD w) (fA w))
  | 21 => needZero (fB w) <| some (.ctz (fD w) (fA w))
  | 22 => needZero (fB w) <| some (.popc (fD w) (fA w))
  | 23 => needZero (fB w) <| some (.brev (fD w) (fA w))
  | 24 => some (.bfx (fD w) (fA w) (fB w))
  | 25 => some (.bfi (fD w) (fA w) (fB w))
  | 26 => some (.slt (fD w) (fA w) (fB w))
  | 27 => some (.sltn (fD w) (fA w) (fB w))
  | 28 => some (.seq (fD w) (fA w) (fB w))
  | 29 => some (.sne (fD w) (fA w) (fB w))
  | 30 => needZero (fA w) <| needZero (fB w) <| some (.rng (fD w))
  | _ => none

/-- The forms of class A OP 0x01 by F (R76). -/
def rawAOp01 (w : Word) : Option Instr :=
  match (fF w).toNat with
  | 0 => some (.addD (fD w) (fA w) (fB w))
  | 1 => some (.subD (fD w) (fA w) (fB w))
  | 2 => some (.mulD (fD w) (fA w) (fB w))
  | 3 => some (.shlD (fD w) (fA w) (fB w))
  | 4 => some (.shrD (fD w) (fA w) (fB w))
  | 5 => some (.sarD (fD w) (fA w) (fB w))
  | 6 => some (.andD (fD w) (fA w) (fB w))
  | 7 => some (.orD (fD w) (fA w) (fB w))
  | 8 => some (.xorD (fD w) (fA w) (fB w))
  | 9 => some (.minD (fD w) (fA w) (fB w))
  | 10 => some (.maxD (fD w) (fA w) (fB w))
  | 11 => some (.minnD (fD w) (fA w) (fB w))
  | 12 => some (.maxnD (fD w) (fA w) (fB w))
  | 13 => some (.sltD (fD w) (fA w) (fB w))
  | 14 => some (.sltnD (fD w) (fA w) (fB w))
  | 15 => some (.seqD (fD w) (fA w) (fB w))
  | _ => none

/-- The forms of class A OP 0x10 by F (R76). -/
def rawAOp10 (w : Word) : Option Instr :=
  match (fF w).toNat with
  | 0 => some (.fadd (fD w) (fA w) (fB w))
  | 1 => some (.fsub (fD w) (fA w) (fB w))
  | 2 => some (.fmul (fD w) (fA w) (fB w))
  | 3 => some (.fdiv (fD w) (fA w) (fB w))
  | 4 => needZero (fB w) <| some (.fsqrt (fD w) (fA w))
  | 5 => some (.fmin (fD w) (fA w) (fB w))
  | 6 => some (.fmax (fD w) (fA w) (fB w))
  | 7 => needZero (fB w) <| some (.fabs (fD w) (fA w))
  | 8 => needZero (fB w) <| some (.fneg (fD w) (fA w))
  | 9 => some (.feq (fD w) (fA w) (fB w))
  | 10 => some (.flt (fD w) (fA w) (fB w))
  | 11 => some (.fle (fD w) (fA w) (fB w))
  | 12 => some (.funOrd (fD w) (fA w) (fB w))
  | 13 => needZero (fB w) <| some (.fclass (fD w) (fA w))
  | _ => none

/-- The forms of class A OP 0x12 by F (R76). -/
def rawAOp12 (w : Word) : Option Instr :=
  match (fF w).toNat with
  | 0 => some (.dadd (fD w) (fA w) (fB w))
  | 1 => some (.dsub (fD w) (fA w) (fB w))
  | 2 => some (.dmul (fD w) (fA w) (fB w))
  | 3 => some (.ddiv (fD w) (fA w) (fB w))
  | 4 => needZero (fB w) <| some (.dsqrt (fD w) (fA w))
  | 5 => some (.dmin (fD w) (fA w) (fB w))
  | 6 => some (.dmax (fD w) (fA w) (fB w))
  | 7 => needZero (fB w) <| some (.dabs (fD w) (fA w))
  | 8 => needZero (fB w) <| some (.dneg (fD w) (fA w))
  | 9 => some (.deq (fD w) (fA w) (fB w))
  | 10 => some (.dlt (fD w) (fA w) (fB w))
  | 11 => some (.dle (fD w) (fA w) (fB w))
  | 12 => some (.dunOrd (fD w) (fA w) (fB w))
  | 13 => needZero (fB w) <| some (.dclass (fD w) (fA w))
  | _ => none

/-- The forms of class A OP 0x14 by F (R76). -/
def rawAOp14 (w : Word) : Option Instr :=
  match (fF w).toNat with
  | 0 => some (.p2addH (fD w) (fA w) (fB w))
  | 1 => some (.p2subH (fD w) (fA w) (fB w))
  | 2 => some (.p2mulH (fD w) (fA w) (fB w))
  | 3 => some (.p2fmaH (fD w) (fA w) (fB w))
  | 4 => some (.p2minH (fD w) (fA w) (fB w))
  | 5 => some (.p2maxH (fD w) (fA w) (fB w))
  | 8 => some (.p2addB (fD w) (fA w) (fB w))
  | 9 => some (.p2subB (fD w) (fA w) (fB w))
  | 10 => some (.p2mulB (fD w) (fA w) (fB w))
  | 11 => some (.p2fmaB (fD w) (fA w) (fB w))
  | 12 => some (.p2minB (fD w) (fA w) (fB w))
  | 13 => some (.p2maxB (fD w) (fA w) (fB w))
  | _ => none

/-- The class A map (R75), F4 aside. -/
def rawA (w : Word) : Option Instr :=
  match (fOp w).toNat with
  | 0x00 => rawAOp00 w
  | 0x01 => rawAOp01 w
  | 0x02 => some (.addi (fD w) (fA w) (fImm11 w))
  | 0x03 => some (.andi (fD w) (fA w) (fImm11 w))
  | 0x04 => some (.ori (fD w) (fA w) (fImm11 w))
  | 0x05 => some (.xori (fD w) (fA w) (fImm11 w))
  | 0x06 => some (.slti (fD w) (fA w) (fImm11 w))
  | 0x07 => needZero (w.extractLsb' 5 6) <| some (.shli (fD w) (fA w) (fF w))
  | 0x08 => needZero (w.extractLsb' 5 6) <| some (.shri (fD w) (fA w) (fF w))
  | 0x09 => needZero (w.extractLsb' 5 6) <| some (.sari (fD w) (fA w) (fF w))
  | 0x0A => some (.lui (fD w) (fImm17 w))
  | 0x10 => rawAOp10 w
  | 0x11 => needZero (fSat w) <| needZero (fH w) <| (decRm (fMid w)).bind fun rm => some (.frnd (fD w) (fA w) (fB w) rm)
  | 0x12 => rawAOp12 w
  | 0x13 => needZero (fSat w) <| needZero (fH w) <| (decRm (fMid w)).bind fun rm => some (.drnd (fD w) (fA w) (fB w) rm)
  | 0x14 => rawAOp14 w
  | 0x20 => needZero (fH w) <| (decRm (fMid w)).bind fun rm => some (.cvtF64F32 (fD w) (fA w) (fB w) rm (bit1 (fSat w)))
  | 0x21 => needZero (fH w) <| (decRm (fMid w)).bind fun rm => some (.cvtF64F16 (fD w) (fA w) (fB w) rm (bit1 (fSat w)))
  | 0x22 => needZero (fH w) <| (decRm (fMid w)).bind fun rm => some (.cvtF64Bf16 (fD w) (fA w) (fB w) rm (bit1 (fSat w)))
  | 0x23 => needZero (fH w) <| (decRm (fMid w)).bind fun rm => some (.cvtF64E4m3 (fD w) (fA w) (fB w) rm (bit1 (fSat w)))
  | 0x24 => needZero (fH w) <| (decRm (fMid w)).bind fun rm => some (.cvtF64E5m2 (fD w) (fA w) (fB w) rm (bit1 (fSat w)))
  | 0x25 => needZero (fH w) <| (decRm (fMid w)).bind fun rm => some (.cvtF64I32 (fD w) (fA w) (fB w) rm (bit1 (fSat w)))
  | 0x26 => needZero (fH w) <| (decRm (fMid w)).bind fun rm => some (.cvtF64N32 (fD w) (fA w) (fB w) rm (bit1 (fSat w)))
  | 0x27 => needZero (fH w) <| (decRm (fMid w)).bind fun rm => some (.cvtF64I64 (fD w) (fA w) (fB w) rm (bit1 (fSat w)))
  | 0x28 => needZero (fH w) <| (decRm (fMid w)).bind fun rm => some (.cvtF64N64 (fD w) (fA w) (fB w) rm (bit1 (fSat w)))
  | 0x29 => needZero (fH w) <| (decRm (fMid w)).bind fun rm => some (.cvtF32F64 (fD w) (fA w) (fB w) rm (bit1 (fSat w)))
  | 0x2A => needZero (fH w) <| (decRm (fMid w)).bind fun rm => some (.cvtF32F16 (fD w) (fA w) (fB w) rm (bit1 (fSat w)))
  | 0x2B => needZero (fH w) <| (decRm (fMid w)).bind fun rm => some (.cvtF32Bf16 (fD w) (fA w) (fB w) rm (bit1 (fSat w)))
  | 0x2C => needZero (fH w) <| (decRm (fMid w)).bind fun rm => some (.cvtF32E4m3 (fD w) (fA w) (fB w) rm (bit1 (fSat w)))
  | 0x2D => needZero (fH w) <| (decRm (fMid w)).bind fun rm => some (.cvtF32E5m2 (fD w) (fA w) (fB w) rm (bit1 (fSat w)))
  | 0x2E => needZero (fH w) <| (decRm (fMid w)).bind fun rm => some (.cvtF32E2m1 (fD w) (fA w) (fB w) rm (bit1 (fSat w)))
  | 0x2F => needZero (fH w) <| (decRm (fMid w)).bind fun rm => some (.cvtF32E8m0 (fD w) (fA w) (fB w) rm (bit1 (fSat w)))
  | 0x30 => needZero (fH w) <| (decRm (fMid w)).bind fun rm => some (.cvtF32E3m5 (fD w) (fA w) (fB w) rm (bit1 (fSat w)))
  | 0x31 => needZero (fH w) <| (decRm (fMid w)).bind fun rm => some (.cvtF32I32 (fD w) (fA w) (fB w) rm (bit1 (fSat w)))
  | 0x32 => needZero (fH w) <| (decRm (fMid w)).bind fun rm => some (.cvtF32N32 (fD w) (fA w) (fB w) rm (bit1 (fSat w)))
  | 0x33 => needZero (fH w) <| (decRm (fMid w)).bind fun rm => some (.cvtF32I64 (fD w) (fA w) (fB w) rm (bit1 (fSat w)))
  | 0x34 => needZero (fH w) <| (decRm (fMid w)).bind fun rm => some (.cvtF32N64 (fD w) (fA w) (fB w) rm (bit1 (fSat w)))
  | 0x35 => needZero (fH w) <| (decRm (fMid w)).bind fun rm => some (.cvtF16F64 (fD w) (fA w) (fB w) rm (bit1 (fSat w)))
  | 0x36 => needZero (fH w) <| (decRm (fMid w)).bind fun rm => some (.cvtF16F32 (fD w) (fA w) (fB w) rm (bit1 (fSat w)))
  | 0x37 => needZero (fH w) <| (decRm (fMid w)).bind fun rm => some (.cvtF16Bf16 (fD w) (fA w) (fB w) rm (bit1 (fSat w)))
  | 0x38 => needZero (fH w) <| (decRm (fMid w)).bind fun rm => some (.cvtF16E4m3 (fD w) (fA w) (fB w) rm (bit1 (fSat w)))
  | 0x39 => needZero (fH w) <| (decRm (fMid w)).bind fun rm => some (.cvtF16E5m2 (fD w) (fA w) (fB w) rm (bit1 (fSat w)))
  | 0x3A => needZero (fH w) <| (decRm (fMid w)).bind fun rm => some (.cvtBf16F64 (fD w) (fA w) (fB w) rm (bit1 (fSat w)))
  | 0x3B => needZero (fH w) <| (decRm (fMid w)).bind fun rm => some (.cvtBf16F32 (fD w) (fA w) (fB w) rm (bit1 (fSat w)))
  | 0x3C => needZero (fH w) <| (decRm (fMid w)).bind fun rm => some (.cvtBf16F16 (fD w) (fA w) (fB w) rm (bit1 (fSat w)))
  | 0x3D => needZero (fH w) <| (decRm (fMid w)).bind fun rm => some (.cvtBf16E4m3 (fD w) (fA w) (fB w) rm (bit1 (fSat w)))
  | 0x3E => needZero (fH w) <| (decRm (fMid w)).bind fun rm => some (.cvtBf16E5m2 (fD w) (fA w) (fB w) rm (bit1 (fSat w)))
  | 0x3F => needZero (fH w) <| (decRm (fMid w)).bind fun rm => some (.cvtE4m3F64 (fD w) (fA w) (fB w) rm (bit1 (fSat w)))
  | 0x40 => needZero (fH w) <| (decRm (fMid w)).bind fun rm => some (.cvtE4m3F32 (fD w) (fA w) (fB w) rm (bit1 (fSat w)))
  | 0x41 => needZero (fH w) <| (decRm (fMid w)).bind fun rm => some (.cvtE4m3F16 (fD w) (fA w) (fB w) rm (bit1 (fSat w)))
  | 0x42 => needZero (fH w) <| (decRm (fMid w)).bind fun rm => some (.cvtE4m3Bf16 (fD w) (fA w) (fB w) rm (bit1 (fSat w)))
  | 0x43 => needZero (fH w) <| (decRm (fMid w)).bind fun rm => some (.cvtE4m3E5m2 (fD w) (fA w) (fB w) rm (bit1 (fSat w)))
  | 0x44 => needZero (fH w) <| (decRm (fMid w)).bind fun rm => some (.cvtE5m2F64 (fD w) (fA w) (fB w) rm (bit1 (fSat w)))
  | 0x45 => needZero (fH w) <| (decRm (fMid w)).bind fun rm => some (.cvtE5m2F32 (fD w) (fA w) (fB w) rm (bit1 (fSat w)))
  | 0x46 => needZero (fH w) <| (decRm (fMid w)).bind fun rm => some (.cvtE5m2F16 (fD w) (fA w) (fB w) rm (bit1 (fSat w)))
  | 0x47 => needZero (fH w) <| (decRm (fMid w)).bind fun rm => some (.cvtE5m2Bf16 (fD w) (fA w) (fB w) rm (bit1 (fSat w)))
  | 0x48 => needZero (fH w) <| (decRm (fMid w)).bind fun rm => some (.cvtE5m2E4m3 (fD w) (fA w) (fB w) rm (bit1 (fSat w)))
  | 0x49 => needZero (fH w) <| (decRm (fMid w)).bind fun rm => some (.cvtE2m1F64 (fD w) (fA w) (fB w) rm (bit1 (fSat w)))
  | 0x4A => needZero (fH w) <| (decRm (fMid w)).bind fun rm => some (.cvtE2m1F32 (fD w) (fA w) (fB w) rm (bit1 (fSat w)))
  | 0x4B => needZero (fH w) <| (decRm (fMid w)).bind fun rm => some (.cvtE2m1F16 (fD w) (fA w) (fB w) rm (bit1 (fSat w)))
  | 0x4C => needZero (fH w) <| (decRm (fMid w)).bind fun rm => some (.cvtE2m1Bf16 (fD w) (fA w) (fB w) rm (bit1 (fSat w)))
  | 0x4D => needZero (fH w) <| (decRm (fMid w)).bind fun rm => some (.cvtE8m0F32 (fD w) (fA w) (fB w) rm (bit1 (fSat w)))
  | 0x4E => needZero (fH w) <| (decRm (fMid w)).bind fun rm => some (.cvtE3m5F32 (fD w) (fA w) (fB w) rm (bit1 (fSat w)))
  | 0x4F => needZero (fH w) <| (decRm (fMid w)).bind fun rm => some (.cvtI32F64 (fD w) (fA w) (fB w) rm (bit1 (fSat w)))
  | 0x50 => needZero (fH w) <| (decRm (fMid w)).bind fun rm => some (.cvtI32F32 (fD w) (fA w) (fB w) rm (bit1 (fSat w)))
  | 0x51 => needZero (fB w) <| needZero ((fMid w ^^^ 7#3)) <| needZero (fH w) <| some (.cvtI32I64 (fD w) (fA w) (bit1 (fSat w)))
  | 0x52 => needZero (fH w) <| (decRm (fMid w)).bind fun rm => some (.cvtN32F64 (fD w) (fA w) (fB w) rm (bit1 (fSat w)))
  | 0x53 => needZero (fH w) <| (decRm (fMid w)).bind fun rm => some (.cvtN32F32 (fD w) (fA w) (fB w) rm (bit1 (fSat w)))
  | 0x54 => needZero (fB w) <| needZero ((fMid w ^^^ 7#3)) <| needZero (fH w) <| some (.cvtN32N64 (fD w) (fA w) (bit1 (fSat w)))
  | 0x55 => needZero (fH w) <| (decRm (fMid w)).bind fun rm => some (.cvtI64F64 (fD w) (fA w) (fB w) rm (bit1 (fSat w)))
  | 0x56 => needZero (fH w) <| (decRm (fMid w)).bind fun rm => some (.cvtI64F32 (fD w) (fA w) (fB w) rm (bit1 (fSat w)))
  | 0x57 => needZero (fB w) <| needZero ((fMid w ^^^ 7#3)) <| needZero (fH w) <| some (.cvtI64I32 (fD w) (fA w) (bit1 (fSat w)))
  | 0x58 => needZero (fH w) <| (decRm (fMid w)).bind fun rm => some (.cvtN64F64 (fD w) (fA w) (fB w) rm (bit1 (fSat w)))
  | 0x59 => needZero (fH w) <| (decRm (fMid w)).bind fun rm => some (.cvtN64F32 (fD w) (fA w) (fB w) rm (bit1 (fSat w)))
  | 0x5A => needZero (fB w) <| needZero ((fMid w ^^^ 7#3)) <| needZero (fH w) <| some (.cvtN64N32 (fD w) (fA w) (bit1 (fSat w)))
  | 0x5B => needZero (fB w) <| needZero ((fMid w ^^^ 7#3)) <| needZero (fH w) <| some (.cvtI8I32 (fD w) (fA w) (bit1 (fSat w)))
  | 0x5C => needZero (fB w) <| needZero ((fMid w ^^^ 7#3)) <| needZero (fH w) <| some (.cvtN8I32 (fD w) (fA w) (bit1 (fSat w)))
  | 0x5D => needZero (fB w) <| needZero ((fMid w ^^^ 7#3)) <| needZero (fH w) <| some (.cvtI16I32 (fD w) (fA w) (bit1 (fSat w)))
  | 0x5E => needZero (fB w) <| needZero ((fMid w ^^^ 7#3)) <| needZero (fH w) <| some (.cvtN16I32 (fD w) (fA w) (bit1 (fSat w)))
  | 0x70 => (decRm (fMid w)).bind fun rm => some (.cvtpE4m3 (fD w) (fA w) (fB w) rm (bit1 (fSat w)) (bit1 (fH w)))
  | 0x71 => (decRm (fMid w)).bind fun rm => some (.cvtpE5m2 (fD w) (fA w) (fB w) rm (bit1 (fSat w)) (bit1 (fH w)))
  | 0x72 => (decRm (fMid w)).bind fun rm => some (.cvtpE2m1Low (fD w) (fA w) (fB w) rm (bit1 (fSat w)) (bit1 (fH w)))
  | 0x73 => (decRm (fMid w)).bind fun rm => some (.cvtpE2m1High (fD w) (fA w) (fB w) rm (bit1 (fSat w)) (bit1 (fH w)))
  | 0x74 => needZero (fH w) <| (decRm (fMid w)).bind fun rm => some (.cvtpF16 (fD w) (fA w) (fB w) rm (bit1 (fSat w)))
  | 0x75 => needZero (fH w) <| (decRm (fMid w)).bind fun rm => some (.cvtpBf16 (fD w) (fA w) (fB w) rm (bit1 (fSat w)))
  | _ => none

/-- The F4 forms by SUB (R80). -/
def rawF4 (w : Word) : Option Instr :=
  match (fSub w).toNat with
  | 0 => some (.ffma (f4D w) (f4A w) (f4B w) (f4C w))
  | 1 => some (.dfma (f4D w) (f4A w) (f4B w) (f4C w))
  | 2 => some (.imad (f4D w) (f4A w) (f4B w) (f4C w))
  | _ => some (.sel (f4D w) (f4A w) (f4B w) (f4C w))

/-- A word is a LONG word: class C with OP 0x0B, 0x0C or 0x0D (R64, R70). -/
def isLongWord (w : Word) : Bool :=
  fK w == 0#1 && (fOp w == 0x0B#7 || fOp w == 0x0C#7 || fOp w == 0x0D#7)

/-- The word as the maps read it, before register classes and field values are checked. -/
def rawDecode (w : Word) : Option Instr :=
  if fK w = 0#1 then rawC w
  else if (fOp w).extractLsb' 3 4 = 0xF#4 then rawF4 w
  else rawA w

/-- The LONG forms, a word and its literal (R64, R70). -/
def rawLong (w lit : Word) : Option Instr :=
  match (fOp w).toNat with
  | 0x0B => needZero (fImm17 w) <| some (.li (fD w) lit)
  | 0x0C => needZero (fImm17 w) <| some (.lih (fD w) lit)
  | 0x0D => needZero (fD w) <| needZero (fImm17 w) <| some (.callx lit)
  | _ => none

/-- Keep an instruction whose fields are within their classes (R68, R81). -/
def keepWellFormed (r : Option Instr) : Option Instr :=
  r.bind fun i => if i.wellFormed then some i else none

/-- The instruction of a word that is not a LONG word, L aside (R70 to R81). -/
def decodeWord (w : Word) : Option Instr := keepWellFormed (rawDecode w)

/-- The instruction of a LONG word with its literal, L aside (R64, R70). -/
def decodeLong (w lit : Word) : Option Instr := keepWellFormed (rawLong w lit)

/-- The two words of an instruction of at most 64 bits, the first at the lower address (R64). -/
def decodeWords (w0 w1 : Word) : Option Instr :=
  if isLongWord w0 then
    -- a LONG word has L = 0 (R64)
    if fL w0 = 0#1 then decodeLong w0 w1 else none
  else decodeWord w0

/-- The instruction that the decoder reads from table bits: the first word in bits 31 to 0, a
literal above it. A KX4 word is little-endian and its bit 0 is the table's bit 0 (R7, R61). -/
def decodeTableWord (_nbits w : Nat) : Option Instr :=
  decodeWords (BitVec.ofNat 32 w) (BitVec.ofNat 32 (w / 4294967296))

/-- Format RR (R66). -/
def encRR (l k : BitVec 1) (op : BitVec 7) (d a b : RegNo) (f : BitVec 5) : Word :=
  l ++ k ++ op ++ d ++ a ++ b ++ f
/-- Formats RI and, with the two register fields of a branch, BR (R66). -/
def encRI (l k : BitVec 1) (op : BitVec 7) (d a : RegNo) (imm : BitVec 11) : Word :=
  l ++ k ++ op ++ d ++ a ++ imm
/-- Formats RU and BZ (R66). -/
def encRU (l k : BitVec 1) (op : BitVec 7) (d : RegNo) (imm : BitVec 17) : Word :=
  l ++ k ++ op ++ d ++ imm
/-- Format J (R66). -/
def encJ (l k : BitVec 1) (op : BitVec 7) (off : BitVec 23) : Word := l ++ k ++ op ++ off
/-- Format M (R66). -/
def encM (l k : BitVec 1) (op : BitVec 7) (d a : RegNo) (sp : BitVec 2) (imm : BitVec 9) : Word :=
  l ++ k ++ op ++ d ++ a ++ sp ++ imm
/-- Format MO (R66). -/
def encMO (l k : BitVec 1) (op : BitVec 7) (d a b : RegNo) (sc : BitVec 3) (od : BitVec 2) : Word :=
  l ++ k ++ op ++ d ++ a ++ b ++ sc ++ od
/-- Format CV (R66). -/
def encCV (l k : BitVec 1) (op : BitVec 7) (d a b : RegNo) (rm : BitVec 3) (sat h : BitVec 1) : Word :=
  l ++ k ++ op ++ d ++ a ++ b ++ rm ++ sat ++ h
/-- Format F4 (R66). -/
def encF4 (l : BitVec 1) (sub : BitVec 2) (d a b c : RegNo) : Word :=
  l ++ (1#1 ++ 0xF#4) ++ sub ++ d ++ a ++ b ++ c

/-- The words of an instruction, with L as given where its form has a choice (R61, R66, R70 to R80): an
event has none, a LONG form has L = 0 and its literal as second word (R64). -/
def encodeWords (l : BitVec 1) : Instr → List Word
  | .rollCycle _ => []
  | .chimeArrival _ => []
  | .pauseEnd _ _ => []
  | .watchPoll _ _ => []
  | .sLineSweep _ _ => []
  | .coherentUpdate _ => []
  | .walk _ _ _ => []
  | .pendingRecordWrite _ => []
  | .spill _ _ => []
  | .refill _ _ => []
  | .takeEntry _ => []
  | .tceJobRun _ _ => []
  | .tceSectorWrite _ _ => []
  | .tceJobEnd _ _ => []
  | .mmaJob _ _ => []
  | .mxMergeJob _ _ => []
  | .mxZeroJob _ _ => []
  | .mxStJob _ _ => []
  | .mxLdJob _ _ => []
  | .scratchPageRefill _ _ _ => []
  | .switch _ => []
  | .lqdWrite _ _ => []
  | .doorbell _ _ => []
  | .packetAcceptance _ => []
  | .launchReady _ => []
  | .aging _ => []
  | .launchSuspended _ => []
  | .launchCompletion _ => []
  | .watchdog _ => []
  | .abort _ _ => []
  | .quantumEnd _ _ => []
  | .quantumBoundary _ => []
  | .freeze _ => []
  | .checkpoint _ => []
  | .thaw _ => []
  | .gongBadMode _ => []
  | .hostLinkFailure => []
  | .fatalError _ _ => []
  | .poisonThreshold _ => []
  | .throttle _ _ _ => []
  | .islandResetRelease _ => []
  | .messageArrival _ => []
  | .chimePortWrite _ _ _ => []
  | .registerWrite _ _ _ => []
  | .hostRequest _ _ => []
  | .peerRequest _ _ => []
  | .grantRecall _ _ => []
  | .recallTimeout _ _ => []
  | .collCompletion _ _ => []
  | .residencyReport => []
  | .halt _ => []
  | .cont _ => []
  | .step _ => []
  | .rdreg _ => []
  | .wrreg _ => []
  | .rdsreg _ => []
  | .wrsreg _ => []
  | .rdpc _ => []
  | .wrpc _ => []
  | .packageReset _ => []
  | .level1Turn _ => []
  | .memberLost _ => []
  | .hostLinkDown _ _ => []
  | .bra off => [encJ l 0#1 0x00#7 off]
  | .call off => [encJ l 0#1 0x01#7 off]
  | .bz a off => [encRU l 0#1 0x02#7 a off]
  | .bnz a off => [encRU l 0#1 0x03#7 a off]
  | .beq a b off => [encRI l 0#1 0x04#7 a b off]
  | .bne a b off => [encRI l 0#1 0x05#7 a b off]
  | .blt a b off => [encRI l 0#1 0x06#7 a b off]
  | .bge a b off => [encRI l 0#1 0x07#7 a b off]
  | .blo a b off => [encRI l 0#1 0x08#7 a b off]
  | .bhs a b off => [encRI l 0#1 0x09#7 a b off]
  | .spawn a off => [encRU l 0#1 0x0A#7 a off]
  | .li d imm => [encRU 0#1 0#1 0x0B#7 d 0#17, imm]
  | .lih d imm => [encRU 0#1 0#1 0x0C#7 d 0#17, imm]
  | .callx imm => [encRU 0#1 0#1 0x0D#7 0#6 0#17, imm]
  | .callr a => [encRR l 0#1 0x0E#7 0#6 a 0#6 0#5]
  | .ret => [encRR l 0#1 0x0E#7 0#6 0#6 0#6 1#5]
  | .jr a => [encRR l 0#1 0x0E#7 0#6 a 0#6 2#5]
  | .exit => [encRR l 0#1 0x0F#7 0#6 0#6 0#6 0#5]
  | .pause => [encRR l 0#1 0x0F#7 0#6 0#6 0#6 1#5]
  | .tdone => [encRR l 0#1 0x0F#7 0#6 0#6 0#6 2#5]
  | .join a => [encRR l 0#1 0x0F#7 0#6 a 0#6 3#5]
  | .tkill a => [encRR l 0#1 0x0F#7 0#6 a 0#6 4#5]
  | .tresume a => [encRR l 0#1 0x0F#7 0#6 a 0#6 5#5]
  | .trap imm => [encRU l 0#1 0x10#7 0#6 imm]
  | .sget d imm => [encRI l 0#1 0x11#7 d 0#6 imm]
  | .sset a imm => [encRI l 0#1 0x12#7 0#6 a imm]
  | .brk => [encRR l 0#1 0x13#7 0#6 0#6 0#6 0#5]
  | .tret => [encRR l 0#1 0x13#7 0#6 0#6 0#6 1#5]
  | .fenceI => [encRR l 0#1 0x13#7 0#6 0#6 0#6 2#5]
  | .tlbi a => [encRR l 0#1 0x13#7 0#6 a 0#6 3#5]
  | .tlbiAsn a => [encRR l 0#1 0x13#7 0#6 a 0#6 4#5]
  | .tlbiAll => [encRR l 0#1 0x13#7 0#6 0#6 0#6 5#5]
  | .chime a => [encRR l 0#1 0x13#7 0#6 a 0#6 6#5]
  | .l2pin a b => [encRR l 0#1 0x13#7 0#6 a b 7#5]
  | .l2unpin a b => [encRR l 0#1 0x13#7 0#6 a b 8#5]
  | .rgnSet a b => [encRR l 0#1 0x13#7 0#6 a b 9#5]
  | .rgnAcq a => [encRR l 0#1 0x13#7 0#6 a 0#6 10#5]
  | .rgnRel a => [encRR l 0#1 0x13#7 0#6 a 0#6 11#5]
  | .waiteqW a b sc od => [encMO l 0#1 0x14#7 0#6 a b (encScope sc) (encOrd od)]
  | .waitneW a b sc od => [encMO l 0#1 0x15#7 0#6 a b (encScope sc) (encOrd od)]
  | .waiteqD a b sc od => [encMO l 0#1 0x16#7 0#6 a b (encScope sc) (encOrd od)]
  | .waitneD a b sc od => [encMO l 0#1 0x17#7 0#6 a b (encScope sc) (encOrd od)]
  | .ld8s d a sp imm => [encM l 0#1 0x20#7 d a (encSpace sp) imm]
  | .ld8z d a sp imm => [encM l 0#1 0x21#7 d a (encSpace sp) imm]
  | .ld16s d a sp imm => [encM l 0#1 0x22#7 d a (encSpace sp) imm]
  | .ld16z d a sp imm => [encM l 0#1 0x23#7 d a (encSpace sp) imm]
  | .ld32 d a sp imm => [encM l 0#1 0x24#7 d a (encSpace sp) imm]
  | .ld64 d a sp imm => [encM l 0#1 0x25#7 d a (encSpace sp) imm]
  | .ld128 d a sp imm => [encM l 0#1 0x26#7 d a (encSpace sp) imm]
  | .pf d a imm => [encM l 0#1 0x27#7 d a 0#2 imm]
  | .st8 d a sp imm => [encM l 0#1 0x28#7 d a (encSpace sp) imm]
  | .st16 d a sp imm => [encM l 0#1 0x29#7 d a (encSpace sp) imm]
  | .st32 d a sp imm => [encM l 0#1 0x2A#7 d a (encSpace sp) imm]
  | .st64 d a sp imm => [encM l 0#1 0x2B#7 d a (encSpace sp) imm]
  | .st128 d a sp imm => [encM l 0#1 0x2C#7 d a (encSpace sp) imm]
  | .ldm d a n => [encRR l 0#1 0x2D#7 d a 0#6 n]
  | .stm d a n => [encRR l 0#1 0x2E#7 d a 0#6 n]
  | .ld8sOrd d a sc od => [encMO l 0#1 0x30#7 d a 0#6 (encScope sc) (encOrd od)]
  | .ld8zOrd d a sc od => [encMO l 0#1 0x31#7 d a 0#6 (encScope sc) (encOrd od)]
  | .ld16sOrd d a sc od => [encMO l 0#1 0x32#7 d a 0#6 (encScope sc) (encOrd od)]
  | .ld16zOrd d a sc od => [encMO l 0#1 0x33#7 d a 0#6 (encScope sc) (encOrd od)]
  | .ld32Ord d a sc od => [encMO l 0#1 0x34#7 d a 0#6 (encScope sc) (encOrd od)]
  | .ld64Ord d a sc od => [encMO l 0#1 0x35#7 d a 0#6 (encScope sc) (encOrd od)]
  | .ld128Ord d a sc od => [encMO l 0#1 0x36#7 d a 0#6 (encScope sc) (encOrd od)]
  | .fence sc od => [encMO l 0#1 0x37#7 0#6 0#6 0#6 (encScope sc) (encFenceOrd od)]
  | .st8Ord d a sc od => [encMO l 0#1 0x38#7 d a 0#6 (encScope sc) (encOrd od)]
  | .st16Ord d a sc od => [encMO l 0#1 0x39#7 d a 0#6 (encScope sc) (encOrd od)]
  | .st32Ord d a sc od => [encMO l 0#1 0x3A#7 d a 0#6 (encScope sc) (encOrd od)]
  | .st64Ord d a sc od => [encMO l 0#1 0x3B#7 d a 0#6 (encScope sc) (encOrd od)]
  | .st128Ord d a sc od => [encMO l 0#1 0x3C#7 d a 0#6 (encScope sc) (encOrd od)]
  | .amoAddW d a b sc od => [encMO l 0#1 0x40#7 d a b (encScope sc) (encOrd od)]
  | .amoAddD d a b sc od => [encMO l 0#1 0x41#7 d a b (encScope sc) (encOrd od)]
  | .amoAndW d a b sc od => [encMO l 0#1 0x42#7 d a b (encScope sc) (encOrd od)]
  | .amoAndD d a b sc od => [encMO l 0#1 0x43#7 d a b (encScope sc) (encOrd od)]
  | .amoOrW d a b sc od => [encMO l 0#1 0x44#7 d a b (encScope sc) (encOrd od)]
  | .amoOrD d a b sc od => [encMO l 0#1 0x45#7 d a b (encScope sc) (encOrd od)]
  | .amoXorW d a b sc od => [encMO l 0#1 0x46#7 d a b (encScope sc) (encOrd od)]
  | .amoXorD d a b sc od => [encMO l 0#1 0x47#7 d a b (encScope sc) (encOrd od)]
  | .amoMinW d a b sc od => [encMO l 0#1 0x48#7 d a b (encScope sc) (encOrd od)]
  | .amoMinD d a b sc od => [encMO l 0#1 0x49#7 d a b (encScope sc) (encOrd od)]
  | .amoMaxW d a b sc od => [encMO l 0#1 0x4A#7 d a b (encScope sc) (encOrd od)]
  | .amoMaxD d a b sc od => [encMO l 0#1 0x4B#7 d a b (encScope sc) (encOrd od)]
  | .amoMinnW d a b sc od => [encMO l 0#1 0x4C#7 d a b (encScope sc) (encOrd od)]
  | .amoMinnD d a b sc od => [encMO l 0#1 0x4D#7 d a b (encScope sc) (encOrd od)]
  | .amoMaxnW d a b sc od => [encMO l 0#1 0x4E#7 d a b (encScope sc) (encOrd od)]
  | .amoMaxnD d a b sc od => [encMO l 0#1 0x4F#7 d a b (encScope sc) (encOrd od)]
  | .amoSwpW d a b sc od => [encMO l 0#1 0x50#7 d a b (encScope sc) (encOrd od)]
  | .amoSwpD d a b sc od => [encMO l 0#1 0x51#7 d a b (encScope sc) (encOrd od)]
  | .amoCasW d a b sc od => [encMO l 0#1 0x52#7 d a b (encScope sc) (encOrd od)]
  | .amoCasD d a b sc od => [encMO l 0#1 0x53#7 d a b (encScope sc) (encOrd od)]
  | .amoFaddW d a b sc od => [encMO l 0#1 0x54#7 d a b (encScope sc) (encOrd od)]
  | .amoFaddD d a b sc od => [encMO l 0#1 0x55#7 d a b (encScope sc) (encOrd od)]
  | .amoFminW d a b sc od => [encMO l 0#1 0x56#7 d a b (encScope sc) (encOrd od)]
  | .amoFminD d a b sc od => [encMO l 0#1 0x57#7 d a b (encScope sc) (encOrd od)]
  | .amoFmaxW d a b sc od => [encMO l 0#1 0x58#7 d a b (encScope sc) (encOrd od)]
  | .amoFmaxD d a b sc od => [encMO l 0#1 0x59#7 d a b (encScope sc) (encOrd od)]
  | .srel d a sc => [encMO l 0#1 0x5C#7 d a 0#6 (encScope sc) 0#2]
  | .sacq d a sc => [encMO l 0#1 0x5D#7 d a 0#6 (encScope sc) 0#2]
  | .sadd d a b sc => [encMO l 0#1 0x5E#7 d a b (encScope sc) 0#2]
  | .scas d a b sc => [encMO l 0#1 0x5F#7 d a b (encScope sc) 0#2]
  | .rbind d a => [encRR l 0#1 0x60#7 d a 0#6 0#5]
  | .rwf d a => [encRR l 0#1 0x60#7 d a 0#6 1#5]
  | .rwe d a => [encRR l 0#1 0x60#7 d a 0#6 2#5]
  | .radvp d a => [encRR l 0#1 0x60#7 d a 0#6 3#5]
  | .radvc d a => [encRR l 0#1 0x60#7 d a 0#6 4#5]
  | .raddr d a b => [encRR l 0#1 0x60#7 d a b 5#5]
  | .rbytes d a b => [encRR l 0#1 0x60#7 d a b 6#5]
  | .qbind d a => [encRR l 0#1 0x60#7 d a 0#6 7#5]
  | .conv d a b => [encRR l 0#1 0x61#7 d a b 0#5]
  | .gbar => [encRR l 0#1 0x61#7 0#6 0#6 0#6 1#5]
  | .gbc d a b => [encRR l 0#1 0x61#7 d a b 2#5]
  | .gbcD d a b => [encRR l 0#1 0x61#7 d a b 3#5]
  | .gdis => [encRR l 0#1 0x61#7 0#6 0#6 0#6 4#5]
  | .gredAddF32 d a => [encRR l 0#1 0x62#7 d a 0#6 0#5]
  | .gredAddF64 d a => [encRR l 0#1 0x62#7 d a 0#6 1#5]
  | .gredCaddF32 d a => [encRR l 0#1 0x62#7 d a 0#6 2#5]
  | .gredAddI32 d a => [encRR l 0#1 0x62#7 d a 0#6 3#5]
  | .gredAddI64 d a => [encRR l 0#1 0x62#7 d a 0#6 4#5]
  | .gredMaxF32 d a => [encRR l 0#1 0x62#7 d a 0#6 5#5]
  | .gredMinF32 d a => [encRR l 0#1 0x62#7 d a 0#6 6#5]
  | .gredMaxF64 d a => [encRR l 0#1 0x62#7 d a 0#6 7#5]
  | .gredMinF64 d a => [encRR l 0#1 0x62#7 d a 0#6 8#5]
  | .gredMaxI32 d a => [encRR l 0#1 0x62#7 d a 0#6 9#5]
  | .gredMinI32 d a => [encRR l 0#1 0x62#7 d a 0#6 10#5]
  | .gredAnd d a => [encRR l 0#1 0x62#7 d a 0#6 11#5]
  | .gredOr d a => [encRR l 0#1 0x62#7 d a 0#6 12#5]
  | .gredXor d a => [encRR l 0#1 0x62#7 d a 0#6 13#5]
  | .tcopy d a b => [encRR l 0#1 0x63#7 d a b 0#5]
  | .scopy d a b => [encRR l 0#1 0x63#7 d a b 1#5]
  | .tfill d a b => [encRR l 0#1 0x63#7 d a b 2#5]
  | .ewait a => [encRR l 0#1 0x63#7 0#6 a 0#6 3#5]
  | .eprog d a => [encRR l 0#1 0x63#7 d a 0#6 4#5]
  | .mxCfg d a => [encRR l 0#1 0x64#7 d a 0#6 0#5]
  | .mxZero d => [encRR l 0#1 0x64#7 d 0#6 0#6 1#5]
  | .mxLd d a => [encRR l 0#1 0x64#7 d a 0#6 2#5]
  | .mxSt d a b => [encRR l 0#1 0x64#7 d a b 3#5]
  | .mxMerge d a b => [encRR l 0#1 0x64#7 d a b 4#5]
  | .mmaF64 d a b => [encRR l 0#1 0x65#7 d a b 0#5]
  | .mmaF32 d a b => [encRR l 0#1 0x65#7 d a b 1#5]
  | .mmaBf16 d a b => [encRR l 0#1 0x65#7 d a b 2#5]
  | .mmaF16 d a b => [encRR l 0#1 0x65#7 d a b 3#5]
  | .mmaE4m3 d a b => [encRR l 0#1 0x65#7 d a b 4#5]
  | .mmaE5m2 d a b => [encRR l 0#1 0x65#7 d a b 5#5]
  | .mmaMx8 d a b => [encRR l 0#1 0x65#7 d a b 6#5]
  | .mmaE2m1 d a b => [encRR l 0#1 0x65#7 d a b 7#5]
  | .launch d a => [encRR l 0#1 0x66#7 d a 0#6 0#5]
  | .nsend a b => [encRR l 0#1 0x66#7 0#6 a b 1#5]
  | .nrecv d a => [encRR l 0#1 0x66#7 d a 0#6 2#5]
  | .nmcast a b => [encRR l 0#1 0x66#7 0#6 a b 3#5]
  | .collRedAddF32 d a => [encRR l 0#1 0x67#7 d a 0#6 0#5]
  | .collRedAddF64 d a => [encRR l 0#1 0x67#7 d a 0#6 1#5]
  | .collRedCaddF32 d a => [encRR l 0#1 0x67#7 d a 0#6 2#5]
  | .collRedAddI32 d a => [encRR l 0#1 0x67#7 d a 0#6 3#5]
  | .collRedAddI64 d a => [encRR l 0#1 0x67#7 d a 0#6 4#5]
  | .collRedMaxF32 d a => [encRR l 0#1 0x67#7 d a 0#6 5#5]
  | .collRedMinF32 d a => [encRR l 0#1 0x67#7 d a 0#6 6#5]
  | .collRedMaxF64 d a => [encRR l 0#1 0x67#7 d a 0#6 7#5]
  | .collRedMinF64 d a => [encRR l 0#1 0x67#7 d a 0#6 8#5]
  | .collRedMaxI32 d a => [encRR l 0#1 0x67#7 d a 0#6 9#5]
  | .collRedMinI32 d a => [encRR l 0#1 0x67#7 d a 0#6 10#5]
  | .collRedAnd d a => [encRR l 0#1 0x67#7 d a 0#6 11#5]
  | .collRedOr d a => [encRR l 0#1 0x67#7 d a 0#6 12#5]
  | .collRedXor d a => [encRR l 0#1 0x67#7 d a 0#6 13#5]
  | .collBc d a => [encRR l 0#1 0x67#7 d a 0#6 14#5]
  | .collAg d a => [encRR l 0#1 0x67#7 d a 0#6 15#5]
  | .add d a b => [encRR l 1#1 0x00#7 d a b 0#5]
  | .sub d a b => [encRR l 1#1 0x00#7 d a b 1#5]
  | .mul d a b => [encRR l 1#1 0x00#7 d a b 2#5]
  | .mulh d a b => [encRR l 1#1 0x00#7 d a b 3#5]
  | .mulhn d a b => [encRR l 1#1 0x00#7 d a b 4#5]
  | .div d a b => [encRR l 1#1 0x00#7 d a b 5#5]
  | .divn d a b => [encRR l 1#1 0x00#7 d a b 6#5]
  | .rem d a b => [encRR l 1#1 0x00#7 d a b 7#5]
  | .remn d a b => [encRR l 1#1 0x00#7 d a b 8#5]
  | .min d a b => [encRR l 1#1 0x00#7 d a b 9#5]
  | .max d a b => [encRR l 1#1 0x00#7 d a b 10#5]
  | .minn d a b => [encRR l 1#1 0x00#7 d a b 11#5]
  | .maxn d a b => [encRR l 1#1 0x00#7 d a b 12#5]
  | .abs d a => [encRR l 1#1 0x00#7 d a 0#6 13#5]
  | .and d a b => [encRR l 1#1 0x00#7 d a b 14#5]
  | .or d a b => [encRR l 1#1 0x00#7 d a b 15#5]
  | .xor d a b => [encRR l 1#1 0x00#7 d a b 16#5]
  | .shl d a b => [encRR l 1#1 0x00#7 d a b 17#5]
  | .shr d a b => [encRR l 1#1 0x00#7 d a b 18#5]
  | .sar d a b => [encRR l 1#1 0x00#7 d a b 19#5]
  | .clz d a => [encRR l 1#1 0x00#7 d a 0#6 20#5]
  | .ctz d a => [encRR l 1#1 0x00#7 d a 0#6 21#5]
  | .popc d a => [encRR l 1#1 0x00#7 d a 0#6 22#5]
  | .brev d a => [encRR l 1#1 0x00#7 d a 0#6 23#5]
  | .bfx d a b => [encRR l 1#1 0x00#7 d a b 24#5]
  | .bfi d a b => [encRR l 1#1 0x00#7 d a b 25#5]
  | .slt d a b => [encRR l 1#1 0x00#7 d a b 26#5]
  | .sltn d a b => [encRR l 1#1 0x00#7 d a b 27#5]
  | .seq d a b => [encRR l 1#1 0x00#7 d a b 28#5]
  | .sne d a b => [encRR l 1#1 0x00#7 d a b 29#5]
  | .rng d => [encRR l 1#1 0x00#7 d 0#6 0#6 30#5]
  | .addD d a b => [encRR l 1#1 0x01#7 d a b 0#5]
  | .subD d a b => [encRR l 1#1 0x01#7 d a b 1#5]
  | .mulD d a b => [encRR l 1#1 0x01#7 d a b 2#5]
  | .shlD d a b => [encRR l 1#1 0x01#7 d a b 3#5]
  | .shrD d a b => [encRR l 1#1 0x01#7 d a b 4#5]
  | .sarD d a b => [encRR l 1#1 0x01#7 d a b 5#5]
  | .andD d a b => [encRR l 1#1 0x01#7 d a b 6#5]
  | .orD d a b => [encRR l 1#1 0x01#7 d a b 7#5]
  | .xorD d a b => [encRR l 1#1 0x01#7 d a b 8#5]
  | .minD d a b => [encRR l 1#1 0x01#7 d a b 9#5]
  | .maxD d a b => [encRR l 1#1 0x01#7 d a b 10#5]
  | .minnD d a b => [encRR l 1#1 0x01#7 d a b 11#5]
  | .maxnD d a b => [encRR l 1#1 0x01#7 d a b 12#5]
  | .sltD d a b => [encRR l 1#1 0x01#7 d a b 13#5]
  | .sltnD d a b => [encRR l 1#1 0x01#7 d a b 14#5]
  | .seqD d a b => [encRR l 1#1 0x01#7 d a b 15#5]
  | .addi d a imm => [encRI l 1#1 0x02#7 d a imm]
  | .andi d a imm => [encRI l 1#1 0x03#7 d a imm]
  | .ori d a imm => [encRI l 1#1 0x04#7 d a imm]
  | .xori d a imm => [encRI l 1#1 0x05#7 d a imm]
  | .slti d a imm => [encRI l 1#1 0x06#7 d a imm]
  | .shli d a imm => [encRI l 1#1 0x07#7 d a (0#6 ++ imm)]
  | .shri d a imm => [encRI l 1#1 0x08#7 d a (0#6 ++ imm)]
  | .sari d a imm => [encRI l 1#1 0x09#7 d a (0#6 ++ imm)]
  | .lui d imm => [encRU l 1#1 0x0A#7 d imm]
  | .fadd d a b => [encRR l 1#1 0x10#7 d a b 0#5]
  | .fsub d a b => [encRR l 1#1 0x10#7 d a b 1#5]
  | .fmul d a b => [encRR l 1#1 0x10#7 d a b 2#5]
  | .fdiv d a b => [encRR l 1#1 0x10#7 d a b 3#5]
  | .fsqrt d a => [encRR l 1#1 0x10#7 d a 0#6 4#5]
  | .fmin d a b => [encRR l 1#1 0x10#7 d a b 5#5]
  | .fmax d a b => [encRR l 1#1 0x10#7 d a b 6#5]
  | .fabs d a => [encRR l 1#1 0x10#7 d a 0#6 7#5]
  | .fneg d a => [encRR l 1#1 0x10#7 d a 0#6 8#5]
  | .feq d a b => [encRR l 1#1 0x10#7 d a b 9#5]
  | .flt d a b => [encRR l 1#1 0x10#7 d a b 10#5]
  | .fle d a b => [encRR l 1#1 0x10#7 d a b 11#5]
  | .funOrd d a b => [encRR l 1#1 0x10#7 d a b 12#5]
  | .fclass d a => [encRR l 1#1 0x10#7 d a 0#6 13#5]
  | .frnd d a b rm => [encCV l 1#1 0x11#7 d a b (encRm rm) 0#1 0#1]
  | .dadd d a b => [encRR l 1#1 0x12#7 d a b 0#5]
  | .dsub d a b => [encRR l 1#1 0x12#7 d a b 1#5]
  | .dmul d a b => [encRR l 1#1 0x12#7 d a b 2#5]
  | .ddiv d a b => [encRR l 1#1 0x12#7 d a b 3#5]
  | .dsqrt d a => [encRR l 1#1 0x12#7 d a 0#6 4#5]
  | .dmin d a b => [encRR l 1#1 0x12#7 d a b 5#5]
  | .dmax d a b => [encRR l 1#1 0x12#7 d a b 6#5]
  | .dabs d a => [encRR l 1#1 0x12#7 d a 0#6 7#5]
  | .dneg d a => [encRR l 1#1 0x12#7 d a 0#6 8#5]
  | .deq d a b => [encRR l 1#1 0x12#7 d a b 9#5]
  | .dlt d a b => [encRR l 1#1 0x12#7 d a b 10#5]
  | .dle d a b => [encRR l 1#1 0x12#7 d a b 11#5]
  | .dunOrd d a b => [encRR l 1#1 0x12#7 d a b 12#5]
  | .dclass d a => [encRR l 1#1 0x12#7 d a 0#6 13#5]
  | .drnd d a b rm => [encCV l 1#1 0x13#7 d a b (encRm rm) 0#1 0#1]
  | .p2addH d a b => [encRR l 1#1 0x14#7 d a b 0#5]
  | .p2subH d a b => [encRR l 1#1 0x14#7 d a b 1#5]
  | .p2mulH d a b => [encRR l 1#1 0x14#7 d a b 2#5]
  | .p2fmaH d a b => [encRR l 1#1 0x14#7 d a b 3#5]
  | .p2minH d a b => [encRR l 1#1 0x14#7 d a b 4#5]
  | .p2maxH d a b => [encRR l 1#1 0x14#7 d a b 5#5]
  | .p2addB d a b => [encRR l 1#1 0x14#7 d a b 8#5]
  | .p2subB d a b => [encRR l 1#1 0x14#7 d a b 9#5]
  | .p2mulB d a b => [encRR l 1#1 0x14#7 d a b 10#5]
  | .p2fmaB d a b => [encRR l 1#1 0x14#7 d a b 11#5]
  | .p2minB d a b => [encRR l 1#1 0x14#7 d a b 12#5]
  | .p2maxB d a b => [encRR l 1#1 0x14#7 d a b 13#5]
  | .cvtF64F32 d a b rm sat => [encCV l 1#1 0x20#7 d a b (encRm rm) (ofBit sat) 0#1]
  | .cvtF64F16 d a b rm sat => [encCV l 1#1 0x21#7 d a b (encRm rm) (ofBit sat) 0#1]
  | .cvtF64Bf16 d a b rm sat => [encCV l 1#1 0x22#7 d a b (encRm rm) (ofBit sat) 0#1]
  | .cvtF64E4m3 d a b rm sat => [encCV l 1#1 0x23#7 d a b (encRm rm) (ofBit sat) 0#1]
  | .cvtF64E5m2 d a b rm sat => [encCV l 1#1 0x24#7 d a b (encRm rm) (ofBit sat) 0#1]
  | .cvtF64I32 d a b rm sat => [encCV l 1#1 0x25#7 d a b (encRm rm) (ofBit sat) 0#1]
  | .cvtF64N32 d a b rm sat => [encCV l 1#1 0x26#7 d a b (encRm rm) (ofBit sat) 0#1]
  | .cvtF64I64 d a b rm sat => [encCV l 1#1 0x27#7 d a b (encRm rm) (ofBit sat) 0#1]
  | .cvtF64N64 d a b rm sat => [encCV l 1#1 0x28#7 d a b (encRm rm) (ofBit sat) 0#1]
  | .cvtF32F64 d a b rm sat => [encCV l 1#1 0x29#7 d a b (encRm rm) (ofBit sat) 0#1]
  | .cvtF32F16 d a b rm sat => [encCV l 1#1 0x2A#7 d a b (encRm rm) (ofBit sat) 0#1]
  | .cvtF32Bf16 d a b rm sat => [encCV l 1#1 0x2B#7 d a b (encRm rm) (ofBit sat) 0#1]
  | .cvtF32E4m3 d a b rm sat => [encCV l 1#1 0x2C#7 d a b (encRm rm) (ofBit sat) 0#1]
  | .cvtF32E5m2 d a b rm sat => [encCV l 1#1 0x2D#7 d a b (encRm rm) (ofBit sat) 0#1]
  | .cvtF32E2m1 d a b rm sat => [encCV l 1#1 0x2E#7 d a b (encRm rm) (ofBit sat) 0#1]
  | .cvtF32E8m0 d a b rm sat => [encCV l 1#1 0x2F#7 d a b (encRm rm) (ofBit sat) 0#1]
  | .cvtF32E3m5 d a b rm sat => [encCV l 1#1 0x30#7 d a b (encRm rm) (ofBit sat) 0#1]
  | .cvtF32I32 d a b rm sat => [encCV l 1#1 0x31#7 d a b (encRm rm) (ofBit sat) 0#1]
  | .cvtF32N32 d a b rm sat => [encCV l 1#1 0x32#7 d a b (encRm rm) (ofBit sat) 0#1]
  | .cvtF32I64 d a b rm sat => [encCV l 1#1 0x33#7 d a b (encRm rm) (ofBit sat) 0#1]
  | .cvtF32N64 d a b rm sat => [encCV l 1#1 0x34#7 d a b (encRm rm) (ofBit sat) 0#1]
  | .cvtF16F64 d a b rm sat => [encCV l 1#1 0x35#7 d a b (encRm rm) (ofBit sat) 0#1]
  | .cvtF16F32 d a b rm sat => [encCV l 1#1 0x36#7 d a b (encRm rm) (ofBit sat) 0#1]
  | .cvtF16Bf16 d a b rm sat => [encCV l 1#1 0x37#7 d a b (encRm rm) (ofBit sat) 0#1]
  | .cvtF16E4m3 d a b rm sat => [encCV l 1#1 0x38#7 d a b (encRm rm) (ofBit sat) 0#1]
  | .cvtF16E5m2 d a b rm sat => [encCV l 1#1 0x39#7 d a b (encRm rm) (ofBit sat) 0#1]
  | .cvtBf16F64 d a b rm sat => [encCV l 1#1 0x3A#7 d a b (encRm rm) (ofBit sat) 0#1]
  | .cvtBf16F32 d a b rm sat => [encCV l 1#1 0x3B#7 d a b (encRm rm) (ofBit sat) 0#1]
  | .cvtBf16F16 d a b rm sat => [encCV l 1#1 0x3C#7 d a b (encRm rm) (ofBit sat) 0#1]
  | .cvtBf16E4m3 d a b rm sat => [encCV l 1#1 0x3D#7 d a b (encRm rm) (ofBit sat) 0#1]
  | .cvtBf16E5m2 d a b rm sat => [encCV l 1#1 0x3E#7 d a b (encRm rm) (ofBit sat) 0#1]
  | .cvtE4m3F64 d a b rm sat => [encCV l 1#1 0x3F#7 d a b (encRm rm) (ofBit sat) 0#1]
  | .cvtE4m3F32 d a b rm sat => [encCV l 1#1 0x40#7 d a b (encRm rm) (ofBit sat) 0#1]
  | .cvtE4m3F16 d a b rm sat => [encCV l 1#1 0x41#7 d a b (encRm rm) (ofBit sat) 0#1]
  | .cvtE4m3Bf16 d a b rm sat => [encCV l 1#1 0x42#7 d a b (encRm rm) (ofBit sat) 0#1]
  | .cvtE4m3E5m2 d a b rm sat => [encCV l 1#1 0x43#7 d a b (encRm rm) (ofBit sat) 0#1]
  | .cvtE5m2F64 d a b rm sat => [encCV l 1#1 0x44#7 d a b (encRm rm) (ofBit sat) 0#1]
  | .cvtE5m2F32 d a b rm sat => [encCV l 1#1 0x45#7 d a b (encRm rm) (ofBit sat) 0#1]
  | .cvtE5m2F16 d a b rm sat => [encCV l 1#1 0x46#7 d a b (encRm rm) (ofBit sat) 0#1]
  | .cvtE5m2Bf16 d a b rm sat => [encCV l 1#1 0x47#7 d a b (encRm rm) (ofBit sat) 0#1]
  | .cvtE5m2E4m3 d a b rm sat => [encCV l 1#1 0x48#7 d a b (encRm rm) (ofBit sat) 0#1]
  | .cvtE2m1F64 d a b rm sat => [encCV l 1#1 0x49#7 d a b (encRm rm) (ofBit sat) 0#1]
  | .cvtE2m1F32 d a b rm sat => [encCV l 1#1 0x4A#7 d a b (encRm rm) (ofBit sat) 0#1]
  | .cvtE2m1F16 d a b rm sat => [encCV l 1#1 0x4B#7 d a b (encRm rm) (ofBit sat) 0#1]
  | .cvtE2m1Bf16 d a b rm sat => [encCV l 1#1 0x4C#7 d a b (encRm rm) (ofBit sat) 0#1]
  | .cvtE8m0F32 d a b rm sat => [encCV l 1#1 0x4D#7 d a b (encRm rm) (ofBit sat) 0#1]
  | .cvtE3m5F32 d a b rm sat => [encCV l 1#1 0x4E#7 d a b (encRm rm) (ofBit sat) 0#1]
  | .cvtI32F64 d a b rm sat => [encCV l 1#1 0x4F#7 d a b (encRm rm) (ofBit sat) 0#1]
  | .cvtI32F32 d a b rm sat => [encCV l 1#1 0x50#7 d a b (encRm rm) (ofBit sat) 0#1]
  | .cvtI32I64 d a sat => [encCV l 1#1 0x51#7 d a 0#6 7#3 (ofBit sat) 0#1]
  | .cvtN32F64 d a b rm sat => [encCV l 1#1 0x52#7 d a b (encRm rm) (ofBit sat) 0#1]
  | .cvtN32F32 d a b rm sat => [encCV l 1#1 0x53#7 d a b (encRm rm) (ofBit sat) 0#1]
  | .cvtN32N64 d a sat => [encCV l 1#1 0x54#7 d a 0#6 7#3 (ofBit sat) 0#1]
  | .cvtI64F64 d a b rm sat => [encCV l 1#1 0x55#7 d a b (encRm rm) (ofBit sat) 0#1]
  | .cvtI64F32 d a b rm sat => [encCV l 1#1 0x56#7 d a b (encRm rm) (ofBit sat) 0#1]
  | .cvtI64I32 d a sat => [encCV l 1#1 0x57#7 d a 0#6 7#3 (ofBit sat) 0#1]
  | .cvtN64F64 d a b rm sat => [encCV l 1#1 0x58#7 d a b (encRm rm) (ofBit sat) 0#1]
  | .cvtN64F32 d a b rm sat => [encCV l 1#1 0x59#7 d a b (encRm rm) (ofBit sat) 0#1]
  | .cvtN64N32 d a sat => [encCV l 1#1 0x5A#7 d a 0#6 7#3 (ofBit sat) 0#1]
  | .cvtI8I32 d a sat => [encCV l 1#1 0x5B#7 d a 0#6 7#3 (ofBit sat) 0#1]
  | .cvtN8I32 d a sat => [encCV l 1#1 0x5C#7 d a 0#6 7#3 (ofBit sat) 0#1]
  | .cvtI16I32 d a sat => [encCV l 1#1 0x5D#7 d a 0#6 7#3 (ofBit sat) 0#1]
  | .cvtN16I32 d a sat => [encCV l 1#1 0x5E#7 d a 0#6 7#3 (ofBit sat) 0#1]
  | .cvtpE4m3 d a b rm sat h => [encCV l 1#1 0x70#7 d a b (encRm rm) (ofBit sat) (ofBit h)]
  | .cvtpE5m2 d a b rm sat h => [encCV l 1#1 0x71#7 d a b (encRm rm) (ofBit sat) (ofBit h)]
  | .cvtpE2m1Low d a b rm sat h => [encCV l 1#1 0x72#7 d a b (encRm rm) (ofBit sat) (ofBit h)]
  | .cvtpE2m1High d a b rm sat h => [encCV l 1#1 0x73#7 d a b (encRm rm) (ofBit sat) (ofBit h)]
  | .cvtpF16 d a b rm sat => [encCV l 1#1 0x74#7 d a b (encRm rm) (ofBit sat) 0#1]
  | .cvtpBf16 d a b rm sat => [encCV l 1#1 0x75#7 d a b (encRm rm) (ofBit sat) 0#1]
  | .ffma d a b c => [encF4 l 0#2 d a b c]
  | .dfma d a b c => [encF4 l 1#2 d a b c]
  | .imad d a b c => [encF4 l 2#2 d a b c]
  | .sel d a b c => [encF4 l 3#2 d a b c]

/-- The words of an instruction as a lone bundle (R62). -/
def encode (i : Instr) : List Word := encodeWords 1#1 i

end

end Sys2Proof
end

