-- ==== Sys2Proof/Machine/Mesh.lean ====
section
/-! DEFINITION. The mesh messages (R343 to R346): mailboxes, `nsend`, `nmcast`, `nrecv` and a message's
arrival. -/

namespace Sys2Proof.Machine

/-- The physical mesh position of a cluster (R2). -/
def meshX (cl : Nat) : Nat := 8 * (cl / 64 % 4) + cl % 8
/-- The physical mesh position of a cluster (R2). -/
def meshY (cl : Nat) : Nat := 8 * (cl / 256) + cl % 64 / 8
/-- The cluster at a mesh position (R2). -/
def meshCluster (x y : Nat) : Nat := 64 * (4 * (y / 8) + x / 8) + 8 * (y % 8) + x % 8

/-- The header of a message (R343). -/
def mailHeader (core : Nat) (multicast : Bool) : Word :=
  let cl := clusterOf core
  BitVec.ofNat 32 (meshX cl + 256 * meshY cl + 65536 * (core % 8) + (if multicast then 2 ^ 31 else 0))

/-- A cluster with a live core: its island has left reset, and it is not fenced (R343, R357). -/
def State.liveCluster (s : State) (cl : Nat) : Bool := (s.cluster cl).live && !s.fenced.contains cl

/-- The messages on their way to a core that its mailbox can take arrive, in order, and Chime it (R343, R345);
at a cluster with no live core they are discarded. The number bounds them. -/
def State.takeMail (s : State) (c : Nat) : Nat → State
  | 0 => s
  | n + 1 =>
    match (s.core c).inbound with
    | [] => s
    | m :: rest =>
      if !s.liveCluster (clusterOf c) then s.modCore c fun k => { k with inbound := [] }
      else if 16 ≤ (s.core c).mail.length then s
      else ((s.modCore c fun k => { k with mail := k.mail ++ [m.2], inbound := rest }).chime (.mailbox c)).takeMail c n

/-- A message is on its way to a core (R344). -/
def State.sendTo (s : State) (c key : Nat) (header : Word) (bytes : List Byte) : State :=
  (s.modCore c fun k => { k with inbound := k.inbound ++ [(key, header, bytes)] }).takeMail c 17

/-- Some message of a context has not been taken yet (R344, R346). -/
def State.mailPending (s : State) (key : Nat) : Bool := s.cores.any fun c => c.2.inbound.any fun m => m.1 == key

/-- A message reaches a core's mailbox (R343). -/
def execMessageArrival (core : Nat) (s : State) : Host.Outcome State Fault Refusal := .next (s.takeMail core 17)

/-- Send copies of a message and wait until every one has been taken or discarded (R344, R346). -/
def State.sendAll (s : State) (sh : Shape) (targets : List Nat) (header : Word) (bytes : List Byte) : State :=
  let key := s.t.ckey
  let s := targets.foldl (fun s c => s.sendTo c key header bytes) s
  if s.mailPending key then (s.keep sh { kind := .sent }).again else s.fin sh

/-- A message that waits for a full mailbox is evaluated anew: it completes once it has been taken (R344). -/
def State.awaitSent (s : State) : State := if s.mailPending s.t.ckey then s.again else s.unkeep

/-- The shape of `nsend` and `nmcast`. -/
def shSend (a b : RegNo) : Shape := { a := .g a, b := .g b, sup := true, det := true }

/-- A send whose header register is in order (R344, R346). -/
def State.sendFrom (s : State) (a b : RegNo) (ok : Nat → Bool) (targets : Nat → List Nat) (multicast : Bool) :
    Host.Outcome State Fault Refusal :=
  match s.t.kept with
  | some { kind := .sent, .. } => s.within (recorded (shSend a b)) fun _ s => s.awaitSent
  | _ => s.within (shSend a b) fun v s =>
    let t := (gOf v.a).toNat
    if !ok t then s.ill
    else (s.loadScratch .interleave (gOf v.b).toNat 64).run fun bytes s =>
      (s.release s.t.core .package).sendAll (shSend a b) (targets t) (mailHeader s.t.core multicast) bytes

/-- The core that G(A) of an `nsend` names (R344). -/
def sendTarget (t : Nat) : Nat := 8 * meshCluster (t % 32) (t / 256 % 16) + t / 65536 % 8

/-- The reserved bits of G(A) of an `nsend` are 0 (R344). -/
def sendOk (t : Nat) : Bool := t / 32 % 8 == 0 && t / 4096 % 16 == 0 && t / 524288 == 0

/-- `nsend` (R344). -/
def execNsend (a b : RegNo) (s : State) : Host.Outcome State Fault Refusal :=
  s.sendFrom a b sendOk (fun t => [sendTarget t]) false

/-- The rectangle of an `nmcast` is in order (R346). -/
def mcastOk (t : Nat) : Bool :=
  t / 2 ^ 21 == 0 && decide (t % 32 ≤ t / 32 % 32) && decide (t / 1024 % 16 ≤ t / 16384 % 16)

/-- The cores that an `nmcast` names (R346). -/
def mcastTargets (t : Nat) : List Nat :=
  let x0 := t % 32
  let y0 := t / 1024 % 16
  (List.range (t / 16384 % 16 + 1 - y0)).flatMap fun j =>
    (List.range (t / 32 % 32 + 1 - x0)).map fun i => 8 * meshCluster (x0 + i) (y0 + j) + t / 262144 % 8

/-- `nmcast` (R346). -/
def execNmcast (a b : RegNo) (s : State) : Host.Outcome State Fault Refusal :=
  s.sendFrom a b mcastOk mcastTargets true

/-- `nrecv` (R345). -/
def execNrecv (d a : RegNo) (s : State) : Host.Outcome State Fault Refusal :=
  let sh : Shape := { a := .g a, dst := .g d, sup := true, det := true }
  s.within sh fun v s =>
    let c := s.t.core
    (s.scratchCheck .interleave (gOf v.a).toNat 64 .write).run fun as s =>
      match (s.core c).mail with
      | [] => s.park 8 (.mailbox c)
      | m :: rest =>
        let s := s.modCore c fun k => { k with mail := rest }
        let s := (s.modInst (clusterOf c) s.t.lid fun i => i.write as m.2).takeMail c 17
        (s.acquire c .package).put sh [m.1] noFlags

end Sys2Proof.Machine
end

