-- ==== Sys2Proof/Machine/Boot.lean ====
section
/-! DEFINITION. The boot of the package (R360 to R366): the primary's program as `mumas` assembles it into the boot
ROM (R87, R90), and what a receiver does with the messages that it takes (R363). -/

namespace Sys2Proof.Machine

-- The program is built of instructions (see Decode).
noncomputable section

/-- The labels of the primary's program (R363). -/
inductive BootLabel where
  | disc | numb | nloop | nself | nnext | iloop | csum | done | dok | fin | xy2p
  deriving DecidableEq, Repr

/-- A line of the primary's program: a label, an instruction, or one whose offset is that of a label. -/
inductive BootLine where
  | at (l : BootLabel)
  | op (i : Instr)
  | bz (a : RegNo) (l : BootLabel)
  | bnz (a : RegNo) (l : BootLabel)
  | beq (a b : RegNo) (l : BootLabel)
  | bne (a b : RegNo) (l : BootLabel)
  | call (l : BootLabel)

/-- A target as an offset from its word, in words (R86, R117). -/
def offsetTo (n from' target : Nat) : BitVec n := BitVec.ofInt n (((target : Int) - from') / 4)

/-- The instruction of a line at an address. -/
def BootLine.instr (find : BootLabel → Nat) (a : Nat) : BootLine → Option Instr
  | .at _ => none
  | .op i => some i
  | .bz r l => some (.bz r (offsetTo 17 a (find l)))
  | .bnz r l => some (.bnz r (offsetTo 17 a (find l)))
  | .beq r q l => some (.beq r q (offsetTo 11 a (find l)))
  | .bne r q l => some (.bne r q (offsetTo 11 a (find l)))
  | .call l => some (.call (offsetTo 23 a (find l)))

/-- The bytes of a line. -/
def BootLine.size : BootLine → Nat
  | .at _ => 0
  | .op i => 4 * (encode i).length
  | _ => 4

/-- The address of a line that would fall at an address: a LONG form stands at a multiple of 8 (R64, R87). -/
def BootLine.start (x : BootLine) (a : Nat) : Nat := if x.size = 8 ∧ a % 8 = 4 then a + 4 else a

/-- The address of the first instruction of some lines, which is that of a label before it (R87). -/
def startOf : List BootLine → Nat → Nat
  | [], a => a
  | .at _ :: rest, a => startOf rest a
  | x :: _, a => x.start a

/-- The addresses of the labels. -/
def labelsOf : List BootLine → Nat → List (BootLabel × Nat)
  | [], _ => []
  | .at l :: rest, a => (l, startOf rest a) :: labelsOf rest a
  | x :: rest, a => labelsOf rest (x.start a + x.size)

/-- `nop`, a lone `add g0, g0, g0` (R87). -/
def nopWord : Word := 0xC0000000#32

/-- The words of some lines, with a `nop` before a LONG form that needs one (R87). -/
def wordsFrom (find : BootLabel → Nat) : List BootLine → Nat → List Word
  | [], _ => []
  | x :: rest, a =>
    let b := x.start a
    (if b = a then [] else [nopWord]) ++ ((x.instr find b).map encode).getD [] ++ wordsFrom find rest (b + x.size)

/-- The image base, at which the boot ROM's text stands (R90, R360). -/
def imageBase : Nat := 0x100000000

/-- Assemble a program at the image base (R87, R90). -/
def assemble (lines : List BootLine) : List Word :=
  let labels := labelsOf lines imageBase
  wordsFrom (fun l => ((labels.find? fun p => p.1 == l).map Prod.snd).getD 0) lines imageBase

/-- The word of an `nmcast` for core 0 of the clusters of a rectangle (R346). -/
def rectWord (x0 x1 y0 y1 : Nat) : Word := BitVec.ofNat 32 (x0 + 32 * x1 + 1024 * y0 + 16384 * y1)

/-- The rectangles of the primary's multicasts: none holds it, and one without clusters is omitted (R360, R363). -/
def bootRects (p0 : Nat) : List Word :=
  if p0 = 0 then [rectWord 1 31 0 15, rectWord 0 0 1 15]
  else
    let x := meshX p0
    let y := meshY p0
    (if y = 0 then [] else [rectWord 0 31 0 (y - 1)]) ++ (if y = 15 then [] else [rectWord 0 31 (y + 1) 15]) ++
      (if x = 0 then [] else [rectWord 0 (x - 1) y y]) ++ (if x = 31 then [] else [rectWord (x + 1) 31 y y])

/-- The registers of the rectangles: g12 and g13 in the listing, and two more that it leaves free (assumption 55). -/
def rectRegs : List RegNo := [12#6, 13#6, 27#6, 28#6]

/-- Multicast the message at a register's address over every rectangle. -/
def castLines (p0 : Nat) (b : RegNo) : List BootLine :=
  ((bootRects p0).zip rectRegs).map fun r => .op (.nmcast r.2 b)

/-- The primary's program, the boot ROM's form for the primary's cluster p0: the listing of R363 for p0 = 0, with the
differences of R360 otherwise, whose instructions are the model's choice (assumption 55). -/
def bootProgram (p0 : Nat) : List BootLine :=
  let phys : Word := 0x4000#32
  let map : Word := 0x4800#32
  let arr : Word := 0x4C00#32
  [.op (.addi 21#6 0#6 1#11), .op (.li 10#6 0x5000#32), .op (.st32 21#6 10#6 .interleave 0#9)] ++
  ((bootRects p0).zip rectRegs).map (fun r => .op (.li r.2 r.1)) ++
  castLines p0 10#6 ++
  [.op (.li 14#6 phys)] ++
  (if p0 = 0 then [.op (.st32 21#6 14#6 .interleave 0#9)]
    else [.op (.li 5#6 (BitVec.ofNat 32 (meshX p0 + 256 * meshY p0 + 1))),
      .op (.li 7#6 (phys + BitVec.ofNat 32 (4 * p0))), .op (.st32 5#6 7#6 .interleave 0#9)]) ++
  [.op (.li 11#6 0x5040#32), .op (.addi 15#6 4#6 0x7FF#11), .bz 15#6 .numb,
   .at .disc, .op (.nrecv 5#6 11#6), .call .xy2p, .op (.shli 7#6 6#6 2#5), .op (.add 7#6 7#6 14#6),
   .op (.addi 5#6 5#6 1#11), .op (.st32 5#6 7#6 .interleave 0#9), .op (.addi 15#6 15#6 0x7FF#11), .bnz 15#6 .disc,
   .at .numb, .op (.or 16#6 0#6 0#6), .op (.or 17#6 0#6 0#6), .op (.li 18#6 map), .op (.li 19#6 arr),
   .op (.addi 22#6 0#6 2#11), .op (.st32 22#6 10#6 .interleave 0#9), .op (.addi 23#6 0#6 512#11)] ++
  (if p0 = 0 then [] else [.op (.addi 29#6 0#6 (BitVec.ofNat 11 p0))]) ++
  [.at .nloop, .op (.shli 7#6 16#6 2#5), .op (.add 7#6 7#6 14#6), .op (.ld32 5#6 7#6 .interleave 0#9), .bz 5#6 .nnext,
   .op (.shli 7#6 17#6 1#5), .op (.add 7#6 7#6 18#6), .op (.st16 16#6 7#6 .interleave 0#9), .op (.add 7#6 16#6 19#6),
   .op (.st8 21#6 7#6 .interleave 0#9), if p0 = 0 then .bz 16#6 .nself else .beq 16#6 29#6 .nself,
   .op (.st32 17#6 10#6 .interleave 1#9), .op (.addi 5#6 5#6 0x7FF#11), .op (.nsend 5#6 10#6),
   .at .nself, .op (.addi 17#6 17#6 1#11),
   .at .nnext, .op (.addi 16#6 16#6 1#11), .bne 16#6 23#6 .nloop,
   .op (.li 24#6 0x4E00#32), .op (.st32 17#6 24#6 .interleave 0#9), .op (.or 16#6 0#6 0#6), .op (.li 23#6 0x4000#32),
   .at .iloop] ++ castLines p0 16#6 ++
  [.op (.addi 16#6 16#6 64#11), .bne 16#6 23#6 .iloop, .op (.or 16#6 0#6 0#6), .op (.or 25#6 0#6 0#6),
   .at .csum, .op (.ld32 5#6 16#6 .interleave 0#9), .op (.add 25#6 25#6 5#6), .op (.addi 16#6 16#6 4#11),
   .bne 16#6 23#6 .csum, .op (.st32 25#6 24#6 .interleave 1#9)] ++
  (if p0 = 0 then [.op (.st8 22#6 19#6 .interleave 0#9)]
    else [.op (.add 7#6 29#6 19#6), .op (.st8 22#6 7#6 .interleave 0#9)]) ++
  [.op (.or 26#6 0#6 0#6), .op (.addi 15#6 17#6 0x7FF#11), .bz 15#6 .fin,
   .at .done, .op (.nrecv 5#6 11#6), .call .xy2p, .op (.ld32 7#6 11#6 .interleave 1#9), .op (.add 8#6 6#6 19#6),
   .op (.addi 9#6 0#6 2#11), .beq 7#6 25#6 .dok, .op (.addi 9#6 0#6 3#11), .op (.addi 26#6 26#6 1#11),
   .at .dok, .op (.st8 9#6 8#6 .interleave 0#9), .op (.addi 15#6 15#6 0x7FF#11), .bnz 15#6 .done,
   .at .fin, .op (.st32 26#6 24#6 .interleave 2#9), .op .exit,
   .at .xy2p, .op (.andi 6#6 5#6 31#11), .op (.shri 7#6 5#6 8#5), .op (.andi 7#6 7#6 15#11), .op (.shri 8#6 6#6 3#5),
   .op (.shri 9#6 7#6 3#5), .op (.shli 9#6 9#6 2#5), .op (.add 8#6 8#6 9#6), .op (.shli 8#6 8#6 6#5),
   .op (.andi 7#6 7#6 7#11), .op (.shli 7#6 7#6 3#5), .op (.andi 6#6 6#6 7#11), .op (.add 6#6 6#6 7#6),
   .op (.add 6#6 6#6 8#6), .op .ret]

/-- The cluster of the primary: the live one with the lowest package index (R360). -/
def State.primary (s : State) : Nat := ((List.range 512).find? fun p => !s.fenced.contains p).getD 0

/-- A byte of the boot ROM (R360): of the primary's program, and free elsewhere (assumption 11). -/
def bootByte (p0 a : Nat) : Byte :=
  match (assemble (bootProgram p0))[(a - imageBase) / 4]? with
  | some w => if a < imageBase then Config.romByte a else BitVec.ofNat 8 (w.toNat / 2 ^ (8 * (a % 4)))
  | none => Config.romByte a

/-- The words of a receiver, in their order from interleave address 0x4000 (R363). -/
inductive RecvWord where
  | state | lix | chunks | csum | errs
  deriving DecidableEq, Repr

/-- The interleave address of a receiver's word (R363). -/
def RecvWord.addr : RecvWord → Nat
  | .state => 0x4000
  | .lix => 0x4004
  | .chunks => 0x4008
  | .csum => 0x400C
  | .errs => 0x4010

/-- A word of the receiver in execution (R363). -/
def State.recvWord (s : State) (w : RecvWord) : Nat := leNat (cellReadN (s.inst (clusterOf s.t.core) s.t.lid).data w.addr 4)

/-- Write bytes of the instance of the receiver in execution. -/
def State.recvWrite (s : State) (a : Nat) (bytes : List Byte) : State :=
  s.modInst (clusterOf s.t.core) s.t.lid fun i => { i with data := cellWriteN i.data a bytes }

/-- Set a word of the receiver in execution. -/
def State.recvSet (s : State) (w : RecvWord) (v : Nat) : State := s.recvWrite w.addr (leBytes 4 v)

/-- The receiver answers the sender of a message: the target word is the message's header with bit 31 cleared (R363). -/
def State.recvReply (s : State) (header : Word) (bytes : List Byte) : State :=
  (s.release s.t.core .package).sendAll {} [sendTarget (header.toNat % 2 ^ 31)] (mailHeader s.t.core false)
    (bytes ++ List.replicate (64 - bytes.length) 0#8)

/-- The sum of the words of a payload (R362). -/
def payloadSum (bytes : List Byte) : Nat := ((List.range 16).map fun i => field bytes (4 * i) 4).sum

/-- What a receiver does with a message that it has taken (R362, R363). -/
def State.recvAct (s : State) (header : Word) (bytes : List Byte) : State :=
  let kind := field bytes 0 1
  match s.recvWord .state, header.getLsbD 31 with
  | 0, true =>
    if kind = 1 then (s.recvSet .state 1).recvReply header (leBytes 1 3) else s.recvSet .errs (s.recvWord .errs + 1)
  | 1, false =>
    if kind = 2 then (s.recvSet .lix (field bytes 4 4)).recvSet .state 2 else s.recvSet .errs (s.recvWord .errs + 1)
  | 2, true =>
    let n := s.recvWord .chunks
    let sum := (s.recvWord .csum + payloadSum bytes) % 2 ^ 32
    let s := ((s.recvWrite (64 * n) bytes).recvSet .csum sum).recvSet .chunks (n + 1)
    if n + 1 < 256 then s
    else (s.recvSet .state 3).recvReply header (leBytes 4 4 ++ leBytes 4 sum ++ leBytes 4 (n + 1))
  | _, _ => s.recvSet .errs (s.recvWord .errs + 1)

/-- A receiver's turn: it waits for its answer to be taken, or takes a message as `nrecv` does, or waits for one (R345,
R363). Its program is given by that table alone: one message is one turn (assumption 55). -/
def State.recvTurn (s : State) : State :=
  let c := s.t.core
  if s.t.kept.isSome then s.awaitSent
  else match (s.core c).mail with
    | [] => s.park 8 (.mailbox c)
    | m :: rest =>
      let s := (s.modCore c fun k => { k with mail := rest }).takeMail c 17
      (s.acquire c .package).recvAct m.1 m.2

end

end Sys2Proof.Machine
end

