-- ==== Sys2Proof/Machine/Matrix.lean ====
section
/-! DEFINITION. The matrix engine (R238 to R249): accumulators and their pending roots, leaves and chunk
roots, the instructions that issue matrix jobs, and the jobs. -/

namespace Sys2Proof.Machine

/-- Carry (R243), on the pending roots from the newest to the oldest. -/
def carryRev {α : Type} (f : α → α → α) : List (Node × α) → Node × α → List (Node × α)
  | [], x => [x]
  | r :: rs, x =>
    if x.1.j % 2 = 1 ∧ r.1 = { l := x.1.l, j := x.1.j - 1 } then
      carryRev f rs ({ l := x.1.l + 1, j := (x.1.j - 1) / 2 }, f r.2 x.2)
    else x :: r :: rs

/-- Carry on roots from the oldest to the newest. -/
def carry {α : Type} (f : α → α → α) (roots : List (Node × α)) (x : Node × α) : List (Node × α) :=
  (carryRev f roots.reverse x).reverse

/-- Carry on the roots' labels alone. -/
def carryLabels (labels : List Node) (x : Node) : List Node :=
  (carry (fun (_ _ : Unit) => ()) (labels.map fun n => (n, ())) (x, ())).map Prod.fst

/-- The least aligned complete subtree levels that fit: the largest l with 2^l dividing s and s + 2^l ≤ cnt. -/
def fitLevel (s cnt : Nat) : Nat :=
  ((List.range 64).filter fun l => s % 2 ^ l == 0 && decide (s + 2 ^ l ≤ cnt)).getLast?.getD 0

/-- The decomposition of [s, cnt) (R58), oldest first; the number bounds its nodes. -/
def decompose : Nat → Nat → Nat → List Node
  | 0, _, _ => []
  | n + 1, s, cnt =>
    if cnt ≤ s then []
    else
      let l := fitLevel s cnt
      { l := l, j := s / 2 ^ l } :: decompose n (s + 2 ^ l) cnt

/-- The accumulation format of a form (R240). -/
def accFmt (form : Nat) : Fmt := if form = 0 then .f64 else .f32

/-- Roots that an accumulator holds (R238). -/
def slotsOf (form : Nat) : Nat := if form = 0 then 6 else 12

/-- L: leaves of a chunk (R240). -/
def leavesOf (form : Nat) : Nat :=
  match form with
  | 0 => 4
  | 1 => 16
  | 2 | 3 => 64
  | 4 | 5 => 128
  | 6 => 4
  | _ => 32

/-- Kc: K elements of a chunk (R240). -/
def depthOf (form : Nat) : Nat :=
  match form with
  | 0 => 4
  | 1 => 16
  | 2 | 3 => 64
  | 4 | 5 | 6 => 128
  | _ => 256

/-- RBY: bytes of an operand row (R240). -/
def rowBytes (form : Nat) : Nat :=
  match form with
  | 0 => 32
  | 1 => 64
  | _ => 128

/-- SBY: scale bytes of a row (R240). -/
def scaleBytes (form : Nat) : Nat := if form = 6 then 4 else if form = 7 then 32 else 0

/-- AE or BE, and the form, give the elements' format (R240). -/
def elemFmt (form : Nat) (e : Bool) : Fmt :=
  match form with
  | 0 => .f64
  | 1 => .f32
  | 2 => .bf16
  | 3 => .f16
  | 4 => .e4m3
  | 5 => .e5m2
  | 6 => if e then .e5m2 else .e4m3
  | _ => .e2m1

/-- The k-th element of a row (R53, R242). -/
def elemAt (f : Fmt) (row : List Byte) (k : Nat) : Val :=
  if f = .e2m1 then valueOf f (field row (k / 2) 1 / 2 ^ (4 * (k % 2)) % 16)
  else valueOf f (field row (k * (f.width / 8)) (f.width / 8))

/-- The exact product of two values; 0 × ∞ is NaN (R241). -/
def Val.times : Val → Val → Val
  | .nan _, _ => .nan false
  | _, .nan _ => .nan false
  | .inf s, .inf t => .inf (s != t)
  | .inf s, .fin t n _ => if n = 0 then .nan false else .inf (s != t)
  | .fin s n _, .inf t => if n = 0 then .nan false else .inf (s != t)
  | .fin s n d, .fin t m e => .fin (s != t) (n * m) (d * e)

/-- The leaf of a block (R241): the exact sum of its terms, rounded once. -/
def blockLeaf (ts : List Val) : Val :=
  if ts.any Val.isNaN then .nan false
  else
    let infs := ts.filter Val.isInf
    match infs with
    | x :: _ => if infs.any fun y => y.isNeg != x.isNeg then .nan false else x
    | [] =>
      let sum := ts.foldl Val.plus (.fin false 0 1)
      if sum.isZero then .fin (ts.all fun t => t.isZero && t.isNeg) 0 1
      else valueOf .f32 (roundTo .f32 .rne false 0 sum).1

/-- What an `mma` reads for its rows: rows of A and of Bt with their scales (R242). -/
structure Chunk where
  a : List (List Byte)
  b : List (List Byte)
  sa : List (List Byte)
  sb : List (List Byte)

/-- One leaf of output (i, j): element product or block, by its number within the chunk (R241). -/
def Chunk.leaf (c : Chunk) (form : Nat) (ae be : Bool) (i j n : Nat) : Val :=
  let row := fun (l : List (List Byte)) i => (l.drop i).headD []
  let prod := fun k => (elemAt (elemFmt form ae) (row c.a i) k).times (elemAt (elemFmt form be) (row c.b j) k)
  let scale := fun f => (valueOf f (field (row c.sa i) n 1)).times (valueOf f (field (row c.sb j) n 1))
  match form with
  | 0 => valueOf .f64 (roundTo .f64 .rne false 0 (prod n)).1
  | 1 => valueOf .f32 (roundTo .f32 .rne false 0 (prod n)).1
  | 6 => blockLeaf ((List.range 32).map fun k => (prod (32 * n + k)).times (scale .e8m0))
  | 7 => blockLeaf ((List.range 8).map fun k => (prod (8 * n + k)).times (scale .e3m5))
  | _ => prod n

/-- K elements of a leaf. -/
def perLeaf (form : Nat) : Nat := depthOf form / leavesOf form

/-- The chunk root of output (i, j) (R241): TreeCombine over the leaves, those at or beyond KV absent. A single leaf has
met no other one and is not rounded yet. -/
def Chunk.root (c : Chunk) (form kv : Nat) (ae be : Bool) (i j : Nat) : Val :=
  let f := accFmt form
  let leaves := (List.range (leavesOf form)).map fun n =>
    if n * perLeaf form < kv then some (c.leaf form ae be i j n) else none
  (treeRoot (fun x y => valueOf f (addVal f .rne x y).1) leaves).getD (.fin false 0 1)

/-- The outputs of a tile in row-major order. -/
def tileOf {α : Type} (f : Nat → Nat → α) : List α := (List.range 4096).map fun k => f (k / 64) (k % 64)

/-- TreeCombine of two tiles (R16). -/
def combineTiles (f : Fmt) (a b : List Nat) : List Nat := (a.zip b).map fun p => treeAdd f p.1 p.2

/-- An encoding with the canonical NaN for every NaN (R42). -/
def canonNaN (f : Fmt) (b : Nat) : Nat := if (valueOf f b).isNaN then f.canonicalNaN else b

/-- Change an accumulator. -/
def State.modAcc (s : State) (cl a : Nat) (f : Acc → Acc) : State :=
  s.modCluster cl fun k => match aget a k.accs with
    | some e => { k with accs := aset a (f e) k.accs }
    | none => k

/-- An accumulator. -/
def State.acc? (s : State) (cl a : Nat) : Option Acc := aget a (s.cluster cl).accs

/-- Park on a job of the current thread's launch (R220, R246). -/
def State.parkJob (s : State) (n : Word) : State := s.park 2 (.job (clusterOf s.t.core) s.t.lid n)

/-- The formed group of the current thread, none outside a group. -/
def State.ownGroup (s : State) : Option Nat := if s.t.gsize = 0#32 then none else s.t.gid

/-- The ownership check and the wait for an `mx.ld` that every matrix instruction but `mx.cfg` begins with
(R243). -/
def State.onAcc (s : State) (a : Nat) (f : Acc → State) : State :=
  let cl := clusterOf s.t.core
  match s.ownGroup, s.acc? cl a with
  | some gid, some e =>
    if e.owner ≠ some gid then s.ill
    else match (s.cluster cl).jobs.find? fun j => j.onAcc a && j.kind == .mxLd with
      | some j => s.parkJob j.n
      | none => f e
  | _, _ => s.ill

/-- A config word that R239 accepts. -/
def cfgOk (w : Word) : Bool := wbits w 7 5 == 0 && (wbits w 2 0 == 6 || wbits w 4 3 == 0)

/-- An accumulator as a config word makes it (R239). -/
def accOf (gid : Nat) (w : Word) : Acc :=
  let base := wbits w 31 13 * 2 ^ wbits w 12 8
  { owner := some gid, cfg := w, form := wbits w 2 0, base := base, cnt := base, vcnt := base }

/-- FORM, AE, BE and BASE equal those of a config word (R239). -/
def Acc.same (e : Acc) (w : Word) : Bool :=
  e.form == wbits w 2 0 && wbits e.cfg 4 3 == wbits w 4 3 && e.base == wbits w 31 13 * 2 ^ wbits w 12 8

/-- `mx.cfg` (R239). -/
def execMxCfg (d a : RegNo) (s : State) : Host.Outcome State Fault Refusal :=
  let sh : Shape := { a := .g a, det := true }
  s.within sh fun v s =>
    let cl := clusterOf s.t.core
    let n := d.toNat
    let w := gOf v.a
    match s.ownGroup with
    | none => s.ill
    | some gid =>
      let own := fun (s : State) => (s.modCluster cl fun k => { k with accs := aset n (accOf gid w) k.accs }).fin sh
      if w = 0xFFFFFFFF#32 then
        match s.acc? cl n with
        | some e =>
          if e.owner ≠ some gid then s.ill
          else match s.accJob cl n with
            | some j => s.parkJob j.n
            | none => (s.freeAcc cl n).fin sh
        | none => s.ill
      else if !cfgOk w then s.ill
      else match s.acc? cl n with
        | none => own s
        | some e =>
          if e.owner ≠ some gid then s.park 4 (.acc cl (BitVec.ofNat 2 n))
          else match s.accJob cl n with
            | some j => if e.same w && j.kind != .mxLd then s.fin sh else s.parkJob j.n
            | none => if e.same w then s.fin sh else own s

/-- Issue a matrix job (R221, R243): the issue-side state of its accumulator changes with it. -/
def State.issueMx (s : State) (kind : JobKind) (a : Nat) (f : Acc → Acc) (g : Job → Job) : Word × State :=
  let (n, s) := s.nextJob
  let j := s.newJob kind n
  (n, (s.enqueue (g { j with acc := a })).modAcc (clusterOf s.t.core) a f)

/-- `mx.zero` (R244). -/
def execMxZero (d : RegNo) (s : State) : Host.Outcome State Fault Refusal :=
  s.within { det := true } fun _ s => s.onAcc d.toNat fun _ =>
    if s.queueFull then s.park 2 (.engineQueue (clusterOf s.t.core))
    else (s.issueMx .mxZero d.toNat (fun e => { e with cnt := e.base, labels := [], closed := false }) id).2

/-- The read intervals of an `mma` descriptor (R242). -/
def mmaReads (form cix : Nat) (desc : List Byte) : List Interval :=
  let f := fun o n => field desc o n
  let rows := fun (ao so n : Nat) =>
    ({ sp := 2, cix := cix, lo := (f ao 4 : Int), hi := (f ao 4 + 63 * f so 2 + n : Nat) } : Interval)
  [rows 0 16 (rowBytes form), rows 4 18 (rowBytes form)] ++
    (if scaleBytes form = 0 then [] else [rows 8 20 (scaleBytes form), rows 12 22 (scaleBytes form)])

/-- The valid K elements of a chunk (R242). -/
def kvOf (form : Nat) (desc : List Byte) : Nat := if field desc 24 2 = 0 then depthOf form else field desc 24 2

/-- The descriptor checks of `mma` (R242, R243); of several misaligned fields the first of the descriptor is named
(assumption 60). -/
def State.mmaVerdict (s : State) (form : Nat) (desc : List Byte) : Verdict :=
  let f := fun o n => field desc o n
  let kvUnit := if form = 6 then 32 else if form = 7 then 8 else 1
  if f 26 38 ≠ 0 ∨ (scaleBytes form = 0 ∧ (f 8 8 ≠ 0 ∨ f 20 4 ≠ 0)) ∨ depthOf form < f 24 2 ∨ f 24 2 % kvUnit ≠ 0 then
    some s.illWord
  else
    let fields := [(f 0 4, 32), (f 4 4, 32), (f 8 4, 4), (f 12 4, 4), (f 16 2, 32), (f 18 2, 32), (f 20 2, 4), (f 22 2, 4)]
    match fields.find? fun p => p.1 % p.2 != 0 with
    | some p => some (0x03, BitVec.ofNat 64 p.1)
    | none => ((mmaReads form (s.t.core % 8) desc).findSome? (c4 s.scratchBytes)).map fun v => (0x05, v)

/-- TREE, with CNT as its value (R243). -/
def State.tree (s : State) (e : Acc) : State := s.raise 0x09 (BitVec.ofNat 64 e.cnt) none

/-- `mma` in each of its forms (R243). -/
def State.mma (s : State) (form : Nat) (d a b : RegNo) : Host.Outcome State Fault Refusal :=
  let sh : Shape := { a := .g a, b := .g b, det := true }
  s.within sh fun v s => s.onAcc d.toNat fun e =>
    if form ≠ e.form then s.ill
    else (s.loadScratch .interleave (gOf v.a).toNat 64).run fun desc s =>
      match s.mmaVerdict form desc with
      | some (cause, val) => s.raise cause val none
      | none =>
        let q := (gOf v.b).toNat
        let start := q * leavesOf form
        let labels := carryLabels e.labels { l := Nat.log2 (leavesOf form), j := q }
        if e.closed ∨ start ≠ e.cnt ∨ slotsOf form < labels.length then s.tree e
        else if s.queueFull then s.park 2 (.engineQueue (clusterOf s.t.core))
        else
          let kv := kvOf form desc
          let change := fun (e : Acc) =>
            { e with cnt := start + leavesOf form, labels := labels, closed := decide (kv < depthOf form) }
          (s.issueMx (.mma form) d.toNat change fun j =>
            { j with q := q, kv := kv, desc := desc, reads := mmaReads form (s.t.core % 8) desc }).2.fin sh

/-- `mma.f64` (R243). -/
def execMmaF64 (d a b : RegNo) (s : State) : Host.Outcome State Fault Refusal := s.mma 0 d a b

/-- `mma.f32` (R243). -/
def execMmaF32 (d a b : RegNo) (s : State) : Host.Outcome State Fault Refusal := s.mma 1 d a b

/-- `mma.bf16` (R243). -/
def execMmaBf16 (d a b : RegNo) (s : State) : Host.Outcome State Fault Refusal := s.mma 2 d a b

/-- `mma.f16` (R243). -/
def execMmaF16 (d a b : RegNo) (s : State) : Host.Outcome State Fault Refusal := s.mma 3 d a b

/-- `mma.e4m3` (R243). -/
def execMmaE4m3 (d a b : RegNo) (s : State) : Host.Outcome State Fault Refusal := s.mma 4 d a b

/-- `mma.e5m2` (R243). -/
def execMmaE5m2 (d a b : RegNo) (s : State) : Host.Outcome State Fault Refusal := s.mma 5 d a b

/-- `mma.mx8` (R243). -/
def execMmaMx8 (d a b : RegNo) (s : State) : Host.Outcome State Fault Refusal := s.mma 6 d a b

/-- `mma.e2m1` (R243). -/
def execMmaE2m1 (d a b : RegNo) (s : State) : Host.Outcome State Fault Refusal := s.mma 7 d a b

/-- The bytes of a tile in the accumulation format (R245). -/
def tileBytes (form : Nat) : Nat := if form = 0 then 32768 else 16384

/-- `mx.merge` (R245). -/
def execMxMerge (d a b : RegNo) (s : State) : Host.Outcome State Fault Refusal :=
  let sh : Shape := { a := .g a, b := .g b, det := true }
  s.within sh fun v s => s.onAcc d.toNat fun e =>
    let w := gOf v.b
    let addr := (gOf v.a).toNat
    let l := wbits w 4 0
    let j := wbits w 31 8
    let stop := addr + tileBytes e.form
    if wbits w 7 6 ≠ 0 then s.ill
    else if addr % 64 ≠ 0 then s.raise 0x03 (BitVec.ofNat 64 addr) none
    else if s.scratchBytes < stop then s.raise 0x05 (BitVec.ofNat 64 stop) none
    else
      let labels := carryLabels e.labels { l := l, j := j }
      if e.closed ∨ j * 2 ^ l ≠ e.cnt ∨ slotsOf e.form < labels.length then s.tree e
      else if s.queueFull then s.park 2 (.engineQueue (clusterOf s.t.core))
      else
        let change := fun (e : Acc) =>
          { e with cnt := (j + 1) * 2 ^ l, labels := labels, closed := w.getLsbD 5 }
        (s.issueMx .mxMerge d.toNat change fun x =>
          { x with
            q := l, kv := j, trail := w.getLsbD 5, ctl := gOf v.a
            reads := [{ sp := 2, cix := s.t.core % 8, lo := addr, hi := stop }] }).2.fin sh

/-- The format of an OFMT or CFMT code (R246). -/
def outFmt (code : Nat) : Fmt :=
  match code with
  | 0 => .f32
  | 1 => .f64
  | 2 => .f16
  | 3 => .bf16
  | 4 => .e4m3
  | _ => .e5m2

/-- Bytes of an accumulator image (R247). -/
def imageBytes : Nat := 196672

/-- The intervals of a store: the destination, and C where it is read (R246). -/
def stIntervals (w : Word) (desc : List Byte) (cix : Nat) : Interval × List Interval :=
  let f := fun o n => field desc o n
  let stride := fun o => (BitVec.ofNat 32 (f o 4)).toInt
  let dst := f 0 8
  if wbits w 1 0 = 2 then ({ sp := 0, cix := cix, lo := dst, hi := dst + imageBytes }, [])
  else
    (spanOf (f 28 1 % 4) cix dst (stride 16) 64 (64 * ((outFmt (wbits w 4 2)).width / 8)),
      if w.getLsbD 9 then
        [spanOf (f 28 1 / 4 % 4) cix (f 8 8) (stride 20) 64 (64 * ((outFmt (wbits w 11 10)).width / 8))]
      else [])

/-- The first check of `mx.st`, on its control word (R246). -/
def stWordOk (w : Word) : Bool :=
  wbits w 31 13 == 0 && (decide (wbits w 7 5 < 4) || wbits w 7 5 == 7) && decide (wbits w 4 2 < 6) && wbits w 1 0 != 3

/-- The checks of `mx.st` on its descriptor, in their order (R246); within SCRB and within ADDR the destination's interval
comes before C's (assumption 60). -/
def State.stVerdict (s : State) (e : Acc) (w : Word) (desc : List Byte) : Verdict :=
  let f := fun o n => field desc o n
  let spc := f 28 1
  let mode := wbits w 1 0
  let sx := fun o => (BitVec.ofNat 32 (f o 4)).signExtend 64
  let badExport := mode = 1 ∧ (wbits w 12 12 ≠ 0 ∨ wbits w 9 5 ≠ 0 ∨ outFmt (wbits w 4 2) ≠ accFmt e.form)
  let badSave := mode = 2 ∧ (wbits w 12 2 ≠ 0 ∨ spc % 4 ≠ 0)
  if f 29 35 ≠ 0 ∨ 16 ≤ spc ∨ spc % 4 = 3 ∨ spc / 4 % 4 = 3 ∨ badExport ∨ badSave then some s.illWord
  else
    let c := if w.getLsbD 9 then [BitVec.ofNat 64 (f 8 8), sx 20] else []
    match (BitVec.ofNat 64 (f 0 8) :: sx 16 :: c).find? fun v => v.toNat % 8 != 0 with
    | some v => some (0x03, v)
    | none =>
      if mode = 2 ∧ f 0 8 % 128 ≠ 0 then some (0x03, BitVec.ofNat 64 (f 0 8))
      else
        let (d, cs) := stIntervals w desc (s.t.core % 8)
        match (d :: cs).findSome? (c4 s.scratchBytes) with
        | some v => some (0x05, v)
        | none => match (d :: cs).findSome? c5 with
          | some v => some (0x04, v)
          | none =>
            if (mode = 0 ∧ e.base ≠ 0) ∨ (mode = 1 ∧ e.labels.length ≠ 1) then some (0x09, BitVec.ofNat 64 e.cnt)
            else none

/-- The rows that a store writes, as planes of one row whose source field has the row's number (R246). -/
def stPlanes (w : Word) (desc : List Byte) : List Plane :=
  let f := fun o n => field desc o n
  let dst := BitVec.ofNat 64 (f 0 8)
  let step := (BitVec.ofNat 32 (f 16 4)).toInt
  if wbits w 1 0 = 2 then [{ src := 0#64, dst := dst, sstr := 0, dstr := 0, rb := imageBytes, rows := 1, ssp := 0, dsp := 0 }]
  else (List.range 64).map fun (i : Nat) =>
    { src := BitVec.ofNat 64 i, dst := BitVec.ofInt 64 ((f 0 8 : Int) + i * step), sstr := 0, dstr := 0,
      rb := 64 * ((outFmt (wbits w 4 2)).width / 8), rows := 1, ssp := 0, dsp := f 28 1 % 4 }

/-- The re-evaluation of an instruction that keeps its issued job (R128, R246): it waits for the job, acquires
its writes, or traps ENGF. -/
def State.awaitMx (s : State) (sh : Shape) (n : Word) : State :=
  match s.jobStatus n with
  | .live _ => s.parkJob n
  | .ended e =>
    if e.state = 4 then s.unkeep.raise 0x10 (n.setWidth 64) none else (s.unkeep.acquireJob e.asn e.writes).fin (recorded sh)
  | _ => (s.unkeep.acquire s.t.core .package).fin (recorded sh)

/-- Issue a job, keep it, and park on it (R246). -/
def State.issueKept (s : State) (sh : Shape) (kind : JobKind) (a : Nat) (g : Job → Job) : State :=
  if s.queueFull then s.park 2 (.engineQueue (clusterOf s.t.core))
  else
    let (n, s') := s.issueMx kind a id g
    (s'.keep sh { kind := .mxJob n }).parkJob n

/-- `mx.st` (R246). -/
def execMxSt (d a b : RegNo) (s : State) : Host.Outcome State Fault Refusal :=
  let sh : Shape := { a := .g a, b := .g b, det := true }
  match s.t.kept with
  | some { kind := .mxJob n, .. } => s.within (recorded sh) fun _ s => s.awaitMx sh n
  | _ => s.within sh fun v s => s.onAcc d.toNat fun e =>
    let w := gOf v.b
    if !stWordOk w then s.ill
    else (s.loadScratch .interleave (gOf v.a).toNat 64).run fun desc s =>
      match s.stVerdict e w desc with
      | some (cause, val) => s.raise cause val none
      | none =>
        let cix := s.t.core % 8
        let iv := stIntervals w desc cix
        let rm := if wbits w 7 5 = 7 then wbits s.src.fctl 10 8 else wbits w 7 5
        s.issueKept sh .mxSt d.toNat fun j =>
          { j with ctl := w, rm := rm, desc := desc, planes := stPlanes w desc, reads := iv.2, writes := [iv.1] }

/-- `mx.ld` (R247). -/
def execMxLd (d a : RegNo) (s : State) : Host.Outcome State Fault Refusal :=
  let sh : Shape := { a := .g a, det := true }
  match s.t.kept with
  | some { kind := .mxJob n, .. } => s.within (recorded sh) fun _ s => s.awaitMx sh n
  | _ => s.within sh fun v s => s.onAcc d.toNat fun _ =>
    (s.loadScratch .interleave (gOf v.a).toNat 8).run fun bytes s =>
      let img := BitVec.ofNat 64 (leNat bytes)
      if !canonical img then s.raise 0x04 img none
      else if img.toNat % 128 ≠ 0 then s.raise 0x03 img none
      else s.issueKept sh .mxLd d.toNat fun j =>
        { j with desc := bytes, reads := [{ sp := 0, cix := s.t.core % 8, lo := img.toNat, hi := img.toNat + imageBytes }] }

/-- A byte of an instance as the matrix engine reads it: a poisoned sector's bytes are not known (assumption
26). -/
def Inst.mxByte (i : Inst) (draws a : Nat) : Byte :=
  if i.pois.contains (scratchSector a) then BitVec.ofNat 8 (Config.freeNat (draws + a)) else cellRead i.data a

/-- Rows of bytes of an instance: 64 of n bytes (R242). -/
def Inst.mxRows (i : Inst) (draws addr stride n : Nat) : List (List Byte) :=
  (List.range 64).map fun r => (List.range n).map fun k => i.mxByte draws (addr + r * stride + k)

/-- Bring back every page of the scratchpad intervals that a job reads (R205). -/
def State.refillReads (s : State) (cl : Nat) (j : Job) : State :=
  (j.reads.filter fun i => i.sp == 2).foldl (fun s i =>
    (List.range ((i.hi - 1).toNat / 16384 + 1 - i.lo.toNat / 16384)).foldl (fun s p =>
      s.refillPage cl j.lid (i.lo.toNat / 16384 + p)) s) s

/-- A page that a job reads is still without its frame, since a peer holds its backing page (R205, R375). -/
def State.readsLost (s : State) (cl : Nat) (j : Job) : Bool :=
  (j.reads.filter fun i => i.sp == 2).any fun i => (s.inst cl j.lid).lost.any fun p =>
    decide (i.lo < ((p : Int) + 1) * 16384) && decide ((p : Int) * 16384 < i.hi)

/-- Draw free values for the bytes of an instance. -/
def State.drawInst (s : State) (cl : Nat) (lid : Word) : State := { s with fresh := s.fresh + (s.inst cl lid).size }

/-- The operands of a chunk, as its job reads them (R242). -/
def State.chunkOf (s : State) (cl : Nat) (j : Job) (form : Nat) : Chunk :=
  let i := s.inst cl j.lid
  let f := fun o n => field j.desc o n
  let rows := fun ao so n => i.mxRows s.fresh (f ao 4) (f so 2) n
  { a := rows 0 16 (rowBytes form), b := rows 4 18 (rowBytes form), sa := rows 8 20 (scaleBytes form),
    sb := rows 12 22 (scaleBytes form) }

/-- Carry of a chunk's root into the pending roots of an accumulator, after its earlier jobs (R243). The root's values
are rounded where they stand as a pending root, and otherwise at the combine that they meet first (R241). -/
def Acc.insert (e : Acc) (n : Node) (tile : List Val) : Acc :=
  let f := accFmt e.form
  let add := fun (a b : List Val) => (a.zip b).map fun p => valueOf f (addVal f .rne p.1 p.2).1
  let carried := carry add (e.roots.map fun r => (r.1, r.2.map (valueOf f))) (n, tile)
  let stands := fun (r : Node × List Val) => match e.roots.find? fun x => x.1 == r.1 with
    | some x => x
    | none => (r.1, r.2.map fun v => (roundTo f .rne false 0 v).1)
  { e with roots := carried.map stands, vcnt := (n.j + 1) * 2 ^ n.l }

/-- The job may start, or goes on after a stop. -/
def State.mxReady (s : State) (cl : Nat) (j : Job) : Bool := s.startable cl j || s.runnable j

/-- A matrix job of a kind that may proceed, on its accumulator. -/
def State.onMxJob (s : State) (cl job : Nat) (ok : JobKind → Bool) (f : Job → Acc → State) :
    Host.Outcome State Fault Refusal :=
  match s.job? cl job with
  | some j =>
    if ok j.kind && s.mxReady cl j then
      match s.acc? cl j.acc with
      | some e => .next (f j e)
      | none => .next (s.endJob cl j 4)
    else .next s
  | none => .next s

/-- An `mma` job: its chunk root is carried into the pending roots (R241, R243). -/
def execMmaJob (cluster job : Nat) (s : State) : Host.Outcome State Fault Refusal :=
  s.onMxJob cluster job (fun k => match k with
    | .mma _ => true
    | _ => false) fun j e =>
    let s := s.refillReads cluster j
    if s.readsLost cluster j then s
    else
      let form := e.form
      let c := s.chunkOf cluster j form
      let tile := tileOf (c.root form j.kv (e.cfg.getLsbD 3) (e.cfg.getLsbD 4))
      let node : Node := { l := Nat.log2 (leavesOf form), j := j.q }
      let s := (s.drawInst cluster j.lid).modAcc cluster j.acc fun e =>
        { e.insert node tile with vclosed := decide (j.kv < depthOf form) }
      s.endJob cluster j 0

/-- An `mx.merge` job: its tile is carried into the pending roots (R245). -/
def execMxMergeJob (cluster job : Nat) (s : State) : Host.Outcome State Fault Refusal :=
  s.onMxJob cluster job (fun k => k == .mxMerge) fun j e =>
    let s := s.refillReads cluster j
    if s.readsLost cluster j then s
    else
      let i := s.inst cluster j.lid
      let f := accFmt e.form
      let w := f.width / 8
      let at' := fun k => leNat ((List.range w).map fun b => i.mxByte s.fresh (j.ctl.toNat + w * k + b))
      let tile := tileOf fun r c => canonNaN f (at' (64 * r + c))
      let s := (s.drawInst cluster j.lid).modAcc cluster j.acc fun e =>
        { e.insert { l := j.q, j := j.kv } (tile.map (valueOf f)) with vclosed := j.trail }
      s.endJob cluster j 0

/-- An `mx.zero` job (R244). -/
def execMxZeroJob (cluster job : Nat) (s : State) : Host.Outcome State Fault Refusal :=
  s.onMxJob cluster job (fun k => k == .mxZero) fun j _ =>
    (s.modAcc cluster j.acc fun e => { e with roots := [], vcnt := e.base, vclosed := false }).endJob cluster j 0

/-- The 12 planes of an image (R247). -/
def Acc.planes (e : Acc) : List (List Nat) :=
  let tiles := e.roots.map Prod.snd
  let ps := if e.form = 0 then tiles.flatMap fun t => [t.map fun v => v % 2 ^ 32, t.map fun v => v / 2 ^ 32] else tiles
  ps ++ List.replicate (12 - ps.length) (List.replicate 4096 0)

/-- The image of an accumulator (R247). -/
def Acc.image (e : Acc) : List Byte :=
  let head := leBytes 4 e.cfg.toNat ++ leBytes 4 0 ++ leBytes 8 e.base ++ leBytes 8 e.vcnt ++
    leBytes 1 e.roots.length ++ leBytes 1 (if e.vclosed then 1 else 0) ++ List.replicate 34 0#8
  withCrc head ++ e.planes.flatMap fun p => p.flatMap (leBytes 4)

/-- Final mode's fold of the roots for one output, newest first (R246). -/
def Acc.fold (e : Acc) (k : Nat) : Nat :=
  match (e.roots.map fun r => (r.2.drop k).headD 0).reverse with
  | [] => 0
  | v :: older => older.foldl (fun v r => treeAdd (accFmt e.form) r v) v

/-- The rounding mode of a code (R48). -/
def Rm.ofCode (n : Nat) : Rm :=
  match n with
  | 0 => .rne
  | 1 => .rtz
  | 2 => .rup
  | _ => .rdn

/-- One output of a store in final mode (R246). -/
def Acc.final (e : Acc) (j : Job) (k c : Nat) : Nat :=
  let f := accFmt e.form
  let w := j.ctl
  let v := valueOf f (e.fold k)
  let band := fun o => valueOf .bf16 (field j.desc o 2)
  let v := if w.getLsbD 12 then valueOf f (roundTo f .rne false 0 ((v.times (band 24)).times (band 26))).1 else v
  let v := if w.getLsbD 9 then valueOf f (addVal f .rne v (valueOf (outFmt (wbits w 11 10)) c)).1 else v
  (roundTo (outFmt (wbits w 4 2)) (Rm.ofCode j.rm) (w.getLsbD 8) 0 v).1

/-- The bytes of C that a sector's outputs read (R246); those of a poisoned sector are not known (assumption 26). -/
def State.cBytes (s : State) (cl : Nat) (j : Job) (row first count : Nat) : Eng (List Byte) :=
  let size := (outFmt (wbits j.ctl 11 10)).width / 8
  let lo : Int := (field j.desc 8 8 : Int) + (row : Int) * (BitVec.ofNat 32 (field j.desc 20 4)).toInt + first * size
  let n := count * size
  if field j.desc 28 1 / 4 % 4 = 0 then
    let skip := (lo % 8).toNat
    (s.engWords cl j (lo - skip) ((skip + n + 7) / 8)).andThen fun r s =>
      let known := fun (x : (List Byte × Bool) × Nat) => if x.1.2 then freeBytes (s.fresh + 8 * x.2) 8 else x.1.1
      let bytes := (r.zip (List.range r.length)).flatMap known
      .ok ((bytes.drop skip).take n) (if r.any Prod.snd then { s with fresh := s.fresh + 8 * r.length } else s)
  else
    let as := s.engSpan cl j (field j.desc 28 1 / 4 % 4) lo n
    (s.engPages cl j.lid as).andThen fun _ s =>
      .ok (as.map ((s.inst cl j.lid).mxByte s.fresh)) (s.drawInst cl j.lid)

/-- The bytes that a store writes into a sector (R246, R247). -/
def State.stBytes (s : State) (cl : Nat) (j : Job) (e : Acc) (x : Sector) : Eng (List Byte) :=
  let w := j.ctl
  if wbits w 1 0 = 2 then .ok ((e.image.drop x.off).take x.n) s
  else
    let size := (outFmt (wbits w 4 2)).width / 8
    let row := x.pattern.toNat
    let first := x.off / size
    let count := x.n / size
    if wbits w 1 0 = 1 then
      let tile := ((e.roots.map Prod.snd).head?).getD []
      .ok ((List.range count).flatMap fun i => leBytes size ((tile.drop (64 * row + first + i)).headD 0)) s
    else
      let c : Eng (List Byte) := if w.getLsbD 9 then s.cBytes cl j row first count else .ok [] s
      let cs := (outFmt (wbits w 11 10)).width / 8
      c.andThen fun cb s =>
        .ok ((List.range count).flatMap fun i => leBytes size (e.final j (64 * row + first + i) (field cb (cs * i) cs))) s

/-- The next sectors of a store, until one stops it; the last one ends the job (R224, R246). All of them move in one step,
and each sector's C is read just before the sector is written (assumption 67). -/
def State.stLoop (s : State) (cl id : Nat) (e : Acc) : List Sector → State
  | [] => match s.job? cl id with
    | some j => s.endJob cl j 0
    | none => s
  | x :: xs => match s.job? cl id with
    | none => s
    | some j => match s.stBytes cl j e x with
      | .wait s => s
      | .miss va r s => s.stopJob cl j va r j.done 0
      | .bad va c s => s.failJob cl j va c j.done 0
      | .ok bytes s => match s.engWrite cl j x.dsp x.dst bytes false with
        | .wait s => s
        | .miss va r s => s.stopJob cl j va r j.done 1
        | .bad va c s => s.failJob cl j va c j.done 1
        | .ok _ s => (s.modJob cl id fun j => { j with done := j.done + 1 }).stLoop cl id e xs

/-- An `mx.st` job: it writes its tile or its image, and ends (R246). -/
def execMxStJob (cluster job : Nat) (s : State) : Host.Outcome State Fault Refusal :=
  s.onMxJob cluster job (fun k => k == .mxSt) fun j e =>
    (s.putJob cluster { j with state := 2 }).stLoop cluster job e (j.sectors.drop j.done)

/-- An image that `mx.ld` accepts, as the accumulator that it describes (R247): its BASE is the header's, and one with
more roots than slots fails (assumption 61). -/
def accOfImage (owner : Option Nat) (bs : List Byte) : Option Acc :=
  let cfg := BitVec.ofNat 32 (field bs 0 4)
  let form := wbits cfg 2 0
  let base := field bs 8 8
  let cnt := field bs 16 8
  let labels := decompose 128 base cnt
  let n := field bs 24 1
  let plane := fun p => (List.range 4096).map fun k => field bs (64 + 16384 * p + 4 * k) 4
  let tile := fun r =>
    if form = 0 then ((plane (2 * r)).zip (plane (2 * r + 1))).map fun v => canonNaN .f64 (v.1 + v.2 * 2 ^ 32)
    else (plane r).map (canonNaN .f32)
  if crc32 (bs.take 60) ≠ field bs 60 4 ∨ !cfgOk cfg ∨ cnt < base ∨ n ≠ labels.length ∨ slotsOf form < n ∨ 1 < field bs 25 1 then none
  else
    some { owner := owner, cfg := cfg, form := form, base := base, cnt := cnt, labels := labels, closed := field bs 25 1 == 1,
           vcnt := cnt, vclosed := field bs 25 1 == 1, roots := labels.zip ((List.range n).map tile) }

/-- The blocks of 32 bytes that a load reads of its image, until one stops it; then the checks (R247), whose record has the
image's address as its VA (assumption 67). -/
def State.ldLoop (s : State) (cl id : Nat) : Nat → State
  | 0 => match s.job? cl id with
    | none => s
    | some j => match s.acc? cl j.acc with
      | none => s.endJob cl j 4
      | some e => match accOfImage e.owner (j.staged.flatMap Prod.fst) with
        | some e' => (s.modAcc cl j.acc fun e => { e' with releasing := e.releasing }).endJob cl j 0
        | none => s.failJob cl j (BitVec.ofNat 64 (leNat j.desc)) 0x01 0 0
  | n + 1 => match s.job? cl id with
    | none => s
    | some j => match s.engRead cl j ((leNat j.desc : Int) + 32 * j.done) 4 with
      | .wait s => s
      | .miss va r s => s.stopJob cl j va r j.done 0
      | .bad va c s => s.failJob cl j va c j.done 0
      | .ok (bytes, pois) s =>
        let bytes := if pois then freeBytes s.fresh 32 else bytes
        let s := if pois then { s with fresh := s.fresh + 32 } else s
        (s.putJob cl { j with done := j.done + 1, staged := j.staged ++ [(bytes, false)] }).ldLoop cl id n

/-- An `mx.ld` job: it reads and checks an image, and replaces the accumulator's state (R247). -/
def execMxLdJob (cluster job : Nat) (s : State) : Host.Outcome State Fault Refusal :=
  s.onMxJob cluster job (fun k => k == .mxLd) fun j _ =>
    (s.putJob cluster { j with state := 2 }).ldLoop cluster job (imageBytes / 32 - j.done)

end Sys2Proof.Machine
end

