-- ==== Sys2Proof/Machine/Collectives.lean ====
section
/-! DEFINITION. Collectives over the modules of a pod (R380 to R383): communicators, descriptors, arrivals,
and the completion of an operation. -/

namespace Sys2Proof.Machine

/-- The operation of a form (R73): 14 is `coll.bc`, 15 `coll.ag`. -/
def redOf (form : Nat) : Option RedOp :=
  ([.addF32, .addF64, .caddF32, .addI32, .addI64, .maxF32, .minF32, .maxF64, .minF64, .maxI32, .minI32, .and, .or, .xor] : List RedOp)[form]?

/-- The address of a communicator's entry (R380). -/
def State.commEntry (s : State) (comm : Nat) : Nat := bits s.ccb 51 14 * 16384 + 64 * comm
/-- NMOD of a communicator (R380). -/
def State.commMods (s : State) (comm : Nat) : Nat := leNat (s.homeRead (s.commEntry comm) 2)
/-- LOCAL of a communicator (R380). -/
def State.commLocal (s : State) (comm : Nat) : Nat := leNat (s.homeRead (s.commEntry comm + 2) 1)
/-- NPART of a communicator (R380). -/
def State.commParts (s : State) (comm : Nat) : Nat := leNat (s.homeRead (s.commEntry comm + 4) 4)
/-- The peer numbers of a communicator's members (R380). -/
def State.commMembers (s : State) (comm : Nat) : List Nat :=
  let a := leNat (s.homeRead (s.commEntry comm + 8) 8)
  (List.range (s.commMods comm)).map fun i => leNat (s.homeRead (a + 2 * i) 2)

/-- A page of a communicator's entry or of its list of members that a peer holds, for which a read of them waits (R375,
R380). -/
def State.commHeld (s : State) (comm : Nat) : Option Nat :=
  let entry := s.homeAddr (s.commEntry comm)
  if s.heldByPeer entry then some (entry / 65536)
  else s.heldPage (s.homeAddr (leNat (s.homeRead (s.commEntry comm + 8) 8))) (2 * s.commMods comm)

/-- An address of a communicator's entry, or of its list of members, that is no memory: the I/O die's read there is refused
(R367, R368, R380). -/
def State.commRefused (s : State) (comm : Nat) : Option Nat :=
  let list := leNat (s.homeRead (s.commEntry comm + 8) 8)
  if !(s.place (s.commEntry comm)).isMemory then some (s.commEntry comm)
  else ((List.range (s.commMods comm)).map fun i => list + 2 * i).find? fun a => !(s.place a).isMemory

/-- A communicator may be used: its entry and its members can be read, V is set and its counts are in range (R380, R382). -/
def State.commValid (s : State) (comm : Nat) : Bool :=
  (s.commRefused comm).isNone &&
  leNat (s.homeRead (s.commEntry comm + 3) 1) % 2 == 1 && s.commMods comm != 0 && decide (s.commMods comm ≤ 1024) &&
    s.commLocal comm != 0 && decide (s.commLocal comm ≤ 64)

/-- The fields of a descriptor (R381). -/
def collDesc (form : Nat) (bs : List Byte) (thread : Nat) (asn : BitVec 16) : CArrival :=
  { thread := some thread, asn := asn, form := form, src := BitVec.ofNat 64 (field bs 0 8),
    dst := BitVec.ofNat 64 (field bs 8 8), count := field bs 16 4, level := field bs 22 1, index := field bs 24 4,
    nleaf := field bs 28 4 }

/-- The fields of a descriptor are in range and its reserved bytes are 0 (R381). -/
def collDescOk (form : Nat) (bs : List Byte) : Bool :=
  let count := field bs 16 4
  field bs 20 2 < 256 && field bs 23 1 == 0 && field bs 32 32 == 0 &&
    (if form < 14 then decide (1 ≤ count) && decide (count ≤ 2 ^ 24) && decide (field bs 22 1 ≤ 30)
     else field bs 22 1 == 0 && count % 8 == 0 && decide (count ≤ if form = 14 then 2 ^ 26 else 2 ^ 20))

/-- Bytes of an element of a reduction. -/
def collElem (form : Nat) : Nat := ((redOf form).map fun op => op.width / 8).getD 1

/-- Bytes that an arrival reads at SRC (R381). -/
def CArrival.srcBytes (a : CArrival) : Nat := a.count * collElem a.form
/-- Bytes that an arrival writes at DST (R381). -/
def CArrival.dstBytes (a : CArrival) : Nat := if a.form = 15 then a.count * a.nleaf else a.count * collElem a.form

/-- MemCheck of every page of a run of bytes (R382); the last number bounds the pages. -/
def State.checkPages (s : State) (va : DWord) (n : Nat) (k : AccKind) : Nat → Res PUnit
  | 0 => .ok .unit s
  | f + 1 =>
    if n = 0 then .ok .unit s
    else
      let m := min n (65536 - va.toNat % 65536)
      (s.xlate va 1 k).andThen fun _ s => s.checkPages (va + BitVec.ofNat 64 m) (n - m) k f

/-- The pages that bound a run of bytes. -/
def pagesOf (n : Nat) : Nat := n / 65536 + 2

/-- The page of an address as an I/O die reaches it in an address space (R382). -/
def State.collPa (s : State) (asn : BitVec 16) (va : DWord) : Option Nat :=
  match s.walkXl asn va with
  | .hit e => some (e.pa va)
  | _ => none

/-- The pages of a run of bytes, each by an address in it; the last number bounds them. -/
def pageStarts (va : DWord) (n : Nat) : Nat → List DWord
  | 0 => []
  | f + 1 =>
    if n = 0 then []
    else
      let m := min n (65536 - va.toNat % 65536)
      va :: pageStarts (va + BitVec.ofNat 64 m) (n - m) f

/-- The bytes at SRC, none where a page has lost its mapping or is no memory; those of poisoned sectors are free values,
numbered from `draws` (R382, assumption 26). -/
def State.collRead (s : State) (asn : BitVec 16) (va : DWord) (n draws : Nat) : Nat → Option (List Byte)
  | 0 => some []
  | f + 1 =>
    if n = 0 then some []
    else
      let m := min n (65536 - va.toNat % 65536)
      match s.collPa asn va with
      | none => none
      | some pa =>
        if (s.place pa).isMemory then
          (s.collRead asn (va + BitVec.ofNat 64 m) (n - m) (draws + m) f).map fun l => s.knownBytes pa m draws ++ l
        else none

/-- Write bytes at DST; false where a page has lost its mapping, or is no memory, which refuses the write (R367, R368,
R382, assumption 53). -/
def State.collWrite (s : State) (asn : BitVec 16) (va : DWord) (bytes : List Byte) : Nat → Bool × State
  | 0 => (true, s)
  | f + 1 =>
    if bytes.isEmpty then (true, s)
    else
      let m := min bytes.length (65536 - va.toNat % 65536)
      let page := s.collPa asn va
      let s := s.noteXl asn va
      match page with
      | none => (false, s)
      | some pa =>
        let s' := s.namelessWrite pa (bytes.take m)
        if (s.place pa).isMemory then s'.collWrite asn (va + BitVec.ofNat 64 m) (bytes.drop m) f else (false, s')

/-- The first leaf of a delivered node, and the number of its leaves below N (R57). -/
def CArrival.leaves (a : CArrival) : Nat × Nat :=
  let lo := a.index * 2 ^ a.level
  (lo, min (lo + 2 ^ a.level) a.nleaf - lo)

/-- The delivered nodes are disjoint and cover [0, N) (R58, R383). A node whose span holds no leaf below N, which R58 does not
deliver, ends the operation with status 2 too, and so does an N of 0 (DESIGN CHOICE, assumption 53: R382 names only overlap
and uncovered leaves). -/
def covers (arrivals : List CArrival) (n : Nat) : Bool :=
  let spans := arrivals.map fun a => (a.index * 2 ^ a.level, (a.index + 1) * 2 ^ a.level)
  decide (spans.Pairwise fun x y => x.2 ≤ y.1 ∨ y.2 ≤ x.1) && (arrivals.all fun a => decide (0 < a.leaves.2)) &&
    (arrivals.map fun a => a.leaves.2).sum == n

/-- The participants agree on form, operation, COUNT, N and root (R382). -/
def collAgree (arrivals : List CArrival) : Bool :=
  match arrivals with
  | [] => true
  | a :: _ => arrivals.all fun b => b.form == a.form && b.count == a.count &&
      (if a.form = 14 then b.index == a.index else b.nleaf == a.nleaf)

/-- The least l with n ≤ 2^l. -/
def log2Up (n : Nat) : Nat := if n ≤ 1 then 0 else Nat.log2 (n - 1) + 1

/-- The elements of a reduction (R58, R382): each is merged over the delivered nodes. -/
def collReduce (op : RedOp) (nodes : List (CArrival × List Byte)) (n count : Nat) : List Byte :=
  let w := op.width / 8
  let top := nodes.foldl (fun m x => max m x.1.level) (log2Up n)
  (List.range count).flatMap fun e =>
    let ds := nodes.map fun x => { l := x.1.level, j := x.1.index, v := field x.2 (w * e) w : Delivered }
    leBytes w (op.canon ((mergeNode op.combine ds top 0).getD op.identity))

/-- What an operation writes at every DST, or the status for which it writes nothing (R382). -/
def collResult (nodes : List (CArrival × List Byte)) : Nat ⊕ List (Nat × List Byte) :=
  match nodes with
  | [] => .inl 0
  | (a, _) :: _ =>
    if !collAgree (nodes.map Prod.fst) then .inl 3
    else match redOf a.form with
      | some op =>
        if covers (nodes.map Prod.fst) a.nleaf then .inr [(0, collReduce op nodes a.nleaf a.count)] else .inl 2
      | none =>
        if a.form = 14 then
          match nodes.find? fun x => x.1.nleaf == x.1.index with
          | some root => .inr [(0, root.2)]
          | none => .inl 3
        else .inr (nodes.map fun x => (x.1.index * a.count, x.2))

/-- Write the pieces of a result at every local DST; false where a page has lost its mapping. -/
def State.collDeliver (s : State) (arrivals : List CArrival) (pieces : List (Nat × List Byte)) : Bool × State :=
  arrivals.foldl (fun r a =>
    if a.thread.isNone then r
    else pieces.foldl (fun (r : Bool × State) p =>
      if r.1 then r.2.collWrite a.asn (a.dst + BitVec.ofNat 64 p.1) p.2 (pagesOf p.2.length) else r) r) (true, s)

/-- The data of every participant, none where a page has lost its mapping; free values are numbered from `draws`. -/
def State.collData (s : State) (draws : Nat) : List CArrival → Option (List (CArrival × List Byte))
  | [] => some []
  | a :: l =>
    let bytes := if a.thread.isNone then some a.bytes else s.collRead a.asn a.src a.srcBytes draws (pagesOf a.srcBytes)
    match bytes, s.collData (draws + a.srcBytes) l with
    | some bs, some rest => some ((a, bs) :: rest)
    | _, _ => none

/-- The physical pages that the I/O dies read for an operation (R382). -/
def State.collSources (s : State) (c : Coll) : List Nat :=
  (c.arrivals.filter fun a => a.thread.isSome).flatMap fun a =>
    (pageStarts a.src a.srcBytes (pagesOf a.srcBytes)).filterMap (s.collPa a.asn)

/-- A member of the operation has left the pod (R382). -/
def State.collLost (s : State) (c : Coll) : Bool := c.lost || (s.commMembers c.comm).any s.lostPeers.contains

/-- The walks for the SRC pages of an operation: their refused reads are counted and reported (R311, R382). -/
def State.noteSources (s : State) (c : Coll) : State :=
  (c.arrivals.filter fun a => a.thread.isSome).foldl (fun s a =>
    (pageStarts a.src a.srcBytes (pagesOf a.srcBytes)).foldl (fun s va => s.noteXl a.asn va) s) s

/-- Every operation ends with one status for every participant (R382). A page of SRC that is no memory refuses the read,
which ends it as a lost mapping does (R367, R368, assumption 53), and so does a mapping that another module's participant has
lost. -/
def State.collEnd (s : State) (c : Coll) : Nat × State :=
  if s.collLost c || c.arrivals.any (·.failed) then (4, s)
  else
  let s := s.noteSources c
  match s.collData s.fresh c.arrivals with
    | none => (4, match (s.collSources c).find? fun pa => !(s.place pa).isMemory with
      | some pa => s.refuseNameless pa .read
      | none => s)
    | some nodes =>
      let s := { s with fresh := s.fresh + (c.arrivals.map CArrival.srcBytes).sum }
      let s := (s.collSources c).foldl (fun s pa => s.takeGrant pa false) s
      match collResult nodes with
      | .inl st => (st, s)
      | .inr pieces => match s.collDeliver c.arrivals pieces with
        | (true, s) => (0, s)
        | (false, s) => (4, s)

/-- An operation of a communicator. -/
def State.coll? (s : State) (comm k : Nat) : Option Coll := s.colls.find? fun c => c.comm == comm && c.k == k

/-- Put an operation back. -/
def State.putColl (s : State) (c : Coll) : State :=
  if (s.coll? c.comm c.k).isSome then
    { s with colls := s.colls.map fun x => if x.comm == c.comm && x.k == c.k then c else x }
  else { s with colls := s.colls ++ [c] }

/-- A page of this module that an operation reads or writes, its communicator's and those of the tables among them, and that a
peer holds (R375). -/
def State.collHeld (s : State) (c : Coll) : Option Nat :=
  let pages := (c.arrivals.filter fun a => a.thread.isSome).flatMap fun a =>
    ((pageStarts a.src a.srcBytes (pagesOf a.srcBytes)) ++ pageStarts a.dst a.dstBytes (pagesOf a.dstBytes)).map fun va => (a.asn, va)
  (s.commHeld c.comm).or <| pages.findSome? fun p => s.uncoreHeld p.1 p.2

/-- The operation can complete (R382). -/
def State.collReady (s : State) (c : Coll) : Bool :=
  c.status.isNone && (s.collLost c || decide (s.commParts c.comm ≤ c.arrivals.length))

/-- The operation can complete, or waits for its communicator's page to find out (R375, R382). -/
def State.collDue (s : State) (c : Coll) : Bool := s.collReady c || (c.status.isNone && (s.commHeld c.comm).isSome)

/-- An operation completes: DST is written, then every participant is woken (R382). -/
def execCollCompletion (comm k : Nat) (s : State) : Host.Outcome State Fault Refusal :=
  match s.coll? comm k with
  | some c =>
    if let some page := s.collHeld c then .next (if s.collDue c then s.recall page false else s)
    else if s.collReady c then
      let (st, s) := s.collEnd c
      .next ((s.putColl { c with status := some st }).chime (.coll comm k))
    else .next s
  | none => .next s

/-- Record an arrival at an operation, which a member that has left the pod before makes one that lacks it (R382). -/
def State.collArrive (s : State) (comm k : Nat) (a : CArrival) : State :=
  let c := (s.coll? comm k).getD { comm := comm, k := k, lost := (s.commMembers comm).any s.lostPeers.contains }
  s.putColl { c with arrivals := c.arrivals ++ [a] }

/-- An operation is forgotten once no thread holds its arrival (R382). -/
def State.dropColl (s : State) (comm k : Nat) : State :=
  if s.threads.any fun th => (th.kept.any fun x => x.kind == .coll comm k) then s
  else { s with colls := s.colls.filter fun c => !(c.comm == comm && c.k == k) }

/-- The end of a collective whose arrival is recorded (R382). -/
def State.awaitColl (s : State) (sh : Shape) (comm k : Nat) : State :=
  match (s.coll? comm k).bind (·.status) with
  | none => s.park 4 (.coll comm k)
  | some st =>
    let s := s.unkeep.dropColl comm k
    (s.acquire s.t.core .system).put (recorded sh) [BitVec.ofNat 32 st] noFlags

/-- A collective instruction (R382). -/
def State.collOp (s : State) (form : Nat) (d a : RegNo) : Host.Outcome State Fault Refusal :=
  let sh : Shape := { a := .w a, dst := .g d, det := true }
  match s.t.kept with
  | some { kind := .coll comm k, .. } => s.within (recorded sh) fun _ s => s.awaitColl sh comm k
  | _ => s.within sh fun v s =>
    let va := wOf v.a
    ((s.homeCheck va 64 .read).andThen fun pa s => (s.readHome pa va 64 .read).andThen fun _ s =>
      Res.ok (s.homeRead pa 64) s).run fun bs s =>
      if !collDescOk form bs || !dbit s.ccb 0 then s.ill
      else
        let comm := field bs 20 2
        let x := collDesc form bs s.t.ckey s.t.asn
        ((s.checkPages x.src x.srcBytes .read (pagesOf x.srcBytes)).andThen fun _ s =>
          s.checkPages x.dst x.dstBytes .write (pagesOf x.dstBytes)).run fun _ s =>
          let s := s.release s.t.core .system
          if let some page := s.commHeld comm then (s.recall page true).wait []
          else if !s.commValid comm then
            let s := ((s.commRefused comm).map fun pa => s.refuseNameless pa .read).getD s
            (s.acquire s.t.core .system).put sh [1#32] noFlags
          else
            let n := (aget comm s.arrived).getD 0
            let k := n / s.commLocal comm
            let s := { s with arrived := aset comm (n + 1) s.arrived }
            let s := (s.keep sh { kind := .coll comm k, a := va }).collArrive comm k x
            s.awaitColl sh comm k

/-- The operations that wait for a lost module complete with status 4 (R382); what it held of this module's
pages is gone (R375). -/
def State.loseMember (s : State) (peer : Nat) : State :=
  { s with colls := s.colls.map fun c =>
      if c.status.isNone && (s.commHeld c.comm).isNone && (s.commMembers c.comm).contains peer then { c with lost := true }
      else c }

/-- `coll.red.add.f32` (R382). -/
def execCollRedAddF32 (d a : RegNo) (s : State) : Host.Outcome State Fault Refusal := s.collOp 0 d a

/-- `coll.red.add.f64` (R382). -/
def execCollRedAddF64 (d a : RegNo) (s : State) : Host.Outcome State Fault Refusal := s.collOp 1 d a

/-- `coll.red.cadd.f32` (R382). -/
def execCollRedCaddF32 (d a : RegNo) (s : State) : Host.Outcome State Fault Refusal := s.collOp 2 d a

/-- `coll.red.add.i32` (R382). -/
def execCollRedAddI32 (d a : RegNo) (s : State) : Host.Outcome State Fault Refusal := s.collOp 3 d a

/-- `coll.red.add.i64` (R382). -/
def execCollRedAddI64 (d a : RegNo) (s : State) : Host.Outcome State Fault Refusal := s.collOp 4 d a

/-- `coll.red.max.f32` (R382). -/
def execCollRedMaxF32 (d a : RegNo) (s : State) : Host.Outcome State Fault Refusal := s.collOp 5 d a

/-- `coll.red.min.f32` (R382). -/
def execCollRedMinF32 (d a : RegNo) (s : State) : Host.Outcome State Fault Refusal := s.collOp 6 d a

/-- `coll.red.max.f64` (R382). -/
def execCollRedMaxF64 (d a : RegNo) (s : State) : Host.Outcome State Fault Refusal := s.collOp 7 d a

/-- `coll.red.min.f64` (R382). -/
def execCollRedMinF64 (d a : RegNo) (s : State) : Host.Outcome State Fault Refusal := s.collOp 8 d a

/-- `coll.red.max.i32` (R382). -/
def execCollRedMaxI32 (d a : RegNo) (s : State) : Host.Outcome State Fault Refusal := s.collOp 9 d a

/-- `coll.red.min.i32` (R382). -/
def execCollRedMinI32 (d a : RegNo) (s : State) : Host.Outcome State Fault Refusal := s.collOp 10 d a

/-- `coll.red.and` (R382). -/
def execCollRedAnd (d a : RegNo) (s : State) : Host.Outcome State Fault Refusal := s.collOp 11 d a

/-- `coll.red.or` (R382). -/
def execCollRedOr (d a : RegNo) (s : State) : Host.Outcome State Fault Refusal := s.collOp 12 d a

/-- `coll.red.xor` (R382). -/
def execCollRedXor (d a : RegNo) (s : State) : Host.Outcome State Fault Refusal := s.collOp 13 d a

/-- `coll.bc` (R382). -/
def execCollBc (d a : RegNo) (s : State) : Host.Outcome State Fault Refusal := s.collOp 14 d a

/-- `coll.ag` (R382). -/
def execCollAg (d a : RegNo) (s : State) : Host.Outcome State Fault Refusal := s.collOp 15 d a

end Sys2Proof.Machine
end

