-- ==== Sys2Proof/Machine/Sched.lean ====
section
/-! DEFINITION. The package scheduler (R327 to R333): candidates and effective levels, the fit of a unit on a
cluster, placement, pre-emption and resumption (R178, R205, R226), and the events that make it serve. -/

namespace Sys2Proof.Machine

/-- 2 ms in ticks (R327). -/
def turnTicks : Nat := 18000000

/-- D of a launch (R322). -/
def Launch.det (l : Launch) : Bool := l.pkt.flags.getLsbD 0
/-- P of a launch (R322). -/
def Launch.prot (l : Launch) : Bool := l.pkt.flags.getLsbD 1

/-- Units of a launch (R330). -/
def Launch.units (l : Launch) : Nat :=
  if l.pkt.cgrp = 0 then l.pkt.tcnt.toNat else (l.pkt.tcnt.toNat + l.pkt.cgrp - 1) / l.pkt.cgrp

/-- The threads of a unit, by `tix` (R330). -/
def Launch.unitTix (l : Launch) (u : Nat) : List Nat :=
  let g := l.pkt.cgrp
  if g = 0 then [u] else (List.range (min g (l.pkt.tcnt.toNat - u * g))).map fun i => u * g + i

/-- Ready and not fully placed, or suspended (R327). -/
def Launch.waits (l : Launch) : Bool := (l.st == .ready && decide (l.placed < l.units)) || l.st == .suspended

/-- A running launch: dispatched, and neither suspended nor ending (R328). -/
def Launch.runs (l : Launch) : Bool := l.st == .ready && decide (0 < l.placed)

/-- A queue's candidate: its oldest launch that waits (R327). -/
def State.candidateOf (s : State) (q : Nat) : Option (Word × Launch) :=
  (sortBy (fun (a b : Word × Launch) => decide (a.2.order < b.2.order))
    ((s.launches.filter fun x => x.2.q == q && x.2.waits).map fun x => (BitVec.ofNat 32 x.1, x.2))).head?

/-- E of a queue with a candidate (R327). -/
def State.effLevel (s : State) (l : Launch) : Nat :=
  if l.level = 0 then 0 else max 1 (l.level - (s.ticks - l.waitSince) / turnTicks)

/-- The logical clusters of the boot map, as package cluster indices (R331, R358). -/
def State.logical (s : State) : List Nat :=
  let map := bits s.bmap 51 14 * 16384
  (List.range (min 512 (leNat (cellReadN s.mem (map + 6) 2)))).map fun i =>
    leNat (cellReadN s.mem (map + 0x1000 + 2 * i) 2)

/-- Contexts of a core that the spill engine may write to make room for a launch: suspended and faulted ones
of other launches (R179), or, `free`, every one that pre-emption could make such (R328). -/
def State.spillable (s : State) (c : Nat) (lid : Word) (free : Bool) : List Thread :=
  let k := s.core c
  if !dbit k.spla 19 || k.spillHeld || k.spillFailed then []
  else (s.ofCore c).filter fun th => th.resident && !th.boot && th.lid != lid &&
    (free || th.life == .suspended || th.life == .faulted)

/-- Threads of a launch for which a core has room, with what can be spilled there (R329). -/
def State.capacity (s : State) (c : Nat) (lid : Word) (l : Launch) (free : Bool) : Nat :=
  if (s.core c).spillFailed || !s.modeFits c l.prot then 0
  else
    let sp := s.spillable c lid free
    let blocks := ({ s.core c with detect := l.prot } : Core).blocks - s.usedBlocks c + (sp.map (·.blocks)).sum
    min (1024 - (s.ofCore c).length) (min (512 - s.residents c + sp.length) (blocks / l.pkt.nreg))

/-- What a unit needs of a cluster as a whole (R205, R329, R330). -/
def State.clusterFits (s : State) (p : Nat) (lid : Word) (l : Launch) (free : Bool) : Bool :=
  let k := s.cluster p
  let here := (aget lid.toNat k.insts).isSome || (s.ofLaunch lid).any (fun th => clusterOf th.core == p) ||
    s.cores.any fun c => clusterOf c.1 == p && c.2.deque.any fun e => e.lid == lid
  let pages := l.pkt.scratch / 16384
  (l.pkt.cgrp == 0 || !(l.pkt.scratch != 0 || l.det) || !here) &&
    !s.fenced.contains p && ((aget lid.toNat k.insts).isSome ||
      ((free || decide (k.pinnedFrames + pages ≤ 64)) && decide (pages ≤ k.freeBacking.length)))

/-- The first core from a start that has room, of so many tried; its count goes down (R332). -/
def pickCore (caps : List Nat) (start : Nat) : Nat → Option (Nat × List Nat)
  | 0 => none
  | n + 1 =>
    let i := start % 8
    let c := (caps.drop i).headD 0
    if c = 0 then pickCore caps (start + 1) n else some (i, setAt i (c - 1) caps)

/-- Cores for the threads of a unit, in `tix` order (R332). -/
def pickCores (caps : List Nat) (start tries : Nat) : Nat → Option (List Nat)
  | 0 => some []
  | n + 1 => match pickCore caps start tries with
    | none => none
    | some (i, caps) => (pickCores caps (start + 1) tries n).map fun l => i :: l

/-- The cores of a cluster on which a unit fits (R329, R332, R338). R332 gives the first core of a single thread from the
launch's previous thread in the cluster; with none, it is core 0 (assumption 27). -/
def State.assign (s : State) (lid : Word) (l : Launch) (u p : Nat) (free : Bool) : Option (List Nat) :=
  let n := (l.unitTix u).length
  if !s.clusterFits p lid l free then none
  else if l.det ∧ l.pkt.dbn < (s.ofLaunch lid).length + n then none
  else
    let start := if l.pkt.cgrp ≠ 0 then 0 else match aget p l.lastCore with
      | some c => (c + 1) % 8
      | none => 0
    let fixed := l.det || l.pkt.place % 4 == 3
    pickCores ((List.range 8).map fun i => s.capacity (8 * p + i) lid l free) start (if fixed then 1 else 8) n

/-- The logical clusters tried for a unit, in order (R331, R333), under a boot map. Where the cluster that took the last
unit has been fenced since, a packed launch begins again with the first one (assumption 27). -/
def Launch.tries (l : Launch) (lid : Word) (u : Nat) (map : List Nat) : List Nat :=
  let n := map.length
  let wrap := fun first => (List.range n).map fun i => (first + i) % n
  if n = 0 then []
  else if l.det ∨ l.pkt.place % 4 = 3 then [bits (pathStep (BitVec.ofNat 64 u) 0#64) 63 32 * n / 2 ^ 32]
  else match l.pkt.place % 4 with
    | 0 => wrap (if u = 0 then 0 else (l.lastCluster.map map.idxOf).getD 0)
    | 1 => wrap ((lid.toNat + u) % n)
    | _ => wrap (u * 0x9E3779B9 % 2 ^ 32 * n / 2 ^ 32)

/-- Clear the room that a unit takes on its cores (R179); none while some core lacks it. -/
def State.clearRoom (s : State) (lid : Word) (l : Launch) (p : Nat) (cores : List Nat) : Bool × State :=
  let s := (List.range 8).foldl (fun s i =>
    let n := cores.count i
    if n = 0 then s else s.makeRoom (8 * p + i) n l.pkt.nreg lid 1024) s
  ((List.range 8).all fun i => cores.count i == 0 || s.modeFits (8 * p + i) l.prot && (decide (s.residents (8 * p + i) + cores.count i ≤ 512) &&
    decide (s.usedBlocks (8 * p + i) + cores.count i * l.pkt.nreg ≤ ({ s.core (8 * p + i) with detect := l.prot } : Core).blocks)), s)

/-- Start the threads of a unit (R331, R332). -/
def State.startUnit (s : State) (lid : Word) (l : Launch) (p : Nat) (members : List (Nat × Nat)) : State :=
  members.foldl (fun s m =>
    (s.startThread (8 * p + m.2) lid l (BitVec.ofNat 32 m.1) (BitVec.ofNat 64 m.1) l.pkt.entry l.sup []).2) s

/-- Place a unit on the first cluster of its order where it fits (R330 to R333). -/
def State.placeUnit (s : State) (lid : Word) (l : Launch) (u : Nat) : Bool × State :=
  let map := s.logical
  match (l.tries lid u map).findSome? fun x =>
      let p := (map.drop x).headD 0xFFFF
      (s.assign lid l u p false).map fun cores => (p, cores) with
  | none => (false, s)
  | some (p, cores) =>
    match s.clearRoom lid l p cores with
    | (false, s) => (false, s)
    | (true, s) =>
      let s := s.startUnit lid l p ((l.unitTix u).zip cores)
      (true, s.modLaunch lid fun l => { l with
        placed := u + 1
        lastCluster := some p
        lastCore := match cores.getLast? with
          | some c => aset p c l.lastCore
          | none => l.lastCore
        cores := cores.foldl (fun cs c => sinsert (8 * p + c) cs) l.cores
        waitSince := s.ticks
        -- a queue of level 1 stands at E = 1 still (R327, R328)
        e1Since := if l.level = 1 then l.e1Since else none
        runSince := if u = 0 then s.ticks else l.runSince })

/-- Place the units of a launch until one does not fit; the number bounds them. -/
def State.placeUnits (s : State) (lid : Word) : Nat → Bool × State
  | 0 => (true, s)
  | n + 1 => match s.launch? lid with
    | none => (true, s)
    | some l =>
      if l.units ≤ l.placed then (true, s)
      else match s.placeUnit lid l l.placed with
        | (false, s) => (false, s)
        | (true, s) => s.placeUnits lid n

/-- The clusters in which a launch has an instance. -/
def State.instClusters (s : State) (lid : Word) : List Nat :=
  (s.clusters.filter fun c => (aget lid.toNat c.2.insts).isSome).map Prod.fst

/-- A suspended launch can be resumed: a thaw has found it a place (R352), the frames of its instances can be pinned (R205), and every spilled
context of it finds room on its core (R6, R179, R329; assumption 27). -/
def State.resumeFits (s : State) (lid : Word) (l : Launch) (free : Bool) : Bool :=
  (aget lid.toNat s.unplaced).isNone && ((s.instClusters lid).all fun p =>
    free || decide ((s.cluster p).pinnedFrames + l.pkt.scratch / 16384 ≤ 64)) &&
  (let spilled := (s.ofLaunch lid).filter fun th => th.life == .spilled
   spilled.all fun th =>
     let mates := spilled.filter fun o => o.core == th.core
     let sp := s.spillable th.core lid free
     decide (s.residents th.core + mates.length ≤ 512 + sp.length) &&
       decide (s.usedBlocks th.core + (mates.map (·.blocks)).sum ≤ (s.core th.core).blocks + (sp.map (·.blocks)).sum))

/-- A job that its launch's pre-emption reaches: a running copy pauses (R226), a running matrix job finishes (R249). -/
def Job.paused (j : Job) : Job := if j.state = 2 ∧ j.copies then { j with state := 5, held := 2 } else j

/-- A job that its launch's resumption reaches (R226, R316). -/
def Job.unpaused (j : Job) : Job := if j.state = 5 then { j with state := j.held } else j

/-- Change the jobs of a launch. -/
def State.mapJobs (s : State) (lid : Word) (f : Job → Job) : State :=
  let g := fun (k : Cluster) => { k with jobs := k.jobs.map fun j => if j.lid == lid then f j else j }
  { s with clusters := s.clusters.map fun c => (c.1, g c.2) }

/-- Pin or unpin the instances of a launch (R205). -/
def State.pinInsts (s : State) (lid : Word) (pin : Bool) : State :=
  (s.instClusters lid).foldl (fun s p =>
    let i := s.inst p lid
    let s := if pin && !i.pinned then s.takeFrames p lid i.lost.length 64 else s
    let free := (s.cluster p).freeFrames
    s.modInst p lid fun i => { (if pin && !i.pinned then i.reframed free else i) with pinned := pin }) s

/-- Suspension takes a thread off the Roll at its instruction boundary; a faulted one stays (R35, R178). -/
def Thread.suspended (th : Thread) (now : Nat) : Thread :=
  match th.life with
  | .running | .parked => { th with life := .suspended, suspAt := now }
  | _ => th

/-- The threads of a launch leave the Roll, but for those that complete first what they have begun (R143, R178). -/
def State.offRoll (s : State) (lid : Word) : State :=
  s.mapThreads fun th =>
    if th.lid == lid && !th.boot && !s.finishing th then { th.suspended s.ticks with wanted := false } else th

/-- Every thread of a launch has left the Roll (R178). -/
def State.rollLeft (s : State) (lid : Word) : Bool :=
  (s.ofLaunch lid).all fun th => th.boot || (th.life != .running && th.life != .parked)

/-- Pre-empt a launch (R178, R226). -/
def State.preempt (s : State) (lid : Word) : State :=
  ((s.offRoll lid).mapJobs lid Job.paused).modLaunch lid fun l =>
    { l with st := .suspending, e1Since := none }

/-- A pre-empted launch is suspended: its instances are unpinned, its room can be used (R178, R205), and W counts from
now (R327). -/
def State.suspendLaunch (s : State) (lid : Word) : State :=
  (s.pinInsts lid false).modLaunch lid fun l => { l with st := .suspended, waitSince := s.ticks }

/-- Resume a launch: its jobs and its threads go on, and its spilled contexts are read back, the halted and the faulted
ones too (R36, R178, R179, R205, R226). W of its queue goes on from its suspension (R327). -/
def State.resumeLaunch (s : State) (lid : Word) : State :=
  let s := s.modLaunch lid fun l =>
    { l with st := .ready, runSince := s.ticks }
  let s := (s.pinInsts lid true).mapJobs lid Job.unpaused
  let s := s.mapThreads fun th =>
    if th.lid == lid && !th.boot then { th.resumed with wanted := th.life == .spilled } else th
  ((s.ofLaunch lid).filter fun th => th.life == .spilled).foldl (fun s th => (s.refillCtx th).2) s

/-- The candidate outranks a running launch (R328). -/
def State.outranks (s : State) (cand : Launch) (e : Nat) (r : Launch) : Bool :=
  decide (e < r.level) ||
    (r.level == 1 && e == 1 && (match cand.e1Since with
      | some t => decide (t + turnTicks ≤ s.ticks)
      | none => false) && decide (r.runSince + turnTicks ≤ s.ticks))

/-- The launch that is pre-empted for a candidate: of those that it outranks, the greatest LEVEL, then the
most recently dispatched or resumed (R328). -/
def State.preemptee (s : State) (lid : Word) (cand : Launch) (e : Nat) : Option Word :=
  ((sortBy (fun (a b : Nat × Launch) =>
    if a.2.level ≠ b.2.level then decide (b.2.level < a.2.level) else decide (b.2.runSince < a.2.runSince))
    (s.launches.filter fun x => x.1 != lid.toNat && x.2.runs && x.2.level != 0 && s.outranks cand e x.2)).head?).map
      fun x => BitVec.ofNat 32 x.1

/-- Pre-emption can free the room that a candidate lacks (R328). -/
def State.freeable (s : State) (lid : Word) (l : Launch) : Bool :=
  if l.st = .suspended then s.resumeFits lid l true
  else
    let map := s.logical
    (l.tries lid l.placed map).any fun x =>
      (s.assign lid l l.placed ((map.drop x).headD 0xFFFF) true).isSome

/-- The pointer of a level moves past a queue that has been served (R327). -/
def State.passQueue (s : State) (e q : Nat) : State := { s with rr := setAt e ((q + 1) % 64) s.rr }

/-- Serve a queue's candidate: resume it, or place its units until one does not fit (R327). -/
def State.serveOne (s : State) (lid : Word) (l : Launch) (e : Nat) : Bool × State :=
  if l.st = .suspended then
    if !s.resumeFits lid l false then (false, s)
    else
      let s := (s.resumeLaunch lid).passQueue e l.q
      s.placeUnits lid (l.units - l.placed)
  else
    let before := l.placed
    let (ok, s) := s.placeUnits lid (l.units - l.placed)
    let after := ((s.launch? lid).map (·.placed)).getD before
    (ok, if before < after then s.passQueue e l.q else s)

/-- The queue served next: of the lowest E, in turn from the level's pointer (R327). -/
def State.nextQueue (s : State) (skip : List Nat) (limit : Option Nat) : Option (Nat × Word × Launch) :=
  let cands := (List.range 64).filterMap fun q =>
    if skip.contains q then none
    else (s.candidateOf q).bind fun c =>
      let e := s.effLevel c.2
      if limit.any fun m => decide (m < e) then none else some (e, c.1, c.2)
  (sortBy (fun (a b : Nat × Word × Launch) =>
    if a.1 ≠ b.1 then decide (a.1 < b.1)
    else
      let ptr := (s.rr.drop a.1).headD 0
      decide ((a.2.2.q + 64 - ptr) % 64 < (b.2.2.q + 64 - ptr) % 64)) cands).head?

/-- The pre-emptions under way: those whose launch has not been suspended yet (R328). -/
def State.underway (s : State) : List (Word × Word) :=
  s.preempting.filter fun p => (s.launch? p.1).any fun l => l.st == .suspending

/-- The lowest E of the candidates for which a launch is being pre-empted; no queue of higher E is served (R327). -/
def State.serveLimit (s : State) : Option Nat :=
  (s.preempting.filterMap fun p => ((s.launch? p.2).filter Launch.waits).map s.effLevel).min?

/-- Serve queues until each has been served or waits; for a candidate that does not fit, and for which no launch is being
pre-empted yet, one that it outranks is (R327, R328). The number bounds the turns. -/
def State.serveLoop (s : State) (skip : List Nat) (limit : Option Nat) : Nat → State
  | 0 => s
  | n + 1 => match s.nextQueue skip limit with
    | none => s
    | some (e, lid, l) => match s.serveOne lid l e with
      | (true, s) => s.serveLoop skip limit n
      | (false, s) =>
        let l := (s.launch? lid).getD l
        let victim := if !(s.preempting.any fun p => p.2 == lid) && s.freeable lid l then s.preemptee lid l e else none
        match victim with
        | some v => ({ s.preempt v with preempting := (v, lid) :: s.preempting } : State).serveLoop (l.q :: skip) (some e) n
        | none => s.serveLoop (l.q :: skip) limit n

/-- Note the E of every candidate, and when one came to stand at E = 1 (R327, R328). -/
def State.noteLevels (s : State) : State :=
  let cands := (List.range 64).filterMap s.candidateOf
  { s with launches := s.launches.map fun x =>
      if cands.any fun c => c.1.toNat == x.1 then
        let e := s.effLevel x.2
        (x.1, { x.2 with lastE := some e, e1Since := if e = 1 then x.2.e1Since.or (some s.ticks) else none })
      else (x.1, { x.2 with lastE := none, e1Since := none }) }

/-- The scheduler serves (R327); while the Gong stands, it places and dispatches nothing (R348, R349). -/
def State.serve (s : State) : State :=
  if s.stream then s
  else
    let s := s.noteLevels
    let s := { s with preempting := s.underway }
    s.serveLoop [] s.serveLimit (64 + s.launches.length)

/-- The last thread of a pre-empted launch has left the Roll (R178). -/
def execLaunchSuspended (lid : Word) (s : State) : Host.Outcome State Fault Refusal :=
  match s.launch? lid with
  | some l =>
    if l.st = .suspending ∧ s.rollLeft lid then .next (s.suspendLaunch lid).serve else .next s
  | none => .next s

/-- A candidate's E changes (R327). -/
def execAging (q : BitVec 6) (s : State) : Host.Outcome State Fault Refusal :=
  match s.candidateOf q.toNat with
  | some (_, l) => if l.lastE = some (s.effLevel l) then .next s else .next s.serve
  | none => .next s

/-- A level-1 candidate's turn has come (R328). -/
def execLevel1Turn (q : BitVec 6) (s : State) : Host.Outcome State Fault Refusal :=
  match s.candidateOf q.toNat with
  | some (lid, l) =>
    if s.effLevel l = 1 ∧ (s.preemptee lid l 1).isSome then .next s.serve else .next s
  | none => .next s

end Sys2Proof.Machine
end

