-- ==== Sys2Proof/Machine/Launch.lean ====
section
/-! DEFINITION. Launches (R318 to R326, R335, R340, R341): queue registers, packets and their refusal,
acceptance, after-tokens, completion cells, and the ends that the watchdog and an abort make. -/

namespace Sys2Proof.Machine

/-- EN of a queue (R318). -/
def Queue.en (q : Queue) : Bool := dbit q.lqd 7
/-- SUP of a queue (R318). -/
def Queue.sup (q : Queue) : Bool := dbit q.lqd 6
/-- ASN of a queue (R318). -/
def Queue.asn (q : Queue) : BitVec 16 := q.lqd.extractLsb' 48 16
/-- LEVEL of a queue, where 0 is honoured only with SUP = 1 (R318). -/
def Queue.level (q : Queue) : Nat :=
  let l := bits q.lqd 3 2
  if l = 0 ∧ !q.sup then 1 else l

/-- A write to `lqd` (R318). -/
def Queue.writeLqd (q : Queue) (v : DWord) : Queue :=
  if q.en then { q with lqd := (q.lqd &&& ~~~0x80#64) ||| (v &&& 0x80#64) }
  else { q with lqd := v &&& ~~~3#64 }

/-- A write to `lqd` (R318). -/
def execLqdWrite (q : BitVec 6) (v : DWord) (s : State) : Host.Outcome State Fault Refusal :=
  .next (s.modQueue q.toNat fun k => k.writeLqd v)

/-- A write to TAIL (R318, R319). -/
def execDoorbell (q : BitVec 6) (tail : BitVec 16) (s : State) : Host.Outcome State Fault Refusal :=
  .next (s.modQueue q.toNat fun k => { k with tail := tail })

/-- The fields of a packet (R321). -/
def packetOf (bs : List Byte) : Packet :=
  let f := fun o n => field bs o n
  let d := fun o => BitVec.ofNat 64 (f o 8)
  { entry := d 0, tcnt := BitVec.ofNat 32 (f 8 4), nreg := f 12 1, place := f 13 1, flags := BitVec.ofNat 16 (f 14 2),
    scratch := f 16 4, cgrp := f 20 4, seed := BitVec.ofNat 32 (f 24 4), wdog := f 28 4, tvec := d 32, farea := d 40,
    fanum := f 48 4, qlog := f 52 1, dbuf := d 56, ccell := d 64, dbn := f 72 4, after := [d 80, d 88, d 96, d 104] }

/-- The 128 bytes of an accepted packet, its reserved bytes 0 (R321). -/
def Packet.bytes (p : Packet) : List Byte :=
  leBytes 8 p.entry.toNat ++ leBytes 4 p.tcnt.toNat ++ leBytes 1 p.nreg ++ leBytes 1 p.place ++ leBytes 2 p.flags.toNat ++
  leBytes 4 p.scratch ++ leBytes 4 p.cgrp ++ leBytes 4 p.seed.toNat ++ leBytes 4 p.wdog ++ leBytes 8 p.tvec.toNat ++
  leBytes 8 p.farea.toNat ++ leBytes 4 p.fanum ++ leBytes 4 p.qlog ++ leBytes 8 p.dbuf.toNat ++ leBytes 8 p.ccell.toNat ++
  leBytes 8 p.dbn ++ (List.range 4).flatMap (fun i => leBytes 8 ((p.after[i]?).getD 0#64).toNat) ++ leBytes 16 0

/-- An address of a packet as acceptance translates it, with the permission that is asked for (R319, R320):
the physical address and the bytes left in its page. -/
def State.packetPa (s : State) (asn : BitVec 16) (sup : Bool) (va : DWord) (k : AccKind) : Option (Nat × Nat) :=
  if !canonical va then none
  else match s.walkXl asn va with
    | .hit e =>
      if e.permits sup k then some (e.pa va, 2 ^ pageShift e.size - va.toNat % 2 ^ pageShift e.size) else none
    | _ => none

/-- The address of a sync cell that a packet names: a multiple of 128 that translates (R320, R323). -/
def State.cellPa (s : State) (asn : BitVec 16) (sup : Bool) (va : DWord) : Option Nat :=
  if va.toNat % 128 ≠ 0 then none else (s.packetPa asn sup va .atomic).map Prod.fst

/-- The cells of the valid after-tokens (R323). -/
def Packet.tokens (p : Packet) : List DWord := (p.after.filter fun t => dbit t 0).map fun t => t &&& ~~~127#64

/-- A power of two. -/
def isPow2 (n : Nat) : Bool := n != 0 && 2 ^ Nat.log2 n == n

/-- The fault area lies in one page that can be written, or there is none (R320). -/
def State.fareaOk (s : State) (q : Queue) (p : Packet) : Bool :=
  p.farea == 0#64 || p.fanum == 0 ||
    (p.farea.toNat % 64 == 0 && match s.packetPa q.asn q.sup p.farea .write with
      | some (_, left) => decide (64 * p.fanum ≤ left)
      | none => false)

/-- The refusal code of a packet, 0 for none; code 1 is the device-side one (R320). -/
def State.refusal (s : State) (q : Queue) (p : Packet) (device : Bool) : Nat :=
  let d := p.flags.getLsbD 0
  let red := p.flags.toNat / 64 % 4
  let limit := min 512 ((if p.flags.getLsbD 1 then 4608 else 4096) / p.nreg)
  if device ∧ !q.en then 1
  else if !canonical p.entry ∨ p.entry.toNat % 4 ≠ 0 then 2
  else if p.tcnt = 0#32 ∨ p.nreg = 0 ∨ 8 < p.nreg then 3
  else if p.scratch % 16384 ≠ 0 ∨ 1048576 < p.scratch then 4
  else if 4096 < p.cgrp ∨ 8 * limit < p.cgrp then 5
  else if d ≠ dbit q.lqd 5 ∨ (p.flags.getLsbD 4 ∧ !dbit q.lqd 4) then 6
  else if d ∧ (p.qlog < 8 ∨ 20 < p.qlog ∨ p.dbuf.toNat % 4096 ≠ 0 ∨ p.dbn = 0 ∨
      (p.cgrp = 0 ∧ (p.scratch ≠ 0 ∨ p.flags.getLsbD 2)) ∨ (2 ≤ red ∧ !isPow2 p.cgrp)) then 7
  else if !s.fareaOk q p then 8
  else if (p.ccell ≠ 0#64 ∧ (s.cellPa q.asn q.sup p.ccell).isNone) ∨ (p.tokens.any fun t => (s.cellPa q.asn q.sup t).isNone) then 9
  else 0

/-- The page for which the translations of a packet's addresses, and the cell of a packet that is refused, wait, since a
peer holds it (R320, R375). -/
def State.packetHeld (s : State) (q : Queue) (p : Packet) (device : Bool) : Option Nat :=
  let named := (if p.farea = 0#64 ∨ p.fanum = 0 then [] else [p.farea]) ++ (if p.ccell = 0#64 then [] else [p.ccell])
  match (named ++ p.tokens).findSome? (s.walkHeld q.asn) with
  | some page => some page
  | none =>
    if s.refusal q p device = 0 ∨ p.ccell = 0#64 then none
    else ((s.cellPa q.asn q.sup p.ccell).filter fun pa => s.heldByPeer (s.homeAddr pa)).map fun pa => s.homeAddr pa / 65536

/-- Write a completion cell at its home, a peer's in that module, as a sync-cell operation does (R325, R376), with the time of
that home (R378); the scheduler's write has no ID (assumption 57). -/
def State.writeCell (s : State) (pa status : Nat) (lid : Word) : State :=
  let gen := field (s.homeRead pa 128) 28 4
  let (now, s) := s.clockAt pa
  let t := now.toNat
  if (s.place pa).isMemory then
    s.ownerWrite pa (leBytes 8 (status * 2 ^ 56 + lid.toNat) ++ leBytes 8 t ++ leBytes 8 t ++ leBytes 4 1 ++
      leBytes 4 (gen + 1) ++ List.replicate 96 0#8)
  else s.refuseNameless pa .write

/-- The next launch id from a number on: 0 and live ids are skipped (R319, R352). -/
def State.freshLid (s : State) (n : Word) : Nat → Word
  | 0 => n
  | k + 1 => if n = 0#32 ∨ (s.launch? n).isSome then s.freshLid (n + 1#32) k else n

/-- STATUS of the cell of an after-token (R323, R325); a hole or a register block gives none (R367, R368). -/
def State.tokenStatus (s : State) (pa : Nat) : Nat := if (s.place pa).isMemory then bits (s.memDword pa) 63 56 else 0

/-- The scheduler's reads of the cells of after-tokens: each performs at its home, a peer's in that module (R323, R376), and
one of a hole or a register block is refused, counted and reported (R311, R367, R368, assumption 57). -/
def State.readTokens (s : State) (l : Launch) : State :=
  l.tokens.foldl (fun s pa => if (s.place pa).isMemory then s.returnPage pa true else s.refuseNameless pa .read) s

/-- A waiting launch becomes ready, or fails (R323). -/
def State.settleTokens (s : State) (lid : Word) : State :=
  match s.launch? lid with
  | none => s
  | some l =>
    if l.st ≠ .waiting then s
    else
      let s := s.readTokens l
      let sts := l.tokens.map s.tokenStatus
      if sts.any fun x => decide (2 ≤ x) && decide (x ≤ 5) then s.modLaunch lid fun l => { l with st := .ending 5 }
      else if sts.all fun x => x == 1 then (s.modLaunch lid fun l => { l with st := .ready }).serve
      else s

/-- Accept a packet into a queue (R319, R324); the scheduler's read of its tokens' cells waits for those that a peer
holds (R375). -/
def State.accept (s : State) (qn : Nat) (p : Packet) : State :=
  let q := s.queue qn
  let lid := s.freshLid s.nextLid 5000
  let l : Launch :=
    { q := qn, asn := q.asn, sup := q.sup, level := q.level, pkt := p
      seed := if p.flags.getLsbD 3 then s.dseed else p.seed
      tokens := p.tokens.filterMap (s.cellPa q.asn q.sup)
      ccell := if p.ccell = 0#64 then none else s.cellPa q.asn q.sup p.ccell
      order := s.accepted, waitSince := s.ticks }
  let s := { s with launches := aset lid.toNat l s.launches, nextLid := lid + 1#32, accepted := s.accepted + 1 }
  (if l.tokens.any fun a => s.heldByPeer (s.homeAddr a) then s else s.settleTokens lid).serve

/-- A refused packet's cell (R320). -/
def State.refuseCell (s : State) (qn : Nat) (p : Packet) : State :=
  if p.ccell = 0#64 then s
  else match s.cellPa (s.queue qn).asn (s.queue qn).sup p.ccell with
    | some pa => s.writeCell pa 4 0#32
    | none => s

/-- The walks that a packet's checks make, and the one for the cell of a packet that is refused: their refused reads are
counted and reported (R311, R320). -/
def State.notePacket (s : State) (asn : BitVec 16) (p : Packet) (code : Nat) : State :=
  let farea := if p.farea = 0#64 ∨ p.fanum = 0 ∨ p.farea.toNat % 64 ≠ 0 then [] else [p.farea]
  let ccell := if p.ccell = 0#64 ∨ p.ccell.toNat % 128 ≠ 0 then [] else [p.ccell]
  let named := (if code = 0 ∨ 8 ≤ code then farea else []) ++ ccell ++ (if code = 0 ∨ code = 9 then p.tokens else [])
  named.foldl (fun s va => s.noteXl asn va) s

/-- Accept or refuse a packet; the refusal code (R319, R320). -/
def State.offer (s : State) (qn : Nat) (bs : List Byte) (device : Bool) : Nat × State :=
  let p := packetOf bs
  let c := s.refusal (s.queue qn) p device
  let s := s.notePacket (s.queue qn).asn p c
  (c, if c = 0 then s.accept qn p else s.refuseCell qn p)

/-- The queue, or the package, holds no room for another launch record (R319). -/
def State.recordsFull (s : State) (qn : Nat) : Bool :=
  decide (4096 ≤ s.launches.length) || decide (256 ≤ (s.launches.filter fun x => x.2.q == qn).length)

/-- The queue has a packet to read (R318, R319, R348). -/
def State.packetWaits (s : State) (qn : Nat) : Bool :=
  let q := s.queue qn
  q.en && q.head != q.tail && !s.recordsFull qn && !s.stream

/-- The address of the packet that HEAD of a queue names (R318). -/
def State.packetAddr (s : State) (qn : Nat) : Nat :=
  let k := s.queue qn
  bits k.lqd 47 8 * 4096 + 128 * (k.head.toNat % 2 ^ k.log.toNat)

/-- The scheduler reads packet HEAD and accepts or refuses it (R319). -/
def execPacketAcceptance (q : BitVec 6) (s : State) : Host.Outcome State Fault Refusal :=
  let n := q.toNat
  if s.packetWaits n then
    let s' := (s.offer n (s.homeRead (s.packetAddr n) 128) false).2
    .next (s'.modQueue n fun k => { k with head := k.head + 1#16 })
  else .next s

/-- A watched after-token cell has changed (R323). -/
def execLaunchReady (lid : Word) (s : State) : Host.Outcome State Fault Refusal := .next (s.settleTokens lid)

/-- Nothing of a launch is left in the package but its record (R200, R325). -/
def State.launchEmpty (s : State) (lid : Word) (l : Launch) : Bool :=
  (s.ofLaunch lid).isEmpty && l.pend.isEmpty && (aget lid.toNat s.unplaced).isNone &&
    s.cores.all (fun c => c.2.deque.all fun e => e.lid != lid) &&
    s.clusters.all (fun c => c.2.jobs.all fun j => j.lid != lid)

/-- The STATUS of a launch that can be reported (R325), none while it cannot. -/
def State.completes (s : State) (lid : Word) (l : Launch) : Option Nat :=
  if !s.launchEmpty lid l then none
  else match l.st with
    | .ending status => some status
    | .waiting => none
    | _ => if l.units ≤ l.placed ∧ !s.stream then some 1 else none

/-- A launch is complete: its cell is written and its record is free (R325, R335). -/
def execLaunchCompletion (lid : Word) (s : State) : Host.Outcome State Fault Refusal :=
  match s.launch? lid with
  | none => .next s
  | some l => match s.completes lid l with
    | none => .next s
    | some status =>
      let s := match l.ccell with
        | some pa => s.writeCell pa status lid
        | none => s
      let s := { s with launches := adel lid.toNat s.launches }
      let keys := (List.range 64).map fun q => Key.launchQueue (BitVec.ofNat 6 q)
      .next (s.chimes keys).serve

/-- End a launch with a STATUS (R340): its threads end as by `tkill`, its entries and pending decrements are
discarded, and its jobs end in STATE 4. -/
def State.endLaunch (s : State) (lid : Word) (status : Nat) : State :=
  match s.launch? lid with
  | none => s
  | some l =>
    match l.st with
    | .ending _ => s
    | _ =>
      let s := s.modLaunch lid fun l => { l with st := .ending status, engines := false }
      let s : State := { s with unplaced := adel lid.toNat s.unplaced }
      let s := ((s.ofLaunch lid).map Thread.ckey).foldl State.kill s
      let drop := fun (k : Core) => { k with deque := k.deque.filter fun e => e.lid != lid }
      let s : State := { s with cores := s.cores.map fun c => (c.1, drop c.2) }
      let s := s.modLaunch lid fun l => { l with pend := [], boundary := false }
      let jobs := s.clusters.flatMap fun c => (c.2.jobs.filter fun j => j.lid == lid).map fun j => (c.1, j)
      (jobs.foldl (fun s x => s.endJob x.1 x.2 4) s).serve

/-- The watchdog's limit is reached (R340). -/
def Launch.overdue (l : Launch) : Bool :=
  l.pkt.wdog != 0 && decide (l.pkt.wdog * 9000000 ≤ l.active) && match l.st with
    | .ending _ => false
    | _ => true

/-- The watchdog ends a launch (R340). -/
def execWatchdog (lid : Word) (s : State) : Host.Outcome State Fault Refusal :=
  match s.launch? lid with
  | some l => if l.overdue then .next (s.endLaunch lid 2) else .next s
  | none => .next s

/-- A write to `lqk` (R341). -/
def execAbort (q : BitVec 6) (lid : Word) (s : State) : Host.Outcome State Fault Refusal :=
  let s := s.modQueue q.toNat fun k => { k with lqk := lid }
  match s.launch? lid with
  | some l => if l.q = q.toNat then .next (s.endLaunch lid 3) else .next s
  | none => .next s

/-- A launch that has been dispatched, and is neither suspended nor ending: while its threads leave the Roll it is not
suspended yet (R340). -/
def Launch.counts (l : Launch) : Bool := (l.st == .ready || l.st == .suspending) && decide (0 < l.placed)

/-- Active time passes for the launches that count it: dispatched, not suspended, not frozen, as a launch is once its threads
have left the Roll for the Gong, and with no thread debug-halted (R340, R348). -/
def State.countActive (s : State) (ticks : Nat) : State :=
  { s with launches := s.launches.map fun x =>
      if x.2.counts && !(s.stream && decide (3 ≤ s.gongStep)) && !((s.ofLaunch (BitVec.ofNat 32 x.1)).any fun th => th.halted) then
        (x.1, { x.2 with active := x.2.active + ticks })
      else x }

/-- `launch` (R335). A thread of no launch has no queue to offer to (assumption 63). -/
def execLaunch (d a : RegNo) (s : State) : Host.Outcome State Fault Refusal :=
  let sh : Shape := { a := .w a, dst := .g d, det := true }
  s.within sh fun v s =>
    let va := wOf v.a
    match s.launch? s.t.lid with
    | none => s.ill
    | some l =>
      ((s.homeCheck va 128 .read).andThen fun pa s =>
        let s := s.release s.t.core .system
        if s.recordsFull l.q then .stop (s.park 9 (.launchQueue (BitVec.ofNat 6 l.q)))
        else (s.readHome pa va 128 .read).andThen fun _ s =>
          match s.packetHeld (s.queue l.q) (packetOf (s.homeRead pa 128)) true with
          | some page => .stop ((s.recall page true).wait [])
          | none =>
            let r := s.offer l.q (s.homeRead pa 128) true
            .ok r.1 r.2).run fun c s => s.put sh [BitVec.ofNat 32 c] noFlags

end Sys2Proof.Machine
end

