-- ==== Sys2Proof/Machine/Tasks.lean ====
section
/-! DEFINITION. Tasks (R137, R184 to R200): the end of a thread, `spawn`, `tdone`, `join`, `tkill`, `tresume`,
and the take of a deque entry. -/

namespace Sys2Proof.Machine

/-- An indivisible update of a join block at its home, after Release(system); it answers the block's old
16 bytes (R131, R184). -/
def State.joinAt (s : State) (pa : Nat) (va : DWord) (f : DWord → DWord → DWord × DWord) : Res DWord :=
  let c := s.t.core
  let s := s.release c .system
  let s := s.atHome c (s.homeAddr pa)
  (s.readHome pa va 16 .atomic).andThen fun old s =>
    let next := BitVec.ofNat 64 (old / 2 ^ 64)
    let r := f (BitVec.ofNat 64 old) next
    .ok next (s.atomicWrite c pa (leBytes 8 r.1.toNat ++ leBytes 8 r.2.toNat))

/-- `exit` (R137, R198). -/
def execExit (s : State) : Host.Outcome State Fault Refusal :=
  s.within { det := true } fun _ s => s.kill s.t.ckey

/-- A push that finds the chip and the overflow area of a core full parks on that area's next record, or an access to a
record of the area on that one, unless the fault service has declared it unresolvable (R187, R299). -/
def State.parkDeque (s : State) (c slot : Nat) (acc : AccKind) : State :=
  let k := s.core c
  let va := k.slotVa slot
  let asn := k.dqa.extractLsb' 0 16
  let die := dieOf s.t.core
  let r : FaultRec := { s.faultRec va 0x0A 1 (some (acc, 64)) with asn := asn }
  match s.walkXl asn va with
  | .bad => (s.inSpace asn).raise 0x0B va (some (acc, 64))
  | .held page => (s.recall page true).wait []
  | x =>
    let s := (s.uncoreRefused 2 asn va acc (some c)).park 6 (.page asn (vpnOf va))
    if x = .mig ∨ (s.die die).outst.contains (asn, vpnOf va) then s
    else (s.outstand die (asn, vpnOf va)).postRecord die r (some s.t.ckey) none

/-- A push into a core's deque that has no room parks (R187). -/
def State.parkPush (s : State) (c : Nat) : State := s.parkDeque c (s.core c).overflow .write

/-- The entry that a `tdone` meets is there: on chip, or read back from the overflow area (R187, R308). It waits while a
peer holds the entry's page, and parks as a push into a full deque does where the page does not translate (assumption 46). -/
def State.meetEntry (s : State) (e : Entry) : Res PUnit :=
  let k := s.core s.t.core
  match e.slot.bind fun i => s.uncoreHeld (k.dqa.extractLsb' 0 16) (k.slotVa i) with
  | some page => .stop ((s.recall page true).wait [])
  | none => match s.fetchEntry s.t.core e with
    | (some s, _) => .ok .unit s
    | (none, _) => .stop (s.parkDeque s.t.core (e.slot.getD 0) .read)

/-- `tdone` (R191): it resumes the newest entry's continuation, or retires at a stub, or exits. -/
def execTdone (s : State) : Host.Outcome State Fault Refusal :=
  s.within { extraW := [2, 3], det := true } fun _ s =>
    let c := s.t.core
    match ((s.core c).owned s.t.handle).getLast? with
    | none => s.kill s.t.ckey
    | some e =>
      ((s.meetEntry e).andThen fun _ s => (s.homeCheck e.join 16 .atomic).andThen fun pa s =>
        s.joinAt pa e.join fun pend next => (pend - 1#64, next)).run fun _ s =>
        let s := s.modCore c fun k => { k with deque := k.deque.filter fun x => x ≠ e }
        if e.kind = 1 then
          ((s.writeRegs s.src [(2, e.sp), (3, e.fp)]).modT fun t => { t with path := e.path }).jump e.pc
        else s.retire s.t.ckey

/-- `join` (R192). -/
def execJoin (a : RegNo) (s : State) : Host.Outcome State Fault Refusal :=
  let sh : Shape := { a := .w a, det := true }
  s.within sh fun v s =>
    let ja := wOf v.a
    ((s.homeCheck ja 16 .read).andThen fun pa s =>
      (s.readHome pa ja 8 .read).andThen fun pend s =>
        if pend = 0 then .ok () s else .stop (s.park 3 (.join (s.homeAddr pa / 128 * 128)))).run fun _ s =>
      (s.acquire s.t.core .system).fin sh

/-- The thread that a handle names for the current one: of its own launch in user mode, and with no kill
pending (R152, R196, R197, R353). -/
def State.taskTarget (s : State) (h : Word) : Option Thread :=
  match s.byHandle (s.renamed s.t.lid h) with
  | some th => if (s.t.mode || th.lid == s.t.lid) && !th.killPend then some th else none
  | none => none

/-- `tkill` (R196). -/
def execTkill (a : RegNo) (s : State) : Host.Outcome State Fault Refusal :=
  let sh : Shape := { a := .g a, det := true }
  s.within sh fun v s =>
    let s := s.fin sh
    match s.taskTarget (gOf v.a) with
    | none => s
    | some th =>
      if th.ckey = s.t.ckey then s.modT fun t => { t with killPend := true }
      else if th.life = .spilled then
        s.putThread ({ th with killPend := true } : Thread).flagged
      -- a thread whose bundle issues in the same cycle completes it first (R37)
      else if s.issue.contains th.ckey then s.putThread { th with killPend := true }
      else s.kill th.ckey

/-- RESUME at a physical address, as the issuer of a `tresume` finds it at its home: its own earlier stores count
(R123, R126, R147). The target checks the read as the issuer's (R308, R310, R311, R368). -/
def State.readResume (s : State) (pa : Nat) (va : DWord) : Res DWord :=
  if !s.atMemory pa .read then .stop (s.refusedRead pa va 8 .read)
  else
  let s := (s.returnPage pa true).ownHome s.t.core pa
  if s.homePois pa 8 && !(s.t.det && buffered s.t.sbuf (s.homeAddr pa) 8) then .stop (s.raise 0x0C va (some (.read, 8)))
  else
    let bytes := if s.t.det then overlay s.t.sbuf (s.homeAddr pa) (s.committed pa 8) else s.homeRead pa 8
    .ok (BitVec.ofNat 64 (leNat bytes)) s

/-- RESUME of a faulted thread's latest record, as `tresume` reads it (R147, R197): a kind-2 record is read at its
virtual address in the target's address space, with the checks of R296 in the issuer's mode (assumption 62), and a record that
its die still holds pending parks the issuer. -/
def State.resumeOf (s : State) (th : Thread) (r : FaultRef) : Res DWord :=
  if r.kind = 2 then
    let va := r.va + 32#64
    ((s.inSpace th.asn).translateIn th.asn va 8 .read).andThen fun pa s =>
      (s.settle pa .read).andThen fun pa s => (s.readResume pa va).andThen fun v s => .ok v s.ownSpace
  else if r.elsewhere then .ok r.pc s
  else
    let d := (s.die r.die).fqd
    match r.recNo with
    | none => .stop (s.park 1 (.line (ringBase d / 128 * 128)))
    | some i =>
      let pa := ringBase d + 128 + 64 * (i.toNat % 2 ^ ringLog d) + 32
      if ((s.die r.die).fprod - 1#32 - i).toNat < 2 ^ ringLog d then s.readResume pa (BitVec.ofNat 64 pa)
      else .ok r.pc s

/-- `tresume` (R147, R197). -/
def execTresume (a : RegNo) (s : State) : Host.Outcome State Fault Refusal :=
  let sh : Shape := { a := .g a }
  s.within sh fun v s =>
    match s.taskTarget (gOf v.a) with
    | none => s.fin sh
    | some th => match th.frec with
      | none => s.fin sh
      | some r => (s.resumeOf th r).run fun target s =>
        match targetCheck none target with
        | some cause => s.raise cause target none
        | none =>
          let s := s.fin sh
          if th.life = .spilled then
            { s.putThread { th with resumeAt := some target } with
              agenda := s.agenda ++ [.refill th.core th.num] }
          else s.proceed th target

/-- The entry that a `spawn` pushes (R190). -/
def State.spawnEntry (s : State) (ja j : DWord) : Entry :=
  { kind := 1, pc := s.fr.next, join := ja, path := pathStep s.t.path (2#64 * j), sp := s.reg 2, fp := s.reg 3,
    tix := s.t.tix, lid := s.t.lid, owner := s.t.handle, sidx := j.extractLsb' 0 32, asn := s.t.asn, mode := s.t.mode,
    det := s.t.det }

/-- The core to whose deque a `spawn` of a deterministic launch sends its continuation (R195). -/
def State.spawnCore (s : State) (path : DWord) : Nat :=
  match s.launch? s.t.lid with
  | some l => if s.t.det then pathCore (l.pathCores s.t.core) path else s.t.core
  | none => s.t.core

/-- The issuer's deque without its stub, which the conversion of a continuation replaces (R194, R195). -/
def State.dropStub (s : State) : State :=
  let old := stubOf (s.core s.t.core).deque s.t.handle
  if s.t.det then s.modCore s.t.core fun k => { k with deque := k.deque.filter fun x => some x ≠ old } else s

/-- The core whose deque lacks the room that a `spawn` needs there: the issuer's own a free slot, before anything else
(R190), and in a deterministic launch, after its stub has given way, each deque that the conversion fills, where the path
sends the continuation (R187, R195). -/
def State.fullDeque (s : State) (path : DWord) : Option Nat :=
  let c := s.t.core
  let d := s.spawnCore path
  let s' := s.dropStub
  let own := if s.t.det && d == c then 2 else 1
  if !s.dequeRoom c 1 then some c else if !s'.dequeRoom c own then some c else if !s'.dequeRoom d 1 then some d else none

/-- The push of a `spawn` (R186, R190); in a deterministic launch the continuation is converted at once and
goes where its path sends it (R195). -/
def State.pushSpawn (s : State) (e : Entry) : State :=
  let c := s.t.core
  if s.t.det then
    let old := stubOf (s.core c).deque e.owner
    (s.dropStub.pushEntry c e.stub).pushEntry (s.spawnCore e.path)
      { e with orphan := true, cjoin := (old.map (·.join)).getD 0#64 }
  else s.pushEntry c e

/-- `spawn` (R190). -/
def execSpawn (a : RegNo) (off : BitVec 17) (s : State) : Host.Outcome State Fault Refusal :=
  let sh : Shape := { a := .w a, extraR := [2, 3], det := true }
  s.within sh fun v s =>
    let ja := wOf v.a
    let target := offTarget s.fr.first off
    match targetCheck (some s.fr.first) target with
    | some cause => s.raise cause target none
    | none =>
      ((s.homeCheck ja 16 .atomic).andThen fun pa s =>
        -- the index that the home gives below: nothing performs between
        match s.fullDeque (pathStep s.t.path (2#64 * s.memDword (pa + 8))) with
        | some c => .stop (s.parkPush c)
        | none => s.joinAt pa ja fun pend next => (pend + 1#64, next + 1#64)).run fun j s =>
        ((s.pushSpawn (s.spawnEntry ja j)).modT fun t =>
          { t with path := pathStep t.path (2#64 * j + 1#64) }).jump target |>.fin sh

/-- The thread pushes the stub that it owes before its next bundle, and parks while there is no room (R187). -/
def State.payStub (s : State) : Res PUnit :=
  match s.t.owed with
  | none => .ok .unit s
  | some st =>
    if s.dequeRoom s.t.core 1 then .ok .unit ((s.pushEntry s.t.core st).modT fun t => { t with owed := none })
    else .stop (s.parkPush s.t.core)

/-- A core may start a thread from an entry (R194, R338). One of a deterministic launch is taken by the core to which its
path sent it, which need hold no context of the launch (R195, assumption 23). -/
def State.mayTake (s : State) (c : Nat) (own : Bool) (e : Entry) : Bool :=
  match s.launch? e.lid with
  | none => false
  | some l =>
    let g := if l.pkt.scratch ≠ 0 then l.pkt.cgrp else 0
    l.st == .ready && !s.stream && s.fits c l.pkt.nreg (l.pkt.flags.getLsbD 1) &&
    s.instFits (clusterOf c) e.lid l.pkt.scratch &&
    (!e.det || decide (s.freeCommit e.lid < l.pkt.dbn)) &&
    ((own && e.det) || (s.ofCore c).any fun th =>
      th.resident && th.lid == e.lid && (g == 0 || th.tix.toNat / g == e.tix.toNat / g))

/-- The entry that a core takes from a deque: kind 3 before kind 1, oldest first (R194). -/
def State.pickEntry (s : State) (c v : Nat) : Option Entry :=
  let ok := fun kind (e : Entry) => e.kind == kind && s.mayTake c (c == v) e && (c == v || !e.det)
  ((s.core v).deque.find? (ok 3)).or ((s.core v).deque.find? (ok 1))

/-- The cores that a core may ask: those that hold contexts of a launch of which it holds one (R194), and those whose
deques hold entries of such a launch though no context of it is left there, since takers find a killed thread's
continuations where they stood (R196, R198, assumption 24). -/
def State.victims (s : State) (c : Nat) : List Nat :=
  let lids := ((s.ofCore c).filter Thread.resident).map (·.lid)
  let left := s.cores.filter fun k => k.1 != c && k.2.deque.any fun e => e.kind != 2 && lids.contains e.lid
  left.foldl (fun l k => sinsert k.1 l)
    ((s.threads.filter fun th => th.core != c && lids.contains th.lid).foldl (fun l th => sinsert th.core l) [])

/-- A thread starts from an entry, in a core that takes it from a deque (R193, R194). A stub that finds no room is left for
the thread to push (R187, `State.payStub`). -/
def State.startEntry (s : State) (c v : Nat) (e : Entry) : State :=
  match s.launch? e.lid with
  | none => s
  | some l =>
    let (e', dq) :=
      if e.kind = 1 ∧ !e.orphan then convertTaken (s.core v).deque e
      else (e, (s.core v).deque.filter fun x => x ≠ e)
    let s := s.modCore v fun k => { k with deque := dq }
    let s := dq.foldl (fun s x => s.storeEntry v x) s
    let more := if e.kind = 3 then [(4, e.owner), (5, e.join.extractLsb' 0 32), (6, e.join.extractLsb' 32 32)] else []
    let (key, s) := s.startThread c e.lid l e.tix e.path e.pc e.mode ([(2, e.sp), (3, e.fp)] ++ more)
    let s := match s.thread? key with
      | some th =>
        if e'.cjoin = 0#64 then s
        else
          let stub : Entry := { e'.stub with join := e'.cjoin, owner := th.handle, slot := none }
          if s.dequeRoom c 1 then s.pushEntry c stub else s.putThread { th with owed := some stub }
      | none => s
    s.acquire c .system

/-- A core takes an entry from a deque, once that is back from the overflow area (R187, R194). -/
def State.takeFrom (s : State) (c v : Nat) (e : Entry) : State :=
  match s.fetchEntry v e with
  | (some s, _) => s.startEntry c v e
  | (none, s) => s

/-- A core takes an entry, from its own deque or from a victim that its steal generator picks (R194,
assumption 24). -/
def execTakeEntry (core : Nat) (s : State) : Host.Outcome State Fault Refusal :=
  match s.pickEntry core core with
  | some e => .next (s.takeFrom core core e)
  | none =>
    let vs := s.victims core
    let (n, s) := s.draw
    match (vs.drop (n % (vs.length + 1))).head? with
    | none => .next s
    | some v => match s.pickEntry core v with
      | some e => .next (s.takeFrom core v e)
      | none => .next s

/-- The spill engine writes a context, where it has cause to (R179). -/
def execSpill (core num : Nat) (s : State) : Host.Outcome State Fault Refusal :=
  match s.thread? (1024 * core + num) with
  | some th => if s.wantsSpill th then .next (s.spillCtx th false) else .next s
  | none => .next s

/-- A spilled context whose launch has resumed, or that a `tresume` names, is read back, where there is room for it (R179,
R183). -/
def execRefill (core num : Nat) (s : State) : Host.Outcome State Fault Refusal :=
  match s.thread? (1024 * core + num) with
  | some th => if s.refills th then .next (s.refillCtx th).2 else .next s
  | none => .next s

end Sys2Proof.Machine
end

