-- ==== Sys2Proof/Machine/Det.lean ====
section
/-! DEFINITION. Deterministic launches (R126, R287, R336 to R338): the end of a quantum, and the boundary at
which buffered stores commit, operations perform, engine jobs run and threads go on. -/

namespace Sys2Proof.Machine

/-- A thread's 2^QLOG-th bundle of its quantum has completed (R336); a debugger or a pre-emption may have taken the thread
off the Roll since. -/
def execQuantumEnd (core num : Nat) (s : State) : Host.Outcome State Fault Refusal :=
  match s.thread? (1024 * core + num) with
  | some th =>
    if th.det && (th.life == .running || th.life == .suspended && th.park.isNone) then
      .next (s.putThread { th with qended := true })
    else .next s
  | none => .next s

/-- A live thread does not hold a boundary up: it has ended its quantum, or it is faulted (R336, R337,
assumption 17). -/
def Thread.atBoundary (th : Thread) : Bool :=
  !th.halted && (th.life == .faulted || ((th.life == .running || th.life == .parked) && th.qended)) &&
    !(th.life == .parked && (th.park.any fun p => p.reason == 6))

/-- The jobs of a launch, by cluster and identity, in order of issue. -/
def State.jobsOf (s : State) (lid : Word) : List (Nat × Job) :=
  s.clusters.flatMap fun c => (c.2.jobs.filter fun j => j.lid == lid).map fun j => (c.1, j)

/-- A job that can run at a boundary (R337). -/
def State.canRun (s : State) (cl : Nat) (j : Job) : Bool := s.startable cl j || s.runnable j

/-- An entry of a deterministic launch that its core can take now, or read back to take (R187, R195, R338). -/
def State.entryDue (s : State) (c : Nat) (e : Entry) : Bool :=
  e.kind != 2 && s.mayTake c true e && e.slot.all fun i =>
    let k := s.core c
    let asn := k.dqa.extractLsb' 0 16
    (s.uncoreHeld asn (k.slotVa i)).isSome || (s.uncorePa 2 asn (k.slotVa i) .read).isSome

/-- A continuation or a handler of a launch that can start now; a boundary waits until it has, so that the boundary at which
its operations perform is no matter of time (R195, R337, R339, assumption 17). -/
def State.entriesDue (s : State) (lid : Word) : Bool :=
  s.cores.any fun c => c.2.deque.any fun e => e.lid == lid && s.entryDue c.1 e

/-- The boundary of a deterministic launch can begin (R337): its threads' buffered stores hold translations that stand
(R298). -/
def State.boundaryReady (s : State) (lid : Word) (l : Launch) : Bool :=
  let ths := s.ofLaunch lid
  let jobs := s.jobsOf lid
  l.det && l.st == .ready && !l.boundary && !l.engines && !s.stream && ths.all Thread.atBoundary &&
    ths.all (fun th => !th.stale) && !s.entriesDue lid && (jobs.all fun x => x.2.state != 3) && (!ths.isEmpty || jobs.any fun x => s.canRun x.1 x.2)

/-- The bytes of 8-byte stores to register blocks in a store buffer, by address. -/
def State.blockStores (s : State) (sbuf : List Host.Cell) : List (Nat × DWord) :=
  (sbuf.filter fun c => c.1 % 8 == 0 && (s.place c.1).isBlock).map fun c =>
    (c.1, BitVec.ofNat 64 (leNat ((List.range 8).map fun i => (aget (c.1 + i) sbuf).getD 0#8)))

/-- Commit a thread's buffered stores (R126, R287): global bytes at their homes, whose targets check them (R311), where a
sector that one instruction wrote whole loses its poison, at its sharers too (R125), scratchpad bytes, in pages that have
their frames again (R205), and stores to register blocks. -/
def State.commitThread (s : State) (th : Thread) : State :=
  let cells := th.sbuf.filter fun c => decide (c.1 < 2 ^ 60) && !(s.place c.1).isBlock
  let scratch := th.sbuf.filter fun c => decide (2 ^ 60 ≤ c.1)
  let (ok, refused) := (s.blockStores th.sbuf).partition fun w => s.granted th.master w.1 .write
  let writes := ok.map fun w => Instr.registerWrite (some th.master) w.1 w.2
  let s := refused.foldl (fun s w => s.refuse th.master w.1 .write (some th.core)) s
  let lines := sbufLines cells
  let dropped := lines.filter fun l => !s.granted th.master (128 * l) .write
  let s := dropped.foldl (fun s l => s.refuse th.master (128 * l) .write (some th.core)) s
  let s := (cells.filter fun c => !dropped.contains (c.1 / 128)).foldl (fun s c =>
    (s.takeGrant c.1 true).homeWrite none c.1 [c.2]) s
  let healed := th.swhole.filter fun p => s.pois.contains p && !dropped.contains (p / 4)
  let s := healed.foldl State.healSector { s with agenda := s.agenda ++ writes }
  let s := s.refillPages (clusterOf th.core) th.lid (scratch.map fun c => c.1 - 2 ^ 60)
  let s := s.modInst (clusterOf th.core) th.lid fun i =>
    i.write (scratch.map fun c => c.1 - 2 ^ 60) (scratch.map Prod.snd)
  let sig := (lines.filter fun l => !(s.regionH (s.homeAddr (128 * l)))).foldl
    (fun f l => f ||| sigBits (s.sigLine (128 * l))) th.wfilter
  s.putThread { th with sbuf := [], swhole := [], slines := [], wfilter := sig }

/-- The lines of memory that the buffers of some threads hold. -/
def committedLines (s : State) (ths : List Thread) : List Nat :=
  ths.flatMap fun th => sbufLines ((th.sbuf.filter fun c => decide (c.1 < 2 ^ 60)).map fun c => (s.homeAddr c.1, c.2))

/-- The commit of a boundary: every L1 that holds a context of the launch loses the lines that it writes, and
the threads' buffers commit in the order of their keys (R126, R287, R337). -/
def State.commitAll (s : State) (lid : Word) (ths : List Thread) : State :=
  let lines := committedLines s ths
  let cores := ths.foldl (fun l th => sinsert th.core l) []
  let s := cores.foldl (fun s c => s.flushWhere c fun l => lines.contains l.n) s
  let s := s.modLaunch lid fun l => { l with since := [], boundary := true }
  (ths.foldl State.commitThread s).drainAll

/-- A page that a peer holds and that a thread's buffered stores go to, in memory or as the backing page of a scratchpad page
(R205, R375). -/
def State.commitHeld (s : State) (th : Thread) : Option Nat :=
  let cl := clusterOf th.core
  let pages := (th.sbuf.filter fun c => decide (2 ^ 60 ≤ c.1)).map fun c => (c.1 - 2 ^ 60) / 16384
  (((sbufLines (th.sbuf.filter fun c => decide (c.1 < 2 ^ 60))).map fun l => s.homeAddr (128 * l)).find? s.heldByPeer).map
    (· / 65536) |>.or <|
  (pages.filter fun p => (s.inst cl th.lid).lost.contains p).findSome? (s.backingHeld cl th.lid)

/-- The first part of a boundary: the commit, and the list of the threads whose operations perform or whose
parked instructions are evaluated anew (R337). The commit waits for the pages that peers hold: it is whole before anything
performs (R375). -/
def State.beginBoundary (s : State) (lid : Word) : State :=
  let ths := sortBy Thread.before (s.ofLaunch lid)
  if let some page := ths.findSome? s.commitHeld then s.recall page false
  else
  let s := s.commitAll lid ths
  let due := ths.filter fun th => (th.life == .running && th.qop) || th.life == .parked
  { s with perform := s.perform ++ due.map Thread.ckey }

/-- Run a copying job until it ends or stops; the number bounds its sectors (R337). -/
def State.runCopy (s : State) (cl id : Nat) : Nat → State
  | 0 => s
  | n + 1 => match s.job? cl id with
    | none => s
    | some j =>
      if j.state ≠ 2 then s
      else if j.sectors.length ≤ j.done then s.endJob cl j 0
      else (s.moveSector cl j).runCopy cl id n

/-- The state of an event that always answers one. -/
def nextOf (old : State) (o : Host.Outcome State Fault Refusal) : State :=
  match o with
  | .next s => s
  | _ => old

/-- Run a job at a boundary, if it can run (R337). -/
def State.runJob (s : State) (cl id : Nat) : State :=
  match s.job? cl id with
  | none => s
  | some j =>
    if !s.canRun cl j then s
    else match j.kind with
      | .mma _ => nextOf s (execMmaJob cl id s)
      | .mxZero => nextOf s (execMxZeroJob cl id s)
      | .mxMerge => nextOf s (execMxMergeJob cl id s)
      | .mxSt => nextOf s (execMxStJob cl id s)
      | .mxLd => nextOf s (execMxLdJob cl id s)
      | _ =>
        let s := if j.state = 1 then nextOf s (execTceJobRun cl id s) else s
        s.runCopy cl id (2 * j.sectors.length + 2)

/-- Run every job of a launch that can run, until none can; the number bounds the rounds (R337). -/
def State.runJobs (s : State) (lid : Word) : Nat → State
  | 0 => s
  | n + 1 =>
    let ready := (s.jobsOf lid).filter fun x => s.canRun x.1 x.2
    if ready.isEmpty then s
    else (ready.foldl (fun s x => s.runJob x.1 x.2.id) s).runJobs lid n

/-- A thread whose quantum has ended for no operation starts a new one (R337). -/
def Thread.newQuantum (th : Thread) : Thread :=
  if th.life == .running && th.qended && !th.qop then { th with qended := false, qcount := 0 } else th

/-- The last part of a boundary: the engines run to their ends, then the threads go on (R337). While a job waits on a
page, the threads wait. A launch that has been pre-empted while its operations performed leaves the Roll now (R178). -/
def State.endBoundary (s : State) (lid : Word) : State :=
  let s := s.runJobs lid ((s.jobsOf lid).length + 1)
  let waits := (s.jobsOf lid).any fun x => x.2.state == 3
  let s := if waits then s else s.mapThreads fun th => if th.lid == lid then th.newQuantum else th
  let s := s.modLaunch lid fun l => { l with since := [], boundary := false, engines := waits }
  if s.held lid then s.offRoll lid else s

/-- The engine step of a boundary can go on: its launch is not held, and none of its jobs waits on a page (R337). -/
def State.enginesReady (s : State) (lid : Word) (l : Launch) : Bool :=
  l.engines && !s.held lid && (s.jobsOf lid).all fun x => x.2.state != 3

/-- A boundary of a deterministic launch (R337), in two events: between them the operations that ended the
quanta perform, one at a time. -/
def execQuantumBoundary (lid : Word) (s : State) : Host.Outcome State Fault Refusal :=
  match s.launch? lid with
  | none => .next s
  | some l =>
    if l.boundary then (if s.perform.isEmpty then .next (s.endBoundary lid) else .next s)
    else if s.enginesReady lid l then .next (s.endBoundary lid)
    else if s.boundaryReady lid l then .next (s.beginBoundary lid)
    else .next s

end Sys2Proof.Machine
end

