-- ==== Sys2Proof/Machine/Image.lean ====
section
/-! DEFINITION. The image of the Gong as bytes (R350): the segments that a freeze writes, and what a thaw reads from those of
another package. R350 lays the elements of kinds 2 to 4 and 7 to 10 out, by R181, R185, R247 and R338; for those of kinds 1, 5
and 6 it names the fields, and their layout here is the model's (assumption 16). -/

namespace Sys2Proof.Machine

/-- A size rounded up to 4 KiB. -/
def align4k (n : Nat) : Nat := (n + 4095) / 4096 * 4096

/-- Bytes filled up with zeros to a size. -/
def padTo (n : Nat) (bs : List Byte) : List Byte := bs ++ List.replicate (n - bs.length) 0#8

/-- A bit per element of a list of flags, the first one lowest, as n bytes. -/
def bitmapBytes (n : Nat) (l : List Bool) : List Byte := leBytes n (packBits 1 (l.map fun b => if b then 1 else 0))

/-- The flags that a number holds, the lowest first. -/
def flagsNat : List Bool → Nat
  | [] => 0
  | b :: l => (if b then 1 else 0) + 2 * flagsNat l

/-- The elements of one size of a segment. -/
def chunks (size : Nat) (bs : List Byte) : List (List Byte) :=
  (List.range (bs.length / size)).map fun i => (bs.drop (size * i)).take size

/-- A field of bytes as a word. -/
def word4 (bs : List Byte) (off : Nat) : Word := BitVec.ofNat 32 (field bs off 4)
/-- A field of bytes as a double word. -/
def word8 (bs : List Byte) (off : Nat) : DWord := BitVec.ofNat 64 (field bs off 8)

/-- The context key that a handle names (R152). -/
def handleKey (h : Word) : Nat := 1024 * wbits h 21 10 + wbits h 9 0

/-- The bytes of a memory unit in an image (R350). -/
def Image.unitRecord (img : Image) (u : MemUnit) : List Byte :=
  leBytes 2 u.asn.toNat ++ leBytes 6 0 ++ leBytes 8 u.va.toNat ++ leBytes 8 u.pa ++ leBytes 1 u.size ++ leBytes 39 0 ++
    bitmapBytes 256 ((List.range 2048).map fun i => img.pois.contains (u.pa / 32 + i)) ++ cellReadN img.mem u.pa 65536

/-- The 512-byte record of a context of an image (R181); one that failed its checks still fails them. -/
def FrozenCtx.record (f : FrozenCtx) : List Byte :=
  let bytes := f.th.recordBytes f.qbind
  bytes ++ leBytes 4 (if f.bad then crc32 bytes + 1 else crc32 bytes)

/-- A condition of a launch as an image holds it (assumption 16). -/
def LState.code : LState → Nat
  | .waiting => 0
  | .ready => 1
  | .suspending => 2
  | .suspended => 3
  | .ending _ => 4

/-- The condition of a frozen launch (assumption 16). -/
def LState.ofCode (n : Nat) : LState := if n = 0 then .waiting else if n = 1 then .ready else .suspended

/-- A pending decrement of a frozen launch (R387, assumption 16). -/
def PendDec.element (d : PendDec) : List Byte :=
  leBytes 8 d.va.toNat ++ leBytes 8 d.path.toNat ++ leBytes 4 d.handle.toNat ++ leBytes 4 d.tix.toNat ++ leBytes 2 d.core ++
    leBytes 1 (if d.mode then 1 else 0) ++ leBytes 5 0

/-- A pending decrement that 32 bytes hold. -/
def pendDecOf (bs : List Byte) : PendDec :=
  { va := word8 bs 0, path := word8 bs 8, handle := word4 bs 16, tix := word4 bs 20, core := field bs 24 2
    mode := field bs 26 1 == 1 }

/-- What follows the elements of the launches, launch by launch: the rename table, the cores of R195 and R332, and the pending
decrements (R353, R387, assumption 16). -/
def Launch.tail (l : Launch) : List Byte :=
  (l.renames.flatMap fun r => leBytes 4 r.1.toNat ++ leBytes 4 r.2.toNat) ++ l.cores.flatMap (leBytes 2) ++
    (l.lastCore.flatMap fun c => leBytes 2 c.1 ++ leBytes 2 c.2) ++ l.pend.flatMap PendDec.element

/-- The 256 bytes of a launch, whose rename table lies at an offset of the segment (R350, assumption 16). -/
def Launch.element (l : Launch) (lid off : Nat) : List Byte :=
  l.pkt.bytes ++ leBytes 4 lid ++ leBytes 1 l.q ++ leBytes 1 l.st.code ++ leBytes 2 l.asn.toNat ++ leBytes 4 l.seed.toNat ++
    leBytes 4 l.faults ++ leBytes 8 (l.active / 9) ++ leBytes 4 l.renames.length ++ leBytes 4 off ++
    leBytes 1 (if l.sup then 1 else 0) ++ leBytes 1 l.level ++ leBytes 2 (match l.lastCluster with
      | some c => c + 1
      | none => 0) ++
    leBytes 4 l.placed ++ leBytes 8 l.order ++ leBytes 4 l.cores.length ++ leBytes 4 l.lastCore.length ++
    leBytes 4 l.pend.length ++ leBytes 68 0

/-- The elements of launches and, after them, their rename tables and lists (R350, assumption 16). -/
def launchSegment (all : List (Nat × Launch)) : List Byte :=
  (List.range all.length).flatMap (fun i => match all[i]? with
    | some x => x.2.element x.1 (256 * all.length + ((all.take i).map fun y => y.2.tail.length).sum)
    | none => []) ++
  all.flatMap fun x => x.2.tail

/-- The launch that an element of the segment of launches holds. -/
def launchOf (seg e : List Byte) : Nat × Launch :=
  let f := fun o n => field e o n
  let off := f 156 4
  let n := f 152 4
  let cores := off + 8 * n
  let last := cores + 2 * f 176 4
  let pend := last + 4 * f 180 4
  (f 128 4,
    { pkt := packetOf (e.take 128), q := f 132 1, st := LState.ofCode (f 133 1), asn := BitVec.ofNat 16 (f 134 2),
      seed := word4 e 136, faults := f 140 4, active := 9 * f 144 8,
      renames := (List.range n).map fun i => (word4 seg (off + 8 * i), word4 seg (off + 8 * i + 4)),
      sup := f 160 1 == 1, level := f 161 1 % 4, lastCluster := if f 162 2 = 0 then none else some (f 162 2 - 1),
      placed := f 164 4, order := f 168 8,
      cores := (List.range (f 176 4)).map fun i => field seg (cores + 2 * i) 2,
      lastCore := (List.range (f 180 4)).map fun i => (field seg (last + 4 * i) 2, field seg (last + 4 * i + 2) 2),
      pend := (List.range (f 184 4)).map fun i => pendDecOf ((seg.drop (pend + 32 * i)).take 32) })

/-- An entry of the ring table with DONE and BYTES of its slots (R206, assumption 16). -/
def Ring.element (r : Ring) (i : Nat) : List Byte :=
  leBytes 1 i ++ leBytes 1 r.lrn.toNat ++ leBytes 2 r.nslot ++ leBytes 4 r.base ++ leBytes 4 r.slot ++ leBytes 4 r.clm.toNat ++
    leBytes 4 r.pp.toNat ++ leBytes 4 r.cp.toNat ++ leBytes 4 r.jobs ++ leBytes 4 0 ++
    bitmapBytes ((r.nslot + 7) / 8) r.done ++ (List.range r.nslot).flatMap fun k => leBytes 4 ((r.bytes[k]?).getD 0)

/-- Ring table entries of a launch, one after another, and what follows them; the number counts them. -/
def ringsOf (lid : Word) : Nat → List Byte → List (Nat × Ring) × List Byte
  | 0, bs => ([], bs)
  | n + 1, bs =>
    let f := fun o n => field bs o n
    let slots := f 2 2
    let map := (slots + 7) / 8
    let r : Ring :=
      { lid := lid, lrn := BitVec.ofNat 6 (f 1 1), base := f 4 4, slot := f 8 4, nslot := slots, clm := word4 bs 12
        pp := word4 bs 16, cp := word4 bs 20, jobs := f 24 4
        done := (List.range slots).map fun k => (f 32 map).testBit k
        bytes := (List.range slots).map fun k => f (32 + map + 4 * k) 4 }
    let rest := ringsOf lid n (bs.drop (32 + map + 4 * slots))
    ((f 0 1, r) :: rest.1, rest.2)

/-- The code of a group operation's kind in an image (assumption 16). -/
def GKind.code : GKind → Nat
  | .bar => 16
  | .bcast => 17
  | .bcast64 => 18
  | .red op => ((List.range 14).find? fun i => redOf i == some op).getD 0

/-- The kind of a group operation with a code. -/
def gkindOf (n : Nat) : GKind :=
  match redOf n with
  | some op => .red op
  | none => if n = 17 then .bcast else if n = 18 then .bcast64 else .bar

/-- An entry of the group table: its members by their handles, those that have left, and its arrivals (R229, R232, R236). R350
does not name it, and R238 freezes a group with its instance (assumption 16). -/
def Group.element (g : Group) (handle : Nat → Word) (gops : Nat → Nat) (i : Nat) : List Byte :=
  leBytes 1 i ++ leBytes 1 (if g.formed then 1 else 0) ++ leBytes 2 g.members.length ++ leBytes 4 g.n ++ leBytes 8 g.key.toNat ++
    leBytes 2 g.departed.length ++ leBytes 2 g.arrivals.length ++ leBytes 4 0 ++
    (g.members.flatMap fun k => leBytes 4 (handle k).toNat ++ leBytes 4 (gops k)) ++ g.departed.flatMap (leBytes 2) ++
    g.arrivals.flatMap fun a =>
      leBytes 2 a.rank ++ leBytes 2 a.kind.code ++ leBytes 4 a.op ++ leBytes 8 a.root ++ leBytes 8 a.v.toNat

/-- Group table entries of a launch with the operations that each member has issued, and what follows them. -/
def groupsOf (lid : Word) : Nat → List Byte → List (Nat × Group × List (Nat × Nat)) × List Byte
  | 0, bs => ([], bs)
  | n + 1, bs =>
    let f := fun o n => field bs o n
    let m := f 2 2
    let left := 24 + 8 * m
    let arr := left + 2 * f 16 2
    let members := (List.range m).map fun k => handleKey (word4 bs (24 + 8 * k))
    let g : Group :=
      { lid := lid, key := word8 bs 8, n := f 4 4, formed := f 1 1 == 1, members := members
        departed := (List.range (f 16 2)).map fun k => f (left + 2 * k) 2
        arrivals := (List.range (f 18 2)).map fun k =>
          { rank := f (arr + 24 * k) 2, kind := gkindOf (f (arr + 24 * k + 2) 2), op := f (arr + 24 * k + 4) 4,
            root := f (arr + 24 * k + 8) 8, v := word8 bs (arr + 24 * k + 16) } }
    let gops := (List.range m).map fun k => ((members.drop k).headD 0, f (28 + 8 * k) 4)
    let rest := groupsOf lid n (bs.drop (arr + 24 * f 18 2))
    ((f 0 1, g, gops) :: rest.1, rest.2)

/-- The number of age a in the sequence of an instance (R221). -/
def Inst.number (i : Inst) (a : Nat) : Word :=
  if i.next.toNat ≤ a + 1 then i.next - BitVec.ofNat 32 (a + 2) else i.next - BitVec.ofNat 32 (a + 1)

/-- STATE of the number of age a of the window, 0 where the window has no job of that age (R221, R223). -/
def Image.windowState (img : Image) (cl lid : Nat) (i : Inst) (a : Nat) : Nat :=
  match img.jobs.find? fun j => j.1 == cl && j.2.lid.toNat == lid && j.2.n == i.number a with
  | some j => j.2.state
  | none => ((i.ended.find? fun e => e.n == i.number a).map (·.state)).getD 0

/-- The header of an instance: its launch and group, NEXT, its ring table entries and its job window (R350), and its cluster,
its group table and its poison marks, with which R205 and R238 freeze it. R350 gives it 4 KiB and no layout, and 64 rings of
256 slots need more: it takes as many times 4 KiB as it needs (R206, assumption 16). -/
def Image.instHeader (img : Image) (cl lid : Nat) (i : Inst) : List Byte :=
  let rings := img.rings.filter fun r => r.1 == cl && r.2.2.lid.toNat == lid
  let groups := img.groups.filter fun g => g.1 == cl && g.2.2.lid.toNat == lid
  let here := fun (k : Nat) => img.ctxs.find? fun f => f.th.ckey == k
  let handle := fun k => ((here k).map fun f => f.th.handle).getD 0#32
  let gops := fun k => ((here k).map fun f => f.th.gops).getD 0
  let window := (img.jobs.filter fun j => j.1 == cl && j.2.lid.toNat == lid).length + i.ended.length
  let bytes := leBytes 4 lid ++ leBytes 4 i.grp ++ leBytes 4 i.next.toNat ++ leBytes 2 rings.length ++ leBytes 2 groups.length ++
    leBytes 2 cl ++ leBytes 2 window ++ leBytes 4 i.size ++ leBytes 4 i.pois.length ++ leBytes 1 (if i.issued then 1 else 0) ++
    leBytes 3 0 ++ leBytes 384 (packBits 3 ((List.range 1024).map (img.windowState cl lid i))) ++
    (rings.flatMap fun r => r.2.2.element r.2.1) ++ (groups.flatMap fun g => g.2.2.element handle gops g.2.1) ++
    i.pois.flatMap (leBytes 4)
  padTo (align4k bytes.length) bytes

/-- What an instance of an image holds: its cluster, its launch, itself, its rings, and its groups with the operations of their
members. -/
structure HeldInst where
  cl : Nat
  lid : Nat
  inst : Inst
  rings : List (Nat × Ring)
  groups : List (Nat × Group × List (Nat × Nat))

/-- Instances of an image, one after another; the number counts them. Of a job that has ended the window says its number and
its STATE alone. -/
def instsOf : Nat → List Byte → List HeldInst
  | 0, _ => []
  | n + 1, bs =>
    let f := fun o n => field bs o n
    let lid := word4 bs 0
    let rings := ringsOf lid (f 12 2) (bs.drop 416)
    let groups := groupsOf lid (f 14 2) rings.2
    let size := f 20 4
    let marks := f 24 4
    let header := align4k (bs.length - groups.2.length + 4 * marks)
    let data := (bs.drop header).take size
    let i : Inst :=
      { size := size, grp := f 4 4, next := word4 bs 8, issued := f 28 1 == 1, pinned := false
        data := cellWriteN [] 0 data
        pois := (List.range marks).foldl (fun l k => sinsert (field groups.2 (4 * k) 4) l) [] }
    let window := f 32 384
    let ended := ((List.range (f 18 2)).map fun a => (i.number a, window / 8 ^ a % 8)).filter fun x => x.2 == 0 || x.2 == 4
    { cl := f 16 2, lid := lid.toNat, rings := rings.1, groups := groups.1
      inst := { i with ended := ended.map fun x => { n := x.1, state := x.2, done := 0, writes := [] } } } ::
      instsOf n (bs.drop (header + size))

/-- The code of what a job does, in an image (assumption 16). -/
def JobKind.code : JobKind → Nat × Nat
  | .tcopy => (0, 0)
  | .scopy => (1, 0)
  | .tfill => (2, 0)
  | .mma f => (3, f)
  | .mxZero => (4, 0)
  | .mxMerge => (5, 0)
  | .mxSt => (6, 0)
  | .mxLd => (7, 0)

/-- What a job of a code does. -/
def jobKindOf (n form : Nat) : JobKind :=
  match n with
  | 0 => .tcopy
  | 1 => .scopy
  | 2 => .tfill
  | 3 => .mma form
  | 4 => .mxZero
  | 5 => .mxMerge
  | 6 => .mxSt
  | _ => .mxLd

/-- A plane of a job as 28 bytes, its spaces apart. -/
def Plane.element (p : Plane) : List Byte :=
  leBytes 8 p.src.toNat ++ leBytes 8 p.dst.toNat ++ leBytes 4 (BitVec.ofInt 32 p.sstr).toNat ++
    leBytes 4 (BitVec.ofInt 32 p.dstr).toNat ++ leBytes 2 p.rb ++ leBytes 2 p.rows

/-- The 64 bytes of a job's descriptor (R213, R242, R246). -/
def Job.descriptor (j : Job) : List Byte :=
  if j.copies then
    let ps := j.planes.take 2
    padTo 56 (ps.flatMap Plane.element) ++ padTo 7 (ps.flatMap fun p => leBytes 1 (p.ssp + 4 * p.dsp)) ++ leBytes 1 ps.length
  else (j.desc ++ leBytes 64 0).take 64

/-- The planes that the descriptor of a copying job holds. -/
def heldPlanes (bs : List Byte) : List Plane :=
  (List.range (field bs 63 1)).map fun i =>
    let p := bs.drop (28 * i)
    { src := word8 p 0, dst := word8 p 8, sstr := (word4 p 16).toInt, dstr := (word4 p 20).toInt, rb := field p 24 2
      rows := field p 26 2, ssp := field bs (56 + i) 1 % 4, dsp := field bs (56 + i) 1 / 4 % 4 }

/-- An interval of a footprint in an image (R215, assumption 16). -/
def Interval.element (i : Interval) : List Byte :=
  leBytes 1 i.sp ++ leBytes 1 i.cix ++ leBytes 8 (BitVec.ofInt 64 i.lo).toNat ++ leBytes 8 (BitVec.ofInt 64 i.hi).toNat

/-- The interval that 18 bytes hold. -/
def intervalOf (bs : List Byte) : Interval :=
  { sp := field bs 0 1, cix := field bs 1 1, lo := (word8 bs 2).toInt, hi := (word8 bs 10).toInt }

/-- The 256 bytes of a job: descriptor, number, STATE, what it is, its claim and issuer, and its footprint; then its done
bitmap and its staging bytes, with a mark for each staged sector that is poisoned (R226, R350, assumption 16). -/
def Job.element (j : Job) : List Byte :=
  let flag := fun (b : Bool) n => if b then n else 0
  let flags := flag j.pair 1 + flag j.tr 2 + flag j.mode 4 + flag j.claim.isSome 8 + flag j.trail 16 + flag j.late 32
  let claim := j.claim.getD (0, 0#32)
  let bytes := j.descriptor ++ leBytes 4 j.n.toNat ++ leBytes 4 j.lid.toNat ++ leBytes 1 j.state ++ leBytes 1 j.kind.code.1 ++
    leBytes 1 j.kind.code.2 ++ leBytes 1 flags ++ leBytes 4 claim.1 ++ leBytes 4 claim.2.toNat ++ leBytes 2 j.core ++
    leBytes 2 j.asn.toNat ++ leBytes 4 j.handle.toNat ++ leBytes 4 j.tix.toNat ++ leBytes 8 j.path.toNat ++
    leBytes 8 j.pc.toNat ++ leBytes 4 j.ctl.toNat ++ leBytes 1 j.acc ++ leBytes 1 j.rm ++ leBytes 1 j.reads.length ++
    leBytes 1 j.writes.length ++ leBytes 1 j.held ++ leBytes 3 j.kv ++ leBytes 8 j.q ++ leBytes 4 j.staged.length ++
    (j.reads ++ j.writes).flatMap Interval.element
  padTo 256 bytes ++
    bitmapBytes ((j.sectors.length + 7) / 8) ((List.range j.sectors.length).map fun i => decide (i < j.done)) ++
    bitmapBytes ((j.staged.length + 7) / 8) (j.staged.map Prod.snd) ++ j.staged.flatMap fun x => leBytes 4 x.1.length ++ x.1

/-- Staged sectors with their lengths, one after another, and what follows them. -/
def stagedOf : Nat → List Byte → List (List Byte) × List Byte
  | 0, bs => ([], bs)
  | n + 1, bs =>
    let k := field bs 0 4
    let rest := stagedOf n (bs.drop (4 + k))
    ((bs.drop 4).take k :: rest.1, rest.2)

/-- The fixed part of a job's element. -/
def jobHead (bs : List Byte) : Job :=
  let f := fun o n => field bs o n
  let flag := fun k => (f 75 1).testBit k
  let iv := fun i => intervalOf ((bs.drop (136 + 18 * i)).take 18)
  let kind := jobKindOf (f 73 1) (f 74 1)
  let j : Job :=
    { id := 0, kind := kind, n := word4 bs 64, lid := word4 bs 68, state := f 72 1, pair := flag 0, tr := flag 1, mode := flag 2
      claim := if flag 3 then some (f 76 4, word4 bs 80) else none
      trail := flag 4, late := flag 5, core := f 84 2, asn := BitVec.ofNat 16 (f 86 2), handle := word4 bs 88
      tix := word4 bs 92, path := word8 bs 96, pc := word8 bs 104, ctl := word4 bs 112, acc := f 116 1, rm := f 117 1
      reads := (List.range (f 118 1)).map iv, writes := (List.range (f 119 1)).map fun i => iv (f 118 1 + i)
      held := f 120 1, kv := f 121 3, q := f 124 8 }
  if j.copies then { j with planes := heldPlanes (bs.take 64) } else { j with desc := bs.take 64 }

/-- Jobs of an image, one after another, with their place in the order of issue; the number counts them. A store's planes follow
from its descriptor (R246). -/
def jobsHeld (seq : Nat) : Nat → List Byte → List Job
  | 0, _ => []
  | n + 1, bs =>
    let j := jobHead bs
    let j := if j.kind = .mxSt then { j with planes := stPlanes j.ctl j.desc } else j
    let map := (j.sectors.length + 7) / 8
    let count := field bs 132 4
    let marks := field bs (256 + map) ((count + 7) / 8)
    let staged := stagedOf count (bs.drop (256 + map + (count + 7) / 8))
    { j with
      id := seq, seq := seq
      done := ((List.range j.sectors.length).filter fun i => (field bs 256 map).testBit i).length
      staged := (staged.1.zip (List.range count)).map fun x => (x.1, marks.testBit x.2) } :: jobsHeld (seq + 1) n staged.2

/-- The segments of an image: kind, elements and bytes (R350, assumption 16). -/
def Image.segments (img : Image) (s : State) : List (Nat × Nat × List Byte) :=
  let queues := img.ctxs.flatMap (fun f => f.queues.map Prod.snd) ++ img.queues.map Prod.snd
  let entries := img.deques.flatMap fun d => ((List.range d.2.length).zip d.2).map fun e => (d.1, e)
  let slots := img.ctxs.filter fun f => f.th.det
  [(1, img.launches.length, launchSegment img.launches),
   (2, img.ctxs.length, img.ctxs.flatMap FrozenCtx.record),
   (3, queues.length, queues.flatMap PQueue.recordBytes),
   (4, entries.length, entries.flatMap fun e => leBytes 4 e.1 ++ leBytes 4 e.2.1 ++ e.2.2.bytes),
   (5, img.insts.length, img.insts.flatMap fun x => img.instHeader x.1 x.2.1 x.2.2 ++ cellReadN x.2.2.data 0 x.2.2.size),
   (6, img.jobs.length, img.jobs.flatMap fun j => j.2.element),
   (7, img.accs.length, img.accs.flatMap fun a => a.2.2.image ++ leBytes 2 a.2.1 ++ leBytes 2 a.1 ++ leBytes 4 (a.2.2.owner.getD 0)),
   (8, img.units.length, img.units.flatMap img.unitRecord),
   (9, slots.length, slots.flatMap fun f => padTo 4096 (bufferBytes f.th.sbuf)),
   (10, img.tokens.length, img.tokens.flatMap fun t => leBytes 8 t.1 ++ leBytes 8 (s.regionEntry t.1).toNat)]

/-- Bytes of a memory unit in an image (R350). -/
def unitRecord : Nat := 65536 + 320

/-- Bytes of an image without its memory segment. -/
def Image.baseBytes (img : Image) (s : State) : Nat :=
  4096 + (({ img with units := [] } : Image).segments s |>.map fun x => align4k x.2.2.length).sum

/-- The manifest entries of segments from an offset on (R350). -/
def segEntries (off : Nat) : List (Nat × Nat × List Byte) → List Byte
  | [] => []
  | (kind, count, bytes) :: l =>
    leBytes 2 kind ++ leBytes 2 0 ++ leBytes 4 count ++ leBytes 8 off ++ leBytes 8 bytes.length ++
      leBytes 4 (crc32 bytes) ++ leBytes 4 0 ++ segEntries (off + align4k bytes.length) l

/-- Segments padded to 4 KiB, one after another (R350). -/
def segBytes (l : List (Nat × Nat × List Byte)) : List Byte := l.flatMap fun x => padTo (align4k x.2.2.length) x.2.2

/-- The manifest header of a complete image, and its segments (R350). -/
def State.manifest (s : State) (img : Image) : List Byte × List Byte :=
  let segs := img.segments s
  let body := segBytes segs
  let head := leBytes 4 0x474E4F47 ++ leBytes 2 Config.fwMajor ++ leBytes 2 segs.length ++ leBytes 8 (4096 + body.length) ++
    leBytes 8 (65536 * img.units.length) ++ leBytes 8 img.stime.toNat ++ List.replicate 32 0#8 ++ segEntries 4096 segs
  (withCrc (padTo 4092 head), body)

/-- What the record of a context does not hold and no segment lays out, of an image of another package: a free function of the
image's bytes and of the record's number. After the contexts it gives the cores of the queues that no context binds (assumption
16). -/
opaque decodedCtx : List Byte → Nat → Thread

/-- The state of the issue side of an accumulator on which jobs of an image still wait, which no segment lays out: a free
function of the image's bytes and of the accumulator's number in it (R238, assumption 16). -/
opaque decodedAcc : List Byte → Nat → Bool × Nat × List Node × Bool

/-- A segment of an image at an address: the count of its elements and its bytes (R350). -/
def State.segmentAt (s : State) (area : Nat) (head : List Byte) (kind : Nat) : Nat × List Byte :=
  match (List.range (field head 6 2)).find? fun i => field head (64 + 32 * i) 2 == kind with
  | some i =>
    let o := 64 + 32 * i
    (field head (o + 4) 4, s.homeRead (area + field head (o + 8) 8) (field head (o + 16) 8))
  | none => (0, [])

/-- A park's key as a record numbers it (R170, R181). -/
def keyOf (reason n core : Nat) (lid : Word) (asn : BitVec 16) : Key :=
  let cl := clusterOf core
  match reason with
  | 1 => .line n
  | 2 => if n < 64 then .ring cl n else if n = 64 then .ringFree cl else if n = 65 then .engineQueue cl
    else .job cl lid (BitVec.ofNat 32 n)
  | 3 => .join n
  | 4 => if n < 64 then .group cl n else if n = 64 then .groupTable cl
    else if n < 256 then .acc cl (BitVec.ofNat 2 n) else .coll ((n - 256) % 2 ^ 32) ((n - 256) / 2 ^ 32)
  | 5 => .queue core n
  | 6 => .page asn (BitVec.ofNat 41 (n / 65536))
  | 7 => .pool core
  | 8 => .mailbox core
  | _ => .launchQueue (BitVec.ofNat 6 n)

/-- The thread of a context record (R181), with what the record does not hold from `other` (R147, R230, R336). -/
def threadOf (bs : List Byte) (other : Thread) (asn : BitVec 16) : Thread :=
  let h := word4 bs 20
  let reason := field bs 17 1
  let core := wbits h 21 10
  let parked := reason != 0
  let base : Thread :=
    { core := core, num := wbits h 9 0, gen := h.extractLsb' 22 10, asn := asn, life := .spilled
      park := if parked then some { reason := reason, key := keyOf reason (field bs 8 8) core (word4 bs 40) asn } else none
      kept := if parked then other.kept else none
      frec := if field bs 16 1 = 2 then some (other.frec.getD { kind := 4, pc := word8 bs 0 }) else none
      qcount := other.qcount, qended := other.qended, qop := other.qop, suspAt := other.suspAt }
  base.restored bs

/-- The contexts of an image, with their queue records and commit slots (R181, R338, R350): the queue records come in the order
of the contexts and their registers, and the slots in that of the deterministic contexts (assumption 16). -/
def ctxsOf (launches : List (Nat × Launch)) (units : List MemUnit) (other : Nat → Thread) :
    List Word → List (List Byte) → List (List Byte) → List (List Byte) → List FrozenCtx × List (List Byte)
  | _, [], queues, _ => ([], queues)
  | done, r :: rs, queues, slots =>
    let l := (launches.find? fun x => x.1 == field r 40 4).map Prod.snd
    let th := threadOf r (other done.length) ((l.map (·.asn)).getD 0#16)
    let qbind := (List.range 4).map fun j => field r (472 + j) 1
    let own := (List.range 4).filter fun j => decide (192 ≤ (qbind.drop j).headD 0)
    let qs := (own.zip queues).map fun x =>
      (x.1, ({ lid := word4 x.2 80, logical := BitVec.ofNat 6 (field x.2 76 4), entries := queueEntries x.2 } : PQueue))
    let sbuf := if th.det then bufferOf (slots.headD []) else []
    let lines := (sbufLines sbuf).filterMap fun n => (units.find? fun u => u.pa == 128 * n / 65536 * 65536).map fun u =>
      (n, vpnOf u.va, u.size, false)
    let f : FrozenCtx :=
      { th := { th with sbuf := sbuf, slines := lines, slot := (done.filter fun x => x == th.lid).length }, qbind := qbind, queues := qs
        bad := crc32 (r.take 508) != field r 508 4 }
    let rest := ctxsOf launches units other (th.lid :: done) rs (queues.drop own.length) (if th.det then slots.tail else slots)
    (f :: rest.1, rest.2)

/-- A deque entry that a record of R185 holds, at a place in the order of insertion. -/
def dequeEntryOf (bs : List Byte) (seq : Nat) : Entry :=
  let flags := field bs 59 1
  { kind := field bs 58 1, pc := word8 bs 0, join := word8 bs 8, path := word8 bs 16, cjoin := word8 bs 24, sp := word4 bs 32
    fp := word4 bs 36, tix := word4 bs 40, lid := word4 bs 44, owner := word4 bs 48, sidx := word4 bs 52
    asn := BitVec.ofNat 16 (field bs 56 2), mode := flags.testBit 0, det := flags.testBit 1, orphan := flags.testBit 2, seq := seq }

/-- The deques that the entries of a segment make, core by core (R350). -/
def dequesOf (segs : List (List Byte)) : List (Nat × List Entry) :=
  (segs.zip (List.range segs.length)).foldl (fun (m : List (Nat × List Entry)) x =>
    let c := field x.1 0 4
    aset c ((aget c m).getD [] ++ [dequeEntryOf (x.1.drop 8) x.2]) m) []

/-- A context that a group of its cluster has as a member (R229, R232). -/
def Thread.inGroup (th : Thread) (insts : List HeldInst) : Thread :=
  match insts.findSome? fun x =>
    if x.cl == clusterOf th.core && x.lid == th.lid.toNat then
      x.groups.findSome? fun g => if g.2.1.formed then (g.2.2.find? fun m => m.1 == th.ckey).map fun m => (g.1, m.2) else none
    else none with
  | some (gid, gops) => { th with gid := some gid, gops := gops }
  | none => th

/-- An accumulator that an element of an image holds: its cluster, its number and itself. Its issue side is that of the image,
unless a job of the image still waits for it (R238, R247). -/
def accElement (bs : List Byte) (jobs : List (Nat × Job)) (other : Bool × Nat × List Node × Bool) : Nat × Nat × FrozenAcc :=
  let n := field bs imageBytes 2
  let cl := field bs (imageBytes + 2) 2
  let owner := some (field bs (imageBytes + 4) 4)
  let image := bs.take imageBytes
  let waits := jobs.any fun j => j.1 == cl && j.2.onAcc n
  let e := (accOfImage owner image).getD {}
  (cl, n, if waits then
      { owner := owner, releasing := other.1, cnt := other.2.1, labels := other.2.2.1, closed := other.2.2.2, image := image }
    else { owner := owner, releasing := false, cnt := e.cnt, labels := e.labels, closed := e.closed, image := image })

/-- A memory unit of an image at an address (R350). -/
def State.unitAt (s : State) (a : Nat) : MemUnit :=
  { asn := BitVec.ofNat 16 (leNat (s.homeRead a 2)), va := BitVec.ofNat 64 (leNat (s.homeRead (a + 8) 8)),
    pa := leNat (s.homeRead (a + 16) 8), size := leNat (s.homeRead (a + 24) 1) }

/-- The addresses of the memory units of an image (R350). -/
def unitAddrs (area : Nat) (head : List Byte) : List Nat :=
  (List.range (field head 6 2)).flatMap fun i =>
    let o := 64 + 32 * i
    if field head o 2 = 8 then (List.range (field head (o + 4) 4)).map fun k => area + field head (o + 8) 8 + unitRecord * k else []

/-- The image of another package, as its segments hold it (R350, R352, assumption 16). -/
def State.foreignImage (s : State) (area : Nat) (head : List Byte) : Image :=
  let all := s.homeRead area (field head 8 8)
  let seg := s.segmentAt area head
  let launches := ((chunks 256 ((seg 1).2.take (256 * (seg 1).1))).map (launchOf (seg 1).2)).foldl
    (fun (m : List (Nat × Launch)) x => aset x.1 x.2 m) []
  let at' := unitAddrs area head
  let insts := instsOf (seg 5).1 (seg 5).2
  let jobs := (jobsHeld 0 (seg 6).1 (seg 6).2).map fun j => (clusterOf j.core, j)
  let cs := ctxsOf launches (at'.map s.unitAt) (decodedCtx all) [] (chunks 512 (seg 2).2) (chunks 128 (seg 3).2) (chunks 4096 (seg 9).2)
  let accs := (chunks (imageBytes + 8) (seg 7).2).zip (List.range (seg 7).1)
  { foreign := true, head := head, stime := word8 head 24, launches := launches
    ctxs := cs.1.map fun f => { f with th := f.th.inGroup insts }
    queues := (cs.2.zip (List.range cs.2.length)).map fun x => ((decodedCtx all (cs.1.length + x.2)).core % 4096,
      { lid := word4 x.1 80, logical := BitVec.ofNat 6 (field x.1 76 4), entries := queueEntries x.1 })
    deques := dequesOf (chunks 72 (seg 4).2)
    insts := insts.map fun x => (x.cl, x.lid, x.inst)
    rings := insts.flatMap fun x => x.rings.map fun r => (x.cl, r.1, r.2)
    groups := insts.flatMap fun x => x.groups.map fun g => (x.cl, g.1, g.2.1)
    jobs := jobs
    accs := (accs.map fun a => accElement a.1 jobs (decodedAcc all a.2)).filter fun a => decide (a.2.1 < 4)
    tokens := (chunks 16 (seg 10).2).map fun t => (field t 0 8, word4 t 12)
    units := at'.map s.unitAt
    mem := at'.flatMap fun a =>
      let pa := (s.unitAt a).pa
      ((List.range 65536).map fun i => (pa + i, cellRead s.mem (a + 320 + i))).filter fun c => c.2 != 0#8
    pois := at'.flatMap fun a =>
      let pa := (s.unitAt a).pa
      ((List.range 2048).filter fun i => (leNat (s.homeRead (a + 64) 256)).testBit i).map fun i => pa / 32 + i }

end Sys2Proof.Machine
end

