-- ==== Sys2Proof/Machine/Gong.lean ====
section
/-! DEFINITION. The Gong (R347 to R353): the freeze of every launch into an image, the checkpoint, and the
thaw, with the boot map that a run-time fence rewrites (R357, R358). -/

namespace Sys2Proof.Machine

/-- GO of `gongc` (R347). -/
def State.gongGo (s : State) : Bool := dbit s.gongc 0
/-- AREA of `gongc` as a host physical address (R347). -/
def State.gongArea (s : State) : Nat := bits s.gongc 51 12 * 4096

/-- A Gong operation starts (R347). -/
def State.gongStart (s : State) (v : DWord) (step : Nat) : State :=
  { s with gongc := (v &&& 0xFFFFFFFFFF006#64) ||| 1#64, gongFrom := some s.ticks, gongErr := 0, gongNl := 0, gongStep := step }

/-- A Gong operation ends: GO reads 0, and the interrupt and machine event 7 are sent (R347). -/
def State.gongEnd (s : State) (err step nl : Nat) : State :=
  let s := { s with gongc := s.gongc &&& ~~~1#64, gongErr := err, gongStep := step, gongNl := nl }
  (s.machineEvent 0 7 none (leBytes 8 s.gongs.toNat)).signal (.msix 2)

/-- The launches that a freeze takes: all but those that are ending (R348). -/
def State.frozenLids (s : State) : List Word :=
  (s.launches.filter fun x => match x.2.st with
    | .ending _ => false
    | _ => true).map fun x => BitVec.ofNat 32 x.1

/-- Step 3 of a freeze for one launch, whose threads have left the Roll: its jobs stop at a sector boundary, and it is
suspended (R226, R348). -/
def State.hold (s : State) (lid : Word) : State :=
  match s.launch? lid with
  | none => s
  | some l =>
    if l.st = .ready ∧ l.placed ≠ 0 then (s.preempt lid).suspendLaunch lid
    else if l.st = .suspending then s.suspendLaunch lid
    else s

/-- Every page of an instance goes to its backing page (R348). -/
def State.evictInst (s : State) (cl : Nat) (lid : Word) : State :=
  let i := s.inst cl lid
  if i.boot then s
  else (List.range (i.size / 16384)).foldl (fun s p => if (s.inst cl lid).lost.contains p then s else s.evictPage cl lid p) s

/-- A context that its spill area does not take freezes where it is, its store buffer in its commit slot (R338, R348). -/
def State.freezeBuffer (s : State) (key : Nat) : State :=
  match s.thread? key with
  | some th =>
    if !th.resident then s
    else match s.spillBuffer th with
      | .inr s => s
      | .inl va => s.holdSpills th th.asn va (s.commitBase th)
  | none => s

/-- The read of a spilled context's record for an image, where it is refused, is counted and reported (R308, R311). -/
def State.noteRecord (s : State) (th : Thread) : State :=
  if th.life == .spilled && (s.recordPa th .read).isNone then
    s.uncoreRefused 1 ((s.areaOf th).extractLsb' 0 16) (recordVa (s.areaOf th) th.num) .read (some th.core)
  else s

/-- Step 4 of a freeze (R348): contexts go to their spill areas, or stay where they are for their image (R182). -/
def State.freezeCtxs (s : State) : State :=
  ((s.threads.filter fun th => s.frozenLids.contains th.lid && !th.boot).map Thread.ckey).foldl (fun s k =>
    match s.thread? k with
    | some th => ((s.spillCtx th true).freezeBuffer k).noteRecord th
    | none => s) s

/-- Step 5 of a freeze (R348): pages go to their backing pages. -/
def State.freezePages (s : State) : State :=
  (s.clusters.flatMap fun c => c.2.insts.map fun i => (c.1, BitVec.ofNat 32 i.1)).foldl (fun s x => s.evictInst x.1 x.2) s

/-- Step 6 of a freeze (R348): dirty bytes go to memory. -/
def State.freezeLines (s : State) : State := (s.cores.foldl (fun s c => s.writeBackAll c.1) s).settleAll

/-- The page-table entries that hold something, in the order of the table (R291). -/
def State.tableEntries (s : State) : List Pte :=
  let lo := s.ptBase
  let hi := lo + 2 ^ (s.logB + 7)
  let hits := s.mem.foldl (fun l c => if lo ≤ c.1 ∧ c.1 < hi then sinsert ((c.1 - lo) / 16) l else l) []
  hits.map fun i => { w0 := s.memDword (lo + 16 * i), w1 := s.memDword (lo + 16 * i + 8) }

/-- The 64 KiB units of a page that lies in device memory. -/
def unitsOfPage (asn : BitVec 16) (va : DWord) (pa size : Nat) : List MemUnit :=
  if pa < deviceBytes then
    (List.range (2 ^ (pageShift size - 16))).map fun i =>
      { asn := asn, va := va + BitVec.ofNat 64 (65536 * i), pa := pa + 65536 * i, size := size }
  else []

/-- The units of an uncore area: pages of its address space from a base up (R349). -/
def State.areaUnits (s : State) (asn : BitVec 16) (base : DWord) (n : Nat) : List MemUnit :=
  (List.range n).flatMap fun i =>
    let va := base + BitVec.ofNat 64 (65536 * i)
    match s.walkXl asn va with
    | .hit e => if e.pa va < deviceBytes then [{ asn := asn, va := va, pa := e.pa va, size := e.size }] else []
    | _ => []

/-- The spill and deque areas of a core that are in use (R349). -/
def State.coreUnits (s : State) (c : Nat) : List MemUnit :=
  let k := s.core c
  let area := fun d => if dbit d 19 then s.areaUnits (d.extractLsb' 0 16) (BitVec.ofNat 64 (bits d 56 20 * 1048576)) 16 else []
  area k.spla ++ area k.splb ++
    (if k.overflow = 0 then []
     else s.areaUnits (k.dqa.extractLsb' 0 16) (BitVec.ofNat 64 (bits k.dqa 56 22 * 4194304)) ((k.overflow + 1023) / 1024))

/-- Keep the first unit of every physical page (R349). -/
def distinctUnits (seen : List Nat) : List MemUnit → List MemUnit
  | [] => []
  | u :: l => if seen.contains u.pa then distinctUnits seen l else u :: distinctUnits (u.pa :: seen) l

/-- The units that a freeze streams: every page of a frozen launch's address space that lies in device memory,
and the areas of the cores that hold its contexts and entries (R349). -/
def State.frozenUnits (s : State) : List MemUnit :=
  let lids := s.frozenLids
  let asns := (lids.filterMap s.launch?).map (·.asn)
  let pages := (s.tableEntries.filter fun e => dbit e.w1 0 && asns.contains (BitVec.ofNat 16 (bits e.w0 15 0))).flatMap fun e =>
    let size := bits e.w1 15 14
    let base := fun x => x * 65536 / 2 ^ pageShift size * 2 ^ pageShift size
    unitsOfPage (BitVec.ofNat 16 (bits e.w0 15 0)) (BitVec.ofNat 64 (base (bits e.w0 56 16))) (base (bits e.w1 51 16)) size
  let cores := (s.cores.filter fun c => (s.ofCore c.1).any (fun th => lids.contains th.lid) ||
    c.2.deque.any fun e => lids.contains e.lid).map Prod.fst
  distinctUnits [] (pages ++ cores.flatMap s.coreUnits)

/-- A spilled context as its record gives it (R181, R183). A record, a commit slot or a queue record that does not translate
spoils it (assumption 50). -/
def State.thawedOf (s : State) (th : Thread) : FrozenCtx :=
  let d := s.areaOf th
  let pa := s.recordPa th .read
  let qbind := (List.range 4).map fun j => (pa.map fun pa => field (cellReadN s.mem pa 512) (472 + j) 1).getD 0
  let queueAt := fun j => s.areaPa d (524288 + 128 * (4 * th.num + j)) .read
  let cut := (List.range 4).any fun j => decide (192 ≤ (qbind.drop j).headD 0) && (queueAt j).isNone
  let (sbuf, lost) := match s.refillBuffer th with
    | .inr b => (b, false)
    | .inl _ => ([], true)
  { th := { (pa.map (s.readRecord th)).getD th with sbuf := sbuf }, qbind := qbind
    bad := (pa.map s.recordBad).getD true || lost || cut
    place := some th.alternate
    queues := (List.range 4).filterMap fun j =>
      let b := (qbind.drop j).headD 0
      if b < 192 then none
      else (queueAt j).map fun pa =>
        (j, { lid := th.lid, logical := BitVec.ofNat 6 b, entries := queueEntries (s.homeRead pa 128) }) }

/-- A resident context as its record would give it (R181, R348). -/
def State.writtenOf (s : State) (th : Thread) : FrozenCtx :=
  { th := th, qbind := s.qbindBytes th
    queues := (List.range 4).filterMap fun j => match th.qb[j]! with
      | none => none
      | some q =>
        if s.carries th q.toNat && th.boundAt q.toNat == j then
          (aget q.toNat (s.core th.core).queues).map fun x => (j, x)
        else none }

/-- Take a context off the package into an image (R348). -/
def State.takeCtx (s : State) (th : Thread) : FrozenCtx × State :=
  let f := if th.life = .spilled then s.thawedOf th else s.writtenOf th
  let gone := if th.life = .spilled then [] else f.queues.filterMap fun q => (th.qb[q.1]!).map BitVec.toNat
  let s := gone.foldl (fun s q => s.modCore th.core fun k => { k with queues := adel q k.queues }) s
  ({ f with th := { f.th with qb := Vector.replicate 4 none, alternate := false, reflag := false } },
    s.putThread { th with life := .exited })

/-- Take the contexts of an image off the package, in the order of their keys. -/
def State.takeCtxs (s : State) : List Thread → List FrozenCtx × State
  | [] => ([], s)
  | th :: l =>
    let (f, s) := s.takeCtx th
    let (fs, s) := s.takeCtxs l
    (f :: fs, s)

/-- A job as the Gong freezes it: an abandoned matrix job starts again (R226, R249). -/
def Job.frozen (j : Job) : Job :=
  if !j.copies && j.state == 2 then { j with state := 1, done := 0, staged := [] } else j.paused

/-- An accumulator as the Gong freezes it (R238). -/
def Acc.frozen (a : Acc) : FrozenAcc :=
  { owner := a.owner, releasing := a.releasing, cnt := a.cnt, labels := a.labels, closed := a.closed, image := a.image }

/-- An accumulator as a thaw restores it, under its group's new entry (R238, R247). -/
def FrozenAcc.thawed (f : FrozenAcc) (owner : Option Nat) : Acc :=
  { (accOfImage owner f.image).getD {} with
    owner := owner, releasing := f.releasing, cnt := f.cnt, labels := f.labels, closed := f.closed }

/-- An instance with the bytes of its pages (R348). -/
def State.wholeInst (s : State) (cl : Nat) (lid : Word) : Inst :=
  let s := (s.inst cl lid).lost.foldl (fun s p => s.refillPage cl lid p) s
  { s.inst cl lid with pinned := false, clean := [] }

/-- What a frozen launch owns in a cluster or a core. -/
def ownedBy {α : Type} (lids : List Word) (lid : α → Word) (l : List (Nat × α)) : List (Nat × α) :=
  l.filter fun x => lids.contains (lid x.2)

/-- The bytes of a package's memory that lie in some units. -/
def unitBytes (mem : List Host.Cell) (units : List MemUnit) : List Host.Cell :=
  mem.filter fun c => units.any fun u => u.pa == c.1 / 65536 * 65536

/-- A unit that the Gong engine may not read: its sectors count as poisoned (R308, R311, R349, assumption 39). -/
def State.hidden (s : State) (u : MemUnit) : Bool := !s.agentGranted 4 u.pa .read

/-- Add the bytes and the poison marks of more units to what has been streamed (R349). -/
def Image.stream (img : Image) (s : State) (units : List MemUnit) : Image :=
  { img with
    units := img.units ++ units
    mem := (unitBytes s.mem units).foldl (fun m c => aset c.1 c.2 m) img.mem
    pois := ((s.pois.filter fun p => units.any fun u => u.pa == p / 2048 * 65536) ++ (units.filter s.hidden).flatMap fun (u : MemUnit) =>
      (List.range 2048).map (u.pa / 32 + ·)).foldl (fun l p => sinsert p l) img.pois }

/-- An image with the parts of another one: of launches that no thaw has placed yet (R352). -/
def Image.append (img x : Image) : Image :=
  { img with
    ctxs := img.ctxs ++ x.ctxs, queues := img.queues ++ x.queues, deques := img.deques ++ x.deques,
    insts := img.insts ++ x.insts, rings := img.rings ++ x.rings, groups := img.groups ++ x.groups,
    jobs := img.jobs ++ x.jobs, accs := img.accs ++ x.accs, tokens := img.tokens ++ x.tokens }

/-- The image of the frozen launches, without its memory segment, and the package without them (R348, R350). -/
def State.takeImage (s : State) : Image × State :=
  let lids := s.frozenLids
  let frozen := fun (th : Thread) => lids.contains th.lid && !th.boot
  let (ctxs, s1) := s.takeCtxs (sortBy (fun a b => decide (a.ckey < b.ckey)) (s.threads.filter frozen))
  let img : Image :=
    { launches := s.launches.filter fun x => lids.contains (BitVec.ofNat 32 x.1)
      ctxs := ctxs
      queues := s.cores.flatMap fun c => (c.2.queues.filter fun q => lids.contains q.2.lid &&
        (s.ofCore c.1).all fun th => th.lid != q.2.lid || !(th.qb.toList.contains (some (BitVec.ofNat 6 q.1)))).map
          fun q => (c.1, q.2)
      deques := (s.cores.map fun c => (c.1, c.2.deque.filter fun e => lids.contains e.lid)).filter fun c => !c.2.isEmpty
      insts := s.clusters.flatMap fun c => (c.2.insts.filter fun i => lids.contains (BitVec.ofNat 32 i.1) && !i.2.boot).map
        fun i => (c.1, i.1, s.wholeInst c.1 (BitVec.ofNat 32 i.1))
      rings := s.clusters.flatMap fun c => (ownedBy lids Ring.lid c.2.rings).map fun r => (c.1, r.1, r.2)
      groups := s.clusters.flatMap fun c => (ownedBy lids Group.lid c.2.groups).map fun g => (c.1, g.1, g.2)
      jobs := s.clusters.flatMap fun c => (c.2.jobs.filter fun j => lids.contains j.lid).map fun j => (c.1, j.frozen)
      accs := s.clusters.flatMap fun c => (c.2.accs.filter fun a => a.2.owner.isSome).map fun a => (c.1, a.1, a.2.frozen)
      tokens := ctxs.flatMap fun f => (s.tokensOf f.th.handle).map fun r => (r, f.th.handle)
      colls := s.colls.filter fun c => c.arrivals.any fun a => a.thread.isSome }
  let gone := fun (p : PendRec) => { p with
    thread := p.thread.map fun k => if (s.thread? k).any frozen then noKey + k else k
    job := p.job.map fun x => if (s.job? x.1 x.2).any fun j => lids.contains j.lid then (512 + x.1, x.2) else x }
  let dropCore := fun (k : Core) => { k with
    deque := k.deque.filter fun e => !lids.contains e.lid
    queues := k.queues.filter fun q => !lids.contains q.2.lid }
  let dropCluster := fun (k : Cluster) => { k with
    insts := k.insts.filter fun i => i.2.boot || !lids.contains (BitVec.ofNat 32 i.1)
    rings := k.rings.filter fun r => !lids.contains r.2.lid
    groups := k.groups.filter fun g => !lids.contains g.2.lid
    jobs := k.jobs.filter fun j => !lids.contains j.lid
    accs := k.accs.filter fun a => a.2.owner.isNone }
  let forget := fun (d : Die) => { d with pending := d.pending.map gone }
  (s.unplaced.foldl (fun img x => img.append x.2) img, { s1 with
    unplaced := []
    launches := s1.launches.filter fun x => !lids.contains (BitVec.ofNat 32 x.1)
    cores := s1.cores.map fun c => (c.1, dropCore c.2)
    clusters := s1.clusters.map fun c => (c.1, dropCluster c.2)
    dies := s1.dies.map fun d => (d.1, forget d.2)
    colls := s1.colls.filter fun c => !(c.arrivals.any fun a => a.thread.isSome) })

/-- Join neighbouring ranges of one length each into longer ones. -/
def joinRanges (size : Nat) : List Nat → List (Nat × Nat)
  | [] => []
  | p :: l => match joinRanges size l with
    | (q, n) :: r => if p + size = q then (p, n + size) :: r else (p, size) :: (q, n) :: r
    | [] => [(p, size)]

/-- The ranges that firmware reserves, which RSV lists: the region table, the dump region, the backing pools of the
clusters that were not fenced at boot, which lie side by side on each die, and the pinned debug rings (R156, R205, R357,
R358, assumption 12). -/
def State.reservedRanges (s : State) : List (Nat × Nat) :=
  let pools := (List.range 512).filter fun p => !s.poolless.contains p
  [(Config.regionTable, 8 * 393216), (Config.dumpRegion, 2 ^ 32)] ++
    (List.range 8).map (fun d => (Config.debugRing d, Config.debugRingBytes)) ++
    ((List.range 8).map fun d => (Config.backingBase d, Config.poolBytes * (pools.filter fun p => p / 64 == d).length)).filter
      fun r => r.2 != 0

/-- The clusters that are not fenced, in order (R358). -/
def State.unfenced (s : State) : List Nat := (List.range 512).filter fun p => !s.fenced.contains p

/-- NLIVE and GEN of the boot map (R358). -/
def State.mapCounts (s : State) : List Byte := leBytes 2 s.unfenced.length ++ leBytes 4 s.mapGen.toNat

/-- LOGMAP and FENCE of the boot map (R358). -/
def State.mapClusters (s : State) : List Byte :=
  (List.range 512).flatMap (fun l => leBytes 2 ((s.unfenced[l]?).getD 0xFFFF)) ++ leBytes 64 ((s.fenced.map fun p => 2 ^ p).sum)

/-- The boot map as firmware writes it at boot (R358). -/
def State.writeBootMap (s : State) : State :=
  let rsv := s.reservedRanges
  let bytes := leBytes 4 0x50414D42 ++ leBytes 2 Config.fwMajor ++ s.mapCounts ++
    leBytes 4 0 ++ leBytes 8 Config.regionTable ++ leBytes 8 (8 * 393216) ++ leBytes 8 Config.dumpRegion ++
    leBytes 8 Config.svec.toNat ++ leBytes 16 0 ++ rsv.flatMap (fun r => leBytes 8 r.1 ++ leBytes 8 r.2) ++
    leBytes (960 - 16 * rsv.length) 0 ++ leBytes 3072 0 ++ s.mapClusters ++ leBytes 3008 0 ++
    (List.range 512).flatMap (fun p => leBytes 8 (if s.poolless.contains p then 0 else s.backingPool p)) ++ leBytes 4096 0
  { s with mem := cellWriteN s.mem (bits s.bmap 51 14 * 16384) bytes }

/-- NLIVE, GEN, LOGMAP and FENCE of the boot map, which are all that firmware rewrites at a run-time fence (R358). -/
def State.rewriteMap (s : State) : State :=
  let base := bits s.bmap 51 14 * 16384
  { s with mem := cellWriteN (cellWriteN s.mem (base + 6) s.mapCounts) (base + 0x1000) s.mapClusters }

/-- A run-time fence takes effect at a checkpoint (R357, R358). -/
def State.fenceNow (s : State) : State :=
  if s.toFence.isEmpty then s
  else
    let s := s.toFence.foldl (fun s p => s.modCluster p fun k => { k with live := false }) s
    ({ s with fenced := s.toFence.foldl (fun l p => sinsert p l) s.fenced, toFence := [], mapGen := s.mapGen + 1#32 } : State).rewriteMap

/-- Where a thaw has put things: context keys and handles by launch, the target of each cluster's part of a launch, its
rings and groups, and its jobs by cluster and identity. -/
structure Moved where
  keys : List (Nat × Nat) := []
  handles : List (Word × Word × Word) := []
  targets : List (Nat × Word × Nat) := []
  rings : List (Nat × Word × Nat × Nat) := []
  groups : List (Nat × Word × Nat × Nat) := []
  jobs : List ((Nat × Nat) × Nat × Nat) := []

/-- The new value of a number under a list of moves. -/
def movedNat (l : List (Nat × Nat)) (n : Nat) : Nat := ((l.find? fun p => p.1 == n).map Prod.snd).getD n

/-- The new handle of a context of a launch (R353). -/
def Moved.handle (m : Moved) (lid h : Word) : Word :=
  ((m.handles.find? fun x => x.1 == lid && x.2.1 == h).map fun x => x.2.2).getD h

/-- The new cluster of a launch's part of a cluster. -/
def Moved.cluster (m : Moved) (p : Nat) (lid : Word) : Nat :=
  ((m.targets.find? fun x => x.1 == p && x.2.1 == lid).map fun x => x.2.2).getD p

/-- The new core of a launch's part of a core. -/
def Moved.core (m : Moved) (c : Nat) (lid : Word) : Nat := 8 * m.cluster (c / 8) lid + c % 8

/-- The new entry number of a ring of a launch (R212). -/
def Moved.ring (m : Moved) (p : Nat) (lid : Word) (i : Nat) : Nat :=
  ((m.rings.find? fun x => x.1 == p && x.2.1 == lid && x.2.2.1 == i).map fun x => x.2.2.2).getD i

/-- The new entry number of a group of a launch. -/
def Moved.group (m : Moved) (p : Nat) (lid : Word) (i : Nat) : Nat :=
  ((m.groups.find? fun x => x.1 == p && x.2.1 == lid && x.2.2.1 == i).map fun x => x.2.2.2).getD i

/-- Numbers of a table for some of its old numbers: the old one where it is free, else the lowest free one. -/
def assignFree {α : Type} (table : List (Nat × α)) (limit : Nat) : List Nat → List Nat → Option (List (Nat × Nat))
  | _, [] => some []
  | taken, i :: l =>
    let free := fun n => (aget n table).isNone && !taken.contains n && decide (n < limit)
    match (i :: List.range limit).find? free with
    | none => none
    | some n => (assignFree table limit (n :: taken) l).map fun r => (i, n) :: r

/-- The contexts of a launch's part of a cluster. -/
def Image.part (img : Image) (p : Nat) (lid : Word) : List FrozenCtx :=
  img.ctxs.filter fun f => clusterOf f.th.core == p && f.th.lid == lid

/-- A core's spill area takes the records of thawed contexts: it is enabled, it has not failed, and every page of it
translates (R180, R182, R352). -/
def State.areaUsable (s : State) (c : Nat) : Bool :=
  dbit (s.core c).spla 19 && !(s.core c).spillFailed &&
    (List.range 16).all fun i => (s.areaPa (s.core c).spla (65536 * i) .write).isSome

/-- A frozen context goes back to its record, with the alternate mark of the area in which it lies: it was spilled there when a
checkpoint froze it (R351). -/
def FrozenCtx.stays (f : FrozenCtx) (same : Bool) (c num : Nat) : Option Bool :=
  if same ∧ c = f.th.core ∧ num = f.th.num then f.place else none

/-- A thawed context goes into its core's spill area: not one that a checkpoint froze where it was, since the area did not take
it, and that finds it so still (R182, R348, R351, R352). -/
def State.spillsAgain (s : State) (same : Bool) (f : FrozenCtx) (c num : Nat) : Bool :=
  (f.stays same c num).isSome || !same ||
    (dbit (s.core c).spla 19 && !(s.core c).spillFailed && (s.areaPa (s.core c).spla (512 * num) .write).isSome)

/-- A context keeps its number and generation: on its own core of its own module, where the number is free (R351, R353). -/
def State.keepsNum (s : State) (img : Image) (c : Nat) (f : FrozenCtx) : Bool :=
  !img.foreign && c == f.th.core && (s.thread? (1024 * c + f.th.num)).isNone

/-- The contexts of a part that go to a core can be put there: numbers, the mode, a place for each record in the spill
area, and each commit slot's (R33, R163, R338, R352). -/
def State.ctxsFit (s : State) (img : Image) (same : Bool) (c : Nat) (lid : Word) (fs : List FrozenCtx) : Bool :=
  let l := (img.launches.find? fun x => x.1 == lid.toNat).map Prod.snd
  fs.isEmpty || (s.modeFits c (l.any (·.prot)) && decide ((s.ofCore c).length + fs.length ≤ 1024) &&
    (s.areaUsable c || fs.all fun f => same && s.keepsNum img c f && f.place.isSome) &&
    fs.all fun f => !f.th.det || l.any fun l => (s.slotPa f.th l .write).2.isSome)

/-- The queues of a part that come to a core find room, and none of them is one that the launch has there already (R172,
R173). -/
def State.queuesFit (s : State) (c : Nat) (lid : Word) (fs : List FrozenCtx) (idle : Nat) : Bool :=
  let k := s.core c
  decide (k.queues.length + idle ≤ 64) && ((idle == 0 && fs.all fun f => f.qbind.all fun b => decide (b < 128)) ||
    ((s.ofCore c).all (fun th => th.lid != lid) && k.queues.all fun q => q.2.lid != lid))

/-- A launch's part of a cluster fits on a cluster (R33, R172, R205, R212, R238, R352). -/
def State.partFits (s : State) (img : Image) (same : Bool) (p : Nat) (lid : Word) (t : Nat) : Bool :=
  let k := s.cluster t
  let ctxs := img.part p lid
  let insts := img.insts.filter fun x => x.1 == p && x.2.1 == lid.toNat
  let groups := img.groups.filter fun x => x.1 == p && x.2.2.lid == lid
  let accs := img.accs.filter fun x => x.1 == p && groups.any fun g => x.2.2.owner == some g.2.1
  decide (t < 512) && !s.fenced.contains t && (aget lid.toNat k.insts).isNone &&
    (accs.all fun a => (k.accs.all fun b => b.1 != a.2.1 || b.2.owner.isNone)) &&
    decide ((insts.map fun i => i.2.2.size / 16384).sum ≤ k.freeBacking.length) &&
    decide (k.rings.length + (img.rings.filter fun x => x.1 == p && x.2.2.lid == lid).length ≤ 64) &&
    decide (k.groups.length + groups.length ≤ 64) &&
    decide (k.jobs.length + (img.jobs.filter fun x => x.1 == p && x.2.lid == lid).length ≤ 64) &&
    (List.range 8).all fun i =>
      let mine := ctxs.filter fun f => f.th.core % 8 == i
      let c := 8 * t + i
      let entries := (img.deques.filter fun d => d.1 == 8 * p + i).flatMap fun d => d.2.filter fun e => e.lid == lid
      let idle := (img.queues.filter fun q => q.1 == 8 * p + i && q.2.lid == lid).length
      s.ctxsFit img same c lid mine && s.queuesFit c lid mine idle && s.dequeRoom c entries.length

/-- A key of a park after a move. -/
def movedKey (m : Moved) (lid : Word) : Key → Key
  | .ring cl e => .ring (m.cluster cl lid) (m.ring cl lid e)
  | .ringFree cl => .ringFree (m.cluster cl lid)
  | .engineQueue cl => .engineQueue (m.cluster cl lid)
  | .job cl l n => .job (m.cluster cl lid) l n
  | .group cl g => .group (m.cluster cl lid) (m.group cl lid g)
  | .groupTable cl => .groupTable (m.cluster cl lid)
  | .acc cl a => .acc (m.cluster cl lid) a
  | .queue c q => .queue (m.core c lid) q
  | .pool c => .pool (m.core c lid)
  | .mailbox c => .mailbox (m.core c lid)
  | k => k

/-- A kept effect after a move. -/
def movedKept (m : Moved) (p : Nat) (lid : Word) (k : Kept) : Kept :=
  match k.kind with
  | .conv g => { k with kind := .conv (m.group p lid g) }
  | _ => k

/-- The physical address that a unit's byte has on this package (R352). -/
def State.relocate (s : State) (img : Image) (same : Bool) (pa : Nat) : Nat :=
  if same then pa
  else match img.units.find? fun u => u.pa == pa / 65536 * 65536 with
    | some u => match s.walkXl u.asn u.va with
      | .hit e => e.pa u.va + pa % 65536
      | _ => pa
    | none => pa

/-- The region where the memory of a frozen region lies now (R270, R352). -/
def State.relocateRegion (s : State) (img : Image) (same : Bool) (r : Nat) : Nat :=
  match img.units.find? fun u => u.pa / 2097152 == r with
  | some u => s.relocate img same u.pa / 2097152
  | none => r

/-- An image with the addresses that its pages have on this package: those of buffered stores and their lines, and the regions of
tokens (R270, R338, R352). -/
def Image.relocated (img : Image) (s : State) (same : Bool) : Image :=
  let store := fun (a : Nat) => if a < 2 ^ 60 then s.relocate img same a else a
  { img with
    ctxs := img.ctxs.map fun f => { f with th := { f.th with
      sbuf := f.th.sbuf.foldl (fun b c => aset (store c.1) c.2 b) []
      swhole := f.th.swhole.map fun w => s.relocate img same (32 * w) / 32
      slines := f.th.slines.foldl (fun b l => aset (s.relocate img same (128 * l.1) / 128) l.2 b) [] } }
    tokens := img.tokens.map fun x => (s.relocateRegion img same x.1, x.2) }

/-- The queues of a frozen context on its core, and what its queue registers are bound to there (R172, R176). -/
def State.bindFrozen (s : State) (f : FrozenCtx) (th : Thread) : State × Vector (Option (BitVec 6)) 4 :=
  (List.range 4).foldl (fun x j =>
    let b := (f.qbind.drop j).headD 0
    if b < 128 then x
    else
      let n := BitVec.ofNat 6 b
      let k := x.1.core th.core
      let held := k.queues.find? fun q => q.2.lid == th.lid && q.2.logical == n
      let q := (held.map Prod.fst).getD (freshKey 0 k.queues)
      let own := ((f.queues.find? fun y => y.1 == j).map fun y => y.2.entries).getD []
      let entries := own ++ (held.map fun y => y.2.entries).getD []
      (x.1.modCore th.core fun k => { k with queues := aset q { lid := th.lid, logical := n, entries := entries } k.queues },
        x.2.set! j (some (BitVec.ofNat 6 q)))) (s, Vector.replicate 4 none)

/-- Put a thawed context on its core, as a spilled context whose record lies in the core's spill area and whose buffered
stores lie in its commit slot (R338, R352); the queue records of one that has not moved lie there already. One that a
checkpoint froze where it was, since its area failed, stays resident (R182, R351). -/
def State.putCtx (s : State) (same : Bool) (f : FrozenCtx) (th : Thread) : State :=
  if !s.spillsAgain same f th.core th.num then
    let (s, qb) := s.bindFrozen f th
    s.putThread { th with qb := qb, life := if th.frec.isSome then .faulted else .suspended }
  else
  let stays := f.stays same th.core th.num
  let th := { th with life := .spilled, alternate := stays.getD false }
  let s := match s.recordPa th .write with
    | some pa => s.agentWrite pa ({ f with th := th } : FrozenCtx).record
    | none => s
  let moved := if stays.isSome then [] else f.queues
  let s := moved.foldl (fun s q => match s.areaPa (s.core th.core).spla (524288 + 128 * (4 * th.num + q.1)) .write with
    | some pa => s.agentWrite pa q.2.recordBytes
    | none => s) s
  match s.spillBuffer th with
  | .inr s => s.putThread { th with sbuf := [] }
  | .inl _ => s.putThread th

/-- A thawed context: its place, its handle, and what names the things that have moved (R212, R278, R353). -/
def movedThread (m : Moved) (img : Image) (th : Thread) (num : Nat) (gen : BitVec 10) : Thread :=
  let p := clusterOf th.core
  let place := { th with core := m.core th.core th.lid, num := num, gen := gen }
  { place with
    owed := th.owed.map fun e => { e with owner := place.handle }
    recPend := th.recPend && !img.foreign
    rings := th.rings.map fun r => r.map fun i => BitVec.ofNat 6 (m.ring p th.lid i.toNat)
    gid := th.gid.map (m.group p th.lid)
    kept := th.kept.map (movedKept m p th.lid)
    park := th.park.map fun k => { k with key := movedKey m th.lid k.key }
    ht := if img.foreign then img.begun else th.ht
    -- a translation fault walks again on the new module (R304)
    wake := th.wake || (img.foreign && th.park.any fun k => k.reason == 6)
    wanted := false
    frec := th.frec.map fun r => { r with elsewhere := r.elsewhere || (img.foreign && r.kind != 2) } }

/-- A core receives a context from another core: the acquire at system scope of R6, before the context's first bundle
(R273). On another module AM is first the time at which the thaw began (R278). -/
def State.receive (s : State) (img : Image) (c : Nat) (same : Bool) : State :=
  if same && !img.foreign then s
  else
    let s := if img.foreign then s.modCore c fun k => { k with am := img.begun } else s
    ((s.drain c).sweepAll c).markAcquire c

/-- Place the contexts of a part, and record where they went (R352, R353). -/
def State.placeCtxs (s : State) (img : Image) (same : Bool) (m : Moved) : List FrozenCtx → State × Moved
  | [] => (s, m)
  | f :: l =>
    let c := m.core f.th.core f.th.lid
    let keep := s.keepsNum img c f
    let num := if keep then f.th.num else s.freeNum c
    let (gen, s) := if keep then (f.th.gen, s.modCore c fun k => { k with gens := aset num f.th.gen k.gens }) else s.takeSlot c num
    let prot := ((img.launches.find? fun x => x.1 == f.th.lid.toNat).map fun x => x.2.prot).getD false
    let s := if (s.ofCore c).isEmpty then s.modCore c fun k => { k with detect := prot } else s
    let th := movedThread m img f.th num gen
    let s := s.receive img c (c == f.th.core)
    let s := s.putCtx same f th
    let m := { m with
      keys := (f.th.ckey, th.ckey) :: m.keys
      handles := if th.handle = f.th.handle then m.handles else (f.th.lid, f.th.handle, th.handle) :: m.handles }
    s.placeCtxs img same m l

/-- A group whose members have moved; a rank that has left names no context any more (R236). -/
def Group.moved (g : Group) (keys : List (Nat × Nat)) : Group :=
  { g with members := ((List.range g.members.length).zip g.members).map fun x =>
      if g.departed.contains x.1 then noKey else movedNat keys x.2 }

/-- Place a launch's part of a cluster on a cluster (R212, R226, R238, R352). A job goes with its issuer's core, which a
record of it then names (assumption 62), and to its place in the order of issue (R217). -/
def State.placePart (s : State) (img : Image) (same : Bool) (m : Moved) (p : Nat) (lid : Word) (t : Nat) : State × Moved :=
  let k := s.cluster t
  let rings := (img.rings.filter fun x => x.1 == p && x.2.2.lid == lid).map fun x => x.2
  let groups := (img.groups.filter fun x => x.1 == p && x.2.2.lid == lid).map fun x => x.2
  let ringMap := (assignFree k.rings 64 [] (rings.map Prod.fst)).getD []
  let groupMap := (assignFree k.groups 64 [] (groups.map Prod.fst)).getD []
  let m := { m with
    targets := (p, lid, t) :: m.targets
    rings := m.rings ++ ringMap.map fun x => (p, lid, x.1, x.2)
    groups := m.groups ++ groupMap.map fun x => (p, lid, x.1, x.2) }
  let inst := (img.insts.find? fun x => x.1 == p && x.2.1 == lid.toNat).map fun x => x.2.2
  let s := match inst with
    | none => s
    | some i =>
      let pages := List.range (i.size / 16384)
      let s := s.modCluster t fun k => { k with
        insts := aset lid.toNat { i with backing := k.freeBacking.take pages.length, lost := [], clean := [] } k.insts }
      pages.foldl (fun s p => s.evictPage t lid p) s
  -- those that keep their numbers come first, so that no other one takes a number of theirs
  let (stay, go) := (img.part p lid).partition fun f => s.keepsNum img (m.core f.th.core lid) f
  let (s, m) := s.placeCtxs img same m (stay ++ go)
  let base := (s.cluster t).jobs.foldl (fun n j => max n (j.id + 1)) 0
  let job := fun (j : Job) =>
    let j : Job := { j with
      id := base + j.id, core := m.core j.core lid, recPend := j.recPend && !img.foreign
      claim := j.claim.map fun c => (m.ring p lid c.1, c.2) }
    -- on another module a job that stood in STATE 3 walks again (R316)
    if img.foreign ∧ (j.state = 3 ∨ j.state = 5 ∧ j.held = 3) then
      { j with state := 5, held := 2, recorded := none, chimed := false }
    else j
  let accs := img.accs.filter fun x => x.1 == p && groups.any fun g => x.2.2.owner == some g.1
  let mine := (img.jobs.filter fun x => x.1 == p && x.2.lid == lid).map Prod.snd
  (s.modCluster t fun k => { k with
    rings := rings.foldl (fun l r => aset (movedNat ringMap r.1) r.2 l) k.rings
    groups := groups.foldl (fun l g => aset (movedNat groupMap g.1) (g.2.moved m.keys) l) k.groups
    jobs := (mine.map job).foldl (fun l j => insertBy (fun a b => decide (a.seq < b.seq)) j l) k.jobs
    accs := accs.foldl (fun l a => aset a.2.1 (a.2.2.thawed (a.2.2.owner.map (movedNat groupMap))) l) k.accs },
    { m with jobs := m.jobs ++ mine.map fun j => ((p, j.id), t, base + j.id) })

/-- The parts of an image: a cluster and a launch that has contexts, an instance, deque entries or queues there. -/
def Image.parts (img : Image) : List (Nat × Word) :=
  ((img.insts.map fun i => (i.1, BitVec.ofNat 32 i.2.1)) ++ (img.ctxs.map fun f => (clusterOf f.th.core, f.th.lid)) ++
    (img.deques.flatMap fun d => d.2.map fun e => (clusterOf d.1, e.lid)) ++
    img.queues.map fun q => (clusterOf q.1, q.2.lid)).eraseDups

/-- What an image holds of one launch. -/
def Image.ofLaunch (img : Image) (lid : Word) : Image :=
  let n := lid.toNat
  { img with
    launches := img.launches.filter fun x => x.1 == n
    ctxs := img.ctxs.filter fun f => f.th.lid == lid
    deques := img.deques.map fun d => (d.1, d.2.filter fun e => e.lid == lid)
    queues := img.queues.filter fun q => q.2.lid == lid
    insts := img.insts.filter fun i => i.2.1 == n
    rings := img.rings.filter fun r => r.2.2.lid == lid
    groups := img.groups.filter fun g => g.2.2.lid == lid
    jobs := img.jobs.filter fun j => j.2.lid == lid
    accs := img.accs.filter fun a => img.groups.any fun g => g.1 == a.1 && g.2.2.lid == lid && a.2.2.owner == some g.2.1
    tokens := img.tokens.filter fun t => img.ctxs.any fun f => f.th.lid == lid && f.th.handle == t.2
    units := [], mem := [], pois := [], colls := [] }

/-- What an image holds of some clusters. -/
def Image.inClusters (img : Image) (keep : Nat → Bool) : Image :=
  { img with
    ctxs := img.ctxs.filter fun f => keep (clusterOf f.th.core)
    deques := img.deques.filter fun d => keep (clusterOf d.1)
    queues := img.queues.filter fun q => keep (clusterOf q.1)
    insts := img.insts.filter fun i => keep i.1
    rings := img.rings.filter fun r => keep r.1
    groups := img.groups.filter fun g => keep g.1
    jobs := img.jobs.filter fun j => keep j.1
    accs := img.accs.filter fun a => keep a.1
    tokens := img.tokens.filter fun t => img.ctxs.any fun f => keep (clusterOf f.th.core) && f.th.handle == t.2 }

/-- Place every part: a checkpoint's on its own cluster, unless that has been fenced (R351), a thaw's on its own cluster where
it fits, and else on one that the package picks (assumption 28); none while some part fits nowhere (R352). -/
def State.placeParts (s : State) (img : Image) (same : Bool) (m : Moved) : List (Nat × Word) → Option (State × Moved)
  | [] => some (s, m)
  | (p, lid) :: l =>
    let (v, s) := s.draw
    let others := (List.range 512).map fun i => (v + i) % 512
    let fits := fun t => (same && t == p && !s.fenced.contains p) || s.partFits img same p lid t
    match ((if img.foreign then [] else [p]) ++ others).find? fits with
    | none => none
    | some t =>
      let (s, m) := s.placePart img same m p lid t
      s.placeParts img same m l

/-- A thawed launch (R352). On the same package a checkpoint leaves the addresses that acceptance translated; else they
are translated anew, with the launch's own ASN and SUP. -/
def thawedLaunch (s : State) (img : Image) (same : Bool) (l : Launch) : Launch :=
  let cell := s.cellPa l.asn l.sup
  { l with
    st := if l.st = .waiting then .waiting else if l.placed = 0 then .ready else .suspended
    tokens := if same then l.tokens else l.pkt.tokens.filterMap cell
    ccell := if same then l.ccell else if l.pkt.ccell = 0#64 then none else cell l.pkt.ccell
    order := if img.foreign then s.accepted + l.order else l.order
    waitSince := s.ticks, e1Since := none, lastE := none
    since := l.since.foldl (fun b c => aset (s.relocate img same c.1) c.2 b) [] }

/-- A launch whose parts have found their places (R331, R332, R353, R387). -/
def Launch.moved (l : Launch) (m : Moved) (lid : Word) : Launch :=
  { l with
    lastCluster := l.lastCluster.map fun c => m.cluster c lid
    cores := l.cores.map fun c => m.core c lid
    lastCore := l.lastCore.foldl (fun b c => aset (m.cluster c.1 lid) c.2 b) []
    pend := l.pend.map fun d => { d with core := m.core d.core lid, handle := m.handle lid d.handle }
    renames := m.handles.map (fun x => x.2) ++ l.renames.map fun r => (r.1, m.handle lid r.2) }

/-- Put an entry back into a deque, at its place in the order of insertion (R200). -/
def State.reinsert (s : State) (c : Nat) (e : Entry) : State :=
  (s.modCore c fun k => { k with deque := insertBy (fun a b => decide (a.seq < b.seq)) e k.deque }).settleDeque c

/-- A record that a die still holds pending concerns a context or a job that has its place again: the one that stands under the
link no longer, or not yet, is the one of the image that has had its handle, or its number (R147, R302, R316, R353). -/
def State.movedRec (s : State) (p : PendRec) (img : Image) (m : Moved) : PendRec :=
  let ctx := if (s.recordThread p).isSome then none else img.ctxs.find? fun f => p.handles.contains f.th.handle
  let p := match p.thread, ctx with
    | some _, some f => { p with
      thread := some (movedNat m.keys f.th.ckey), handles := m.handle f.th.lid f.th.handle :: p.handles }
    | _, _ => p
  { p with job := p.job.map fun x =>
      if (s.job? x.1 x.2).any p.ofJob then x
      else ((img.jobs.find? fun j => p.ofJob j.2).bind fun j =>
        (m.jobs.find? fun y => y.1 == (j.1, j.2.id)).map Prod.snd).getD x }

/-- A queue that no context binds comes back with its entries (R173, R176). -/
def State.putQueue (s : State) (c : Nat) (q : PQueue) : State :=
  s.modCore c fun k => { k with queues := aset (freshKey 0 k.queues) q k.queues }

/-- What goes with the parts of a launch that have found their places: its record, its deque entries, its queues without
binders, its tokens, its arrivals at collectives, the records that dies still hold and its pending decrements (R147, R176,
R200, R270, R302, R352, R353, R387). -/
def State.restoreRest (s : State) (img : Image) (m : Moved) (lid : Word) : State :=
  let s := s.modLaunch lid fun l => l.moved m lid
  let s := img.deques.foldl (fun s d => d.2.foldl (fun s e =>
    s.reinsert (m.core d.1 lid) { e with slot := none, owner := m.handle lid e.owner }) s) s
  let s := img.queues.foldl (fun s q => s.putQueue (m.core q.1 lid) q.2) s
  let s := img.tokens.foldl (fun s x =>
    s.setRegionEntry x.1 ((m.handle lid x.2) ++ ((s.regionEntry x.1).extractLsb' 0 32 ||| 8#32))) s
  let s : State := { s with colls := s.colls.map fun c =>
    { c with arrivals := c.arrivals.map fun a => { a with thread := a.thread.map fun k =>
        if noKey ≤ k then ((m.keys.find? fun x => x.1 == k - noKey).map Prod.snd).getD k else k } } }
  let link := fun (d : Die) => { d with pending := d.pending.map fun p => s.movedRec p img m }
  let s : State := if img.foreign then s else { s with dies := s.dies.map fun d => (d.1, link d.2) }
  s.retryDecs fun d _ _ => d == lid

/-- Place a thawed launch, if its parts fit (R352). -/
def State.placeLaunch (s : State) (img : Image) (same : Bool) (lid : Word) : Option State :=
  (s.placeParts img same {} img.parts).map fun r => r.1.restoreRest img r.2 lid

/-- Put the record of a launch of an image back (R352). -/
def State.restoreRecord (s : State) (img : Image) (same : Bool) (x : Nat × Launch) : State :=
  { s with launches := aset x.1 (thawedLaunch s img same x.2) s.launches, accepted := max s.accepted (x.2.order + 1) }

/-- Put what an image holds of a launch back: what fits nowhere waits, and its launch with it, suspended (R352). -/
def State.restoreParts (s : State) (mine : Image) (same : Bool) (lid : Word) : State :=
  (s.placeLaunch mine same lid).getD { s with unplaced := aset lid.toNat mine s.unplaced }

/-- Put a launch of an image back (R352). -/
def State.restoreLaunch (s : State) (img : Image) (x : Nat × Launch) : State :=
  let mine := (img.relocated s false).ofLaunch (BitVec.ofNat 32 x.1)
  (s.restoreRecord img false x).restoreParts mine false (BitVec.ofNat 32 x.1)

/-- Put the launches of a checkpoint back: first all that stood on clusters that are not fenced, where it stood (R351), and then
what the clusters that have been fenced held (R357). -/
def State.restoreAll (s : State) (img : Image) : State :=
  let mine := fun (x : Nat × Launch) keep => (img.ofLaunch (BitVec.ofNat 32 x.1)).inClusters keep
  let s := img.launches.foldl (fun (s : State) x => s.restoreRecord img true x) s
  let s := img.launches.foldl (fun (s : State) x =>
    s.restoreParts (mine x fun p => !s.fenced.contains p) true (BitVec.ofNat 32 x.1)) s
  img.launches.foldl (fun (s : State) x =>
    let rest := mine x s.fenced.contains
    if rest.parts.isEmpty then s else s.restoreParts rest true (BitVec.ofNat 32 x.1)) s

/-- The Gong engine writes each memory unit to the page that its mapping gives here, and watches on its lines are Chimed (R135);
a target that does not grant the write drops it (R308, R311, R352), and none changes the region table (R267). -/
def State.restoreMemory (s : State) (img : Image) : State :=
  img.units.foldl (fun (s : State) u =>
    let dest := s.relocate img false u.pa
    if !s.agentGranted 4 dest .write then s.refuse (masterId 5 4) dest .write none
    else if touchesRegions (s.homeAddr dest) 65536 then s
    else
    let dest := s.homeAddr dest
    let keep := fun a => !(decide (dest ≤ a) && decide (a < dest + 65536))
    let mem := (img.mem.filter fun c => c.1 / 65536 * 65536 == u.pa).foldl
      (fun b c => cellWrite b (dest + c.1 % 65536) c.2) (s.mem.filter fun c => keep c.1)
    let pois := (img.pois.filter fun p => p / 2048 * 65536 == u.pa).foldl
      (fun b p => sinsert (dest / 32 + p % 2048) b) (s.pois.filter fun p => keep (32 * p))
    let s := s.noteWrite dest 65536
    let s := s.cores.foldl (fun s c => s.dropWhere c.1 fun l => !keep (128 * l.n)) { s with mem := mem, pois := pois }
    s.lineChimes (s.watched fun a => !keep a)) s

/-- Put an image back on the package (R351, R352). An arrival at a collective names its context once that has its place; the
deque entries and the jobs of another package come after those that stand here, in their own order (R200, R217). -/
def State.applyImage (s : State) (img : Image) (same : Bool) : State :=
  let s := if same then s else s.restoreMemory img
  let seqs := img.deques.flatMap fun d => d.2.map (·.seq)
  let base := if img.foreign then s.inserted else 0
  let img : Image := { img with deques := img.deques.map fun d => (d.1, d.2.map fun e => { e with seq := base + e.seq }) }
  let s : State := { s with inserted := seqs.foldl (fun n x => max n (base + x + 1)) s.inserted }
  let first := if img.foreign then s.jobsIssued else 0
  let img : Image := { img with jobs := img.jobs.map fun j => (j.1, { j.2 with seq := first + j.2.seq }) }
  let s : State := { s with jobsIssued := img.jobs.foldl (fun n j => max n (j.2.seq + 1)) s.jobsIssued }
  let colls := img.colls.map fun c =>
    { c with arrivals := c.arrivals.map fun a => { a with thread := a.thread.map fun k => if noKey ≤ k then k else noKey + k } }
  let s : State := { s with colls := s.colls ++ colls }
  (if same then s.restoreAll img else img.launches.foldl (fun (s : State) x => s.restoreLaunch img x) s).serve

/-- A page of the page table or of the address-space table that a peer holds (R288, R289, R375). -/
def State.tablesHeld (s : State) : Option Nat :=
  (s.directory.find? fun g =>
    let a := 65536 * g.page
    g.exclusive && ((decide (s.ptBase < a + 65536) && decide (a < s.ptBase + 2 ^ (s.logB + 7))) ||
      a / 524288 == bits s.asb 51 19)).map (·.page)

/-- A thawed launch that has waited for its place finds it (R352); the walks that this takes wait for a page of the tables
that a peer holds (R375). -/
def State.placeDue (s : State) : Option State :=
  if s.stream || s.unplaced.isEmpty then none
  else if let some page := s.tablesHeld then
    if s.recalls.any fun r => r.1 == page then none else some (s.recall page true)
  else s.unplaced.findSome? fun x =>
    let lid := BitVec.ofNat 32 x.1
    (({ s with unplaced := adel x.1 s.unplaced } : State).placeLaunch x.2 false lid).map State.serve

/-- A page that step 7 reads and that a peer holds: of the tables, of a spilled context's records, of an instance's backing
pages, or of the launches' memory (R375). -/
def State.streamHeld (s : State) : Option Nat :=
  let spilled := s.threads.filter fun th => th.life == .spilled && s.frozenLids.contains th.lid
  let pages := s.clusters.flatMap fun c => c.2.insts.flatMap fun i => i.2.lost.map fun p => (c.1, BitVec.ofNat 32 i.1, p)
  (s.tablesHeld.or (spilled.findSome? s.refillWaits)).or
    ((pages.findSome? fun x => s.backingHeld x.1 x.2.1 x.2.2).or
      ((s.frozenUnits.find? fun u => s.heldByPeer u.pa).map fun u => u.pa / 65536))

/-- Step 7: the units that fit are streamed, and the image is complete once all are (R349, R350). -/
def State.streamUnits (s : State) (area size : Nat) : Option (Image × State) × State :=
  let (img, s') := s.takeImage
  let left := s.frozenUnits.filter fun u => !(s.streamed.units.any fun d => d.pa == u.pa)
  let room := (size - img.baseBytes s) / unitRecord - s.streamed.units.length
  if size < img.baseBytes s ∨ room < left.length then (none, { s with streamed := s.streamed.stream s (left.take room) })
  else
    let done := s.streamed.stream s left
    let img := { img with units := done.units, mem := done.mem, pois := done.pois, stime := s.streamed.stime }
    let (head, body) := s.manifest img
    let img := { img with head := head }
    let s' : State := { s' with images := aset (area / 4096) img s'.images, streamed := {} }
    let s' := (left.filter s.hidden).foldl (fun s u => s.refuse (masterId 5 4) u.pa .read none) s'
    (some (img, (s'.uncoreWrite 4 (area + 4096) body).uncoreWrite 4 area head), s)

/-- What follows a complete freeze: the launches have gone, or a checkpoint thaws them at once (R348, R351). -/
def State.freezeDone (s : State) (img : Image) (checkpoint : Bool) : State :=
  let s := { s with stream := false }
  (if checkpoint then s.fenceNow.applyImage img true else s.serve).gongEnd 0 9 img.launches.length

/-- A step of a freeze is done, and the next one is in progress (R347). -/
def State.freezeNext (s : State) : State := { s with gongStep := s.gongStep + 1 }

/-- The next part of a freeze or a checkpoint that is under way (R348, R349), by the step that it is in: step 1 waits for
boundaries, step 2 for the threads and the switches in progress, step 3 for the launches that are ending, and steps 4 and
7 for the pages that they read and that a peer holds (R375). -/
def State.freezeGo (s : State) (checkpoint : Bool) : State :=
  match s.gongStep with
  | 1 => if !s.perform.isEmpty || s.launches.any fun x => x.2.boundary then s else s.freezeNext
  | 2 =>
    let s := s.frozenLids.foldl State.offRoll s
    if s.frozenLids.all s.rollLeft && s.switches.isEmpty then s.freezeNext else s
  | 3 =>
    let s := s.frozenLids.foldl State.hold s
    if s.launches.length = s.frozenLids.length then s.freezeNext else s
  | 4 => match s.tablesHeld with
    | some page => s.recall page true
    | none => s.freezeCtxs.freezeNext
  | 5 => s.freezePages.freezeNext
  | 6 => s.freezeLines.freezeNext
  | _ => match s.streamHeld with
  | some page => s.recall page true
  | none => match s.streamUnits s.gongArea (bits s.gongl 51 12 * 4096) with
    | (none, s) => s.gongEnd 2 7 0
    | (some (img, done), _) => done.freezeDone img checkpoint

/-- Start a freeze or a checkpoint, or go on with the one that is under way; one that stopped in step 7 goes
on there (R347 to R349). -/
def State.freezeStep (s : State) (v : DWord) (checkpoint : Bool) : State :=
  if s.gongGo then s.freezeGo checkpoint
  else if s.stream then s.gongStart v 7
  else { s.gongStart v 1 with stream := true, streamed := { stime := s.stime } }

/-- A freeze (R348). -/
def execFreeze (v : DWord) (s : State) : Host.Outcome State Fault Refusal := .next (s.freezeStep v false)

/-- A checkpoint (R351). -/
def execCheckpoint (v : DWord) (s : State) : Host.Outcome State Fault Refusal := .next (s.freezeStep v true)

/-- A write of MODE 11 (R347). -/
def execGongBadMode (v : DWord) (s : State) : Host.Outcome State Fault Refusal :=
  if bits v 2 1 = 3 ∧ !s.gongGo then .next { s with gongErr := 1 } else .next s

/-- Every address of a frozen packet that acceptance translated has a mapping here (R352). -/
def State.packetMapped (s : State) (l : Launch) : Bool :=
  let mapped := fun va => (s.packetPa l.asn l.sup va .write).isSome
  (l.pkt.tokens.all fun t => (s.cellPa l.asn l.sup t).isSome) &&
    (l.pkt.ccell == 0#64 || (s.cellPa l.asn l.sup l.pkt.ccell).isSome) &&
    (l.pkt.farea == 0#64 || l.pkt.fanum == 0 || mapped l.pkt.farea) && (!l.det || mapped l.pkt.dbuf)

/-- The CRCs of a manifest's segments hold (R350, R352). -/
def State.segmentsOk (s : State) (area : Nat) (head : List Byte) : Bool :=
  (List.range (field head 6 2)).all fun i =>
    let o := 64 + 32 * i
    crc32 (s.homeRead (area + field head (o + 8) 8) (field head (o + 16) 8)) == field head (o + 24) 4

/-- What the checks of a thaw come to: the ERR of the first that fails, or the image. -/
inductive ThawCheck where
  | err (n : Nat)
  | image (img : Image)
  deriving DecidableEq, Repr

/-- The image whose manifest lies at an address: the one of this package with that header, or another package's (R352,
assumption 16). -/
def State.thawImage (s : State) (area : Nat) (head : List Byte) : Image :=
  ((s.images.find? fun x => x.2.head == head).map Prod.snd).getD (s.foreignImage area head)

/-- The walks that the checks of a thaw make: their refused reads are counted and reported (R311, R352). -/
def State.noteThaw (s : State) (img : Image) : State :=
  let s := img.units.foldl (fun (s : State) u => s.noteXl u.asn u.va) s
  img.launches.foldl (fun (s : State) x =>
    let s := s.notePacket x.2.asn x.2.pkt 0
    if x.2.det then s.noteXl x.2.asn x.2.pkt.dbuf else s) s

/-- The checks of a thaw (R352). -/
def State.thawCheck (s : State) (area : Nat) : ThawCheck :=
  let head := s.homeRead area 4096
  if field head 0 4 ≠ 0x474E4F47 ∨ crc32 (head.take 4092) ≠ field head 4092 4 ∨ 125 < field head 6 2 ∨
      !s.segmentsOk area head then .err 4
  else if field head 4 2 ≠ Config.fwMajor then .err 5
  else if deviceBytes < field head 16 8 then .err 6
  else
    let img := s.thawImage area head
    if !(img.units.all fun u => match s.walkXl u.asn u.va with
        | .hit _ => true
        | _ => false) || !(img.launches.all fun x => s.packetMapped x.2) then .err 7
    else if !(img.launches.all fun x =>
        let q := s.queue x.2.q
        q.en && q.asn == x.2.asn && q.sup == x.2.sup && dbit q.lqd 5 == x.2.det) then .err 8
    else if img.launches.any fun x => (aget x.1 s.launches).isSome then .err 9
    else .image img

/-- The first 2 MiB unit of some bytes that an uncore agent may not read (R308, R310). -/
def State.readRefused (s : State) (agent a n : Nat) : Option Nat :=
  ((List.range ((a + n - 1) / 2097152 - a / 2097152 + 1)).map fun i => max a ((a / 2097152 + i) * 2097152)).find? fun x =>
    !s.agentGranted agent x .read

/-- The first address of an image that the Gong engine may not read (R308, R310). -/
def State.manifestRefused (s : State) (area : Nat) : Option Nat :=
  let head := s.homeRead area 4096
  (s.readRefused 4 area 4096).or <|
    if field head 0 4 ≠ 0x474E4F47 ∨ 125 < field head 6 2 then none
    else (List.range (field head 6 2)).findSome? fun i =>
      let o := 64 + 32 * i
      if field head (o + 16) 8 = 0 then none else s.readRefused 4 (area + field head (o + 8) 8) (field head (o + 16) 8)

/-- A page that a thaw reads or writes and that a peer holds (R375). -/
def State.thawHeld (s : State) : Option Nat :=
  s.tablesHeld.or <| match s.thawCheck s.gongArea with
    | .err _ => none
    | .image img => (img.units.find? fun u => s.heldByPeer (s.relocate img false u.pa)).map fun u =>
      s.relocate img false u.pa / 65536

/-- A thaw (R352): its checks, then the launches of the image, each of which waits suspended where it fits nowhere. A read
that is refused returns what no CRC fits (R311); one of a page that a peer holds waits for it (R375). -/
def execThaw (v : DWord) (s : State) : Host.Outcome State Fault Refusal :=
  let s := if s.gongGo then s else s.gongStart v 8
  if let some pa := s.manifestRefused s.gongArea then
    .next ((s.refuse (masterId 5 4) pa .read none).gongEnd 4 9 0)
  else if let some page := s.thawHeld then .next (s.recall page false)
  else match s.thawCheck s.gongArea with
  | .err n =>
    let s := if 7 ≤ n then s.noteThaw (s.thawImage s.gongArea (s.homeRead s.gongArea 4096)) else s
    .next (s.gongEnd n 9 0)
  | .image img => .next (((s.noteThaw img).applyImage { img with begun := BitVec.ofNat 64 (s.gongFrom.getD s.ticks / 9) } false).gongEnd 0 9 img.launches.length)

/-- The host link has failed for 10 ms: a stream ends with ERR 3, and the launches stay suspended (R349). -/
def execHostLinkFailure (s : State) : Host.Outcome State Fault Refusal :=
  if s.gongGo && s.stream && s.gongStep == 7 then .next (s.gongEnd 3 7 0) else .next s

end Sys2Proof.Machine
end

