-- ==== Sys2Proof/Machine/Recovery.lean ====
section
/-! DEFINITION. Error counters and throttling (R354, R359), fatal errors and their dump (R356), and the reset of
the package and of its islands, with the boot threads (R357, R358, R360). -/

namespace Sys2Proof.Machine

/-- Ticks in an hour (R354). -/
def hourTicks : Nat := 3600 * 9000000000

/-- Poisonings of a cluster within the last hour (R354). -/
def State.recentPoison (s : State) (cl : Nat) : Nat :=
  ((s.cluster cl).poisonTimes.filter fun t => decide (s.ticks - t ≤ hourTicks)).length

/-- A cluster has more than 16 poisonings in one hour (R354). -/
def State.overPoisoned (s : State) (cl : Nat) : Bool := decide (16 < s.recentPoison cl)

/-- The management controller reports a cluster's poisonings (R354, R355). -/
def execPoisonThreshold (cluster : Nat) (s : State) : Host.Outcome State Fault Refusal :=
  if s.overPoisoned cluster then
    let k := s.cluster cluster
    let s := s.modCluster cluster fun k => { k with poisonTimes := [] }
    .next (s.machineEvent (dieOfCluster cluster) 5 none
      (leBytes 4 cluster ++ leBytes 4 k.replays ++ leBytes 4 k.corrections ++ leBytes 4 k.poisonings))
  else .next s

/-- A frequency that a cluster island can run at (R359). -/
def islandFreq (f : BitVec 12) : Bool :=
  decide (500 ≤ f.toNat) && decide (f.toNat ≤ 2250) && f.toNat % 125 == 0

/-- The die whose ring takes the events of an island: its cluster's, its own, or the die beside its I/O die (R2, R355,
assumption 20). -/
def dieOfIsland (i : Nat) : Nat :=
  if i < 512 then dieOfCluster i else if i < 520 then i - 512 else if i = 520 then 0 else 3

/-- The management controller changes an island's frequency: a cluster's, by steps of 125 MHz, or an uncore's or an I/O
die's, for which R359 states no steps. Only the cycles of a cluster island follow it; the others only report it, since no
rule ties an effect to their clock. -/
def execThrottle (cluster : Nat) (fmhz : BitVec 12) (cause : BitVec 4) (s : State) : Host.Outcome State Fault Refusal :=
  if cluster < 522 && (512 ≤ cluster || islandFreq fmhz) && decide (cause.toNat ≤ 4) then
    let s := if cluster < 512 then s.modCluster cluster fun k => { k with fmhz := fmhz, cause := cause, phase := 0 }
      else { s with islands := aset cluster { fmhz := fmhz, cause := cause } s.islands }
    .next (s.machineEvent (dieOfIsland cluster) 6 none
      (leBytes 4 cluster ++ leBytes 4 fmhz.toNat ++ leBytes 4 cause.toNat))
  else .next s

/-- A section of the dump: its offset, its size, and the bytes that it holds, by offset (R356). -/
structure Section' where
  off : Nat
  size : Nat
  parts : List (Nat × List Byte)

/-- The bytes of an instance as its frames hold them in the eight partitions of a cluster (R204): partition p's at
131,072 × p, the bytes of share offsets 2,048k to 2,048k + 2,047 of the page k in its frame (assumption 29). -/
def Inst.dumpParts (i : Inst) (base : Nat) : List (Nat × List Byte) :=
  ((List.range i.frames.length).filter fun k => !i.lost.contains k).flatMap fun k => (List.range 8).map fun p =>
    (base + 131072 * p + 2048 * (i.frames.drop k).headD 0,
      (List.range 256).flatMap fun j => cellReadN i.data (16384 * k + 64 * j + 8 * p) 8)

/-- The sections of a dump (R356): error logs, event rings, context records, scratchpads, L2 data and tags,
accumulator images. A spilled context's record that cannot be read any more is zeros. -/
def State.dumpSections (s : State) : List Section' :=
  let ring := fun d =>
    let v := (s.die d).mevd
    if dbit v 5 then [(0x200000 * d, s.homeRead (ringBase v + 128) (32 * 2 ^ ringLog v))] else []
  let record := fun (th : Thread) =>
    if th.life = .spilled then ((s.recordPa th .read).map fun pa => cellReadN s.mem pa 512).getD (List.replicate 512 0#8)
    else withCrc (th.recordBytes (s.qbindBytes th))
  let scratch := s.clusters.flatMap fun c => c.2.insts.flatMap fun i => i.2.dumpParts (0x100000 * c.1)
  [{ off := 0x1000, size := 0x8000, parts := [(0, freeBytes s.fresh 0x8000)] },
   { off := 0x10000, size := 0x1000000, parts := (List.range 8).flatMap ring },
   { off := 0x2000000, size := 0x80000000, parts := s.threads.map fun th => (512 * th.ckey, record th) },
   { off := 0x82000000, size := 0x20000000, parts := scratch },
   { off := 0xA2000000, size := 0x20000000, parts := [(0, freeBytes (s.fresh + 0x8000) 0x20000000)] },
   { off := 0xC2000000, size := 0x2000000, parts := [(0, freeBytes (s.fresh + 0x20008000) 0x2000000)] },
   { off := 0xC4000000, size := 0x18020000, parts := s.clusters.flatMap fun c => c.2.accs.map fun a =>
       (imageBytes * (4 * c.1 + a.1), a.2.image) }]

/-- Write a dump at a physical address. Which sections can be read is for the failing hardware to say: a free
mask; the others are zeros (R356). -/
def State.writeDump (s : State) (base : Nat) (cause : Word) (die : Nat) : State :=
  let (mask, s1) := s.draw
  let sections := s.dumpSections.zip (List.range 7)
  let head := leBytes 4 0x504D5544 ++ leBytes 2 Config.fwMajor ++ leBytes 2 0 ++ leBytes 8 s.stime.toNat ++
    leBytes 4 cause.toNat ++ leBytes 4 die ++ leBytes 8 (mask % 128)
  let clear := s.mem.filter fun c => !(decide (base ≤ c.1) && decide (c.1 < base + 0xDC020000))
  let mem := sections.foldl (fun m x =>
    if mask.testBit x.2 then x.1.parts.foldl (fun m p => cellWriteN m (base + x.1.off + p.1) p.2) m else m)
    (cellWriteN clear base (withCrc head))
  { s1 with mem := mem, fresh := s1.fresh + 0x30000000 }

/-- The cause of a fatal error that puts the dump into host memory: a lost HBM stack (R356, assumption 29). -/
def causeHbm : Word := 3#32

/-- A fatal error (R356): every island stops, the state is dumped, machine event 8 is sent, and the package
waits for reset. A Gong in progress ends, as every operation does (R347, R349). -/
def execFatalError (cause : Word) (die : Nat) (s : State) : Host.Outcome State Fault Refusal :=
  if s.fatal.isSome then .next s
  else
    let base := if cause = causeHbm then bits s.fdump 51 12 * 4096
      else leNat (cellReadN s.mem (bits s.bmap 51 14 * 16384 + 32) 8)
    let s : State := { s with fatal := some cause }
    let s := if s.gongGo then s.gongEnd s.gongErr s.gongStep 0 else s
    .next ((s.writeDump base cause die).machineEvent die 8 none (leBytes 4 cause.toNat ++ leBytes 4 0 ++ leBytes 8 base))

/-- The regions that firmware reserves, whose kind it fixes (R267, R358, assumption 12). -/
def State.reservedRegions (s : State) : List Nat :=
  (s.reservedRanges ++ [(Config.bootMapAddr, 16384)]).flatMap fun (r : Nat × Nat) =>
    (List.range ((r.1 + r.2 - 1) / 2097152 + 1 - r.1 / 2097152)).map fun i => r.1 / 2097152 + i

/-- A frozen image after a reset, which has emptied the dies' fault queues: a record that one of them held pending is written
no more, and one that it had written lies there no more (R147, R302, R357). -/
def Image.afterReset (img : Image) : Image :=
  { img with
    ctxs := img.ctxs.map fun f => { f with th := { f.th with
      recPend := false, frec := f.th.frec.map fun r => { r with elsewhere := r.elsewhere || r.kind != 2 } } }
    jobs := img.jobs.map fun j => (j.1, j.2.recordOut true) }

/-- The package leaves reset (R357, R358): clusters that fail their diagnostics are fenced, firmware writes the
boot map and the region table, and the live islands leave reset next. Memory keeps its bytes (assumption 3). -/
def execPackageReset (failing : List Nat) (s : State) : Host.Outcome State Fault Refusal :=
  let fenced := (failing.filter fun p => decide (p < 512)).foldl (fun l p => sinsert p l) []
  let mem := ({ s with poolless := fenced } : State).reservedRegions.foldl (fun m r => cellWrite m (regionEntryAddr r) 2#8)
    (s.mem.filter fun c => !(decide (Config.regionTable ≤ c.1) && decide (c.1 < Config.regionTable + 8 * 393216)))
  let s' := { State.reset with
    mem := mem, pois := s.pois, rom := s.rom, images := s.images.map fun (x : Nat × Image) => (x.1, x.2.afterReset)
    signals := s.signals, fresh := s.fresh
    ticks := s.ticks, reported := s.ticks, linkA := s.linkA, linkB := s.linkB
    fenced := fenced, poolless := fenced, bmap := BitVec.ofNat 64 Config.bootMapAddr, mypn := BitVec.ofNat 10 Config.peerNumber
    bootImage := s.bootImage
    agenda := ((List.range 512).filter fun p => !fenced.contains p).map Instr.islandResetRelease }
  .next s'.writeBootMap

/-- The boot thread of a cluster (R193, R360). -/
def State.bootThread (s : State) (cl : Nat) (gen : BitVec 10) (primary : Bool) : Thread :=
  let live := 512 - s.fenced.length
  { core := 8 * cl, num := 0, gen := gen, blocks := 4, boot := true
    regs := if primary then (Vector.replicate 64 ({} : Reg)).set! 4 { val := BitVec.ofNat 32 live } else Vector.replicate 64 {}
    receiver := !primary, tcnt := 1#32, tctl := 64#32, rngs := rngStart 0#32 0#32, svec := s.bootSvec, ht := s.stime, pc := BitVec.ofNat 64 imageBase }

/-- A byte of the image: of the one that the management controller has written, or of the run's, whose word at byte 4w is w
(R360, R361, assumption 58). -/
def imageByte (image : Option (List Byte)) (i : Nat) : Byte :=
  match image with
  | some bytes => bytes[i]?.getD 0#8
  | none => BitVec.ofNat 8 (i / 4 / 2 ^ (8 * (i % 4)))

/-- The scratchpad instance of a boot thread: the primary's holds the image (R360). -/
def State.bootInst (s : State) (primary : Bool) : Inst :=
  let image := ((List.range 16384).map fun i => (i, imageByte s.bootImage i)).filter fun c => c.2 != 0#8
  { size := 65536, boot := true, frames := List.range 4, data := if primary then image else [] }

/-- A cluster island leaves reset: its cores' acquire marks are set, and core 0 starts the boot thread (R273,
R360). -/
def execIslandResetRelease (cluster : Nat) (s : State) : Host.Outcome State Fault Refusal :=
  if 512 ≤ cluster ∨ s.fenced.contains cluster ∨ (s.cluster cluster).live then .next s
  else
    let primary := (List.range cluster).all fun p => s.fenced.contains p
    let s := s.modCluster cluster fun k => { k with live := true, insts := aset 0 (s.bootInst primary) k.insts }
    let s := (List.range 8).foldl (fun s i => s.modCore (8 * cluster + i) fun k => { k with clk := 0#64, am := s.stime }) s
    let (gen, s) := s.takeSlot (8 * cluster) 0
    .next (s.putThread (s.bootThread cluster gen primary))

end Sys2Proof.Machine
end

