-- ==== Sys2Proof/Machine/Fabric.lean ====
section
/-! DEFINITION. The register blocks as they are written (R368), the host (R369 to R371), peer modules and their
grants (R372 to R377), forwarded launches (R384), and the residency report (R385). -/

namespace Sys2Proof.Machine

/-- A value with its LOG field [4:0] brought into a range (R156, R289, R301). -/
def clampLog (v : DWord) (lo hi : Nat) : DWord :=
  (v &&& ~~~0x1F#64) ||| BitVec.ofNat 64 (max lo (min hi (bits v 4 0)))

/-- An entry of an access table with one of its words written (R309). -/
def AccessEntry.write (e : AccessEntry) (word : Nat) (v : DWord) : AccessEntry :=
  if word = 0 then { e with w0 := v &&& 0xFFFFFFFFFF00000F#64 } else { e with w1 := v &&& 0x3FFFFFFFFFFFFFFF#64 }

/-- Write a word of an access table's window (R309). -/
def State.writeAccess (s : State) (target off : Nat) (v : DWord) : State :=
  let key := 1024 * target + off / 16
  { s with access := aset key (((aget key s.access).getD {}).write (off / 8 % 2) v) s.access }

/-- The next event is a given one. -/
def State.soon (s : State) (i : Instr) : State := { s with agenda := i :: s.agenda }

/-- A write to `gongc` (R347). -/
def State.writeGongc (s : State) (v : DWord) : State :=
  if s.gongGo then s
  else match bits v 2 1 with
    | 3 => s.soon (.gongBadMode v)
    | m =>
      if !dbit v 0 then { s with gongc := v &&& 0xFFFFFFFFFF006#64 }
      else s.soon (if m = 0 then .freeze v else if m = 1 then .checkpoint v else .thaw v)

/-- A write to a register of a die's block (R368). -/
def State.writeDieReg (s : State) (d off : Nat) (m : Option (BitVec 20)) (v : DWord) : State :=
  let ring := clampLog (v &&& 0xFFFFFFFFFF07F#64) 6 16
  if off = 0x1000 then s.modDie d fun k => { k with fqd := ring }
  else if off = 0x1008 then s.modDie d fun k => { k with mevd := ring }
  else if off = 0x1010 then s.modDie d fun k => { k with dbgd := clampLog (v &&& 0xFFFFFFFFFF03F#64) 4 12 }
  else if off = 0x1018 then s.soon (.chimePortWrite d (m.getD 0#20) v)
  else if 0x10000 ≤ off ∧ off < 0x14000 then
    let c := 512 * d + (off - 0x10000) / 32
    let area := v &&& 0x1FFFFFFFFF8FFFF#64
    s.modCore c fun k => match off / 8 % 4 with
      | 0 => { k with spla := area, spillHeld := false }
      | 1 => { k with splb := area }
      | 2 => { k with dqa := v &&& 0x1FFFFFFFFE0FFFF#64 }
      | _ => { k with dql := BitVec.ofNat 64 (min 65536 (bits v 16 0)) }
  else if 0x30000 ≤ off ∧ off < 0x30400 then s.writeAccess d (off - 0x30000) v
  else if 0x31000 ≤ off ∧ off < 0x31400 then s.writeAccess (8 + d) (off - 0x31000) v
  else s

/-- A write to a register of IOD-A's block (R368). -/
def State.writeIodA (s : State) (off : Nat) (v : DWord) : State :=
  if off < 0x200 then s.soon (.lqdWrite (BitVec.ofNat 6 (off / 8)) v)
  else if 0x1000 ≤ off ∧ off < 0x1200 then
    let q := (off - 0x1000) / 8
    (s.modQueue q fun k => { k with log := BitVec.ofNat 4 (min 12 (bits v 35 32)) }).soon
      (.doorbell (BitVec.ofNat 6 q) (v.extractLsb' 0 16))
  else if 0x2000 ≤ off ∧ off < 0x2200 then
    s.soon (.abort (BitVec.ofNat 6 ((off - 0x2000) / 8)) (v.extractLsb' 0 32))
  else if off = 0x3000 then s.writeGongc v
  else if off = 0x3008 then { s with gongl := v &&& 0xFFFFFFFFFF000#64 }
  else if off = 0x3018 then { s with fdump := v &&& 0xFFFFFFFFFF000#64 }
  else if off = 0x3100 then { s with dseed := v.extractLsb' 0 32 }
  else if off = 0x3110 then { s with rrep := v &&& ~~~0x7F#64, reported := s.ticks }
  else if off = 0x3118 then { s with ptb := clampLog (v &&& 0xFFFFFFFFE071F#64) 10 30 }
  else if off = 0x3120 then { s with asb := v &&& 0xFFFFFFFF80001#64 }
  else if 0x4000 ≤ off ∧ off < 0x4400 then s.writeAccess 16 (off - 0x4000) v
  else if 0x5000 ≤ off ∧ off < 0x5400 then s.writeAccess 17 (off - 0x5000) v
  else s

/-- A write to a register of IOD-B's block (R368). -/
def State.writeIodB (s : State) (off : Nat) (v : DWord) : State :=
  if off = 8 then { s with ccb := v &&& 0xFFFFFFFFFC001#64 }
  else if 0x1000 ≤ off ∧ off < 0x1400 then s.writeAccess 18 (off - 0x1000) v
  else if 0x2000 ≤ off ∧ off < 0x2400 then s.writeAccess 19 (off - 0x2000) v
  else if 0x3000 ≤ off ∧ off < 0x3400 then s.writeAccess 20 (off - 0x3000) v
  else if 0x10000 ≤ off ∧ off < 0x12000 then
    { s with endpoints := aset ((off - 0x10000) / 8) (v &&& 0x800003FFFFFFFFFF#64) s.endpoints }
  else s

/-- A write to a register block; read-only and unassigned offsets ignore it (R368). -/
def State.writeReg (s : State) (pa : Nat) (m : Option (BitVec 20)) (v : DWord) : State :=
  match s.place pa with
  | .dieBlock d off => s.writeDieReg d off m v
  | .iodA off => s.writeIodA off v
  | .iodB off => s.writeIodB off v
  | _ => s

/-- An 8-byte write to a register block, by a master whom the block's table checks, or by the management
controller (R308, R311, R368). -/
def execRegisterWrite (master : Option (BitVec 20)) (pa : Nat) (v : DWord) (s : State) : Host.Outcome State Fault Refusal :=
  let refused := match master with
    | some m => pa % 8 != 0 || !s.granted m pa .write
    | none => false
  if refused then .next (s.refuse (master.getD 0#20) pa .write none) else .next (s.writeReg pa master v)

/-- A request waits for the recall of a page that a peer holds exclusively (R375). -/
def State.defer (s : State) (page : Nat) (forRead : Bool) (i : Instr) : State :=
  { s.recall page forRead with deferred := s.deferred ++ [(page, i)] }

/-- A page is back: the writes that waited at its home perform, the machine events and the join-block updates that waited
for it with them, and the requests that waited for it are made again (R375, R376). -/
def State.undefer (s : State) (page : Nat) : State :=
  let here := fun (c : Host.Cell) => c.1 / 65536 == page
  let bytes := s.heldBytes.filter here
  let s : State := { s with
    recalls := s.recalls.filter fun r => r.1 != page
    heldBytes := s.heldBytes.filter fun c => !here c }
  let s := bytes.foldl (fun s c => s.agentWrite c.1 [c.2]) s
  let s := ((List.range 8).foldl State.postEvents s).retryDecs fun _ _ d => d.page == some page
  { s with
    agenda := s.agenda ++ (s.deferred.filter fun x => x.1 == page).map Prod.snd
    deferred := s.deferred.filter fun x => x.1 != page }

/-- The physical address of a host function's BAR0 offset (R368): a virtual function sees its queue's `lqp` and
`lqk`. -/
def bar0Pa (fn : BitVec 16) (off : Nat) : Option Nat :=
  if fn = 0 then (if off < 0x40000000 then some (0xC000000000 + off) else none)
  else if 64 < fn.toNat then none
  else if off < 8 then some (0xC020001000 + 8 * (fn.toNat - 1) + off)
  else if off < 16 then some (0xC020002000 + 8 * (fn.toNat - 1) + off - 8)
  else none

/-- Bytes of memory as a request from outside reads them; those of a poisoned sector are not known (R125, assumption
26). -/
def State.readOut (s : State) (pa n : Nat) : List Byte × State :=
  (s.knownBytes pa n s.fresh, if s.homePois pa n then { s with fresh := s.fresh + n } else s)

/-- A read through BAR0 (R368, R369): only an aligned one of 8 bytes reads a register. -/
def State.bar0Read (s : State) (fn : BitVec 16) (off n : Nat) : State :=
  let m := masterId 3 fn.toNat
  match bar0Pa fn off with
  | none => s.signal (if fn.toNat ≤ 64 ∧ fn ≠ 0 then .reply fn (leBytes n 0) else .unsupported fn)
  | some pa =>
    if off % 8 ≠ 0 ∨ n ≠ 8 ∨ !s.granted m pa .read then (s.refuse m pa .read none).signal (.unsupported fn)
    else s.signal (.reply fn (leBytes 8 (s.regRead (s.place pa)).toNat))

/-- A write through BAR0 (R368, R369): one that is not of 8 bytes is refused. -/
def State.bar0Write (s : State) (fn : BitVec 16) (off : Nat) (bytes : List Byte) : State :=
  let m := masterId 3 fn.toNat
  match bar0Pa fn off with
  | none => s
  | some pa =>
    if bytes.length ≠ 8 then s.refuse m pa .write none
    else s.soon (.registerWrite (some m) pa (BitVec.ofNat 64 (leNat bytes)))

/-- Every unit of some bytes is granted (R310). -/
def State.grantedAll (s : State) (m : BitVec 20) (a n : Nat) (k : AccKind) : Bool :=
  (List.range ((a + n - 1) / 2097152 - a / 2097152 + 1)).all fun i =>
    s.granted m (max a ((a / 2097152 + i) * 2097152)) k

/-- The bytes of an access through BAR2 that reach device memory; the rest reads all-ones and takes no write (R369). -/
def barBytes (off n : Nat) : Nat := min n (deviceBytes - off)

/-- A read through BAR2 (R369). -/
def State.bar2Read (s : State) (fn : BitVec 16) (off n : Nat) : State :=
  let m := masterId 3 fn.toNat
  let k := barBytes off n
  if fn ≠ 0 then s.signal (.unsupported fn)
  else if k = 0 then s.signal (.reply fn (List.replicate n 0xFF#8))
  else if !s.grantedAll m off k .read then (s.refuse m off .read none).signal (.unsupported fn)
  else match s.heldPage off k with
    | some page => s.defer page true (.hostRequest fn (.bar2Read off n))
    | none =>
      let (bytes, s) := s.readOut off k
      s.signal (.reply fn (bytes ++ List.replicate (n - k) 0xFF#8))

/-- A write through BAR2 (R369). -/
def State.bar2Write (s : State) (fn : BitVec 16) (off : Nat) (bytes : List Byte) : State :=
  let m := masterId 3 fn.toNat
  let k := barBytes off bytes.length
  if fn ≠ 0 ∨ k = 0 then s
  else if !s.grantedAll m off k .write then s.refuse m off .write none
  else match s.heldPage off k with
    | some page => s.defer page false (.hostRequest fn (.bar2Write off bytes))
    | none => s.agentWrite off (bytes.take k)

/-- A host request (R368, R369); a host write of host memory is seen by the watches there (R370). -/
def execHostRequest (fn : BitVec 16) (req : HostReq) (s : State) : Host.Outcome State Fault Refusal :=
  match req with
  | .bar0Read off n => .next (s.bar0Read fn off n)
  | .bar0Write off bytes => .next (s.bar0Write fn off bytes)
  | .bar2Read off n => .next (s.bar2Read fn off n)
  | .bar2Write off bytes => .next (s.bar2Write fn off bytes)
  | .memWrite pa bytes => match s.place pa with
    | .host _ => .next (s.agentWrite pa bytes)
    | _ => .next s

/-- The grant of a peer on one of this module's pages (R374). -/
def State.grantOf (s : State) (page : Nat) : Option Grant := s.directory.find? fun g => g.page == page

/-- Put a page's grant back, or drop one that nobody holds. -/
def State.putGrant (s : State) (g : Grant) : State :=
  let rest := s.directory.filter fun x => x.page != g.page
  { s with directory := if g.holders.isEmpty then rest else rest ++ [g] }

/-- A grant of E takes the page out of line coherence here: its lines leave every sharer, and watches on them
are Chimed (R375). -/
def State.leaveCoherence (s : State) (page : Nat) : State :=
  let s := s.settleAll
  let s := s.cores.foldl (fun s c => s.dropWhere c.1 fun l => l.h && 128 * l.n / 65536 == page) s
  s.lineChimes (s.watched fun a => a / 65536 == page)

/-- Room for a peer's grant (R374): with a full directory, or with 8 other holders of the page, the least recently used grant is
recalled. The directory and the holders of a page stand with the most recently used one last; the page whose return the
request must wait for, if there is one. -/
def State.makeGrantRoom (s : State) (peer page : Nat) : Option Nat × State :=
  match s.grantOf page with
  | some g => if g.holders.length < 8 ∨ g.holders.contains peer then (none, s)
    else (none, (s.putGrant { g with holders := g.holders.drop 1 }).signal (.peerRecall page false))
  | none =>
    if s.directory.length < 65536 then (none, s)
    else match s.directory with
      | [] => (none, s)
      | g :: rest =>
        if g.exclusive then (some g.page, s)
        else (none, ({ s with directory := rest } : State).signal (.peerRecall g.page false))

/-- A peer asks for a grant on a page of this module (R374). -/
def State.givePeer (s : State) (peer : BitVec 10) (page : Nat) (exclusive : Bool) : State :=
  let p := peer.toNat
  match s.makeGrantRoom p page with
  | (some other, s) => s.defer other false (.peerRequest (.ualink peer) (.grant page exclusive))
  | (none, s) =>
    let others := ((s.grantOf page).map fun g => g.holders.filter fun h => h != p).getD []
    let e := exclusive && others.isEmpty
    let s := if e then s.leaveCoherence page else s
    (s.putGrant { page := page, exclusive := e, holders := others ++ [p] }).signal (.peerGrant peer page e)

/-- A page is held exclusively, so that a request for it waits for its recall: by a module other than the one that asks,
or by any where the request performs at the home, as an atomic or a wait does (R375, R376). -/
def State.heldByOther (s : State) (peer : BitVec 10) (page : Nat) (atHome : Bool) : Bool :=
  match s.grantOf page with
  | some g => g.exclusive && (atHome || !g.holders.contains peer.toNat)
  | none => false

/-- A grant is used: it is the last of the directory to be recalled, and its holder the last of the page's (R374). -/
def State.useGrant (s : State) (peer : BitVec 10) (page : Nat) : State :=
  match s.grantOf page with
  | some g =>
    if g.holders.contains peer.toNat then
      s.putGrant { g with holders := g.holders.filter (fun h => h != peer.toNat) ++ [peer.toNat] }
    else s
  | none => s

/-- A request that performs at the owner's home, whoever holds the page (R376). -/
def performsAtHome : PeerReq → Bool
  | .atomic .. | .cell .. | .joinUpdate .. | .watch _ => true
  | _ => false

/-- A peer's request is granted at the UALink ingress and at its target (R309, R372). -/
def State.peerGranted (s : State) (peer : BitVec 10) (pa : Nat) (k : AccKind) : Bool :=
  let m := masterId 4 peer.toNat
  s.tableGrants 18 (pa / 2097152) m k && s.granted m pa k

/-- A peer's access to this module's device memory: refused, deferred, or performed (R311, R372, R375). -/
def State.peerAccess (s : State) (peer : BitVec 10) (pa : Nat) (k : AccKind) (req : PeerReq) (f : State → State) : State :=
  if deviceBytes ≤ pa ∨ !s.peerGranted peer pa k then
    let s := s.refuse (masterId 4 peer.toNat) pa k none
    if k = .write then s else s.signal (.peerError peer)
  else if s.heldByOther peer (pa / 65536) (performsAtHome req) then
    s.defer (pa / 65536) (!changes k) (.peerRequest (.ualink peer) req)
  else f (s.useGrant peer (pa / 65536))

/-- A peer writes dirty bytes of a page back, each write checked as the peer's (R308, R310, R311, R372). -/
def State.peerWriteBack (s : State) (peer : BitVec 10) (pa : Nat) (bytes : List Byte) : State :=
  if s.peerGranted peer pa .write then s.agentWrite pa (bytes.take (65536 - pa % 65536))
  else s.refuse (masterId 4 peer.toNat) pa .write none

/-- A peer gives a page back: its dirty bytes, and a shared grant or none (R375). -/
def State.takeBack (s : State) (peer : BitVec 10) (page : Nat) (dirty : List (Nat × List Byte)) (shared : Bool) : State :=
  match s.grantOf page with
  | some g =>
    if g.exclusive && g.holders.contains peer.toNat then
      let s := s.putGrant (if shared then { g with exclusive := false } else { g with holders := [] })
      ((dirty.filter fun d => d.1 / 65536 == page).foldl (fun s d => s.peerWriteBack peer d.1 d.2) s).undefer page
    else s.putGrant { g with holders := if shared then g.holders else g.holders.filter fun h => h != peer.toNat }
  | none => s

/-- A forwarded launch (R320, R384): two writes, each checked, the packet and then the doorbell; a queue that is not
enabled refuses the packet. -/
def State.forwarded (s : State) (peer : BitVec 10) (q : BitVec 6) (pa : Nat) (packet : List Byte) (tail : BitVec 16) : State :=
  let m := masterId 4 peer.toNat
  let reg := 0xC020001000 + 8 * q.toNat
  let offered := some (s.queue q.toNat) |>.filter fun k => s.peerGranted peer reg .write && !k.en
  if s.peerGranted peer pa .write && s.heldByOther peer (pa / 65536) false then
    s.defer (pa / 65536) false (.peerRequest (.ualink peer) (.forward q pa packet tail))
  else if let some page := offered.bind fun k => s.packetHeld k (packetOf packet) true then
    s.defer page true (.peerRequest (.ualink peer) (.forward q pa packet tail))
  else
    let s := if s.peerGranted peer pa .write && decide (pa < deviceBytes) then s.agentWrite pa packet
      else s.refuse m pa .write none
    if !s.peerGranted peer reg .write then s.refuse m reg .write none
    else if !(s.queue q.toNat).en then (s.offer q.toNat packet true).2
    else s.soon (.doorbell q tail)

/-- The operation of a code of R72. -/
def amoOf (code : Nat) : Option AmoOp :=
  ([.add, .and, .or, .xor, .min, .max, .minn, .maxn, .swp, .cas, .fadd, .fmin, .fmax] : List AmoOp)[code]?

/-- An atomic of a peer at its home here; one of a poisoned sector writes nothing (R125, R130, R372, R376). -/
def State.peerAtomic (s : State) (peer : BitVec 10) (pa : Nat) (wide : Bool) (code : Nat) (x e : DWord) : State :=
  let n := if wide then 8 else 4
  let pois := s.homePois pa n
  let (old, s) := s.readOut pa n
  let new := (if pois then none else amoOf code).bind fun op =>
    if wide then (op.apply .f64 (BitVec.ofNat 64 (leNat old)) x e).map BitVec.toNat
    else (op.apply .f32 (BitVec.ofNat 32 (leNat old)) (x.setWidth 32) (e.setWidth 32)).map BitVec.toNat
  (match new with
    | some v => s.homeWriteNat pa n v
    | none => s).signal (.peerReply peer old)

/-- The sync-cell operation of a peer's request (R275, R376). -/
def cellOpOf (op : Nat) (x e : DWord) : CellOp :=
  match op with
  | 0 => .srel x
  | 1 => .sacq
  | 2 => .sadd x
  | _ => .scas e x

/-- A sync-cell operation of a peer at its home here, by this module's clock (R275, R376, R378): the old cell goes back.
Only a release, which reads nothing of the cell but GEN, writes a poisoned one (R125). -/
def State.peerCell (s : State) (peer : BitVec 10) (pa op : Nat) (x e : DWord) (k : BitVec 512) (h : DWord) : State :=
  let pois := s.homePois pa 128
  let (bytes, s) := s.readOut pa 128
  let old := cellOf bytes
  (match if pois && op != 0 then none else (cellOpOf op x e).write old k h with
    | some w => s.agentWrite pa ((old.written w s.stime).1.bytes (old.written w s.stime).2)
    | none => s).signal (.peerReply peer (bytes ++ leBytes 8 s.stime.toNat))

/-- A join-block update of a peer at its home here; a poisoned block is not written (R125, R184, R376). -/
def State.peerJoin (s : State) (peer : BitVec 10) (pa : Nat) (spawn : Bool) : State :=
  let pois := s.homePois pa 16
  let (old, s) := s.readOut pa 16
  let pend := field old 0 8
  let next := field old 8 8
  let new := if spawn then (pend + 1, next + 1) else (pend + (2 ^ 64 - 1), next)
  (if pois then s else s.agentWrite pa (leBytes 8 new.1 ++ leBytes 8 new.2)).signal (.peerReply peer old)

/-- The peer number of a request's sender (R379): a fabric endpoint's, by the endpoint table. -/
def State.peerOf (s : State) : Sender → Option (BitVec 10)
  | .ualink p => some p
  | .ethernet e => ((s.endpoints.map Prod.snd).find? fun x => dbit x 63 && x.extractLsb' 10 32 == e).map fun x => x.extractLsb' 0 10

/-- What comes over Ethernet: the arrivals of collectives, and forwarded launches (R379). -/
def carries : Sender → PeerReq → Bool
  | .ualink _, _ => true
  | .ethernet _, .forward _ _ _ _ | .ethernet _, .arrive _ _ _ _ _ _ _ _ _ => true
  | .ethernet _, _ => false

/-- A request of a peer module (R372 to R376, R382, R384). -/
def State.peerRequest (s : State) (peer : BitVec 10) (req : PeerReq) : State :=
  match req with
  | .read pa n => s.peerAccess peer pa .read req fun s =>
      let (bytes, s) := s.readOut pa n
      s.signal (.peerReply peer bytes)
  | .write pa bytes => s.peerAccess peer pa .write req fun s => s.agentWrite pa bytes
  | .atomic pa wide code x e => s.peerAccess peer pa .atomic req fun s => s.peerAtomic peer pa wide code x e
  | .cell pa op x e k h => s.peerAccess peer pa (if op = 1 then .syncRead else .atomic) req fun s => s.peerCell peer pa op x e k h
  | .joinUpdate pa spawn => s.peerAccess peer pa .atomic req fun s => s.peerJoin peer pa spawn
  | .watch pa => s.peerAccess peer pa .read req fun s => { s with peerWatches := s.peerWatches ++ [(peer, pa / 128 * 128)] }
  | .grant page exclusive => s.peerAccess peer (65536 * page) (if exclusive then .write else .read) req fun s =>
      s.givePeer peer page exclusive
  | .forward q pa packet tail => s.forwarded peer q pa packet tail
  | .giveBack page dirty shared => s.takeBack peer page dirty shared
  | .ownWrite pa bytes => match s.place pa with
    | .peer p _ => if p = peer.toNat then (s.homeWrite none pa bytes).acked none else s
    | _ => s
  | .arrive comm k form count level index nleaf bytes failed =>
    if 256 ≤ comm ∨ !dbit s.ccb 0 then s
    else if let some held := s.commHeld comm then s.defer held true (.peerRequest (.ualink peer) req)
    else if let some pa := s.commRefused comm then s.refuseNameless pa .read
    else if (s.commMembers comm).contains peer.toNat then
      s.collArrive comm k
        { form := form, count := count, level := level, index := index, nleaf := nleaf, bytes := bytes, failed := failed }
    else s

/-- A request of another module, under the peer number of its sender (R372, R379); an endpoint that the table does not
map has none, and its request is not taken (assumption 42). -/
def execPeerRequest (sender : Sender) (req : PeerReq) (s : State) : Host.Outcome State Fault Refusal :=
  match s.peerOf sender with
  | some peer => .next (if carries sender req then s.peerRequest peer req else s)
  | none => .next s

/-- The owner recalls a grant that this module holds (R375): the page's bytes go back, and the grant becomes
SR, or goes. -/
def execGrantRecall (page : Nat) (forRead : Bool) (s : State) : Host.Outcome State Fault Refusal :=
  match s.grants.find? fun g => g.page == page with
  | none => .next s
  | some g => .next (s.yieldGrant g forRead)

/-- A page that its holder does not give back is poisoned, and its grant dropped (R375). -/
def State.losePage (s : State) (peer page : Nat) : State :=
  let s := (List.range 2048).foldl (fun s i => s.poisonSector (2048 * page + i)) s
  let s := s.machineEvent (homeDie (65536 * page)) 9 none (leBytes 4 peer ++ leBytes 4 0 ++ leBytes 8 (65536 * page))
  ({ s with directory := s.directory.filter fun g => g.page != page } : State).undefer page

/-- A recall of a page has been unanswered for 10 ms (R375). -/
def State.unanswered (s : State) (page : Nat) : Bool := s.recalls.any fun r => r.1 == page && decide (r.2 + 90000000 ≤ s.ticks)

/-- A recall has been unanswered for 10 ms (R375). -/
def execRecallTimeout (peer : BitVec 10) (page : Nat) (s : State) : Host.Outcome State Fault Refusal :=
  match s.grantOf page with
  | some g =>
    if s.unanswered page && g.exclusive && g.holders.contains peer.toNat then .next (s.losePage peer.toNat page) else .next s
  | none => .next s

/-- The recalls that have run out of time (R375). -/
def State.recallSteps (s : State) : List Instr :=
  s.directory.flatMap fun g =>
    if g.exclusive && s.unanswered g.page then g.holders.map fun h => .recallTimeout (BitVec.ofNat 10 h) g.page else []

/-- A module leaves the pod: collectives that it is a member of end, the pages it holds exclusively are
poisoned, and its other grants go (R375, R382). -/
def execMemberLost (peer : BitVec 10) (s : State) : Host.Outcome State Fault Refusal :=
  let p := peer.toNat
  let s := ({ s with lostPeers := sinsert p s.lostPeers } : State).loseMember p
  let mine := s.directory.filter fun g => g.exclusive && g.holders.contains p
  let s := mine.foldl (fun s g => s.losePage p g.page) s
  let s := { s with
    grants := s.grants.filter fun g => g.page / 2 ^ 24 % 1024 != p
    directory := (s.directory.map fun g => { g with holders := g.holders.filter fun h => h != p }).filter
      fun g => !g.holders.isEmpty }
  .next s

/-- A host link goes down or comes back (R370). -/
def execHostLinkDown (iodB down : Bool) (s : State) : Host.Outcome State Fault Refusal :=
  .next (if iodB then { s with linkB := !down } else { s with linkA := !down })

/-- A sum over the cores of the clusters that are not fenced. -/
def State.sumCores (s : State) (f : Nat → Nat) : Nat :=
  (((List.range 4096).filter fun c => !s.fenced.contains (clusterOf c)).map f).sum

/-- Free register blocks on the cores of a protection mode; an empty core counts in both (R385). -/
def State.freeBlocks (s : State) (detect : Bool) : Nat :=
  s.sumCores fun c =>
    if s.modeFits c detect then ({ s.core c with detect := detect } : Core).blocks - s.usedBlocks c else 0

/-- The 128 bytes of a residency report (R385); a candidate counts at the level of its queue. -/
def State.reportBytes (s : State) : List Byte :=
  let cands := (List.range 64).filterMap s.candidateOf
  let at' := fun lv => cands.filter fun c => c.2.level == lv
  let wait := fun lv => (at' lv).foldl (fun m c => max m ((s.ticks - c.2.waitSince) / 9000)) 0
  let frames := (((List.range 512).filter fun p => !s.fenced.contains p).map fun p => 64 - (s.cluster p).usedFrames).sum
  leBytes 8 s.stime.toNat ++ leBytes 2 s.mypn.toNat ++ leBytes 2 (512 - s.fenced.length) ++
    leBytes 4 (s.sumCores fun c => 1024 - (s.ofCore c).length) ++ leBytes 4 (s.freeBlocks false) ++
    leBytes 4 (s.freeBlocks true) ++ leBytes 4 frames ++ leBytes 4 s.launches.length ++
    (List.range 4).flatMap (fun lv => leBytes 4 (at' lv).length) ++ (List.range 4).flatMap (fun lv => leBytes 4 (wait lv)) ++
    (List.range 64).flatMap fun q => leBytes 1 (s.launches.filter fun x => x.2.q == q).length

/-- A residency report is due (R385). -/
def State.reportDue (s : State) : Bool :=
  bits s.rrep 63 52 != 0 && decide (9000000 * bits s.rrep 63 52 ≤ s.ticks - s.reported)

/-- A residency report is written (R385). -/
def execResidencyReport (s : State) : Host.Outcome State Fault Refusal :=
  if s.reportDue then
    let a := bits s.rrep 51 7 * 128
    let s := ({ s with reported := s.ticks } : State).namelessWrite a s.reportBytes
    match s.place a with
    | .host _ => .next (s.signal (.msix 1))
    | _ => .next s
  else .next s

end Sys2Proof.Machine
end

