-- ==== Sys2Proof/Machine/Agents.lean ====
section
/-! DEFINITION. What the hardware does of its own accord: the Roll (R164 to R167), Chimes that arrive (R171), the
end of a `pause` (R136), the poll of a full watch table (R135), the sweep of old lines (R264), updates of coherent
lines (R265), walks (R293, R299), and the records that a die holds (R302); and which of the agents' steps can come
next. -/

namespace Sys2Proof.Machine

/-- A thread is ready to issue (R164): running, outside a `pause`, and not at the end of its quantum (R336). -/
def Thread.ready (th : Thread) : Bool :=
  th.life == .running && th.pauseLeft == 0 && !th.qended && !th.halted

/-- Merges(c, lead) (R165): the same bundle of one address space and mode, fetched alike (assumption 43). -/
def Thread.merges (th lead : Thread) : Bool :=
  th.pc == lead.pc && th.asn == lead.asn && th.mode == lead.mode && th.boot == lead.boot

/-- How far a context number lies after the Roll pointer, counting cyclically (R165). -/
def afterP (p num : Nat) : Nat := (num + 1024 - p) % 1024

/-- The contexts of a core in the order in which the Roll meets them from a number on (R165). -/
def State.rollOrder (s : State) (c p : Nat) : List Thread :=
  sortBy (fun (a b : Thread) => decide (afterP p a.num < afterP p b.num)) ((s.ofCore c).filter Thread.resident)

/-- A thread may issue in this cycle: it is ready, no boundary of its launch is under way, it waits with no issue group that
has still to go on, and its buffered stores hold translations that stand (R164, R166, R298, R337). -/
def State.issues (s : State) (th : Thread) : Bool :=
  th.ready && !th.stale && !((s.launch? th.lid).any fun l => l.boundary || l.engines) &&
    !(s.opened.any fun g => g.contains th.ckey)

/-- The issue group that a core forms, and its pointer after the cycle (R165). -/
def State.issueGroup (s : State) (c : Nat) : List Nat × Nat :=
  let p := (s.core c).p
  let order := s.rollOrder c p
  match order.find? s.issues with
  | some lead =>
    let rest := (s.rollOrder c lead.num).filter fun th => th.num != lead.num && s.issues th && th.merges lead
    (lead.ckey :: (rest.take 63).map Thread.ckey, (lead.num + 1) % 1024)
  | none => match order.head? with
    | some th => ([], (th.num + 1) % 1024)
    | none => ([], p)

/-- A cycle of a `pause` passes; the last one is for `pauseEnd` to take (R136). -/
def Thread.pausedCycle (th : Thread) : Thread := if 1 < th.pauseLeft then { th with pauseLeft := th.pauseLeft - 1 } else th

/-- A cycle of a core (R26, R165): it forms at most one issue group, whose members issue next, in order (R166). -/
def execRollCycle (core : Nat) (s : State) : Host.Outcome State Fault Refusal :=
  if !(s.cluster (clusterOf core)).live then .next s
  else
    let (group, p) := s.issueGroup core
    let ends := ((s.ofCore core).filter fun th => th.pauseLeft == 1).map fun th => Instr.pauseEnd core th.num
    let s := s.mapThreads fun th => if th.core == core then th.pausedCycle else th
    let s := s.modCore core fun k => { k with p := p, clk := k.clk + 1#64 }
    .next { s with issue := s.issue ++ group, agenda := s.agenda ++ ends }

/-- A Chime arrives (R12, R36, R171). -/
def execChimeArrival (key : Key) (s : State) : Host.Outcome State Fault Refusal := .next (s.chime key)

/-- The last cycle of a `pause` has passed (R136). -/
def execPauseEnd (core num : Nat) (s : State) : Host.Outcome State Fault Refusal :=
  match s.thread? (1024 * core + num) with
  | some th => if th.pauseLeft = 1 then .next (s.putThread { th with pauseLeft := 0 }) else .next s
  | none => .next s

/-- The Chime that one waiting thread receives every 1,024 ns while its slice's watch table is full (R135). -/
def execWatchPoll (core num : Nat) (s : State) : Host.Outcome State Fault Refusal :=
  match s.thread? (1024 * core + num) with
  | some th => match th.park with
    | some p => match p.key with
      | .line _ | .join _ =>
        let th' := { ({ th with pollAt := none } : Thread).chimed p.key with pollAt := some (s.ticks + 9 * 1024) }
        .next (s.putThread th')
      | _ => .next s
    | none => .next s
  | none => .next s

/-- The age of a line in stamp units (R264). -/
def State.lineAge (s : State) (l : Line) : Nat := (s.stampNow - l.stamp).toNat

/-- The age at which the sweep takes a line: near, and below, 2^15 units; how near is the hardware's (R264). -/
def sweepAge : Nat := min 32767 (32704 + Config.sweepLead % 64)

/-- A software-managed line is old enough for the sweep (R264). -/
def State.sweeps (s : State) (l : Line) : Bool := !l.h && decide (sweepAge ≤ s.lineAge l)

/-- The sweep writes an old line back and drops it; S and HT stay (R264). -/
def execSLineSweep (core line : Nat) (s : State) : Host.Outcome State Fault Refusal :=
  match (s.core core).line? line with
  | some l => if s.sweeps l then .next (s.flushWhere core fun x => x.n == line) else .next s
  | none => .next s

/-- The updates with which some home's line of updates for a core begins (R265). -/
def State.firstUpdates (s : State) (seen : List (Option (Nat × Nat))) : List Update → List Update
  | [] => []
  | u :: l =>
    let h := s.sliceOf u.pa
    if seen.contains h then s.firstUpdates seen l else u :: s.firstUpdates (h :: seen) l

/-- A sharer applies the oldest update on its way to it from one of the homes: which home's is a free value (R265). -/
def execCoherentUpdate (core : Nat) (s : State) : Host.Outcome State Fault Refusal :=
  match s.firstUpdates [] (s.core core).updates with
  | [] => .next s
  | u :: us =>
    let (v, s) := s.draw
    let u := ((u :: us)[v % (us.length + 1)]?).getD u
    .next (s.modCore core fun k => { k.apply core u with updates := k.updates.erase u })

/-- A walk for an access of n bytes of the bundle in execution completes (R293, R299). A boot thread needs none
(R360). -/
def execWalk (acc : AccKind) (va : DWord) (n : Nat) (s : State) : Host.Outcome State Fault Refusal :=
  if !s.hasT || s.t.boot then .next s
  else match s.lookupCore s.t.core (acc == .fetch) s.t.asn va with
    | (.miss, s) => .next (s.parkFault va acc n true)
    | (.bad, s) => .next (s.raise 0x0B va (some (acc, n)))
    | (.mig, s) => .next (s.parkFault va acc n false)
    | (.held page, s) => .next (s.recall page true)
    | (.hit _, s) => .next s

/-- A die's fault queue takes the oldest record that the die holds, or waits for the page of its CONS to find out (R302,
R375). -/
def State.recordDue (s : State) (die : Nat) : Bool :=
  !(s.die die).pending.isEmpty && (s.ringOpen (some 3) (s.die die).fqd (s.die die).fprod || s.ringHeld (s.die die).fqd)

/-- A held record is written (R302). -/
def execPendingRecordWrite (die : Nat) (s : State) : Host.Outcome State Fault Refusal :=
  match (s.die die).pending with
  | [] => .next s
  | p :: rest =>
    if s.ringOpen (some 3) (s.die die).fqd (s.die die).fprod then
      .next ((s.modDie die fun k => { k with pending := rest }).writeRecord die p)
    else .next s

/-- The step that a job can take next (R216, R219, R224, R243 to R247). -/
def State.jobStep (s : State) (cl : Nat) (j : Job) : Option Instr :=
  let det := match s.launch? j.lid with
    | some l => l.det
    | none => false
  if det then none
  else if j.copies then
    if s.startable cl j then some (.tceJobRun cl j.id)
    else if !s.runnable j then none
    else if j.sectors.length ≤ j.done then some (.tceJobEnd cl j.id)
    else some (.tceSectorWrite cl j.id)
  else if !s.mxReady cl j then none
  else match j.kind with
    | .mma _ => some (.mmaJob cl j.id)
    | .mxZero => some (.mxZeroJob cl j.id)
    | .mxMerge => some (.mxMergeJob cl j.id)
    | .mxSt => some (.mxStJob cl j.id)
    | _ => some (.mxLdJob cl j.id)

/-- The steps of clusters. -/
def State.clusterSteps (s : State) : List Instr :=
  s.clusters.flatMap fun c =>
    (c.2.jobs.filterMap (s.jobStep c.1)) ++ (if s.overPoisoned c.1 then [.poisonThreshold c.1] else [])

/-- A core can take an entry from a deque (R194). -/
def State.takes (s : State) (c : Nat) : Bool :=
  (s.pickEntry c c).isSome || (s.victims c).any fun v => (s.pickEntry c v).isSome

/-- The steps of cores: updates, swept lines, messages, and deque entries. -/
def State.coreSteps (s : State) : List Instr :=
  s.cores.flatMap fun c =>
    (if c.2.updates.isEmpty then [] else [.coherentUpdate c.1]) ++
    ((c.2.l1.filter s.sweeps).map fun l => .sLineSweep c.1 l.n) ++
    (if !c.2.inbound.isEmpty && decide (c.2.mail.length < 16) then [.messageArrival c.1] else []) ++
    (if !s.stream && s.takes c.1 then [.takeEntry c.1] else [])

/-- The steps of launches and contexts. -/
def State.launchSteps (s : State) : List Instr :=
  (s.launches.flatMap fun x =>
    let lid := BitVec.ofNat 32 x.1
    let l := x.2
    (if (s.completes lid l).isSome then [.launchCompletion lid] else []) ++
    (if l.overdue then [.watchdog lid] else []) ++
    (if l.st == .suspending && s.rollLeft lid then [.launchSuspended lid] else []) ++
    (if l.st == .waiting && ((l.tokens.map s.tokenStatus).all (fun x => x == 1) ||
        (l.tokens.map s.tokenStatus).any (fun x => decide (2 ≤ x) && decide (x ≤ 5)) ||
        l.tokens.any fun a => s.heldByPeer (s.homeAddr a)) then [.launchReady lid] else []) ++
    (if s.boundaryReady lid l then [.quantumBoundary lid] else [])) ++
  ((s.threads.filter s.refills).map fun th => .refill th.core th.num) ++
  ((s.threads.filter s.wantsSpill).map fun th => .spill th.core th.num)

/-- The steps of the scheduler's queues. -/
def State.queueSteps (s : State) : List Instr :=
  (List.range 64).flatMap fun n =>
    let q := BitVec.ofNat 6 n
    (if s.packetWaits n then [.packetAcceptance q] else []) ++
    (match s.candidateOf n with
      | some (lid, l) =>
        (if l.lastE = some (s.effLevel l) then [] else [.aging q]) ++
        (if s.effLevel l == 1 && (s.preemptee lid l 1).isSome then [.level1Turn q] else [])
      | none => [])

/-- The debug command that a die takes next (R156). -/
def debugStep (code die : Nat) : Instr :=
  match code with
  | 2 => .cont die
  | 3 => .step die
  | 4 => .rdreg die
  | 5 => .wrreg die
  | 6 => .rdsreg die
  | 7 => .wrsreg die
  | 8 => .rdpc die
  | 9 => .wrpc die
  | _ => .halt die

/-- The steps of dies. -/
def State.dieSteps (s : State) : List Instr :=
  (List.range 8).flatMap fun d =>
    (if s.recordDue d then [.pendingRecordWrite d] else []) ++
    (if s.cmdWaits d then [debugStep (s.cmdCode d) d] else [])

/-- The next step of a Gong in progress (R347). -/
def State.gongSteps (s : State) : List Instr :=
  if !s.gongGo then []
  else match bits s.gongc 2 1 with
    | 0 => [.freeze s.gongc]
    | 1 => [.checkpoint s.gongc]
    | 2 => [.thaw s.gongc]
    | _ => []

/-- The waits whose next Chime of a full watch table has come (R135). -/
def State.pollSteps (s : State) : List Instr :=
  (s.threads.filter fun th => th.park.isSome && !th.wake && th.pollAt.any fun t => decide (t ≤ s.ticks)).map fun th =>
    .watchPoll th.core th.num

/-- Every step that an agent of the package can take now, but for the cores' cycles (assumption 3). -/
def State.enabled (s : State) : List Instr :=
  s.coreSteps ++ s.clusterSteps ++ s.launchSteps ++ s.queueSteps ++ s.dieSteps ++ s.gongSteps ++
    (s.switches.map fun w => .switch w.region) ++
    ((s.colls.filter s.collDue).map fun c => .collCompletion c.comm c.k) ++
    s.recallSteps ++ s.pollSteps ++ (if s.reportDue then [.residencyReport] else [])

end Sys2Proof.Machine
end

