-- ==== Sys2Proof/Machine/Arith.lean ====
section
/-! DEFINITION. The integer instructions (R94 to R102, R112). -/

namespace Sys2Proof.Machine

/-- `add` (R94). -/
def execAdd (d a b : RegNo) (s : State) : Host.Outcome State Fault Refusal :=
  s.alu (shG3 d a b) fun x y => x + y

/-- `sub` (R94). -/
def execSub (d a b : RegNo) (s : State) : Host.Outcome State Fault Refusal :=
  s.alu (shG3 d a b) fun x y => x - y

/-- `mul`: the low half of the product (R94). -/
def execMul (d a b : RegNo) (s : State) : Host.Outcome State Fault Refusal :=
  s.alu (shG3 d a b) fun x y => x * y

/-- `mulh` (R94). -/
def execMulh (d a b : RegNo) (s : State) : Host.Outcome State Fault Refusal :=
  s.alu (shG3 d a b) fun x y => mulhS x y

/-- `mulhn` (R94). -/
def execMulhn (d a b : RegNo) (s : State) : Host.Outcome State Fault Refusal :=
  s.alu (shG3 d a b) fun x y => mulhU x y

/-- `min` (R94). -/
def execMin (d a b : RegNo) (s : State) : Host.Outcome State Fault Refusal :=
  s.alu (shG3 d a b) fun x y => minMaxS false x y

/-- `max` (R94). -/
def execMax (d a b : RegNo) (s : State) : Host.Outcome State Fault Refusal :=
  s.alu (shG3 d a b) fun x y => minMaxS true x y

/-- `minn` (R94). -/
def execMinn (d a b : RegNo) (s : State) : Host.Outcome State Fault Refusal :=
  s.alu (shG3 d a b) fun x y => minMaxU false x y

/-- `maxn` (R94). -/
def execMaxn (d a b : RegNo) (s : State) : Host.Outcome State Fault Refusal :=
  s.alu (shG3 d a b) fun x y => minMaxU true x y

/-- `and` (R94). -/
def execAnd (d a b : RegNo) (s : State) : Host.Outcome State Fault Refusal :=
  s.alu (shG3 d a b) fun x y => x &&& y

/-- `or` (R94). -/
def execOr (d a b : RegNo) (s : State) : Host.Outcome State Fault Refusal :=
  s.alu (shG3 d a b) fun x y => x ||| y

/-- `xor` (R94). -/
def execXor (d a b : RegNo) (s : State) : Host.Outcome State Fault Refusal :=
  s.alu (shG3 d a b) fun x y => x ^^^ y

/-- `shl`: by the whole amount register (R96). -/
def execShl (d a b : RegNo) (s : State) : Host.Outcome State Fault Refusal :=
  s.alu (shG3 d a b) fun x y => shiftL x y.toNat

/-- `shr` (R96). -/
def execShr (d a b : RegNo) (s : State) : Host.Outcome State Fault Refusal :=
  s.alu (shG3 d a b) fun x y => shiftR x y.toNat

/-- `sar` (R96). -/
def execSar (d a b : RegNo) (s : State) : Host.Outcome State Fault Refusal :=
  s.alu (shG3 d a b) fun x y => shiftA x y.toNat

/-- `bfx` (R97). -/
def execBfx (d a b : RegNo) (s : State) : Host.Outcome State Fault Refusal :=
  s.alu (shG3 d a b) fun x y => bitExtract x y

/-- `slt` (R94). -/
def execSlt (d a b : RegNo) (s : State) : Host.Outcome State Fault Refusal :=
  s.alu (shG3 d a b) fun x y => ofBool (x.slt y)

/-- `sltn` (R94). -/
def execSltn (d a b : RegNo) (s : State) : Host.Outcome State Fault Refusal :=
  s.alu (shG3 d a b) fun x y => ofBool (x.ult y)

/-- `seq` (R94). -/
def execSeq (d a b : RegNo) (s : State) : Host.Outcome State Fault Refusal :=
  s.alu (shG3 d a b) fun x y => ofBool (x == y)

/-- `sne` (R94). -/
def execSne (d a b : RegNo) (s : State) : Host.Outcome State Fault Refusal :=
  s.alu (shG3 d a b) fun x y => ofBool (x != y)

/-- `div` (R95). -/
def execDiv (d a b : RegNo) (s : State) : Host.Outcome State Fault Refusal :=
  s.aluF (shG3 d a b) fun x y => ((divRemS x y).1, (divRemS x y).2.2)

/-- `divn` (R95). -/
def execDivn (d a b : RegNo) (s : State) : Host.Outcome State Fault Refusal :=
  s.aluF (shG3 d a b) fun x y => ((divRemU x y).1, (divRemU x y).2.2)

/-- `rem` (R95). -/
def execRem (d a b : RegNo) (s : State) : Host.Outcome State Fault Refusal :=
  s.aluF (shG3 d a b) fun x y => (divRemS x y).2

/-- `remn` (R95). -/
def execRemn (d a b : RegNo) (s : State) : Host.Outcome State Fault Refusal :=
  s.aluF (shG3 d a b) fun x y => (divRemU x y).2

/-- `abs` (R94). -/
def execAbs (d a : RegNo) (s : State) : Host.Outcome State Fault Refusal :=
  s.alu (shG2 d a) fun x _ => absS x

/-- `clz` (R94). -/
def execClz (d a : RegNo) (s : State) : Host.Outcome State Fault Refusal :=
  s.alu (shG2 d a) fun x _ => clz32 x

/-- `ctz` (R94). -/
def execCtz (d a : RegNo) (s : State) : Host.Outcome State Fault Refusal :=
  s.alu (shG2 d a) fun x _ => ctz32 x

/-- `popc` (R94). -/
def execPopc (d a : RegNo) (s : State) : Host.Outcome State Fault Refusal :=
  s.alu (shG2 d a) fun x _ => popc32 x

/-- `brev` (R94). -/
def execBrev (d a : RegNo) (s : State) : Host.Outcome State Fault Refusal :=
  s.alu (shG2 d a) fun x _ => brev32 x

/-- `bfi`: gD is a source too (R93, R97). -/
def execBfi (d a b : RegNo) (s : State) : Host.Outcome State Fault Refusal :=
  s.within (shG3d d a b) fun v s => s.put (shG3d d a b) [bitInsert (gOf v.d) (gOf v.a) (gOf v.b)] noFlags

/-- `rng`: steps the generator as it stood at the start of the bundle (R98). -/
def execRng (d : RegNo) (s : State) : Host.Outcome State Fault Refusal :=
  s.within { dst := .g d } fun _ s =>
    let x := rngStep s.src.rngs
    (s.put { dst := .g d } [x] noFlags).modT fun t => { t with rngs := x }

/-- `add.d` (R99). -/
def execAddD (d a b : RegNo) (s : State) : Host.Outcome State Fault Refusal :=
  s.aluW (shW3 d a b) fun x y => (x + y, noFlags)

/-- `sub.d` (R99). -/
def execSubD (d a b : RegNo) (s : State) : Host.Outcome State Fault Refusal :=
  s.aluW (shW3 d a b) fun x y => (x - y, noFlags)

/-- `mul.d` (R99). -/
def execMulD (d a b : RegNo) (s : State) : Host.Outcome State Fault Refusal :=
  s.aluW (shW3 d a b) fun x y => (x * y, noFlags)

/-- `and.d` (R99). -/
def execAndD (d a b : RegNo) (s : State) : Host.Outcome State Fault Refusal :=
  s.aluW (shW3 d a b) fun x y => (x &&& y, noFlags)

/-- `or.d` (R99). -/
def execOrD (d a b : RegNo) (s : State) : Host.Outcome State Fault Refusal :=
  s.aluW (shW3 d a b) fun x y => (x ||| y, noFlags)

/-- `xor.d` (R99). -/
def execXorD (d a b : RegNo) (s : State) : Host.Outcome State Fault Refusal :=
  s.aluW (shW3 d a b) fun x y => (x ^^^ y, noFlags)

/-- `min.d` (R99). -/
def execMinD (d a b : RegNo) (s : State) : Host.Outcome State Fault Refusal :=
  s.aluW (shW3 d a b) fun x y => (minMaxS false x y, noFlags)

/-- `max.d` (R99). -/
def execMaxD (d a b : RegNo) (s : State) : Host.Outcome State Fault Refusal :=
  s.aluW (shW3 d a b) fun x y => (minMaxS true x y, noFlags)

/-- `minn.d` (R99). -/
def execMinnD (d a b : RegNo) (s : State) : Host.Outcome State Fault Refusal :=
  s.aluW (shW3 d a b) fun x y => (minMaxU false x y, noFlags)

/-- `maxn.d` (R99). -/
def execMaxnD (d a b : RegNo) (s : State) : Host.Outcome State Fault Refusal :=
  s.aluW (shW3 d a b) fun x y => (minMaxU true x y, noFlags)

/-- `shl.d` (R99). -/
def execShlD (d a b : RegNo) (s : State) : Host.Outcome State Fault Refusal :=
  s.within (shWg d a b) fun v s =>
    s.put (shWg d a b) (wordsOf (shiftL (wOf v.a) (gOf v.b).toNat)) noFlags

/-- `shr.d` (R99). -/
def execShrD (d a b : RegNo) (s : State) : Host.Outcome State Fault Refusal :=
  s.within (shWg d a b) fun v s =>
    s.put (shWg d a b) (wordsOf (shiftR (wOf v.a) (gOf v.b).toNat)) noFlags

/-- `sar.d` (R99). -/
def execSarD (d a b : RegNo) (s : State) : Host.Outcome State Fault Refusal :=
  s.within (shWg d a b) fun v s =>
    s.put (shWg d a b) (wordsOf (shiftA (wOf v.a) (gOf v.b).toNat)) noFlags

/-- `slt.d` (R99). -/
def execSltD (d a b : RegNo) (s : State) : Host.Outcome State Fault Refusal :=
  s.aluWG (shGw d a b) fun x y => (ofBool (x.slt y), noFlags)

/-- `sltn.d` (R99). -/
def execSltnD (d a b : RegNo) (s : State) : Host.Outcome State Fault Refusal :=
  s.aluWG (shGw d a b) fun x y => (ofBool (x.ult y), noFlags)

/-- `seq.d` (R99). -/
def execSeqD (d a b : RegNo) (s : State) : Host.Outcome State Fault Refusal :=
  s.aluWG (shGw d a b) fun x y => (ofBool (x == y), noFlags)

/-- `addi` (R67, R100). -/
def execAddi (d a : RegNo) (imm : BitVec 11) (s : State) : Host.Outcome State Fault Refusal :=
  s.alu (shG2 d a) fun x _ => x + imm.signExtend 32

/-- `andi` (R67, R100). -/
def execAndi (d a : RegNo) (imm : BitVec 11) (s : State) : Host.Outcome State Fault Refusal :=
  s.alu (shG2 d a) fun x _ => x &&& imm.zeroExtend 32

/-- `ori` (R67, R100). -/
def execOri (d a : RegNo) (imm : BitVec 11) (s : State) : Host.Outcome State Fault Refusal :=
  s.alu (shG2 d a) fun x _ => x ||| imm.zeroExtend 32

/-- `xori` (R67, R100). -/
def execXori (d a : RegNo) (imm : BitVec 11) (s : State) : Host.Outcome State Fault Refusal :=
  s.alu (shG2 d a) fun x _ => x ^^^ imm.zeroExtend 32

/-- `slti` (R67, R100). -/
def execSlti (d a : RegNo) (imm : BitVec 11) (s : State) : Host.Outcome State Fault Refusal :=
  s.alu (shG2 d a) fun x _ => ofBool (x.slt (imm.signExtend 32))

/-- `shli` (R100). -/
def execShli (d a : RegNo) (imm : BitVec 5) (s : State) : Host.Outcome State Fault Refusal :=
  s.alu (shG2 d a) fun x _ => shiftL x imm.toNat

/-- `shri` (R100). -/
def execShri (d a : RegNo) (imm : BitVec 5) (s : State) : Host.Outcome State Fault Refusal :=
  s.alu (shG2 d a) fun x _ => shiftR x imm.toNat

/-- `sari` (R100). -/
def execSari (d a : RegNo) (imm : BitVec 5) (s : State) : Host.Outcome State Fault Refusal :=
  s.alu (shG2 d a) fun x _ => shiftA x imm.toNat

/-- `lui` (R101). -/
def execLui (d : RegNo) (imm : BitVec 17) (s : State) : Host.Outcome State Fault Refusal :=
  s.within { dst := .g d } fun _ s => s.put { dst := .g d } [luiValue imm] noFlags

/-- `imad` (R112). -/
def execImad (d a b c : RegNo) (s : State) : Host.Outcome State Fault Refusal :=
  s.within (shG4 d a b c) fun v s => s.put (shG4 d a b c) [gOf v.a * gOf v.b + gOf v.c] noFlags

/-- `sel` (R112). -/
def execSel (d a b c : RegNo) (s : State) : Host.Outcome State Fault Refusal :=
  s.within (shG4 d a b c) fun v s =>
    s.put (shG4 d a b c) [if gOf v.c ≠ 0#32 then gOf v.a else gOf v.b] noFlags

/-- `li` (R102). -/
def execLi (d : RegNo) (imm : Word) (s : State) : Host.Outcome State Fault Refusal :=
  s.within { dst := .g d } fun _ s => s.put { dst := .g d } [imm] noFlags

/-- `lih`: the high word of wD alone (R102). -/
def execLih (d : RegNo) (imm : Word) (s : State) : Host.Outcome State Fault Refusal :=
  s.within { dst := .whi d } fun _ s => s.put { dst := .whi d } [imm] noFlags

end Sys2Proof.Machine
end

