-- ==== Sys2Proof/Machine/FloatOps.lean ====
section
/-! DEFINITION. The floating-point instructions (R103 to R111). -/

namespace Sys2Proof.Machine

/-- `fctl`.RM at the start of the bundle (R49). -/
def OpSrc.rm (o : OpSrc) : Rm := Rm.ofFctl o.fctl

/-- An f32 result of a function on encodings. -/
def toF32 (r : Nat × Flags) : Word × Flags := (BitVec.ofNat 32 r.1, r.2)
/-- An f64 result of a function on encodings. -/
def toF64 (r : Nat × Flags) : DWord × Flags := (BitVec.ofNat 64 r.1, r.2)
/-- A compare's result. -/
def toCmp (r : Bool × Flags) : Word × Flags := (ofBool r.1, r.2)

/-- An f32 operation of two operands, rounded by `fctl`.RM (R103). -/
def State.f32Op (s : State) (sh : Shape) (f : Rm → Nat → Nat → Nat × Flags) : Host.Outcome State Fault Refusal :=
  s.aluF sh fun x y => toF32 (f s.src.rm x.toNat y.toNat)

/-- An f64 operation of two operands, rounded by `fctl`.RM (R103). -/
def State.f64Op (s : State) (sh : Shape) (f : Rm → Nat → Nat → Nat × Flags) : Host.Outcome State Fault Refusal :=
  s.aluW sh fun x y => toF64 (f s.src.rm x.toNat y.toNat)

/-- An f32 compare (R106). -/
def State.f32Cmp (s : State) (sh : Shape) (f : Nat → Nat → Bool × Flags) : Host.Outcome State Fault Refusal :=
  s.aluF sh fun x y => toCmp (f x.toNat y.toNat)

/-- An f64 compare into a g register (R106). -/
def State.f64Cmp (s : State) (sh : Shape) (f : Nat → Nat → Bool × Flags) : Host.Outcome State Fault Refusal :=
  s.aluWG sh fun x y => toCmp (f x.toNat y.toNat)

/-- The two lanes of a packed operation (R110). -/
def packed (f : Nat → Nat → Nat → Nat × Flags) (d a b : Word) : Word × Flags :=
  let lo := f (wbits a 15 0) (wbits b 15 0) (wbits d 15 0)
  let hi := f (wbits a 31 16) (wbits b 31 16) (wbits d 31 16)
  (BitVec.ofNat 16 hi.1 ++ BitVec.ofNat 16 lo.1, lo.2 ||| hi.2)

/-- A packed operation of two operands (R110). -/
def State.p2Op (s : State) (sh : Shape) (f : Rm → Nat → Nat → Nat × Flags) : Host.Outcome State Fault Refusal :=
  s.aluF sh fun x y => packed (fun a b _ => f s.src.rm a b) 0#32 x y

/-- `fadd` (R103, R104). -/
def execFadd (d a b : RegNo) (s : State) : Host.Outcome State Fault Refusal :=
  s.f32Op (shG3 d a b) fun rm x y => fpAdd .f32 rm x y

/-- `fsub` (R103, R104). -/
def execFsub (d a b : RegNo) (s : State) : Host.Outcome State Fault Refusal :=
  s.f32Op (shG3 d a b) fun rm x y => fpSub .f32 rm x y

/-- `fmul` (R103, R104). -/
def execFmul (d a b : RegNo) (s : State) : Host.Outcome State Fault Refusal :=
  s.f32Op (shG3 d a b) fun rm x y => fpMul .f32 rm x y

/-- `fdiv` (R103, R104). -/
def execFdiv (d a b : RegNo) (s : State) : Host.Outcome State Fault Refusal :=
  s.f32Op (shG3 d a b) fun rm x y => fpDiv .f32 rm x y

/-- `fsqrt` (R103, R104). -/
def execFsqrt (d a : RegNo) (s : State) : Host.Outcome State Fault Refusal :=
  s.f32Op (shG2 d a) fun rm x _ => fpSqrt .f32 rm x

/-- `fmin` (R105). -/
def execFmin (d a b : RegNo) (s : State) : Host.Outcome State Fault Refusal :=
  s.f32Op (shG3 d a b) fun _ x y => fpMinMax .f32 false x y

/-- `fmax` (R105). -/
def execFmax (d a b : RegNo) (s : State) : Host.Outcome State Fault Refusal :=
  s.f32Op (shG3 d a b) fun _ x y => fpMinMax .f32 true x y

/-- `fabs` (R107). -/
def execFabs (d a : RegNo) (s : State) : Host.Outcome State Fault Refusal :=
  s.alu (shG2 d a) fun x _ => x &&& 0x7FFFFFFF#32

/-- `fneg` (R107). -/
def execFneg (d a : RegNo) (s : State) : Host.Outcome State Fault Refusal :=
  s.alu (shG2 d a) fun x _ => x ^^^ 0x80000000#32

/-- `fclass` (R108). -/
def execFclass (d a : RegNo) (s : State) : Host.Outcome State Fault Refusal :=
  s.alu (shG2 d a) fun x _ => BitVec.ofNat 32 (fpClass .f32 x.toNat)

/-- `feq` (R106). -/
def execFeq (d a b : RegNo) (s : State) : Host.Outcome State Fault Refusal :=
  s.f32Cmp (shG3 d a b) fun x y => fpEq .f32 x y

/-- `flt` (R106). -/
def execFlt (d a b : RegNo) (s : State) : Host.Outcome State Fault Refusal :=
  s.f32Cmp (shG3 d a b) fun x y => fpLt .f32 x y

/-- `fle` (R106). -/
def execFle (d a b : RegNo) (s : State) : Host.Outcome State Fault Refusal :=
  s.f32Cmp (shG3 d a b) fun x y => fpLe .f32 x y

/-- `fun` (R106). -/
def execFunOrd (d a b : RegNo) (s : State) : Host.Outcome State Fault Refusal :=
  s.f32Cmp (shG3 d a b) fun x y => fpUn .f32 x y

/-- `frnd` (R109). -/
def execFrnd (d a b : RegNo) (rm : RmField) (s : State) : Host.Outcome State Fault Refusal :=
  let sh : Shape := { a := .g a, dst := .g d, b := rsOpd rm b }
  s.within sh fun v s =>
    let r := toF32 (fpRoundInt .f32 (RmField.mode s.src.fctl rm) (gOf v.b).toNat (gOf v.a).toNat)
    s.put sh [r.1] r.2

/-- `dadd` (R103, R104). -/
def execDadd (d a b : RegNo) (s : State) : Host.Outcome State Fault Refusal :=
  s.f64Op (shW3 d a b) fun rm x y => fpAdd .f64 rm x y

/-- `dsub` (R103, R104). -/
def execDsub (d a b : RegNo) (s : State) : Host.Outcome State Fault Refusal :=
  s.f64Op (shW3 d a b) fun rm x y => fpSub .f64 rm x y

/-- `dmul` (R103, R104). -/
def execDmul (d a b : RegNo) (s : State) : Host.Outcome State Fault Refusal :=
  s.f64Op (shW3 d a b) fun rm x y => fpMul .f64 rm x y

/-- `ddiv` (R103, R104). -/
def execDdiv (d a b : RegNo) (s : State) : Host.Outcome State Fault Refusal :=
  s.f64Op (shW3 d a b) fun rm x y => fpDiv .f64 rm x y

/-- `dsqrt` (R103, R104). -/
def execDsqrt (d a : RegNo) (s : State) : Host.Outcome State Fault Refusal :=
  s.f64Op (shW2 d a) fun rm x _ => fpSqrt .f64 rm x

/-- `dmin` (R105). -/
def execDmin (d a b : RegNo) (s : State) : Host.Outcome State Fault Refusal :=
  s.f64Op (shW3 d a b) fun _ x y => fpMinMax .f64 false x y

/-- `dmax` (R105). -/
def execDmax (d a b : RegNo) (s : State) : Host.Outcome State Fault Refusal :=
  s.f64Op (shW3 d a b) fun _ x y => fpMinMax .f64 true x y

/-- `dabs` (R107). -/
def execDabs (d a : RegNo) (s : State) : Host.Outcome State Fault Refusal :=
  s.aluW (shW2 d a) fun x _ => (x &&& 0x7FFFFFFFFFFFFFFF#64, noFlags)

/-- `dneg` (R107). -/
def execDneg (d a : RegNo) (s : State) : Host.Outcome State Fault Refusal :=
  s.aluW (shW2 d a) fun x _ => (x ^^^ 0x8000000000000000#64, noFlags)

/-- `dclass` (R108). -/
def execDclass (d a : RegNo) (s : State) : Host.Outcome State Fault Refusal :=
  s.aluWG (shGw2 d a) fun x _ => (BitVec.ofNat 32 (fpClass .f64 x.toNat), noFlags)

/-- `deq` (R106). -/
def execDeq (d a b : RegNo) (s : State) : Host.Outcome State Fault Refusal :=
  s.f64Cmp (shGw d a b) fun x y => fpEq .f64 x y

/-- `dlt` (R106). -/
def execDlt (d a b : RegNo) (s : State) : Host.Outcome State Fault Refusal :=
  s.f64Cmp (shGw d a b) fun x y => fpLt .f64 x y

/-- `dle` (R106). -/
def execDle (d a b : RegNo) (s : State) : Host.Outcome State Fault Refusal :=
  s.f64Cmp (shGw d a b) fun x y => fpLe .f64 x y

/-- `dun` (R106). -/
def execDunOrd (d a b : RegNo) (s : State) : Host.Outcome State Fault Refusal :=
  s.f64Cmp (shGw d a b) fun x y => fpUn .f64 x y

/-- `drnd` (R109). -/
def execDrnd (d a b : RegNo) (rm : RmField) (s : State) : Host.Outcome State Fault Refusal :=
  let sh : Shape := { a := .w a, dst := .w d, b := rsOpd rm b }
  s.within sh fun v s =>
    let r := toF64 (fpRoundInt .f64 (RmField.mode s.src.fctl rm) (gOf v.b).toNat (wOf v.a).toNat)
    s.put sh (wordsOf r.1) r.2

/-- `p2add.h` (R110). -/
def execP2addH (d a b : RegNo) (s : State) : Host.Outcome State Fault Refusal :=
  s.p2Op (shG3 d a b) fun rm x y => fpAdd .f16 rm x y

/-- `p2sub.h` (R110). -/
def execP2subH (d a b : RegNo) (s : State) : Host.Outcome State Fault Refusal :=
  s.p2Op (shG3 d a b) fun rm x y => fpSub .f16 rm x y

/-- `p2mul.h` (R110). -/
def execP2mulH (d a b : RegNo) (s : State) : Host.Outcome State Fault Refusal :=
  s.p2Op (shG3 d a b) fun rm x y => fpMul .f16 rm x y

/-- `p2fma.h`: the addend is the same lane of gD (R93, R110). -/
def execP2fmaH (d a b : RegNo) (s : State) : Host.Outcome State Fault Refusal :=
  s.within (shG3d d a b) fun v s =>
    let r := packed (fpFma .f16 s.src.rm) (gOf v.d) (gOf v.a) (gOf v.b)
    s.put (shG3d d a b) [r.1] r.2

/-- `p2min.h` (R110). -/
def execP2minH (d a b : RegNo) (s : State) : Host.Outcome State Fault Refusal :=
  s.p2Op (shG3 d a b) fun _ x y => fpMinMax .f16 false x y

/-- `p2max.h` (R110). -/
def execP2maxH (d a b : RegNo) (s : State) : Host.Outcome State Fault Refusal :=
  s.p2Op (shG3 d a b) fun _ x y => fpMinMax .f16 true x y

/-- `p2add.b` (R110). -/
def execP2addB (d a b : RegNo) (s : State) : Host.Outcome State Fault Refusal :=
  s.p2Op (shG3 d a b) fun rm x y => fpAdd .bf16 rm x y

/-- `p2sub.b` (R110). -/
def execP2subB (d a b : RegNo) (s : State) : Host.Outcome State Fault Refusal :=
  s.p2Op (shG3 d a b) fun rm x y => fpSub .bf16 rm x y

/-- `p2mul.b` (R110). -/
def execP2mulB (d a b : RegNo) (s : State) : Host.Outcome State Fault Refusal :=
  s.p2Op (shG3 d a b) fun rm x y => fpMul .bf16 rm x y

/-- `p2fma.b`: the addend is the same lane of gD (R93, R110). -/
def execP2fmaB (d a b : RegNo) (s : State) : Host.Outcome State Fault Refusal :=
  s.within (shG3d d a b) fun v s =>
    let r := packed (fpFma .bf16 s.src.rm) (gOf v.d) (gOf v.a) (gOf v.b)
    s.put (shG3d d a b) [r.1] r.2

/-- `p2min.b` (R110). -/
def execP2minB (d a b : RegNo) (s : State) : Host.Outcome State Fault Refusal :=
  s.p2Op (shG3 d a b) fun _ x y => fpMinMax .bf16 false x y

/-- `p2max.b` (R110). -/
def execP2maxB (d a b : RegNo) (s : State) : Host.Outcome State Fault Refusal :=
  s.p2Op (shG3 d a b) fun _ x y => fpMinMax .bf16 true x y

/-- `ffma` (R111). -/
def execFfma (d a b c : RegNo) (s : State) : Host.Outcome State Fault Refusal :=
  s.within (shG4 d a b c) fun v s =>
    let r := toF32 (fpFma .f32 s.src.rm (gOf v.a).toNat (gOf v.b).toNat (gOf v.c).toNat)
    s.put (shG4 d a b c) [r.1] r.2

/-- `dfma` (R111). -/
def execDfma (d a b c : RegNo) (s : State) : Host.Outcome State Fault Refusal :=
  s.within (shW4 d a b c) fun v s =>
    let r := toF64 (fpFma .f64 s.src.rm (wOf v.a).toNat (wOf v.b).toNat (wOf v.c).toNat)
    s.put (shW4 d a b c) (wordsOf r.1) r.2

end Sys2Proof.Machine
end

