-- ==== Sys2Proof/Machine/Convert.lean ====
section
/-! DEFINITION. The conversions (R77 to R79, R113 to R115). -/

namespace Sys2Proof.Machine

/-- A number type held in a w pair (R78). -/
def NumTy.wide (t : NumTy) : Bool :=
  match t with
  | .flt .f64 => true
  | .int u => u.width == 64
  | _ => false

/-- The width of a number type in bits. -/
def NumTy.bits : NumTy → Nat
  | .flt f => f.width
  | .int t => t.width

/-- Integer types (R39). -/
def tyI8 : NumTy := .int { width := 8, signed := true }
/-- n8. -/
def tyN8 : NumTy := .int { width := 8, signed := false }
/-- i16. -/
def tyI16 : NumTy := .int { width := 16, signed := true }
/-- n16. -/
def tyN16 : NumTy := .int { width := 16, signed := false }
/-- i32. -/
def tyI32 : NumTy := .int { width := 32, signed := true }
/-- n32. -/
def tyN32 : NumTy := .int { width := 32, signed := false }
/-- i64. -/
def tyI64 : NumTy := .int { width := 64, signed := true }
/-- n64. -/
def tyN64 : NumTy := .int { width := 64, signed := false }

/-- The words that a conversion's result leaves in its destination: i8 and i16 are sign-extended, the rest
zero-extended (R113). -/
def cvtWords (dst : NumTy) (v : Nat) : List Word :=
  match dst with
  | .int { width := 8, signed := true } => [(BitVec.ofNat 8 v).signExtend 32]
  | .int { width := 16, signed := true } => [(BitVec.ofNat 16 v).signExtend 32]
  | t => if t.wide then wordsOf (BitVec.ofNat 64 v) else [BitVec.ofNat 32 v]

/-- The shape of a conversion with a rounding field (R77, R78). -/
def cvtShape (dst src : NumTy) (d a b : RegNo) (rm : RmField) : Shape :=
  { a := if src.wide then .w a else .g a, dst := if dst.wide then .w d else .g d, b := rsOpd rm b }

/-- The shape of an integer-to-integer conversion (R47, R78). -/
def cvtShapeI (dst src : NumTy) (d a : RegNo) : Shape :=
  { a := if src.wide then .w a else .g a, dst := if dst.wide then .w d else .g d }

/-- The bits of a conversion's source (R113). -/
def cvtSource (src : NumTy) (l : List Reg) : Nat :=
  if src.wide then (wOf l).toNat else (gOf l).toNat % 2 ^ src.bits

/-- `cvt` (R113, R114). -/
def State.cvt (s : State) (dst src : NumTy) (d a b : RegNo) (rm : RmField) (sat : Bool) :
    Host.Outcome State Fault Refusal :=
  let sh := cvtShape dst src d a b rm
  s.within sh fun v s =>
    let r := convert src dst (RmField.mode s.src.fctl rm) sat (gOf v.b).toNat (cvtSource src v.a)
    s.put sh (cvtWords dst r.1) r.2

/-- `cvt` between integers (R47, R113). -/
def State.cvtI (s : State) (dst src : NumTy) (d a : RegNo) (sat : Bool) : Host.Outcome State Fault Refusal :=
  let sh := cvtShapeI dst src d a
  s.within sh fun v s =>
    let r := convert src dst .rne sat 0 (cvtSource src v.a)
    s.put sh (cvtWords dst r.1) r.2

/-- gD with a run of bits replaced. -/
def setBits (d : Word) (lo n : Nat) (v : Nat) : Word :=
  let mask := BitVec.ofNat 32 ((2 ^ n - 1) * 2 ^ lo)
  (d &&& ~~~mask) ||| (BitVec.ofNat 32 (v * 2 ^ lo) &&& mask)

/-- `cvtp` into lanes of n bits from a first lane (R79, R115). -/
def State.cvtp (s : State) (f : Fmt) (sh : Shape) (n lane : Nat) (rm : RmField) (sat : Bool) :
    Host.Outcome State Fault Refusal :=
  s.within sh fun v s =>
    let m := RmField.mode s.src.fctl rm
    let x := convert (.flt .f32) (.flt f) m sat 0 (gOf v.a).toNat
    let y := convert (.flt .f32) (.flt f) m sat 0 (gOf v.b).toNat
    s.put sh [setBits (setBits (gOf v.d) (n * lane) n x.1) (n * (lane + 1)) n y.1] (x.2 ||| y.2)

/-- `cvt.f64.f32` (R113). -/
def execCvtF64F32 (d a b : RegNo) (rm : RmField) (sat : Bool) (s : State) : Host.Outcome State Fault Refusal :=
  s.cvt (.flt .f64) (.flt .f32) d a b rm sat

/-- `cvt.f64.f16` (R113). -/
def execCvtF64F16 (d a b : RegNo) (rm : RmField) (sat : Bool) (s : State) : Host.Outcome State Fault Refusal :=
  s.cvt (.flt .f64) (.flt .f16) d a b rm sat

/-- `cvt.f64.bf16` (R113). -/
def execCvtF64Bf16 (d a b : RegNo) (rm : RmField) (sat : Bool) (s : State) : Host.Outcome State Fault Refusal :=
  s.cvt (.flt .f64) (.flt .bf16) d a b rm sat

/-- `cvt.f64.e4m3` (R113). -/
def execCvtF64E4m3 (d a b : RegNo) (rm : RmField) (sat : Bool) (s : State) : Host.Outcome State Fault Refusal :=
  s.cvt (.flt .f64) (.flt .e4m3) d a b rm sat

/-- `cvt.f64.e5m2` (R113). -/
def execCvtF64E5m2 (d a b : RegNo) (rm : RmField) (sat : Bool) (s : State) : Host.Outcome State Fault Refusal :=
  s.cvt (.flt .f64) (.flt .e5m2) d a b rm sat

/-- `cvt.f64.i32` (R113). -/
def execCvtF64I32 (d a b : RegNo) (rm : RmField) (sat : Bool) (s : State) : Host.Outcome State Fault Refusal :=
  s.cvt (.flt .f64) tyI32 d a b rm sat

/-- `cvt.f64.n32` (R113). -/
def execCvtF64N32 (d a b : RegNo) (rm : RmField) (sat : Bool) (s : State) : Host.Outcome State Fault Refusal :=
  s.cvt (.flt .f64) tyN32 d a b rm sat

/-- `cvt.f64.i64` (R113). -/
def execCvtF64I64 (d a b : RegNo) (rm : RmField) (sat : Bool) (s : State) : Host.Outcome State Fault Refusal :=
  s.cvt (.flt .f64) tyI64 d a b rm sat

/-- `cvt.f64.n64` (R113). -/
def execCvtF64N64 (d a b : RegNo) (rm : RmField) (sat : Bool) (s : State) : Host.Outcome State Fault Refusal :=
  s.cvt (.flt .f64) tyN64 d a b rm sat

/-- `cvt.f32.f64` (R113). -/
def execCvtF32F64 (d a b : RegNo) (rm : RmField) (sat : Bool) (s : State) : Host.Outcome State Fault Refusal :=
  s.cvt (.flt .f32) (.flt .f64) d a b rm sat

/-- `cvt.f32.f16` (R113). -/
def execCvtF32F16 (d a b : RegNo) (rm : RmField) (sat : Bool) (s : State) : Host.Outcome State Fault Refusal :=
  s.cvt (.flt .f32) (.flt .f16) d a b rm sat

/-- `cvt.f32.bf16` (R113). -/
def execCvtF32Bf16 (d a b : RegNo) (rm : RmField) (sat : Bool) (s : State) : Host.Outcome State Fault Refusal :=
  s.cvt (.flt .f32) (.flt .bf16) d a b rm sat

/-- `cvt.f32.e4m3` (R113). -/
def execCvtF32E4m3 (d a b : RegNo) (rm : RmField) (sat : Bool) (s : State) : Host.Outcome State Fault Refusal :=
  s.cvt (.flt .f32) (.flt .e4m3) d a b rm sat

/-- `cvt.f32.e5m2` (R113). -/
def execCvtF32E5m2 (d a b : RegNo) (rm : RmField) (sat : Bool) (s : State) : Host.Outcome State Fault Refusal :=
  s.cvt (.flt .f32) (.flt .e5m2) d a b rm sat

/-- `cvt.f32.e2m1` (R113). -/
def execCvtF32E2m1 (d a b : RegNo) (rm : RmField) (sat : Bool) (s : State) : Host.Outcome State Fault Refusal :=
  s.cvt (.flt .f32) (.flt .e2m1) d a b rm sat

/-- `cvt.f32.e8m0` (R113). -/
def execCvtF32E8m0 (d a b : RegNo) (rm : RmField) (sat : Bool) (s : State) : Host.Outcome State Fault Refusal :=
  s.cvt (.flt .f32) (.flt .e8m0) d a b rm sat

/-- `cvt.f32.e3m5` (R113). -/
def execCvtF32E3m5 (d a b : RegNo) (rm : RmField) (sat : Bool) (s : State) : Host.Outcome State Fault Refusal :=
  s.cvt (.flt .f32) (.flt .e3m5) d a b rm sat

/-- `cvt.f32.i32` (R113). -/
def execCvtF32I32 (d a b : RegNo) (rm : RmField) (sat : Bool) (s : State) : Host.Outcome State Fault Refusal :=
  s.cvt (.flt .f32) tyI32 d a b rm sat

/-- `cvt.f32.n32` (R113). -/
def execCvtF32N32 (d a b : RegNo) (rm : RmField) (sat : Bool) (s : State) : Host.Outcome State Fault Refusal :=
  s.cvt (.flt .f32) tyN32 d a b rm sat

/-- `cvt.f32.i64` (R113). -/
def execCvtF32I64 (d a b : RegNo) (rm : RmField) (sat : Bool) (s : State) : Host.Outcome State Fault Refusal :=
  s.cvt (.flt .f32) tyI64 d a b rm sat

/-- `cvt.f32.n64` (R113). -/
def execCvtF32N64 (d a b : RegNo) (rm : RmField) (sat : Bool) (s : State) : Host.Outcome State Fault Refusal :=
  s.cvt (.flt .f32) tyN64 d a b rm sat

/-- `cvt.f16.f64` (R113). -/
def execCvtF16F64 (d a b : RegNo) (rm : RmField) (sat : Bool) (s : State) : Host.Outcome State Fault Refusal :=
  s.cvt (.flt .f16) (.flt .f64) d a b rm sat

/-- `cvt.f16.f32` (R113). -/
def execCvtF16F32 (d a b : RegNo) (rm : RmField) (sat : Bool) (s : State) : Host.Outcome State Fault Refusal :=
  s.cvt (.flt .f16) (.flt .f32) d a b rm sat

/-- `cvt.f16.bf16` (R113). -/
def execCvtF16Bf16 (d a b : RegNo) (rm : RmField) (sat : Bool) (s : State) : Host.Outcome State Fault Refusal :=
  s.cvt (.flt .f16) (.flt .bf16) d a b rm sat

/-- `cvt.f16.e4m3` (R113). -/
def execCvtF16E4m3 (d a b : RegNo) (rm : RmField) (sat : Bool) (s : State) : Host.Outcome State Fault Refusal :=
  s.cvt (.flt .f16) (.flt .e4m3) d a b rm sat

/-- `cvt.f16.e5m2` (R113). -/
def execCvtF16E5m2 (d a b : RegNo) (rm : RmField) (sat : Bool) (s : State) : Host.Outcome State Fault Refusal :=
  s.cvt (.flt .f16) (.flt .e5m2) d a b rm sat

/-- `cvt.bf16.f64` (R113). -/
def execCvtBf16F64 (d a b : RegNo) (rm : RmField) (sat : Bool) (s : State) : Host.Outcome State Fault Refusal :=
  s.cvt (.flt .bf16) (.flt .f64) d a b rm sat

/-- `cvt.bf16.f32` (R113). -/
def execCvtBf16F32 (d a b : RegNo) (rm : RmField) (sat : Bool) (s : State) : Host.Outcome State Fault Refusal :=
  s.cvt (.flt .bf16) (.flt .f32) d a b rm sat

/-- `cvt.bf16.f16` (R113). -/
def execCvtBf16F16 (d a b : RegNo) (rm : RmField) (sat : Bool) (s : State) : Host.Outcome State Fault Refusal :=
  s.cvt (.flt .bf16) (.flt .f16) d a b rm sat

/-- `cvt.bf16.e4m3` (R113). -/
def execCvtBf16E4m3 (d a b : RegNo) (rm : RmField) (sat : Bool) (s : State) : Host.Outcome State Fault Refusal :=
  s.cvt (.flt .bf16) (.flt .e4m3) d a b rm sat

/-- `cvt.bf16.e5m2` (R113). -/
def execCvtBf16E5m2 (d a b : RegNo) (rm : RmField) (sat : Bool) (s : State) : Host.Outcome State Fault Refusal :=
  s.cvt (.flt .bf16) (.flt .e5m2) d a b rm sat

/-- `cvt.e4m3.f64` (R113). -/
def execCvtE4m3F64 (d a b : RegNo) (rm : RmField) (sat : Bool) (s : State) : Host.Outcome State Fault Refusal :=
  s.cvt (.flt .e4m3) (.flt .f64) d a b rm sat

/-- `cvt.e4m3.f32` (R113). -/
def execCvtE4m3F32 (d a b : RegNo) (rm : RmField) (sat : Bool) (s : State) : Host.Outcome State Fault Refusal :=
  s.cvt (.flt .e4m3) (.flt .f32) d a b rm sat

/-- `cvt.e4m3.f16` (R113). -/
def execCvtE4m3F16 (d a b : RegNo) (rm : RmField) (sat : Bool) (s : State) : Host.Outcome State Fault Refusal :=
  s.cvt (.flt .e4m3) (.flt .f16) d a b rm sat

/-- `cvt.e4m3.bf16` (R113). -/
def execCvtE4m3Bf16 (d a b : RegNo) (rm : RmField) (sat : Bool) (s : State) : Host.Outcome State Fault Refusal :=
  s.cvt (.flt .e4m3) (.flt .bf16) d a b rm sat

/-- `cvt.e4m3.e5m2` (R113). -/
def execCvtE4m3E5m2 (d a b : RegNo) (rm : RmField) (sat : Bool) (s : State) : Host.Outcome State Fault Refusal :=
  s.cvt (.flt .e4m3) (.flt .e5m2) d a b rm sat

/-- `cvt.e5m2.f64` (R113). -/
def execCvtE5m2F64 (d a b : RegNo) (rm : RmField) (sat : Bool) (s : State) : Host.Outcome State Fault Refusal :=
  s.cvt (.flt .e5m2) (.flt .f64) d a b rm sat

/-- `cvt.e5m2.f32` (R113). -/
def execCvtE5m2F32 (d a b : RegNo) (rm : RmField) (sat : Bool) (s : State) : Host.Outcome State Fault Refusal :=
  s.cvt (.flt .e5m2) (.flt .f32) d a b rm sat

/-- `cvt.e5m2.f16` (R113). -/
def execCvtE5m2F16 (d a b : RegNo) (rm : RmField) (sat : Bool) (s : State) : Host.Outcome State Fault Refusal :=
  s.cvt (.flt .e5m2) (.flt .f16) d a b rm sat

/-- `cvt.e5m2.bf16` (R113). -/
def execCvtE5m2Bf16 (d a b : RegNo) (rm : RmField) (sat : Bool) (s : State) : Host.Outcome State Fault Refusal :=
  s.cvt (.flt .e5m2) (.flt .bf16) d a b rm sat

/-- `cvt.e5m2.e4m3` (R113). -/
def execCvtE5m2E4m3 (d a b : RegNo) (rm : RmField) (sat : Bool) (s : State) : Host.Outcome State Fault Refusal :=
  s.cvt (.flt .e5m2) (.flt .e4m3) d a b rm sat

/-- `cvt.e2m1.f64` (R113). -/
def execCvtE2m1F64 (d a b : RegNo) (rm : RmField) (sat : Bool) (s : State) : Host.Outcome State Fault Refusal :=
  s.cvt (.flt .e2m1) (.flt .f64) d a b rm sat

/-- `cvt.e2m1.f32` (R113). -/
def execCvtE2m1F32 (d a b : RegNo) (rm : RmField) (sat : Bool) (s : State) : Host.Outcome State Fault Refusal :=
  s.cvt (.flt .e2m1) (.flt .f32) d a b rm sat

/-- `cvt.e2m1.f16` (R113). -/
def execCvtE2m1F16 (d a b : RegNo) (rm : RmField) (sat : Bool) (s : State) : Host.Outcome State Fault Refusal :=
  s.cvt (.flt .e2m1) (.flt .f16) d a b rm sat

/-- `cvt.e2m1.bf16` (R113). -/
def execCvtE2m1Bf16 (d a b : RegNo) (rm : RmField) (sat : Bool) (s : State) : Host.Outcome State Fault Refusal :=
  s.cvt (.flt .e2m1) (.flt .bf16) d a b rm sat

/-- `cvt.e8m0.f32` (R113). -/
def execCvtE8m0F32 (d a b : RegNo) (rm : RmField) (sat : Bool) (s : State) : Host.Outcome State Fault Refusal :=
  s.cvt (.flt .e8m0) (.flt .f32) d a b rm sat

/-- `cvt.e3m5.f32` (R113). -/
def execCvtE3m5F32 (d a b : RegNo) (rm : RmField) (sat : Bool) (s : State) : Host.Outcome State Fault Refusal :=
  s.cvt (.flt .e3m5) (.flt .f32) d a b rm sat

/-- `cvt.i32.f64` (R113). -/
def execCvtI32F64 (d a b : RegNo) (rm : RmField) (sat : Bool) (s : State) : Host.Outcome State Fault Refusal :=
  s.cvt tyI32 (.flt .f64) d a b rm sat

/-- `cvt.i32.f32` (R113). -/
def execCvtI32F32 (d a b : RegNo) (rm : RmField) (sat : Bool) (s : State) : Host.Outcome State Fault Refusal :=
  s.cvt tyI32 (.flt .f32) d a b rm sat

/-- `cvt.i32.i64` (R113). -/
def execCvtI32I64 (d a : RegNo) (sat : Bool) (s : State) : Host.Outcome State Fault Refusal :=
  s.cvtI tyI32 tyI64 d a sat

/-- `cvt.n32.f64` (R113). -/
def execCvtN32F64 (d a b : RegNo) (rm : RmField) (sat : Bool) (s : State) : Host.Outcome State Fault Refusal :=
  s.cvt tyN32 (.flt .f64) d a b rm sat

/-- `cvt.n32.f32` (R113). -/
def execCvtN32F32 (d a b : RegNo) (rm : RmField) (sat : Bool) (s : State) : Host.Outcome State Fault Refusal :=
  s.cvt tyN32 (.flt .f32) d a b rm sat

/-- `cvt.n32.n64` (R113). -/
def execCvtN32N64 (d a : RegNo) (sat : Bool) (s : State) : Host.Outcome State Fault Refusal :=
  s.cvtI tyN32 tyN64 d a sat

/-- `cvt.i64.f64` (R113). -/
def execCvtI64F64 (d a b : RegNo) (rm : RmField) (sat : Bool) (s : State) : Host.Outcome State Fault Refusal :=
  s.cvt tyI64 (.flt .f64) d a b rm sat

/-- `cvt.i64.f32` (R113). -/
def execCvtI64F32 (d a b : RegNo) (rm : RmField) (sat : Bool) (s : State) : Host.Outcome State Fault Refusal :=
  s.cvt tyI64 (.flt .f32) d a b rm sat

/-- `cvt.i64.i32` (R113). -/
def execCvtI64I32 (d a : RegNo) (sat : Bool) (s : State) : Host.Outcome State Fault Refusal :=
  s.cvtI tyI64 tyI32 d a sat

/-- `cvt.n64.f64` (R113). -/
def execCvtN64F64 (d a b : RegNo) (rm : RmField) (sat : Bool) (s : State) : Host.Outcome State Fault Refusal :=
  s.cvt tyN64 (.flt .f64) d a b rm sat

/-- `cvt.n64.f32` (R113). -/
def execCvtN64F32 (d a b : RegNo) (rm : RmField) (sat : Bool) (s : State) : Host.Outcome State Fault Refusal :=
  s.cvt tyN64 (.flt .f32) d a b rm sat

/-- `cvt.n64.n32` (R113). -/
def execCvtN64N32 (d a : RegNo) (sat : Bool) (s : State) : Host.Outcome State Fault Refusal :=
  s.cvtI tyN64 tyN32 d a sat

/-- `cvt.i8.i32` (R113). -/
def execCvtI8I32 (d a : RegNo) (sat : Bool) (s : State) : Host.Outcome State Fault Refusal :=
  s.cvtI tyI8 tyI32 d a sat

/-- `cvt.n8.i32` (R113). -/
def execCvtN8I32 (d a : RegNo) (sat : Bool) (s : State) : Host.Outcome State Fault Refusal :=
  s.cvtI tyN8 tyI32 d a sat

/-- `cvt.i16.i32` (R113). -/
def execCvtI16I32 (d a : RegNo) (sat : Bool) (s : State) : Host.Outcome State Fault Refusal :=
  s.cvtI tyI16 tyI32 d a sat

/-- `cvt.n16.i32` (R113). -/
def execCvtN16I32 (d a : RegNo) (sat : Bool) (s : State) : Host.Outcome State Fault Refusal :=
  s.cvtI tyN16 tyI32 d a sat

/-- `cvtp.e4m3` into two lanes of gD (R79, R115). -/
def execCvtpE4m3 (d a b : RegNo) (rm : RmField) (sat h : Bool) (s : State) : Host.Outcome State Fault Refusal :=
  s.cvtp .e4m3 (shG3d d a b) 8 (if h then 2 else 0) rm sat

/-- `cvtp.e5m2` into two lanes of gD (R79, R115). -/
def execCvtpE5m2 (d a b : RegNo) (rm : RmField) (sat h : Bool) (s : State) : Host.Outcome State Fault Refusal :=
  s.cvtp .e5m2 (shG3d d a b) 8 (if h then 2 else 0) rm sat

/-- `cvtp.e2m1` into two lanes of gD (R79, R115). -/
def execCvtpE2m1Low (d a b : RegNo) (rm : RmField) (sat h : Bool) (s : State) : Host.Outcome State Fault Refusal :=
  s.cvtp .e2m1 (shG3d d a b) 4 (if h then 2 else 0) rm sat

/-- `cvtp.e2m1` into two lanes of gD (R79, R115). -/
def execCvtpE2m1High (d a b : RegNo) (rm : RmField) (sat h : Bool) (s : State) : Host.Outcome State Fault Refusal :=
  s.cvtp .e2m1 (shG3d d a b) 4 (if h then 6 else 4) rm sat

/-- `cvtp.f16` into both halves of gD (R79, R115). -/
def execCvtpF16 (d a b : RegNo) (rm : RmField) (sat : Bool) (s : State) : Host.Outcome State Fault Refusal :=
  s.cvtp .f16 (shG3 d a b) 16 0 rm sat

/-- `cvtp.bf16` into both halves of gD (R79, R115). -/
def execCvtpBf16 (d a b : RegNo) (rm : RmField) (sat : Bool) (s : State) : Host.Outcome State Fault Refusal :=
  s.cvtp .bf16 (shG3 d a b) 16 0 rm sat

end Sys2Proof.Machine
end

