-- ==== Sys2Proof/Machine/Dispatch.lean ====
section
/-! DEFINITION. The meaning of every instruction and event: one arm, one call. -/

namespace Sys2Proof.Machine

/-- One arm for each row of the opcode table. -/
def exec (i : Instr) (s : State) : Host.Outcome State Fault Refusal :=
  match i with
  | .rollCycle core => Sys2Proof.Machine.execRollCycle core s
  | .chimeArrival key => Sys2Proof.Machine.execChimeArrival key s
  | .pauseEnd core num => Sys2Proof.Machine.execPauseEnd core num s
  | .watchPoll core num => Sys2Proof.Machine.execWatchPoll core num s
  | .sLineSweep core line => Sys2Proof.Machine.execSLineSweep core line s
  | .coherentUpdate core => Sys2Proof.Machine.execCoherentUpdate core s
  | .walk acc va n => Sys2Proof.Machine.execWalk acc va n s
  | .pendingRecordWrite die => Sys2Proof.Machine.execPendingRecordWrite die s
  | .spill core num => Sys2Proof.Machine.execSpill core num s
  | .refill core num => Sys2Proof.Machine.execRefill core num s
  | .takeEntry core => Sys2Proof.Machine.execTakeEntry core s
  | .tceJobRun cluster job => Sys2Proof.Machine.execTceJobRun cluster job s
  | .tceSectorWrite cluster job => Sys2Proof.Machine.execTceSectorWrite cluster job s
  | .tceJobEnd cluster job => Sys2Proof.Machine.execTceJobEnd cluster job s
  | .mmaJob cluster job => Sys2Proof.Machine.execMmaJob cluster job s
  | .mxMergeJob cluster job => Sys2Proof.Machine.execMxMergeJob cluster job s
  | .mxZeroJob cluster job => Sys2Proof.Machine.execMxZeroJob cluster job s
  | .mxStJob cluster job => Sys2Proof.Machine.execMxStJob cluster job s
  | .mxLdJob cluster job => Sys2Proof.Machine.execMxLdJob cluster job s
  | .scratchPageRefill cluster lid page => Sys2Proof.Machine.execScratchPageRefill cluster lid page s
  | .switch region => Sys2Proof.Machine.execSwitch region s
  | .lqdWrite q v => Sys2Proof.Machine.execLqdWrite q v s
  | .doorbell q tail => Sys2Proof.Machine.execDoorbell q tail s
  | .packetAcceptance q => Sys2Proof.Machine.execPacketAcceptance q s
  | .launchReady lid => Sys2Proof.Machine.execLaunchReady lid s
  | .aging q => Sys2Proof.Machine.execAging q s
  | .launchSuspended lid => Sys2Proof.Machine.execLaunchSuspended lid s
  | .launchCompletion lid => Sys2Proof.Machine.execLaunchCompletion lid s
  | .watchdog lid => Sys2Proof.Machine.execWatchdog lid s
  | .abort q lid => Sys2Proof.Machine.execAbort q lid s
  | .quantumEnd core num => Sys2Proof.Machine.execQuantumEnd core num s
  | .quantumBoundary lid => Sys2Proof.Machine.execQuantumBoundary lid s
  | .freeze v => Sys2Proof.Machine.execFreeze v s
  | .checkpoint v => Sys2Proof.Machine.execCheckpoint v s
  | .thaw v => Sys2Proof.Machine.execThaw v s
  | .gongBadMode v => Sys2Proof.Machine.execGongBadMode v s
  | .hostLinkFailure => Sys2Proof.Machine.execHostLinkFailure s
  | .fatalError cause die => Sys2Proof.Machine.execFatalError cause die s
  | .poisonThreshold cluster => Sys2Proof.Machine.execPoisonThreshold cluster s
  | .throttle cluster fmhz cause => Sys2Proof.Machine.execThrottle cluster fmhz cause s
  | .islandResetRelease cluster => Sys2Proof.Machine.execIslandResetRelease cluster s
  | .messageArrival core => Sys2Proof.Machine.execMessageArrival core s
  | .chimePortWrite die master v => Sys2Proof.Machine.execChimePortWrite die master v s
  | .registerWrite master pa v => Sys2Proof.Machine.execRegisterWrite master pa v s
  | .hostRequest fn req => Sys2Proof.Machine.execHostRequest fn req s
  | .peerRequest sender req => Sys2Proof.Machine.execPeerRequest sender req s
  | .grantRecall page forRead => Sys2Proof.Machine.execGrantRecall page forRead s
  | .recallTimeout peer page => Sys2Proof.Machine.execRecallTimeout peer page s
  | .collCompletion comm k => Sys2Proof.Machine.execCollCompletion comm k s
  | .residencyReport => Sys2Proof.Machine.execResidencyReport s
  | .halt die => Sys2Proof.Machine.execHalt die s
  | .cont die => Sys2Proof.Machine.execCont die s
  | .step die => Sys2Proof.Machine.execStep die s
  | .rdreg die => Sys2Proof.Machine.execRdreg die s
  | .wrreg die => Sys2Proof.Machine.execWrreg die s
  | .rdsreg die => Sys2Proof.Machine.execRdsreg die s
  | .wrsreg die => Sys2Proof.Machine.execWrsreg die s
  | .rdpc die => Sys2Proof.Machine.execRdpc die s
  | .wrpc die => Sys2Proof.Machine.execWrpc die s
  | .packageReset failing => Sys2Proof.Machine.execPackageReset failing s
  | .level1Turn q => Sys2Proof.Machine.execLevel1Turn q s
  | .memberLost peer => Sys2Proof.Machine.execMemberLost peer s
  | .hostLinkDown iodB down => Sys2Proof.Machine.execHostLinkDown iodB down s
  | .bra off => Sys2Proof.Machine.execBra off s
  | .call off => Sys2Proof.Machine.execCall off s
  | .bz a off => Sys2Proof.Machine.execBz a off s
  | .bnz a off => Sys2Proof.Machine.execBnz a off s
  | .beq a b off => Sys2Proof.Machine.execBeq a b off s
  | .bne a b off => Sys2Proof.Machine.execBne a b off s
  | .blt a b off => Sys2Proof.Machine.execBlt a b off s
  | .bge a b off => Sys2Proof.Machine.execBge a b off s
  | .blo a b off => Sys2Proof.Machine.execBlo a b off s
  | .bhs a b off => Sys2Proof.Machine.execBhs a b off s
  | .spawn a off => Sys2Proof.Machine.execSpawn a off s
  | .li d imm => Sys2Proof.Machine.execLi d imm s
  | .lih d imm => Sys2Proof.Machine.execLih d imm s
  | .callx imm => Sys2Proof.Machine.execCallx imm s
  | .callr a => Sys2Proof.Machine.execCallr a s
  | .ret => Sys2Proof.Machine.execRet s
  | .jr a => Sys2Proof.Machine.execJr a s
  | .exit => Sys2Proof.Machine.execExit s
  | .pause => Sys2Proof.Machine.execPause s
  | .tdone => Sys2Proof.Machine.execTdone s
  | .join a => Sys2Proof.Machine.execJoin a s
  | .tkill a => Sys2Proof.Machine.execTkill a s
  | .tresume a => Sys2Proof.Machine.execTresume a s
  | .trap imm => Sys2Proof.Machine.execTrap imm s
  | .sget d imm => Sys2Proof.Machine.execSget d imm s
  | .sset a imm => Sys2Proof.Machine.execSset a imm s
  | .brk => Sys2Proof.Machine.execBrk s
  | .tret => Sys2Proof.Machine.execTret s
  | .fenceI => Sys2Proof.Machine.execFenceI s
  | .tlbi a => Sys2Proof.Machine.execTlbi a s
  | .tlbiAsn a => Sys2Proof.Machine.execTlbiAsn a s
  | .tlbiAll => Sys2Proof.Machine.execTlbiAll s
  | .chime a => Sys2Proof.Machine.execChime a s
  | .l2pin a b => Sys2Proof.Machine.execL2pin a b s
  | .l2unpin a b => Sys2Proof.Machine.execL2unpin a b s
  | .rgnSet a b => Sys2Proof.Machine.execRgnSet a b s
  | .rgnAcq a => Sys2Proof.Machine.execRgnAcq a s
  | .rgnRel a => Sys2Proof.Machine.execRgnRel a s
  | .waiteqW a b sc od => Sys2Proof.Machine.execWaiteqW a b sc od s
  | .waitneW a b sc od => Sys2Proof.Machine.execWaitneW a b sc od s
  | .waiteqD a b sc od => Sys2Proof.Machine.execWaiteqD a b sc od s
  | .waitneD a b sc od => Sys2Proof.Machine.execWaitneD a b sc od s
  | .ld8s d a sp imm => Sys2Proof.Machine.execLd8s d a sp imm s
  | .ld8z d a sp imm => Sys2Proof.Machine.execLd8z d a sp imm s
  | .ld16s d a sp imm => Sys2Proof.Machine.execLd16s d a sp imm s
  | .ld16z d a sp imm => Sys2Proof.Machine.execLd16z d a sp imm s
  | .ld32 d a sp imm => Sys2Proof.Machine.execLd32 d a sp imm s
  | .ld64 d a sp imm => Sys2Proof.Machine.execLd64 d a sp imm s
  | .ld128 d a sp imm => Sys2Proof.Machine.execLd128 d a sp imm s
  | .pf d a imm => Sys2Proof.Machine.execPf d a imm s
  | .st8 d a sp imm => Sys2Proof.Machine.execSt8 d a sp imm s
  | .st16 d a sp imm => Sys2Proof.Machine.execSt16 d a sp imm s
  | .st32 d a sp imm => Sys2Proof.Machine.execSt32 d a sp imm s
  | .st64 d a sp imm => Sys2Proof.Machine.execSt64 d a sp imm s
  | .st128 d a sp imm => Sys2Proof.Machine.execSt128 d a sp imm s
  | .ldm d a n => Sys2Proof.Machine.execLdm d a n s
  | .stm d a n => Sys2Proof.Machine.execStm d a n s
  | .ld8sOrd d a sc od => Sys2Proof.Machine.execLd8sOrd d a sc od s
  | .ld8zOrd d a sc od => Sys2Proof.Machine.execLd8zOrd d a sc od s
  | .ld16sOrd d a sc od => Sys2Proof.Machine.execLd16sOrd d a sc od s
  | .ld16zOrd d a sc od => Sys2Proof.Machine.execLd16zOrd d a sc od s
  | .ld32Ord d a sc od => Sys2Proof.Machine.execLd32Ord d a sc od s
  | .ld64Ord d a sc od => Sys2Proof.Machine.execLd64Ord d a sc od s
  | .ld128Ord d a sc od => Sys2Proof.Machine.execLd128Ord d a sc od s
  | .fence sc od => Sys2Proof.Machine.execFence sc od s
  | .st8Ord d a sc od => Sys2Proof.Machine.execSt8Ord d a sc od s
  | .st16Ord d a sc od => Sys2Proof.Machine.execSt16Ord d a sc od s
  | .st32Ord d a sc od => Sys2Proof.Machine.execSt32Ord d a sc od s
  | .st64Ord d a sc od => Sys2Proof.Machine.execSt64Ord d a sc od s
  | .st128Ord d a sc od => Sys2Proof.Machine.execSt128Ord d a sc od s
  | .amoAddW d a b sc od => Sys2Proof.Machine.execAmoAddW d a b sc od s
  | .amoAddD d a b sc od => Sys2Proof.Machine.execAmoAddD d a b sc od s
  | .amoAndW d a b sc od => Sys2Proof.Machine.execAmoAndW d a b sc od s
  | .amoAndD d a b sc od => Sys2Proof.Machine.execAmoAndD d a b sc od s
  | .amoOrW d a b sc od => Sys2Proof.Machine.execAmoOrW d a b sc od s
  | .amoOrD d a b sc od => Sys2Proof.Machine.execAmoOrD d a b sc od s
  | .amoXorW d a b sc od => Sys2Proof.Machine.execAmoXorW d a b sc od s
  | .amoXorD d a b sc od => Sys2Proof.Machine.execAmoXorD d a b sc od s
  | .amoMinW d a b sc od => Sys2Proof.Machine.execAmoMinW d a b sc od s
  | .amoMinD d a b sc od => Sys2Proof.Machine.execAmoMinD d a b sc od s
  | .amoMaxW d a b sc od => Sys2Proof.Machine.execAmoMaxW d a b sc od s
  | .amoMaxD d a b sc od => Sys2Proof.Machine.execAmoMaxD d a b sc od s
  | .amoMinnW d a b sc od => Sys2Proof.Machine.execAmoMinnW d a b sc od s
  | .amoMinnD d a b sc od => Sys2Proof.Machine.execAmoMinnD d a b sc od s
  | .amoMaxnW d a b sc od => Sys2Proof.Machine.execAmoMaxnW d a b sc od s
  | .amoMaxnD d a b sc od => Sys2Proof.Machine.execAmoMaxnD d a b sc od s
  | .amoSwpW d a b sc od => Sys2Proof.Machine.execAmoSwpW d a b sc od s
  | .amoSwpD d a b sc od => Sys2Proof.Machine.execAmoSwpD d a b sc od s
  | .amoCasW d a b sc od => Sys2Proof.Machine.execAmoCasW d a b sc od s
  | .amoCasD d a b sc od => Sys2Proof.Machine.execAmoCasD d a b sc od s
  | .amoFaddW d a b sc od => Sys2Proof.Machine.execAmoFaddW d a b sc od s
  | .amoFaddD d a b sc od => Sys2Proof.Machine.execAmoFaddD d a b sc od s
  | .amoFminW d a b sc od => Sys2Proof.Machine.execAmoFminW d a b sc od s
  | .amoFminD d a b sc od => Sys2Proof.Machine.execAmoFminD d a b sc od s
  | .amoFmaxW d a b sc od => Sys2Proof.Machine.execAmoFmaxW d a b sc od s
  | .amoFmaxD d a b sc od => Sys2Proof.Machine.execAmoFmaxD d a b sc od s
  | .srel d a sc => Sys2Proof.Machine.execSrel d a sc s
  | .sacq d a sc => Sys2Proof.Machine.execSacq d a sc s
  | .sadd d a b sc => Sys2Proof.Machine.execSadd d a b sc s
  | .scas d a b sc => Sys2Proof.Machine.execScas d a b sc s
  | .rbind d a => Sys2Proof.Machine.execRbind d a s
  | .rwf d a => Sys2Proof.Machine.execRwf d a s
  | .rwe d a => Sys2Proof.Machine.execRwe d a s
  | .radvp d a => Sys2Proof.Machine.execRadvp d a s
  | .radvc d a => Sys2Proof.Machine.execRadvc d a s
  | .raddr d a b => Sys2Proof.Machine.execRaddr d a b s
  | .rbytes d a b => Sys2Proof.Machine.execRbytes d a b s
  | .qbind d a => Sys2Proof.Machine.execQbind d a s
  | .conv d a b => Sys2Proof.Machine.execConv d a b s
  | .gbar => Sys2Proof.Machine.execGbar s
  | .gbc d a b => Sys2Proof.Machine.execGbc d a b s
  | .gbcD d a b => Sys2Proof.Machine.execGbcD d a b s
  | .gdis => Sys2Proof.Machine.execGdis s
  | .gredAddF32 d a => Sys2Proof.Machine.execGredAddF32 d a s
  | .gredAddF64 d a => Sys2Proof.Machine.execGredAddF64 d a s
  | .gredCaddF32 d a => Sys2Proof.Machine.execGredCaddF32 d a s
  | .gredAddI32 d a => Sys2Proof.Machine.execGredAddI32 d a s
  | .gredAddI64 d a => Sys2Proof.Machine.execGredAddI64 d a s
  | .gredMaxF32 d a => Sys2Proof.Machine.execGredMaxF32 d a s
  | .gredMinF32 d a => Sys2Proof.Machine.execGredMinF32 d a s
  | .gredMaxF64 d a => Sys2Proof.Machine.execGredMaxF64 d a s
  | .gredMinF64 d a => Sys2Proof.Machine.execGredMinF64 d a s
  | .gredMaxI32 d a => Sys2Proof.Machine.execGredMaxI32 d a s
  | .gredMinI32 d a => Sys2Proof.Machine.execGredMinI32 d a s
  | .gredAnd d a => Sys2Proof.Machine.execGredAnd d a s
  | .gredOr d a => Sys2Proof.Machine.execGredOr d a s
  | .gredXor d a => Sys2Proof.Machine.execGredXor d a s
  | .tcopy d a b => Sys2Proof.Machine.execTcopy d a b s
  | .scopy d a b => Sys2Proof.Machine.execScopy d a b s
  | .tfill d a b => Sys2Proof.Machine.execTfill d a b s
  | .ewait a => Sys2Proof.Machine.execEwait a s
  | .eprog d a => Sys2Proof.Machine.execEprog d a s
  | .mxCfg d a => Sys2Proof.Machine.execMxCfg d a s
  | .mxZero d => Sys2Proof.Machine.execMxZero d s
  | .mxLd d a => Sys2Proof.Machine.execMxLd d a s
  | .mxSt d a b => Sys2Proof.Machine.execMxSt d a b s
  | .mxMerge d a b => Sys2Proof.Machine.execMxMerge d a b s
  | .mmaF64 d a b => Sys2Proof.Machine.execMmaF64 d a b s
  | .mmaF32 d a b => Sys2Proof.Machine.execMmaF32 d a b s
  | .mmaBf16 d a b => Sys2Proof.Machine.execMmaBf16 d a b s
  | .mmaF16 d a b => Sys2Proof.Machine.execMmaF16 d a b s
  | .mmaE4m3 d a b => Sys2Proof.Machine.execMmaE4m3 d a b s
  | .mmaE5m2 d a b => Sys2Proof.Machine.execMmaE5m2 d a b s
  | .mmaMx8 d a b => Sys2Proof.Machine.execMmaMx8 d a b s
  | .mmaE2m1 d a b => Sys2Proof.Machine.execMmaE2m1 d a b s
  | .launch d a => Sys2Proof.Machine.execLaunch d a s
  | .nsend a b => Sys2Proof.Machine.execNsend a b s
  | .nrecv d a => Sys2Proof.Machine.execNrecv d a s
  | .nmcast a b => Sys2Proof.Machine.execNmcast a b s
  | .collRedAddF32 d a => Sys2Proof.Machine.execCollRedAddF32 d a s
  | .collRedAddF64 d a => Sys2Proof.Machine.execCollRedAddF64 d a s
  | .collRedCaddF32 d a => Sys2Proof.Machine.execCollRedCaddF32 d a s
  | .collRedAddI32 d a => Sys2Proof.Machine.execCollRedAddI32 d a s
  | .collRedAddI64 d a => Sys2Proof.Machine.execCollRedAddI64 d a s
  | .collRedMaxF32 d a => Sys2Proof.Machine.execCollRedMaxF32 d a s
  | .collRedMinF32 d a => Sys2Proof.Machine.execCollRedMinF32 d a s
  | .collRedMaxF64 d a => Sys2Proof.Machine.execCollRedMaxF64 d a s
  | .collRedMinF64 d a => Sys2Proof.Machine.execCollRedMinF64 d a s
  | .collRedMaxI32 d a => Sys2Proof.Machine.execCollRedMaxI32 d a s
  | .collRedMinI32 d a => Sys2Proof.Machine.execCollRedMinI32 d a s
  | .collRedAnd d a => Sys2Proof.Machine.execCollRedAnd d a s
  | .collRedOr d a => Sys2Proof.Machine.execCollRedOr d a s
  | .collRedXor d a => Sys2Proof.Machine.execCollRedXor d a s
  | .collBc d a => Sys2Proof.Machine.execCollBc d a s
  | .collAg d a => Sys2Proof.Machine.execCollAg d a s
  | .add d a b => Sys2Proof.Machine.execAdd d a b s
  | .sub d a b => Sys2Proof.Machine.execSub d a b s
  | .mul d a b => Sys2Proof.Machine.execMul d a b s
  | .mulh d a b => Sys2Proof.Machine.execMulh d a b s
  | .mulhn d a b => Sys2Proof.Machine.execMulhn d a b s
  | .div d a b => Sys2Proof.Machine.execDiv d a b s
  | .divn d a b => Sys2Proof.Machine.execDivn d a b s
  | .rem d a b => Sys2Proof.Machine.execRem d a b s
  | .remn d a b => Sys2Proof.Machine.execRemn d a b s
  | .min d a b => Sys2Proof.Machine.execMin d a b s
  | .max d a b => Sys2Proof.Machine.execMax d a b s
  | .minn d a b => Sys2Proof.Machine.execMinn d a b s
  | .maxn d a b => Sys2Proof.Machine.execMaxn d a b s
  | .abs d a => Sys2Proof.Machine.execAbs d a s
  | .and d a b => Sys2Proof.Machine.execAnd d a b s
  | .or d a b => Sys2Proof.Machine.execOr d a b s
  | .xor d a b => Sys2Proof.Machine.execXor d a b s
  | .shl d a b => Sys2Proof.Machine.execShl d a b s
  | .shr d a b => Sys2Proof.Machine.execShr d a b s
  | .sar d a b => Sys2Proof.Machine.execSar d a b s
  | .clz d a => Sys2Proof.Machine.execClz d a s
  | .ctz d a => Sys2Proof.Machine.execCtz d a s
  | .popc d a => Sys2Proof.Machine.execPopc d a s
  | .brev d a => Sys2Proof.Machine.execBrev d a s
  | .bfx d a b => Sys2Proof.Machine.execBfx d a b s
  | .bfi d a b => Sys2Proof.Machine.execBfi d a b s
  | .slt d a b => Sys2Proof.Machine.execSlt d a b s
  | .sltn d a b => Sys2Proof.Machine.execSltn d a b s
  | .seq d a b => Sys2Proof.Machine.execSeq d a b s
  | .sne d a b => Sys2Proof.Machine.execSne d a b s
  | .rng d => Sys2Proof.Machine.execRng d s
  | .addD d a b => Sys2Proof.Machine.execAddD d a b s
  | .subD d a b => Sys2Proof.Machine.execSubD d a b s
  | .mulD d a b => Sys2Proof.Machine.execMulD d a b s
  | .shlD d a b => Sys2Proof.Machine.execShlD d a b s
  | .shrD d a b => Sys2Proof.Machine.execShrD d a b s
  | .sarD d a b => Sys2Proof.Machine.execSarD d a b s
  | .andD d a b => Sys2Proof.Machine.execAndD d a b s
  | .orD d a b => Sys2Proof.Machine.execOrD d a b s
  | .xorD d a b => Sys2Proof.Machine.execXorD d a b s
  | .minD d a b => Sys2Proof.Machine.execMinD d a b s
  | .maxD d a b => Sys2Proof.Machine.execMaxD d a b s
  | .minnD d a b => Sys2Proof.Machine.execMinnD d a b s
  | .maxnD d a b => Sys2Proof.Machine.execMaxnD d a b s
  | .sltD d a b => Sys2Proof.Machine.execSltD d a b s
  | .sltnD d a b => Sys2Proof.Machine.execSltnD d a b s
  | .seqD d a b => Sys2Proof.Machine.execSeqD d a b s
  | .addi d a imm => Sys2Proof.Machine.execAddi d a imm s
  | .andi d a imm => Sys2Proof.Machine.execAndi d a imm s
  | .ori d a imm => Sys2Proof.Machine.execOri d a imm s
  | .xori d a imm => Sys2Proof.Machine.execXori d a imm s
  | .slti d a imm => Sys2Proof.Machine.execSlti d a imm s
  | .shli d a imm => Sys2Proof.Machine.execShli d a imm s
  | .shri d a imm => Sys2Proof.Machine.execShri d a imm s
  | .sari d a imm => Sys2Proof.Machine.execSari d a imm s
  | .lui d imm => Sys2Proof.Machine.execLui d imm s
  | .fadd d a b => Sys2Proof.Machine.execFadd d a b s
  | .fsub d a b => Sys2Proof.Machine.execFsub d a b s
  | .fmul d a b => Sys2Proof.Machine.execFmul d a b s
  | .fdiv d a b => Sys2Proof.Machine.execFdiv d a b s
  | .fsqrt d a => Sys2Proof.Machine.execFsqrt d a s
  | .fmin d a b => Sys2Proof.Machine.execFmin d a b s
  | .fmax d a b => Sys2Proof.Machine.execFmax d a b s
  | .fabs d a => Sys2Proof.Machine.execFabs d a s
  | .fneg d a => Sys2Proof.Machine.execFneg d a s
  | .feq d a b => Sys2Proof.Machine.execFeq d a b s
  | .flt d a b => Sys2Proof.Machine.execFlt d a b s
  | .fle d a b => Sys2Proof.Machine.execFle d a b s
  | .funOrd d a b => Sys2Proof.Machine.execFunOrd d a b s
  | .fclass d a => Sys2Proof.Machine.execFclass d a s
  | .frnd d a b rm => Sys2Proof.Machine.execFrnd d a b rm s
  | .dadd d a b => Sys2Proof.Machine.execDadd d a b s
  | .dsub d a b => Sys2Proof.Machine.execDsub d a b s
  | .dmul d a b => Sys2Proof.Machine.execDmul d a b s
  | .ddiv d a b => Sys2Proof.Machine.execDdiv d a b s
  | .dsqrt d a => Sys2Proof.Machine.execDsqrt d a s
  | .dmin d a b => Sys2Proof.Machine.execDmin d a b s
  | .dmax d a b => Sys2Proof.Machine.execDmax d a b s
  | .dabs d a => Sys2Proof.Machine.execDabs d a s
  | .dneg d a => Sys2Proof.Machine.execDneg d a s
  | .deq d a b => Sys2Proof.Machine.execDeq d a b s
  | .dlt d a b => Sys2Proof.Machine.execDlt d a b s
  | .dle d a b => Sys2Proof.Machine.execDle d a b s
  | .dunOrd d a b => Sys2Proof.Machine.execDunOrd d a b s
  | .dclass d a => Sys2Proof.Machine.execDclass d a s
  | .drnd d a b rm => Sys2Proof.Machine.execDrnd d a b rm s
  | .p2addH d a b => Sys2Proof.Machine.execP2addH d a b s
  | .p2subH d a b => Sys2Proof.Machine.execP2subH d a b s
  | .p2mulH d a b => Sys2Proof.Machine.execP2mulH d a b s
  | .p2fmaH d a b => Sys2Proof.Machine.execP2fmaH d a b s
  | .p2minH d a b => Sys2Proof.Machine.execP2minH d a b s
  | .p2maxH d a b => Sys2Proof.Machine.execP2maxH d a b s
  | .p2addB d a b => Sys2Proof.Machine.execP2addB d a b s
  | .p2subB d a b => Sys2Proof.Machine.execP2subB d a b s
  | .p2mulB d a b => Sys2Proof.Machine.execP2mulB d a b s
  | .p2fmaB d a b => Sys2Proof.Machine.execP2fmaB d a b s
  | .p2minB d a b => Sys2Proof.Machine.execP2minB d a b s
  | .p2maxB d a b => Sys2Proof.Machine.execP2maxB d a b s
  | .cvtF64F32 d a b rm sat => Sys2Proof.Machine.execCvtF64F32 d a b rm sat s
  | .cvtF64F16 d a b rm sat => Sys2Proof.Machine.execCvtF64F16 d a b rm sat s
  | .cvtF64Bf16 d a b rm sat => Sys2Proof.Machine.execCvtF64Bf16 d a b rm sat s
  | .cvtF64E4m3 d a b rm sat => Sys2Proof.Machine.execCvtF64E4m3 d a b rm sat s
  | .cvtF64E5m2 d a b rm sat => Sys2Proof.Machine.execCvtF64E5m2 d a b rm sat s
  | .cvtF64I32 d a b rm sat => Sys2Proof.Machine.execCvtF64I32 d a b rm sat s
  | .cvtF64N32 d a b rm sat => Sys2Proof.Machine.execCvtF64N32 d a b rm sat s
  | .cvtF64I64 d a b rm sat => Sys2Proof.Machine.execCvtF64I64 d a b rm sat s
  | .cvtF64N64 d a b rm sat => Sys2Proof.Machine.execCvtF64N64 d a b rm sat s
  | .cvtF32F64 d a b rm sat => Sys2Proof.Machine.execCvtF32F64 d a b rm sat s
  | .cvtF32F16 d a b rm sat => Sys2Proof.Machine.execCvtF32F16 d a b rm sat s
  | .cvtF32Bf16 d a b rm sat => Sys2Proof.Machine.execCvtF32Bf16 d a b rm sat s
  | .cvtF32E4m3 d a b rm sat => Sys2Proof.Machine.execCvtF32E4m3 d a b rm sat s
  | .cvtF32E5m2 d a b rm sat => Sys2Proof.Machine.execCvtF32E5m2 d a b rm sat s
  | .cvtF32E2m1 d a b rm sat => Sys2Proof.Machine.execCvtF32E2m1 d a b rm sat s
  | .cvtF32E8m0 d a b rm sat => Sys2Proof.Machine.execCvtF32E8m0 d a b rm sat s
  | .cvtF32E3m5 d a b rm sat => Sys2Proof.Machine.execCvtF32E3m5 d a b rm sat s
  | .cvtF32I32 d a b rm sat => Sys2Proof.Machine.execCvtF32I32 d a b rm sat s
  | .cvtF32N32 d a b rm sat => Sys2Proof.Machine.execCvtF32N32 d a b rm sat s
  | .cvtF32I64 d a b rm sat => Sys2Proof.Machine.execCvtF32I64 d a b rm sat s
  | .cvtF32N64 d a b rm sat => Sys2Proof.Machine.execCvtF32N64 d a b rm sat s
  | .cvtF16F64 d a b rm sat => Sys2Proof.Machine.execCvtF16F64 d a b rm sat s
  | .cvtF16F32 d a b rm sat => Sys2Proof.Machine.execCvtF16F32 d a b rm sat s
  | .cvtF16Bf16 d a b rm sat => Sys2Proof.Machine.execCvtF16Bf16 d a b rm sat s
  | .cvtF16E4m3 d a b rm sat => Sys2Proof.Machine.execCvtF16E4m3 d a b rm sat s
  | .cvtF16E5m2 d a b rm sat => Sys2Proof.Machine.execCvtF16E5m2 d a b rm sat s
  | .cvtBf16F64 d a b rm sat => Sys2Proof.Machine.execCvtBf16F64 d a b rm sat s
  | .cvtBf16F32 d a b rm sat => Sys2Proof.Machine.execCvtBf16F32 d a b rm sat s
  | .cvtBf16F16 d a b rm sat => Sys2Proof.Machine.execCvtBf16F16 d a b rm sat s
  | .cvtBf16E4m3 d a b rm sat => Sys2Proof.Machine.execCvtBf16E4m3 d a b rm sat s
  | .cvtBf16E5m2 d a b rm sat => Sys2Proof.Machine.execCvtBf16E5m2 d a b rm sat s
  | .cvtE4m3F64 d a b rm sat => Sys2Proof.Machine.execCvtE4m3F64 d a b rm sat s
  | .cvtE4m3F32 d a b rm sat => Sys2Proof.Machine.execCvtE4m3F32 d a b rm sat s
  | .cvtE4m3F16 d a b rm sat => Sys2Proof.Machine.execCvtE4m3F16 d a b rm sat s
  | .cvtE4m3Bf16 d a b rm sat => Sys2Proof.Machine.execCvtE4m3Bf16 d a b rm sat s
  | .cvtE4m3E5m2 d a b rm sat => Sys2Proof.Machine.execCvtE4m3E5m2 d a b rm sat s
  | .cvtE5m2F64 d a b rm sat => Sys2Proof.Machine.execCvtE5m2F64 d a b rm sat s
  | .cvtE5m2F32 d a b rm sat => Sys2Proof.Machine.execCvtE5m2F32 d a b rm sat s
  | .cvtE5m2F16 d a b rm sat => Sys2Proof.Machine.execCvtE5m2F16 d a b rm sat s
  | .cvtE5m2Bf16 d a b rm sat => Sys2Proof.Machine.execCvtE5m2Bf16 d a b rm sat s
  | .cvtE5m2E4m3 d a b rm sat => Sys2Proof.Machine.execCvtE5m2E4m3 d a b rm sat s
  | .cvtE2m1F64 d a b rm sat => Sys2Proof.Machine.execCvtE2m1F64 d a b rm sat s
  | .cvtE2m1F32 d a b rm sat => Sys2Proof.Machine.execCvtE2m1F32 d a b rm sat s
  | .cvtE2m1F16 d a b rm sat => Sys2Proof.Machine.execCvtE2m1F16 d a b rm sat s
  | .cvtE2m1Bf16 d a b rm sat => Sys2Proof.Machine.execCvtE2m1Bf16 d a b rm sat s
  | .cvtE8m0F32 d a b rm sat => Sys2Proof.Machine.execCvtE8m0F32 d a b rm sat s
  | .cvtE3m5F32 d a b rm sat => Sys2Proof.Machine.execCvtE3m5F32 d a b rm sat s
  | .cvtI32F64 d a b rm sat => Sys2Proof.Machine.execCvtI32F64 d a b rm sat s
  | .cvtI32F32 d a b rm sat => Sys2Proof.Machine.execCvtI32F32 d a b rm sat s
  | .cvtI32I64 d a sat => Sys2Proof.Machine.execCvtI32I64 d a sat s
  | .cvtN32F64 d a b rm sat => Sys2Proof.Machine.execCvtN32F64 d a b rm sat s
  | .cvtN32F32 d a b rm sat => Sys2Proof.Machine.execCvtN32F32 d a b rm sat s
  | .cvtN32N64 d a sat => Sys2Proof.Machine.execCvtN32N64 d a sat s
  | .cvtI64F64 d a b rm sat => Sys2Proof.Machine.execCvtI64F64 d a b rm sat s
  | .cvtI64F32 d a b rm sat => Sys2Proof.Machine.execCvtI64F32 d a b rm sat s
  | .cvtI64I32 d a sat => Sys2Proof.Machine.execCvtI64I32 d a sat s
  | .cvtN64F64 d a b rm sat => Sys2Proof.Machine.execCvtN64F64 d a b rm sat s
  | .cvtN64F32 d a b rm sat => Sys2Proof.Machine.execCvtN64F32 d a b rm sat s
  | .cvtN64N32 d a sat => Sys2Proof.Machine.execCvtN64N32 d a sat s
  | .cvtI8I32 d a sat => Sys2Proof.Machine.execCvtI8I32 d a sat s
  | .cvtN8I32 d a sat => Sys2Proof.Machine.execCvtN8I32 d a sat s
  | .cvtI16I32 d a sat => Sys2Proof.Machine.execCvtI16I32 d a sat s
  | .cvtN16I32 d a sat => Sys2Proof.Machine.execCvtN16I32 d a sat s
  | .cvtpE4m3 d a b rm sat h => Sys2Proof.Machine.execCvtpE4m3 d a b rm sat h s
  | .cvtpE5m2 d a b rm sat h => Sys2Proof.Machine.execCvtpE5m2 d a b rm sat h s
  | .cvtpE2m1Low d a b rm sat h => Sys2Proof.Machine.execCvtpE2m1Low d a b rm sat h s
  | .cvtpE2m1High d a b rm sat h => Sys2Proof.Machine.execCvtpE2m1High d a b rm sat h s
  | .cvtpF16 d a b rm sat => Sys2Proof.Machine.execCvtpF16 d a b rm sat s
  | .cvtpBf16 d a b rm sat => Sys2Proof.Machine.execCvtpBf16 d a b rm sat s
  | .ffma d a b c => Sys2Proof.Machine.execFfma d a b c s
  | .dfma d a b c => Sys2Proof.Machine.execDfma d a b c s
  | .imad d a b c => Sys2Proof.Machine.execImad d a b c s
  | .sel d a b c => Sys2Proof.Machine.execSel d a b c s

end Sys2Proof.Machine
end

