-- ==== Sys2Proof/Machine/Issue.lean ====
section
/-! DEFINITION. The issue of one bundle of a thread: its fetch (R62 to R65, R133), its decode checks (R81,
R82, R386), the order in which a bundle meets its causes (R148), and the execution of its words (R10, R154). -/

namespace Sys2Proof.Machine

noncomputable section

/-- A word of the boot ROM (R360, assumption 11). -/
def State.romWord (s : State) (va : DWord) : Word :=
  BitVec.ofNat 32 (leNat ((List.range 4).map fun i =>
    (aget (va.toNat + i) s.rom).getD (bootByte s.primary (va.toNat + i))))

/-- Lines of an L1 instruction cache (R1, R3: 32 KiB of 128-byte lines). -/
def icacheLines : Nat := 256

/-- Room in a core's L1 instruction cache for a word: with all of its lines in use, one that the hardware picks leaves
(R1, assumption 5). -/
def State.icacheRoom (s : State) (c a : Nat) : State :=
  let lines := (s.core c).icache.foldl (fun l x => sinsert (lineNo x.1) l) []
  if lines.contains (lineNo a) || decide (lines.length < icacheLines) then s
  else
    let (v, s) := s.draw
    match (lines.drop (v % lines.length)).head? with
    | some n => s.modCore c fun k => { k with icache := k.icache.filter fun x => lineNo x.1 != n }
    | none => s

/-- A fetched word: from the boot ROM for a boot thread (R360), from the core's instruction cache, or from the home
(R65, R133), where the target checks it and a peer page's grant is taken (R311, R374). A trap of a fetch stands for an
access of 4 bytes, and a poisoned sector raises POISON with the word's address (assumption 47). -/
def State.fetchWord (s : State) (va : DWord) : Res Word :=
  if s.t.boot then
    if !canonical va then .stop (s.raise 0x04 va (some (.fetch, 4))) else .ok (s.romWord va) s
  else (s.xlate va 4 .fetch).andThen fun pa s =>
    let a := s.homeAddr pa
    match aget a (s.core s.t.core).icache with
    | some x => .ok x.w s
    | none =>
      if !s.atMemory pa .fetch then .stop (s.refusedRead pa va 4 .fetch)
      else
        let s := s.takeGrant pa false
        if s.homePois pa 4 then .stop (s.raise 0x0C va (some (.fetch, 4)))
        else
          let w := s.memWord pa
          let s := s.icacheRoom s.t.core a
          let x : FetchedWord := { w := w, asn := s.t.asn, vpn := vpnOf va, size := s.pageSize s.t.core true s.t.asn va }
          .ok w (s.modCore s.t.core fun k => { k with icache := aset a x k.icache })

/-- The unit that control has reached (R62, R63, R386). -/
inductive Unit' where
  /-- A structure failure: the word for `tval`, PAIR and AW (R386). -/
  | bad (word : Word) (pair aw : Bool)
  | lone (w : Word)
  | pair (c a : Word)
  | long (w lit : Word)
  /-- The A word of a pair, executed alone after a landing (R63). -/
  | half (w : Word)
  deriving DecidableEq, Repr

/-- The unit at an 8-aligned address, from its two words (R62, R64, R386). -/
def unitAt0 (w next : Word) : Unit' :=
  if fL w = 1#1 then (if isLongWord w then .bad w false false else .lone w)
  else if isLongWord w then .long w next
  else if fK w = 1#1 then .bad w true true
  else if fK next = 1#1 ∧ fL next = 0#1 then .pair w next
  else .bad next true true

/-- The unit at an address ≡ 4 mod 8 reached in sequence (R62, R64, R386). -/
def unitAt4 (w : Word) : Unit' :=
  if fL w = 1#1 then (if isLongWord w then .bad w false false else .lone w) else .bad w false (bit1 (fK w))

/-- The unit at an address ≡ 4 mod 8 on which a control transfer lands, after the word p (R63, R386). -/
def unitLanded (p w : Word) : Unit' :=
  let rejected := Unit'.bad w false (bit1 (fK w))
  if fL p = 1#1 then
    if fL w = 1#1 then (if isLongWord w then .bad w false false else .lone w) else rejected
  else if fK p = 1#1 ∨ isLongWord p then rejected
  else if fK w = 1#1 ∧ fL w = 0#1 then .half w
  else rejected

/-- Fetch the unit at the current thread's pc (R62, R63). A landing at an address ≡ 4 mod 8 fetches the word before it
first, whose address a fault of that fetch reports; the target's own upper bits are checked before (R116, R159,
assumption 47). -/
def State.fetchUnit (s : State) : Res Unit' :=
  let a := s.t.pc
  if a.toNat % 8 = 0 then
    (s.fetchWord a).andThen fun w s =>
      if fL w = 1#1 then .ok (unitAt0 w 0#32) s
      else (s.fetchWord (a + 4#64)).andThen fun next s => .ok (unitAt0 w next) s
  else if s.t.landed then
    if !canonical a then .stop (s.raise 0x04 a (some (.fetch, 4)))
    else (s.fetchWord (a - 4#64)).andThen fun p s =>
      (s.fetchWord a).andThen fun w s => .ok (unitLanded p w) s
  else (s.fetchWord a).andThen fun w s => .ok (unitAt4 w) s

/-- The instruction keeps an effect across a park, whose operands it has recorded (R23, R128). -/
def State.keeps (s : State) : Bool := s.t.kept.isSome

/-- What an instruction reads at this evaluation: nothing of what a kept effect has recorded (R23), of an `stm` only
the registers of the elements that are left (R128), and nothing that would stop a `pf` (R129). -/
def State.liveShape (s : State) (i : Instr) : Shape :=
  match i with
  | .stm d a n => stmShape d a n (min s.t.tprog.toNat (n.toNat + 1))
  | .pf _ a _ => s.pfShape a
  | i => if s.keeps then recorded i.shape else i.shape

/-- Set the word in execution (R81, R149). -/
def State.atWord (s : State) (w : Word) (aw : Bool) : State := { s with fr := { s.fr with word := w, aw := aw } }

/-- The registers that a word writes, for R82: fields, implicit writes, queue registers and g0 apart. -/
def OpSrc.writes (o : OpSrc) (sh : Shape) : List Nat :=
  ((opRegs sh.dst).filter fun r => !o.isQueue r && r != 0) ++ sh.extraW.map BitVec.toNat

/-- The two words of a pair write one register, or write `rngs` twice, or the C word is an `ldm` or `stm`
(R29, R82, R127). -/
def State.pairIllegal (s : State) (c a : Instr) : Bool :=
  let o := s.src
  (o.writes c.shape).any (fun r => (o.writes a.shape).contains r) ||
  (match c, a with
    | .sset _ imm, .rng _ => SReg.ofNum imm.toNat == some .rngs
    | _, _ => false) ||
  (match c with
    | .ldm _ _ _ | .stm _ _ _ => true
    | _ => false)

/-- The checks of a bundle's words before the first executes, after its structure (R81, R148): each word with
its instruction, the C word first. -/
def State.prologue (s : State) (ws : List (Word × Bool × Instr)) : Res PUnit :=
  match ws.find? fun w => !(s.namesOk w.2.2.shape) with
  | some w => .stop (s.atWord w.1 w.2.1).ill
  | none =>
    let illegal := match ws with
      | [c, a] => s.pairIllegal c.2.2 a.2.2
      | _ => false
    if illegal then
      match ws.getLast? with
      | some w => .stop (s.atWord w.1 w.2.1).ill
      | none => .stop s
    else
      match ws.find? fun w => w.2.2.shape.sup && !s.t.mode with
      | some w => .stop (s.atWord w.1 w.2.1).priv
      | none =>
        -- a kept effect is the C word's: the A word reads and pops its own operands at every evaluation (R23)
        let shapes := ws.map fun w => if w.2.1 then w.2.2.shape else s.liveShape w.2.2
        if shapes.any s.endsQuantum then .stop s.endQuantum
        else
          let o := s.src
          match s.shortQueue (shapes.flatMap o.pops) (shapes.flatMap o.pushes) with
          | some q => .stop (s.park 5 (.queue s.t.core q))
          | none =>
            match ws with
            | [] => .ok .unit s
            | c :: rest =>
              match s.poisoned [] (s.liveShape c.2.2) with
              | some r => .stop ((s.atWord c.1 c.2.1).rpois r)
              | none =>
                match rest with
                | [] => .ok .unit s
                | a :: _ =>
                  match s.poisoned (o.pops (s.liveShape c.2.2)) a.2.2.shape with
                  | some r => .stop ((s.atWord a.1 a.2.1).rpois r)
                  | none => .ok .unit s

/-- The state that a meaning answers; a meaning of the model answers no other (R12). -/
def stateOf (old : State) (o : Host.Outcome State Fault Refusal) : State :=
  match o with
  | .next s => s
  | _ => old

/-- A word that writes no register and has an address, a comparison or store data to compute (R154); a `pf` never traps
(R129). -/
def Instr.computes (i : Instr) : Bool :=
  decide (i.shape.dst = .no) && i.shape.extraW.isEmpty &&
    match i with
    | .bra _ | .ret | .tret => true
    | .pf .. => false
    | i => decide (i.shape.a ≠ .no)

/-- A word without a register result whose check fails twice raises DPERR after its own checks (R148, R154). -/
def State.dperr (s : State) (i : Instr) : Bool := s.upset == 2 && Instr.computes i

/-- A register or a queue entry that the word writes is marked poisoned where its check fails twice, and its cluster
counts the poisoning (R154); `before` is the state in which the word began. -/
def State.countPoisoned (before s : State) (i : Instr) : State :=
  if before.struck && !s.fr.stopped && !((opRegs i.shape.dst).all (· == 0) && i.shape.extraW.isEmpty) then
    s.countPoison (clusterOf s.t.core)
  else s

/-- A number for this bundle of this thread, at which a free choice is made. -/
def State.point (s : State) : Nat := s.ticks * 2 ^ 22 + s.t.ckey

/-- An `ldm` or `stm` may stand off between its elements, but not at a boundary, where it performs (R128, R337, assumption
7); and a load that misses, an element of an `ldm` among them, may perform after its bundle (R284, assumption 54). -/
def State.paced (s : State) (i : Instr) : State :=
  let burst := if s.fr.boundary then none else Config.burst s.point
  match i with
  | .ldm .. => { s with fr := { s.fr with burst := burst, late := Config.lateLoad s.point } }
  | .stm .. => { s with fr := { s.fr with burst := burst } }
  | .ld8s .. | .ld8z .. | .ld16s .. | .ld16z .. | .ld32 .. | .ld64 .. | .ld128 .. =>
    { s with fr := { s.fr with late := Config.lateLoad s.point } }
  | _ => s

/-- The first word of a bundle. -/
def State.runFirst (s : State) (i : Instr) : Host.Outcome State Fault Refusal :=
  match exec i (s.paced i) with
  | .next s' => if s.dperr i && !s'.fr.stopped then .next (s.raise 0x0E 0#64 none) else .next (s.countPoisoned s' i)
  | o => o

/-- The A word of a pair, on the operands of the bundle's start (R10). -/
def State.runSecond (start s : State) (w : Word) (i : Instr) : Host.Outcome State Fault Refusal :=
  let s := { s with fr := { s.fr with word := w, aw := true, latch := some start.src } }
  match exec i s with
  | .next s' =>
    let s' := s.countPoisoned s' i
    .next { s' with fr := { s'.fr with latch := none } }
  | o => o

/-- A bundle that a trap or a park has ended leaves no load outstanding (assumption 54). -/
def State.noneLeft (s : State) : State := if s.fr.stopped then s.performLoads s.t.ckey else s

/-- A pair: the C word, then the A word where the C word has not ended the bundle. A word that retires the
thread goes last (R137). -/
def State.runPair (s : State) (wa : Word) (c a : Instr) : Host.Outcome State Fault Refusal :=
  match s.runFirst c with
  | .next s1 =>
    if s1.fr.stopped then .next s1
    else if s1.t.life = .exited then
      match s.runSecond s wa a with
      | .next s2 => ({ s2 with fr := s.fr } : State).runFirst c
      | o => o
    else match s.runSecond s1 wa a with
      | .next s2 => .next s2.noneLeft
      | o => o
  | o => o

/-- Set the frame of a bundle, and the next bundle in sequence (R62), which may lie in the next 4 GiB window
(assumption 48). -/
def State.frame (s : State) (size : Nat) (w : Word) (pair aw : Bool) : State :=
  let a := s.t.pc
  let landed := s.t.landed
  let s := { s with fr :=
    { first := a, next := a + BitVec.ofNat 64 size, word := w, pair := pair, aw := aw, landed := landed,
      latch := none, stopped := false, again := false, boundary := s.fr.boundary } }
  s.modT fun t => { t with pc := a + BitVec.ofNat 64 size, landed := false }

/-- Execute a decoded unit: the checks of its words, then the words (R148). -/
def State.execUnit (s : State) (u : Unit') : Host.Outcome State Fault Refusal :=
  match u with
  | .bad w pair aw => .next (s.frame 4 w pair aw).ill
  | .lone w =>
    let aw := bit1 (fK w)
    let s := s.frame 4 w false aw
    match decodeWord w with
    | none => .next s.ill
    | some i => match s.prologue [(w, aw, i)] with
      | .stop s => .next s
      | .ok _ s => s.runFirst i
  | .half w =>
    let s := s.frame 4 w false true
    match decodeWord w with
    | none => .next s.ill
    | some i => match s.prologue [(w, true, i)] with
      | .stop s => .next s
      | .ok _ s => s.runFirst i
  | .long w lit =>
    let s := s.frame 8 w true false
    match decodeLong w lit with
    | none => .next s.ill
    | some i => match s.prologue [(w, false, i)] with
      | .stop s => .next s
      | .ok _ s => s.runFirst i
  | .pair wc wa =>
    let s := s.frame 8 wc true false
    match decodeWord wc with
    | none => .next s.ill
    | some c =>
      if !s.namesOk c.shape then .next s.ill
      else match decodeWord wa with
        | none => .next (s.atWord wa true).ill
        | some a => match s.prologue [(wc, false, c), (wa, true, a)] with
          | .stop s => .next s
          | .ok _ s => s.runPair wa c a

/-- The fetch of a bundle sets its frame before it can trap or park (R65); PAIR and AW of a trap at the fetch are 0
(assumption 47). -/
def State.fetchFrame (s : State) : State :=
  { s with fr :=
    { first := s.t.pc, next := s.t.pc + 4#64, word := 0#32, landed := s.t.landed, boundary := s.fr.boundary } }

/-- The registers that a word touches. -/
def Instr.touched (i : Instr) : List Nat :=
  sourcesOf i.shape ++ opRegs i.shape.dst ++ opRegs i.shape.dsrc ++ (i.shape.extraR ++ i.shape.extraW).map BitVec.toNat

/-- A word that may issue while earlier loads of its thread have not performed (R123, R286): a plain access, a branch, or
one that computes on registers alone. -/
def Instr.passes (i : Instr) : Bool :=
  !i.shape.det && !i.shape.sup && match i with
    | .spawn .. | .exit | .tdone | .join .. | .tkill .. | .tresume .. | .trap .. | .sget .. | .sset .. | .brk .. | .tret
    | .fenceI | .pf .. | .ldm .. | .stm .. | .rgnAcq .. | .rgnRel .. | .rbind .. | .rwf .. | .rwe .. | .radvp ..
    | .radvc .. | .raddr .. | .rbytes .. | .qbind .. | .conv .. | .gbar | .gdis | .tcopy .. | .scopy .. | .tfill ..
    | .ewait .. | .eprog .. | .mxCfg .. | .mxZero .. | .mxLd .. | .mxSt .. | .mxMerge .. | .launch .. | .nsend ..
    | .nrecv .. | .nmcast .. | .pause => false
    | _ => true

/-- The words of a unit. -/
def Unit'.instrs : Unit' → List (Option Instr)
  | .bad _ _ _ => [none]
  | .lone w | .half w => [decodeWord w]
  | .pair c a => [decodeWord c, decodeWord a]
  | .long w lit => [decodeLong w lit]

/-- The next bundle waits for no load of its thread that has not performed (R164, R286). -/
def State.freeOfLoads (s : State) : Bool :=
  match s.fetchFrame.fetchUnit with
  | .stop _ => false
  | .ok u _ => u.instrs.all fun x => match x with
    | some i => Instr.passes i && !s.src.usesQueue i.shape &&
        (Instr.touched i).all fun r => s.t.loads.all fun l => !l.regs.contains r
    | none => false

/-- One bundle of the current thread (R62, R148), or one turn of a receiver (R363). -/
def State.bundle (s : State) : Host.Outcome State Fault Refusal :=
  let s := s.fetchFrame
  if s.t.receiver then .next s.recvTurn
  else match s.payStub with
    | .stop s => .next s
    | .ok _ s =>
      if s.t.pc.toNat % 4 ≠ 0 then .next (s.raise 0x03 s.t.pc none)
      else match s.fetchUnit with
        | .stop s => .next s
        | .ok u s => s.execUnit u

end

end Sys2Proof.Machine
end

