-- ==== Sys2Proof/Machine/Run.lean ====
section
/-! DEFINITION. How the package goes on: what follows a bundle (R154, R158, R196, R336), the turn of a thread, of a
boundary's operation (R337) and of a core's cycle (R165), and the choice among the agents (assumption 3). -/

namespace Sys2Proof.Machine

noncomputable section

/-- Count the replay of the bundle that was struck (R154, R354). -/
def State.countUpset (s : State) (cl : Nat) : State :=
  if s.upset = 0 then s
  else { s.modCluster cl fun k => { k with replays := k.replays + 1 } with upset := 0 }

/-- A bundle of a deterministic thread has completed; its 2^QLOG-th, or the first after it, ends the quantum (R336). -/
def State.countBundle (s : State) : State :=
  if !s.t.det || s.t.life != .running || s.fr.stopped || s.fr.boundary then s
  else match s.launch? s.t.lid with
    | none => s
    | some l =>
      let n := s.t.qcount + 1
      let s := s.modT fun t => { t with qcount := n }
      if 2 ^ l.pkt.qlog ≤ n then { s with agenda := s.agenda ++ [.quantumEnd s.t.core s.t.num] } else s

/-- A step of the debugger ends at the boundary after its bundle; a parked thread keeps its mark (R158). -/
def State.endStep (s : State) : State :=
  if !s.t.stepMark || s.fr.again then s
  else match s.t.life with
    | .running | .suspended =>
    s.modT fun t => { t with life := .suspended, halted := true, stepMark := false, suspAt := s.ticks }
    | .faulted => s.modT fun t => { t with halted := true, stepMark := false }
    | _ => s

/-- An operation has performed at a boundary: the thread starts a new quantum, unless its instruction still waits (R337).
A send that completes between two boundaries leaves it at the end of its quantum, for the next boundary to start one
(R339, R344, assumption 17). -/
def State.endPerform (s : State) : State :=
  if !s.fr.boundary then s
  else
    let s := { s with fr := { s.fr with boundary := false } }
    let between := !((s.launch? s.t.lid).any (·.boundary))
    s.modT fun t => match t.life with
      | .running | .suspended => if s.fr.again then t else { t with qended := between, qop := false, qcount := 0 }
      | .faulted => { t with qended := false, qop := false, qcount := 0 }
      | .parked => if t.park.any fun p => p.reason == 6 then { t with qended := false, qop := false } else t
      | _ => t

/-- The queues of the core that a pair has left without binders and entries are released, once both of its words have
taken effect (R23, R173). -/
def State.releaseIdle (s : State) : State :=
  if !s.fr.pair then s
  else (s.core s.t.core).queues.foldl (fun s q => s.releaseQueue s.t.core q.1) s

/-- A thread whose launch is being pre-empted leaves the Roll once it has completed what it had begun (R178). -/
def State.leaveRoll (s : State) : State :=
  if s.hasT && !s.t.boot && s.held s.t.lid && !s.finishing s.t then s.modT fun t => t.suspended s.ticks else s

/-- What follows a bundle of a thread of a cluster. -/
def State.afterBundle (s : State) (cl : Nat) : State :=
  let s := ((s.releaseIdle.countUpset cl).countBundle).endStep.endPerform.leaveRoll
  if s.hasT && s.t.killPend then s.kill s.t.ckey else s

/-- A bundle of a thread with loads that have not performed yet (R284): they stay outstanding where it neither waits for
them nor ends in a trap or a park, and perform before it otherwise. -/
def State.bundleAmid (s : State) : Host.Outcome State Fault Refusal :=
  if s.t.loads.isEmpty then s.bundle
  else
    let after := (s.performLoads s.t.ckey).bundle
    if !s.freeOfLoads then after
    else match s.bundle with
      | .next s' => if s'.fr.stopped then after else .next s'
      | o => o

/-- One bundle of the current thread and what follows it. -/
def State.runBundle (s : State) : Host.Outcome State Fault Refusal :=
  match s.bundleAmid with
  | .next s' => .next (s'.afterBundle (clusterOf s.t.core))
  | o => o

/-- The loads of a core's cycle that have missed perform, before what comes after them in its issue group is put off
(R166). -/
def State.settleCycle (s : State) (c : Nat) : State :=
  (s.threads.flatMap fun th => (th.loads.filter fun x => th.core == c && x.at' == s.ticks).map fun x => (th.ckey, x)).foldl
    (fun s p => s.performFirst p.1 p.2) s

/-- A member of an issue group that waits where it is, or stands off, holds up those that come after it: they issue once it
has gone on, so that the accesses of the group keep its order (R166, assumption 7). -/
def State.openGroup (s : State) (k : Nat) : State :=
  if s.fr.waits && s.hasT && s.t.ckey == k && s.t.life == .running then
    let s := s.settleCycle (k / 1024)
    { s with opened := s.opened ++ [k :: s.issue], issue := [] }
  else s

/-- The next member of an issue group issues, if it is still there and running (R166). -/
def State.issueOne (s : State) (k : Nat) : Host.Outcome State Fault Refusal :=
  let s := s.switchTo k
  if s.hasT && s.t.ckey == k && s.t.life == .running then
    match ({ s with fr := { s.fr with boundary := false } } : State).runBundle with
    | .next s' => .next (s'.openGroup k)
    | o => o
  else .next s

/-- An operation of a boundary that has only waited for a page stays first, to be made again: no boundary ends before it
(R337). -/
def State.stayFirst (s : State) (k : Nat) : State :=
  if s.fr.waits && s.hasT && s.t.ckey == k && s.t.life == .running then
    { s with perform := k :: s.perform, stalled := true }
  else s

/-- The operation of one thread performs at a boundary, or its parked instruction is evaluated anew (R337). -/
def State.performOne (s : State) (k : Nat) : Host.Outcome State Fault Refusal :=
  let s := s.switchTo k
  if s.hasT && s.t.ckey == k && !s.t.halted && (s.t.life == .running || s.t.life == .parked) then
    let s := s.modT fun t => { t with life := .running, park := none }
    match ({ s with fr := { s.fr with boundary := true } } : State).runBundle with
    | .next s' => .next (s'.stayFirst k)
    | o => o
  else .next s

/-- A line that the sweep must take now, before time goes on (R264). -/
def State.overdueLine (s : State) : Option (Nat × Nat) :=
  s.cores.findSome? fun c => (c.2.l1.find? fun l => !l.h && decide (32767 ≤ s.lineAge l)).map fun l => (c.1, l.n)

/-- One cycle of time, in ticks (R3, R26): 4 ninths of a nanosecond. -/
def cycleTicks : Nat := 4

/-- An error in register storage takes effect (R155, R177, assumption 31): in correcting mode one wrong bit of a codeword
is corrected and counted, and two poison both registers of the codeword; in detect-only mode the register's residue no
longer fits its value, which poisons it. -/
def State.meetErr (s : State) (e : RegErr) : State :=
  match s.thread? e.key with
  | none => s
  | some th =>
    let mark := fun (th : Thread) r =>
      if r = 0 ∨ 8 * th.blocks ≤ r then th else { th with regs := th.regs.set! r { th.regs[r]! with pois := true } }
    let cl := clusterOf th.core
    if !th.resident then s
    else if (s.core th.core).detect then (s.putThread (mark th e.reg)).countPoison cl
    else if e.double then (s.putThread (mark (mark th (e.reg / 2 * 2)) (e.reg / 2 * 2 + 1))).countPoison cl
    else s.modCluster cl fun k => { k with corrections := k.corrections + 1 }

/-- A sector of a line that the L1's storage loses: it is poisoned, and none of its bytes is dirty or part of a whole write any
more (R125, R354). -/
def Line.strike (l : Line) (k : Nat) : Line :=
  { l with
    pois := setAt k true l.pois, struck := setAt k true l.struck, whole := setAt k false l.whole
    dirty := l.dirty &&& ~~~(byteMask (32 * k) 32) }

/-- An error in other storage takes effect (R205, R354, assumption 31): one wrong bit is corrected and counted, and two
poison the sector; the dirty bytes of an L1 sector are lost with it. -/
def State.meetMemErr (s : State) (e : MemErr) : State :=
  let corrected := fun cl => s.modCluster cl fun k => { k with corrections := k.corrections + 1 }
  match e.place with
  | .memory n => if e.double then s.poisonSector n else s
  | .scratch cl lid a =>
    if e.double then
      (s.modInst cl lid fun i => { i with pois := sinsert (scratchSector a) i.pois }).countPoison cl
    else corrected cl
  | .l1 c n k =>
    match (s.core c).line? n with
    | none => s
    | some l =>
      if !e.double then corrected (clusterOf c)
      else
        let lost := sectorMask l.dirty k != 0#32
        let s := (s.modCore c fun q => q.putLine (l.strike k)).countPoison (clusterOf c)
        if lost then s.poisonSector (4 * n + k) else s

/-- Every error in storage that has come about takes effect. -/
def State.meetErrs (s : State) : State :=
  let s := { s.regErrs.foldl State.meetErr s with regErrs := [] }
  { s.memErrs.foldl State.meetMemErr s with memErrs := [] }

/-- The turn passes to the next core; once all have had it, time goes on (assumption 3). -/
def State.passTurn (s : State) : State :=
  if s.turn + 1 < 4096 then { s with turn := s.turn + 1 }
  else ({ s with turn := 0, ticks := s.ticks + cycleTicks } : State).countActive cycleTicks

/-- A cluster collects its frequency; an island at full speed has a cycle each time (R359). -/
def Cluster.collect (k : Cluster) : Cluster :=
  { k with phase := (if 2250 ≤ k.phase then k.phase - 2250 else k.phase) + k.fmhz.toNat }

/-- The core whose turn it is has its cycle, if its island has one now (R165, R359). -/
def State.cycle (s : State) : Host.Outcome State Fault Refusal :=
  let s := s.meetErrs
  let c := s.turn
  let cl := clusterOf c
  if !(s.cluster cl).live then .next s.passTurn
  else
    let s := if c % 8 = 0 then s.modCluster cl Cluster.collect else s
    let s := s.passTurn
    if 2250 ≤ (s.cluster cl).phase then exec (.rollCycle c) s else .next s

/-- A step that an agent can take: one that has a row in the opcode table, or one of memory alone. -/
inductive Move where
  | event (i : Instr)
  /-- The oldest write of a core to a line that is on its way reaches the home (R265). -/
  | arrive (core line : Nat)
  /-- A home slice drops a sharer record for capacity (R266). -/
  | dropSharers (line : Nat)
  /-- A load of a thread that has missed performs (R284). -/
  | load (key i : Nat)
  /-- An issue group goes on with the member that has held it up (R166). -/
  | resume (i : Nat)
  /-- Buffered stores whose translation a shootdown has removed are translated again (R298). -/
  | retranslate (key : Nat)
  /-- The spill engine writes the flags byte of a spilled context's record anew (R179, R181, R196). -/
  | reflag (key : Nat)
  /-- A message of a deterministic thread has been taken, and the thread's `nsend` or `nmcast` completes (R344). -/
  | complete (key : Nat)
  /-- Firmware ends boot (R360). -/
  | endBoot
  deriving DecidableEq, Repr

/-- The loads of a thread that can perform next: those with no older one of their line (R123, R284). -/
def State.loadMoves (s : State) (th : Thread) : List Move :=
  let line := fun (x : LateLoad) => lineNo (s.homeAddr x.pa)
  ((List.range th.loads.length).filter fun i =>
    !((th.loads.take i).any fun x => (th.loads[i]?.map line) == some (line x))).map fun i => .load th.ckey i

/-- The steps of memory that no row of the table names. -/
def State.memoryMoves (s : State) : List Move :=
  (s.cores.flatMap fun c =>
    ((c.2.sent.filter fun w => !w.home).map fun w => .arrive c.1 (lineNo w.pa)) ++
    ((c.2.l1.filter (·.h)).map fun l => .dropSharers l.n)) ++ s.threads.flatMap s.loadMoves

/-- Firmware can end boot: the primary has exited, and every receiver waits for a message (R360, assumption 55). -/
def State.bootDone (s : State) : Bool :=
  (s.clusters.any fun c => c.2.insts.any fun i => i.2.boot) &&
    s.threads.all fun th => !th.boot || th.life == .exited || (th.receiver && th.life == .parked)

/-- Firmware ends boot: the boot instances end, and with them the receivers, which wait for its next message (R360,
assumption 55). -/
def State.endBoot (s : State) : State :=
  let s := ((s.threads.filter fun th => th.boot).map Thread.ckey).foldl State.retire s
  s.clusters.foldl (fun s c => s.modCluster c.1 fun k => { k with insts := k.insts.filter fun i => !i.2.boot }) s

/-- A deterministic thread whose messages have all been taken, and whose send has not completed yet (R344). -/
def State.sendTaken (s : State) (th : Thread) : Bool :=
  th.det && th.life == .running && th.qop && (th.kept.any fun k => k.kind == .sent) && !s.mailPending th.ckey &&
    !s.perform.contains th.ckey

/-- Every step that an agent can take now. -/
def State.moves (s : State) : List Move :=
  s.enabled.map .event ++ s.memoryMoves ++ ((List.range s.opened.length).map .resume) ++
    ((s.threads.filter fun th => th.stale && th.resident).map fun th => .retranslate th.ckey) ++
    ((s.threads.filter s.reflags).map fun th => .reflag th.ckey) ++ ((s.threads.filter s.sendTaken).map fun th => .complete th.ckey) ++
    (if s.bootDone then [.endBoot] else [])

/-- An event that leaves loads that have missed outstanding: of memory, the engines and the Roll alone. -/
def Instr.besideLoads : Instr → Bool
  | .rollCycle _ | .coherentUpdate _ | .sLineSweep _ _ | .tceSectorWrite _ _ | .tceJobRun _ _ | .tceJobEnd _ _
  | .watchPoll _ _ => true
  | _ => false

/-- The addresses that an event of the scheduler or a debugger reads at their homes before it has an effect (R156, R302, R319,
R323, R325). A refill looks to its own pages. -/
def State.eventReads (s : State) (i : Instr) : List Nat :=
  match i with
  | .packetAcceptance q => [s.packetAddr q.toNat]
  | .pendingRecordWrite d => if dbit (s.die d).fqd 5 then [ringCons (s.die d).fqd] else []
  | .launchReady lid => ((s.launch? lid).map (·.tokens)).getD []
  | .launchCompletion lid => ((s.launch? lid).bind (·.ccell)).toList
  | .halt d | .cont d | .step d | .rdreg d | .wrreg d | .rdsreg d | .wrsreg d | .rdpc d | .wrpc d => [s.cmdAddr d]
  | _ => []

/-- A page that an event reads and that a peer holds, or one at which a walk that it needs waits: the owner recalls it
first (R375). -/
def State.eventWaits (s : State) (i : Instr) : Option Nat :=
  match (s.eventReads i).find? fun a => s.heldByPeer (s.homeAddr a) with
  | some a => some (s.homeAddr a / 65536)
  | none => match i with
    | .packetAcceptance q =>
      let n := q.toNat
      if s.packetWaits n then s.packetHeld (s.queue n) (packetOf (s.homeRead (s.packetAddr n) 128)) false else none
    | _ => none

/-- An event takes place; before most of them the loads that have missed perform (R143, R284). One that reads a page which
a peer holds waits for its recall (R375). -/
def State.event (i : Instr) (s : State) : Host.Outcome State Fault Refusal :=
  match s.eventWaits i with
  | some page => .next (s.recall page true)
  | none => exec i (if Instr.besideLoads i then s else s.settleLoads)

/-- A step of an agent. -/
def State.move (m : Move) (s : State) : Host.Outcome State Fault Refusal :=
  match m with
  | .event i => s.event i
  | .arrive c n => .next (s.arriveWrite c n)
  | .dropSharers n => .next (s.dropSharers n)
  | .load k i => .next (s.performLoad k i)
  | .resume i => .next { s with issue := (s.opened[i]?).getD [], opened := s.opened.eraseIdx i }
  | .retranslate k => .next (s.retranslate k)
  | .reflag k => .next (s.reflag k)
  | .complete k => .next { s with perform := s.perform ++ [k] }
  | .endBoot => .next s.endBoot

/-- An agent's step or the next core's cycle: which comes is a free value (assumption 3). -/
def State.choose (s : State) : Host.Outcome State Fault Refusal :=
  match s.moves with
  | [] => s.cycle
  | m :: ms =>
    let (v, s) := s.draw
    match ((m :: ms).drop (v % ((m :: ms).length + 1))).head? with
    | some x => s.move x
    | none => s.cycle

/-- The operation that waits for a page is made again, or something else comes first: which is a free value (R337,
assumption 3). A line that must leave does so before time goes on (R264). -/
def State.retry (s : State) : Host.Outcome State Fault Refusal :=
  let (v, s) := s.draw
  if v % 2 = 0 then .next { s with stalled := false }
  else match s.overdueLine with
    | some (c, n) => s.event (.sLineSweep c n)
    | none => s.choose

/-- The launch whose boundary has performed its operations, or whose engines can go on (R337). -/
def State.inBoundary (s : State) : Option Word :=
  (s.launches.find? fun x => x.2.boundary || s.enginesReady (BitVec.ofNat 32 x.1) x.2).map fun x => BitVec.ofNat 32 x.1

/-- What a bundle has set going that the next member of its issue group must find done (R166). -/
def Instr.follows : Instr → Bool
  | .registerWrite (some _) _ _ | .scratchPageRefill _ _ _ => true
  | _ => false

/-- The part of the agenda whose turn it is: while an issue group issues, only what its bundles have set going; an event
that reaches a thread in that cycle takes effect after its bundle (R37). -/
def State.due (s : State) : Option Instr :=
  if s.issue.isEmpty then s.agenda.head? else s.agenda.find? Instr.follows

/-- What comes next in a package that has had no fatal error: what the bundles of an issue group set going, the rest of
the group, the inputs and their consequences, the rest of a boundary, a line that must leave, a thawed launch that has
found its place, and then what the agents do. -/
def State.goOn (s : State) : Host.Outcome State Fault Refusal :=
  match s.due with
  | some i => ({ s with agenda := s.agenda.erase i } : State).event i
  | none => match s.issue with
    | k :: rest => ({ s with issue := rest } : State).issueOne k
    | [] => if s.stalled then s.retry else match s.perform with
      | k :: rest => ({ s with perform := rest } : State).performOne k
      | [] => match s.inBoundary with
        | some lid => s.event (.quantumBoundary lid)
        | none => match s.overdueLine with
          | some (c, n) => s.event (.sLineSweep c n)
          | none => match s.placeDue with
            | some s => .next s
            | none => s.choose

/-- What comes after a fatal error: the reset of the package, or nothing (R356). -/
def State.afterFatal (s : State) : Host.Outcome State Fault Refusal :=
  match s.agenda with
  | .packageReset failing :: rest => exec (.packageReset failing) { s with agenda := rest }
  | _ => .fault .waitsForReset

/-- The bytes of a word at an address of the boot ROM. -/
def State.putRom (s : State) (a : Nat) (w : Word) : State :=
  { s with rom := (((List.range 4).map fun i => (a + i, w.extractLsb' (8 * i) 8)).foldl
      (fun m c => aset c.1 c.2 m) s.rom) }

/-- The boot thread of cluster 0 comes to its first bundle at an address, as the only member of an issue group
(R360). -/
def State.bootAt (s : State) (pc : DWord) : State :=
  let s := s.checkIn
  let s := s.modCluster 0 fun k => { k with live := true, insts := aset 0 (s.bootInst false) k.insts }
  { s with
    t := { s.bootThread 0 0#10 false with pc := pc, receiver := false }
    ctxs := adel 0 s.ctxs, agenda := [], issue := [0], fatal := none }

end

end Sys2Proof.Machine
end

