-- ==== Sys2Proof/Machine/Step.lean ====
section
/-! DEFINITION. One step of the package, and the placing of an instruction where the next step fetches it. -/

namespace Sys2Proof.Machine

noncomputable section

/-- One step: an input or an agent's step, one bundle of a thread, or one cycle of a core (R165, R356). -/
def step (s : State) : Host.Outcome State Fault Refusal :=
  if s.fatal.isSome then s.afterFatal else s.goOn

/-- The state in which the boot thread of cluster 0 stands before the instruction with the given table bits, in
the boot ROM (R62 to R64, R360). A lone word and a LONG word with its literal stand at the image base. The L = 0
word of the C class is the C word of a pair whose A word is `add g0, g0, g0`, and the L = 0 word of the A class is
the A word of a pair on which control has landed. -/
def State.withFetchWord (s : State) (_nbits w : Nat) : State :=
  let first := BitVec.ofNat 32 w
  let second := BitVec.ofNat 32 (w / 4294967296)
  let base := 0x100000000
  if fL first = 0#1 ∧ fK first = 1#1 then
    ((s.putRom base 0#32).putRom (base + 4) first).bootAt (BitVec.ofNat 64 (base + 4))
  else if fL first = 0#1 ∧ !isLongWord first then
    ((s.putRom base first).putRom (base + 4) 0x40000000#32).bootAt (BitVec.ofNat 64 base)
  else ((s.putRom base first).putRom (base + 4) second).bootAt (BitVec.ofNat 64 base)

end

end Sys2Proof.Machine
end

