-- ==== Sys2Proof/Safety.lean ====
section
/-! DEFINITION. The terms in which the statements are made: what a safe state of the package is, when a word has
its own effect, what it writes, and what it leaves alone. -/

namespace Sys2Proof.Machine

/-- A state in which the package goes on: no fatal error waits for reset (R356), and memory is canonical. -/
def State.safe (s : State) : Bool := s.fatal.isNone && Memory.wf s.mem

/-- A step answers a next state. -/
def goesOn (o : Host.Outcome State Fault Refusal) : Prop := ∃ s, o = .next s

/-- Every register and queue entry that a word reads: the operands of R23, then sources in the D field, then the
registers that it reads without a field. -/
def State.readings (s : State) (sh : Shape) : List Reg :=
  s.readRegs s.src [] (sourcesOf sh) ++
    s.readRegs { s.src with tctl := 0#32 } [] (opRegs sh.dsrc ++ sh.extraR.map BitVec.toNat)

/-- A word with the operands of a shape has its own effect: no check of R81 or R148 stands against it, and its
bundle has reached it. -/
structure Ready (s : State) (sh : Shape) : Prop where
  /-- The thread runs (R34). -/
  running : s.t.life = .running
  /-- Pairs and quads name registers of their class (R20, R68). -/
  classes : sh.classOk = true
  /-- Every register is in the thread's allocation, or is a queue register (R11, R19). -/
  allocated : ∀ r ∈ sourcesOf sh ++ opRegs sh.dst ++ opRegs sh.dsrc, s.src.isQueue r = true ∨ r < 8 * s.t.blocks
  /-- A queue register that is named is bound to a queue of the core (R22, R174). -/
  bound : ∀ r ∈ sourcesOf sh ++ opRegs sh.dst, s.src.isQueue r = true →
    ∃ q, s.src.queueOf r = some q ∧ (aget q (s.core s.t.core).queues).isSome = true
  /-- The bindings still stand as they stood at the start of the bundle. -/
  binds : s.src.usesQueue sh = true → s.t.qb = s.src.qb
  /-- No source in the D field is a queue register (R93, R121). -/
  plainD : ∀ r ∈ opRegs sh.dsrc, s.src.isQueue r = false
  /-- No register of an `ldm` is a queue register (R127). -/
  plainSpan : ∀ r n, sh.dst = .span r n → ∀ q ∈ opRegs sh.dst, s.src.isQueue q = false
  /-- A supervisor-only form runs in supervisor mode (R71). -/
  allowed : sh.sup = true → s.t.mode = true
  /-- A deterministic thread has not reached an operation that ends its quantum (R336). -/
  inQuantum : s.endsQuantum sh = false
  /-- No queue is short (R23). -/
  queues : ∀ q ∈ s.src.pops sh ++ s.src.pushes sh, (s.src.pops sh).count q ≤ (s.entries s.t.core q).length ∧
    (s.entries s.t.core q).length + (s.src.pushes sh).count q ≤ 16 + (s.src.pops sh).count q
  /-- Nothing that it reads is poisoned (R155). -/
  clean : ∀ x ∈ s.readings sh, x.pois = false

/-- Every byte of memory reads as before. -/
def SameMemory (s t : State) : Prop := ∀ a, cellRead t.mem a = cellRead s.mem a

/-- What a word that performs no access leaves behind it, but for the current thread: everything as it was, where it
names no queue; and otherwise the entries that it popped gone, those of its results that fall to queue registers
pushed (R22, R23), and the bytes of memory as they were. -/
def Rest (s t : State) (sh : Shape) (ws : List (Nat × Word)) : Prop :=
  (s.src.usesQueue sh = false → t = { s with t := t.t }) ∧
  (∀ q, t.entries s.t.core q = (s.entries s.t.core q).drop ((s.src.pops sh).count q) ++
    (ws.filter fun p => s.src.isQueue p.1 && s.src.queueOf p.1 == some q).map fun p => { val := p.2, pois := s.struck }) ∧
  SameMemory s t

/-- The registers after a word that writes values to registers: each destination that is neither g0 nor a queue
register holds its value, and every other register is unchanged (R11, R22). -/
def RegsWritten (s t : State) (ws : List (Nat × Word)) : Prop :=
  (∀ p ∈ ws, p.1 ≠ 0 → s.src.isQueue p.1 = false → t.t.regs[p.1]! = { val := p.2, pois := s.struck }) ∧
  (∀ r, r = 0 ∨ s.src.isQueue r = true ∨ (∀ p ∈ ws, p.1 ≠ r) → t.t.regs[r]! = s.t.regs[r]!)

/-- A word that computes has written its results and raised its flags, and has changed nothing else (R10, R12,
R23, R27). A word whose check fails twice writes poison and raises no flag (R154). -/
def Wrote (s t : State) (sh : Shape) (ws : List (Nat × Word)) (f : Flags) : Prop :=
  t.t = { s.t with regs := t.t.regs, fctl := if s.struck then s.t.fctl else orFlags s.t.fctl f } ∧
  RegsWritten s t ws ∧ Rest s t sh ws

/-- A result in gD. -/
def toG (d : RegNo) (v : Word) : List (Nat × Word) := [(d.toNat, v)]

/-- A result in wD; the zero pair takes none (R20). -/
def toW (d : RegNo) (v : DWord) : List (Nat × Word) :=
  if d = 0 then [] else [(d.toNat, v.extractLsb' 0 32), (d.toNat + 1, v.extractLsb' 32 32)]

/-- G(A) of a word with the operands of a shape. -/
def State.gA (s : State) (sh : Shape) : Word := gOf (s.vals sh).a
/-- G(B). -/
def State.gB (s : State) (sh : Shape) : Word := gOf (s.vals sh).b
/-- G(C). -/
def State.gC (s : State) (sh : Shape) : Word := gOf (s.vals sh).c
/-- G(D) of a word that reads it (R93). -/
def State.gD (s : State) (sh : Shape) : Word := gOf (s.vals sh).d
/-- W(A). -/
def State.wA (s : State) (sh : Shape) : DWord := wOf (s.vals sh).a
/-- W(B). -/
def State.wB (s : State) (sh : Shape) : DWord := wOf (s.vals sh).b
/-- W(C). -/
def State.wC (s : State) (sh : Shape) : DWord := wOf (s.vals sh).c
/-- W(D) of a word that reads it. -/
def State.wD (s : State) (sh : Shape) : DWord := wOf (s.vals sh).d

/-- A word answers a state in which it has written a g register. -/
def GivesG (s : State) (i : Instr) (d : RegNo) (v : Word) (f : Flags) : Prop :=
  ∃ t, exec i s = .next t ∧ Wrote s t i.shape (toG d v) f

/-- A word answers a state in which it has written a w pair. -/
def GivesW (s : State) (i : Instr) (d : RegNo) (v : DWord) (f : Flags) : Prop :=
  ∃ t, exec i s = .next t ∧ Wrote s t i.shape (toW d v) f

/-- Trap(cause, val) has entered a handler: the saved registers, TR, PMODE and MODE, and the handler's address; nothing
else has changed (R12, R30, R145, R149). -/
def TrapTaken (s t : State) (cause : Nat) (val : DWord) : Prop :=
  let user := s.t.mode = false ∧ s.t.tvec ≠ 0#64
  t = { s with t := t.t, fr := { s.fr with stopped := true } } ∧
  t.t = { s.t with
    tctl := t.t.tctl
    tcause := BitVec.ofNat 32 (cause + (if s.fr.pair then 256 else 0) + (if s.fr.aw then 512 else 0))
    tepc := s.fr.first
    tval := val
    pc := if user then s.t.tvec else s.t.svec
    landed := true } ∧
  ∀ i, t.t.tctl.getLsbD i =
    if i = 8 then true else if i = 7 then s.t.mode else if i = 6 then decide ¬user else s.t.tctl.getLsbD i

/-- The thread has passed to the faulted state, with what the first trap saved (R28, R147). -/
def DoubleFaulted (s t : State) : Prop :=
  t.fr = { s.fr with stopped := true } ∧
  t.t = { s.t with 
    life := .faulted, park := none, wake := false, pc := s.fr.first, landed := s.fr.landed, suspAt := s.ticks
    frec := t.t.frec } ∧
  ∃ r, t.t.frec = some r ∧ r.kind = 4 ∧ r.pc = s.fr.first

/-- The thread has parked on a key (R12): it leaves the Roll, its bundle stands to be issued again, and nothing else has
changed; a deterministic thread ends its quantum, unless it parks with FAULT (R336). A watch that its slice cannot take
has a time for its next Chime (R135). -/
def Parked (s t : State) (reason : Nat) (key : Key) : Prop :=
  t = { s with
    t := { s.t with
      life := .parked, park := some { reason := reason, key := key }, wake := false, pollAt := s.polls key
      pc := s.fr.first, landed := s.fr.landed
      qended := s.t.qended || (s.t.det && reason != 6) }
    fr := { s.fr with stopped := true, again := true } }

/-- A word has completed: no trap, park or fault has ended its bundle, and its thread goes on with the next one (R12). -/
def Completed (s t : State) : Prop := t.fr.stopped = false ∧ t.t.life = .running ∧ t.t.pc = s.t.pc

/-- A target that passes the checks of R116, with the code window where it applies. -/
def GoodTarget (window : Bool) (first target : DWord) : Prop :=
  target.toNat % 4 = 0 ∧ (window = true → target.toNat / 2 ^ 32 = first.toNat / 2 ^ 32) ∧
  (target.toNat < 2 ^ 56 ∨ 2 ^ 64 - 2 ^ 56 ≤ target.toNat)

/-- Control has gone to a target, where the bundle there is landed on (R63, R116). -/
def Went (s t : State) (target : DWord) : Prop := t.t = { s.t with pc := target, landed := true }

/-- Control has gone to a target, and g1 holds the low word of the return address (R67). -/
def Called (s t : State) (target : DWord) : Prop :=
  t.t = { s.t with pc := target, landed := true, regs := t.t.regs } ∧
  t.t.regs[1]! = { val := s.fr.next.extractLsb' 0 32, pois := s.struck } ∧ ∀ r, r ≠ 1 → t.t.regs[r]! = s.t.regs[r]!

/-- A core's L1 is in order: its lines have different numbers, and each holds 128 bytes (R264). -/
def Core.linesOk (k : Core) : Prop := (k.l1.map Line.n).Nodup ∧ ∀ l ∈ k.l1, l.data.length = 128

/-- What the model's memories keep: memory in its canonical form, and every core's L1 in order. -/
def State.memoriesOk (s : State) : Prop := Memory.wf s.mem = true ∧ ∀ c ∈ s.cores, c.2.linesOk

/-- The tables of the state are in order: rising keys, every context under its own key and apart from the current thread,
and the memories in order (R7, R264). -/
def State.orderly (s : State) : Prop :=
  s.memoriesOk ∧ (∀ p ∈ s.ctxs, p.2.ckey = p.1 ∧ (s.hasT = true → p.1 ≠ s.t.ckey)) ∧
    (s.ctxs.map Prod.fst).Pairwise (· < ·) ∧ (s.cores.map Prod.fst).Pairwise (· < ·) ∧
    (s.clusters.map Prod.fst).Pairwise (· < ·) ∧ (s.launches.map Prod.fst).Pairwise (· < ·)

/-- The byte at a home as a core sees it: its own writes to the line that are on their way lie over it (R265, R283). -/
def State.homeSeen (s : State) (c a : Nat) : Byte :=
  ((overSent (a / 128) (s.core c).sent (cellReadN s.mem (128 * (a / 128)) 128)).drop (a % 128)).headD 0#8

/-- The byte that a core sees at a home address: the one that its L1 holds, in a valid sector or dirty, else the
home's with the core's own writes over it (R124, R265). -/
def State.seen (s : State) (c a : Nat) : Byte :=
  match (s.core c).line? (a / 128) with
  | some l =>
    if marked l.valid (a % 128 / 32) || l.dirty.getLsbD (a % 128) then (l.data.drop (a % 128)).headD 0#8
    else s.homeSeen c a
  | none => s.homeSeen c a

/-- The core sees a poisoned sector at a home address (R125). -/
def State.seenPois (s : State) (c a : Nat) : Bool :=
  match (s.core c).line? (a / 128) with
  | some l =>
    if marked l.valid (a % 128 / 32) || marked l.whole (a % 128 / 32) then marked l.pois (a % 128 / 32)
    else s.pois.contains (a / 32)
  | none => s.pois.contains (a / 32)

/-- The L1 of a core has the line of a home address, or a free way in its set (R3, R264). -/
def State.room (s : State) (c a : Nat) : Prop :=
  ((s.core c).line? (a / 128)).isSome = true ∨ ((s.core c).setOf (a / 128)).length < 8

/-- What a write-back of any line of a core's L1 meets is plain: dirty bytes are in lines of software-managed regions,
whose homes are this module's or the host's, are held by no peer, and grant the write to the master that stored them
(R124, R310, R374). -/
def State.calm (s : State) (c : Nat) : Prop := ∀ l ∈ (s.core c).l1, l.dirty ≠ 0#128 →
  l.h = false ∧ s.granted l.master (128 * l.n) .write = true ∧ s.heldByPeer (128 * l.n) = false ∧
    ∀ p da, s.place (128 * l.n) ≠ .peer p da

/-- The L1 of a core holds a dirty byte at a home address. -/
def WasDirty (s : State) (c a : Nat) (b : Byte) : Prop :=
  ∃ l ∈ (s.core c).l1, l.n = a / 128 ∧ l.dirty.getLsbD (a % 128) = true ∧ l.data[a % 128]? = some b

/-- The byte at the home of an address once the core has written its dirty bytes back (R124). -/
def State.settled (s : State) (c a : Nat) : Byte :=
  match (s.core c).line? (a / 128) with
  | some l => if l.dirty.getLsbD (a % 128) then (l.data.drop (a % 128)).headD 0#8 else cellRead s.mem a
  | none => cellRead s.mem a

/-- Where translation is on, no target refuses the walker a read of the tables (R290, R291, R308, R311). -/
def State.walkerFree (s : State) : Prop :=
  dbit s.asb 0 = true → (∀ asn, s.walkerReads (s.asEntryPa asn) = true) ∧
    ∀ h, h < 2 ^ s.logB → s.walkerReads (s.ptBase + 128 * h) = true

/-- An access of the current thread passes the checks of R13, of whose walk no read is refused, and reaches a physical
address that is ordinary memory and is granted to the thread (R296, R310). -/
def State.reaches (s : State) (va : DWord) (n : Nat) (k : AccKind) (pa : Nat) : Prop :=
  (∃ s', s.memCheck va n k = .ok pa s') ∧ s.atMemory pa k = true ∧ s.walkerFree

/-- What an access of the current thread through the L1 of its core leaves: the thread, and every core and cluster but
for the L1 of that core and the TLBs. Memory is as it was, but for dirty bytes of lines that left the L1. With room for
its line, nothing but the L1, the TLBs and the grants on peer pages has changed. -/
structure Accessed (s t : State) (room : Prop) : Prop where
  thread : t.t = s.t
  frame : t.fr = s.fr
  core : t.core s.t.core = { s.core s.t.core with
    l1 := (t.core s.t.core).l1, updates := (t.core s.t.core).updates, sent := (t.core s.t.core).sent
    dtlb := (t.core s.t.core).dtlb }
  others : ∀ d, d ≠ s.t.core → t.core d = s.core d
  clusters : ∀ k, t.cluster k = { s.cluster k with tlb := (t.cluster k).tlb, asEntries := (t.cluster k).asEntries }
  rest : t = { s with
    cores := t.cores, clusters := t.clusters, grants := t.grants, signals := t.signals, peerWatches := t.peerWatches
    fresh := t.fresh, mem := t.mem, pois := t.pois, launches := t.launches, ctxs := t.ctxs }
  memory : Memory.wf s.mem = true → ∀ a,
    cellRead t.mem a = cellRead s.mem a ∨ WasDirty s s.t.core a (cellRead t.mem a)
  kept : room →
    t = { s with cores := t.cores, clusters := t.clusters, grants := t.grants, signals := t.signals, fresh := t.fresh } ∧
    (t.core s.t.core).updates = (s.core s.t.core).updates ∧ (t.core s.t.core).sent = (s.core s.t.core).sent

/-- A result in a quad; one at w0 discards its low half (R121). -/
def toQ (d : RegNo) (v : Nat) : List (Nat × Word) :=
  let w := fun i => BitVec.ofNat 32 (v / 2 ^ (32 * i))
  if d = 0 then [(2, w 2), (3, w 3)]
  else [(d.toNat, w 0), (d.toNat + 1, w 1), (d.toNat + 2, w 2), (d.toNat + 3, w 3)]

/-- A load's value as it falls to the destination's registers, with its access size (R120, R121). -/
def loadForms (d : RegNo) : List (Nat × (Nat → List (Nat × Word))) :=
  [(1, fun v => toG d ((BitVec.ofNat 8 v).signExtend 32)), (1, fun v => toG d (BitVec.ofNat 32 v)),
   (2, fun v => toG d ((BitVec.ofNat 16 v).signExtend 32)), (2, fun v => toG d (BitVec.ofNat 32 v)),
   (4, fun v => toG d (BitVec.ofNat 32 v)), (8, fun v => toW d (BitVec.ofNat 64 v)), (16, toQ d)]

/-- The value of a quad that an `st128` reads: the low half of one at w0 is 0 (R121). -/
def State.qD (s : State) (d : RegNo) (sh : Shape) : Nat :=
  let v := fun i => ((((s.vals sh).d.drop i).headD {}).val).toNat
  if d = 0 then v 0 * 2 ^ 64 + v 1 * 2 ^ 96 else v 0 + v 1 * 2 ^ 32 + v 2 * 2 ^ 64 + v 3 * 2 ^ 96

/-- A job has ended with a STATE: it is gone from its cluster, and the window of its launch's instance holds its number
and its STATE, where the instance goes on (R202, R221, R223). -/
def JobEnded (s t : State) (cl : Nat) (j : Job) (state : Nat) : Prop :=
  (∀ x ∈ (t.cluster cl).jobs, x.id ≠ j.id) ∧
  (s.threads.any (fun th => clusterOf th.core == cl && th.lid == j.lid && !th.boot) = true →
    (aget j.lid.toNat (s.cluster cl).insts).isSome = true → (s.inst cl j.lid).age j.n < 1024 →
    ∃ e ∈ (t.inst cl j.lid).ended, e.n = j.n ∧ e.state = state)

/-- No launch but one has anything for the scheduler to do (R327). -/
def State.atRest (s : State) (lid : Word) : Prop :=
  ∀ x ∈ s.launches, x.1 = lid.toNat ∨ x.2.st = .waiting ∨ ∃ n, x.2.st = .ending n

end Sys2Proof.Machine
end

