-- ==== Sys2Proof/Certificates/Slice0/Obligations.lean ====
section
/-! DEFINITION. The statements for the provers. -/

open Sys2Proof Sys2Proof.Machine

/-- R94: every row of OP 0x00 that the rule's table gives itself, and R99: the forms of OP 0x01 on w pairs, none of which
raises a flag. -/
def Obligations.IntegerResults : Prop :=
  (∀ (s : State) (d a b : RegNo), ∀ p ∈ ([
      (.add d a b, fun x y v => v = x + y),
      (.sub d a b, fun x y v => v = x - y),
      (.mul d a b, fun x y v => v.toNat = x.toNat * y.toNat % 2 ^ 32),
      (.mulh d a b, fun x y v => v = BitVec.ofInt 32 (x.toInt * y.toInt / 2 ^ 32)),
      (.mulhn d a b, fun x y v => v.toNat = x.toNat * y.toNat / 2 ^ 32),
      (.min d a b, fun x y v => v.toInt = min x.toInt y.toInt),
      (.max d a b, fun x y v => v.toInt = max x.toInt y.toInt),
      (.minn d a b, fun x y v => v.toNat = min x.toNat y.toNat),
      (.maxn d a b, fun x y v => v.toNat = max x.toNat y.toNat),
      (.abs d a, fun x _ v => v = BitVec.ofNat 32 x.toInt.natAbs),
      (.and d a b, fun x y v => v = x &&& y),
      (.or d a b, fun x y v => v = x ||| y),
      (.xor d a b, fun x y v => v = x ^^^ y),
      (.clz d a, fun x _ v => v.toNat ≤ 32 ∧ (∀ i, 32 - v.toNat ≤ i → x.getLsbD i = false) ∧
        (v.toNat < 32 → x.getLsbD (31 - v.toNat) = true)),
      (.ctz d a, fun x _ v => v.toNat ≤ 32 ∧ (∀ i, i < v.toNat → x.getLsbD i = false) ∧
        (v.toNat < 32 → x.getLsbD v.toNat = true)),
      (.popc d a, fun x _ v => v.toNat = ((List.range 32).filter fun i => x.getLsbD i).length),
      (.brev d a, fun x _ v => ∀ i, i < 32 → v.getLsbD i = x.getLsbD (31 - i)),
      (.slt d a b, fun x y v => v = if x.toInt < y.toInt then 1#32 else 0#32),
      (.sltn d a b, fun x y v => v = if x.toNat < y.toNat then 1#32 else 0#32),
      (.seq d a b, fun x y v => v = if x = y then 1#32 else 0#32),
      (.sne d a b, fun x y v => v = if x = y then 0#32 else 1#32)] :
        List (Instr × (Word → Word → Word → Prop))),
      Ready s p.1.shape → ∃ v, GivesG s p.1 d v noFlags ∧ p.2 (s.gA p.1.shape) (s.gB p.1.shape) v) ∧
  (∀ (s : State) (d a b : RegNo),
      (∀ p ∈ ([
        (.addD d a b, fun x y v => v = x + y),
        (.subD d a b, fun x y v => v = x - y),
        (.mulD d a b, fun x y v => v.toNat = x.toNat * y.toNat % 2 ^ 64),
        (.andD d a b, fun x y v => v = x &&& y),
        (.orD d a b, fun x y v => v = x ||| y),
        (.xorD d a b, fun x y v => v = x ^^^ y),
        (.minD d a b, fun x y v => v.toInt = min x.toInt y.toInt),
        (.maxD d a b, fun x y v => v.toInt = max x.toInt y.toInt),
        (.minnD d a b, fun x y v => v.toNat = min x.toNat y.toNat),
        (.maxnD d a b, fun x y v => v.toNat = max x.toNat y.toNat)] :
          List (Instr × (DWord → DWord → DWord → Prop))),
        Ready s p.1.shape → ∃ v, GivesW s p.1 d v noFlags ∧ p.2 (s.wA p.1.shape) (s.wB p.1.shape) v) ∧
      (∀ p ∈ ([
        (.shlD d a b, fun x y => if 64 ≤ y.toNat then 0#64 else BitVec.ofNat 64 (x.toNat * 2 ^ y.toNat)),
        (.shrD d a b, fun x y => if 64 ≤ y.toNat then 0#64 else BitVec.ofNat 64 (x.toNat / 2 ^ y.toNat)),
        (.sarD d a b, fun x y => BitVec.ofInt 64 (x.toInt / 2 ^ min y.toNat 63))] :
          List (Instr × (DWord → Word → DWord))),
        Ready s p.1.shape → GivesW s p.1 d (p.2 (s.wA p.1.shape) (s.gB p.1.shape)) noFlags) ∧
      (∀ p ∈ ([
        (.sltD d a b, fun x y => if x.toInt < y.toInt then 1#32 else 0#32),
        (.sltnD d a b, fun x y => if x.toNat < y.toNat then 1#32 else 0#32),
        (.seqD d a b, fun x y => if x = y then 1#32 else 0#32)] :
          List (Instr × (DWord → DWord → Word))),
        Ready s p.1.shape → GivesG s p.1 d (p.2 (s.wA p.1.shape) (s.wB p.1.shape)) noFlags))

/-- R95: quotient and remainder truncate toward zero, division by 0 raises DZ and nothing else is flagged. -/
def Obligations.DivisionResults : Prop :=
  ∀ (s : State) (d a b : RegNo), ∀ p ∈ ([
    (.div d a b, fun x y => if y.toInt = 0 then (0xFFFFFFFF#32, flagDZ)
      else if x.toInt = -2 ^ 31 ∧ y.toInt = -1 then (0x80000000#32, noFlags)
      else (BitVec.ofInt 32 (x.toInt.tdiv y.toInt), noFlags)),
    (.rem d a b, fun x y => if y.toInt = 0 then (x, flagDZ)
      else if x.toInt = -2 ^ 31 ∧ y.toInt = -1 then (0#32, noFlags)
      else (BitVec.ofInt 32 (x.toInt.tmod y.toInt), noFlags)),
    (.divn d a b, fun x y => if y.toNat = 0 then (0xFFFFFFFF#32, flagDZ)
      else (BitVec.ofNat 32 (x.toNat / y.toNat), noFlags)),
    (.remn d a b, fun x y => if y.toNat = 0 then (x, flagDZ)
      else (BitVec.ofNat 32 (x.toNat % y.toNat), noFlags))] :
      List (Instr × (Word → Word → Word × Flags))),
    Ready s p.1.shape →
      GivesG s p.1 d (p.2 (s.gA p.1.shape) (s.gB p.1.shape)).1 (p.2 (s.gA p.1.shape) (s.gB p.1.shape)).2

/-- R96: shifts take the whole of their amount register, and the forms with an immediate take its amount. -/
def Obligations.ShiftResults : Prop :=
  ∀ (s : State) (d a b : RegNo) (k : BitVec 5), ∀ p ∈ ([
    (.shl d a b, fun x y => if 32 ≤ y.toNat then 0#32 else BitVec.ofNat 32 (x.toNat * 2 ^ y.toNat)),
    (.shr d a b, fun x y => if 32 ≤ y.toNat then 0#32 else BitVec.ofNat 32 (x.toNat / 2 ^ y.toNat)),
    (.sar d a b, fun x y => BitVec.ofInt 32 (x.toInt / 2 ^ min y.toNat 31)),
    (.shli d a k, fun x _ => BitVec.ofNat 32 (x.toNat * 2 ^ k.toNat)),
    (.shri d a k, fun x _ => BitVec.ofNat 32 (x.toNat / 2 ^ k.toNat)),
    (.sari d a k, fun x _ => BitVec.ofInt 32 (x.toInt / 2 ^ k.toNat))] :
      List (Instr × (Word → Word → Word))),
    Ready s p.1.shape → GivesG s p.1 d (p.2 (s.gA p.1.shape) (s.gB p.1.shape)) noFlags

/-- R97: bit i of a field extracted is bit pos + i of the source, a field of length 0 extracts as 0, and one with sx =
1 extends by its top bit; an insertion replaces the bits of the field alone. -/
def Obligations.BitFieldResults : Prop :=
  ∀ (s : State) (d a b : RegNo),
    (Ready s (Instr.bfx d a b).shape → ∃ v, GivesG s (.bfx d a b) d v noFlags ∧
      ∀ i, i < 32 →
        let y := s.gB (Instr.bfx d a b).shape
        let pos := (y.extractLsb' 0 5).toNat
        let len := min (y.extractLsb' 8 6).toNat (32 - pos)
        v.getLsbD i =
          if len = 0 then false
          else if i < len then (s.gA (Instr.bfx d a b).shape).getLsbD (pos + i)
          else y.getLsbD 16 && (s.gA (Instr.bfx d a b).shape).getLsbD (pos + len - 1)) ∧
    (Ready s (Instr.bfi d a b).shape → ∃ v, GivesG s (.bfi d a b) d v noFlags ∧
      ∀ i, i < 32 →
        let y := s.gB (Instr.bfi d a b).shape
        let pos := (y.extractLsb' 0 5).toNat
        let len := min (y.extractLsb' 8 6).toNat (32 - pos)
        v.getLsbD i =
          if pos ≤ i ∧ i < pos + len then (s.gA (Instr.bfi d a b).shape).getLsbD (i - pos)
          else (s.gD (Instr.bfi d a b).shape).getLsbD i)

/-- R67, R100 to R102, R112: immediates, long literals, `imad` and `sel`, none of which raises a flag. R51, R98: `rng`
steps the generator as it stood at the start of the bundle, and writes its new state. -/
def Obligations.ImmediateAndRandomResults : Prop :=
  (∀ (s : State) (d a b c : RegNo) (i : BitVec 11) (j : BitVec 17) (w : Word),
     (∀ p ∈ ([
       (.addi d a i, fun x => x + BitVec.ofInt 32 i.toInt),
       (.andi d a i, fun x => x &&& BitVec.ofNat 32 i.toNat),
       (.ori d a i, fun x => x ||| BitVec.ofNat 32 i.toNat),
       (.xori d a i, fun x => x ^^^ BitVec.ofNat 32 i.toNat),
       (.slti d a i, fun x => if x.toInt < i.toInt then 1#32 else 0#32),
       (.lui d j, fun _ => BitVec.ofInt 32 (j.toInt * 2 ^ 11)),
       (.li d w, fun _ => w)] : List (Instr × (Word → Word))),
       Ready s p.1.shape → GivesG s p.1 d (p.2 (s.gA p.1.shape)) noFlags) ∧
     (Ready s (Instr.lih d w).shape → ∃ t, exec (.lih d w) s = .next t ∧
       Wrote s t (Instr.lih d w).shape (if d = 0 then [] else [(d.toNat + 1, w)]) noFlags) ∧
     (Ready s (Instr.imad d a b c).shape → GivesG s (.imad d a b c) d
       (s.gA (Instr.imad d a b c).shape * s.gB (Instr.imad d a b c).shape + s.gC (Instr.imad d a b c).shape) noFlags) ∧
     (Ready s (Instr.sel d a b c).shape → GivesG s (.sel d a b c) d
       (if s.gC (Instr.sel d a b c).shape = 0#32 then s.gB (Instr.sel d a b c).shape
         else s.gA (Instr.sel d a b c).shape) noFlags)) ∧
  (∀ (s : State) (d : RegNo), Ready s (Instr.rng d).shape →
     let x := s.src.rngs ^^^ (s.src.rngs <<< 13)
     let y := x ^^^ (x >>> 17)
     let z := y ^^^ (y <<< 5)
     ∃ t, exec (.rng d) s = .next t ∧ t.t.rngs = z ∧
       Wrote { s with t := { s.t with rngs := z } } t (Instr.rng d).shape (toG d z) noFlags)

/-- R103 to R105, R109, R111: the f32 forms, with the encoding and the flags that the arithmetic of R103 to R111 gives
for the operands' encodings, rounded by `fctl`.RM as it stood at the start of the bundle. -/
def Obligations.FloatResults : Prop :=
  ∀ (s : State) (d a b c : RegNo) (rm : RmField), ∀ p ∈ ([
    (.fadd d a b, fun m x y _ => fpAdd .f32 m x y),
    (.fsub d a b, fun m x y _ => fpSub .f32 m x y),
    (.fmul d a b, fun m x y _ => fpMul .f32 m x y),
    (.fdiv d a b, fun m x y _ => fpDiv .f32 m x y),
    (.fsqrt d a, fun m x _ _ => fpSqrt .f32 m x),
    (.fmin d a b, fun _ x y _ => fpMinMax .f32 false x y),
    (.fmax d a b, fun _ x y _ => fpMinMax .f32 true x y),
    (.ffma d a b c, fun m x y z => fpFma .f32 m x y z),
    (.frnd d a b rm, fun _ x y _ => fpRoundInt .f32 (RmField.mode s.src.fctl rm) (if rm = .rs then y else 0) x)] :
      List (Instr × (Rm → Nat → Nat → Nat → Nat × Flags))),
    Ready s p.1.shape →
      let r := p.2 (Rm.ofFctl s.src.fctl) (s.gA p.1.shape).toNat (s.gB p.1.shape).toNat (s.gC p.1.shape).toNat
      GivesG s p.1 d (BitVec.ofNat 32 r.1) r.2

/-- R103 to R105, R109, R111: the f64 forms, on w operands. -/
def Obligations.DoubleResults : Prop :=
  ∀ (s : State) (d a b c : RegNo) (rm : RmField), ∀ p ∈ ([
    (.dadd d a b, fun m x y _ => fpAdd .f64 m x y),
    (.dsub d a b, fun m x y _ => fpSub .f64 m x y),
    (.dmul d a b, fun m x y _ => fpMul .f64 m x y),
    (.ddiv d a b, fun m x y _ => fpDiv .f64 m x y),
    (.dsqrt d a, fun m x _ _ => fpSqrt .f64 m x),
    (.dmin d a b, fun _ x y _ => fpMinMax .f64 false x y),
    (.dmax d a b, fun _ x y _ => fpMinMax .f64 true x y),
    (.dfma d a b c, fun m x y z => fpFma .f64 m x y z),
    (.drnd d a b rm, fun _ x _ _ => fpRoundInt .f64 (RmField.mode s.src.fctl rm)
      (if rm = .rs then (s.gB (Instr.drnd d a b rm).shape).toNat else 0) x)] :
      List (Instr × (Rm → Nat → Nat → Nat → Nat × Flags))),
    Ready s p.1.shape →
      let r := p.2 (Rm.ofFctl s.src.fctl) (s.wA p.1.shape).toNat (s.wB p.1.shape).toNat (s.wC p.1.shape).toNat
      GivesW s p.1 d (BitVec.ofNat 64 r.1) r.2

/-- R110: a packed form does one operation on lanes [15:0] and [31:16] by themselves, and ORs their flags; the addend
of `p2fma` is the same lane of gD. R79, R115: `cvtp` converts gA and gB and writes them into two neighbouring lanes of
gD, whose other lanes stay; the f16 and bf16 forms write all of gD. -/
def Obligations.PackedResults : Prop :=
  (∀ (s : State) (d a b : RegNo), ∀ p ∈ ([
     (.p2addH d a b, fun m x y _ => fpAdd .f16 m x y), (.p2addB d a b, fun m x y _ => fpAdd .bf16 m x y),
     (.p2subH d a b, fun m x y _ => fpSub .f16 m x y), (.p2subB d a b, fun m x y _ => fpSub .bf16 m x y),
     (.p2mulH d a b, fun m x y _ => fpMul .f16 m x y), (.p2mulB d a b, fun m x y _ => fpMul .bf16 m x y),
     (.p2fmaH d a b, fun m x y z => fpFma .f16 m x y z), (.p2fmaB d a b, fun m x y z => fpFma .bf16 m x y z),
     (.p2minH d a b, fun _ x y _ => fpMinMax .f16 false x y), (.p2minB d a b, fun _ x y _ => fpMinMax .bf16 false x y),
     (.p2maxH d a b, fun _ x y _ => fpMinMax .f16 true x y), (.p2maxB d a b, fun _ x y _ => fpMinMax .bf16 true x y)] :
       List (Instr × (Rm → Nat → Nat → Nat → Nat × Flags))),
     Ready s p.1.shape →
       let x := s.gA p.1.shape
       let y := s.gB p.1.shape
       let z := s.gD p.1.shape
       let m := Rm.ofFctl s.src.fctl
       let lo := p.2 m (x.toNat % 2 ^ 16) (y.toNat % 2 ^ 16) (z.toNat % 2 ^ 16)
       let hi := p.2 m (x.toNat / 2 ^ 16) (y.toNat / 2 ^ 16) (z.toNat / 2 ^ 16)
       GivesG s p.1 d (BitVec.ofNat 16 hi.1 ++ BitVec.ofNat 16 lo.1) (lo.2 ||| hi.2)) ∧
  (∀ (s : State) (d a b : RegNo) (rm : RmField) (sat h : Bool), rm ≠ .rs → ∀ p ∈ ([
     (.cvtpE4m3 d a b rm sat h, .e4m3, if h then 16 else 0), (.cvtpE5m2 d a b rm sat h, .e5m2, if h then 16 else 0),
     (.cvtpE2m1Low d a b rm sat h, .e2m1, if h then 8 else 0), (.cvtpE2m1High d a b rm sat h, .e2m1, if h then 24 else 16),
     (.cvtpF16 d a b rm sat, .f16, 0), (.cvtpBf16 d a b rm sat, .bf16, 0)] : List (Instr × Fmt × Nat)),
     Ready s p.1.shape →
       let m := if rm = .dyn then Rm.ofFctl s.src.fctl else RmField.mode 0#32 rm
       let x := convert (.flt .f32) (.flt p.2.1) m sat 0 (s.gA p.1.shape).toNat
       let y := convert (.flt .f32) (.flt p.2.1) m sat 0 (s.gB p.1.shape).toNat
       let n := p.2.1.width
       let lo := p.2.2
       ∃ v, GivesG s p.1 d v (x.2 ||| y.2) ∧ ∀ i, i < 32 → v.getLsbD i =
         if lo ≤ i ∧ i < lo + n then x.1.testBit (i - lo)
         else if lo + n ≤ i ∧ i < lo + 2 * n then y.1.testBit (i - lo - n)
         else (s.gD p.1.shape).getLsbD i)

/-- R106: the compares write 1 or 0 and take +0 and −0 as equal; a NaN operand gives 0, or 1 for `fun`; NV comes from
a signalling NaN, and for `flt` and `fle` from any NaN. -/
def Obligations.CompareResults : Prop :=
  ∀ (s : State) (d a b : RegNo),
    let less (x y : Val) : Prop := match x, y with
      | .inf m, .inf n => m = true ∧ n = false
      | .inf m, .fin _ _ _ => m = true
      | .fin _ _ _, .inf n => n = false
      | .fin m p q, .fin n u v => (if m then -(p : Int) else p) * v < (if n then -(u : Int) else u) * q
      | _, _ => False
    let same (x y : Val) : Prop := match x, y with
      | .inf m, .inf n => m = n
      | .fin m p q, .fin n u v => (if m then -(p : Int) else p) * v = (if n then -(u : Int) else u) * q
      | _, _ => False
    let signals (x y : Val) : Prop := x = .nan true ∨ y = .nan true
    let unordered (x y : Val) : Prop := (∃ q, x = .nan q) ∨ ∃ q, y = .nan q
    (∀ p ∈ ([(.feq d a b, fun x y => same x y, signals), (.flt d a b, fun x y => less x y, unordered),
        (.fle d a b, fun x y => less x y ∨ same x y, unordered), (.funOrd d a b, unordered, signals)] :
        List (Instr × (Val → Val → Prop) × (Val → Val → Prop))),
      Ready s p.1.shape →
        let x := valueOf .f32 (s.gA p.1.shape).toNat
        let y := valueOf .f32 (s.gB p.1.shape).toNat
        ∃ v f, GivesG s p.1 d v f ∧ (p.2.1 x y → v = 1#32) ∧ (¬ p.2.1 x y → v = 0#32) ∧
          (p.2.2 x y → f = flagNV) ∧ (¬ p.2.2 x y → f = noFlags)) ∧
    (∀ p ∈ ([(.deq d a b, fun x y => same x y, signals), (.dlt d a b, fun x y => less x y, unordered),
        (.dle d a b, fun x y => less x y ∨ same x y, unordered), (.dunOrd d a b, unordered, signals)] :
        List (Instr × (Val → Val → Prop) × (Val → Val → Prop))),
      Ready s p.1.shape →
        let x := valueOf .f64 (s.wA p.1.shape).toNat
        let y := valueOf .f64 (s.wB p.1.shape).toNat
        ∃ v f, GivesG s p.1 d v f ∧ (p.2.1 x y → v = 1#32) ∧ (¬ p.2.1 x y → v = 0#32) ∧
          (p.2.2 x y → f = flagNV) ∧ (¬ p.2.2 x y → f = noFlags))

/-- R107, R108: the sign forms act on the sign bit alone; `fclass` and `dclass` write 2^c for the class c of the
operand's bits; none raises a flag. -/
def Obligations.SignAndClassResults : Prop :=
  ∀ (s : State) (d a : RegNo),
    let class' (neg : Bool) (ones : Bool) (zero : Bool) (mant : Bool) (quiet : Bool) : Nat :=
      if ones then (if mant then (if quiet then 9 else 8) else if neg then 0 else 7)
      else if zero then (if mant then (if neg then 2 else 5) else if neg then 3 else 4)
      else if neg then 1 else 6
    (Ready s (Instr.fabs d a).shape →
      GivesG s (.fabs d a) d (BitVec.ofNat 32 ((s.gA (Instr.fabs d a).shape).toNat % 2 ^ 31)) noFlags) ∧
    (Ready s (Instr.fneg d a).shape →
      GivesG s (.fneg d a) d (s.gA (Instr.fneg d a).shape + 0x80000000#32) noFlags) ∧
    (Ready s (Instr.dabs d a).shape →
      GivesW s (.dabs d a) d (BitVec.ofNat 64 ((s.wA (Instr.dabs d a).shape).toNat % 2 ^ 63)) noFlags) ∧
    (Ready s (Instr.dneg d a).shape →
      GivesW s (.dneg d a) d (s.wA (Instr.dneg d a).shape + 0x8000000000000000#64) noFlags) ∧
    (Ready s (Instr.fclass d a).shape →
      let x := s.gA (Instr.fclass d a).shape
      GivesG s (.fclass d a) d (BitVec.ofNat 32 (2 ^ class' (x.getLsbD 31) (x.extractLsb' 23 8 = 0xFF#8)
        (x.extractLsb' 23 8 = 0#8) (x.extractLsb' 0 23 ≠ 0#23) (x.getLsbD 22))) noFlags) ∧
    (Ready s (Instr.dclass d a).shape →
      let x := s.wA (Instr.dclass d a).shape
      GivesG s (.dclass d a) d (BitVec.ofNat 32 (2 ^ class' (x.getLsbD 63) (x.extractLsb' 52 11 = 0x7FF#11)
        (x.extractLsb' 52 11 = 0#11) (x.extractLsb' 0 52 ≠ 0#52) (x.getLsbD 51))) noFlags)

/-- R103, R104: what the arithmetic of the formats f64, f32, f16 and bf16 does with NaNs, infinities and zeros: the
canonical NaN, NV for a signalling NaN and for the invalid cases, and DZ alone for a finite number over 0. R14: a
finite value that does not overflow goes to a neighbour on the side that the rounding mode names, and to the nearest
multiple of the unit in the last place under rne; under rs it goes up where the fraction of that unit, in 2^-32 parts,
and the random operand together reach 2^32; NX is raised where the value is no value of the format. R41, R114:
from each of the 8-bit formats, and from e2m1, a conversion to a format that holds all its values gives that
value, raises no flag but NV for a signalling NaN, and reads neither SAT nor the rounding mode. -/
def Obligations.RoundingAndSpecialOperands : Prop :=
  (∀ f ∈ [Fmt.f64, .f32, .f16, .bf16], ∀ (m : Rm) (a b : Nat),
     let nan := f.canonicalNaN
     let inf (neg : Bool) : Nat := (if neg then 2 ^ (f.width - 1) else 0) + (f.maxBits + 1)
     (∀ q, valueOf f a = .nan q ∨ valueOf f b = .nan q →
       ∀ g ∈ [fpAdd f m, fpSub f m, fpMul f m, fpDiv f m], (g a b).1 = nan ∧
         ((g a b).2 = flagNV ↔ valueOf f a = .nan true ∨ valueOf f b = .nan true) ∧
         ((g a b).2 ≠ flagNV → (g a b).2 = noFlags)) ∧
     (∀ x y, valueOf f a = .inf x → valueOf f b = .inf y →
       fpAdd f m a b = (if x = y then (inf x, noFlags) else (nan, flagNV)) ∧
       fpSub f m a b = (if x = y then (nan, flagNV) else (inf x, noFlags)) ∧
       fpMul f m a b = (inf (x != y), noFlags) ∧ fpDiv f m a b = (nan, flagNV)) ∧
     (∀ x y n e, valueOf f a = .inf x → valueOf f b = .fin y n e →
       fpAdd f m a b = (inf x, noFlags) ∧ fpSub f m a b = (inf x, noFlags) ∧
       fpMul f m a b = (if n = 0 then (nan, flagNV) else (inf (x != y), noFlags)) ∧
       fpDiv f m a b = (inf (x != y), noFlags)) ∧
     (∀ x y n e k, valueOf f a = .fin x n e → valueOf f b = .fin y 0 k →
       fpDiv f m a b = if n = 0 then (nan, flagNV) else (inf (x != y), flagDZ))) ∧
  (∀ (f : Fmt) (rm : Rm) (neg : Bool) (num den rnd : Nat) (v : Val) (fl : Flags), 0 < num → 0 < den →
     roundFin f rm neg num den rnd = some (v, fl) →
     ∃ n d, v = .fin neg n d ∧ 0 < d ∧
       (rm = .rtz → n * den ≤ num * d) ∧
       (rm = .rup → if neg then n * den ≤ num * d else num * d ≤ n * den) ∧
       (rm = .rdn → if neg then num * d ≤ n * den else n * den ≤ num * d) ∧
       (rm = .rne → ∀ e : Int,
         (if 0 ≤ e then den * 2 ^ e.toNat ≤ num ∧ num < den * 2 ^ (e.toNat + 1)
           else den ≤ num * 2 ^ (-e).toNat ∧ num * 2 ^ (-e).toNat < 2 * den) →
         let k := max e f.eMin - f.mantBits
         let gap := (n * den - num * d) + (num * d - n * den)
         if 0 ≤ k then 2 * gap ≤ 2 ^ k.toNat * (den * d) else 2 * gap * 2 ^ (-k).toNat ≤ den * d) ∧
       (rm = .rs → ∀ e : Int,
         (if 0 ≤ e then den * 2 ^ e.toNat ≤ num ∧ num < den * 2 ^ (e.toNat + 1)
           else den ≤ num * 2 ^ (-e).toNat ∧ num * 2 ^ (-e).toNat < 2 * den) →
         let k := max e f.eMin - f.mantBits
         let m := if 0 ≤ k then num else num * 2 ^ (-k).toNat
         let unit := if 0 ≤ k then den * 2 ^ k.toNat else den
         let y := if m % unit ≠ 0 ∧ 2 ^ 32 ≤ m % unit * 2 ^ 32 / unit + rnd then m / unit + 1 else m / unit
         if 0 ≤ k then n = y * 2 ^ k.toNat * d else n * 2 ^ (-k).toNat = y * d) ∧
       (fl.getLsbD 0 = true ↔ n * den ≠ num * d)) ∧
  (∀ p ∈ [(Fmt.e4m3, Fmt.f16), (.e5m2, .f16), (.e4m3, .bf16), (.e5m2, .bf16), (.e4m3, .f32), (.e5m2, .f32),
       (.e4m3, .f64), (.e5m2, .f64), (.e2m1, .f16), (.e2m1, .bf16), (.e2m1, .f32), (.e2m1, .f64), (.e8m0, .f32),
       (.e3m5, .f32)],
     ∀ b : Fin 256, b.val < 2 ^ p.1.width → ∀ (rm : Rm) (sat : Bool),
       let r := convert (.flt p.1) (.flt p.2) rm sat 0 b.val
       match valueOf p.1 b.val with
       | .nan q => r = (p.2.canonicalNaN, if q then flagNV else noFlags)
       | .inf neg => valueOf p.2 r.1 = .inf neg ∧ r.2 = noFlags
       | .fin neg n d => r.2 = noFlags ∧ ∃ n' d', valueOf p.2 r.1 = .fin neg n' d' ∧ n' * d = n * d')

/-- R45, R48, R77, R113: the conversions with a rounding field, by Convert of the operand's bits: rm from the field
or, at code 111, from `fctl`; the random operand from gB at code 100; a 64-bit result in wD and any other in gD. R47,
R113: the conversions between integer types: the value reduced to the destination's width, or with `.sat` the nearest
value that it holds, with OF where that differs; i8 and i16 are extended by sign and n8 and n16 by 0. -/
def Obligations.ConversionResults : Prop :=
  (∀ (s : State) (d a b : RegNo) (rm : RmField) (sat : Bool), ∀ p ∈ ([
       (.cvtF64F32 d a b rm sat, .flt .f64, .flt .f32), (.cvtF64F16 d a b rm sat, .flt .f64, .flt .f16),
       (.cvtF64Bf16 d a b rm sat, .flt .f64, .flt .bf16), (.cvtF64E4m3 d a b rm sat, .flt .f64, .flt .e4m3),
       (.cvtF64E5m2 d a b rm sat, .flt .f64, .flt .e5m2), (.cvtF64I32 d a b rm sat, .flt .f64, tyI32),
       (.cvtF64N32 d a b rm sat, .flt .f64, tyN32), (.cvtF64I64 d a b rm sat, .flt .f64, tyI64),
       (.cvtF64N64 d a b rm sat, .flt .f64, tyN64), (.cvtF32F64 d a b rm sat, .flt .f32, .flt .f64),
       (.cvtF32F16 d a b rm sat, .flt .f32, .flt .f16), (.cvtF32Bf16 d a b rm sat, .flt .f32, .flt .bf16),
       (.cvtF32E4m3 d a b rm sat, .flt .f32, .flt .e4m3), (.cvtF32E5m2 d a b rm sat, .flt .f32, .flt .e5m2),
       (.cvtF32E2m1 d a b rm sat, .flt .f32, .flt .e2m1), (.cvtF32E8m0 d a b rm sat, .flt .f32, .flt .e8m0),
       (.cvtF32E3m5 d a b rm sat, .flt .f32, .flt .e3m5), (.cvtF32I32 d a b rm sat, .flt .f32, tyI32),
       (.cvtF32N32 d a b rm sat, .flt .f32, tyN32), (.cvtF32I64 d a b rm sat, .flt .f32, tyI64),
       (.cvtF32N64 d a b rm sat, .flt .f32, tyN64), (.cvtF16F64 d a b rm sat, .flt .f16, .flt .f64),
       (.cvtF16F32 d a b rm sat, .flt .f16, .flt .f32), (.cvtF16Bf16 d a b rm sat, .flt .f16, .flt .bf16),
       (.cvtF16E4m3 d a b rm sat, .flt .f16, .flt .e4m3), (.cvtF16E5m2 d a b rm sat, .flt .f16, .flt .e5m2),
       (.cvtBf16F64 d a b rm sat, .flt .bf16, .flt .f64), (.cvtBf16F32 d a b rm sat, .flt .bf16, .flt .f32),
       (.cvtBf16F16 d a b rm sat, .flt .bf16, .flt .f16), (.cvtBf16E4m3 d a b rm sat, .flt .bf16, .flt .e4m3),
       (.cvtBf16E5m2 d a b rm sat, .flt .bf16, .flt .e5m2), (.cvtE4m3F64 d a b rm sat, .flt .e4m3, .flt .f64),
       (.cvtE4m3F32 d a b rm sat, .flt .e4m3, .flt .f32), (.cvtE4m3F16 d a b rm sat, .flt .e4m3, .flt .f16),
       (.cvtE4m3Bf16 d a b rm sat, .flt .e4m3, .flt .bf16), (.cvtE4m3E5m2 d a b rm sat, .flt .e4m3, .flt .e5m2),
       (.cvtE5m2F64 d a b rm sat, .flt .e5m2, .flt .f64), (.cvtE5m2F32 d a b rm sat, .flt .e5m2, .flt .f32),
       (.cvtE5m2F16 d a b rm sat, .flt .e5m2, .flt .f16), (.cvtE5m2Bf16 d a b rm sat, .flt .e5m2, .flt .bf16),
       (.cvtE5m2E4m3 d a b rm sat, .flt .e5m2, .flt .e4m3), (.cvtE2m1F64 d a b rm sat, .flt .e2m1, .flt .f64),
       (.cvtE2m1F32 d a b rm sat, .flt .e2m1, .flt .f32), (.cvtE2m1F16 d a b rm sat, .flt .e2m1, .flt .f16),
       (.cvtE2m1Bf16 d a b rm sat, .flt .e2m1, .flt .bf16), (.cvtE8m0F32 d a b rm sat, .flt .e8m0, .flt .f32),
       (.cvtE3m5F32 d a b rm sat, .flt .e3m5, .flt .f32), (.cvtI32F64 d a b rm sat, tyI32, .flt .f64),
       (.cvtI32F32 d a b rm sat, tyI32, .flt .f32), (.cvtN32F64 d a b rm sat, tyN32, .flt .f64),
       (.cvtN32F32 d a b rm sat, tyN32, .flt .f32), (.cvtI64F64 d a b rm sat, tyI64, .flt .f64),
       (.cvtI64F32 d a b rm sat, tyI64, .flt .f32), (.cvtN64F64 d a b rm sat, tyN64, .flt .f64),
       (.cvtN64F32 d a b rm sat, tyN64, .flt .f32)] :
       List (Instr × NumTy × NumTy)),
     Ready s p.1.shape →
       let x := if p.2.2.bits = 64 then (s.wA p.1.shape).toNat else (s.gA p.1.shape).toNat % 2 ^ p.2.2.bits
       let m := if rm = .dyn then Rm.ofFctl s.src.fctl else RmField.mode 0#32 rm
       let r := convert p.2.2 p.2.1 m sat (if rm = .rs then (s.gB p.1.shape).toNat else 0) x
       if p.2.1.bits = 64 then GivesW s p.1 d (BitVec.ofNat 64 r.1) r.2 else GivesG s p.1 d (BitVec.ofNat 32 r.1) r.2) ∧
  (∀ (s : State) (d a : RegNo) (sat : Bool), ∀ p ∈ ([
       (.cvtI32I64 d a sat, tyI32, tyI64), (.cvtN32N64 d a sat, tyN32, tyN64), (.cvtI64I32 d a sat, tyI64, tyI32),
       (.cvtN64N32 d a sat, tyN64, tyN32), (.cvtI8I32 d a sat, tyI8, tyI32), (.cvtN8I32 d a sat, tyN8, tyI32),
       (.cvtI16I32 d a sat, tyI16, tyI32), (.cvtN16I32 d a sat, tyN16, tyI32)] :
       List (Instr × NumTy × NumTy)),
     Ready s p.1.shape → ∀ t u, p.2.1 = .int t → p.2.2 = .int u →
       let x : Int := if u.width = 64 then (if u.signed then (s.wA p.1.shape).toInt else (s.wA p.1.shape).toNat)
         else if u.signed then (s.gA p.1.shape).toInt else (s.gA p.1.shape).toNat
       let lo : Int := if t.signed then -2 ^ (t.width - 1) else 0
       let hi : Int := if t.signed then 2 ^ (t.width - 1) - 1 else 2 ^ t.width - 1
       let y := if sat then max lo (min hi x) else x
       let f := if sat && decide (y ≠ x) then flagOF else noFlags
       if t.width = 64 then GivesW s p.1 d (BitVec.ofInt 64 y) f
       else GivesG s p.1 d (if t.signed then (BitVec.ofInt t.width y).signExtend 32
         else (BitVec.ofInt t.width y).zeroExtend 32) f)

/-- R10, R11, R20: with the queue map off, a g operand reads its register and g0 reads 0, and a w operand reads G(N+1)
:: G(N) and the zero pair reads 0; a word that is not the A word of a pair reads the thread's own registers. R22, R23:
operands that name one queue register pop its queue in the order A, B, C, and a w operand on w60 reads its low word
from q0 and its high word from q1; the worked example of R23, for any two entries. -/
def Obligations.OperandReads : Prop :=
  (∀ (s : State) (a b c : RegNo), s.src.qm = false →
     (s.fr.latch = none → s.src.regs = s.t.regs) ∧
     s.gA { a := .g a, b := .g b, c := .g c } = (if a = 0 then 0#32 else (s.src.regs[a.toNat]!).val) ∧
     s.gB { a := .g a, b := .g b, c := .g c } = (if b = 0 then 0#32 else (s.src.regs[b.toNat]!).val) ∧
     s.gC { a := .g a, b := .g b, c := .g c } = (if c = 0 then 0#32 else (s.src.regs[c.toNat]!).val) ∧
     s.wA { a := .w a, b := .w b } =
       (if a = 0 then 0#64 else (s.src.regs[a.toNat + 1]!).val ++ (s.src.regs[a.toNat]!).val) ∧
     s.wB { a := .w a, b := .w b } =
       (if b = 0 then 0#64 else (s.src.regs[b.toNat + 1]!).val ++ (s.src.regs[b.toNat]!).val)) ∧
  (∀ (s : State) (d : RegNo) (q p : Nat) (x y z : Reg) (l m : List Reg), s.src.qm = true →
     s.src.queueOf 60 = some q → s.src.queueOf 61 = some p → q ≠ p →
     s.entries s.t.core q = x :: y :: z :: l → s.entries s.t.core p = m →
     s.gA { a := .g 60, b := .g 60, c := .g 60 } = x.val ∧ s.gB { a := .g 60, b := .g 60, c := .g 60 } = y.val ∧
     s.gC { a := .g 60, b := .g 60, c := .g 60 } = z.val ∧
     s.wA { a := .w 60, b := .g 60 } = (m.headD {}).val ++ x.val ∧ s.gB { a := .w 60, b := .g 60 } = y.val ∧
     (Ready s (Instr.add d 60 60).shape → d.toNat < 60 →
       ∃ t, exec (.add d 60 60) s = .next t ∧ (d ≠ 0 → (t.t.regs[d.toNat]!).val = x.val + y.val) ∧
         t.entries s.t.core q = z :: l ∧ t.entries s.t.core p = m))

/-- R11, R22, R81, R93: a word of any form that names a register beyond the allocation or an unbound queue register, or that reads
a queue register in its D field, traps ILL with the word in `tval`. R25, R141, R142: a special-register number that is
not in the table traps ILL. R144, R148: a supervisor-only form, and an `sget` or `sset` of a register that user mode
may not reach, trap PRIV in user mode, with the word in `tval`. -/
def Obligations.OperandChecks : Prop :=
  (∀ (s : State) (i : Instr), s.t.tr = false → s.t.kept = none →
       ((∃ r ∈ sourcesOf i.shape ++ opRegs i.shape.dst ++ opRegs i.shape.dsrc,
           s.src.isQueue r = false ∧ 8 * s.t.blocks ≤ r) ∨
         (∃ r ∈ sourcesOf i.shape ++ opRegs i.shape.dst, s.src.isQueue r = true ∧ s.src.queueOf r = none) ∨
         (∃ r ∈ opRegs i.shape.dsrc, s.src.isQueue r = true)) →
       ∃ t, exec i s = .next t ∧ TrapTaken s t 0x01 (s.fr.word.zeroExtend 64)) ∧
  (∀ (s : State) (r : RegNo) (n : BitVec 11), s.t.tr = false →
     n.toNat ∉ [0, 1, 2, 3, 4, 5, 6, 7, 8, 9, 10, 11, 12, 13, 16, 17, 18, 19, 20, 24, 25] →
     ∀ i ∈ [Instr.sget r n, .sset r n], ∃ t, exec i s = .next t ∧ TrapTaken s t 0x01 (s.fr.word.zeroExtend 64)) ∧
  (∀ (s : State) (d a b : RegNo), s.t.mode = false → s.t.tr = false →
     ∀ i ∈ [Instr.tlbi a, .tlbiAsn a, .tlbiAll, .chime a, .l2pin a b, .l2unpin a b, .rgnSet a b, .nsend a b, .nrecv d a,
       .nmcast a b, .sget d 0x18, .sget d 0x19, .sset a 0x0D, .sset a 0x18, .sset a 0x19],
       i.shape.classOk = true → s.namesOk i.shape = true →
       ∃ t, exec i s = .next t ∧ TrapTaken s t 0x02 (s.fr.word.zeroExtend 64))

/-- R23, R148: where a queue that a word names is short, the word pops and pushes nothing and parks on the first short
queue, the popped ones taken first; the queues of a pair are tested for both of its words together, before either. R148,
R155: a word that passes the earlier checks and reads a poisoned register or queue entry raises RPOIS with the number of
the first such register in `tval`; that a source in D comes after A, B and C is assumption 18, and that a `pf` does
neither is assumption 49. -/
def Obligations.QueueAndPoisonChecks : Prop :=
  (∀ (s : State) (i : Instr) (before after : List Nat) (q : Nat),
     let sh := s.liveShape i
     let short (p : Nat) : Prop := (s.entries s.t.core p).length < (s.src.pops sh).count p ∨
       16 + (s.src.pops sh).count p < (s.entries s.t.core p).length + (s.src.pushes sh).count p
     s.t.kept = none → i.wellFormed = true → s.namesOk i.shape = true → (i.shape.sup = true → s.t.mode = true) →
     s.endsQuantum i.shape = false → s.fr.pair = false → s.src.pops sh ++ s.src.pushes sh = before ++ q :: after →
     (∀ p ∈ before, ¬ short p) → short q → ∃ t, exec i s = .next t ∧ Parked s t 5 (.queue s.t.core q)) ∧
  (∀ (s : State) (wc wa : Word) (c a : Instr) (before after : List Nat) (q : Nat),
     let s2 := s.frame 8 wc true false
     let pops := s2.src.pops (s2.liveShape c) ++ s2.src.pops a.shape
     let pushes := s2.src.pushes (s2.liveShape c) ++ s2.src.pushes a.shape
     let short (p : Nat) : Prop := (s2.entries s.t.core p).length < pops.count p ∨
       16 + pops.count p < (s2.entries s.t.core p).length + pushes.count p
     decodeWord wc = some c → decodeWord wa = some a → s2.pairIllegal c a = false →
     (∀ i ∈ [c, a], s2.namesOk i.shape = true ∧ (i.shape.sup = true → s.t.mode = true)) →
     s2.endsQuantum (s2.liveShape c) = false → s2.endsQuantum a.shape = false → pops ++ pushes = before ++ q :: after →
     (∀ p ∈ before, ¬ short p) → short q →
     ∃ t, s.execUnit (.pair wc wa) = .next t ∧ Parked s2 t 5 (.queue s.t.core q)) ∧
  (∀ (s : State) (i : Instr) (r : Nat), s.t.tr = false → (s.t.mode = true ∨ s.t.tvec = 0#64) →
     let sh := s.liveShape i
     s.t.kept = none → i.wellFormed = true → s.namesOk i.shape = true → (i.shape.sup = true → s.t.mode = true) →
     s.endsQuantum i.shape = false →
     (∀ q ∈ s.src.pops sh ++ s.src.pushes sh, (s.src.pops sh).count q ≤ (s.entries s.t.core q).length ∧
       (s.entries s.t.core q).length + (s.src.pushes sh).count q ≤ 16 + (s.src.pops sh).count q) →
     (∃ before after v, ((sourcesOf sh ++ opRegs sh.dsrc ++ sh.extraR.map BitVec.toNat).zip (s.readings sh)) =
       before ++ (r, { val := v, pois := true }) :: after ∧ ∀ p ∈ before, p.2.pois = false) →
     ∃ t, exec i s = .next t ∧ TrapTaken s t 0x0D (BitVec.ofNat 64 r))

/-- R12, R30, R144, R145, R149: a trap taken while TR = 0 writes `tcause`, `tepc` and `tval`, sets TR, saves MODE in
PMODE and enters `tvec` in user mode where that is not 0, and `svec` in supervisor mode otherwise; it changes nothing
else. A class-F fault that goes to a handler task is not of this kind. R28, R147: a trap taken while TR = 1 runs no
handler: the thread passes to the faulted state with what the first trap saved, and a record of kind 4 goes to its
die's fault queue, or waits there. R138, R139: `trap` raises TRAP with its code, and `brk` raises BRK with 0 where its
launch has no debug enabled; with debug enabled it halts the thread at the bundle, with no effect of its own. R140:
`tret` clears TR, gives MODE the value of PMODE and goes to `tepc`; it changes nothing else. Outside a handler it
traps ILL, and a `tepc` that fails its checks leaves the thread faulted. -/
def Obligations.TrapsAndReturns : Prop :=
  (∀ (s : State) (cause : Nat) (val : DWord) (acc : Option (AccKind × Nat)), s.t.tr = false →
     ¬ (0x0B ≤ cause ∧ cause ≤ 0x10 ∧ s.t.mode = false ∧ s.t.tvec ≠ 0#64) → TrapTaken s (s.raise cause val acc) cause val) ∧
  (∀ (s : State) (cause : Nat) (val : DWord) (acc : Option (AccKind × Nat)), s.t.tr = true → s.t.life ≠ .exited →
     DoubleFaulted s (s.raise cause val acc) ∧
     (((s.raise cause val acc).die (dieOf s.t.core)).fprod = (s.die (dieOf s.t.core)).fprod + 1 ∨
       ∃ p, ((s.raise cause val acc).die (dieOf s.t.core)).pending = (s.die (dieOf s.t.core)).pending ++ [p] ∧ p.kind = 4)) ∧
  (∀ (s : State) (code : BitVec 17),
     (Ready s (Instr.trap code).shape → s.t.tr = false →
       ∃ t, exec (.trap code) s = .next t ∧ TrapTaken s t 0x07 (code.zeroExtend 64)) ∧
     (Ready s Instr.brk.shape → s.t.tr = false → (∀ l, s.launch? s.t.lid = some l → l.pkt.flags.getLsbD 4 = false) →
       ∃ t, exec .brk s = .next t ∧ TrapTaken s t 0x08 0#64) ∧
     (∀ l, Ready s Instr.brk.shape → s.launch? s.t.lid = some l → l.pkt.flags.getLsbD 4 = true → s.t.stepMark = false →
       ∃ t, exec .brk s = .next t ∧ t.fr.stopped = true ∧ t.t.life = .suspended ∧ t.t.halted = true ∧
         t.t.pc = s.fr.first ∧ t.t.regs = s.t.regs ∧ t.t.tctl = s.t.tctl ∧ t.mem = s.mem ∧ t.ctxs = s.ctxs)) ∧
  (∀ (s : State), Ready s Instr.tret.shape →
     (s.t.tr = true → GoodTarget false s.fr.first s.t.tepc →
       ∃ t, exec .tret s = .next t ∧ t = { s with t := t.t } ∧
         t.t = { s.t with tctl := t.t.tctl, pc := s.t.tepc, landed := true } ∧
         ∀ i, t.t.tctl.getLsbD i = if i = 8 then false else if i = 6 then s.t.pmode else s.t.tctl.getLsbD i) ∧
     (s.t.tr = false → ∃ t, exec .tret s = .next t ∧ TrapTaken s t 0x01 (s.fr.word.zeroExtend 64)) ∧
     (s.t.tr = true → ¬ GoodTarget false s.fr.first s.t.tepc → ∃ t, exec .tret s = .next t ∧ DoubleFaulted s t))

/-- R67, R116, R117: a conditional branch goes to the address of its bundle plus 4 × OFF where its condition holds,
and otherwise leaves the pc as it is; its pops take place either way, and it changes nothing else. R136: `pause`
leaves everything as it is, but that its core issues no bundle of the thread for the next 64 cycles. -/
def Obligations.BranchResults : Prop :=
  (∀ (s : State) (a b : RegNo) (off : BitVec 17) (imm : BitVec 11), ∀ p ∈ ([
     (.bz a off, off.toInt, fun x _ => x = 0#32), (.bnz a off, off.toInt, fun x _ => x ≠ 0#32),
     (.beq a b imm, imm.toInt, fun x y => x = y), (.bne a b imm, imm.toInt, fun x y => x ≠ y),
     (.blt a b imm, imm.toInt, fun x y => x.toInt < y.toInt), (.bge a b imm, imm.toInt, fun x y => y.toInt ≤ x.toInt),
     (.blo a b imm, imm.toInt, fun x y => x.toNat < y.toNat), (.bhs a b imm, imm.toInt, fun x y => y.toNat ≤ x.toNat)] :
       List (Instr × Int × (Word → Word → Prop))),
     Ready s p.1.shape →
       let target := s.fr.first + BitVec.ofInt 64 (4 * p.2.1)
       (p.2.2 (s.gA p.1.shape) (s.gB p.1.shape) → GoodTarget true s.fr.first target →
         ∃ t, exec p.1 s = .next t ∧ Went s t target ∧ Rest s t p.1.shape []) ∧
       (¬ p.2.2 (s.gA p.1.shape) (s.gB p.1.shape) →
         ∃ t, exec p.1 s = .next t ∧ t.t = s.t ∧ Rest s t p.1.shape [])) ∧
  (∀ (s : State), Ready s Instr.pause.shape → exec .pause s = .next { s with t := { s.t with pauseLeft := 64 } })

/-- R67, R116 to R119: the unconditional transfers: the target of each form, and the low word of the return address in
g1 for the calls; they change nothing else. R116: a transfer, or a conditional branch that is taken, whose target fails a
check traps at its bundle with the target in `tval`: ALIGN first, then ADDR for the code window or an address that is not
canonical; its bundle has no effect. -/
def Obligations.JumpResults : Prop :=
  (∀ (s : State) (a : RegNo) (off : BitVec 23) (lit : Word),
     let target := s.fr.first + BitVec.ofInt 64 (4 * off.toInt)
     (Ready s (Instr.bra off).shape → GoodTarget true s.fr.first target →
       ∃ t, exec (.bra off) s = .next t ∧ Went s t target ∧ Rest s t (Instr.bra off).shape []) ∧
     (Ready s (Instr.call off).shape → GoodTarget true s.fr.first target →
       ∃ t, exec (.call off) s = .next t ∧ Called s t target ∧ Rest s t (Instr.call off).shape []) ∧
     (Ready s (Instr.callx lit).shape → GoodTarget true s.fr.first (s.fr.first + BitVec.ofInt 64 lit.toInt) →
       ∃ t, exec (.callx lit) s = .next t ∧ Called s t (s.fr.first + BitVec.ofInt 64 lit.toInt) ∧
         Rest s t (Instr.callx lit).shape []) ∧
     (Ready s (Instr.callr a).shape → GoodTarget true s.fr.first (s.wA (Instr.callr a).shape) →
       ∃ t, exec (.callr a) s = .next t ∧ Called s t (s.wA (Instr.callr a).shape) ∧ Rest s t (Instr.callr a).shape []) ∧
     (Ready s (Instr.jr a).shape → GoodTarget false s.fr.first (s.wA (Instr.jr a).shape) →
       ∃ t, exec (.jr a) s = .next t ∧ Went s t (s.wA (Instr.jr a).shape) ∧ Rest s t (Instr.jr a).shape []) ∧
     (Ready s Instr.ret.shape →
       let back := s.fr.first.extractLsb' 32 32 ++ (s.src.regs[1]!).val
       GoodTarget true s.fr.first back → ∃ t, exec .ret s = .next t ∧ Went s t back ∧ Rest s t Instr.ret.shape [])) ∧
  (∀ (s : State) (a b : RegNo) (imm : BitVec 11) (off : BitVec 17) (far : BitVec 23) (lit : Word), s.t.tr = false →
     let off' := fun (k : Int) => s.fr.first + BitVec.ofInt 64 (4 * k)
     let always : Word → Word → Prop := fun _ _ => True
     ∀ p ∈ ([(.bra far, off' far.toInt, always), (.call far, off' far.toInt, always),
         (.callx lit, s.fr.first + BitVec.ofInt 64 lit.toInt, always),
         (.callr a, s.wA (Instr.callr a).shape, always), (.jr a, s.wA (Instr.jr a).shape, always),
         (.ret, s.fr.first.extractLsb' 32 32 ++ (s.src.regs[1]!).val, always),
         (.bz a off, off' off.toInt, fun x _ => x = 0#32), (.bnz a off, off' off.toInt, fun x _ => x ≠ 0#32),
         (.beq a b imm, off' imm.toInt, fun x y => x = y), (.bne a b imm, off' imm.toInt, fun x y => x ≠ y),
         (.blt a b imm, off' imm.toInt, fun x y => x.toInt < y.toInt),
         (.bge a b imm, off' imm.toInt, fun x y => y.toInt ≤ x.toInt),
         (.blo a b imm, off' imm.toInt, fun x y => x.toNat < y.toNat),
         (.bhs a b imm, off' imm.toInt, fun x y => y.toNat ≤ x.toNat)] :
         List (Instr × DWord × (Word → Word → Prop))),
       Ready s p.1.shape → p.2.2 (s.gA p.1.shape) (s.gB p.1.shape) →
         (p.2.1.toNat % 4 ≠ 0 → ∃ t, exec p.1 s = .next t ∧ TrapTaken s t 0x03 p.2.1) ∧
         (p.2.1.toNat % 4 = 0 → ¬ GoodTarget (decide (p.1 ≠ .jr a)) s.fr.first p.2.1 →
           ∃ t, exec p.1 s = .next t ∧ TrapTaken s t 0x04 p.2.1))

/-- R25, R26, R141: `sget` writes the value that the special register held: a 32-bit one into gD, a 64-bit one into
wD. R27 to R31, R142: what `sset` leaves of a write: a read-only register stays, `fctl` takes its mode and flags,
`tctl` takes QM where QE permits, `rngs` takes no 0, and the rest take the bits that they hold. -/
def Obligations.SpecialRegisters : Prop :=
  (∀ (s : State) (d : RegNo),
     (∀ p ∈ [(0x00, s.t.tix), (0x01, s.t.tcnt), (0x02, BitVec.ofNat 32 (s.t.core % 8)),
         (0x03, s.lixOf (s.t.core / 8)), (0x04, BitVec.ofNat 32 (s.t.core / 512)), (0x05, s.t.lid), (0x06, s.t.grank),
         (0x07, s.t.gsize), (0x0A, s.t.fctl), (0x0B, s.t.tctl), (0x0C, s.t.rngs), (0x10, s.t.tcause), (0x13, s.t.tprog)],
       s.t.core < 4096 → Ready s (Instr.sget d (BitVec.ofNat 11 p.1)).shape →
         GivesG s (.sget d (BitVec.ofNat 11 p.1)) d p.2 noFlags) ∧
     (∀ p ∈ [(0x08, (s.core s.t.core).clk), (0x09, BitVec.ofNat 64 (s.ticks / 9)), (0x0D, s.t.path), (0x11, s.t.tepc),
         (0x12, s.t.tval), (0x14, s.t.tvec), (0x18, s.t.svec), (0x19, s.t.sscratch)],
       Ready s (Instr.sget d (BitVec.ofNat 11 p.1)).shape → GivesW s (.sget d (BitVec.ofNat 11 p.1)) d p.2 noFlags) ∧
     (∀ l, l < 512 → leNat (cellReadN s.mem (bits s.bmap 51 14 * 16384 + 0x1000 + 2 * l) 2) = s.t.core / 8 →
       (∀ j, j < l → leNat (cellReadN s.mem (bits s.bmap 51 14 * 16384 + 0x1000 + 2 * j) 2) ≠ s.t.core / 8) →
       s.lixOf (s.t.core / 8) = BitVec.ofNat 32 l)) ∧
  (∀ (s : State) (a : RegNo),
     (∀ p ∈ ([(0x00, fun _ => s.t), (0x01, fun _ => s.t), (0x02, fun _ => s.t), (0x03, fun _ => s.t), (0x04, fun _ => s.t),
         (0x05, fun _ => s.t), (0x06, fun _ => s.t), (0x07, fun _ => s.t),
         (0x0B, fun w => { s.t with tctl := s.t.tctl.extractLsb' 1 31 ++ BitVec.ofBool (w.getLsbD 0 && s.t.tctl.getLsbD 1) }),
         (0x0C, fun w => { s.t with rngs := if w = 0#32 then 0x6D2B79F5#32 else w }),
         (0x10, fun w => { s.t with tcause := BitVec.ofNat 32 (w.toNat % 1024) }),
         (0x13, fun w => { s.t with tprog := w })] : List (Nat × (Word → Thread))),
       let i := Instr.sset a (BitVec.ofNat 11 p.1)
       Ready s i.shape → ∃ t, exec i s = .next t ∧ t.t = p.2 (s.gA i.shape) ∧ Rest s t i.shape []) ∧
     (∀ p ∈ ([(0x08, fun _ => s.t), (0x09, fun _ => s.t), (0x0D, fun v => { s.t with path := v }),
         (0x11, fun v => { s.t with tepc := v }), (0x12, fun v => { s.t with tval := v }),
         (0x14, fun v => { s.t with tvec := v.extractLsb' 3 61 ++ 0#3 }),
         (0x18, fun v => { s.t with svec := v.extractLsb' 3 61 ++ 0#3 }), (0x19, fun v => { s.t with sscratch := v })] :
         List (Nat × (DWord → Thread))),
       let i := Instr.sset a (BitVec.ofNat 11 p.1)
       Ready s i.shape → ∃ t, exec i s = .next t ∧ t.t = p.2 (s.wA i.shape) ∧ Rest s t i.shape []) ∧
     (let i := Instr.sset a 0x0A;
       Ready s i.shape →
         ((s.gA i.shape).getLsbD 10 = false → ∃ t, exec i s = .next t ∧ Rest s t i.shape [] ∧
           t.t = { s.t with fctl := t.t.fctl } ∧ ∀ j, t.t.fctl.getLsbD j =
             (decide (j < 5 ∨ j = 8 ∨ j = 9) && (s.gA i.shape).getLsbD j)) ∧
         ((s.gA i.shape).getLsbD 10 = true → s.t.tr = false →
           ∃ t, exec i s = .next t ∧ TrapTaken s t 0x01 (s.fr.word.zeroExtend 64))))

/-- R13, R120, R121, R123 to R126: a plain load of global memory gives the bytes that its core sees, sign- or zero-
extended; a deterministic thread sees its own buffered bytes over memory as the last boundary left it. The address is
W(A) + IMM9 × size; nothing is written but the destination. R284: a load that misses may be left to perform after its
bundle, which is a free choice of the frame (assumption 54); when it performs, it writes the destination with the bytes
that the core then sees. -/
def Obligations.GlobalLoads : Prop :=
  (∀ (s : State) (d a : RegNo) (imm : BitVec 9) (pa : Nat), (s.core s.t.core).linesOk → s.priors = [] →
    ∀ p ∈ [Instr.ld8s d a, Instr.ld8z d a, Instr.ld16s d a, Instr.ld16z d a, Instr.ld32 d a, Instr.ld64 d a,
        Instr.ld128 d a].zip (loadForms d),
      let i := p.1 .global imm
      let n := p.2.1
      let c := s.t.core
      let ha := s.homeAddr pa
      Ready s i.shape → s.reaches (s.wA i.shape + BitVec.ofInt 64 (imm.toInt * n)) n .read pa →
      (s.fr.late = false → s.seenPois c ha = false →
        (s.room c ha ∨
          (s.t.det = false ∧ Memory.wf s.mem = true ∧ s.calm c)) →
        let bytes := if s.t.det then overlay s.t.sbuf ha (s.committed pa n)
          else (List.range n).map fun j => s.seen c (ha + j)
        ∃ s2 t, exec i s = .next t ∧ Accessed s s2 (s.room c ha) ∧ (s.room c ha → ∀ x, s2.seen c x = s.seen c x) ∧
          Wrote s2 t i.shape (p.2.2 (leNat bytes)) noFlags) ∧
      (s.fr.late = true → s.t.det = false → s.upset = 0 → s.l1Hit c ha = false → s.homePois pa n = false →
        (∀ r ∈ opRegs i.shape.dst, s.src.isQueue r = false) →
        ∃ s2 t x, exec i s = .next t ∧ Accessed s s2 True ∧ Rest s2 t i.shape [] ∧
          t.t = { s.t with loads := s.t.loads ++ [x] } ∧ x.pa = pa ∧ x.n = n ∧ x.regs = opRegs i.shape.dst)) ∧
  (∀ (s : State) (k i : Nat) (th : Thread) (x : LateLoad), (s.core th.core).linesOk → s.t.life = .running →
    s.thread? k = some th → th.ckey = k → th.loads[i]? = some x → x.n ∣ 32 → x.pa % x.n = 0 →
    s.room th.core (s.homeAddr x.pa) → x.regs.Nodup →
    let v := loadWords x.signed ((List.range x.n).map fun j => s.seen th.core (s.homeAddr x.pa + j))
    ∃ u, (s.performLoad k i).thread? k = some u ∧ u = { th with loads := th.loads.eraseIdx i, regs := u.regs } ∧
      (∀ (j : Nat) r w, x.regs[j]? = some r → r ≠ 0 → r < 64 → v[j]? = some w →
        u.regs[r]! = { val := w, pois := s.seenPois th.core (s.homeAddr x.pa) }) ∧
      (∀ r, r ∉ x.regs → u.regs[r]! = th.regs[r]!))

/-- R13, R121, R202, R203, R205: a plain load of the scratchpad gives the bytes that its view names; nothing is
written but the destination. That `ld128` of the interleave view reads the two partitions in which its bytes lie is
assumption 13. R203: the byte that an address of the local view of core c names lies in partition (c + a
DIV share) MOD 8 at share offset a MOD share, and that of an interleave address in partition (a DIV 8) MOD 8 at (a DIV
64) × 8 + a MOD 8; each view names every byte of the instance once. -/
def Obligations.ScratchLoads : Prop :=
  (∀ (s : State) (d a : RegNo) (imm : BitVec 9), ∀ sp ∈ [Space.scratchLocal, Space.interleave],
     ∀ p ∈ [Instr.ld8s d a, Instr.ld8z d a, Instr.ld16s d a, Instr.ld16z d a, Instr.ld32 d a, Instr.ld64 d a,
         Instr.ld128 d a].zip (loadForms d),
       let i := p.1 sp imm
       let n := p.2.1
       let x : Int := ((s.gA i.shape).toNat : Int) + imm.toInt * n
       let named := fun j => scratchByte sp s.scratchBytes (s.t.core % 8) (x.toNat + j)
       let inst := s.inst (s.t.core / 8) s.t.lid
       Ready s i.shape → 0 ≤ x → x.toNat % n = 0 → x.toNat + n ≤ s.scratchBytes →
       (∀ j, j < n → named j / 16384 ∉ inst.lost ∧ scratchSector (named j) ∉ inst.pois) →
       let byte := fun j =>
         if s.t.det then (aget (scratchKey (named j)) s.t.sbuf).getD (cellRead inst.data (named j))
         else cellRead inst.data (named j)
       ∃ t, exec i s = .next t ∧ Wrote s t i.shape (p.2.2 (leNat ((List.range n).map byte))) noFlags) ∧
  (∀ (share c a b : Nat), 0 < share → share % 8 = 0 → c < 8 → a < 8 * share → b < 8 * share →
     let x := scratchByte .scratchLocal (8 * share) c a
     x / 8 % 8 = (c + a / share) % 8 ∧ x / 64 * 8 + x % 8 = a % share ∧ x < 8 * share ∧
     scratchByte .interleave (8 * share) c a = a ∧
     (scratchByte .scratchLocal (8 * share) c b = x → b = a) ∧
     ∃ y, y < 8 * share ∧ scratchByte .scratchLocal (8 * share) c y = a)

/-- R13, R120, R121, R124, R125, R126: a plain store of global memory. In a software-managed region the bytes go into
the core's L1, and the line into the thread's write filter; in a coherent one they go into the core's own copy and set
out for the home, memory being as it was until they arrive (R265); a deterministic thread holds them in its store
buffer, with the page through which they go (R298). Every other byte stays. -/
def Obligations.GlobalStores : Prop :=
  ∀ (s : State) (d a : RegNo) (imm : BitVec 9) (pa : Nat), (s.core s.t.core).linesOk → s.priors = [] →
    ∀ p ∈ ([(Instr.st8 d a, 1, fun sh => (s.gD sh).toNat), (Instr.st16 d a, 2, fun sh => (s.gD sh).toNat),
        (Instr.st32 d a, 4, fun sh => (s.gD sh).toNat), (Instr.st64 d a, 8, fun sh => (s.wD sh).toNat),
        (Instr.st128 d a, 16, s.qD d)] : List ((Space → BitVec 9 → Instr) × Nat × (Shape → Nat))),
      let i := p.1 .global imm
      let n := p.2.1
      let c := s.t.core
      let ha := s.homeAddr pa
      let byte := fun x => BitVec.ofNat 8 (p.2.2 i.shape / 2 ^ (8 * (x - ha)))
      let stored := fun x => ha ≤ x ∧ x < ha + n
      let va := s.wA i.shape + BitVec.ofInt 64 (imm.toInt * n)
      Ready s i.shape → s.reaches va n .write pa →
      (s.t.det = false → s.regionH ha = false → s.room c ha ∨ s.calm c →
        ∃ s2 t, exec i s = .next t ∧ t.t = s2.t ∧ Rest s2 t i.shape [] ∧
          s2.t = { s.t with wfilter := s.t.wfilter ||| sigBits (s.sigLine pa) } ∧
          Accessed s { s2 with t := s.t } (s.room c ha) ∧ (∀ x, stored x → s2.seen c x = byte x) ∧
          (s.room c ha → ∀ x, ¬ stored x → s2.seen c x = s.seen c x)) ∧
      (s.t.det = false → s.regionH ha = true →
        ∃ s2 t, exec i s = .next t ∧ t.t = s.t ∧ s2.t = s.t ∧ Rest s2 t i.shape [] ∧ s2.mem = s.mem ∧
          (s2.core c).sent = (s.core c).sent ++ [{
            pa := ha, bytes := leBytes n (p.2.2 i.shape), master := s.t.master, asn := s.t.asn, vpn := vpnOf va
            size := s2.pageSize c false s.t.asn va }] ∧
          (∀ x, stored x → s2.seen c x = byte x) ∧ (∀ x, ¬ stored x → s2.seen c x = s.seen c x) ∧
          (∀ e, e ≠ c → s2.core e = s.core e)) ∧
      (s.t.det = true →
        let sbuf := sbufPut s.t.sbuf ha (leBytes n (p.2.2 i.shape))
        ((sbufLines sbuf).length ≤ 24 → ∃ s2 t, exec i s = .next t ∧
          t.t = { s.t with
            sbuf := sbuf, slines := aset (ha / 128) (vpnOf va, s2.pageSize c false s.t.asn va, false) s.t.slines } ∧
          Accessed s { s2 with t := s.t } True ∧ t.t = s2.t ∧ Rest s2 t i.shape []) ∧
        (24 < (sbufLines sbuf).length → ∃ t, exec i s = .next t ∧ t.fr.stopped = true ∧ t.t.qended = true ∧
          t.t.pc = s.fr.first ∧ t.t.sbuf = s.t.sbuf ∧ t.mem = s.mem ∧ ∀ e, (t.core e).l1 = (s.core e).l1))

/-- R121, R202, R203, R205: a plain store of the scratchpad writes the bytes that its view names and no other byte; that
`st128` of the interleave view writes in two partitions is assumption 13. R336: a deterministic thread's bytes go into its
store buffer, and an evaluation for which it has no line left ends the quantum before the store. -/
def Obligations.ScratchStores : Prop :=
  ∀ (s : State) (d a : RegNo) (imm : BitVec 9), ∀ sp ∈ [Space.scratchLocal, Space.interleave],
    ∀ p ∈ ([(Instr.st8 d a, 1, fun sh => (s.gD sh).toNat), (Instr.st16 d a, 2, fun sh => (s.gD sh).toNat),
        (Instr.st32 d a, 4, fun sh => (s.gD sh).toNat), (Instr.st64 d a, 8, fun sh => (s.wD sh).toNat),
        (Instr.st128 d a, 16, s.qD d)] : List ((Space → BitVec 9 → Instr) × Nat × (Shape → Nat))),
      let i := p.1 sp imm
      let n := p.2.1
      let x : Int := ((s.gA i.shape).toNat : Int) + imm.toInt * n
      let named := fun j => scratchByte sp s.scratchBytes (s.t.core % 8) (x.toNat + j)
      let inst := s.inst (s.t.core / 8) s.t.lid
      Ready s i.shape → 0 ≤ x → x.toNat % n = 0 → x.toNat + n ≤ s.scratchBytes → s.scratchBytes % 64 = 0 →
      (∀ j, j < n → named j / 16384 ∉ inst.lost) →
      (s.t.det = true →
        let sbuf := (((List.range n).map named).zip (leBytes n (p.2.2 i.shape))).foldl
          (fun b q => aset (scratchKey q.1) q.2 b) s.t.sbuf
        ((sbufLines sbuf).length ≤ 24 → ∃ t, exec i s = .next t ∧ t.t = { s.t with sbuf := sbuf } ∧
          Rest { s with t := t.t } t i.shape []) ∧
        (24 < (sbufLines sbuf).length → ∃ t, exec i s = .next t ∧ t.fr.stopped = true ∧ t.t.qended = true ∧
          t.t.pc = s.fr.first ∧ t.t.sbuf = s.t.sbuf ∧ t.mem = s.mem ∧ t.clusters = s.clusters)) ∧
      (s.t.det = false → (aget s.t.lid.toNat (s.cluster (s.t.core / 8)).insts).isSome = true → Memory.wf inst.data = true →
      ∃ s2 t, exec i s = .next t ∧ t.t = s.t ∧ Rest s2 t i.shape [] ∧ s2 = { s with clusters := s2.clusters } ∧
        (∀ k, k ≠ s.t.core / 8 → s2.cluster k = s.cluster k) ∧
        s2.cluster (s.t.core / 8) = { s.cluster (s.t.core / 8) with insts := (s2.cluster (s.t.core / 8)).insts } ∧
        (∀ l, l ≠ s.t.lid.toNat →
          aget l (s2.cluster (s.t.core / 8)).insts = aget l (s.cluster (s.t.core / 8)).insts) ∧
        s2.inst (s.t.core / 8) s.t.lid = { inst with data := (s2.inst (s.t.core / 8) s.t.lid).data } ∧
        (∀ j, j < n → cellRead (s2.inst (s.t.core / 8) s.t.lid).data (named j) =
          BitVec.ofNat 8 (p.2.2 i.shape / 2 ^ (8 * j))) ∧
        (∀ y, (∀ j, j < n → named j ≠ y) → cellRead (s2.inst (s.t.core / 8) s.t.lid).data y = cellRead inst.data y))

/-- R120, R121, R124: an ordered load at W(A). At core scope, and in a coherent region, it gives the bytes that its
core sees; at a wider scope in a software-managed region it gives those at the home, the core's own dirty bytes
written back first (assumption 22). An acquire acts after the access. R120, R121, R124: an ordered store at W(A). A release acts before it.
At core scope in a software-managed region its bytes go into the core's L1, at a wider one to the home, and in a
coherent region on their way to the home. -/
def Obligations.OrderedAccesses : Prop :=
  (∀ (s : State) (d a : RegNo) (sc : Scope) (od : Ord) (pa : Nat), (s.core s.t.core).linesOk → Memory.wf s.mem = true →
     s.calm s.t.core → s.priors = [] →
     ∀ p ∈ [Instr.ld8sOrd d a, Instr.ld8zOrd d a, Instr.ld16sOrd d a, Instr.ld16zOrd d a, Instr.ld32Ord d a,
         Instr.ld64Ord d a, Instr.ld128Ord d a].zip (loadForms d),
       let i := p.1 sc od
       let n := p.2.1
       let c := s.t.core
       let ha := s.homeAddr pa
       let wide := sc ≠ .core ∧ s.regionH ha = false
       Ready s i.shape → s.t.det = false → s.reaches (s.wA i.shape) n .read pa →
       (if wide then (∀ j, j < n → s.pois.contains ((ha + j) / 32) = false) ∧
         ∀ w ∈ (s.core c).sent, w.pa / 128 ≠ ha / 128 else s.seenPois c ha = false) →
       let bytes := (List.range n).map fun j => if wide then s.settled c (ha + j) else s.seen c (ha + j)
       ∃ s2 t, exec i s = .next t ∧ Accessed s s2 (¬ wide ∧ s.room c ha) ∧
         Wrote (if od = .acquire ∨ od = .acqRel then s2.acquire c sc else s2) t i.shape (p.2.2 (leNat bytes)) noFlags) ∧
  (∀ (s : State) (d a : RegNo) (sc : Scope) (od : Ord) (pa : Nat), (s.core s.t.core).linesOk → Memory.wf s.mem = true →
     s.calm s.t.core → (s.core s.t.core).sent = [] → s.priors = [] →
     ∀ p ∈ ([(Instr.st8Ord d a, 1, fun sh => (s.gD sh).toNat), (Instr.st16Ord d a, 2, fun sh => (s.gD sh).toNat),
         (Instr.st32Ord d a, 4, fun sh => (s.gD sh).toNat), (Instr.st64Ord d a, 8, fun sh => (s.wD sh).toNat),
         (Instr.st128Ord d a, 16, s.qD d)] : List ((Scope → Ord → Instr) × Nat × (Shape → Nat))),
       let i := p.1 sc od
       let n := p.2.1
       let c := s.t.core
       let ha := s.homeAddr pa
       let byte := fun x => BitVec.ofNat 8 (p.2.2 i.shape / 2 ^ (8 * (x - ha)))
       let stored := fun x => ha ≤ x ∧ x < ha + n
       Ready s i.shape → s.t.det = false → s.reaches (s.wA i.shape) n .write pa →
       s.regionH ha = (s.release c sc).regionH ha →
       ∃ s2 t, exec i s = .next t ∧ t.t = s2.t ∧ Rest s2 t i.shape [] ∧
         s2.t = { s.t with wfilter := if s.regionH ha then s.t.wfilter else s.t.wfilter ||| sigBits (s.sigLine pa) } ∧
         (∀ x, stored x → s2.seen c x = byte x) ∧
         (sc ≠ .core → s.regionH ha = false → ∀ x, stored x → cellRead s2.mem x = byte x) ∧
         (s.regionH ha = true →
           (s2.core c).sent = [{
             pa := ha, bytes := leBytes n (p.2.2 i.shape), master := s.t.master, asn := s.t.asn
             vpn := vpnOf (s.wA i.shape), size := s2.pageSize c false s.t.asn (s.wA i.shape) }]) ∧
         (∀ x, ¬ stored x → cellRead s2.mem x = cellRead s.mem x ∨ WasDirty s c x (cellRead s2.mem x)) ∧
         (sc ≠ .core → (od = .release ∨ od = .acqRel) → ∀ x b, ¬ stored x → WasDirty s c x b →
           cellRead s2.mem x = b))

/-- R124, R129, R132, R133: `fence` performs the release action, then the acquire action, of the orders it names:
wider than the core, it leaves every dirty byte of the core at its home; a release leaves no write of the core on its
way and no update of one that a sharer has not acknowledged; an acquire leaves no line of a software-managed region in
the L1. That a `fence.sc` leaves no update waiting anywhere is the model's choice (assumption 63): R285 has it wait for the
writes that its thread's earlier loads read. `fence.i` writes back and empties the instruction
cache. `pf` changes nothing that a core sees. -/
def Obligations.OrderingActions : Prop :=
  ∀ (s : State), (s.core s.t.core).linesOk → Memory.wf s.mem = true →
    let c := s.t.core
    let calm := s.calm c ∧ (s.core c).sent = []
    let roomy := ∀ n, ((s.core c).setOf n).length < 8
    (∀ (sc : Scope) (od : FenceOrd), Ready s (Instr.fence sc od).shape →
      ∃ t, exec (.fence sc od) s = .next t ∧ t.t = s.t ∧ t.fr = s.fr ∧ t.clusters = s.clusters ∧
        (∀ d, (t.core d).queues = (s.core d).queues) ∧
        (sc = .core → t.mem = s.mem ∧ ∀ d, (t.core d).l1 = (s.core d).l1 ∧ (t.core d).updates = (s.core d).updates ∧
          (t.core d).sent = (s.core d).sent) ∧
        (sc ≠ .core →
          (calm → ∀ x, cellRead t.mem x = s.settled c x) ∧
          (∀ l ∈ (t.core c).l1, l.dirty = 0#128) ∧
          (od ≠ .acquire → (∀ w ∈ (t.core c).sent, w.home = true) ∧ ∀ d, ∀ u ∈ (t.core d).updates, u.writer ≠ some c) ∧
          (od ≠ .release → ∀ l ∈ (t.core c).l1, l.h = true) ∧
          (od = .sc → ∀ d, (t.core d).updates = []) ∧
          (od = .release → ∀ l ∈ (s.core c).l1, ∃ m ∈ (t.core c).l1, m.n = l.n))) ∧
    (Ready s Instr.fenceI.shape →
      ∃ t, exec .fenceI s = .next t ∧ t.t = s.t ∧ t.fr = s.fr ∧ (t.core c).icache = [] ∧
        (∀ l ∈ (t.core c).l1, l.dirty = 0#128) ∧
        (calm → (∀ x, cellRead t.mem x = s.settled c x) ∧ ∀ d, d ≠ c → t.core d = s.core d)) ∧
    (∀ (d a : RegNo) (imm : BitVec 9), Ready s (Instr.pf d a imm).shape →
      ∃ s2 t, exec (.pf d a imm) s = .next t ∧ t.t = s.t ∧ Rest s2 t (Instr.pf d a imm).shape [] ∧
        (s.walkerFree → (roomy ∨ s.calm c → Accessed s s2 roomy) ∧ (roomy → ∀ x, s2.seen c x = s.seen c x)))

/-- R130, R131, R273: an atomic reads the value at the home of W(A), the core's own dirty bytes written back first
(assumption 22; none of its writes is on its way, and its write-backs meet nothing that stops them), writes the value that
its operation gives, and delivers the old one; a failing `cas` leaves the location as it was. The core's L1 holds no copy of a
line of a software-managed region after it, and the core sees at the location what stands at the home. A release acts before it and
an acquire after it, and a line of a software-managed region enters the write filter, after a failing `cas` too
(assumption 42). -/
def Obligations.Atomics : Prop :=
  ∀ (s : State) (d a b : RegNo) (sc : Scope) (od : Ord) (pa : Nat), (s.core s.t.core).linesOk → Memory.wf s.mem = true →
    s.calm s.t.core → (s.core s.t.core).sent = [] → s.priors = [] →
    let c := s.t.core
    let ha := s.homeAddr pa
    let old := fun n => leNat ((List.range n).map fun j => s.settled c (ha + j))
    let ea := regionEntryAddr (ha / 2097152)
    let acts := fun (i : Instr) (n : Nat) (new : Option Nat) (ws : List (Nat × Word)) =>
      Ready s i.shape → s.reaches (s.wA i.shape) n .atomic pa → s.pois.contains (ha / 32) = false →
      ∃ s2 t, exec i s = .next t ∧
        Wrote (if od = .acquire ∨ od = .acqRel then s2.acquire c sc else s2) t i.shape ws noFlags ∧
        s2.fr = s.fr ∧ s2.t = { s.t with wfilter := s2.t.wfilter } ∧
        ((∀ j, j < 8 → s.settled c (ea + j) = cellRead s.mem (ea + j)) →
          s2.t.wfilter = (if s.regionH ha then s.t.wfilter else s.t.wfilter ||| sigBits (s.sigLine pa)) ∧
          (s.regionH ha = false → ∀ l, (s2.core c).line? (ha / 128) ≠ some l)) ∧
        (new.isSome = true → ∀ x, ha ≤ x → x < ha + n → s2.seen c x = cellRead s2.mem x) ∧
        (∀ k, (s2.core k).queues = (s.core k).queues) ∧
        (∀ x, ha ≤ x → x < ha + n → cellRead s2.mem x = BitVec.ofNat 8 (new.getD (old n) / 2 ^ (8 * (x - ha)))) ∧
        (∀ x, ¬ (ha ≤ x ∧ x < ha + n) →
          cellRead s2.mem x = cellRead s.mem x ∨ WasDirty s c x (cellRead s2.mem x)) ∧
        (sc ≠ .core → od = .release ∨ od = .acqRel → ∀ x v, ¬ (ha ≤ x ∧ x < ha + n) →
          WasDirty s c x v → cellRead s2.mem x = v)
    (∀ p ∈ ([(Instr.amoAddW d a b, fun x y _ => some (x + y)), (Instr.amoAndW d a b, fun x y _ => some (x &&& y)),
        (Instr.amoOrW d a b, fun x y _ => some (x ||| y)), (Instr.amoXorW d a b, fun x y _ => some (x ^^^ y)),
        (Instr.amoMinW d a b, fun x y _ => some (if y.slt x then y else x)),
        (Instr.amoMaxW d a b, fun x y _ => some (if x.slt y then y else x)),
        (Instr.amoMinnW d a b, fun x y _ => some (if y.ult x then y else x)),
        (Instr.amoMaxnW d a b, fun x y _ => some (if x.ult y then y else x)),
        (Instr.amoSwpW d a b, fun _ y _ => some y),
        (Instr.amoCasW d a b, fun x y e => if x = e then some y else none),
        (Instr.amoFaddW d a b, fun x y _ => some (BitVec.ofNat 32 (fpAdd .f32 .rne x.toNat y.toNat).1)),
        (Instr.amoFminW d a b, fun x y _ => some (BitVec.ofNat 32 (fpMinMax .f32 false x.toNat y.toNat).1)),
        (Instr.amoFmaxW d a b, fun x y _ => some (BitVec.ofNat 32 (fpMinMax .f32 true x.toNat y.toNat).1))] :
        List ((Scope → Ord → Instr) × (Word → Word → Word → Option Word))),
      let i := p.1 sc od
      let o := BitVec.ofNat 32 (old 4)
      acts i 4 ((p.2 o (s.gB i.shape) (s.gD i.shape)).map BitVec.toNat) (toG d o)) ∧
    (∀ p ∈ ([(Instr.amoAddD d a b, fun x y _ => some (x + y)), (Instr.amoAndD d a b, fun x y _ => some (x &&& y)),
        (Instr.amoOrD d a b, fun x y _ => some (x ||| y)), (Instr.amoXorD d a b, fun x y _ => some (x ^^^ y)),
        (Instr.amoMinD d a b, fun x y _ => some (if y.slt x then y else x)),
        (Instr.amoMaxD d a b, fun x y _ => some (if x.slt y then y else x)),
        (Instr.amoMinnD d a b, fun x y _ => some (if y.ult x then y else x)),
        (Instr.amoMaxnD d a b, fun x y _ => some (if x.ult y then y else x)),
        (Instr.amoSwpD d a b, fun _ y _ => some y),
        (Instr.amoCasD d a b, fun x y e => if x = e then some y else none),
        (Instr.amoFaddD d a b, fun x y _ => some (BitVec.ofNat 64 (fpAdd .f64 .rne x.toNat y.toNat).1)),
        (Instr.amoFminD d a b, fun x y _ => some (BitVec.ofNat 64 (fpMinMax .f64 false x.toNat y.toNat).1)),
        (Instr.amoFmaxD d a b, fun x y _ => some (BitVec.ofNat 64 (fpMinMax .f64 true x.toNat y.toNat).1))] :
        List ((Scope → Ord → Instr) × (DWord → DWord → DWord → Option DWord))),
      let i := p.1 sc od
      let o := BitVec.ofNat 64 (old 8)
      acts i 8 ((p.2 o (s.wB i.shape) (s.wD i.shape)).map BitVec.toNat) (toW d o))

/-- R134: a wait reads the value at the home of W(A), the core's own dirty bytes written back first (assumption 22). Where its
condition holds it completes, with the acquire that its order names; else it parks on the line (reason 1). -/
def Obligations.Waits : Prop :=
  ∀ (s : State) (a b : RegNo) (sc : Scope) (od : Ord) (pa : Nat), (s.core s.t.core).linesOk → Memory.wf s.mem = true →
    s.calm s.t.core → (∀ w ∈ (s.core s.t.core).sent, w.pa / 128 ≠ s.homeAddr pa / 128) → s.priors = [] →
    let c := s.t.core
    let ha := s.homeAddr pa
    ∀ p ∈ ([(Instr.waiteqW a b sc od, 4, fun sh v => decide (v = (s.gB sh).toNat)),
        (Instr.waitneW a b sc od, 4, fun sh v => decide (v ≠ (s.gB sh).toNat)),
        (Instr.waiteqD a b sc od, 8, fun sh v => decide (v = (s.wB sh).toNat)),
        (Instr.waitneD a b sc od, 8, fun sh v => decide (v ≠ (s.wB sh).toNat))] : List (Instr × Nat × (Shape → Nat → Bool))),
      let sh := p.1.shape
      let n := p.2.1
      let v := leNat ((List.range n).map fun j => s.settled c (ha + j))
      Ready s sh → s.reaches (s.wA sh) n .read pa → s.pois.contains (ha / 32) = false →
      ∃ s2 t, exec p.1 s = .next t ∧ Accessed s s2 False ∧
        (p.2.2 sh v = true → t.t = s.t ∧
          Rest (if od = .acquire ∨ od = .acqRel then s2.acquire c sc else s2) t sh []) ∧
        (p.2.2 sh v = false → Parked s2 t 1 (.line (ha / 128 * 128)))

/-- R127, R128: `ldm` and `stm` move n + 1 words between the registers from D up and memory from W(A) up, from element
`tprog` on, and leave `tprog` 0; one that stands off has moved the elements that `tprog` counts, and stands to be issued
again, before the members of its issue group that come after it (R166, assumption 7). The rules let other events come
between any two elements; that it stands off at `Frame.burst`, a free value, is assumption 7. The state is one in which every element is translated and its line is in the L1 or has room. -/
def Obligations.MultipleTransfers : Prop :=
  ∀ (s : State) (d a : RegNo) (n : BitVec 5) (pa : Nat → Nat), (s.core s.t.core).linesOk → Memory.wf s.mem = true →
    let c := s.t.core
    let ha := fun i => s.homeAddr (pa i)
    let done := s.t.tprog.toNat
    let left := fun i => done ≤ i ∧ i ≤ n.toNat
    let reach := fun (i : Instr) (k : AccKind) => ∀ e, left e →
      s.memCheck (s.wA i.shape + BitVec.ofNat 64 (4 * e)) 4 k = .ok (pa e) s ∧ s.atMemory (pa e) k = true ∧
        (∀ p da, s.place (pa e) ≠ .peer p da)
    let stops := fun (b : Nat) => s.fr.burst = some b ∧ done + b < n.toNat
    let standsOff := fun (b : Nat) (t : State) =>
      t.t = { s.t with
        regs := t.t.regs, wfilter := t.t.wfilter, pc := s.fr.first, landed := s.fr.landed
        tprog := BitVec.ofNat 32 (done + b + 1), xfer := t.t.xfer } ∧
      t.fr = { s.fr with stopped := true, again := true, waits := true } ∧ t.clusters = s.clusters ∧ t.mem = s.mem ∧
      t.issue = s.issue
    (∃ m₁ m₂, ∀ e, left e → (ha e / 128 = m₁ ∨ ha e / 128 = m₂) ∧
      (((s.core c).line? (ha e / 128)).isSome = true ∨ ((s.core c).setOf (ha e / 128)).length + 2 ≤ 8)) →
    s.t.det = false → s.priors = [] →
    (Ready s (Instr.ldm d a n).shape → s.fr.late = false → (s.wA (Instr.ldm d a n).shape).toNat % 4 = 0 → reach (.ldm d a n) .read →
      (∀ e, left e → s.seenPois c (ha e) = false) →
      let loaded := fun (t : State) (upTo : Nat) =>
        (∀ e, left e → e ≤ upTo → d.toNat + e ≠ 0 → t.t.regs[d.toNat + e]! =
          { val := BitVec.ofNat 32 (leNat ((List.range 4).map fun j => s.seen c (ha e + j))), pois := s.struck }) ∧
        (∀ r, (∀ e, left e → e ≤ upTo → r ≠ d.toNat + e) ∨ r = 0 → t.t.regs[r]! = s.t.regs[r]!) ∧
        (∀ x, t.seen c x = s.seen c x)
      ((∀ b, ¬ stops b) → ∃ t, exec (.ldm d a n) s = .next t ∧
        t.t = { s.t with regs := t.t.regs, tprog := 0#32, xfer := none } ∧ t.fr = s.fr ∧
        t.clusters = s.clusters ∧ (s.src.usesQueue (Instr.ldm d a n).shape = false → t.mem = s.mem) ∧ loaded t n.toNat) ∧
      ∀ b, stops b → ∃ t, exec (.ldm d a n) s = .next t ∧ standsOff b t ∧ t.t.wfilter = s.t.wfilter ∧
        loaded t (done + b)) ∧
    (Ready s (Instr.stm d a n).shape → Ready s (stmShape d a n (min done (n.toNat + 1))) →
      (s.wA (Instr.stm d a n).shape).toNat % 4 = 0 → reach (.stm d a n) .write →
      (∀ e, left e → s.regionH (ha e) = false ∧ ∀ l ∈ (s.core c).l1, l.n = ha e / 128 → l.h = false) →
      (∀ e f, left e → left f → ha e = ha f → e = f) →
      let stored := fun (t : State) (upTo : Nat) =>
        (∀ f, t.t.wfilter.getLsbD f = true ↔ s.t.wfilter.getLsbD f = true ∨
          ∃ e, left e ∧ e ≤ upTo ∧ (sigBits (s.sigLine (pa e))).getLsbD f = true) ∧
        (∀ e j, left e → e ≤ upTo → j < 4 → t.seen c (ha e + j) =
          BitVec.ofNat 8 ((s.reg (d.toNat + e)).toNat / 2 ^ (8 * j))) ∧
        (∀ x, (∀ e j, left e → e ≤ upTo → j < 4 → x ≠ ha e + j) → t.seen c x = s.seen c x)
      ((∀ b, ¬ stops b) → ∃ t, exec (.stm d a n) s = .next t ∧
        t.t = { s.t with tprog := 0#32, xfer := none, wfilter := t.t.wfilter } ∧ t.fr = s.fr ∧ t.clusters = s.clusters ∧
        stored t n.toNat) ∧
      ∀ b, stops b → ∃ t, exec (.stm d a n) s = .next t ∧ standsOff b t ∧ t.t.regs = s.t.regs ∧ stored t (done + b))

/-- R271, R275 to R277: a sync-cell operation reads the cell at the home of W(A) and delivers its old VALUE; `srel`
and `sadd` write the cell, and so does a `scas` whose expected value is the old one. Wider than the core, the core's
dirty bytes of the line are written back first, the cell takes the releaser's clave and horizon, subject to the
saturation rule, and the acquirer folds in the cell's, and its core's L1 writes back and invalidates the lines of
software-managed regions that hit the cell's clave or are older than its horizon, and no other; at core scope nothing is
written back and no line goes, and HORIZON, CLAVE, S and HT stay. A writing operation leaves bytes 32 to 63 zero and no
sector of the line poisoned. R378: the time is that of the cell's home, which for a peer's cell is a free value (assumption 10). At core scope the old
cell is the home's with the core's own dirty bytes over it (assumption 22). -/
def Obligations.SyncCells : Prop :=
  ∀ (s : State) (d a b : RegNo) (sc : Scope) (pa : Nat), (s.core s.t.core).linesOk → Memory.wf s.mem = true →
    s.calm s.t.core → (s.core s.t.core).sent = [] → s.priors = [] →
    let c := s.t.core
    let ha := s.homeAddr pa
    let old := cellOf ((List.range 128).map fun j => s.settled c (ha + j))
    let home := cellOf ((List.range 128).map fun j => cellRead s.mem (ha + j))
    let k := s.t.wfilter ||| (((s.core c).l1.filter fun l => l.n != ha / 128 && l.dirty != 0#128).foldl
      (fun f l => f ||| sigBits (s.sigLine (128 * l.n))) 0#512)
    let h := maxTime s.t.ht (s.core c).am
    let full := fun x : BitVec 512 => 160 < popBits x.toNat 512
    ∀ p ∈ ([(Instr.srel d a sc, AccKind.atomic, some (s.wD (Instr.srel d a sc).shape, k, h), []),
        (Instr.sacq d a sc, AccKind.syncRead, none, toW d old.value),
        (Instr.sadd d a b sc, AccKind.atomic, some (old.value + s.wB (Instr.sadd d a b sc).shape, old.clave ||| k,
          maxTime old.horizon h), toW d old.value),
        (Instr.scas d a b sc, AccKind.atomic,
          if old.value = s.wD (Instr.scas d a b sc).shape then
            some (s.wB (Instr.scas d a b sc).shape, old.clave ||| k, maxTime old.horizon h) else none,
          toW d old.value)] : List (Instr × AccKind × Option (DWord × BitVec 512 × DWord) × List (Nat × Word))),
      let i := p.1
      Ready s i.shape → s.reaches (s.wA i.shape) 128 p.2.1 pa →
      (i = .srel d a sc ∨ ∀ m, m < 4 → s.pois.contains (ha / 32 + m) = false) →
      ∃ s2 t now, exec i s = .next t ∧ Wrote s2 t i.shape p.2.2.2 noFlags ∧ s2.fr = s.fr ∧
        ((∀ q da, s.place pa ≠ .peer q da) → now = s.stime) ∧
        (∀ e, (s2.core e).queues = (s.core e).queues) ∧
        (match p.2.2.1 with
          | none => ∀ j, j < 128 →
            cellRead s2.mem (ha + j) = if sc = .core then cellRead s.mem (ha + j) else s.settled c (ha + j)
          | some w =>
            let new := cellOf ((List.range 128).map fun j => cellRead s2.mem (ha + j))
            new.value = w.1 ∧ new.rtime = now ∧ new.gen = old.gen + 1#32 ∧
            (sc = .core → new.horizon = home.horizon ∧ new.clave = home.clave) ∧
            (sc ≠ .core → new.horizon = (if full w.2.1 then now else w.2.2) ∧
              new.clave = (if full w.2.1 then 0#512 else w.2.1)) ∧
            cellRead s2.mem (ha + 24) = (if sc ≠ .core ∧ full w.2.1 then 3#8 else 1#8) ∧
            (∀ j, 32 ≤ j → j < 64 → cellRead s2.mem (ha + j) = 0#8) ∧
            ∀ m, m < 4 → s2.pois.contains (ha / 32 + m) = false) ∧
        (∀ l ∈ (s.core c).l1, sc = .core ∨ l.n ≠ ha / 128 →
          if sc ≠ .core ∧ i ≠ .srel d a sc ∧ l.h = false ∧
              (sigHit old.clave (s.sigLine (128 * l.n)) = true ∨ s.older l (sweepHorizon old.horizon.toNat) = true) then
            (s2.core c).line? l.n = none ∧
              ∀ q, q < 128 → l.dirty.getLsbD q = true → l.data[q]? = some (cellRead s2.mem (128 * l.n + q))
          else ∃ m, (s2.core c).line? l.n = some m ∧ (l.h = false → l.n ≠ ha / 128 → m.data = l.data ∧ m.valid = l.valid)) ∧
        (∀ x, x / 128 ≠ ha / 128 →
          cellRead s2.mem x = cellRead s.mem x ∨ (sc ≠ .core ∧ WasDirty s c x (cellRead s2.mem x))) ∧
        (sc ≠ .core → i ≠ .sacq d a sc → ∀ x v, x / 128 ≠ ha / 128 → WasDirty s c x v →
          cellRead s2.mem x = v) ∧
        (sc ≠ .core → ∀ l, (s2.core c).line? (ha / 128) ≠ some l) ∧
        s2.t = (if sc = .core then s.t
          else if i = .srel d a sc then { s.t with wfilter := 0#512, ht := now }
          else if full (s.t.wfilter ||| old.clave) then
            { s.t with ht := maxTime (maxTime s.t.ht old.rtime) old.horizon }
          else { s.t with wfilter := s.t.wfilter ||| old.clave, ht := maxTime s.t.ht old.horizon })

/-- Where the loads, stores, atomics, waits and sync-cell operations of global memory trap or park, with the address and
the size of each and what it needs of its page (R13, R120, R130, R134, R275): an address that is not a multiple of the size
traps ALIGN, one that is not canonical ADDR, a page that does not permit the access PROT (R144, R148, R296), each with the
address in `tval`; a page that is being migrated, or one without a translation that is outstanding already, parks the
thread on the page (R299, R300). A scratchpad access traps SCRB below address 0 and beyond the launch's bytes, and ALIGN
at an address that is no multiple of its size, the messages of the mesh among them (R121, R344 to R346); an `ldm` or `stm`
at an address that is no multiple of 4 traps ALIGN (R127). R368: an aligned 8-byte access to a register block that the block's target grants reads
the register, and a write reaches it as an event that is appended to the agenda (assumption 3). -/
def Obligations.AccessChecks : Prop :=
  (∀ (s : State) (d a b : RegNo) (imm : BitVec 9) (sc : Scope) (od : Ord), s.t.tr = false →
     let plain := fun (i : Space → BitVec 9 → Instr) (n : Nat) (k : AccKind) =>
       (i .global imm, n, k, s.wA (i .global imm).shape + BitVec.ofInt 64 (imm.toInt * n))
     let at_ := fun (i : Instr) (n : Nat) (k : AccKind) => (i, n, k, s.wA i.shape)
     ∀ p ∈ [plain (Instr.ld8s d a) 1 .read, plain (Instr.ld8z d a) 1 .read, plain (Instr.ld16s d a) 2 .read,
         plain (Instr.ld16z d a) 2 .read, plain (Instr.ld32 d a) 4 .read, plain (Instr.ld64 d a) 8 .read,
         plain (Instr.ld128 d a) 16 .read, plain (Instr.st8 d a) 1 .write, plain (Instr.st16 d a) 2 .write,
         plain (Instr.st32 d a) 4 .write, plain (Instr.st64 d a) 8 .write, plain (Instr.st128 d a) 16 .write,
         at_ (.ld8sOrd d a sc od) 1 .read, at_ (.ld8zOrd d a sc od) 1 .read, at_ (.ld16sOrd d a sc od) 2 .read,
         at_ (.ld16zOrd d a sc od) 2 .read, at_ (.ld32Ord d a sc od) 4 .read, at_ (.ld64Ord d a sc od) 8 .read,
         at_ (.ld128Ord d a sc od) 16 .read, at_ (.st8Ord d a sc od) 1 .write, at_ (.st16Ord d a sc od) 2 .write,
         at_ (.st32Ord d a sc od) 4 .write, at_ (.st64Ord d a sc od) 8 .write, at_ (.st128Ord d a sc od) 16 .write,
         at_ (.amoAddW d a b sc od) 4 .atomic, at_ (.amoAddD d a b sc od) 8 .atomic,
         at_ (.amoAndW d a b sc od) 4 .atomic, at_ (.amoAndD d a b sc od) 8 .atomic,
         at_ (.amoOrW d a b sc od) 4 .atomic, at_ (.amoOrD d a b sc od) 8 .atomic,
         at_ (.amoXorW d a b sc od) 4 .atomic, at_ (.amoXorD d a b sc od) 8 .atomic,
         at_ (.amoMinW d a b sc od) 4 .atomic, at_ (.amoMinD d a b sc od) 8 .atomic,
         at_ (.amoMaxW d a b sc od) 4 .atomic, at_ (.amoMaxD d a b sc od) 8 .atomic,
         at_ (.amoMinnW d a b sc od) 4 .atomic, at_ (.amoMinnD d a b sc od) 8 .atomic,
         at_ (.amoMaxnW d a b sc od) 4 .atomic, at_ (.amoMaxnD d a b sc od) 8 .atomic,
         at_ (.amoSwpW d a b sc od) 4 .atomic, at_ (.amoSwpD d a b sc od) 8 .atomic,
         at_ (.amoCasW d a b sc od) 4 .atomic, at_ (.amoCasD d a b sc od) 8 .atomic,
         at_ (.amoFaddW d a b sc od) 4 .atomic, at_ (.amoFaddD d a b sc od) 8 .atomic,
         at_ (.amoFminW d a b sc od) 4 .atomic, at_ (.amoFminD d a b sc od) 8 .atomic,
         at_ (.amoFmaxW d a b sc od) 4 .atomic, at_ (.amoFmaxD d a b sc od) 8 .atomic,
         at_ (.waiteqW a b sc od) 4 .read, at_ (.waitneW a b sc od) 4 .read, at_ (.waiteqD a b sc od) 8 .read,
         at_ (.waitneD a b sc od) 8 .read, at_ (.srel d a sc) 128 .atomic, at_ (.sacq d a sc) 128 .syncRead,
         at_ (.sadd d a b sc) 128 .atomic, at_ (.scas d a b sc) 128 .atomic],
       let va := p.2.2.2
       let n := p.2.1
       let k := p.2.2.1
       let page := s.lookupCore s.t.core false s.t.asn va
       Ready s p.1.shape →
       (va.toNat % n ≠ 0 → ∃ t, exec p.1 s = .next t ∧ TrapTaken s t 3 va) ∧
       (va.toNat % n = 0 → ¬ (va.toNat < 2 ^ 56 ∨ 2 ^ 64 - 2 ^ 56 ≤ va.toNat) →
         ∃ t, exec p.1 s = .next t ∧ TrapTaken s t 4 va) ∧
       (va.toNat % n = 0 → s.t.boot = false → (va.toNat < 2 ^ 56 ∨ 2 ^ 64 - 2 ^ 56 ≤ va.toNat) → s.walkerFree →
         (∀ e, page.1 = .hit e → e.permits s.t.mode k = false →
           ∃ s2 t, exec p.1 s = .next t ∧ Accessed s s2 True ∧ TrapTaken s2 t 6 va) ∧
         (page.1 = .mig →
           ∃ s2 t, exec p.1 s = .next t ∧ Accessed s s2 True ∧ Parked s2 t 6 (.page s.t.asn (vpnOf va))) ∧
         (page.1 = .miss →
           (s.die (s.t.core / 512)).outst.contains (s.t.asn, vpnOf va) = true →
           ∃ s2 t, exec p.1 s = .next t ∧ Accessed s s2 True ∧ Parked s2 t 6 (.page s.t.asn (vpnOf va))))) ∧
  (∀ (s : State) (d a : RegNo) (imm : BitVec 9) (pa : Nat) (s' : State),
     let rd := Instr.ld64 d a .global imm
     let wr := Instr.st64 d a .global imm
     let va := fun sh => s.wA sh + BitVec.ofInt 64 (imm.toInt * 8)
     (s.place pa).isBlock = true → s.priors = [] →
     (Ready s rd.shape → s.memCheck (va rd.shape) 8 .read = .ok pa s' → s.granted s.t.master pa .read = true →
       s.t.det = false ∨ s.t.sbuf = [] →
       ∃ s2 t, exec rd s = .next t ∧ Accessed s s2 True ∧ Wrote s2 t rd.shape (toW d (s.regRead (s.place pa))) noFlags) ∧
     (Ready s wr.shape → s.memCheck (va wr.shape) 8 .write = .ok pa s' → s.granted s.t.master pa .write = true →
       s.t.det = false →
       ∃ s2 t, exec wr s = .next t ∧ Accessed s s2 True ∧ t.t = s.t ∧
         Rest { s2 with agenda := s2.agenda ++ [.registerWrite (some s.t.master) pa (s.wD wr.shape)] } t wr.shape [])) ∧
  (∀ (s : State) (d a b : RegNo) (imm : BitVec 9) (n : BitVec 5), s.t.tr = false →
     (∀ sp ∈ [Space.scratchLocal, .interleave],
       ∀ p ∈ ([(Instr.ld8s d a, 1), (Instr.ld8z d a, 1), (Instr.ld16s d a, 2), (Instr.ld16z d a, 2), (Instr.ld32 d a, 4),
           (Instr.ld64 d a, 8), (Instr.ld128 d a, 16), (Instr.st8 d a, 1), (Instr.st16 d a, 2), (Instr.st32 d a, 4),
           (Instr.st64 d a, 8), (Instr.st128 d a, 16)] : List ((Space → BitVec 9 → Instr) × Nat)),
         let i := p.1 sp imm
         let x : Int := ((s.gA i.shape).toNat : Int) + imm.toInt * p.2
         Ready s i.shape →
         (x < 0 → ∃ t, exec i s = .next t ∧ TrapTaken s t 5 (BitVec.ofInt 64 x)) ∧
         (0 ≤ x → x.toNat % p.2 ≠ 0 → ∃ t, exec i s = .next t ∧ TrapTaken s t 3 (BitVec.ofNat 64 x.toNat)) ∧
         (0 ≤ x → x.toNat % p.2 = 0 → s.scratchBytes < x.toNat + p.2 →
           ∃ t, exec i s = .next t ∧ TrapTaken s t 5 (BitVec.ofNat 64 x.toNat))) ∧
     (Ready s (Instr.ldm d a n).shape → (s.wA (Instr.ldm d a n).shape).toNat % 4 ≠ 0 →
       ∃ t, exec (.ldm d a n) s = .next t ∧ TrapTaken s t 3 (s.wA (Instr.ldm d a n).shape)) ∧
     (Ready s (Instr.stm d a n).shape → Ready s (stmShape d a n (min s.t.tprog.toNat (n.toNat + 1))) →
       (s.wA (Instr.stm d a n).shape).toNat % 4 ≠ 0 →
       ∃ t, exec (.stm d a n) s = .next t ∧ TrapTaken s t 3 (s.wA (Instr.stm d a n).shape)) ∧
     (s.t.kept = none →
       ∀ p ∈ [(Instr.nsend a b, sendOk (s.gA (shSend a b)).toNat, (s.gB (shSend a b)).toNat),
           (.nmcast a b, mcastOk (s.gA (shSend a b)).toNat, (s.gB (shSend a b)).toNat),
           (.nrecv d a, true, (s.gA (Instr.nrecv d a).shape).toNat)],
         Ready s p.1.shape → p.2.1 = true →
         (p.2.2 % 64 ≠ 0 → ∃ t, exec p.1 s = .next t ∧ TrapTaken s t 3 (BitVec.ofNat 64 p.2.2)) ∧
         (p.2.2 % 64 = 0 → s.scratchBytes < p.2.2 + 64 →
           ∃ t, exec p.1 s = .next t ∧ TrapTaken s t 5 (BitVec.ofNat 64 p.2.2))))

/-- R184 to R192: `spawn` counts its child at the join block in W(A), pushes its continuation as the newest entry of
the core's deque, and goes to the child; `join` completes once PEND is 0 and parks until then; `tdone` counts the end
of a child and resumes the newest continuation that its thread owns, retires where the newest entry is a stub, and exits
where there is none; an entry in the overflow area is read back first (R187). The core's own dirty bytes reach the home
before the block is read there (assumption 22). -/
def Obligations.JoinBlocks : Prop :=
  ∀ (s : State) (a : RegNo) (off : BitVec 17) (pa : Nat), (s.core s.t.core).linesOk → Memory.wf s.mem = true →
    s.calm s.t.core → (s.core s.t.core).sent = [] → s.priors = [] →
    let c := s.t.core
    let ha := s.homeAddr pa
    let pend := leNat ((List.range 8).map fun j => s.settled c (ha + j))
    let next := BitVec.ofNat 64 (leNat ((List.range 8).map fun j => s.settled c (ha + 8 + j)))
    let block := fun x => ha ≤ x ∧ x < ha + 16
    let free := s.pois.contains (ha / 32) = false
    let holds := fun (m : List Host.Cell) (p q : DWord) =>
      (∀ j, j < 8 → cellRead m (ha + j) = BitVec.ofNat 8 (p.toNat / 2 ^ (8 * j)) ∧
        cellRead m (ha + 8 + j) = BitVec.ofNat 8 (q.toNat / 2 ^ (8 * j))) ∧
      ∀ x, ¬ block x → cellRead m x = s.settled c x
    (let sh := (Instr.spawn a off).shape
     let target := s.fr.first + BitVec.ofInt 64 (4 * off.toInt)
     let e : Entry :=
       { kind := 1, pc := s.fr.next, join := s.wA sh, path := pathStep s.t.path (2#64 * next), sp := (s.src.regs[2]!).val,
         fp := (s.src.regs[3]!).val, tix := s.t.tix, lid := s.t.lid, owner := s.t.handle, sidx := next.extractLsb' 0 32,
         asn := s.t.asn, mode := s.t.mode, seq := s.inserted }
     Ready s sh → GoodTarget true s.fr.first target → s.reaches (s.wA sh) 16 .atomic pa → free → s.t.det = false →
     ((s.core c).deque.filter fun e => e.slot.isNone).length < 64 →
     ∃ t, exec (.spawn a off) s = .next t ∧
       t.t = { s.t with path := pathStep s.t.path (2#64 * next + 1#64), pc := target, landed := true } ∧
       holds t.mem (BitVec.ofNat 64 pend + 1#64) (next + 1#64) ∧ (t.core c).deque = (s.core c).deque ++ [e] ∧
       (∀ q, t.entries c q = (s.entries c q).drop ((s.src.pops sh).count q))) ∧
    (let sh := (Instr.join a).shape
     Ready s sh → s.reaches (s.wA sh) 16 .read pa → free →
     ∃ s2 t, exec (.join a) s = .next t ∧ Accessed s s2 False ∧
       (pend = 0 → t.t = s.t ∧ Rest (s2.acquire c .system) t sh []) ∧
       (pend ≠ 0 → Parked s2 t 3 (.join (ha / 128 * 128)))) ∧
    (let owned := (s.core c).owned s.t.handle
     Ready s Instr.tdone.shape →
     (owned = [] → ∃ t, exec .tdone s = .next t ∧ t.t.life = .exited) ∧
     (∀ e, owned.getLast? = some e → e.kind ≠ 1 → (∃ s', s.meetEntry e = .ok .unit s') → s.reaches e.join 16 .atomic pa → free →
       ∃ s1 : State, exec .tdone s = .next (s1.retire s.t.ckey) ∧ s1.t = s.t ∧ (s1.retire s.t.ckey).t.life = .exited ∧
         holds s1.mem (BitVec.ofNat 64 pend - 1#64) next ∧ (s1.core c).deque = (s.core c).deque.filter fun x => x ≠ e) ∧
     ∀ e, owned.getLast? = some e → e.kind = 1 → (∃ s', s.meetEntry e = .ok .unit s') → s.reaches e.join 16 .atomic pa → free →
       ∃ t, exec .tdone s = .next t ∧
         t.t = { s.t with path := e.path, pc := e.pc, landed := true, regs := t.t.regs } ∧
         t.t.regs[2]! = { val := e.sp, pois := s.struck } ∧ t.t.regs[3]! = { val := e.fp, pois := s.struck } ∧
         (∀ r, r ≠ 2 → r ≠ 3 → t.t.regs[r]! = s.t.regs[r]!) ∧
         holds t.mem (BitVec.ofNat 64 pend - 1#64) next ∧ (t.core c).deque = (s.core c).deque.filter fun x => x ≠ e)

/-- R137, R196, R197: `exit` retires the thread, with its core's dirty bytes at their homes; `tkill` marks its own
thread, a spilled one, or one whose bundle is still to issue in the same cycle (R37), and retires another one; `tresume` sends a faulted thread on. A handle that names no such
thread has no effect. -/
def Obligations.ThreadEnds : Prop :=
  ∀ (s : State), (s.core s.t.core).linesOk → Memory.wf s.mem = true → (s.ctxs.map Prod.fst).Pairwise (· < ·) →
    (∀ p ∈ s.ctxs, p.2.ckey = p.1 ∧ p.1 ≠ s.t.ckey) →
    (Ready s Instr.exit.shape →
      ∃ t, exec .exit s = .next t ∧ t.t.life = .exited ∧ t.thread? s.t.ckey = none ∧
        (s.calm s.t.core → (s.core s.t.core).sent = [] →
          (s.core s.t.core).owned s.t.handle = [] → (s.release s.t.core .system).tokensOf s.t.handle = [] →
          ∀ x, cellRead t.mem x = s.settled s.t.core x)) ∧
    (∀ (a : RegNo), let i := Instr.tkill a
      let s1 := s.fin i.shape
      Ready s i.shape → ∃ t, exec i s = .next t ∧
        (s1.taskTarget (s.gA i.shape) = none → t.t = s.t ∧ Rest s t i.shape []) ∧
        (∀ th, s1.taskTarget (s.gA i.shape) = some th →
          (th.ckey = s.t.ckey → t.t = { s.t with killPend := true }) ∧
          (th.ckey ≠ s.t.ckey → th.life = .spilled →
            t.t = s.t ∧ t.thread? th.ckey = some { th with killPend := true, reflag := true }) ∧
          (th.ckey ≠ s.t.ckey → th.life ≠ .spilled →
            (th.ckey ∉ s.issue → t.thread? th.ckey = none) ∧
            (th.ckey ∈ s.issue → t.t = s.t ∧ t.thread? th.ckey = some { th with killPend := true })))) ∧
    (∀ (a : RegNo), let i := Instr.tresume a
      Ready s i.shape →
        ((s.taskTarget (s.gA i.shape) = none ∨ ∃ th, s.taskTarget (s.gA i.shape) = some th ∧ th.frec = none) →
          ∃ t, exec i s = .next t ∧ t.t = s.t ∧ Rest s t i.shape []) ∧
        ∀ th r target s3, s.taskTarget (s.gA i.shape) = some th → th.frec = some r → s.resumeOf th r = .ok target s3 →
          GoodTarget false s.fr.first target → th.life ≠ .spilled → th.ckey ≠ s.t.ckey →
          ∃ t th', exec i s = .next t ∧ t.t = s.t ∧ t.thread? th.ckey = some th' ∧
            th' = { th with
              tctl := th'.tctl, pc := target, landed := true, frec := none, park := none, wake := false, kept := none
              resumeAt := none, life := if th.halted || s.held th.lid then .suspended else .running, suspAt := s.ticks } ∧
            (th.tr = true → th'.tr = false ∧ th'.mode = th.pmode) ∧ (th.tr = false → th'.tctl = th.tctl))

/-- R230, R231: a `conv` with fewer arrivals than its count parks with its arrival recorded (reason 4); the last
arrival forms the group, and every member takes its rank in the order of (`tix`, `path`) as `grank` and in D, and the
count as `gsize`. R236: `gdis` leaves the group after a release; the thread has no group, rank or size after it, and
its rank has departed. Every group operation in each of its forms, `gdis` too, traps ILL outside a group. -/
def Obligations.Convocations : Prop :=
  (∀ (s : State) (d a b : RegNo), (s.core s.t.core).linesOk → Memory.wf s.mem = true →
     let c := s.t.core
     let i := Instr.conv d a b
     let n := (s.gB i.shape).toNat
     let key := s.wA i.shape
     let cl := c / 8
     (∀ gid g k, s.t.kept = some k → k.kind = .conv gid → Ready s (recorded i.shape) → s.group? cl gid = some g →
       (g.formed = false → ∃ t, exec i s = .next t ∧ Parked s t 4 (.group cl gid)) ∧
       (g.formed = true →
         let r := BitVec.ofNat 32 (g.members.idxOf s.t.ckey)
         let s2 := s.acquire c .cluster
         ∃ t, exec i s = .next t ∧
           Wrote { s2 with t := { s.t with kept := none, grank := r, gsize := BitVec.ofNat 32 g.n } } t (recorded i.shape)
             (toG d r) noFlags)) ∧
     (∀ gid g, s.t.kept = none → Ready s i.shape → s.t.gsize = 0#32 → (key.toNat < 2 ^ 56 ∨ 2 ^ 64 - 2 ^ 56 ≤ key.toNat) →
       key.toNat % 8 = 0 → 0 < n → n ≤ 1024 →
       ((s.cluster cl).groups.find? (fun p => !p.2.formed && p.2.lid == s.t.lid && p.2.key == key) = some (gid, g) ∧ g.n = n ∨
         (s.cluster cl).groups.find? (fun p => !p.2.formed && p.2.lid == s.t.lid && p.2.key == key) = none ∧
         gid = freshKey 0 (s.cluster cl).groups ∧ gid < 64 ∧ g = { lid := s.t.lid, key := key, n := n }) →
       let keys := (sortBy Thread.before ((g.members ++ [s.t.ckey]).filterMap s.thread?)).map Thread.ckey
       let r := keys.idxOf s.t.ckey
       (g.members.length + 1 ≠ n → ∃ t, exec i s = .next t ∧ t.fr.stopped = true ∧ t.t.life = .parked ∧
         t.t.park = some { reason := 4, key := .group cl gid } ∧ t.t.pc = s.fr.first ∧ t.t.regs = s.t.regs ∧
         t.t.kept = some { kind := .conv gid, a := key, b := BitVec.ofNat 64 n } ∧
         t.group? cl gid = some { g with members := g.members ++ [s.t.ckey] }) ∧
       (g.members.length + 1 = n → ∃ t, exec i s = .next t ∧
         t.t = { s.t with grank := BitVec.ofNat 32 r, gsize := BitVec.ofNat 32 n, gid := some gid, gops := 0, regs := t.t.regs } ∧
         (d ≠ 0 → s.src.isQueue d.toNat = false → t.t.regs[d.toNat]! = { val := BitVec.ofNat 32 r, pois := s.struck }) ∧
         (∀ q, q ≠ d.toNat → t.t.regs[q]! = s.t.regs[q]!) ∧
         t.group? cl gid = some { g with formed := true, members := keys } ∧
         (s.calm c → (s.core c).sent = [] → ∀ x, cellRead t.mem x = s.settled c x))) ∧
     (s.t.kept = none → Ready s i.shape → s.t.tr = false → s.t.gsize ≠ 0#32 ∨ n = 0 ∧ key.toNat % 8 = 0 ∧ key.toNat < 2 ^ 56 →
       ∃ t, exec i s = .next t ∧ TrapTaken s t 1 (s.fr.word.setWidth 64))) ∧
  (∀ (s : State) (d a b : RegNo), (s.core s.t.core).linesOk → Memory.wf s.mem = true → s.t.kept = none →
     (s.t.gsize ≠ 0#32 → Ready s Instr.gdis.shape →
       ∃ t, exec .gdis s = .next t ∧ t.t = { s.t with grank := 0#32, gsize := 0#32, gid := none, gops := 0 } ∧
         (s.calm s.t.core → (s.core s.t.core).sent = [] →
           ∀ x, cellRead t.mem x = s.settled s.t.core x) ∧
         ∀ gid g, (s.cluster (s.t.core / 8)).groups = [(gid, g)] → g.formed = true → s.t.ckey ∈ g.members →
           g.members.idxOf s.t.ckey ∉ g.departed → g.departed.length + 1 < g.n →
           t.group? (s.t.core / 8) gid = some { g with departed := sinsert (g.members.idxOf s.t.ckey) g.departed }) ∧
     (s.t.gsize = 0#32 → s.t.tr = false → ∀ i ∈ [Instr.gdis, .gbar, .gbc d a b, .gbcD d a b, .gredAddF32 d a, .gredAddF64 d a, .gredCaddF32 d a, .gredAddI32 d a,
         .gredAddI64 d a, .gredMaxF32 d a, .gredMinF32 d a, .gredMaxF64 d a, .gredMinF64 d a, .gredMaxI32 d a,
         .gredMinI32 d a, .gredAnd d a, .gredOr d a, .gredXor d a],
       Ready s i.shape → ∃ t, exec i s = .next t ∧ TrapTaken s t 1 (s.fr.word.setWidth 64)))

/-- R232 to R235: a group operation records its arrival after a release, and parks (reason 4) until every member has
arrived or departed; then each takes the result: the root's value of a broadcast, or the reduction over the ranks by
the tree of R57. Arrivals that differ in the operation or the root, or name a root that is no rank, trap ILL in each of the
members, whose count of operations has gone on. -/
def Obligations.GroupOperations : Prop :=
  ∀ (s : State) (d a b : RegNo) (gid : Nat) (g : Group), (s.core s.t.core).linesOk → Memory.wf s.mem = true →
    s.t.gid = some gid → s.group? (s.t.core / 8) gid = some g → s.t.gsize ≠ 0#32 →
    let c := s.t.core
    let cl := c / 8
    let low := fun r : DWord => toG d (r.extractLsb' 0 32)
    let gred := fun (op : RedOp) (i : Instr) => (i, GKind.red op, (s.gA i.shape).setWidth 64, 0#64, low)
    let wred := fun (op : RedOp) (i : Instr) => (i, GKind.red op, s.wA i.shape, 0#64, toW d)
    ∀ p ∈ ([(Instr.gbar, GKind.bar, 0#64, 0#64, fun _ => []),
        (Instr.gbc d a b, GKind.bcast, (s.gA (Instr.gbc d a b).shape).setWidth 64, (s.gB (Instr.gbc d a b).shape).setWidth 64,
          low),
        (Instr.gbcD d a b, GKind.bcast64, s.wA (Instr.gbcD d a b).shape, (s.gB (Instr.gbcD d a b).shape).setWidth 64,
          toW d),
        gred .addF32 (.gredAddF32 d a), wred .addF64 (.gredAddF64 d a), wred .caddF32 (.gredCaddF32 d a),
        gred .addI32 (.gredAddI32 d a), wred .addI64 (.gredAddI64 d a), gred .maxF32 (.gredMaxF32 d a),
        gred .minF32 (.gredMinF32 d a), wred .maxF64 (.gredMaxF64 d a), wred .minF64 (.gredMinF64 d a),
        gred .maxI32 (.gredMaxI32 d a), gred .minI32 (.gredMinI32 d a), gred .and (.gredAnd d a), gred .or (.gredOr d a),
        gred .xor (.gredXor d a)] : List (Instr × GKind × DWord × DWord × (DWord → List (Nat × Word)))),
      let sh := p.1.shape
      let kind := p.2.1
      let v := p.2.2.1
      let root := p.2.2.2.1
      let ws := p.2.2.2.2
      let op := s.t.gops
      let arr : GArrival := { rank := s.t.grank.toNat, op := op, kind := kind, root := root.toNat, v := v }
      let all := fun (g : Group) => ∀ r, r < g.n → r ∈ g.departed ∨ ∃ x ∈ g.arrivals, x.rank = r ∧ x.op = op
      let same := fun (g : Group) => ∀ x ∈ g.arrivals, x.op = op → x.kind = kind ∧ x.root = arr.root ∧ arr.root < g.n
      let val := fun (g : Group) (r : Nat) => ((g.arrivals.filter fun x => x.op == op).find? fun x => x.rank == r).map (·.v)
      let result := fun (g : Group) => match kind with
        | .bar => 0#64
        | .bcast | .bcast64 => (val g arr.root).getD 0#64
        | .red o => BitVec.ofNat 64 (o.reduce ((List.range g.n).map fun r => (val g r).map BitVec.toNat))
      let differs := ∃ s1 t, exec p.1 s = .next t ∧ s1.t = { s.t with kept := none, gops := op + 1 } ∧ s1.fr = s.fr ∧
        TrapTaken s1 t 1 (s.fr.word.setWidth 64)
      (∀ k, s.t.kept = some k → k.kind = .groupOp → Ready s (recorded sh) → arr ∈ g.arrivals →
        (∀ x ∈ g.arrivals, x.op = op → x.rank = arr.rank → x = arr) →
        (¬ all g → ∃ t, exec p.1 s = .next t ∧ Parked s t 4 (.group cl gid)) ∧
        (all g → same g → ∃ t, exec p.1 s = .next t ∧
          t.t = { s.t with kept := none, gops := op + 1, regs := t.t.regs } ∧ RegsWritten s t (ws (result g))) ∧
        (all g → ¬ same g → s.t.tr = false → differs)) ∧
      (s.t.kept = none → Ready s sh → (∀ x ∈ g.arrivals, x.op = op → x.rank ≠ arr.rank) →
        let g' : Group := { g with arrivals := g.arrivals ++ [arr] }
        (¬ all g' → ∃ t, exec p.1 s = .next t ∧ t.fr.stopped = true ∧ t.t.life = .parked ∧
          t.t.park = some { reason := 4, key := .group cl gid } ∧ t.t.pc = s.fr.first ∧ t.t.regs = s.t.regs ∧
          t.t.kept = some { kind := .groupOp, a := v, b := root } ∧ t.group? cl gid = some g') ∧
        (all g' → same g' → ∃ t, exec p.1 s = .next t ∧
          t.t = { s.t with gops := op + 1, regs := t.t.regs } ∧ RegsWritten s t (ws (result g')) ∧
          (s.calm c → (s.core c).sent = [] → ∀ x, cellRead t.mem x = s.settled c x)) ∧
        (all g' → ¬ same g' → s.t.tr = false → differs))

/-- R206 to R210, R24: the ring instructions on a bound handle wait for slots (park reason 2), advance the producer or
the consumer pointer, and give the address or the bytes of a slot; slots that `radvp` fills advance the ring in the order
of their claims, and slots that `radvc` gives back hold no bytes; more slots than the ring has, a slot beyond its last one,
or a handle that is not bound, trap ILL. R173, R174, R207: `rbind` binds a ring handle to the entry of its launch and logical number,
which it makes where there is none, or unbinds it; `qbind` binds a queue register to a physical queue in the same way.
-/
def Obligations.RingsAndBindings : Prop :=
  (∀ (s : State) (d a b : RegNo), (s.core s.t.core).linesOk → Memory.wf s.mem = true →
     let c := s.t.core
     let cl := c / 8
     (∀ i r, s.t.rings[d.toNat]! = some i → s.ring? cl i.toNat = some r →
       let filled := (r.pp - r.cp).toNat
       let free := r.nslot - (r.clm - r.cp).toNat
       (∀ p ∈ [(Instr.rwf d a, filled), (Instr.rwe d a, free)],
         let n := (s.gA p.1.shape).toNat
         Ready s p.1.shape →
         (n ≤ r.nslot → n ≤ p.2 → ∃ t, exec p.1 s = .next t ∧ t.t = s.t ∧ Rest (s.acquire c .cluster) t p.1.shape []) ∧
         (n ≤ r.nslot → p.2 < n → ∃ t, exec p.1 s = .next t ∧ Parked s t 2 (.ring cl i.toNat)) ∧
         (r.nslot < n → s.t.tr = false → ∃ t, exec p.1 s = .next t ∧ TrapTaken s t 1 (s.fr.word.setWidth 64))) ∧
       (let p := Instr.radvp d a
        let n := (s.gA p.shape).toNat
        Ready s p.shape → n ≤ r.nslot →
        (free < n → ∃ t, exec p s = .next t ∧ Parked s t 2 (.ring cl i.toNat)) ∧
        (n ≤ free → ∃ t r', exec p s = .next t ∧ t.t = s.t ∧ t.ring? cl i.toNat = some r' ∧
           r' = { r with pp := r'.pp, clm := r.clm + BitVec.ofNat 32 n, done := r'.done, bytes := r'.bytes } ∧
           (0 < r.nslot → r.bytes.length = r.nslot → r.done.length = r.nslot →
             let slot := fun (from' : Word) j => (from' + BitVec.ofNat 32 j).toNat % r.nslot
             let claimed := fun j => ∃ m, m < n ∧ slot r.clm m = j
             let filled' := fun j => claimed j ∨ r.done[j]? = some true
             (∀ j, j < r.nslot → (claimed j → r'.bytes[j]? = some r.slot) ∧ (¬ claimed j → r'.bytes[j]? = r.bytes[j]?)) ∧
             ∃ k, r'.pp = r.pp + BitVec.ofNat 32 k ∧
               (∀ m, m < k → r.pp + BitVec.ofNat 32 m ≠ r'.clm ∧ filled' (slot r.pp m)) ∧
               (r'.pp = r'.clm ∨ r'.done[slot r'.pp 0]? = some false) ∧
               ∀ j, j < r.nslot → (r'.done[j]? = some true ↔ filled' j ∧ ∀ m, m < k → slot r.pp m ≠ j)) ∧
           (r.pp = r.clm → r.clm.toNat + n < 2 ^ 32 → r.done.length = r.nslot → r'.pp = r.pp + BitVec.ofNat 32 n) ∧
           (s.calm c → (s.core c).sent = [] → ∀ x, cellRead t.mem x = s.settled c x))) ∧
       (let p := Instr.radvc d a
        let n := (s.gA p.shape).toNat
        Ready s p.shape → n ≤ r.nslot →
        (filled < n → ∃ t, exec p s = .next t ∧ Parked s t 2 (.ring cl i.toNat)) ∧
        (n ≤ filled → ∃ t r', exec p s = .next t ∧ t.t = s.t ∧ t.ring? cl i.toNat = some r' ∧
           r' = { r with cp := r.cp + BitVec.ofNat 32 n, bytes := r'.bytes } ∧
           (∀ j, j < r.bytes.length →
             let back := ∃ m, m < n ∧ (r.cp + BitVec.ofNat 32 m).toNat % r.nslot = j
             (back → r'.bytes[j]? = some 0) ∧ (¬ back → r'.bytes[j]? = r.bytes[j]?)) ∧
           (s.calm c → (s.core c).sent = [] → ∀ x, cellRead t.mem x = s.settled c x)))) ∧
     (∀ i r, s.t.rings[a.toNat]! = some i → s.ring? cl i.toNat = some r →
       let slot := fun w : Word => ((if w.getLsbD 31 then r.clm else r.cp) + BitVec.ofNat 32 (w.toNat % 65536)).toNat % r.nslot
       (let p := Instr.raddr d a b
        let w := s.gB p.shape
        Ready s p.shape → w.toNat % 65536 < r.nslot →
        GivesG s p d (BitVec.ofNat 32 (r.base + slot w * r.slot)) noFlags) ∧
       (let p := Instr.rbytes d a b
        let w := s.gB p.shape
        Ready s p.shape → w.toNat % 65536 < r.nslot → s.t.det = false →
        ∃ t, exec p s = .next t ∧
          Wrote (s.acquire c .cluster) t p.shape (toG d (BitVec.ofNat 32 ((r.bytes.drop (slot w)).headD 0))) noFlags) ∧
       (s.t.tr = false → ∀ p ∈ [Instr.raddr d a b, .rbytes d a b], Ready s p.shape → r.nslot ≤ (s.gB p.shape).toNat % 65536 →
         ∃ t, exec p s = .next t ∧ TrapTaken s t 1 (s.fr.word.setWidth 64))) ∧
     (∀ i r, s.t.rings[d.toNat]! = some i → s.ring? cl i.toNat = some r → s.t.tr = false →
       ∀ p ∈ [Instr.radvp d a, .radvc d a], Ready s p.shape → r.nslot < (s.gA p.shape).toNat →
         ∃ t, exec p s = .next t ∧ TrapTaken s t 1 (s.fr.word.setWidth 64)) ∧
     (s.t.tr = false → s.t.rings[d.toNat]! = none →
       ∀ i ∈ [Instr.rwf d a, .rwe d a, .radvp d a, .radvc d a, .raddr a d b, .rbytes a d b], Ready s i.shape →
         ∃ t, exec i s = .next t ∧ TrapTaken s t 1 (s.fr.word.setWidth 64))) ∧
  (∀ (s : State) (d a : RegNo), d.toNat < 8 →
     let c := s.t.core
     let cl := c / 8
     (let p := Instr.rbind d a
      let w := s.gA p.shape
      let base := 256 * (w.toNat / 2 ^ 14 % 4096)
      let slot := 2 ^ (w.toNat / 2 ^ 10 % 16 + 6)
      let n := w.toNat % 256 + 1
      let lrn := BitVec.ofNat 6 (w.toNat / 2 ^ 26)
      let found := (s.cluster cl).rings.find? fun p => p.2.lid == s.t.lid && p.2.lrn == lrn
      let bound := fun (t : State) (i : Nat) => t.t = { s.t with rings := s.t.rings.set! d.toNat (some (BitVec.ofNat 6 i)) }
      Ready s p.shape →
      (w = 0xFFFFFFFF#32 → ∃ t, exec p s = .next t ∧ t.t = { s.t with rings := s.t.rings.set! d.toNat none }) ∧
      (w ≠ 0xFFFFFFFF#32 → w.toNat / 2 ^ 10 % 16 ≤ 10 → w.toNat / 256 % 4 = 0 → base + n * slot ≤ s.scratchBytes →
        (∀ i r, found = some (i, r) → r.base = base → r.slot = slot → r.nslot = n → ∃ t, exec p s = .next t ∧ bound t i) ∧
        (found = none → freshKey 0 (s.cluster cl).rings < 64 →
          (∀ j, s.t.rings[d.toNat]! = some j → (s.ring? cl j.toNat).isSome = true) →
          ∃ t, exec p s = .next t ∧ bound t (freshKey 0 (s.cluster cl).rings) ∧
            t.ring? cl (freshKey 0 (s.cluster cl).rings) = some
              { lid := s.t.lid, lrn := lrn, base := base, slot := slot, nslot := n
                done := List.replicate n false, bytes := List.replicate n 0 }) ∧
        (found = none → 64 ≤ freshKey 0 (s.cluster cl).rings → ∃ t, exec p s = .next t ∧ Parked s t 2 (.ringFree cl)))) ∧
     (let p := Instr.qbind d a
      let w := s.gA p.shape
      let lg := BitVec.ofNat 6 w.toNat
      let found := (s.core c).queues.find? fun p => p.2.lid == s.t.lid && p.2.logical == lg
      let bound := fun (t : State) (q : Nat) => t.t = { s.t with qb := s.t.qb.set! d.toNat (some (BitVec.ofNat 6 q)) }
      let fresh := freshKey 0 (s.core c).queues
      d.toNat < 4 → Ready s p.shape →
      (s.t.qe = false → s.t.tr = false → ∃ t, exec p s = .next t ∧ TrapTaken s t 1 (s.fr.word.setWidth 64)) ∧
      (s.t.qe = true → w = 0xFFFFFFFF#32 → ∃ t, exec p s = .next t ∧ t.t = { s.t with qb := s.t.qb.set! d.toNat none }) ∧
      (s.t.qe = true → w.toNat < 64 →
        (∀ q x, found = some (q, x) → ∃ t, exec p s = .next t ∧ bound t q) ∧
        (found = none → fresh < 64 → (∀ j, s.t.qb[d.toNat]! = some j → (aget j.toNat (s.core c).queues).isSome = true) →
          ∃ t, exec p s = .next t ∧ bound t fresh ∧
            aget fresh (t.core c).queues = some { lid := s.t.lid, logical := lg, entries := [] }) ∧
        (found = none → 64 ≤ fresh → ∃ t, exec p s = .next t ∧ Parked s t 7 (.pool c)))))

/-- R213, R214, R218 to R221: a copy whose descriptor passes the issue checks enters the cluster's engine queue with
the next number of its launch's instance, which goes to D; its claim of a ring takes the next slot. A full queue parks
it (reason 2), and a check that fails traps. The issuer's dirty bytes in the job's footprint reach
their homes first, and no other byte of memory changes. R221 to R223: `ewait`
completes once its job has ended, with the acquire of what the job wrote, parks until then, and traps ENGF where the
job failed; `eprog` gives the job's state and the sectors done. Number 0 names no job, a number that was not issued
traps ILL, and one whose status is no longer kept counts as ended. -/
def Obligations.CopyJobs : Prop :=
  (∀ (s : State) (d a b : RegNo), (s.core s.t.core).linesOk → Memory.wf s.mem = true →
     ∀ p ∈ [(Instr.tcopy d a b, JobKind.tcopy), (Instr.scopy d a b, .scopy), (Instr.tfill d a b, .tfill)],
       let i := p.1
       let k := p.2
       let cl := s.t.core / 8
       let x := (s.gA i.shape).toNat
       let inst := s.inst cl s.t.lid
       let desc := (List.range 64).map fun j => cellRead inst.data (x + j)
       let ps := planesOf desc
       let cix := s.t.core % 8
       let n := inst.next
       Ready s i.shape → x % 64 = 0 → x + 64 ≤ s.scratchBytes → s.t.det = false →
       (aget s.t.lid.toNat (s.cluster cl).insts).isSome = true →
       (∀ j, j < 64 → (x + j) / 16384 ∉ inst.lost ∧ scratchSector (x + j) ∉ inst.pois) →
       (b = 63 →
         (∀ v, s.copyVerdict k none desc = some v → s.t.tr = false → ∃ t, exec i s = .next t ∧ TrapTaken s t v.1 v.2) ∧
         (s.copyVerdict k none desc = none → s.queueFull = true → ∃ t, exec i s = .next t ∧ Parked s t 2 (.engineQueue cl)) ∧
         (s.copyVerdict k none desc = none → s.queueFull = false → ∃ t j, exec i s = .next t ∧
           t.t = { s.t with regs := t.t.regs } ∧ RegsWritten s t (toG d n) ∧
           (t.cluster cl).jobs = (s.cluster cl).jobs ++ [j] ∧ j.kind = k ∧ j.n = n ∧ j.lid = s.t.lid ∧ j.asn = s.t.asn ∧
           j.core = s.t.core ∧ j.mode = s.t.mode ∧ j.handle = s.t.handle ∧ j.pc = s.fr.first ∧ j.state = 1 ∧ j.done = 0 ∧
           j.planes = ps ∧ j.claim = none ∧ j.reads = (if k = .tfill then [] else ps.map fun p => p.reads cix) ∧
           j.writes = ps.map (fun p => p.writes cix) ∧
           (t.inst cl s.t.lid).next = (if n = 0xFFFFFFFF#32 then 1#32 else n + 1#32) ∧
           (s.calm s.t.core → (s.core s.t.core).sent = [] →
             (∀ y, cellRead t.mem y = cellRead s.mem y ∨ WasDirty s s.t.core y (cellRead t.mem y)) ∧
             ∀ l ∈ (s.core s.t.core).l1, ∀ q, q < 128 → l.dirty.getLsbD q = true →
               (∃ v ∈ j.reads ++ j.writes, v.sp = 0 ∧ ∃ va ∈ s.lineVas cl s.t.asn l v, v.lo ≤ va + (q : Int) ∧ va + (q : Int) < v.hi) →
               cellRead t.mem (128 * l.n + q) = (l.data.drop q).headD 0#8))) ∧
       (∀ e r, b ≠ 63 → s.t.rings[b.toNat]! = some e → s.ring? cl e.toNat = some r → s.copyVerdict k (some r) desc = none →
         s.queueFull = false → ∃ t j r', exec i s = .next t ∧
           t.t = { s.t with regs := t.t.regs } ∧ RegsWritten s t (toG d n) ∧
           (t.cluster cl).jobs = (s.cluster cl).jobs ++ [j] ∧ j.kind = k ∧ j.n = n ∧ j.claim = some (e.toNat, r.clm) ∧
           j.planes = ps.map (fun p => { p with dst := p.dst + BitVec.ofNat 64 (r.base + r.clm.toNat % r.nslot * r.slot) }) ∧
           t.ring? cl e.toNat = some r' ∧ r' = { r with clm := r.clm + 1#32, jobs := r.jobs + 1, done := r'.done }) ∧
       (b ≠ 63 → s.t.rings[b.toNat]! = none → s.t.tr = false →
         ∃ t, exec i s = .next t ∧ TrapTaken s t 1 (s.fr.word.setWidth 64))) ∧
  (∀ (s : State) (d a : RegNo),
     let cl := s.t.core / 8
     (let i := Instr.ewait a
      let n := s.gA i.shape
      Ready s i.shape →
      (n = 0#32 → ∃ t, exec i s = .next t ∧ t.t = s.t ∧ Rest s t i.shape []) ∧
      (n ≠ 0#32 →
        (s.jobStatus n = .unissued → s.t.tr = false → ∃ t, exec i s = .next t ∧ TrapTaken s t 1 (s.fr.word.setWidth 64)) ∧
        (s.jobStatus n = .old → ∃ t, exec i s = .next t ∧ t.t = s.t ∧ Rest (s.acquire s.t.core .package) t i.shape []) ∧
        (∀ e, s.jobStatus n = .ended e → e.state ≠ 4 →
          ∃ t, exec i s = .next t ∧ t.t = s.t ∧ Rest (s.acquireJob e.asn e.writes) t i.shape []) ∧
        (∀ e, s.jobStatus n = .ended e → e.state = 4 → s.t.tr = false → s.t.mode = true ∨ s.t.tvec = 0#64 →
          ∃ t, exec i s = .next t ∧ TrapTaken s t 0x10 (n.setWidth 64)) ∧
        (∀ j, s.jobStatus n = .live j → ∃ t, exec i s = .next t ∧ Parked s t 2 (.job cl s.t.lid n)))) ∧
     (let i := Instr.eprog d a
      let n := s.gA i.shape
      let word := fun (state done : Nat) => BitVec.ofNat 32 (state * 2 ^ 28 + done % 65536)
      Ready s i.shape →
      (n = 0#32 ∨ s.jobStatus n = .old → GivesG s i d 0#32 noFlags) ∧
      (n ≠ 0#32 →
        (s.jobStatus n = .unissued → s.t.tr = false → ∃ t, exec i s = .next t ∧ TrapTaken s t 1 (s.fr.word.setWidth 64)) ∧
        (∀ e, s.jobStatus n = .ended e → GivesG s i d (word e.state e.done) noFlags) ∧
        (∀ j, s.jobStatus n = .live j → s.t.det = false → GivesG s i d (word j.state j.done) noFlags) ∧
        (∀ j, s.jobStatus n = .live j → s.t.det = true → ∃ t, exec i s = .next t ∧ Parked s t 2 (.job cl s.t.lid n)))))

/-- R238, R239, R244: `mx.cfg` gives a free accumulator to the thread's group with the FORM and BASE of its word,
frees one with all ones, and parks on one that another group holds (reason 4); `mx.zero` empties the accumulator from
its BASE on and queues the job that does so. A thread of no group traps ILL. R242, R243, R245: `mma` in each of its
forms queues the chunk that its descriptor names, which must be the next one of its accumulator, and `mx.merge` a
subtree of any size that follows; the accumulator's CNT moves behind it and its labels take the carry. One that does
not follow, or for which the roots have no room, traps TREE. -/
def Obligations.MatrixIssue : Prop :=
  (∀ (s : State) (d a : RegNo), (s.core s.t.core).linesOk → Memory.wf s.mem = true →
     let cl := s.t.core / 8
     let n := d.toNat
     (let i := Instr.mxCfg d a
      let w := s.gA i.shape
      let base := w.toNat / 2 ^ 13 * 2 ^ (w.toNat / 2 ^ 8 % 32)
      Ready s i.shape →
      (s.t.gsize = 0#32 → s.t.tr = false → ∃ t, exec i s = .next t ∧ TrapTaken s t 1 (s.fr.word.setWidth 64)) ∧
      (∀ gid, s.t.gsize ≠ 0#32 → s.t.gid = some gid →
        (w ≠ 0xFFFFFFFF#32 → cfgOk w = true →
          (s.acc? cl n = none → ∃ t, exec i s = .next t ∧ t.t = s.t ∧
            t.acc? cl n = some { owner := some gid, cfg := w, form := w.toNat % 8, base := base, cnt := base, vcnt := base }) ∧
          (∀ e, s.acc? cl n = some e → e.owner ≠ some gid →
            ∃ t, exec i s = .next t ∧ Parked s t 4 (.acc cl (BitVec.ofNat 2 n)))) ∧
        (∀ e, w = 0xFFFFFFFF#32 → s.acc? cl n = some e → e.owner = some gid → s.accJob cl n = none →
          (s.cluster cl).accs = [(n, e)] → ∃ t, exec i s = .next t ∧ t.t = s.t ∧ t.acc? cl n = none))) ∧
     (∀ gid e, s.t.gsize ≠ 0#32 → s.t.gid = some gid → s.acc? cl n = some e → e.owner = some gid →
       (∀ j ∈ (s.cluster cl).jobs, j.onAcc n = true → j.kind ≠ .mxLd) → Ready s (Instr.mxZero d).shape →
       (s.queueFull = true → ∃ t, exec (.mxZero d) s = .next t ∧ Parked s t 2 (.engineQueue cl)) ∧
       (s.queueFull = false → ∃ t j, exec (.mxZero d) s = .next t ∧ t.t = s.t ∧
         (t.cluster cl).jobs = (s.cluster cl).jobs ++ [j] ∧ j.kind = .mxZero ∧ j.acc = n ∧ j.n = (s.inst cl s.t.lid).next ∧
         t.acc? cl n = some { e with cnt := e.base, labels := [], closed := false } ∧
         ((s.core s.t.core).sent = [] → ∀ y, cellRead t.mem y = cellRead s.mem y)))) ∧
  (∀ (s : State) (d a b : RegNo) (gid : Nat) (e : Acc), (s.core s.t.core).linesOk → Memory.wf s.mem = true →
     let cl := s.t.core / 8
     let acc := d.toNat
     s.t.gsize ≠ 0#32 → s.t.gid = some gid → s.acc? cl acc = some e → e.owner = some gid → s.t.det = false →
     (∀ j ∈ (s.cluster cl).jobs, j.onAcc acc = true → j.kind ≠ .mxLd) →
     (∀ p ∈ ([(Instr.mmaF64 d a b, 0, 4, 4, 6), (Instr.mmaF32 d a b, 1, 16, 16, 12), (Instr.mmaBf16 d a b, 2, 64, 64, 12),
         (Instr.mmaF16 d a b, 3, 64, 64, 12), (Instr.mmaE4m3 d a b, 4, 128, 128, 12), (Instr.mmaE5m2 d a b, 5, 128, 128, 12),
         (Instr.mmaMx8 d a b, 6, 4, 128, 12), (Instr.mmaE2m1 d a b, 7, 32, 256, 12)] : List (Instr × Nat × Nat × Nat × Nat)),
       let i := p.1
       let form := p.2.1
       let leaves := p.2.2.1
       let depth := p.2.2.2.1
       let slots := p.2.2.2.2
       let x := (s.gA i.shape).toNat
       let q := (s.gB i.shape).toNat
       let inst := s.inst cl s.t.lid
       let desc := (List.range 64).map fun j => cellRead inst.data (x + j)
       let kv := if field desc 24 2 = 0 then depth else field desc 24 2
       let labels := carryLabels e.labels { l := Nat.log2 leaves, j := q }
       Ready s i.shape →
       (form ≠ e.form → s.t.tr = false → ∃ t, exec i s = .next t ∧ TrapTaken s t 1 (s.fr.word.setWidth 64)) ∧
       (form = e.form → x % 64 = 0 → x + 64 ≤ s.scratchBytes →
         (∀ j, j < 64 → (x + j) / 16384 ∉ inst.lost ∧ scratchSector (x + j) ∉ inst.pois) →
         s.mmaVerdict form desc = none →
         (e.closed = true ∨ q * leaves ≠ e.cnt ∨ slots < labels.length → s.t.tr = false →
           ∃ t, exec i s = .next t ∧ TrapTaken s t 9 (BitVec.ofNat 64 e.cnt)) ∧
         (e.closed = false → q * leaves = e.cnt → labels.length ≤ slots → s.queueFull = false →
           ∃ t j, exec i s = .next t ∧ t.t = s.t ∧ (t.cluster cl).jobs = (s.cluster cl).jobs ++ [j] ∧ j.kind = .mma form ∧
             j.acc = acc ∧ j.q = q ∧ j.kv = kv ∧ j.desc = desc ∧ j.n = inst.next ∧
             t.acc? cl acc = some { e with cnt := e.cnt + leaves, labels := labels, closed := decide (kv < depth) } ∧
             ((s.core s.t.core).sent = [] → ∀ y, cellRead t.mem y = cellRead s.mem y)))) ∧
     (let i := Instr.mxMerge d a b
      let x := (s.gA i.shape).toNat
      let w := (s.gB i.shape).toNat
      let l := w % 32
      let j := w / 256
      let size := if e.form = 0 then 32768 else 16384
      let labels := carryLabels e.labels { l := l, j := j }
      Ready s i.shape → w / 64 % 4 = 0 → x % 64 = 0 →
      (s.scratchBytes < x + size → s.t.tr = false → ∃ t, exec i s = .next t ∧ TrapTaken s t 5 (BitVec.ofNat 64 (x + size))) ∧
      (x + size ≤ s.scratchBytes →
        (e.closed = true ∨ j * 2 ^ l ≠ e.cnt ∨ (if e.form = 0 then 6 else 12) < labels.length → s.t.tr = false →
          ∃ t, exec i s = .next t ∧ TrapTaken s t 9 (BitVec.ofNat 64 e.cnt)) ∧
        (e.closed = false → j * 2 ^ l = e.cnt → labels.length ≤ (if e.form = 0 then 6 else 12) → s.queueFull = false →
          ∃ t k, exec i s = .next t ∧ t.t = s.t ∧ (t.cluster cl).jobs = (s.cluster cl).jobs ++ [k] ∧ k.kind = .mxMerge ∧
            k.acc = acc ∧
            t.acc? cl acc = some { e with cnt := (j + 1) * 2 ^ l, labels := labels, closed := w / 32 % 2 = 1 }))))

/-- R128, R246, R247: `mx.st` and `mx.ld` queue their job, keep it and park on it (reason 2); once the job has ended
they complete with the acquire of what it wrote, or trap ENGF where it failed. -/
def Obligations.MatrixMoves : Prop :=
  ∀ (s : State) (d a b : RegNo),
    let cl := s.t.core / 8
    let acc := d.toNat
    (∀ i ∈ [Instr.mxSt d a b, .mxLd d a], ∀ k n, s.t.kept = some k → k.kind = .mxJob n → Ready s (recorded i.shape) →
      (∀ j, s.jobStatus n = .live j → ∃ t, exec i s = .next t ∧ Parked s t 2 (.job cl s.t.lid n)) ∧
      (∀ e, s.jobStatus n = .ended e → e.state ≠ 4 → ∃ t, exec i s = .next t ∧ t.t = { s.t with kept := none } ∧
        Rest (s.acquireJob e.asn e.writes) t (recorded i.shape) []) ∧
      (∀ e, s.jobStatus n = .ended e → e.state = 4 → s.t.tr = false → s.t.mode = true ∨ s.t.tvec = 0#64 →
        ∃ t, exec i s = .next t ∧ TrapTaken { s with t := { s.t with kept := none } } t 0x10 (n.setWidth 64))) ∧
    (∀ gid e, s.t.kept = none → s.t.gsize ≠ 0#32 → s.t.gid = some gid → s.acc? cl acc = some e → e.owner = some gid →
      (∀ j ∈ (s.cluster cl).jobs, j.onAcc acc = true → j.kind ≠ .mxLd) → s.t.det = false → s.queueFull = false →
      let inst := s.inst cl s.t.lid
      let issued := fun (i : Instr) (p : Job → Prop) => ∃ t j, exec i s = .next t ∧ t.fr.stopped = true ∧
        t.t.life = .parked ∧ t.t.park = some { reason := 2, key := .job cl s.t.lid inst.next } ∧ t.t.pc = s.fr.first ∧
        t.t.kept = some { kind := .mxJob inst.next } ∧ t.t.regs = s.t.regs ∧
        (t.cluster cl).jobs = (s.cluster cl).jobs ++ [j] ∧ j.n = inst.next ∧ j.acc = acc ∧ j.state = 1 ∧ p j ∧
        t.acc? cl acc = some e
      let clean := fun x n => x % n = 0 ∧ x + n ≤ s.scratchBytes ∧
        ∀ j, j < n → (x + j) / 16384 ∉ inst.lost ∧ scratchSector (x + j) ∉ inst.pois
      (let i := Instr.mxSt d a b
       let x := (s.gA i.shape).toNat
       let w := s.gB i.shape
       let desc := (List.range 64).map fun j => cellRead inst.data (x + j)
       Ready s i.shape → clean x 64 → stWordOk w = true → s.stVerdict e w desc = none →
       issued i fun j => j.kind = .mxSt ∧ j.ctl = w ∧ j.desc = desc ∧
         j.rm = if w.toNat / 32 % 8 = 7 then s.src.fctl.toNat / 256 % 8 else w.toNat / 32 % 8) ∧
      (let i := Instr.mxLd d a
       let x := (s.gA i.shape).toNat
       let va := BitVec.ofNat 64 (leNat ((List.range 8).map fun j => cellRead inst.data (x + j)))
       Ready s i.shape → clean x 8 → (va.toNat < 2 ^ 56 ∨ 2 ^ 64 - 2 ^ 56 ≤ va.toNat) →
       (va.toNat % 128 ≠ 0 → s.t.tr = false → ∃ t, exec i s = .next t ∧ TrapTaken s t 3 va) ∧
       (va.toNat % 128 = 0 → issued i fun j => j.kind = .mxLd ∧ j.desc = leBytes 8 va.toNat)))

/-- R380 to R382: a collective records its arrival at the next operation of its communicator and parks (reason 4);
once the operation has its status, the status goes to D, after an acquire (R273). A communicator that is not valid gives
status 1 at once. The core's own dirty bytes reach the home before the descriptor is read there (assumption 22). -/
def Obligations.CollectiveResults : Prop :=
  ∀ (s : State) (d a : RegNo), (s.core s.t.core).linesOk → Memory.wf s.mem = true →
    ∀ p ∈ [(Instr.collRedAddF32 d a, 0), (.collRedAddF64 d a, 1), (.collRedCaddF32 d a, 2), (.collRedAddI32 d a, 3),
        (.collRedAddI64 d a, 4), (.collRedMaxF32 d a, 5), (.collRedMinF32 d a, 6), (.collRedMaxF64 d a, 7),
        (.collRedMinF64 d a, 8), (.collRedMaxI32 d a, 9), (.collRedMinI32 d a, 10), (.collRedAnd d a, 11),
        (.collRedOr d a, 12), (.collRedXor d a, 13), (.collBc d a, 14), (.collAg d a, 15)],
      let i := p.1
      let form := p.2
      let c := s.t.core
      (∀ k comm n, s.t.kept = some k → k.kind = .coll comm n → Ready s (recorded i.shape) →
        ((s.coll? comm n).bind Coll.status = none → ∃ t, exec i s = .next t ∧ Parked s t 4 (.coll comm n)) ∧
        (∀ st, (s.coll? comm n).bind Coll.status = some st → ∃ t, exec i s = .next t ∧
          t.t = { s.t with kept := none, regs := t.t.regs } ∧ RegsWritten s t (toG d (BitVec.ofNat 32 st)) ∧
          (t.core c).am = maxTime (s.core c).am s.stime ∧
          (∀ l ∈ (t.core c).l1, l.h = true) ∧ (s.calm c → ∀ y, cellRead t.mem y = s.settled c y))) ∧
      (∀ pa s' s2, s.t.kept = none → Ready s i.shape → s.memCheck (s.wA i.shape) 64 .read = .ok pa s' →
        s.atMemory pa .read = true → s.calm c → (s.core c).sent = [] → s.priors = [] →
        let ha := s.homeAddr pa
        let desc := (List.range 64).map fun j => s.settled c (ha + j)
        let x := collDesc form desc s.t.ckey s.t.asn
        let comm := field desc 20 2
        let n := (aget comm s.arrived).getD 0
        let s3 := s2.release c .system
        (∀ m, m < 2 → s.pois.contains (ha / 32 + m) = false) →
        collDescOk form desc = true → s.ccb.getLsbD 0 = true →
        (((s'.returnPage pa true).ownHome c pa).checkPages x.src x.srcBytes .read (pagesOf x.srcBytes)).andThen
          (fun _ u => u.checkPages x.dst x.dstBytes .write (pagesOf x.dstBytes)) = .ok .unit s2 → s3.commHeld comm = none →
        (s3.commValid comm = false → ∃ t, exec i s = .next t ∧
          t.t = { s.t with regs := t.t.regs } ∧ RegsWritten s t (toG d 1#32) ∧ t.colls = s.colls ∧ t.arrived = s.arrived) ∧
        (s3.commValid comm = true →
          let k := n / s3.commLocal comm
          (s.coll? comm k).bind Coll.status = none →
          ∃ t, exec i s = .next t ∧ t.fr.stopped = true ∧ t.t.life = .parked ∧
            t.t.park = some { reason := 4, key := .coll comm k } ∧ t.t.pc = s.fr.first ∧ t.t.regs = s.t.regs ∧
            t.t.kept = some { kind := .coll comm k, a := s.wA i.shape } ∧ aget comm t.arrived = some (n + 1) ∧
            (t.coll? comm k).map Coll.arrivals = some (((s.coll? comm k).map Coll.arrivals).getD [] ++ [x])))

/-- R335, R319, R320: `launch` offers the packet at W(A) to the queue of its own launch: a refused packet gives its
refusal code in D, a packet that is accepted becomes a launch with the next launch id and gives 0, and without room
for a record the thread parks (reason 9). That a thread of no launch traps ILL is the model's choice (assumption 63). R343
to R346: a message of `nsend` reaches the mailbox of the core that G(A) names, and one of `nmcast` that of every core of
its rectangle, after a release; a cluster with no live core discards it, and the sender waits for a full mailbox. `nrecv`
takes the oldest message: its header to D and its bytes to the scratchpad, with an acquire; an empty mailbox parks it
(reason 8). -/
def Obligations.LaunchAndMesh : Prop :=
  (∀ (s : State) (d a : RegNo), (s.core s.t.core).linesOk → Memory.wf s.mem = true →
     let i := Instr.launch d a
     let c := s.t.core
     Ready s i.shape →
     (s.launch? s.t.lid = none → s.t.tr = false → ∃ t, exec i s = .next t ∧ TrapTaken s t 1 (s.fr.word.setWidth 64)) ∧
     (∀ l pa s', s.launch? s.t.lid = some l → s.memCheck (s.wA i.shape) 128 .read = .ok pa s' → s.atMemory pa .read = true →
       s.calm c → (s.core c).sent = [] → s.priors = [] →
       let ha := s.homeAddr pa
       let bytes := (List.range 128).map fun j => s.settled c (ha + j)
       let p := packetOf bytes
       let s3 := ((s'.returnPage pa true).ownHome c pa).release c .system
       (∀ m, m < 4 → s.pois.contains (ha / 32 + m) = false) →
       (s.recordsFull l.q = true → ∃ t, exec i s = .next t ∧ Parked s3 t 9 (.launchQueue (BitVec.ofNat 6 l.q))) ∧
       (s.recordsFull l.q = false → s3.packetHeld (s.queue l.q) p true = none →
         (s3.refusal (s.queue l.q) p true ≠ 0 → ∃ t, exec i s = .next t ∧ t.t = { s.t with regs := t.t.regs } ∧
           RegsWritten s t (toG d (BitVec.ofNat 32 (s3.refusal (s.queue l.q) p true))) ∧ t.nextLid = s.nextLid) ∧
         (s3.refusal (s.queue l.q) p true = 0 → s.stream = false → s3.walkerFree →
           (let cells := p.tokens.filterMap (s3.cellPa (s.queue l.q).asn (s.queue l.q).sup)
            (∀ x ∈ cells, (s3.place x).isMemory = true) ∧ (∃ x ∈ cells, s3.tokenStatus x ≠ 1) ∧
              ∀ x ∈ cells, ¬ (2 ≤ s3.tokenStatus x ∧ s3.tokenStatus x ≤ 5)) →
           (∀ q, s.candidateOf q = none) → (∀ x ∈ s.launches, x.2.st ≠ .suspending) →
           let lid := s.freshLid s.nextLid 5000
           ∃ t l', exec i s = .next t ∧ t.t = { s.t with regs := t.t.regs } ∧ RegsWritten s t (toG d 0#32) ∧
             t.nextLid = lid + 1#32 ∧ t.accepted = s.accepted + 1 ∧ t.launch? lid = some l' ∧ l'.pkt = p ∧ l'.q = l.q ∧
             l'.st = .waiting ∧ l'.asn = (s.queue l.q).asn ∧ l'.order = s.accepted ∧
             l'.seed = if p.flags.getLsbD 3 then s.dseed else p.seed)))) ∧
  (∀ (s : State) (d a b : RegNo), (s.core s.t.core).linesOk → Memory.wf s.mem = true → s.t.det = false →
     let c := s.t.core
     let inst := s.inst (c / 8) s.t.lid
     let clean := fun x => x % 64 = 0 ∧ x + 64 ≤ s.scratchBytes ∧ ∀ j, j < 64 → (x + j) / 16384 ∉ inst.lost
     let bytes := fun x => (List.range 64).map fun j => cellRead inst.data (x + j)
     let header := fun m : Nat => BitVec.ofNat 32 (meshX (c / 8) + 256 * meshY (c / 8) + 65536 * (c % 8) + m)
     (∀ p ∈ [(Instr.nsend a b, sendOk ((s.gA (shSend a b)).toNat), [sendTarget (s.gA (shSend a b)).toNat], header 0),
         (Instr.nmcast a b, mcastOk ((s.gA (shSend a b)).toNat), mcastTargets (s.gA (shSend a b)).toNat, header (2 ^ 31))],
       let x := (s.gB p.1.shape).toNat
       let targets := p.2.2.1
       (s.t.kept = none → Ready s p.1.shape →
         (p.2.1 = false → s.t.tr = false → ∃ t, exec p.1 s = .next t ∧ TrapTaken s t 1 (s.fr.word.setWidth 64)) ∧
         (p.2.1 = true → clean x → (∀ j, j < 64 → scratchSector (x + j) ∉ inst.pois) → targets.Nodup →
           (∀ k ∈ s.cores, ∀ m ∈ k.2.inbound, m.1 ≠ s.t.ckey) → (∀ e ∈ targets, (s.core e).inbound = []) →
           ((∀ e ∈ targets, s.liveCluster (e / 8) = true → (s.core e).mail.length < 16) →
             ∃ t, exec p.1 s = .next t ∧ t.t = s.t ∧ t.fr = s.fr ∧
               (∀ e ∈ targets, (t.core e).inbound = [] ∧ (t.core e).mail =
                 if s.liveCluster (e / 8) then (s.core e).mail ++ [(p.2.2.2, bytes x)] else (s.core e).mail) ∧
               (∀ e, e ∉ targets → (t.core e).mail = (s.core e).mail) ∧
               (s.calm c → (s.core c).sent = [] → ∀ y, cellRead t.mem y = s.settled c y)) ∧
           (∀ e ∈ targets, s.liveCluster (e / 8) = true → (s.core e).mail.length = 16 →
             ∃ t, exec p.1 s = .next t ∧ t.fr.again = true ∧ t.t.life = .running ∧ t.t.pc = s.fr.first ∧
               t.t.kept = some { kind := .sent } ∧ (t.core e).mail = (s.core e).mail ∧
               (t.core e).inbound = [(s.t.ckey, p.2.2.2, bytes x)]))) ∧
       (∀ k, s.t.kept = some k → k.kind = .sent → Ready s (recorded p.1.shape) →
         (∀ k ∈ s.cores, ∀ m ∈ k.2.inbound, m.1 ≠ s.t.ckey) →
         ∃ t, exec p.1 s = .next t ∧ t.t = { s.t with kept := none } ∧ t = { s with t := t.t })) ∧
     (let i := Instr.nrecv d a
      let x := (s.gA i.shape).toNat
      Ready s i.shape → clean x →
      ((s.core c).mail = [] → ∃ t, exec i s = .next t ∧ Parked s t 8 (.mailbox c)) ∧
      (∀ h bs rest, (s.core c).mail = (h, bs) :: rest → bs.length = 64 → (s.core c).inbound = [] →
        (aget s.t.lid.toNat (s.cluster (c / 8)).insts).isSome = true → Memory.wf inst.data = true →
        ∃ t, exec i s = .next t ∧ t.t = { s.t with regs := t.t.regs } ∧ RegsWritten s t (toG d h) ∧
          (t.core c).mail = rest ∧ (t.core c).am = maxTime (s.core c).am s.stime ∧
          (∀ l ∈ (t.core c).l1, l.h = true) ∧ (s.calm c → ∀ y, cellRead t.mem y = s.settled c y) ∧
          (∀ j, j < 64 → cellRead (t.inst (c / 8) s.t.lid).data (x + j) = (bs.drop j).headD 0#8) ∧
          (∀ y, y < x ∨ x + 64 ≤ y → cellRead (t.inst (c / 8) s.t.lid).data y = cellRead inst.data y))))

/-- R267 to R270: `rgn.set` starts a switch of the region, keeps it and parks on the entry, or completes where the
kind stands; `rgn.acq` takes a free token, with the region's lines dropped and the acquire mark raised (R273), and parks
while another thread holds it; `rgn.rel` hands back the thread's own. A kind above 1 traps ILL, and an address outside
device memory PROT. -/
def Obligations.RegionResults : Prop :=
  ∀ (s : State) (a b : RegNo), (s.core s.t.core).linesOk → Memory.wf s.mem = true →
    let c := s.t.core
    let entry := fun r => regionEntryAddr r
    let still := fun r => s.heldByPeer (entry r) = false ∧
      ∀ j, j < 8 → ∀ v, ¬ WasDirty s c (entry r + j) v
    (let i := Instr.rgnSet a b
     let m := s.gB i.shape
     ∀ pa s' da, s.t.kept = none → Ready s i.shape → m.toNat ≤ 1 → s.address (s.wA i.shape) 1 .read = .ok pa s' →
       s.place pa = .device da →
       let r := da / 2097152
       let e := s.regionEntry r
       (e.getLsbD 1 = true → s.t.tr = false → ∃ t, exec i s = .next t ∧ TrapTaken s' t 6 (s.wA i.shape)) ∧
       (e.getLsbD 1 = false → e.getLsbD 2 = true → ∃ t, exec i s = .next t ∧ Parked s' t 1 (.line (entry r / 128 * 128))) ∧
       (e.getLsbD 1 = false → e.getLsbD 2 = false → e.getLsbD 0 = decide (m = 1#32) →
         ∃ t, exec i s = .next t ∧ t.t = s.t ∧ Rest s' t i.shape []) ∧
       (e.getLsbD 1 = false → e.getLsbD 2 = false → e.getLsbD 0 ≠ decide (m = 1#32) → still r →
         ∃ t, exec i s = .next t ∧ t.fr.stopped = true ∧ t.t.life = .parked ∧
           t.t.park = some { reason := 1, key := .line (entry r / 128 * 128) } ∧ t.t.pc = s.fr.first ∧
           t.t.kept = some { kind := .switch r, a := s.wA i.shape, b := m.setWidth 64 } ∧
           t.regionEntry r = e ||| 4#64 ∧ t.switches = s.switches ++ [{ region := r, kind := decide (m = 1#32) }])) ∧
    (let i := Instr.rgnSet a b
     ∀ k r pa s' da, s.t.kept = some k → k.kind = .switch r → Ready s (recorded i.shape) →
       s.address k.a 1 .read = .ok pa s' → s.place pa = .device da → da / 2097152 = r →
       (s.regionEntry r).getLsbD 1 = false →
       ((s.regionEntry r).getLsbD 2 = false →
         ∃ t, exec i s = .next t ∧ t.t = { s.t with kept := none } ∧ t = { s' with t := t.t }) ∧
       ((s.regionEntry r).getLsbD 2 = true → s.fr.stopped = false →
         ∃ t, exec i s = .next t ∧ Parked s' t 1 (.line (entry r / 128 * 128)))) ∧
    (let i := Instr.rgnAcq a
     ∀ pa s' da, Ready s i.shape → s.memCheck (s.wA i.shape) 1 .read = .ok pa s' → s.place pa = .device da →
       let r := da / 2097152
       let e := s.regionEntry r
       let owner := e.extractLsb' 32 32
       (e.getLsbD 3 = true → owner ≠ s.t.handle → ∃ t, exec i s = .next t ∧ Parked s' t 1 (.line (entry r / 128 * 128))) ∧
       (e.getLsbD 3 = false ∨ owner = s.t.handle → still r → s.calm c →
         ∃ t, exec i s = .next t ∧ t.t = s.t ∧ (∀ l ∈ (t.core c).l1, l.n / 16384 ≠ r) ∧
           (t.core c).am = maxTime (s.core c).am s.stime ∧
           (t.regionEntry r).getLsbD 3 = true ∧ (t.regionEntry r).extractLsb' 32 32 = s.t.handle ∧
           (t.regionEntry r).extractLsb' 0 3 = e.extractLsb' 0 3 ∧
           (t.regionEntry r).extractLsb' 16 16 = (if e.getLsbD 3 then e.extractLsb' 16 16 else e.extractLsb' 16 16 + 1#16))) ∧
    (let i := Instr.rgnRel a
     ∀ pa s' da, Ready s i.shape → s.memCheck (s.wA i.shape) 1 .read = .ok pa s' → s.place pa = .device da →
       let r := da / 2097152
       let e := s.regionEntry r
       (e.getLsbD 3 = false ∨ e.extractLsb' 32 32 ≠ s.t.handle → s.t.tr = false →
         ∃ t, exec i s = .next t ∧ TrapTaken s' t 1 (s.fr.word.setWidth 64)) ∧
       (e.getLsbD 3 = true → e.extractLsb' 32 32 = s.t.handle → still r → s.calm c → (s.core c).sent = [] →
         ∃ t, exec i s = .next t ∧ t.t = s.t ∧ (∀ l ∈ (t.core c).l1, l.n / 16384 ≠ r) ∧
           t.regionEntry r = e &&& 0xFFFFFFF7#64 ∧
           ∀ x, (x < entry r ∨ entry r + 8 ≤ x) → cellRead t.mem x = s.settled c x)) ∧
    (s.t.tr = false →
      (s.t.kept = none → Ready s (Instr.rgnSet a b).shape → 1 < (s.gB (Instr.rgnSet a b).shape).toNat →
        ∃ t, exec (.rgnSet a b) s = .next t ∧ TrapTaken s t 1 (s.fr.word.setWidth 64)) ∧
      (∀ pa s', s.t.kept = none → Ready s (Instr.rgnSet a b).shape → (s.gB (Instr.rgnSet a b).shape).toNat ≤ 1 →
        s.address (s.wA (Instr.rgnSet a b).shape) 1 .read = .ok pa s' → (∀ da, s.place pa ≠ .device da) →
        ∃ t, exec (.rgnSet a b) s = .next t ∧ TrapTaken s' t 6 (s.wA (Instr.rgnSet a b).shape)) ∧
      ∀ i ∈ [Instr.rgnAcq a, .rgnRel a], ∀ pa s', Ready s i.shape → s.memCheck (s.wA i.shape) 1 .read = .ok pa s' →
        (∀ da, s.place pa ≠ .device da) → ∃ t, exec i s = .next t ∧ TrapTaken s' t 6 (s.wA i.shape))

/-- R298, R303: `tlbi`, `tlbi.asn` and `tlbi.all` perform the release row of R124, drop the translations that they name
from every cluster, and write back and drop what every core had filled through them, of whatever page size; a write to a
coherent line that holds one of them performs, and a buffered store that holds one is to be translated again. `chime`
lets the threads go on that wait with FAULT on its page, and returns the jobs that stopped on it to STATE 2. R306: `l2pin`
pins the lines of device memory that its bytes name, and `l2unpin` unpins them, or all with length 0; a length that is
no multiple of 128 traps ILL, and an address that is none traps ALIGN. -/
def Obligations.Shootdown : Prop :=
  (∀ (s : State) (a : RegNo), s.memoriesOk → (s.cores.map Prod.fst).Pairwise (· < ·) →
     (s.clusters.map Prod.fst).Pairwise (· < ·) → (∀ th ∈ s.threads, th.loads = []) →
     let gone := fun (t : State) (e : Tlb → Bool) (space : Nat → Bool) (l : BitVec 16 → BitVec 41 → Nat → Bool) =>
       t.t = { s.t with slines := s.t.slines.map fun x => (x.1, x.2.1, x.2.2.1, x.2.2.2 || l s.t.asn x.2.1 x.2.2.1) } ∧
       (∀ x ∈ (t.core s.t.core).l1, x.dirty = 0#128) ∧ (∀ w ∈ (t.core s.t.core).sent, w.home = true) ∧
       (∀ c, ∀ u ∈ (t.core c).updates, u.writer ≠ some s.t.core) ∧
       ((∀ c, s.calm c) → (∀ c, (s.core c).sent = []) → ∀ c, ∀ x ∈ (s.core c).l1, l x.asn x.vpn x.size = true →
         ∀ q, q < 128 → x.dirty.getLsbD q = true →
           ∃ d, WasDirty s d (128 * x.n + q) (cellRead t.mem (128 * x.n + q))) ∧
       (∀ k, (t.cluster k).tlb = ((s.cluster k).tlb.filter fun x => !e x) ∧
         (t.cluster k).asEntries = (s.cluster k).asEntries.filter fun x => !space x.1) ∧
       (∀ c, (t.core c).dtlb = ((s.core c).dtlb.filter fun x => !e x) ∧
         (t.core c).itlb = ((s.core c).itlb.filter fun x => !e x) ∧
         (∀ x ∈ (t.core c).l1, l x.asn x.vpn x.size = false) ∧
         (t.core c).icache = ((s.core c).icache.filter fun x => !l x.2.asn x.2.vpn x.2.size) ∧
         (∀ w ∈ (t.core c).sent, w.home = false → l w.asn w.vpn w.size = false) ∧
         ∀ x ∈ (s.core c).l1, l x.asn x.vpn x.size = false → ∃ y ∈ (t.core c).l1, y.n = x.n)
     (let w := s.wA (Instr.tlbi a).shape
      let va := BitVec.ofNat 64 (w.toNat / 65536 * 65536)
      let asn := w.extractLsb' 0 16
      Ready s (Instr.tlbi a).shape →
      (¬ (w.toNat < 2 ^ 56 ∨ 2 ^ 64 - 2 ^ 56 ≤ w.toNat) → s.t.tr = false → ∃ t, exec (.tlbi a) s = .next t ∧ TrapTaken s t 4 w) ∧
      ((w.toNat < 2 ^ 56 ∨ 2 ^ 64 - 2 ^ 56 ≤ w.toNat) → ∃ t, exec (.tlbi a) s = .next t ∧
        gone t (fun e => e.within asn va) (fun _ => false) fun n v size =>
          n == asn && v.toNat / 2 ^ (pageShift size - 16) == pageOf va size)) ∧
     (let w := s.gA (Instr.tlbiAsn a).shape
      Ready s (Instr.tlbiAsn a).shape →
      (w.toNat < 65536 → ∃ t, exec (.tlbiAsn a) s = .next t ∧
        gone t (fun e => e.asn == BitVec.ofNat 16 w.toNat) (fun n => BitVec.ofNat 16 n == BitVec.ofNat 16 w.toNat)
          fun n _ _ => n == BitVec.ofNat 16 w.toNat) ∧
      (65536 ≤ w.toNat → s.t.tr = false → ∃ t, exec (.tlbiAsn a) s = .next t ∧ TrapTaken s t 1 (s.fr.word.setWidth 64))) ∧
     (Ready s Instr.tlbiAll.shape → ∃ t, exec .tlbiAll s = .next t ∧ gone t (fun _ => true) (fun _ => true) fun _ _ _ => true) ∧
     (let w := s.wA (Instr.chime a).shape
      let asn := w.extractLsb' 0 16
      Ready s (Instr.chime a).shape → (w.toNat < 2 ^ 56 ∨ 2 ^ 64 - 2 ^ 56 ≤ w.toNat) → (∀ l ∈ s.launches, l.2.pend = []) →
      ∃ t, exec (.chime a) s = .next t ∧ t.t = s.t ∧
        (s.calm s.t.core → (s.core s.t.core).sent = [] →
          ∀ x, cellRead t.mem x = s.settled s.t.core x) ∧
        (∀ k, (asn, vpnOf w) ∉ (t.die k).outst) ∧
        (∀ cl id j, s.job? cl id = some j → j.state = 3 → j.asn = asn → j.page = some (vpnOf w) → j.recPend = false →
          s.held j.lid = false → ∃ j', t.job? cl id = some j' ∧ j'.state = 2) ∧
        ∀ k th p, aget k s.ctxs = some th → th.life = .parked → th.park = some p → p.key = .page asn (vpnOf w) →
          p.reason = 6 → th.recPend = false → th.pollAt = none → aget k t.ctxs = some { th with life := .running, park := none })) ∧
  (∀ (s : State) (a b : RegNo) (pa : Nat → Nat),
     ∀ p ∈ [(Instr.l2pin a b, true), (Instr.l2unpin a b, false)],
       let va := s.wA p.1.shape
       let n := (s.gB p.1.shape).toNat
       let named := fun m => ∃ i, i < n / 128 ∧ s.place (pa i) = .device (128 * m)
       Ready s p.1.shape →
       (n % 128 ≠ 0 → s.t.tr = false → ∃ t, exec p.1 s = .next t ∧ TrapTaken s t 1 (s.fr.word.setWidth 64)) ∧
       (n % 128 = 0 → va.toNat % 128 ≠ 0 → n ≠ 0 ∨ p.2 = true → s.t.tr = false →
         ∃ t, exec p.1 s = .next t ∧ TrapTaken s t 3 va) ∧
       (n = 0 → p.2 = false → ∃ t, exec p.1 s = .next t ∧ t.t = s.t ∧ t.pins = []) ∧
       (n % 128 = 0 → va.toNat % 128 = 0 → n ≠ 0 → s.pins.length + n / 128 ≤ 4096 →
         (∀ i, i < n / 128 → s.memCheck (va + BitVec.ofNat 64 (128 * i)) 128 .read = .ok (pa i) s ∧
           (∃ m, s.place (pa i) = .device (128 * m))) →
         ∃ t, exec p.1 s = .next t ∧ t.t = s.t ∧ (p.2 = true → ∀ m, m ∈ t.pins ↔ m ∈ s.pins ∨ named m) ∧
           (p.2 = false → ∀ m, m ∈ t.pins ↔ m ∈ s.pins ∧ ¬ named m)))

/-- R136, R164 to R167, R171, R336: a core's cycle advances its clock and forms one issue group: its lead is the first
ready context from P, its members stand at the lead's bundle, and P moves behind the lead. That a boot thread and a thread
of a launch form no group is assumption 43's. No thread issues anew that waits with an issue group which has still to go on
(R166, assumption 7), or whose buffered stores a shootdown has left without a translation (R298, assumption 66). A Chime wakes what waits on its key and nothing else; the last cycle of a
`pause`, the poll of a full watch table each 1,024 ns (R135) and the end of a quantum change the one thread. -/
def Obligations.RollEvents : Prop :=
  ∀ (s : State) (c num : Nat) (key : Key),
    ((s.cluster (c / 8)).live = true →
      let able := fun (th : Thread) => th ∈ s.threads ∧ th.core = c ∧ th.resident = true ∧ th.ready = true ∧ th.stale = false ∧
        (∀ g ∈ s.opened, th.ckey ∉ g) ∧ ∀ l, s.launch? th.lid = some l → l.boundary = false ∧ l.engines = false
      let after := fun n => (n + 1024 - (s.core c).p) % 1024
      ∃ t g, exec (.rollCycle c) s = .next t ∧ t.issue = s.issue ++ g ∧ g.length ≤ 64 ∧ t.mem = s.mem ∧
        (t.core c).clk = (s.core c).clk + 1#64 ∧ (g = [] → ∀ th, ¬ able th) ∧
        (∀ k th, s.thread? k = some th → th.core = c → 1 < th.pauseLeft →
          t.thread? k = some { th with pauseLeft := th.pauseLeft - 1 }) ∧
        ∀ k rest, g = k :: rest → ∃ lead, able lead ∧ lead.ckey = k ∧ (t.core c).p = (lead.num + 1) % 1024 ∧
          (∀ th, able th → after lead.num ≤ after th.num) ∧
          ∀ m ∈ rest, ∃ th, able th ∧ th.ckey = m ∧ th.pc = lead.pc ∧ th.asn = lead.asn ∧ th.mode = lead.mode ∧
            th.boot = lead.boot) ∧
    (∃ t, exec (.chimeArrival key) s = .next t ∧ t.cores = s.cores ∧ t.clusters = s.clusters ∧ t.launches = s.launches ∧
      t.mem = s.mem ∧
      ∀ k th, s.thread? k = some th →
        (∀ p, th.park = some p → p.key = key →
          (th.pollAt = none → th.life = .parked → th.det = false ∨ p.reason = 6 → th.recPend = false →
            t.thread? k = some { th with life := .running, park := none }) ∧
          (th.pollAt = none → th.life = .suspended → t.thread? k = some { th with wake := true }) ∧
          (th.pollAt = none → th.life = .spilled → t.thread? k = some { th with wake := true, reflag := true })) ∧
        ((∀ p, th.park = some p → p.key = key → th.pollAt ≠ none) → t.thread? k = some th)) ∧
    ∀ th, s.thread? (1024 * c + num) = some th → th.core = c → th.num = num →
      let only := fun (i : Instr) (th' : Thread) => ∃ t, exec i s = .next t ∧ t.thread? (1024 * c + num) = some th' ∧
        (∀ k, k ≠ 1024 * c + num → t.thread? k = s.thread? k) ∧ t = { s with t := t.t, ctxs := t.ctxs }
      (th.life ≠ .exited → th.pauseLeft = 1 → only (.pauseEnd c num) { th with pauseLeft := 0 }) ∧
      (∀ p a, th.life = .parked → th.park = some p → p.key = .line a ∨ p.key = .join a → th.det = false →
        th.recPend = false →
        only (.watchPoll c num) { th with life := .running, park := none, pollAt := some (s.ticks + 9 * 1024) }) ∧
      (th.det = true → th.life = .running → only (.quantumEnd c num) { th with qended := true })

/-- R205, R216, R219, R224: a queued copy starts; a running one moves one sector a step, from a pattern or from the
scratchpad, and ends with STATE 0 once every sector is done; and a scratchpad page comes back from its backing page. That a step moves
one sector, in ascending order, is assumption 25's: R216 lets them move in any order. R241, R243 to R247: each job of the matrix engine has its effect on its accumulator and ends with STATE 0: `mx.zero`
empties it, `mma` and `mx.merge` carry their node into its pending roots, `mx.ld` replaces it by the image that it has
read, and `mx.st` writes what is left of its sectors. -/
def Obligations.EngineEvents : Prop :=
  (∀ (s : State) (cl id : Nat) (j : Job), s.job? cl id = some j →
     (s.startable cl j = true → ∃ t, exec (.tceJobRun cl id) s = .next t ∧
       t.job? cl id = some { j with state := 2 } ∧ t.cores = s.cores ∧ t.launches = s.launches) ∧
     (∀ x xs, s.runnable j = true → j.copies = true → s.selfMeets cl j = false → j.staged = [] → j.claim = none →
       j.sectors.drop j.done = x :: xs → x.dsp = 2 → 0 ≤ x.dst → 0 ≤ x.src → j.kind = .tfill ∨ x.ssp = 2 →
       let i := s.inst cl j.lid
       (aget j.lid.toNat (s.cluster cl).insts).isSome = true → i.lost = [] → Memory.wf i.data = true →
       ∃ t j', exec (.tceSectorWrite cl id) s = .next t ∧ t.job? cl id = some j' ∧ j'.done = j.done + 1 ∧ j'.state = 2 ∧
         (∀ k, k < x.n → cellRead (t.inst cl j.lid).data (x.dst.toNat + k) =
           if j.kind = .tfill then x.pattern.extractLsb' (8 * ((x.off + k) % 8)) 8 else cellRead i.data (x.src.toNat + k)) ∧
         (∀ a, a < x.dst.toNat ∨ x.dst.toNat + x.n ≤ a → cellRead (t.inst cl j.lid).data a = cellRead i.data a) ∧
         t.mem = s.mem) ∧
     (s.runnable j = true → j.copies = true → j.sectors.length ≤ j.done →
       ∃ t, exec (.tceJobEnd cl id) s = .next t ∧ JobEnded s t cl j 0) ∧
     ∀ page, let i := s.inst cl j.lid
       (aget j.lid.toNat (s.cluster cl).insts).isSome = true → page ∈ i.lost → i.lost.Nodup → Memory.wf i.data = true →
       s.backingHeld cl j.lid page = none →
       ∃ t, exec (.scratchPageRefill cl j.lid page) s = .next t ∧ page ∉ (t.inst cl j.lid).lost ∧
         (∀ k, k < 16384 →
           cellRead (t.inst cl j.lid).data (16384 * page + k) = cellRead s.mem (s.backingPa i cl page + k)) ∧
         t.mem = s.mem ∧ t.cores = s.cores ∧ t.t = s.t) ∧
  (∀ (s : State) (cl id : Nat) (j : Job) (e : Acc), s.job? cl id = some j → s.mxReady cl j = true →
     s.acc? cl j.acc = some e → (∀ p ∈ (s.cluster cl).accs, p.1 = j.acc → p.2.releasing = false) →
     let ends := fun (i : Instr) (p : State → Prop) => ∃ t, exec i s = .next t ∧ JobEnded s t cl j 0 ∧ p t
     (j.kind = .mxZero → ends (.mxZeroJob cl id) fun t =>
       t.acc? cl j.acc = some { e with roots := [], vcnt := e.base, vclosed := false }) ∧
     (∀ form, j.kind = .mma form → (s.inst cl j.lid).lost = [] →
       let node : Node := { l := Nat.log2 (leavesOf e.form), j := j.q }
       ends (.mmaJob cl id) fun t => ∃ r, t.acc? cl j.acc = some { e with
           roots := r, vcnt := (j.q + 1) * 2 ^ node.l, vclosed := decide (j.kv < depthOf e.form) } ∧
         r.map Prod.fst = carryLabels (e.roots.map Prod.fst) node ∧
         (e.roots = [] → r = [(node, (tileOf ((s.chunkOf cl j e.form).root e.form j.kv (e.cfg.getLsbD 3)
             (e.cfg.getLsbD 4))).map fun v => (roundTo (accFmt e.form) .rne false 0 v).1)])) ∧
     (j.kind = .mxMerge → ends (.mxMergeJob cl id) fun t => ∃ r, t.acc? cl j.acc = some { e with
         roots := r, vcnt := (j.kv + 1) * 2 ^ j.q, vclosed := j.trail } ∧
       r.map Prod.fst = carryLabels (e.roots.map Prod.fst) { l := j.q, j := j.kv }) ∧
     (∀ e', j.kind = .mxLd → 6146 ≤ j.done → accOfImage e.owner (j.staged.flatMap Prod.fst) = some e' →
       ends (.mxLdJob cl id) fun t => t.acc? cl j.acc = some { e' with releasing := false }) ∧
     (∀ x, j.kind = .mxSt → j.ctl.toNat % 4 = 1 → j.sectors.drop j.done = [x] → x.dsp = 2 → 0 ≤ x.dst →
       let i := s.inst cl j.lid
       let size := (outFmt (j.ctl.toNat / 4 % 8)).width / 8
       let tile := ((e.roots.map Prod.snd).head?).getD []
       let value := fun k => (tile.drop (64 * x.pattern.toNat + x.off / size + k / size)).headD 0
       x.n % size = 0 → (aget j.lid.toNat (s.cluster cl).insts).isSome = true → i.lost = [] → Memory.wf i.data = true →
       ends (.mxStJob cl id) fun t => t.acc? cl j.acc = some e ∧
         (s.threads.any (fun th => clusterOf th.core == cl && th.lid == j.lid && !th.boot) = true →
           ∀ k, k < x.n → cellRead (t.inst cl j.lid).data (x.dst.toNat + k) =
             BitVec.ofNat 8 (value k / 2 ^ (8 * (k % size))))))

/-- R264, R265, R269, R293, R301 to R303, R308, R343, R375: the sweep writes an old line back and drops it; a sharer
takes the oldest update on its way to it from one of the homes, under its own later writes; a walk that ends on a bad
entry traps, and one on a page that another walk reported or that migrates parks; the record that a die has held longest
goes to its queue; a switch writes back and drops the region's lines everywhere and sets its kind; and a message enters
its core's mailbox. -/
def Obligations.MemoryEvents : Prop :=
  ∀ (s : State) (c n : Nat), s.memoriesOk → (s.cores.map Prod.fst).Pairwise (· < ·) →
    (∀ l, (s.core c).line? n = some l → s.sweeps l = true → s.calm c → ∃ t, exec (.sLineSweep c n) s = .next t ∧
      (t.core c).line? n = none ∧ (∀ m, m ≠ n → (t.core c).line? m = (s.core c).line? m) ∧
      ∀ a, cellRead t.mem a = if a / 128 = n then s.settled c a else cellRead s.mem a) ∧
    ((s.core c).updates ≠ [] → ∃ t u before after, exec (.coherentUpdate c) s = .next t ∧
      (s.core c).updates = before ++ u :: after ∧ (∀ x ∈ before, s.sliceOf x.pa ≠ s.sliceOf u.pa) ∧
      t = { s with cores := t.cores, fresh := s.fresh + 1 } ∧ (t.core c).updates = before ++ after ∧
      (t.core c).sent = (if u.writer = some c then tellSent (u.pa / 128) (s.core c).sent else (s.core c).sent) ∧
      (∀ d, d ≠ c → t.core d = s.core d) ∧
      (∀ l, (s.core c).line? n = some l → l.h = false ∨ n ≠ u.pa / 128 → (t.core c).line? n = some l) ∧
      (∀ l, (s.core c).line? (u.pa / 128) = some l → l.h = true → u.pa % 128 + u.bytes.length ≤ 128 →
        ∃ l', (t.core c).line? (u.pa / 128) = some l' ∧ (l.struck.contains true = false → l'.pois = u.pois) ∧ ∀ k, k < 128 → l'.data[k]? =
          if u.pa % 128 ≤ k ∧ k < u.pa % 128 + u.bytes.length ∧ (t.core c).covered (u.pa / 128 * 128 + k) = false then
            u.bytes[k - u.pa % 128]?
          else l.data[k]?)) ∧
    (∀ acc va bytes, s.t.life = .running → s.t.boot = false → s.walkerFree →
      let page := s.lookupCore s.t.core (acc == .fetch) s.t.asn va
      let walked := fun (u : State) => u = { s with cores := u.cores, clusters := u.clusters, fresh := u.fresh } ∧
        (∀ d, u.core d = { s.core d with dtlb := (u.core d).dtlb, itlb := (u.core d).itlb }) ∧
        ∀ k, u.cluster k = { s.cluster k with tlb := (u.cluster k).tlb, asEntries := (u.cluster k).asEntries }
      (page.1 = .bad → s.t.tr = false → s.t.mode = true ∨ s.t.tvec = 0#64 →
        ∃ s2 t, exec (.walk acc va bytes) s = .next t ∧ walked s2 ∧ TrapTaken s2 t 0x0B va) ∧
      (page.1 = .mig ∨ (page.1 = .miss ∧ (s.die (s.t.core / 512)).outst.contains (s.t.asn, vpnOf va) = true) →
        ∃ s2 t, exec (.walk acc va bytes) s = .next t ∧ walked s2 ∧ Parked s2 t 6 (.page s.t.asn (vpnOf va))) ∧
      (∀ e, page.1 = .hit e → ∃ t, exec (.walk acc va bytes) s = .next t ∧ walked t)) ∧
    (∀ p ps, let k := s.die c
      let base := bits k.fqd 51 12 * 4096
      let i := k.fprod.toNat % 2 ^ (k.fqd.toNat % 32)
      let slot := base + 128 + 64 * i
      k.pending = p :: ps → s.ringOpen (some 3) k.fqd k.fprod = true → slot + 64 ≤ 0xC000000000 → p.bytes.length = 64 →
      touchesRegions slot 64 = false →
      (∀ a ∈ [slot, base], s.agentGranted 3 a .write = true ∧ s.heldByPeer a = false) →
      ∃ t, exec (.pendingRecordWrite c) s = .next t ∧ (t.die c).pending = ps ∧ (t.die c).fprod = k.fprod + 1#32 ∧
        (∀ b, b < 62 → cellRead t.mem (slot + b) = (p.bytes.drop b).headD 0#8) ∧
        (∀ b, b < 2 →
          cellRead t.mem (slot + 62 + b) = BitVec.ofNat 8 (k.fprod.toNat / 2 ^ (8 * b)))) ∧
    (∀ w, s.switches.find? (fun w => w.region == n) = some w → n < 393216 →
      (∀ d, (s.core d).updates = [] ∧ (s.core d).sent = [] ∧ s.calm d) →
      let entry := regionEntryAddr n
      s.agentGranted 5 entry .write = true → s.heldByPeer entry = false →
      ∃ t, exec (.switch n) s = .next t ∧ (∀ x ∈ t.switches, x.region ≠ n) ∧
        (t.regionEntry n).getLsbD 0 = w.kind ∧ (t.regionEntry n).getLsbD 2 = false ∧
        (∀ i, i ≠ 0 → i ≠ 2 → (t.regionEntry n).getLsbD i = (s.regionEntry n).getLsbD i) ∧
        ∀ d, ∀ l ∈ (t.core d).l1, l.n / 16384 ≠ n) ∧
    (∀ m, (s.core c).inbound = [m] → s.liveCluster (c / 8) = true → (s.core c).mail.length < 16 →
      ∃ t, exec (.messageArrival c) s = .next t ∧ (t.core c).mail = (s.core c).mail ++ [m.2] ∧ (t.core c).inbound = [] ∧
        ∀ k th p, aget k s.ctxs = some th → th.life = .parked → th.park = some p → p.key = .mailbox c → th.det = false →
          th.recPend = false → th.pollAt = none → aget k t.ctxs = some { th with life := .running, park := none })

/-- R303, R308, R311, R318, R368 to R376, R382, R385: a write reaches a register block where the block's table grants
it; one that is not granted changes no register, is counted by its target, and leaves machine event 4 in its die's ring or
in the count of events dropped (assumption 21); a queue register keeps all but EN while EN stands; the host and the peers
read and write memory; a peer's grants are recalled, taken back, lost or given; a host link goes down or comes back; a due
report is written; and a collective that can complete takes its status and wakes its threads, with status 4 where a member
is lost, whatever else it would give (assumption 32). -/
def Obligations.OutsideEvents : Prop :=
  ∀ (s : State), Memory.wf s.mem = true →
    (∀ m pa v, pa % 8 = 0 → s.granted m pa .write = true → s.place pa = .iodA 0x3008 →
      ∃ t, exec (.registerWrite (some m) pa v) s = .next t ∧ t = { s with gongl := v &&& 0xFFFFFFFFFF000#64 }) ∧
    (∀ m pa v, s.granted m pa .write = false → ∃ t, exec (.registerWrite (some m) pa v) s = .next t ∧
      t.gongl = s.gongl ∧ t.gongc = s.gongc ∧ t.queues = s.queues ∧ t.access = s.access ∧ t.agenda = s.agenda ∧
      let tgt := ((s.targetOf pa).map Prod.fst).getD 21
      let die := if tgt < 8 then tgt else if tgt < 16 then tgt - 8 else 0
      let k := s.die die
      let slot := ringBase k.mevd + 128 + 32 * (k.mprod.toNat % 2 ^ ringLog k.mevd)
      aget tgt t.violations = some ((aget tgt s.violations).getD 0 + 1) ∧
      (k.events = [] → k.mevd.getLsbD 5 = false → (t.die die).mdrop = k.mdrop + 1) ∧
      (k.events = [] → s.ringOpen none k.mevd k.mprod = true → slot + 32 ≤ 0xC000000000 → s.heldByPeer slot = false →
        touchesRegions slot 32 = false →
        (t.die die).mprod = k.mprod + 1#32 ∧ cellRead t.mem slot = 4#8 ∧ cellRead t.mem (slot + 1) = 0#8)) ∧
    (∀ q v, let k := s.queue q.toNat
      ∃ t, exec (.lqdWrite q v) s = .next t ∧ t = { s with queues := t.queues } ∧
        (∀ i, ((t.queue q.toNat).lqd.getLsbD i = if i = 7 ∨ (k.en = false ∧ 2 ≤ i) then v.getLsbD i
          else if k.en then k.lqd.getLsbD i else false))) ∧
    (∀ q tail, ∃ t, exec (.doorbell q tail) s = .next t ∧ t.queue q.toNat = { s.queue q.toNat with tail := tail } ∧
      (∀ p, p ≠ q.toNat → t.queue p = s.queue p) ∧ t = { s with queues := t.queues }) ∧
    (∀ die m v, (v.toNat < 2 ^ 56 ∨ 2 ^ 64 - 2 ^ 56 ≤ v.toNat) → (∀ l ∈ s.launches, l.2.pend = []) →
      ∃ t, exec (.chimePortWrite die m v) s = .next t ∧ (∀ k, (v.extractLsb' 0 16, vpnOf v) ∉ (t.die k).outst) ∧
        ∀ k th p, aget k s.ctxs = some th → th.life = .parked → th.park = some p →
          p.key = .page (v.extractLsb' 0 16) (vpnOf v) → p.reason = 6 → th.recPend = false → th.pollAt = none →
          aget k t.ctxs = some { th with life := .running, park := none }) ∧
    (∀ off n, 0 < n → off + n ≤ 0xC000000000 → s.homePois off n = false →
      (∀ k, k < n → s.granted (masterId 3 0) (off + k) .read = true ∧ s.heldByPeer (off + k) = false) → ∃ t, exec (.hostRequest 0#16 (.bar2Read off n)) s = .next t ∧
        t = { s with signals := s.signals ++ [.reply 0#16 ((List.range n).map fun k => cellRead s.mem (off + k))] }) ∧
    (∀ off n, 0xC000000000 ≤ off → ∃ t, exec (.hostRequest 0#16 (.bar2Read off n)) s = .next t ∧
      t = { s with signals := s.signals ++ [.reply 0#16 (List.replicate n 0xFF#8)] }) ∧
    (∀ off bs, off + bs.length ≤ 0xC000000000 →
      (∀ k, k < bs.length → s.granted (masterId 3 0) (off + k) .write = true ∧ s.heldByPeer (off + k) = false) →
      ∃ t, exec (.hostRequest 0#16 (.bar2Write off bs)) s = .next t ∧
        (∀ k, k < bs.length → cellRead t.mem (off + k) = (bs.drop k).headD 0#8) ∧
        ∀ a, a < off ∨ off + bs.length ≤ a → cellRead t.mem a = cellRead s.mem a) ∧
    (∀ peer pa n, pa < 0xC000000000 → s.peerGranted peer pa .read = true →
      s.heldByOther peer (pa / 65536) false = false → s.homePois pa n = false → ∃ t, exec (.peerRequest (.ualink peer) (.read pa n)) s = .next t ∧
        t = { s with
          directory := t.directory
          signals := s.signals ++ [.peerReply peer ((List.range n).map fun k => cellRead s.mem (pa + k))] } ∧
        ∀ g, g ∈ t.directory → ∃ g' ∈ s.directory, g'.page = g.page ∧ g'.exclusive = g.exclusive) ∧
    (∀ peer pa bs, 0 < bs.length → pa + bs.length ≤ 0xC000000000 → s.peerGranted peer pa .write = true →
      touchesRegions pa bs.length = false → (∀ k, k < bs.length → s.heldByPeer (pa + k) = false) →
      ∃ t, exec (.peerRequest (.ualink peer) (.write pa bs)) s = .next t ∧
        (∀ k, k < bs.length → cellRead t.mem (pa + k) = (bs.drop k).headD 0#8) ∧
        ∀ a, a < pa ∨ pa + bs.length ≤ a → cellRead t.mem a = cellRead s.mem a) ∧
    (∀ page forRead g, s.grants.find? (fun g => g.page == page) = some g → ∃ t bs,
      exec (.grantRecall page forRead) s = .next t ∧ t.signals = s.signals ++ [.peerReply (BitVec.ofNat 10 (page / 2 ^ 24)) bs] ∧
      bs = (if g.exclusive then s.homeRead (65536 * page) 65536 else []) ∧
      (∀ x ∈ t.grants, x.page = page → forRead = true ∧ x.exclusive = false) ∧
      ∀ x ∈ s.grants, x.page ≠ page → x ∈ t.grants) ∧
    (∀ (peer : BitVec 10) page g, s.grantOf page = some g → g.exclusive = true → g.holders.contains peer.toNat = true →
      (∃ r ∈ s.recalls, r.1 = page ∧ r.2 + 90000000 ≤ s.ticks) → (s.die (homeDie (65536 * page))).mevd.getLsbD 5 = false →
      (∀ d, (s.die d).events = []) → (∀ l ∈ s.launches, l.2.pend = []) →
      ∃ t, exec (.recallTimeout peer page) s = .next t ∧ t.grantOf page = none ∧
        ∀ k, k < 2048 → 2048 * page + k ∈ t.pois) ∧
    (∀ (peer : BitVec 10), ∃ t, exec (.memberLost peer) s = .next t ∧ peer.toNat ∈ t.lostPeers ∧
      (∀ g ∈ t.grants, g.page / 2 ^ 24 % 1024 ≠ peer.toNat) ∧ ∀ g ∈ t.directory, peer.toNat ∉ g.holders) ∧
    (∀ down, (∃ t, exec (.hostLinkDown false down) s = .next t ∧ t = { s with linkA := !down }) ∧
      ∃ t, exec (.hostLinkDown true down) s = .next t ∧ t = { s with linkB := !down }) ∧
    (let a := bits s.rrep 51 7 * 128
     bits s.rrep 63 52 ≠ 0 → 9000000 * bits s.rrep 63 52 ≤ s.ticks - s.reported → a + 128 ≤ 0xC000000000 →
     touchesRegions a 128 = false → s.heldByPeer a = false → ∃ t, exec .residencyReport s = .next t ∧ t.reported = s.ticks ∧
       ∀ b, b < 8 → cellRead t.mem (a + b) = BitVec.ofNat 8 (s.stime.toNat / 2 ^ (8 * b))) ∧
    ∀ comm k co, s.coll? comm k = some co → s.collReady co = true → s.collHeld co = none →
      ∃ t st, exec (.collCompletion comm k) s = .next t ∧ t.coll? comm k = some { co with status := some st } ∧
        st = (s.collEnd co).1 ∧ (co.lost = true → st = 4) ∧
        ∀ j th p, aget j s.ctxs = some th → th.life = .parked → th.park = some p → p.key = .coll comm k → th.det = false →
          th.recPend = false → th.pollAt = none → aget j t.ctxs = some { th with life := .running, park := none }

/-- R178, R319 to R328, R337, R340, R341: the scheduler takes a queue's next packet and accepts it behind its after-
tokens, or refuses it; a waiting launch becomes ready or fails; a candidate for which no room is free takes it from
the launch that it outranks; a pre-empted launch is suspended; a launch completes with its cell; the watchdog and an
abort end one, with its threads, its deque entries, its pending decrements and its jobs; and a boundary commits, and then
lets the threads go on, once no job of the launch stands in STATE 3 (assumption 17). -/
def Obligations.SchedulerEvents : Prop :=
  ∀ (s : State) (q : BitVec 6) (lid : Word) (l : Launch), Memory.wf s.mem = true →
    (s.launches.map Prod.fst).Pairwise (· < ·) → (∀ x ∈ s.launches, x.1 < 2 ^ 32) →
    (let n := q.toNat
     let k := s.queue n
     let p := packetOf (s.homeRead (bits k.lqd 47 8 * 4096 + 128 * (k.head.toNat % 2 ^ k.log.toNat)) 128)
     let cells := p.tokens.filterMap (s.cellPa k.asn k.sup)
     s.packetWaits n = true →
     (s.refusal k p false ≠ 0 → p.ccell = 0#64 → s.walkerFree → ∃ t, exec (.packetAcceptance q) s = .next t ∧
       t = { s with queues := t.queues } ∧ t.queue n = { k with head := k.head + 1#16 }) ∧
     (s.refusal k p false = 0 → s.walkerFree → (∀ c ∈ cells, (s.place c).isMemory = true) → s.nextLid ≠ 0#32 → s.launch? s.nextLid = none → s.atRest s.nextLid →
       (∃ c ∈ cells, s.tokenStatus c = 0) → (∀ c ∈ cells, s.tokenStatus c < 2) →
       ∃ t m, exec (.packetAcceptance q) s = .next t ∧ (t.queue n).head = k.head + 1#16 ∧ t.launch? s.nextLid = some m ∧
         m.st = .waiting ∧ m.pkt = p ∧ m.q = n ∧ m.asn = k.asn ∧ m.sup = k.sup ∧ m.level = k.level ∧ m.tokens = cells ∧
         m.seed = (if p.flags.getLsbD 3 then s.dseed else p.seed) ∧ m.placed = 0 ∧ t.nextLid = s.nextLid + 1#32)) ∧
    (s.launch? lid = some l →
      (l.st = .waiting → (∀ c ∈ l.tokens, (s.place c).isMemory = true ∧ ∀ p da, s.place c ≠ .peer p da) →
        ((∃ c ∈ l.tokens, 2 ≤ s.tokenStatus c ∧ s.tokenStatus c ≤ 5) → ∃ t, exec (.launchReady lid) s = .next t ∧
          t = { s with launches := t.launches } ∧ t.launch? lid = some { l with st := .ending 5 }) ∧
        ((∀ c ∈ l.tokens, s.tokenStatus c = 1) → s.stream = true → ∃ t, exec (.launchReady lid) s = .next t ∧
          t = { s with launches := t.launches } ∧ t.launch? lid = some { l with st := .ready })) ∧
      (l.st = .suspending → s.stream = true →
        (∀ th ∈ s.threads, th.lid = lid → th.boot = false → th.life ≠ .running ∧ th.life ≠ .parked) →
        ∃ t, exec (.launchSuspended lid) s = .next t ∧
        t.launch? lid = some { l with st := .suspended, waitSince := s.ticks } ∧
        ∀ c i, aget lid.toNat (t.cluster c).insts = some i → i.pinned = false) ∧
      (∀ status pa, s.completes lid l = some status → l.ccell = some pa → pa + 128 ≤ 0xC000000000 → s.atRest lid →
        touchesRegions pa 128 = false →
        (∀ x, pa ≤ x → x < pa + 128 → s.heldByPeer x = false) → status < 256 →
        ∃ t, exec (.launchCompletion lid) s = .next t ∧ t.launch? lid = none ∧
          t.memDword pa = BitVec.ofNat 64 (status * 2 ^ 56 + lid.toNat) ∧ t.memDword (pa + 8) = s.stime ∧
          t.memWord (pa + 28) = s.memWord (pa + 28) + 1#32 ∧
          ∀ k th p m, aget k s.ctxs = some th → th.life = .parked → th.park = some p → p.key = .launchQueue m →
            th.det = false → th.recPend = false → th.pollAt = none →
            aget k t.ctxs = some { th with life := .running, park := none }) ∧
      (s.atRest lid → (∀ n, l.st ≠ .ending n) → (∀ p ∈ s.ctxs, p.2.ckey = p.1 ∧ (s.hasT = true → p.1 ≠ s.t.ckey)) →
        (s.ctxs.map Prod.fst).Pairwise (· < ·) → (s.clusters.map Prod.fst).Pairwise (· < ·) →
        let gone := fun (t : State) (status : Nat) => (∃ m, t.launch? lid = some m ∧ m.st = .ending status ∧ m.pend = [] ∧
          m.boundary = false ∧ m.engines = false) ∧ (∀ c ∈ t.cores, ∀ e ∈ c.2.deque, e.lid ≠ lid) ∧
          t.ofLaunch lid = [] ∧ t.jobsOf lid = []
        (l.overdue = true → ∃ t, exec (.watchdog lid) s = .next t ∧ gone t 2) ∧
        (l.q = q.toNat → ∃ t, exec (.abort q lid) s = .next t ∧ gone t 3 ∧ (t.queue q.toNat).lqk = lid)) ∧
      (l.boundary = true → s.perform = [] → l.st ≠ .suspending → l.st ≠ .suspended → (∀ x ∈ s.jobsOf lid, x.2.state = 3) →
        ∃ t, exec (.quantumBoundary lid) s = .next t ∧
        t = { s with t := t.t, ctxs := t.ctxs, launches := t.launches } ∧
        t.launch? lid = some { l with since := [], boundary := false, engines := decide (s.jobsOf lid ≠ []) } ∧
        ∀ k th, s.thread? k = some th → t.thread? k = some (if s.jobsOf lid = [] ∧ th.lid = lid ∧ th.life = .running ∧
          th.qended = true ∧ th.qop = false then { th with qended := false, qcount := 0 } else th)) ∧
      (∀ th, l.boundary = false → s.boundaryReady lid l = true → s.ofLaunch lid = [th] → s.thread? th.ckey = some th →
        (∀ c ∈ th.sbuf, c.1 < 0xC000000000 ∧ s.granted th.master (128 * (c.1 / 128)) .write = true ∧
          s.heldByPeer c.1 = false) → (th.sbuf.map Prod.fst).Nodup → s.memoriesOk → s.calm th.core →
        ∃ t th', exec (.quantumBoundary lid) s = .next t ∧ (t.launch? lid).map Launch.boundary = some true ∧
          t.perform = s.perform ++ (if (th.life = .running ∧ th.qop = true) ∨ th.life = .parked then [th.ckey] else []) ∧
          t.thread? th.ckey = some th' ∧ th'.sbuf = [] ∧ th'.swhole = [] ∧ th'.slines = [] ∧
          ∀ c ∈ th.sbuf, cellRead t.mem c.1 = c.2)) ∧
    (let s1 := s.noteLevels
     ∀ i ∈ [Instr.aging q, .level1Turn q], s.stream = false → (∀ x ∈ s.launches, x.2.st ≠ .suspending) →
      s.candidateOf q.toNat = some (lid, l) → (∀ p, p < 64 → p ≠ q.toNat → s.candidateOf p = none) →
      (i = .aging q → l.lastE ≠ some (s.effLevel l)) →
      (i = .level1Turn q → s.effLevel l = 1 ∧ (s.preemptee lid l 1).isSome = true) →
      ∀ l1, s1.launch? lid = some l1 → l1.st = .ready →
      (∀ x ∈ l1.tries lid l1.placed s1.logical,
        s1.assign lid l1 l1.placed ((s1.logical.drop x).headD 0xFFFF) false = none) →
      (s1.freeable lid l1 = false → ∃ t, exec i s = .next t ∧ t = { s1 with preempting := [] } ∧
        l1.lastE = some (s.effLevel l)) ∧
      (∀ v m, s1.freeable lid l1 = true → s1.preemptee lid l1 (s.effLevel l) = some v → s1.launch? v = some m →
        ∃ t, exec i s = .next t ∧ (v, lid) ∈ t.preempting ∧ (t.launch? v).map Launch.st = some .suspending ∧
          ∀ k th, s.thread? k = some th → th.lid = v → th.boot = false → th.life = .running ∨ th.life = .parked →
            th.ckey ∉ s.issue → (∀ x, th.kept = some x → x.kind ≠ .sent) → m.boundary = false →
            t.thread? k = some { th with life := .suspended, suspAt := s.ticks, wanted := false }))

/-- R176, R179 to R183, R193, R194: the spill engine writes a context that holds no queue and no buffered store to its
place in the core's area, with its CRC; a context whose record is whole comes back as it was written, where there is
room; and a core that takes an entry of its own deque starts a thread from it. The bytes of the record that name the wait
key are of assumption 37, and the CRC's parameters of assumption 44. -/
def Obligations.ContextEvents : Prop :=
  ∀ (s : State) (c num : Nat) (th : Thread), Memory.wf s.mem = true → s.thread? (1024 * c + num) = some th →
    th.core = c → th.num = num →
    (∀ pa, (s.core c).spla.getLsbD 19 = true → (s.core c).spillHeld = false → (s.core c).spillFailed = false →
      s.spillErr = 0 → th.life = .suspended ∨ th.life = .faulted → th.qb = Vector.replicate 4 none → th.sbuf = [] →
      th.det = false → s.wantsSpill th = true → s.spillWaits th = none →
      (∀ k, k < 512 → s.heldByPeer (pa + k) = false) → s.areaPa (s.core c).spla (512 * num) .write = some pa →
      pa + 512 ≤ 0xC000000000 → touchesRegions pa 512 = false →
      -- the record's own bytes are not what it waits for
      (∀ p x, th.park = some p → p.key = .line x ∨ p.key = .join x → x + 128 ≤ pa ∨ pa + 512 ≤ x) →
      let bytes := th.recordBytes (List.replicate 4 0)
      ∃ t, exec (.spill c num) s = .next t ∧
        t.thread? (1024 * c + num) = some { th with life := .spilled, alternate := false, reflag := false } ∧
        bytes.length = 508 ∧
        ∀ k, k < 512 → cellRead t.mem (pa + k) = (withCrc bytes)[k]!) ∧
    (∀ pa, s.recordPa th .read = some pa → pa + 512 ≤ 0xC000000000 →
     let bs := cellReadN s.mem pa 512
     th.life = .spilled → th.reflag = false → s.refillWaits th = none → th.halted = false → th.killPend = false → th.frec = none → th.resumeAt = none → s.refills th = true →
      s.roomNow c 1 th.blocks = true → (∀ j, j < 4 → field bs (472 + j) 1 < 128) → crc32 (bs.take 508) = field bs 508 4 →
      (∀ p ∈ s.pois, p < pa / 32 ∨ pa / 32 + 16 ≤ p) → field bs 18 1 = 0 → th.det = false → th.park = none →
      ∃ t th', exec (.refill c num) s = .next t ∧ t.thread? (1024 * c + num) = some th' ∧ t.mem = s.mem ∧
        th'.life = (if s.held (BitVec.ofNat 32 (field bs 40 4)) then .suspended else .running) ∧
        th'.pc = BitVec.ofNat 64 (field bs 0 8) ∧ th'.tepc = BitVec.ofNat 64 (field bs 72 8) ∧
        th'.tctl = BitVec.ofNat 32 (field bs 56 4) ∧
        ∀ r, r < 64 → (th'.regs[r]!).val = BitVec.ofNat 32 (field bs (192 + 4 * r) 4)) ∧
    (∀ e l, s.pickEntry c c = some e → s.launch? e.lid = some l → (s.fetchEntry c e).1.isSome = true →
      (if e.kind = 1 ∧ e.orphan = false then stubOf (s.core c).deque e.owner = none else e.cjoin = 0#64) →
      ∃ t th', exec (.takeEntry c) s = .next t ∧ t.thread? (1024 * c + s.freeNum c) = some th' ∧
        th'.life = .running ∧ th'.pc = e.pc ∧ th'.tix = e.tix ∧ th'.path = e.path ∧ th'.lid = e.lid ∧
        th'.mode = e.mode ∧ th'.asn = l.asn ∧ th'.blocks = l.pkt.nreg ∧ th'.regs[2]! = { val := e.sp } ∧
        th'.regs[3]! = { val := e.fp } ∧ (e.kind = 3 → th'.regs[4]! = { val := e.owner }) ∧ e ∉ (t.core c).deque)

/-- R156 to R159: each debug command acts on the halted (for HALT: the running or halted) context that it names, and ends
with its STATUS in the command's slot, the value that it returns, and TAKEN one further: 1, or 6 for a poisoned register; 2
where its target is not halted, 3 where no context has the handle, 4 where the launch has no debug, and 5 for a code, a die
or an item that it does not know, or a value that it does not take. RDREG and WRREG reach every register that the context
has, and RDSREG and WRSREG every special register, the read-only ones but to read. STEP ends once its bundle has run. Which
STATUS comes first where several apply is assumption 51's, and what a debugger names and writes where `sset` would trap is
assumption 59's. -/
def Obligations.DebugEvents : Prop :=
  ∀ (s : State) (d : Nat), Memory.wf s.mem = true → s.cmdWaits d = true →
    let a := s.cmdAddr d
    let base := bits (s.die d).dbgd 51 12 * 4096
    a + 32 ≤ 0xC000000000 → touchesRegions base (a + 32 - base) = false →
    (∀ x, base ≤ x → x < a + 32 → s.heldByPeer x = false) →
    let code := s.cmdCode d
    let h := s.debugHandle (s.memWord (a + 4))
    let v := s.cmdValue d
    let w := v.extractLsb' 0 32
    let r := s.cmdItem d
    let done := fun (t : State) (status : Nat) =>
      (t.die d).taken = (s.die d).taken + 1#32 ∧ (t.die d).stepping = false ∧ t.memWord (base + 64) = (s.die d).taken + 1#32 ∧
      leNat (t.homeRead (a + 2) 2) = status ∧ t.memDword (a + 24) = s.stime
    let idle := fun (i : Instr) (status : Nat) => ∃ t, exec i s = .next t ∧ done t status ∧ t.memDword (a + 16) = v ∧
      ∀ k th, s.thread? k = some th → th.park = none → t.thread? k = some th
    (code = 0 ∨ 9 < code → idle (.halt d) 5) ∧
    (∀ p ∈ [(1, Instr.halt d), (2, .cont d), (3, .step d), (4, .rdreg d), (5, .wrreg d), (6, .rdsreg d), (7, .wrsreg d),
        (8, .rdpc d), (9, .wrpc d)],
      code = p.1 → (p.1 = 3 → (s.die d).stepping = false) →
      (dieOf (wbits h 21 10) ≠ d → idle p.2 5) ∧
      (dieOf (wbits h 21 10) = d → s.byHandle h = none → idle p.2 3) ∧
      (∀ th, dieOf (wbits h 21 10) = d → s.byHandle h = some th →
        (∀ l, s.launch? th.lid = some l → l.pkt.flags.getLsbD 4 = false) → idle p.2 4) ∧
      (∀ th, s.cmdTarget d = .inr th → th.halted = false → p.1 ≠ 1 → idle p.2 2)) ∧
    ∀ th, s.cmdTarget d = .inr th → s.thread? th.ckey = some th → th.park = none →
      let ends := fun (i : Instr) (status : Nat) (th' : Thread) => ∃ t, exec i s = .next t ∧ done t status ∧
        t.thread? th.ckey = some th' ∧ t.memDword (a + 16) = v
      let gives := fun (i : Instr) (status : Nat) (x : DWord) => ∃ t, exec i s = .next t ∧ done t status ∧
        t.thread? th.ckey = some th ∧ t.memDword (a + 16) = x
      let free := { th.pastBrk with halted := false, life := .running, wake := false, pauseLeft := 0 }
      let named := r < 64 ∧ (r < 8 * th.blocks ∨ (th.qm = true ∧ 60 ≤ r))
      (code = 1 → th.halted = false → th.life = .running → th.ckey ∉ s.issue →
        (∀ x, th.kept = some x → x.kind ≠ .sent) → (∀ l, s.launch? th.lid = some l → l.boundary = false) →
        ends (.halt d) 1 { th with life := .suspended, suspAt := s.ticks, halted := true }) ∧
      (code = 1 → th.halted = true → ends (.halt d) 1 th) ∧
      (code = 3 → (s.die d).stepping = true → th.stepMark = false → ends (.step d) 1 th) ∧
      (th.halted = true → th.life = .suspended →
        (code = 2 → s.held th.lid = false → ends (.cont d) 1 free) ∧
        (code = 3 → (s.die d).stepping = false →
          (th.atBrk = true → th.brkPair = false → ends (.step d) 1 th.pastBrk) ∧
          (s.held th.lid = false → (th.atBrk = false ∨ th.brkPair = true) →
            ∃ t, exec (.step d) s = .next t ∧ t.thread? th.ckey = some { free with stepMark := true } ∧ t.mem = s.mem ∧
              (t.die d).stepping = true ∧ (t.die d).taken = (s.die d).taken))) ∧
      (th.halted = true → th.life ≠ .spilled →
        (code = 4 → named → gives (.rdreg d) (if r ≠ 0 ∧ (th.regs[r]!).pois = true then 6 else 1)
          (if r = 0 then 0#64 else (th.regs[r]!).val.setWidth 64)) ∧
        (code = 4 → ¬ named → ends (.rdreg d) 5 th) ∧
        (code = 5 → named →
          ends (.wrreg d) 1 (if r = 0 then th else { th with regs := th.regs.set! r { val := w } })) ∧
        (code = 5 → ¬ named → ends (.wrreg d) 5 th) ∧
        (code = 6 →
          (∀ p ∈ [(0x00, th.tix), (0x01, th.tcnt), (0x02, BitVec.ofNat 32 (th.core % 8)), (0x03, s.lixOf (th.core / 8)),
              (0x04, BitVec.ofNat 32 (th.core / 512)), (0x05, th.lid), (0x06, th.grank), (0x07, th.gsize), (0x0A, th.fctl),
              (0x0B, th.tctl), (0x0C, th.rngs), (0x10, th.tcause), (0x13, th.tprog)],
            th.core < 4096 → r = p.1 → gives (.rdsreg d) 1 (p.2.setWidth 64)) ∧
          (∀ p ∈ [(0x08, (s.core th.core).clk), (0x09, s.stime), (0x0D, th.path), (0x11, th.tepc), (0x12, th.tval),
              (0x14, th.tvec), (0x18, th.svec), (0x19, th.sscratch)], r = p.1 → gives (.rdsreg d) 1 p.2)) ∧
        (∀ i ∈ [Instr.rdsreg d, .wrsreg d], code = (if i = .rdsreg d then 6 else 7) →
          r ∉ [0, 1, 2, 3, 4, 5, 6, 7, 8, 9, 10, 11, 12, 13, 16, 17, 18, 19, 20, 24, 25] → ends i 5 th) ∧
        (code = 7 →
          (r < 10 → ends (.wrsreg d) 5 th) ∧
          (r = 0x0A → w.getLsbD 10 = true → ends (.wrsreg d) 5 th) ∧
          (r = 0x0A → w.getLsbD 10 = false → ∃ f, ends (.wrsreg d) 1 { th with fctl := f } ∧
            ∀ j, f.getLsbD j = (decide (j < 5 ∨ j = 8 ∨ j = 9) && w.getLsbD j)) ∧
          (r = 0x0B → v.getLsbD 6 ≠ th.mode → ends (.wrsreg d) 5 th) ∧
          (r = 0x0B → v.getLsbD 6 = th.mode →
            ends (.wrsreg d) 1
              { th with tctl := th.tctl.extractLsb' 1 31 ++ BitVec.ofBool (w.getLsbD 0 && th.tctl.getLsbD 1) }) ∧
          ∀ p ∈ [(0x0C, { th with rngs := if w = 0#32 then 0x6D2B79F5#32 else w }), (0x0D, { th with path := v }),
              (0x10, { th with tcause := BitVec.ofNat 32 (w.toNat % 1024) }), (0x11, { th with tepc := v }),
              (0x12, { th with tval := v }), (0x13, { th with tprog := w }),
              (0x14, { th with tvec := v.extractLsb' 3 61 ++ 0#3 }), (0x18, { th with svec := v.extractLsb' 3 61 ++ 0#3 }),
              (0x19, { th with sscratch := v })],
            r = p.1 → ends (.wrsreg d) 1 p.2) ∧
        (code = 8 → gives (.rdpc d) 1 th.pc) ∧
        (code = 9 → ends (.wrpc d) 1 { th with pc := v, landed := true, atBrk := false, brkPair := false }))

/-- R347 to R352: GO starts a freeze or a checkpoint with the scheduler held, and its steps follow one another: the
threads of what is dispatched leave the Roll, the launch is suspended, contexts, pages and dirty bytes go to memory. A
freeze whose last bytes are streamed leaves its image and ends with ERR 0. A thaw puts a launch of its image back, or
ends with ERR 4, 5 or 6 where the manifest is not in order, of another version, or of a package with more memory; MODE 11
gives ERR 1; and a host link that fails ends a stream with ERR 3. A step waits for a page that it reads and that a peer
holds (R375). Images are held as data (assumption 16), and the CRC's parameters are assumption 44's. -/
def Obligations.GongEvents : Prop :=
  ∀ (s : State) (v : DWord), (s.launches.map Prod.fst).Pairwise (· < ·) →
    let go := dbit s.gongc 0
    let area := bits s.gongc 51 12 * 4096
    let head := s.homeRead area 4096
    let inOrder := field head 0 4 = 0x474E4F47 ∧ crc32 (head.take 4092) = field head 4092 4 ∧ field head 6 2 ≤ 125 ∧
      ∀ i, i < field head 6 2 →
        crc32 (s.homeRead (area + field head (72 + 32 * i) 8) (field head (80 + 32 * i) 8)) = field head (88 + 32 * i) 4
    let ended := fun (t : State) (err step : Nat) => t.gongErr = err ∧ t.gongStep = step ∧ dbit t.gongc 0 = false ∧
      .msix 2 ∈ t.signals
    (∀ i ∈ [Instr.freeze v, .checkpoint v],
      (go = false → s.stream = false → ∃ t, exec i s = .next t ∧ dbit t.gongc 0 = true ∧ t.stream = true ∧
        t.gongStep = 1 ∧ t.gongErr = 0 ∧ t.launches = s.launches ∧ t.mem = s.mem ∧ t.ctxs = s.ctxs) ∧
      (go = true →
        (s.gongStep = 1 → s.perform = [] → (∀ x ∈ s.launches, x.2.boundary = false) →
          ∃ t, exec i s = .next t ∧ t = { s with gongStep := 2 }) ∧
        (∀ lid l, s.launches = [(lid, l)] → lid < 2 ^ 32 → l.boundary = false →
          (s.gongStep = 2 → s.switches = [] → (∀ n, l.st ≠ .ending n) →
            (∀ th ∈ s.threads, th.lid = BitVec.ofNat 32 lid → th.boot = false → th.life = .running →
              th.ckey ∉ s.issue ∧ ∀ x, th.kept = some x → x.kind ≠ .sent) →
            ∃ t, exec i s = .next t ∧ t.gongStep = 3 ∧ t.launches = s.launches ∧ t.mem = s.mem ∧
              ∀ k th, s.thread? k = some th → th.lid = BitVec.ofNat 32 lid → th.boot = false →
                th.life = .running ∨ th.life = .parked →
                t.thread? k = some { th with life := .suspended, suspAt := s.ticks, wanted := false }) ∧
          (s.gongStep = 3 → l.st = .ready → l.placed ≠ 0 →
            ∃ t m, exec i s = .next t ∧ t.gongStep = 4 ∧ t.launches = [(lid, m)] ∧ m.st = .suspended)) ∧
        (∀ n ∈ [4, 5, 6], s.gongStep = n → (n = 4 → s.tablesHeld = none) → ∃ t, exec i s = .next t ∧ t.gongStep = n + 1) ∧
        (s.gongStep = 6 → (s.cores.map Prod.fst).Pairwise (· < ·) → (∀ c ∈ s.cores, c.2.linesOk) →
          ∃ t, exec i s = .next t ∧ ∀ c, ∀ l ∈ (t.core c).l1, l.dirty = 0#128))) ∧
    (∀ img done, go = true → s.gongStep = 7 → s.streamHeld = none → (s.streamUnits area (bits s.gongl 51 12 * 4096)).1 = some (img, done) →
      done.launches = [] → ∃ t, exec (.freeze v) s = .next t ∧ ended t 0 9 ∧ t.stream = false ∧
        aget (area / 4096) t.images = some img) ∧
    (∀ err, go = true → s.tablesHeld = none → s.manifestRefused area = none →
      (¬ inOrder ∧ err = 4 ∨ inOrder ∧ field head 4 2 ≠ Config.fwMajor ∧ err = 5 ∨
        inOrder ∧ field head 4 2 = Config.fwMajor ∧ deviceBytes < field head 16 8 ∧ err = 6) →
      ∃ t, exec (.thaw v) s = .next t ∧ ended t err 9 ∧ ∀ k, (t.launch? k).isSome = (s.launch? k).isSome) ∧
    (∀ img lid l, go = true → s.manifestRefused area = none → s.thawHeld = none → s.thawCheck area = .image img →
      img = { launches := [(lid, l)], foreign := img.foreign, stime := img.stime, head := img.head, begun := img.begun } →
      lid < 2 ^ 32 → l.st = .waiting → l.pend = [] → (∀ x ∈ s.launches, x.2.pend = []) → s.atRest 0#32 →
      s.launch? 0#32 = none →
      ∃ t m, exec (.thaw v) s = .next t ∧ ended t 0 9 ∧ t.launch? (BitVec.ofNat 32 lid) = some m ∧ m.pkt = l.pkt ∧
        m.st = .waiting ∧ m.q = l.q ∧ m.asn = l.asn) ∧
    (bits v 2 1 = 3 → go = false → ∃ t, exec (.gongBadMode v) s = .next t ∧ t = { s with gongErr := 1 }) ∧
    (go = true → s.stream = true → s.gongStep = 7 →
      ∃ t, exec .hostLinkFailure s = .next t ∧ ended t 3 7 ∧ t.stream = true ∧ t.fatal = s.fatal)

/-- R354, R356 to R360: more than 16 poisonings in an hour and a throttled island are reported; a fatal error stops
the package with a dump that begins with its magic number; the reset of the package clears it, with the islands that
pass their diagnostics to follow; and an island that leaves reset has its clocks at 0 and its boot thread at the ROM.
The die that takes an island's event is assumption 20's, the host's dump area for a lost HBM stack assumption 29's, the
memory that a reset leaves assumption 12's, and the agenda assumption 3's. -/
def Obligations.PackageEvents : Prop :=
  ∀ (s : State) (n : Nat), Memory.wf s.mem = true →
    let d := n / 64
    let reported := fun (d : Nat) (t : State) => (s.die d).events = [] → s.ringHeld (s.die d).mevd = false →
      if s.ringOpen none (s.die d).mevd (s.die d).mprod
      then (t.die d).mprod = (s.die d).mprod + 1#32 else (t.die d).mdrop = (s.die d).mdrop + 1
    (16 < (((s.cluster n).poisonTimes.filter fun t => decide (s.ticks - t ≤ 32400000000000)).length) →
      ∃ t, exec (.poisonThreshold n) s = .next t ∧ (t.cluster n).poisonTimes = [] ∧ reported d t) ∧
    (∀ f c, c.toNat ≤ 4 →
      (n < 512 → 500 ≤ f.toNat → f.toNat ≤ 2250 → f.toNat % 125 = 0 →
        ∃ t, exec (.throttle n f c) s = .next t ∧ (t.cluster n).fmhz = f ∧ (t.cluster n).cause = c ∧ reported d t) ∧
      (512 ≤ n → n < 522 → ∃ t, exec (.throttle n f c) s = .next t ∧ aget n t.islands = some { fmhz := f, cause := c } ∧
        reported (dieOfIsland n) t)) ∧
    (∀ cause, s.fatal = none → (s.die n).mevd.getLsbD 5 = false →
      (dbit s.gongc 0 = true → (s.die 0).mevd.getLsbD 5 = false) →
      let base := if cause = 3#32 then bits s.fdump 51 12 * 4096
        else leNat (cellReadN s.mem (bits s.bmap 51 14 * 16384 + 32) 8)
      ∃ t, exec (.fatalError cause n) s = .next t ∧ t.fatal = some cause ∧ dbit t.gongc 0 = false ∧
        cellReadN t.mem base 4 = leBytes 4 0x504D5544 ∧ t.launches = s.launches ∧ t.ctxs = s.ctxs) ∧
    (∀ failing, ∃ t, exec (.packageReset failing) s = .next t ∧ t.fatal = none ∧ t.launches = [] ∧ t.ctxs = [] ∧
      (∀ p, p < 512 → (p ∈ t.fenced ↔ p ∈ failing)) ∧
      t.agenda = ((List.range 512).filter fun p => !failing.contains p).map Instr.islandResetRelease ∧
      Memory.wf t.mem = true ∧ ∀ a, a < 0xBFFF000000 → cellRead t.mem a = cellRead s.mem a) ∧
    (n < 512 → n ∉ s.fenced → (s.cluster n).live = false →
      ∃ t th, exec (.islandResetRelease n) s = .next t ∧ (t.cluster n).live = true ∧
        (∀ i, i < 8 → (t.core (8 * n + i)).clk = 0#64) ∧ t.thread? (8192 * n) = some th ∧ th.pc = 0x100000000#64 ∧
        th.boot = true ∧ th.mode = true ∧ th.life = .running ∧ th.tcnt = 1#32 ∧ th.blocks = 4 ∧
        (th.receiver = true ↔ ∃ p, p < n ∧ p ∉ s.fenced) ∧ (t.inst n 0#32).size = 65536 ∧
        th.regs[4]! = { val := if ∀ p, p < n → p ∈ s.fenced then BitVec.ofNat 32 (512 - s.fenced.length) else 0#32 })

/-- R124, R129, R132, R133, R214, R222, R223, R239, R242 to R245, R275 to R277, R319, R335, R344 to R346: the conditions
on the state and the operands under which each of these words executes normally, and that it completes then: the
ordering actions and the prefetch always; a sync-cell operation on a cell that its access reaches and whose line is not
poisoned; a copy whose descriptor passes its checks while the queue has room; `ewait` and `eprog` on a number whose job
has ended; a matrix word on an accumulator of the thread's group that its operands fit; `launch` of a packet that is
accepted; a message that finds room, and the oldest message of a mailbox. -/
def Obligations.Completions : Prop :=
  ∀ (s : State) (d a b : RegNo), s.fr.stopped = false → (s.core s.t.core).linesOk → Memory.wf s.mem = true →
    s.calm s.t.core → (s.core s.t.core).sent = [] → s.priors = [] →
    let c := s.t.core
    let cl := c / 8
    let inst := s.inst cl s.t.lid
    let completes := fun (i : Instr) => ∃ t, exec i s = .next t ∧ Completed s t
    let clean := fun (x : Nat) => x % 64 = 0 ∧ x + 64 ≤ s.scratchBytes ∧
      ∀ j, j < 64 → (x + j) / 16384 ∉ inst.lost ∧ scratchSector (x + j) ∉ inst.pois
    let desc := fun (i : Instr) => (List.range 64).map fun j => cellRead inst.data ((s.gA i.shape).toNat + j)
    (∀ sc od imm, ∀ i ∈ [Instr.fence sc od, .fenceI, .pf d a imm], Ready s i.shape → completes i) ∧
    (∀ sc pa, (∀ m, m < 4 → s.pois.contains (s.homeAddr pa / 32 + m) = false) →
      ∀ p ∈ [(Instr.srel d a sc, AccKind.atomic), (.sacq d a sc, .syncRead), (.sadd d a b sc, .atomic), (.scas d a b sc, .atomic)],
        Ready s p.1.shape → s.reaches (s.wA p.1.shape) 128 p.2 pa → completes p.1) ∧
    (s.t.det = false → (aget s.t.lid.toNat (s.cluster cl).insts).isSome = true → s.queueFull = false →
      ∀ p ∈ [(Instr.tcopy d a 63, JobKind.tcopy), (.scopy d a 63, .scopy), (.tfill d a 63, .tfill)],
        Ready s p.1.shape → clean (s.gA p.1.shape).toNat → s.copyVerdict p.2 none (desc p.1) = none → completes p.1) ∧
    (∀ i ∈ [Instr.ewait a, .eprog d a],
      let n := s.gA i.shape
      Ready s i.shape → (n = 0#32 ∨ s.jobStatus n = .old ∨ ∃ e, s.jobStatus n = .ended e ∧ e.state ≠ 4) → completes i) ∧
    (∀ gid, s.t.gsize ≠ 0#32 → s.t.gid = some gid →
      (let w := s.gA (Instr.mxCfg d a).shape
       Ready s (Instr.mxCfg d a).shape → w ≠ 0xFFFFFFFF#32 → cfgOk w = true → s.acc? cl d.toNat = none →
         completes (.mxCfg d a)) ∧
      (∀ e, s.acc? cl d.toNat = some e → e.owner = some gid → s.queueFull = false → s.t.det = false →
        (∀ j ∈ (s.cluster cl).jobs, j.onAcc d.toNat = true → j.kind ≠ .mxLd) →
        (Ready s (Instr.mxZero d).shape → completes (.mxZero d)) ∧
        (e.closed = false →
          (∀ p ∈ ([(Instr.mmaF64 d a b, 0, 4), (.mmaF32 d a b, 1, 16), (.mmaBf16 d a b, 2, 64), (.mmaF16 d a b, 3, 64),
              (.mmaE4m3 d a b, 4, 128), (.mmaE5m2 d a b, 5, 128), (.mmaMx8 d a b, 6, 4), (.mmaE2m1 d a b, 7, 32)] :
              List (Instr × Nat × Nat)),
            let q := (s.gB p.1.shape).toNat
            Ready s p.1.shape → p.2.1 = e.form → clean (s.gA p.1.shape).toNat → s.mmaVerdict p.2.1 (desc p.1) = none →
            q * p.2.2 = e.cnt →
            (carryLabels e.labels { l := Nat.log2 p.2.2, j := q }).length ≤ (if e.form = 0 then 6 else 12) → completes p.1) ∧
          (let i := Instr.mxMerge d a b
           let x := (s.gA i.shape).toNat
           let w := (s.gB i.shape).toNat
           Ready s i.shape → w / 64 % 4 = 0 → x % 64 = 0 → x + (if e.form = 0 then 32768 else 16384) ≤ s.scratchBytes →
           w / 256 * 2 ^ (w % 32) = e.cnt →
           (carryLabels e.labels { l := w % 32, j := w / 256 }).length ≤ (if e.form = 0 then 6 else 12) → completes i)))) ∧
    (∀ l pa s', let i := Instr.launch d a
      Ready s i.shape → s.launch? s.t.lid = some l → s.memCheck (s.wA i.shape) 128 .read = .ok pa s' → s.atMemory pa .read = true →
      let ha := s.homeAddr pa
      let p := packetOf ((List.range 128).map fun j => s.settled c (ha + j))
      let s3 := ((s'.returnPage pa true).ownHome c pa).release c .system
      (∀ m, m < 4 → s.pois.contains (ha / 32 + m) = false) →
      s.recordsFull l.q = false → s3.packetHeld (s.queue l.q) p true = none → s3.refusal (s.queue l.q) p true = 0 →
      s.stream = false → s3.walkerFree →
      (let cells := p.tokens.filterMap (s3.cellPa (s.queue l.q).asn (s.queue l.q).sup)
       (∀ x ∈ cells, (s3.place x).isMemory = true) ∧ (∃ x ∈ cells, s3.tokenStatus x ≠ 1) ∧
         ∀ x ∈ cells, ¬ (2 ≤ s3.tokenStatus x ∧ s3.tokenStatus x ≤ 5)) →
      (∀ q, s.candidateOf q = none) → (∀ x ∈ s.launches, x.2.st ≠ .suspending) → completes i) ∧
    (s.t.det = false →
      (∀ p ∈ [(Instr.nsend a b, sendOk ((s.gA (shSend a b)).toNat), [sendTarget (s.gA (shSend a b)).toNat]),
          (.nmcast a b, mcastOk ((s.gA (shSend a b)).toNat), mcastTargets (s.gA (shSend a b)).toNat)],
        s.t.kept = none → Ready s p.1.shape → p.2.1 = true → clean (s.gB p.1.shape).toNat → p.2.2.Nodup →
        (∀ k ∈ s.cores, ∀ m ∈ k.2.inbound, m.1 ≠ s.t.ckey) → (∀ e ∈ p.2.2, (s.core e).inbound = []) →
        (∀ e ∈ p.2.2, s.liveCluster (e / 8) = true → (s.core e).mail.length < 16) → completes p.1) ∧
      (let i := Instr.nrecv d a
       Ready s i.shape → clean (s.gA i.shape).toNat → (s.core c).mail ≠ [] → completes i))

/-- R61 to R81: what the encoder writes for an instruction whose fields are in their classes, with L as given, the
decoder reads as that instruction, with every operand. -/
def Obligations.DecodeEncodeAgree : Prop :=
  ∀ (i : Instr) (l : BitVec 1), i.wellFormed = true → ∀ w ws, encodeWords l i = w :: ws →
    decodeWords w (ws.headD 0#32) = some i

/-- R61 to R81, R386: a word that the decoder reads is the word that the encoder writes for what it reads, so that no
two words but for L are one instruction, and no reserved bit may differ. -/
def Obligations.EncodeDecodeAgree : Prop :=
  (∀ (w : Word) (i : Instr), isLongWord w = false → decodeWord w = some i → encodeWords (fL w) i = [w]) ∧
  ∀ (w lit : Word) (l : BitVec 1) (i : Instr), isLongWord w = true → fL w = 0#1 → decodeLong w lit = some i →
    encodeWords l i = [w, lit]

/-- R70, R80, R82, R117 and the words that the spec writes out with its rules: each is the word of its instruction. -/
def Obligations.WordsOfTheSpec : Prop :=
  decodeWord 0xC00A30E0#32 = some (.add 5 6 7) ∧ decodeWord 0xFC28B30D#32 = some (.ffma 10 11 12 13) ∧
  decodeWord 0xC00A30F8#32 = some (.bfx 5 6 7) ∧ decodeWord 0xC80A30E0#32 = some (.fadd 5 6 7) ∧
  decodeLong 0x05880000#32 0x12345678#32 = some (.li 4 0x12345678#32) ∧
  decodeWord 0x80000000#32 = some (.bra 0)

/-- R10, R62, R65, R148: where the word at the pc of the next thread of an issue group decodes to an instruction that
no check of its bundle stops, the step executes that instruction, with the pc moved past its words; of a pair the C
word, then the A word on the operands of the bundle's start. Whether an `ldm` or `stm` stands off between its elements,
and whether a load that misses performs after its bundle, is a free choice that `paced` notes (R128, R284, assumptions 7
and 54). A member that waits or stands off holds up those of its issue group that come after it (R166, assumption 7). -/
def Obligations.StepRunsDecodedWords : Prop :=
  ∀ (s s1 : State) (k : Nat) (rest : List Nat) (w : Word), s.fatal = none → s.agenda = [] → s.issue = k :: rest →
    s.t.life = .running → s.t.ckey = k → s.t.pc.toNat % 8 = 0 → s.t.receiver = false → s.t.loads = [] → s.t.owed = none →
    let s0 := ({ s with issue := rest, fr := { s.fr with boundary := false } } : State).fetchFrame
    let after := fun (o : Host.Outcome State Fault Refusal) => match o with
      | .next t => .next ((t.afterBundle (s.t.core / 8)).openGroup k)
      | o => o
    s0.fetchWord s.t.pc = .ok w s1 → s1.upset = 0 → s1.t.kept = none →
    (∀ i, fL w = 1#1 → isLongWord w = false → decodeWord w = some i →
      let s2 := s1.frame 4 w false (bit1 (fK w))
      Ready s2 i.shape → Ready s2 (s2.liveShape i) → step s = after (exec i (s2.paced i))) ∧
    ∀ w2 s1', s1.fetchWord (s.t.pc + 4#64) = .ok w2 s1' → s1'.upset = 0 → s1'.t.kept = none → fL w = 0#1 →
      (∀ i, isLongWord w = true → decodeLong w w2 = some i →
        let s2 := s1'.frame 8 w true false
        Ready s2 i.shape → Ready s2 (s2.liveShape i) → step s = after (exec i (s2.paced i))) ∧
      (∀ c a, fK w = 0#1 → isLongWord w = false → fK w2 = 1#1 → fL w2 = 0#1 → decodeWord w = some c →
        decodeWord w2 = some a →
        let s2 := s1'.frame 8 w true false
        s2.prologue [(w, false, c), (w2, true, a)] = .ok .unit s2 → ∀ s3, exec c (s2.paced c) = .next s3 →
          s3.fr.stopped = false → s3.t.life ≠ .exited → ∀ s4, exec a { s3 with fr := { s3.fr with word := w2, aw := true, latch := some s2.src } } =
            .next s4 → step s = after (.next ({ s4 with fr := { s4.fr with latch := none } } : State).noneLeft))

/-- R356 and assumption 3: what stands on the agenda comes first, but in the middle of an issue group only what its
bundles have set going (R37, R166); loads that have missed perform before most events (R284), and an event that reads a
page which a peer holds waits for its recall (R375). After a fatal error nothing
comes but the reset of the package, and only then does a step stop. R12, R144, R356: every instruction and every event
has an effect in every state, if only to trap; so the package goes on from every state but that after a fatal error. -/
def Obligations.PackageGoesOn : Prop :=
  (∀ (s : State) (i : Instr) (rest : List Instr),
     (s.fatal = none → s.issue = [] → s.agenda = i :: rest → step s = ({ s with agenda := rest } : State).event i) ∧
     (s.fatal = none → s.issue ≠ [] → s.agenda.find? Instr.follows = some i →
       step s = ({ s with agenda := s.agenda.erase i } : State).event i) ∧
     ((∀ th ∈ s.threads, th.loads = []) → s.eventWaits i = none → s.event i = exec i s) ∧
     (∀ failing, s.fatal ≠ none → s.agenda = .packageReset failing :: rest →
       step s = exec (.packageReset failing) { s with agenda := rest }) ∧
     (s.fatal ≠ none → (∀ failing, s.agenda.head? ≠ some (.packageReset failing)) → step s = .fault .waitsForReset)) ∧
  ((∀ (i : Instr) (s : State), ∃ t, exec i s = .next t) ∧ ∀ s : State, s.fatal = none → ∃ t, step s = .next t)

/-- R7, R262 and assumption 1: every step keeps memory in its one canonical form, so that equal memories are equal
data: rising addresses, and no byte listed that reads as an unlisted one. -/
def Obligations.MemoryStaysCanonical : Prop :=
  ∀ s t : State, Memory.wf s.mem = true → step s = .next t → Memory.wf t.mem = true

/-- R7, R264 and assumption 1: every step keeps the tables of the state in order: contexts, cores, clusters and launches by
rising keys, every context under its own key and apart from the one whose bundle issues, memory in its canonical form, and
in every L1 one line of 128 bytes of each number. Many statements have parts of this as a premise. -/
def Obligations.TablesStayInOrder : Prop :=
  ∀ s t : State, s.orderly → step s = .next t → t.orderly

/-- R357, assumptions 1 and 3: the package right after reset has its memory and its tables in order, runs no thread, and
releases every island that passes its diagnostics, in order. -/
def Obligations.ResetReleasesTheIslands : Prop :=
  State.reset.safe = true ∧ State.reset.orderly ∧ State.reset.threads = [] ∧ ∃ t, step State.reset = .next t ∧ t.safe = true ∧ t.threads = [] ∧
    t.agenda = (List.range 512).map Instr.islandResetRelease
end

