-- ==== Sys2Proof/Laws/Memory.lean ====
section
/-! SUPPORT. Keyed lists and canonical byte memories: what a read gives after a write, and that every operation keeps
the canonical form. -/

namespace Sys2Proof.Machine

/-- Keys rise strictly. -/
def Rising {α : Type} (l : List (Nat × α)) : Prop := (l.map Prod.fst).Pairwise (· < ·)

theorem rising_nil {α : Type} : Rising ([] : List (Nat × α)) := List.Pairwise.nil

theorem rising_cons {α : Type} (i : Nat) (x : α) (l : List (Nat × α)) :
    Rising ((i, x) :: l) ↔ (∀ p ∈ l, i < p.1) ∧ Rising l := by
  simp [Rising, List.pairwise_cons]

theorem mem_aset {α : Type} (k : Nat) (x : α) (l : List (Nat × α)) (p : Nat × α) (h : p ∈ aset k x l) :
    p = (k, x) ∨ p ∈ l := by
  induction l with
  | nil => simpa [aset] using h
  | cons q l ih =>
    obtain ⟨i, y⟩ := q
    simp only [aset] at h
    split at h
    · rcases List.mem_cons.1 h with h | h <;> simp [h]
    · split at h
      · rcases List.mem_cons.1 h with h | h <;> simp [h]
      · rcases List.mem_cons.1 h with h | h
        · simp [h]
        · rcases ih h with h | h <;> simp [h]

theorem mem_adel {α : Type} (k : Nat) (l : List (Nat × α)) (p : Nat × α) (h : p ∈ adel k l) : p ∈ l := by
  induction l with
  | nil => simp [adel] at h
  | cons q l ih =>
    obtain ⟨i, y⟩ := q
    simp only [adel] at h
    split at h
    · simp [h]
    · split at h
      · exact h
      · rcases List.mem_cons.1 h with h | h
        · simp [h]
        · simp [ih h]

theorem rising_aset {α : Type} (k : Nat) (x : α) (l : List (Nat × α)) (h : Rising l) : Rising (aset k x l) := by
  induction l with
  | nil => simp [aset, Rising]
  | cons q l ih =>
    obtain ⟨i, y⟩ := q
    obtain ⟨h1, h2⟩ := (rising_cons i y l).1 h
    simp only [aset]
    split
    · subst i; exact (rising_cons _ _ _).2 ⟨h1, h2⟩
    · split
      · rename_i hk
        refine (rising_cons _ _ _).2 ⟨fun p hp => ?_, h⟩
        rcases List.mem_cons.1 hp with hp | hp
        · simpa [hp] using hk
        · exact Nat.lt_trans hk (h1 p hp)
      · refine (rising_cons _ _ _).2 ⟨fun p hp => ?_, ih h2⟩
        rcases mem_aset _ _ _ _ hp with hp | hp
        · subst hp; simp only; omega
        · exact h1 p hp

theorem rising_adel {α : Type} (k : Nat) (l : List (Nat × α)) (h : Rising l) : Rising (adel k l) := by
  induction l with
  | nil => simp [adel, Rising]
  | cons q l ih =>
    obtain ⟨i, y⟩ := q
    obtain ⟨h1, h2⟩ := (rising_cons i y l).1 h
    simp only [adel]
    split
    · exact h2
    · split
      · exact h
      · exact (rising_cons _ _ _).2 ⟨fun p hp => h1 p (mem_adel _ _ _ hp), ih h2⟩

theorem aget_lt {α : Type} (k : Nat) (l : List (Nat × α)) (h : ∀ p ∈ l, k < p.1) : aget k l = none := by
  cases l with
  | nil => rfl
  | cons q l =>
    obtain ⟨i, y⟩ := q
    have := h (i, y) (by simp)
    simp only at this
    simp only [aget]
    rw [if_neg (by omega), if_pos this]

/-- What is set is read. -/
@[simp] theorem aget_aset {α : Type} (k : Nat) (x : α) (l : List (Nat × α)) : aget k (aset k x l) = some x := by
  induction l with
  | nil => simp [aset, aget]
  | cons q l ih =>
    obtain ⟨i, y⟩ := q
    simp only [aset]
    split
    · simp [aget]
    · split
      · simp [aget]
      · rename_i h1 h2
        simp only [aget]
        rw [if_neg h1, if_neg h2, ih]

/-- Setting one key leaves the others. -/
theorem aget_aset_ne {α : Type} (k j : Nat) (x : α) (l : List (Nat × α)) (h : j ≠ k) :
    aget j (aset k x l) = aget j l := by
  induction l with
  | nil =>
    simp only [aset, aget]
    rw [if_neg (Ne.symm h)]; split <;> rfl
  | cons q l ih =>
    obtain ⟨i, y⟩ := q
    simp only [aset]
    split
    · subst i
      simp only [aget]
      rw [if_neg (Ne.symm h), if_neg (Ne.symm h)]
    · split
      · rename_i h1 h2
        simp only [aget]
        rw [if_neg (Ne.symm h)]
        by_cases h3 : j < k
        · rw [if_pos h3, if_neg (by omega), if_pos (by omega)]
        · rw [if_neg h3]
      · simp only [aget, ih]

theorem aget_adel {α : Type} (k : Nat) (l : List (Nat × α)) (h : Rising l) : aget k (adel k l) = none := by
  induction l with
  | nil => rfl
  | cons q l ih =>
    obtain ⟨i, y⟩ := q
    obtain ⟨h1, h2⟩ := (rising_cons i y l).1 h
    simp only [adel]
    split
    · subst i; exact aget_lt _ _ h1
    · split
      · rename_i h3 h4; simp only [aget]; rw [if_neg h3, if_pos h4]
      · rename_i h3 h4; simp only [aget]; rw [if_neg h3, if_neg h4, ih h2]

theorem aget_adel_ne {α : Type} (k j : Nat) (l : List (Nat × α)) (h : Rising l) (hj : j ≠ k) :
    aget j (adel k l) = aget j l := by
  induction l with
  | nil => rfl
  | cons q l ih =>
    obtain ⟨i, y⟩ := q
    obtain ⟨h1, h2⟩ := (rising_cons i y l).1 h
    simp only [adel]
    split
    · subst i
      simp only [aget]
      rw [if_neg (Ne.symm hj)]
      split
      · rename_i h3; exact aget_lt _ _ fun p hp => Nat.lt_trans h3 (h1 p hp)
      · rfl
    · split
      · rfl
      · simp only [aget, ih h2]

/-- The canonical form of a memory: rising addresses, and no byte of 0 listed. -/
theorem wf_iff (m : List Host.Cell) : Memory.wf m = true ↔ Rising m ∧ ∀ c ∈ m, c.2 ≠ 0#8 := by
  simp [Memory.wf, Rising, List.all_eq_true]

theorem wf_nil : Memory.wf [] = true := by simp [wf_iff, Rising]

/-- A write keeps the canonical form. -/
theorem wf_cellWrite (m : List Host.Cell) (a : Nat) (b : Byte) (h : Memory.wf m = true) :
    Memory.wf (cellWrite m a b) = true := by
  rw [wf_iff] at h ⊢
  unfold cellWrite
  split
  · exact ⟨rising_adel _ _ h.1, fun c hc => h.2 c (mem_adel _ _ _ hc)⟩
  · rename_i hb
    refine ⟨rising_aset _ _ _ h.1, fun c hc => ?_⟩
    rcases mem_aset _ _ _ _ hc with hc | hc
    · subst hc; exact hb
    · exact h.2 c hc

/-- A write of bytes keeps the canonical form. -/
theorem wf_cellWriteN (m : List Host.Cell) (a : Nat) (bs : List Byte) (h : Memory.wf m = true) :
    Memory.wf (cellWriteN m a bs) = true := by
  induction bs generalizing m a with
  | nil => exact h
  | cons b bs ih => exact ih _ _ (wf_cellWrite m a b h)

/-- Dropping entries keeps the canonical form. -/
theorem wf_filter (m : List Host.Cell) (p : Host.Cell → Bool) (h : Memory.wf m = true) :
    Memory.wf (m.filter p) = true := by
  rw [wf_iff] at h ⊢
  refine ⟨?_, fun c hc => h.2 c (List.mem_filter.1 hc).1⟩
  have : ((m.filter p).map Prod.fst).Sublist (m.map Prod.fst) := (List.filter_sublist).map _
  exact h.1.sublist this

/-- A loop of writes keeps the canonical form. -/
theorem wf_foldl {α : Type} (f : List Host.Cell → α → List Host.Cell)
    (hf : ∀ m a, Memory.wf m = true → Memory.wf (f m a) = true) (l : List α) (m : List Host.Cell)
    (h : Memory.wf m = true) : Memory.wf (l.foldl f m) = true := by
  induction l generalizing m with
  | nil => exact h
  | cons a l ih => exact ih _ (hf m a h)

/-- A byte written is read. -/
theorem cellRead_cellWrite (m : List Host.Cell) (a : Nat) (b : Byte) (h : Memory.wf m = true) :
    cellRead (cellWrite m a b) a = b := by
  unfold cellRead cellWrite
  split
  · rename_i hb; rw [aget_adel _ _ ((wf_iff m).1 h).1]; simp [hb]
  · simp

/-- A write leaves every other byte. -/
theorem cellRead_cellWrite_ne (m : List Host.Cell) (a j : Nat) (b : Byte) (h : Memory.wf m = true) (hj : j ≠ a) :
    cellRead (cellWrite m a b) j = cellRead m j := by
  unfold cellRead cellWrite
  split
  · rw [aget_adel_ne _ _ _ ((wf_iff m).1 h).1 hj]
  · rw [aget_aset_ne _ _ _ _ hj]

/-- A write of bytes leaves every byte outside them. -/
theorem cellRead_cellWriteN_out (m : List Host.Cell) (a j : Nat) (bs : List Byte) (h : Memory.wf m = true)
    (hj : j < a ∨ a + bs.length ≤ j) : cellRead (cellWriteN m a bs) j = cellRead m j := by
  induction bs generalizing m a with
  | nil => rfl
  | cons b bs ih =>
    simp only [List.length_cons] at hj
    rw [cellWriteN, ih _ _ (wf_cellWrite m a b h) (by omega), cellRead_cellWrite_ne _ _ _ _ h (by omega)]

/-- Bytes written are read. -/
theorem cellRead_cellWriteN (m : List Host.Cell) (a i : Nat) (bs : List Byte) (h : Memory.wf m = true)
    (hi : i < bs.length) : cellRead (cellWriteN m a bs) (a + i) = bs[i] := by
  induction bs generalizing m a i with
  | nil => simp at hi
  | cons b bs ih =>
    cases i with
    | zero => rw [cellWriteN, cellRead_cellWriteN_out _ _ _ _ (wf_cellWrite m a b h) (by omega)]; simp [cellRead_cellWrite _ _ _ h]
    | succ i =>
      have := ih (cellWrite m a b) (a + 1) i (wf_cellWrite m a b h) (by simpa using hi)
      rw [cellWriteN, show a + (i + 1) = a + 1 + i by omega, this]; simp

/-- The bytes written are the bytes read back. -/
theorem cellReadN_cellWriteN (m : List Host.Cell) (a : Nat) (bs : List Byte) (h : Memory.wf m = true) :
    cellReadN (cellWriteN m a bs) a bs.length = bs := by
  have key : ∀ (n : Nat) (m : List Host.Cell) (a : Nat), cellReadN m a n = (List.range n).map fun i => cellRead m (a + i) := by
    intro n
    induction n with
    | zero => intro m a; rfl
    | succ n ih => intro m a; rw [cellReadN, ih, List.range_succ_eq_map]; simp only [Nat.add_zero, List.map_cons, List.map_map]; congr 1; exact List.map_congr_left fun i _ => by simp only [Function.comp]; congr 1; omega
  rw [key]
  refine List.ext_getElem (by simp) fun i h1 h2 => ?_
  simp only [List.getElem_map, List.getElem_range]
  exact cellRead_cellWriteN m a i bs h (by simpa using h1)

/-! Bytes and numbers, and the CRC of a record. -/

theorem length_leBytes (n v : Nat) : (leBytes n v).length = n := by
  induction n generalizing v with
  | zero => rfl
  | succ n ih => simp [leBytes, ih]
theorem leNat_leBytes (n v : Nat) : leNat (leBytes n v) = v % 256 ^ n := by
  induction n generalizing v with
  | zero => simp [leBytes, leNat, Nat.mod_one]
  | succ n ih =>
    have h : 256 ^ (n + 1) = 256 * 256 ^ n := by rw [Nat.pow_succ, Nat.mul_comm]
    rw [leBytes, leNat, ih, BitVec.toNat_ofNat, h, Nat.mod_mul]
theorem crcBit_lt (c : Nat) (h : c < 2 ^ 32) : crcBit c < 2 ^ 32 := by
  unfold crcBit
  split
  · exact Nat.xor_lt_two_pow (by omega) (by decide)
  · omega
theorem crc32_lt (bs : List Byte) : crc32 bs < 2 ^ 32 := by
  unfold crc32
  refine Nat.xor_lt_two_pow ?_ (by decide)
  have : ∀ c, c < 2 ^ 32 → bs.foldl (fun c b =>
      let c := c ^^^ b.toNat
      crcBit (crcBit (crcBit (crcBit (crcBit (crcBit (crcBit (crcBit c)))))))) c < 2 ^ 32 := by
    induction bs with
    | nil => intro c h; exact h
    | cons b bs ih =>
      intro c h
      rw [List.foldl_cons]
      refine ih _ ?_
      have hb : c ^^^ b.toNat < 2 ^ 32 := Nat.xor_lt_two_pow h (Nat.lt_trans b.isLt (by decide))
      exact crcBit_lt _ (crcBit_lt _ (crcBit_lt _ (crcBit_lt _ (crcBit_lt _ (crcBit_lt _ (crcBit_lt _ (crcBit_lt _ hb)))))))
  exact this _ (by decide)
/-- A record with its CRC behind it passes the check of its CRC (R181, R350). -/
theorem crc_field (bs : List Byte) : crc32 ((bs ++ leBytes 4 (crc32 bs)).take bs.length) = field (bs ++ leBytes 4 (crc32 bs)) bs.length 4 := by
  have h : (leBytes 4 (crc32 bs)).take 4 = leBytes 4 (crc32 bs) := List.take_of_length_le (Nat.le_of_eq (length_leBytes 4 _))
  have hl : crc32 bs < 256 ^ 4 := crc32_lt bs
  rw [List.take_left, field, List.drop_left, h, leNat_leBytes]
  exact (Nat.mod_eq_of_lt hl).symm

end Sys2Proof.Machine
end

