-- ==== Sys2Proof/Laws/State.lean ====
section
/-! SUPPORT. What each update of the state leaves in each of its fields. -/

namespace Sys2Proof.Machine

noncomputable section

variable (s : State)

@[simp] theorem State.modCore_t (c : Nat) (f : Core → Core) : (s.modCore c f).t = s.t := rfl
@[simp] theorem State.modCore_perform (c : Nat) (f : Core → Core) : (s.modCore c f).perform = s.perform := rfl
@[simp] theorem State.modCore_ctxs (c : Nat) (f : Core → Core) : (s.modCore c f).ctxs = s.ctxs := rfl
@[simp] theorem State.modCore_fr (c : Nat) (f : Core → Core) : (s.modCore c f).fr = s.fr := rfl
@[simp] theorem State.modCore_agenda (c : Nat) (f : Core → Core) : (s.modCore c f).agenda = s.agenda := rfl
@[simp] theorem State.modCore_issue (c : Nat) (f : Core → Core) : (s.modCore c f).issue = s.issue := rfl
@[simp] theorem State.modCore_opened (c : Nat) (f : Core → Core) : (s.modCore c f).opened = s.opened := rfl
@[simp] theorem State.modCore_jobsIssued (c : Nat) (f : Core → Core) : (s.modCore c f).jobsIssued = s.jobsIssued := rfl
@[simp] theorem State.modCore_cores (c : Nat) (f : Core → Core) : (s.modCore c f).cores = aset c (f (s.core c)) s.cores := rfl
@[simp] theorem State.modCore_clusters (c : Nat) (f : Core → Core) : (s.modCore c f).clusters = s.clusters := rfl
@[simp] theorem State.modCore_dies (c : Nat) (f : Core → Core) : (s.modCore c f).dies = s.dies := rfl
@[simp] theorem State.modCore_launches (c : Nat) (f : Core → Core) : (s.modCore c f).launches = s.launches := rfl
@[simp] theorem State.modCore_queues (c : Nat) (f : Core → Core) : (s.modCore c f).queues = s.queues := rfl
@[simp] theorem State.modCore_mem (c : Nat) (f : Core → Core) : (s.modCore c f).mem = s.mem := rfl
@[simp] theorem State.modCore_pois (c : Nat) (f : Core → Core) : (s.modCore c f).pois = s.pois := rfl
@[simp] theorem State.modCore_rom (c : Nat) (f : Core → Core) : (s.modCore c f).rom = s.rom := rfl
@[simp] theorem State.modCore_pins (c : Nat) (f : Core → Core) : (s.modCore c f).pins = s.pins := rfl
@[simp] theorem State.modCore_switches (c : Nat) (f : Core → Core) : (s.modCore c f).switches = s.switches := rfl
@[simp] theorem State.modCore_access (c : Nat) (f : Core → Core) : (s.modCore c f).access = s.access := rfl
@[simp] theorem State.modCore_violations (c : Nat) (f : Core → Core) : (s.modCore c f).violations = s.violations := rfl
@[simp] theorem State.modCore_ptb (c : Nat) (f : Core → Core) : (s.modCore c f).ptb = s.ptb := rfl
@[simp] theorem State.modCore_asb (c : Nat) (f : Core → Core) : (s.modCore c f).asb = s.asb := rfl
@[simp] theorem State.modCore_gongc (c : Nat) (f : Core → Core) : (s.modCore c f).gongc = s.gongc := rfl
@[simp] theorem State.modCore_gongl (c : Nat) (f : Core → Core) : (s.modCore c f).gongl = s.gongl := rfl
@[simp] theorem State.modCore_gongErr (c : Nat) (f : Core → Core) : (s.modCore c f).gongErr = s.gongErr := rfl
@[simp] theorem State.modCore_gongStep (c : Nat) (f : Core → Core) : (s.modCore c f).gongStep = s.gongStep := rfl
@[simp] theorem State.modCore_gongNl (c : Nat) (f : Core → Core) : (s.modCore c f).gongNl = s.gongNl := rfl
@[simp] theorem State.modCore_gongFrom (c : Nat) (f : Core → Core) : (s.modCore c f).gongFrom = s.gongFrom := rfl
@[simp] theorem State.modCore_stream (c : Nat) (f : Core → Core) : (s.modCore c f).stream = s.stream := rfl
@[simp] theorem State.modCore_fdump (c : Nat) (f : Core → Core) : (s.modCore c f).fdump = s.fdump := rfl
@[simp] theorem State.modCore_dseed (c : Nat) (f : Core → Core) : (s.modCore c f).dseed = s.dseed := rfl
@[simp] theorem State.modCore_rrep (c : Nat) (f : Core → Core) : (s.modCore c f).rrep = s.rrep := rfl
@[simp] theorem State.modCore_reported (c : Nat) (f : Core → Core) : (s.modCore c f).reported = s.reported := rfl
@[simp] theorem State.modCore_bmap (c : Nat) (f : Core → Core) : (s.modCore c f).bmap = s.bmap := rfl
@[simp] theorem State.modCore_mypn (c : Nat) (f : Core → Core) : (s.modCore c f).mypn = s.mypn := rfl
@[simp] theorem State.modCore_ccb (c : Nat) (f : Core → Core) : (s.modCore c f).ccb = s.ccb := rfl
@[simp] theorem State.modCore_endpoints (c : Nat) (f : Core → Core) : (s.modCore c f).endpoints = s.endpoints := rfl
@[simp] theorem State.modCore_nextLid (c : Nat) (f : Core → Core) : (s.modCore c f).nextLid = s.nextLid := rfl
@[simp] theorem State.modCore_accepted (c : Nat) (f : Core → Core) : (s.modCore c f).accepted = s.accepted := rfl
@[simp] theorem State.modCore_rr (c : Nat) (f : Core → Core) : (s.modCore c f).rr = s.rr := rfl
@[simp] theorem State.modCore_preempting (c : Nat) (f : Core → Core) : (s.modCore c f).preempting = s.preempting := rfl
@[simp] theorem State.modCore_stalled (c : Nat) (f : Core → Core) : (s.modCore c f).stalled = s.stalled := rfl
@[simp] theorem State.modCore_peerClocks (c : Nat) (f : Core → Core) : (s.modCore c f).peerClocks = s.peerClocks := rfl
@[simp] theorem State.modCore_inserted (c : Nat) (f : Core → Core) : (s.modCore c f).inserted = s.inserted := rfl
@[simp] theorem State.modCore_poolless (c : Nat) (f : Core → Core) : (s.modCore c f).poolless = s.poolless := rfl
@[simp] theorem State.modCore_bootImage (c : Nat) (f : Core → Core) : (s.modCore c f).bootImage = s.bootImage := rfl
@[simp] theorem State.modCore_fenced (c : Nat) (f : Core → Core) : (s.modCore c f).fenced = s.fenced := rfl
@[simp] theorem State.modCore_toFence (c : Nat) (f : Core → Core) : (s.modCore c f).toFence = s.toFence := rfl
@[simp] theorem State.modCore_mapGen (c : Nat) (f : Core → Core) : (s.modCore c f).mapGen = s.mapGen := rfl
@[simp] theorem State.modCore_colls (c : Nat) (f : Core → Core) : (s.modCore c f).colls = s.colls := rfl
@[simp] theorem State.modCore_arrived (c : Nat) (f : Core → Core) : (s.modCore c f).arrived = s.arrived := rfl
@[simp] theorem State.modCore_grants (c : Nat) (f : Core → Core) : (s.modCore c f).grants = s.grants := rfl
@[simp] theorem State.modCore_directory (c : Nat) (f : Core → Core) : (s.modCore c f).directory = s.directory := rfl
@[simp] theorem State.modCore_deferred (c : Nat) (f : Core → Core) : (s.modCore c f).deferred = s.deferred := rfl
@[simp] theorem State.modCore_linkA (c : Nat) (f : Core → Core) : (s.modCore c f).linkA = s.linkA := rfl
@[simp] theorem State.modCore_linkB (c : Nat) (f : Core → Core) : (s.modCore c f).linkB = s.linkB := rfl
@[simp] theorem State.modCore_images (c : Nat) (f : Core → Core) : (s.modCore c f).images = s.images := rfl
@[simp] theorem State.modCore_streamed (c : Nat) (f : Core → Core) : (s.modCore c f).streamed = s.streamed := rfl
@[simp] theorem State.modCore_signals (c : Nat) (f : Core → Core) : (s.modCore c f).signals = s.signals := rfl
@[simp] theorem State.modCore_fatal (c : Nat) (f : Core → Core) : (s.modCore c f).fatal = s.fatal := rfl
@[simp] theorem State.modCore_ticks (c : Nat) (f : Core → Core) : (s.modCore c f).ticks = s.ticks := rfl
@[simp] theorem State.modCore_turn (c : Nat) (f : Core → Core) : (s.modCore c f).turn = s.turn := rfl
@[simp] theorem State.modCore_fresh (c : Nat) (f : Core → Core) : (s.modCore c f).fresh = s.fresh := rfl
@[simp] theorem State.modCore_upset (c : Nat) (f : Core → Core) : (s.modCore c f).upset = s.upset := rfl
@[simp] theorem State.modCore_spillErr (c : Nat) (f : Core → Core) : (s.modCore c f).spillErr = s.spillErr := rfl
@[simp] theorem State.modCore_islands (c : Nat) (f : Core → Core) : (s.modCore c f).islands = s.islands := rfl
@[simp] theorem State.modCore_lostPeers (c : Nat) (f : Core → Core) : (s.modCore c f).lostPeers = s.lostPeers := rfl
@[simp] theorem State.modCore_peerWatches (c : Nat) (f : Core → Core) : (s.modCore c f).peerWatches = s.peerWatches := rfl
@[simp] theorem State.modCore_recalls (c : Nat) (f : Core → Core) : (s.modCore c f).recalls = s.recalls := rfl
@[simp] theorem State.modCore_heldBytes (c : Nat) (f : Core → Core) : (s.modCore c f).heldBytes = s.heldBytes := rfl
@[simp] theorem State.modCore_unplaced (c : Nat) (f : Core → Core) : (s.modCore c f).unplaced = s.unplaced := rfl
@[simp] theorem State.modCore_regErrs (c : Nat) (f : Core → Core) : (s.modCore c f).regErrs = s.regErrs := rfl
@[simp] theorem State.modCore_memErrs (c : Nat) (f : Core → Core) : (s.modCore c f).memErrs = s.memErrs := rfl

@[simp] theorem State.modCluster_t (c : Nat) (f : Cluster → Cluster) : (s.modCluster c f).t = s.t := rfl
@[simp] theorem State.modCluster_perform (c : Nat) (f : Cluster → Cluster) : (s.modCluster c f).perform = s.perform := rfl
@[simp] theorem State.modCluster_ctxs (c : Nat) (f : Cluster → Cluster) : (s.modCluster c f).ctxs = s.ctxs := rfl
@[simp] theorem State.modCluster_fr (c : Nat) (f : Cluster → Cluster) : (s.modCluster c f).fr = s.fr := rfl
@[simp] theorem State.modCluster_agenda (c : Nat) (f : Cluster → Cluster) : (s.modCluster c f).agenda = s.agenda := rfl
@[simp] theorem State.modCluster_issue (c : Nat) (f : Cluster → Cluster) : (s.modCluster c f).issue = s.issue := rfl
@[simp] theorem State.modCluster_opened (c : Nat) (f : Cluster → Cluster) : (s.modCluster c f).opened = s.opened := rfl
@[simp] theorem State.modCluster_jobsIssued (c : Nat) (f : Cluster → Cluster) : (s.modCluster c f).jobsIssued = s.jobsIssued := rfl
@[simp] theorem State.modCluster_cores (c : Nat) (f : Cluster → Cluster) : (s.modCluster c f).cores = s.cores := rfl
@[simp] theorem State.modCluster_clusters (c : Nat) (f : Cluster → Cluster) : (s.modCluster c f).clusters = aset c (f (s.cluster c)) s.clusters := rfl
@[simp] theorem State.modCluster_dies (c : Nat) (f : Cluster → Cluster) : (s.modCluster c f).dies = s.dies := rfl
@[simp] theorem State.modCluster_launches (c : Nat) (f : Cluster → Cluster) : (s.modCluster c f).launches = s.launches := rfl
@[simp] theorem State.modCluster_queues (c : Nat) (f : Cluster → Cluster) : (s.modCluster c f).queues = s.queues := rfl
@[simp] theorem State.modCluster_mem (c : Nat) (f : Cluster → Cluster) : (s.modCluster c f).mem = s.mem := rfl
@[simp] theorem State.modCluster_pois (c : Nat) (f : Cluster → Cluster) : (s.modCluster c f).pois = s.pois := rfl
@[simp] theorem State.modCluster_rom (c : Nat) (f : Cluster → Cluster) : (s.modCluster c f).rom = s.rom := rfl
@[simp] theorem State.modCluster_pins (c : Nat) (f : Cluster → Cluster) : (s.modCluster c f).pins = s.pins := rfl
@[simp] theorem State.modCluster_switches (c : Nat) (f : Cluster → Cluster) : (s.modCluster c f).switches = s.switches := rfl
@[simp] theorem State.modCluster_access (c : Nat) (f : Cluster → Cluster) : (s.modCluster c f).access = s.access := rfl
@[simp] theorem State.modCluster_violations (c : Nat) (f : Cluster → Cluster) : (s.modCluster c f).violations = s.violations := rfl
@[simp] theorem State.modCluster_ptb (c : Nat) (f : Cluster → Cluster) : (s.modCluster c f).ptb = s.ptb := rfl
@[simp] theorem State.modCluster_asb (c : Nat) (f : Cluster → Cluster) : (s.modCluster c f).asb = s.asb := rfl
@[simp] theorem State.modCluster_gongc (c : Nat) (f : Cluster → Cluster) : (s.modCluster c f).gongc = s.gongc := rfl
@[simp] theorem State.modCluster_gongl (c : Nat) (f : Cluster → Cluster) : (s.modCluster c f).gongl = s.gongl := rfl
@[simp] theorem State.modCluster_gongErr (c : Nat) (f : Cluster → Cluster) : (s.modCluster c f).gongErr = s.gongErr := rfl
@[simp] theorem State.modCluster_gongStep (c : Nat) (f : Cluster → Cluster) : (s.modCluster c f).gongStep = s.gongStep := rfl
@[simp] theorem State.modCluster_gongNl (c : Nat) (f : Cluster → Cluster) : (s.modCluster c f).gongNl = s.gongNl := rfl
@[simp] theorem State.modCluster_gongFrom (c : Nat) (f : Cluster → Cluster) : (s.modCluster c f).gongFrom = s.gongFrom := rfl
@[simp] theorem State.modCluster_stream (c : Nat) (f : Cluster → Cluster) : (s.modCluster c f).stream = s.stream := rfl
@[simp] theorem State.modCluster_fdump (c : Nat) (f : Cluster → Cluster) : (s.modCluster c f).fdump = s.fdump := rfl
@[simp] theorem State.modCluster_dseed (c : Nat) (f : Cluster → Cluster) : (s.modCluster c f).dseed = s.dseed := rfl
@[simp] theorem State.modCluster_rrep (c : Nat) (f : Cluster → Cluster) : (s.modCluster c f).rrep = s.rrep := rfl
@[simp] theorem State.modCluster_reported (c : Nat) (f : Cluster → Cluster) : (s.modCluster c f).reported = s.reported := rfl
@[simp] theorem State.modCluster_bmap (c : Nat) (f : Cluster → Cluster) : (s.modCluster c f).bmap = s.bmap := rfl
@[simp] theorem State.modCluster_mypn (c : Nat) (f : Cluster → Cluster) : (s.modCluster c f).mypn = s.mypn := rfl
@[simp] theorem State.modCluster_ccb (c : Nat) (f : Cluster → Cluster) : (s.modCluster c f).ccb = s.ccb := rfl
@[simp] theorem State.modCluster_endpoints (c : Nat) (f : Cluster → Cluster) : (s.modCluster c f).endpoints = s.endpoints := rfl
@[simp] theorem State.modCluster_nextLid (c : Nat) (f : Cluster → Cluster) : (s.modCluster c f).nextLid = s.nextLid := rfl
@[simp] theorem State.modCluster_accepted (c : Nat) (f : Cluster → Cluster) : (s.modCluster c f).accepted = s.accepted := rfl
@[simp] theorem State.modCluster_rr (c : Nat) (f : Cluster → Cluster) : (s.modCluster c f).rr = s.rr := rfl
@[simp] theorem State.modCluster_preempting (c : Nat) (f : Cluster → Cluster) : (s.modCluster c f).preempting = s.preempting := rfl
@[simp] theorem State.modCluster_stalled (c : Nat) (f : Cluster → Cluster) : (s.modCluster c f).stalled = s.stalled := rfl
@[simp] theorem State.modCluster_peerClocks (c : Nat) (f : Cluster → Cluster) : (s.modCluster c f).peerClocks = s.peerClocks := rfl
@[simp] theorem State.modCluster_inserted (c : Nat) (f : Cluster → Cluster) : (s.modCluster c f).inserted = s.inserted := rfl
@[simp] theorem State.modCluster_poolless (c : Nat) (f : Cluster → Cluster) : (s.modCluster c f).poolless = s.poolless := rfl
@[simp] theorem State.modCluster_bootImage (c : Nat) (f : Cluster → Cluster) : (s.modCluster c f).bootImage = s.bootImage := rfl
@[simp] theorem State.modCluster_fenced (c : Nat) (f : Cluster → Cluster) : (s.modCluster c f).fenced = s.fenced := rfl
@[simp] theorem State.modCluster_toFence (c : Nat) (f : Cluster → Cluster) : (s.modCluster c f).toFence = s.toFence := rfl
@[simp] theorem State.modCluster_mapGen (c : Nat) (f : Cluster → Cluster) : (s.modCluster c f).mapGen = s.mapGen := rfl
@[simp] theorem State.modCluster_colls (c : Nat) (f : Cluster → Cluster) : (s.modCluster c f).colls = s.colls := rfl
@[simp] theorem State.modCluster_arrived (c : Nat) (f : Cluster → Cluster) : (s.modCluster c f).arrived = s.arrived := rfl
@[simp] theorem State.modCluster_grants (c : Nat) (f : Cluster → Cluster) : (s.modCluster c f).grants = s.grants := rfl
@[simp] theorem State.modCluster_directory (c : Nat) (f : Cluster → Cluster) : (s.modCluster c f).directory = s.directory := rfl
@[simp] theorem State.modCluster_deferred (c : Nat) (f : Cluster → Cluster) : (s.modCluster c f).deferred = s.deferred := rfl
@[simp] theorem State.modCluster_linkA (c : Nat) (f : Cluster → Cluster) : (s.modCluster c f).linkA = s.linkA := rfl
@[simp] theorem State.modCluster_linkB (c : Nat) (f : Cluster → Cluster) : (s.modCluster c f).linkB = s.linkB := rfl
@[simp] theorem State.modCluster_images (c : Nat) (f : Cluster → Cluster) : (s.modCluster c f).images = s.images := rfl
@[simp] theorem State.modCluster_streamed (c : Nat) (f : Cluster → Cluster) : (s.modCluster c f).streamed = s.streamed := rfl
@[simp] theorem State.modCluster_signals (c : Nat) (f : Cluster → Cluster) : (s.modCluster c f).signals = s.signals := rfl
@[simp] theorem State.modCluster_fatal (c : Nat) (f : Cluster → Cluster) : (s.modCluster c f).fatal = s.fatal := rfl
@[simp] theorem State.modCluster_ticks (c : Nat) (f : Cluster → Cluster) : (s.modCluster c f).ticks = s.ticks := rfl
@[simp] theorem State.modCluster_turn (c : Nat) (f : Cluster → Cluster) : (s.modCluster c f).turn = s.turn := rfl
@[simp] theorem State.modCluster_fresh (c : Nat) (f : Cluster → Cluster) : (s.modCluster c f).fresh = s.fresh := rfl
@[simp] theorem State.modCluster_upset (c : Nat) (f : Cluster → Cluster) : (s.modCluster c f).upset = s.upset := rfl
@[simp] theorem State.modCluster_spillErr (c : Nat) (f : Cluster → Cluster) : (s.modCluster c f).spillErr = s.spillErr := rfl
@[simp] theorem State.modCluster_islands (c : Nat) (f : Cluster → Cluster) : (s.modCluster c f).islands = s.islands := rfl
@[simp] theorem State.modCluster_lostPeers (c : Nat) (f : Cluster → Cluster) : (s.modCluster c f).lostPeers = s.lostPeers := rfl
@[simp] theorem State.modCluster_peerWatches (c : Nat) (f : Cluster → Cluster) : (s.modCluster c f).peerWatches = s.peerWatches := rfl
@[simp] theorem State.modCluster_recalls (c : Nat) (f : Cluster → Cluster) : (s.modCluster c f).recalls = s.recalls := rfl
@[simp] theorem State.modCluster_heldBytes (c : Nat) (f : Cluster → Cluster) : (s.modCluster c f).heldBytes = s.heldBytes := rfl
@[simp] theorem State.modCluster_unplaced (c : Nat) (f : Cluster → Cluster) : (s.modCluster c f).unplaced = s.unplaced := rfl
@[simp] theorem State.modCluster_regErrs (c : Nat) (f : Cluster → Cluster) : (s.modCluster c f).regErrs = s.regErrs := rfl
@[simp] theorem State.modCluster_memErrs (c : Nat) (f : Cluster → Cluster) : (s.modCluster c f).memErrs = s.memErrs := rfl

@[simp] theorem State.modDie_t (c : Nat) (f : Die → Die) : (s.modDie c f).t = s.t := rfl
@[simp] theorem State.modDie_perform (c : Nat) (f : Die → Die) : (s.modDie c f).perform = s.perform := rfl
@[simp] theorem State.modDie_ctxs (c : Nat) (f : Die → Die) : (s.modDie c f).ctxs = s.ctxs := rfl
@[simp] theorem State.modDie_fr (c : Nat) (f : Die → Die) : (s.modDie c f).fr = s.fr := rfl
@[simp] theorem State.modDie_agenda (c : Nat) (f : Die → Die) : (s.modDie c f).agenda = s.agenda := rfl
@[simp] theorem State.modDie_issue (c : Nat) (f : Die → Die) : (s.modDie c f).issue = s.issue := rfl
@[simp] theorem State.modDie_opened (c : Nat) (f : Die → Die) : (s.modDie c f).opened = s.opened := rfl
@[simp] theorem State.modDie_jobsIssued (c : Nat) (f : Die → Die) : (s.modDie c f).jobsIssued = s.jobsIssued := rfl
@[simp] theorem State.modDie_cores (c : Nat) (f : Die → Die) : (s.modDie c f).cores = s.cores := rfl
@[simp] theorem State.modDie_clusters (c : Nat) (f : Die → Die) : (s.modDie c f).clusters = s.clusters := rfl
@[simp] theorem State.modDie_dies (c : Nat) (f : Die → Die) : (s.modDie c f).dies = aset c (f (s.die c)) s.dies := rfl
@[simp] theorem State.modDie_launches (c : Nat) (f : Die → Die) : (s.modDie c f).launches = s.launches := rfl
@[simp] theorem State.modDie_queues (c : Nat) (f : Die → Die) : (s.modDie c f).queues = s.queues := rfl
@[simp] theorem State.modDie_mem (c : Nat) (f : Die → Die) : (s.modDie c f).mem = s.mem := rfl
@[simp] theorem State.modDie_pois (c : Nat) (f : Die → Die) : (s.modDie c f).pois = s.pois := rfl
@[simp] theorem State.modDie_rom (c : Nat) (f : Die → Die) : (s.modDie c f).rom = s.rom := rfl
@[simp] theorem State.modDie_pins (c : Nat) (f : Die → Die) : (s.modDie c f).pins = s.pins := rfl
@[simp] theorem State.modDie_switches (c : Nat) (f : Die → Die) : (s.modDie c f).switches = s.switches := rfl
@[simp] theorem State.modDie_access (c : Nat) (f : Die → Die) : (s.modDie c f).access = s.access := rfl
@[simp] theorem State.modDie_violations (c : Nat) (f : Die → Die) : (s.modDie c f).violations = s.violations := rfl
@[simp] theorem State.modDie_ptb (c : Nat) (f : Die → Die) : (s.modDie c f).ptb = s.ptb := rfl
@[simp] theorem State.modDie_asb (c : Nat) (f : Die → Die) : (s.modDie c f).asb = s.asb := rfl
@[simp] theorem State.modDie_gongc (c : Nat) (f : Die → Die) : (s.modDie c f).gongc = s.gongc := rfl
@[simp] theorem State.modDie_gongl (c : Nat) (f : Die → Die) : (s.modDie c f).gongl = s.gongl := rfl
@[simp] theorem State.modDie_gongErr (c : Nat) (f : Die → Die) : (s.modDie c f).gongErr = s.gongErr := rfl
@[simp] theorem State.modDie_gongStep (c : Nat) (f : Die → Die) : (s.modDie c f).gongStep = s.gongStep := rfl
@[simp] theorem State.modDie_gongNl (c : Nat) (f : Die → Die) : (s.modDie c f).gongNl = s.gongNl := rfl
@[simp] theorem State.modDie_gongFrom (c : Nat) (f : Die → Die) : (s.modDie c f).gongFrom = s.gongFrom := rfl
@[simp] theorem State.modDie_stream (c : Nat) (f : Die → Die) : (s.modDie c f).stream = s.stream := rfl
@[simp] theorem State.modDie_fdump (c : Nat) (f : Die → Die) : (s.modDie c f).fdump = s.fdump := rfl
@[simp] theorem State.modDie_dseed (c : Nat) (f : Die → Die) : (s.modDie c f).dseed = s.dseed := rfl
@[simp] theorem State.modDie_rrep (c : Nat) (f : Die → Die) : (s.modDie c f).rrep = s.rrep := rfl
@[simp] theorem State.modDie_reported (c : Nat) (f : Die → Die) : (s.modDie c f).reported = s.reported := rfl
@[simp] theorem State.modDie_bmap (c : Nat) (f : Die → Die) : (s.modDie c f).bmap = s.bmap := rfl
@[simp] theorem State.modDie_mypn (c : Nat) (f : Die → Die) : (s.modDie c f).mypn = s.mypn := rfl
@[simp] theorem State.modDie_ccb (c : Nat) (f : Die → Die) : (s.modDie c f).ccb = s.ccb := rfl
@[simp] theorem State.modDie_endpoints (c : Nat) (f : Die → Die) : (s.modDie c f).endpoints = s.endpoints := rfl
@[simp] theorem State.modDie_nextLid (c : Nat) (f : Die → Die) : (s.modDie c f).nextLid = s.nextLid := rfl
@[simp] theorem State.modDie_accepted (c : Nat) (f : Die → Die) : (s.modDie c f).accepted = s.accepted := rfl
@[simp] theorem State.modDie_rr (c : Nat) (f : Die → Die) : (s.modDie c f).rr = s.rr := rfl
@[simp] theorem State.modDie_preempting (c : Nat) (f : Die → Die) : (s.modDie c f).preempting = s.preempting := rfl
@[simp] theorem State.modDie_stalled (c : Nat) (f : Die → Die) : (s.modDie c f).stalled = s.stalled := rfl
@[simp] theorem State.modDie_peerClocks (c : Nat) (f : Die → Die) : (s.modDie c f).peerClocks = s.peerClocks := rfl
@[simp] theorem State.modDie_inserted (c : Nat) (f : Die → Die) : (s.modDie c f).inserted = s.inserted := rfl
@[simp] theorem State.modDie_poolless (c : Nat) (f : Die → Die) : (s.modDie c f).poolless = s.poolless := rfl
@[simp] theorem State.modDie_bootImage (c : Nat) (f : Die → Die) : (s.modDie c f).bootImage = s.bootImage := rfl
@[simp] theorem State.modDie_fenced (c : Nat) (f : Die → Die) : (s.modDie c f).fenced = s.fenced := rfl
@[simp] theorem State.modDie_toFence (c : Nat) (f : Die → Die) : (s.modDie c f).toFence = s.toFence := rfl
@[simp] theorem State.modDie_mapGen (c : Nat) (f : Die → Die) : (s.modDie c f).mapGen = s.mapGen := rfl
@[simp] theorem State.modDie_colls (c : Nat) (f : Die → Die) : (s.modDie c f).colls = s.colls := rfl
@[simp] theorem State.modDie_arrived (c : Nat) (f : Die → Die) : (s.modDie c f).arrived = s.arrived := rfl
@[simp] theorem State.modDie_grants (c : Nat) (f : Die → Die) : (s.modDie c f).grants = s.grants := rfl
@[simp] theorem State.modDie_directory (c : Nat) (f : Die → Die) : (s.modDie c f).directory = s.directory := rfl
@[simp] theorem State.modDie_deferred (c : Nat) (f : Die → Die) : (s.modDie c f).deferred = s.deferred := rfl
@[simp] theorem State.modDie_linkA (c : Nat) (f : Die → Die) : (s.modDie c f).linkA = s.linkA := rfl
@[simp] theorem State.modDie_linkB (c : Nat) (f : Die → Die) : (s.modDie c f).linkB = s.linkB := rfl
@[simp] theorem State.modDie_images (c : Nat) (f : Die → Die) : (s.modDie c f).images = s.images := rfl
@[simp] theorem State.modDie_streamed (c : Nat) (f : Die → Die) : (s.modDie c f).streamed = s.streamed := rfl
@[simp] theorem State.modDie_signals (c : Nat) (f : Die → Die) : (s.modDie c f).signals = s.signals := rfl
@[simp] theorem State.modDie_fatal (c : Nat) (f : Die → Die) : (s.modDie c f).fatal = s.fatal := rfl
@[simp] theorem State.modDie_ticks (c : Nat) (f : Die → Die) : (s.modDie c f).ticks = s.ticks := rfl
@[simp] theorem State.modDie_turn (c : Nat) (f : Die → Die) : (s.modDie c f).turn = s.turn := rfl
@[simp] theorem State.modDie_fresh (c : Nat) (f : Die → Die) : (s.modDie c f).fresh = s.fresh := rfl
@[simp] theorem State.modDie_upset (c : Nat) (f : Die → Die) : (s.modDie c f).upset = s.upset := rfl
@[simp] theorem State.modDie_spillErr (c : Nat) (f : Die → Die) : (s.modDie c f).spillErr = s.spillErr := rfl
@[simp] theorem State.modDie_islands (c : Nat) (f : Die → Die) : (s.modDie c f).islands = s.islands := rfl
@[simp] theorem State.modDie_lostPeers (c : Nat) (f : Die → Die) : (s.modDie c f).lostPeers = s.lostPeers := rfl
@[simp] theorem State.modDie_peerWatches (c : Nat) (f : Die → Die) : (s.modDie c f).peerWatches = s.peerWatches := rfl
@[simp] theorem State.modDie_recalls (c : Nat) (f : Die → Die) : (s.modDie c f).recalls = s.recalls := rfl
@[simp] theorem State.modDie_heldBytes (c : Nat) (f : Die → Die) : (s.modDie c f).heldBytes = s.heldBytes := rfl
@[simp] theorem State.modDie_unplaced (c : Nat) (f : Die → Die) : (s.modDie c f).unplaced = s.unplaced := rfl
@[simp] theorem State.modDie_regErrs (c : Nat) (f : Die → Die) : (s.modDie c f).regErrs = s.regErrs := rfl
@[simp] theorem State.modDie_memErrs (c : Nat) (f : Die → Die) : (s.modDie c f).memErrs = s.memErrs := rfl

@[simp] theorem State.modQueue_t (c : Nat) (f : Queue → Queue) : (s.modQueue c f).t = s.t := rfl
@[simp] theorem State.modQueue_perform (c : Nat) (f : Queue → Queue) : (s.modQueue c f).perform = s.perform := rfl
@[simp] theorem State.modQueue_ctxs (c : Nat) (f : Queue → Queue) : (s.modQueue c f).ctxs = s.ctxs := rfl
@[simp] theorem State.modQueue_fr (c : Nat) (f : Queue → Queue) : (s.modQueue c f).fr = s.fr := rfl
@[simp] theorem State.modQueue_agenda (c : Nat) (f : Queue → Queue) : (s.modQueue c f).agenda = s.agenda := rfl
@[simp] theorem State.modQueue_issue (c : Nat) (f : Queue → Queue) : (s.modQueue c f).issue = s.issue := rfl
@[simp] theorem State.modQueue_opened (c : Nat) (f : Queue → Queue) : (s.modQueue c f).opened = s.opened := rfl
@[simp] theorem State.modQueue_jobsIssued (c : Nat) (f : Queue → Queue) : (s.modQueue c f).jobsIssued = s.jobsIssued := rfl
@[simp] theorem State.modQueue_cores (c : Nat) (f : Queue → Queue) : (s.modQueue c f).cores = s.cores := rfl
@[simp] theorem State.modQueue_clusters (c : Nat) (f : Queue → Queue) : (s.modQueue c f).clusters = s.clusters := rfl
@[simp] theorem State.modQueue_dies (c : Nat) (f : Queue → Queue) : (s.modQueue c f).dies = s.dies := rfl
@[simp] theorem State.modQueue_launches (c : Nat) (f : Queue → Queue) : (s.modQueue c f).launches = s.launches := rfl
@[simp] theorem State.modQueue_queues (c : Nat) (f : Queue → Queue) : (s.modQueue c f).queues = aset c (f (s.queue c)) s.queues := rfl
@[simp] theorem State.modQueue_mem (c : Nat) (f : Queue → Queue) : (s.modQueue c f).mem = s.mem := rfl
@[simp] theorem State.modQueue_pois (c : Nat) (f : Queue → Queue) : (s.modQueue c f).pois = s.pois := rfl
@[simp] theorem State.modQueue_rom (c : Nat) (f : Queue → Queue) : (s.modQueue c f).rom = s.rom := rfl
@[simp] theorem State.modQueue_pins (c : Nat) (f : Queue → Queue) : (s.modQueue c f).pins = s.pins := rfl
@[simp] theorem State.modQueue_switches (c : Nat) (f : Queue → Queue) : (s.modQueue c f).switches = s.switches := rfl
@[simp] theorem State.modQueue_access (c : Nat) (f : Queue → Queue) : (s.modQueue c f).access = s.access := rfl
@[simp] theorem State.modQueue_violations (c : Nat) (f : Queue → Queue) : (s.modQueue c f).violations = s.violations := rfl
@[simp] theorem State.modQueue_ptb (c : Nat) (f : Queue → Queue) : (s.modQueue c f).ptb = s.ptb := rfl
@[simp] theorem State.modQueue_asb (c : Nat) (f : Queue → Queue) : (s.modQueue c f).asb = s.asb := rfl
@[simp] theorem State.modQueue_gongc (c : Nat) (f : Queue → Queue) : (s.modQueue c f).gongc = s.gongc := rfl
@[simp] theorem State.modQueue_gongl (c : Nat) (f : Queue → Queue) : (s.modQueue c f).gongl = s.gongl := rfl
@[simp] theorem State.modQueue_gongErr (c : Nat) (f : Queue → Queue) : (s.modQueue c f).gongErr = s.gongErr := rfl
@[simp] theorem State.modQueue_gongStep (c : Nat) (f : Queue → Queue) : (s.modQueue c f).gongStep = s.gongStep := rfl
@[simp] theorem State.modQueue_gongNl (c : Nat) (f : Queue → Queue) : (s.modQueue c f).gongNl = s.gongNl := rfl
@[simp] theorem State.modQueue_gongFrom (c : Nat) (f : Queue → Queue) : (s.modQueue c f).gongFrom = s.gongFrom := rfl
@[simp] theorem State.modQueue_stream (c : Nat) (f : Queue → Queue) : (s.modQueue c f).stream = s.stream := rfl
@[simp] theorem State.modQueue_fdump (c : Nat) (f : Queue → Queue) : (s.modQueue c f).fdump = s.fdump := rfl
@[simp] theorem State.modQueue_dseed (c : Nat) (f : Queue → Queue) : (s.modQueue c f).dseed = s.dseed := rfl
@[simp] theorem State.modQueue_rrep (c : Nat) (f : Queue → Queue) : (s.modQueue c f).rrep = s.rrep := rfl
@[simp] theorem State.modQueue_reported (c : Nat) (f : Queue → Queue) : (s.modQueue c f).reported = s.reported := rfl
@[simp] theorem State.modQueue_bmap (c : Nat) (f : Queue → Queue) : (s.modQueue c f).bmap = s.bmap := rfl
@[simp] theorem State.modQueue_mypn (c : Nat) (f : Queue → Queue) : (s.modQueue c f).mypn = s.mypn := rfl
@[simp] theorem State.modQueue_ccb (c : Nat) (f : Queue → Queue) : (s.modQueue c f).ccb = s.ccb := rfl
@[simp] theorem State.modQueue_endpoints (c : Nat) (f : Queue → Queue) : (s.modQueue c f).endpoints = s.endpoints := rfl
@[simp] theorem State.modQueue_nextLid (c : Nat) (f : Queue → Queue) : (s.modQueue c f).nextLid = s.nextLid := rfl
@[simp] theorem State.modQueue_accepted (c : Nat) (f : Queue → Queue) : (s.modQueue c f).accepted = s.accepted := rfl
@[simp] theorem State.modQueue_rr (c : Nat) (f : Queue → Queue) : (s.modQueue c f).rr = s.rr := rfl
@[simp] theorem State.modQueue_preempting (c : Nat) (f : Queue → Queue) : (s.modQueue c f).preempting = s.preempting := rfl
@[simp] theorem State.modQueue_stalled (c : Nat) (f : Queue → Queue) : (s.modQueue c f).stalled = s.stalled := rfl
@[simp] theorem State.modQueue_peerClocks (c : Nat) (f : Queue → Queue) : (s.modQueue c f).peerClocks = s.peerClocks := rfl
@[simp] theorem State.modQueue_inserted (c : Nat) (f : Queue → Queue) : (s.modQueue c f).inserted = s.inserted := rfl
@[simp] theorem State.modQueue_poolless (c : Nat) (f : Queue → Queue) : (s.modQueue c f).poolless = s.poolless := rfl
@[simp] theorem State.modQueue_bootImage (c : Nat) (f : Queue → Queue) : (s.modQueue c f).bootImage = s.bootImage := rfl
@[simp] theorem State.modQueue_fenced (c : Nat) (f : Queue → Queue) : (s.modQueue c f).fenced = s.fenced := rfl
@[simp] theorem State.modQueue_toFence (c : Nat) (f : Queue → Queue) : (s.modQueue c f).toFence = s.toFence := rfl
@[simp] theorem State.modQueue_mapGen (c : Nat) (f : Queue → Queue) : (s.modQueue c f).mapGen = s.mapGen := rfl
@[simp] theorem State.modQueue_colls (c : Nat) (f : Queue → Queue) : (s.modQueue c f).colls = s.colls := rfl
@[simp] theorem State.modQueue_arrived (c : Nat) (f : Queue → Queue) : (s.modQueue c f).arrived = s.arrived := rfl
@[simp] theorem State.modQueue_grants (c : Nat) (f : Queue → Queue) : (s.modQueue c f).grants = s.grants := rfl
@[simp] theorem State.modQueue_directory (c : Nat) (f : Queue → Queue) : (s.modQueue c f).directory = s.directory := rfl
@[simp] theorem State.modQueue_deferred (c : Nat) (f : Queue → Queue) : (s.modQueue c f).deferred = s.deferred := rfl
@[simp] theorem State.modQueue_linkA (c : Nat) (f : Queue → Queue) : (s.modQueue c f).linkA = s.linkA := rfl
@[simp] theorem State.modQueue_linkB (c : Nat) (f : Queue → Queue) : (s.modQueue c f).linkB = s.linkB := rfl
@[simp] theorem State.modQueue_images (c : Nat) (f : Queue → Queue) : (s.modQueue c f).images = s.images := rfl
@[simp] theorem State.modQueue_streamed (c : Nat) (f : Queue → Queue) : (s.modQueue c f).streamed = s.streamed := rfl
@[simp] theorem State.modQueue_signals (c : Nat) (f : Queue → Queue) : (s.modQueue c f).signals = s.signals := rfl
@[simp] theorem State.modQueue_fatal (c : Nat) (f : Queue → Queue) : (s.modQueue c f).fatal = s.fatal := rfl
@[simp] theorem State.modQueue_ticks (c : Nat) (f : Queue → Queue) : (s.modQueue c f).ticks = s.ticks := rfl
@[simp] theorem State.modQueue_turn (c : Nat) (f : Queue → Queue) : (s.modQueue c f).turn = s.turn := rfl
@[simp] theorem State.modQueue_fresh (c : Nat) (f : Queue → Queue) : (s.modQueue c f).fresh = s.fresh := rfl
@[simp] theorem State.modQueue_upset (c : Nat) (f : Queue → Queue) : (s.modQueue c f).upset = s.upset := rfl
@[simp] theorem State.modQueue_spillErr (c : Nat) (f : Queue → Queue) : (s.modQueue c f).spillErr = s.spillErr := rfl
@[simp] theorem State.modQueue_islands (c : Nat) (f : Queue → Queue) : (s.modQueue c f).islands = s.islands := rfl
@[simp] theorem State.modQueue_lostPeers (c : Nat) (f : Queue → Queue) : (s.modQueue c f).lostPeers = s.lostPeers := rfl
@[simp] theorem State.modQueue_peerWatches (c : Nat) (f : Queue → Queue) : (s.modQueue c f).peerWatches = s.peerWatches := rfl
@[simp] theorem State.modQueue_recalls (c : Nat) (f : Queue → Queue) : (s.modQueue c f).recalls = s.recalls := rfl
@[simp] theorem State.modQueue_heldBytes (c : Nat) (f : Queue → Queue) : (s.modQueue c f).heldBytes = s.heldBytes := rfl
@[simp] theorem State.modQueue_unplaced (c : Nat) (f : Queue → Queue) : (s.modQueue c f).unplaced = s.unplaced := rfl
@[simp] theorem State.modQueue_regErrs (c : Nat) (f : Queue → Queue) : (s.modQueue c f).regErrs = s.regErrs := rfl
@[simp] theorem State.modQueue_memErrs (c : Nat) (f : Queue → Queue) : (s.modQueue c f).memErrs = s.memErrs := rfl

@[simp] theorem State.modT_t (f : Thread → Thread) : (s.modT f).t = f s.t := rfl
@[simp] theorem State.modT_perform (f : Thread → Thread) : (s.modT f).perform = s.perform := rfl
@[simp] theorem State.modT_ctxs (f : Thread → Thread) : (s.modT f).ctxs = s.ctxs := rfl
@[simp] theorem State.modT_fr (f : Thread → Thread) : (s.modT f).fr = s.fr := rfl
@[simp] theorem State.modT_agenda (f : Thread → Thread) : (s.modT f).agenda = s.agenda := rfl
@[simp] theorem State.modT_issue (f : Thread → Thread) : (s.modT f).issue = s.issue := rfl
@[simp] theorem State.modT_opened (f : Thread → Thread) : (s.modT f).opened = s.opened := rfl
@[simp] theorem State.modT_jobsIssued (f : Thread → Thread) : (s.modT f).jobsIssued = s.jobsIssued := rfl
@[simp] theorem State.modT_cores (f : Thread → Thread) : (s.modT f).cores = s.cores := rfl
@[simp] theorem State.modT_clusters (f : Thread → Thread) : (s.modT f).clusters = s.clusters := rfl
@[simp] theorem State.modT_dies (f : Thread → Thread) : (s.modT f).dies = s.dies := rfl
@[simp] theorem State.modT_launches (f : Thread → Thread) : (s.modT f).launches = s.launches := rfl
@[simp] theorem State.modT_queues (f : Thread → Thread) : (s.modT f).queues = s.queues := rfl
@[simp] theorem State.modT_mem (f : Thread → Thread) : (s.modT f).mem = s.mem := rfl
@[simp] theorem State.modT_pois (f : Thread → Thread) : (s.modT f).pois = s.pois := rfl
@[simp] theorem State.modT_rom (f : Thread → Thread) : (s.modT f).rom = s.rom := rfl
@[simp] theorem State.modT_pins (f : Thread → Thread) : (s.modT f).pins = s.pins := rfl
@[simp] theorem State.modT_switches (f : Thread → Thread) : (s.modT f).switches = s.switches := rfl
@[simp] theorem State.modT_access (f : Thread → Thread) : (s.modT f).access = s.access := rfl
@[simp] theorem State.modT_violations (f : Thread → Thread) : (s.modT f).violations = s.violations := rfl
@[simp] theorem State.modT_ptb (f : Thread → Thread) : (s.modT f).ptb = s.ptb := rfl
@[simp] theorem State.modT_asb (f : Thread → Thread) : (s.modT f).asb = s.asb := rfl
@[simp] theorem State.modT_gongc (f : Thread → Thread) : (s.modT f).gongc = s.gongc := rfl
@[simp] theorem State.modT_gongl (f : Thread → Thread) : (s.modT f).gongl = s.gongl := rfl
@[simp] theorem State.modT_gongErr (f : Thread → Thread) : (s.modT f).gongErr = s.gongErr := rfl
@[simp] theorem State.modT_gongStep (f : Thread → Thread) : (s.modT f).gongStep = s.gongStep := rfl
@[simp] theorem State.modT_gongNl (f : Thread → Thread) : (s.modT f).gongNl = s.gongNl := rfl
@[simp] theorem State.modT_gongFrom (f : Thread → Thread) : (s.modT f).gongFrom = s.gongFrom := rfl
@[simp] theorem State.modT_stream (f : Thread → Thread) : (s.modT f).stream = s.stream := rfl
@[simp] theorem State.modT_fdump (f : Thread → Thread) : (s.modT f).fdump = s.fdump := rfl
@[simp] theorem State.modT_dseed (f : Thread → Thread) : (s.modT f).dseed = s.dseed := rfl
@[simp] theorem State.modT_rrep (f : Thread → Thread) : (s.modT f).rrep = s.rrep := rfl
@[simp] theorem State.modT_reported (f : Thread → Thread) : (s.modT f).reported = s.reported := rfl
@[simp] theorem State.modT_bmap (f : Thread → Thread) : (s.modT f).bmap = s.bmap := rfl
@[simp] theorem State.modT_mypn (f : Thread → Thread) : (s.modT f).mypn = s.mypn := rfl
@[simp] theorem State.modT_ccb (f : Thread → Thread) : (s.modT f).ccb = s.ccb := rfl
@[simp] theorem State.modT_endpoints (f : Thread → Thread) : (s.modT f).endpoints = s.endpoints := rfl
@[simp] theorem State.modT_nextLid (f : Thread → Thread) : (s.modT f).nextLid = s.nextLid := rfl
@[simp] theorem State.modT_accepted (f : Thread → Thread) : (s.modT f).accepted = s.accepted := rfl
@[simp] theorem State.modT_rr (f : Thread → Thread) : (s.modT f).rr = s.rr := rfl
@[simp] theorem State.modT_preempting (f : Thread → Thread) : (s.modT f).preempting = s.preempting := rfl
@[simp] theorem State.modT_stalled (f : Thread → Thread) : (s.modT f).stalled = s.stalled := rfl
@[simp] theorem State.modT_peerClocks (f : Thread → Thread) : (s.modT f).peerClocks = s.peerClocks := rfl
@[simp] theorem State.modT_inserted (f : Thread → Thread) : (s.modT f).inserted = s.inserted := rfl
@[simp] theorem State.modT_poolless (f : Thread → Thread) : (s.modT f).poolless = s.poolless := rfl
@[simp] theorem State.modT_bootImage (f : Thread → Thread) : (s.modT f).bootImage = s.bootImage := rfl
@[simp] theorem State.modT_fenced (f : Thread → Thread) : (s.modT f).fenced = s.fenced := rfl
@[simp] theorem State.modT_toFence (f : Thread → Thread) : (s.modT f).toFence = s.toFence := rfl
@[simp] theorem State.modT_mapGen (f : Thread → Thread) : (s.modT f).mapGen = s.mapGen := rfl
@[simp] theorem State.modT_colls (f : Thread → Thread) : (s.modT f).colls = s.colls := rfl
@[simp] theorem State.modT_arrived (f : Thread → Thread) : (s.modT f).arrived = s.arrived := rfl
@[simp] theorem State.modT_grants (f : Thread → Thread) : (s.modT f).grants = s.grants := rfl
@[simp] theorem State.modT_directory (f : Thread → Thread) : (s.modT f).directory = s.directory := rfl
@[simp] theorem State.modT_deferred (f : Thread → Thread) : (s.modT f).deferred = s.deferred := rfl
@[simp] theorem State.modT_linkA (f : Thread → Thread) : (s.modT f).linkA = s.linkA := rfl
@[simp] theorem State.modT_linkB (f : Thread → Thread) : (s.modT f).linkB = s.linkB := rfl
@[simp] theorem State.modT_images (f : Thread → Thread) : (s.modT f).images = s.images := rfl
@[simp] theorem State.modT_streamed (f : Thread → Thread) : (s.modT f).streamed = s.streamed := rfl
@[simp] theorem State.modT_signals (f : Thread → Thread) : (s.modT f).signals = s.signals := rfl
@[simp] theorem State.modT_fatal (f : Thread → Thread) : (s.modT f).fatal = s.fatal := rfl
@[simp] theorem State.modT_ticks (f : Thread → Thread) : (s.modT f).ticks = s.ticks := rfl
@[simp] theorem State.modT_turn (f : Thread → Thread) : (s.modT f).turn = s.turn := rfl
@[simp] theorem State.modT_fresh (f : Thread → Thread) : (s.modT f).fresh = s.fresh := rfl
@[simp] theorem State.modT_upset (f : Thread → Thread) : (s.modT f).upset = s.upset := rfl
@[simp] theorem State.modT_spillErr (f : Thread → Thread) : (s.modT f).spillErr = s.spillErr := rfl
@[simp] theorem State.modT_islands (f : Thread → Thread) : (s.modT f).islands = s.islands := rfl
@[simp] theorem State.modT_lostPeers (f : Thread → Thread) : (s.modT f).lostPeers = s.lostPeers := rfl
@[simp] theorem State.modT_peerWatches (f : Thread → Thread) : (s.modT f).peerWatches = s.peerWatches := rfl
@[simp] theorem State.modT_recalls (f : Thread → Thread) : (s.modT f).recalls = s.recalls := rfl
@[simp] theorem State.modT_heldBytes (f : Thread → Thread) : (s.modT f).heldBytes = s.heldBytes := rfl
@[simp] theorem State.modT_unplaced (f : Thread → Thread) : (s.modT f).unplaced = s.unplaced := rfl
@[simp] theorem State.modT_regErrs (f : Thread → Thread) : (s.modT f).regErrs = s.regErrs := rfl
@[simp] theorem State.modT_memErrs (f : Thread → Thread) : (s.modT f).memErrs = s.memErrs := rfl

@[simp] theorem State.stopped_t : s.stopped.t = s.t := rfl
@[simp] theorem State.stopped_perform : s.stopped.perform = s.perform := rfl
@[simp] theorem State.stopped_ctxs : s.stopped.ctxs = s.ctxs := rfl
@[simp] theorem State.stopped_fr : s.stopped.fr = { s.fr with stopped := true } := rfl
@[simp] theorem State.stopped_agenda : s.stopped.agenda = s.agenda := rfl
@[simp] theorem State.stopped_issue : s.stopped.issue = s.issue := rfl
@[simp] theorem State.stopped_opened : s.stopped.opened = s.opened := rfl
@[simp] theorem State.stopped_jobsIssued : s.stopped.jobsIssued = s.jobsIssued := rfl
@[simp] theorem State.stopped_cores : s.stopped.cores = s.cores := rfl
@[simp] theorem State.stopped_clusters : s.stopped.clusters = s.clusters := rfl
@[simp] theorem State.stopped_dies : s.stopped.dies = s.dies := rfl
@[simp] theorem State.stopped_launches : s.stopped.launches = s.launches := rfl
@[simp] theorem State.stopped_queues : s.stopped.queues = s.queues := rfl
@[simp] theorem State.stopped_mem : s.stopped.mem = s.mem := rfl
@[simp] theorem State.stopped_pois : s.stopped.pois = s.pois := rfl
@[simp] theorem State.stopped_rom : s.stopped.rom = s.rom := rfl
@[simp] theorem State.stopped_pins : s.stopped.pins = s.pins := rfl
@[simp] theorem State.stopped_switches : s.stopped.switches = s.switches := rfl
@[simp] theorem State.stopped_access : s.stopped.access = s.access := rfl
@[simp] theorem State.stopped_violations : s.stopped.violations = s.violations := rfl
@[simp] theorem State.stopped_ptb : s.stopped.ptb = s.ptb := rfl
@[simp] theorem State.stopped_asb : s.stopped.asb = s.asb := rfl
@[simp] theorem State.stopped_gongc : s.stopped.gongc = s.gongc := rfl
@[simp] theorem State.stopped_gongl : s.stopped.gongl = s.gongl := rfl
@[simp] theorem State.stopped_gongErr : s.stopped.gongErr = s.gongErr := rfl
@[simp] theorem State.stopped_gongStep : s.stopped.gongStep = s.gongStep := rfl
@[simp] theorem State.stopped_gongNl : s.stopped.gongNl = s.gongNl := rfl
@[simp] theorem State.stopped_gongFrom : s.stopped.gongFrom = s.gongFrom := rfl
@[simp] theorem State.stopped_stream : s.stopped.stream = s.stream := rfl
@[simp] theorem State.stopped_fdump : s.stopped.fdump = s.fdump := rfl
@[simp] theorem State.stopped_dseed : s.stopped.dseed = s.dseed := rfl
@[simp] theorem State.stopped_rrep : s.stopped.rrep = s.rrep := rfl
@[simp] theorem State.stopped_reported : s.stopped.reported = s.reported := rfl
@[simp] theorem State.stopped_bmap : s.stopped.bmap = s.bmap := rfl
@[simp] theorem State.stopped_mypn : s.stopped.mypn = s.mypn := rfl
@[simp] theorem State.stopped_ccb : s.stopped.ccb = s.ccb := rfl
@[simp] theorem State.stopped_endpoints : s.stopped.endpoints = s.endpoints := rfl
@[simp] theorem State.stopped_nextLid : s.stopped.nextLid = s.nextLid := rfl
@[simp] theorem State.stopped_accepted : s.stopped.accepted = s.accepted := rfl
@[simp] theorem State.stopped_rr : s.stopped.rr = s.rr := rfl
@[simp] theorem State.stopped_preempting : s.stopped.preempting = s.preempting := rfl
@[simp] theorem State.stopped_stalled : s.stopped.stalled = s.stalled := rfl
@[simp] theorem State.stopped_peerClocks : s.stopped.peerClocks = s.peerClocks := rfl
@[simp] theorem State.stopped_inserted : s.stopped.inserted = s.inserted := rfl
@[simp] theorem State.stopped_poolless : s.stopped.poolless = s.poolless := rfl
@[simp] theorem State.stopped_bootImage : s.stopped.bootImage = s.bootImage := rfl
@[simp] theorem State.stopped_fenced : s.stopped.fenced = s.fenced := rfl
@[simp] theorem State.stopped_toFence : s.stopped.toFence = s.toFence := rfl
@[simp] theorem State.stopped_mapGen : s.stopped.mapGen = s.mapGen := rfl
@[simp] theorem State.stopped_colls : s.stopped.colls = s.colls := rfl
@[simp] theorem State.stopped_arrived : s.stopped.arrived = s.arrived := rfl
@[simp] theorem State.stopped_grants : s.stopped.grants = s.grants := rfl
@[simp] theorem State.stopped_directory : s.stopped.directory = s.directory := rfl
@[simp] theorem State.stopped_deferred : s.stopped.deferred = s.deferred := rfl
@[simp] theorem State.stopped_linkA : s.stopped.linkA = s.linkA := rfl
@[simp] theorem State.stopped_linkB : s.stopped.linkB = s.linkB := rfl
@[simp] theorem State.stopped_images : s.stopped.images = s.images := rfl
@[simp] theorem State.stopped_streamed : s.stopped.streamed = s.streamed := rfl
@[simp] theorem State.stopped_signals : s.stopped.signals = s.signals := rfl
@[simp] theorem State.stopped_fatal : s.stopped.fatal = s.fatal := rfl
@[simp] theorem State.stopped_ticks : s.stopped.ticks = s.ticks := rfl
@[simp] theorem State.stopped_turn : s.stopped.turn = s.turn := rfl
@[simp] theorem State.stopped_fresh : s.stopped.fresh = s.fresh := rfl
@[simp] theorem State.stopped_upset : s.stopped.upset = s.upset := rfl
@[simp] theorem State.stopped_spillErr : s.stopped.spillErr = s.spillErr := rfl
@[simp] theorem State.stopped_islands : s.stopped.islands = s.islands := rfl
@[simp] theorem State.stopped_lostPeers : s.stopped.lostPeers = s.lostPeers := rfl
@[simp] theorem State.stopped_peerWatches : s.stopped.peerWatches = s.peerWatches := rfl
@[simp] theorem State.stopped_recalls : s.stopped.recalls = s.recalls := rfl
@[simp] theorem State.stopped_heldBytes : s.stopped.heldBytes = s.heldBytes := rfl
@[simp] theorem State.stopped_unplaced : s.stopped.unplaced = s.unplaced := rfl
@[simp] theorem State.stopped_regErrs : s.stopped.regErrs = s.regErrs := rfl
@[simp] theorem State.stopped_memErrs : s.stopped.memErrs = s.memErrs := rfl

@[simp] theorem State.jump_t (a : DWord) : (s.jump a).t = { s.t with pc := a, landed := true } := rfl
@[simp] theorem State.jump_perform (a : DWord) : (s.jump a).perform = s.perform := rfl
@[simp] theorem State.jump_ctxs (a : DWord) : (s.jump a).ctxs = s.ctxs := rfl
@[simp] theorem State.jump_fr (a : DWord) : (s.jump a).fr = s.fr := rfl
@[simp] theorem State.jump_agenda (a : DWord) : (s.jump a).agenda = s.agenda := rfl
@[simp] theorem State.jump_issue (a : DWord) : (s.jump a).issue = s.issue := rfl
@[simp] theorem State.jump_opened (a : DWord) : (s.jump a).opened = s.opened := rfl
@[simp] theorem State.jump_jobsIssued (a : DWord) : (s.jump a).jobsIssued = s.jobsIssued := rfl
@[simp] theorem State.jump_cores (a : DWord) : (s.jump a).cores = s.cores := rfl
@[simp] theorem State.jump_clusters (a : DWord) : (s.jump a).clusters = s.clusters := rfl
@[simp] theorem State.jump_dies (a : DWord) : (s.jump a).dies = s.dies := rfl
@[simp] theorem State.jump_launches (a : DWord) : (s.jump a).launches = s.launches := rfl
@[simp] theorem State.jump_queues (a : DWord) : (s.jump a).queues = s.queues := rfl
@[simp] theorem State.jump_mem (a : DWord) : (s.jump a).mem = s.mem := rfl
@[simp] theorem State.jump_pois (a : DWord) : (s.jump a).pois = s.pois := rfl
@[simp] theorem State.jump_rom (a : DWord) : (s.jump a).rom = s.rom := rfl
@[simp] theorem State.jump_pins (a : DWord) : (s.jump a).pins = s.pins := rfl
@[simp] theorem State.jump_switches (a : DWord) : (s.jump a).switches = s.switches := rfl
@[simp] theorem State.jump_access (a : DWord) : (s.jump a).access = s.access := rfl
@[simp] theorem State.jump_violations (a : DWord) : (s.jump a).violations = s.violations := rfl
@[simp] theorem State.jump_ptb (a : DWord) : (s.jump a).ptb = s.ptb := rfl
@[simp] theorem State.jump_asb (a : DWord) : (s.jump a).asb = s.asb := rfl
@[simp] theorem State.jump_gongc (a : DWord) : (s.jump a).gongc = s.gongc := rfl
@[simp] theorem State.jump_gongl (a : DWord) : (s.jump a).gongl = s.gongl := rfl
@[simp] theorem State.jump_gongErr (a : DWord) : (s.jump a).gongErr = s.gongErr := rfl
@[simp] theorem State.jump_gongStep (a : DWord) : (s.jump a).gongStep = s.gongStep := rfl
@[simp] theorem State.jump_gongNl (a : DWord) : (s.jump a).gongNl = s.gongNl := rfl
@[simp] theorem State.jump_gongFrom (a : DWord) : (s.jump a).gongFrom = s.gongFrom := rfl
@[simp] theorem State.jump_stream (a : DWord) : (s.jump a).stream = s.stream := rfl
@[simp] theorem State.jump_fdump (a : DWord) : (s.jump a).fdump = s.fdump := rfl
@[simp] theorem State.jump_dseed (a : DWord) : (s.jump a).dseed = s.dseed := rfl
@[simp] theorem State.jump_rrep (a : DWord) : (s.jump a).rrep = s.rrep := rfl
@[simp] theorem State.jump_reported (a : DWord) : (s.jump a).reported = s.reported := rfl
@[simp] theorem State.jump_bmap (a : DWord) : (s.jump a).bmap = s.bmap := rfl
@[simp] theorem State.jump_mypn (a : DWord) : (s.jump a).mypn = s.mypn := rfl
@[simp] theorem State.jump_ccb (a : DWord) : (s.jump a).ccb = s.ccb := rfl
@[simp] theorem State.jump_endpoints (a : DWord) : (s.jump a).endpoints = s.endpoints := rfl
@[simp] theorem State.jump_nextLid (a : DWord) : (s.jump a).nextLid = s.nextLid := rfl
@[simp] theorem State.jump_accepted (a : DWord) : (s.jump a).accepted = s.accepted := rfl
@[simp] theorem State.jump_rr (a : DWord) : (s.jump a).rr = s.rr := rfl
@[simp] theorem State.jump_preempting (a : DWord) : (s.jump a).preempting = s.preempting := rfl
@[simp] theorem State.jump_stalled (a : DWord) : (s.jump a).stalled = s.stalled := rfl
@[simp] theorem State.jump_peerClocks (a : DWord) : (s.jump a).peerClocks = s.peerClocks := rfl
@[simp] theorem State.jump_inserted (a : DWord) : (s.jump a).inserted = s.inserted := rfl
@[simp] theorem State.jump_poolless (a : DWord) : (s.jump a).poolless = s.poolless := rfl
@[simp] theorem State.jump_bootImage (a : DWord) : (s.jump a).bootImage = s.bootImage := rfl
@[simp] theorem State.jump_fenced (a : DWord) : (s.jump a).fenced = s.fenced := rfl
@[simp] theorem State.jump_toFence (a : DWord) : (s.jump a).toFence = s.toFence := rfl
@[simp] theorem State.jump_mapGen (a : DWord) : (s.jump a).mapGen = s.mapGen := rfl
@[simp] theorem State.jump_colls (a : DWord) : (s.jump a).colls = s.colls := rfl
@[simp] theorem State.jump_arrived (a : DWord) : (s.jump a).arrived = s.arrived := rfl
@[simp] theorem State.jump_grants (a : DWord) : (s.jump a).grants = s.grants := rfl
@[simp] theorem State.jump_directory (a : DWord) : (s.jump a).directory = s.directory := rfl
@[simp] theorem State.jump_deferred (a : DWord) : (s.jump a).deferred = s.deferred := rfl
@[simp] theorem State.jump_linkA (a : DWord) : (s.jump a).linkA = s.linkA := rfl
@[simp] theorem State.jump_linkB (a : DWord) : (s.jump a).linkB = s.linkB := rfl
@[simp] theorem State.jump_images (a : DWord) : (s.jump a).images = s.images := rfl
@[simp] theorem State.jump_streamed (a : DWord) : (s.jump a).streamed = s.streamed := rfl
@[simp] theorem State.jump_signals (a : DWord) : (s.jump a).signals = s.signals := rfl
@[simp] theorem State.jump_fatal (a : DWord) : (s.jump a).fatal = s.fatal := rfl
@[simp] theorem State.jump_ticks (a : DWord) : (s.jump a).ticks = s.ticks := rfl
@[simp] theorem State.jump_turn (a : DWord) : (s.jump a).turn = s.turn := rfl
@[simp] theorem State.jump_fresh (a : DWord) : (s.jump a).fresh = s.fresh := rfl
@[simp] theorem State.jump_upset (a : DWord) : (s.jump a).upset = s.upset := rfl
@[simp] theorem State.jump_spillErr (a : DWord) : (s.jump a).spillErr = s.spillErr := rfl
@[simp] theorem State.jump_islands (a : DWord) : (s.jump a).islands = s.islands := rfl
@[simp] theorem State.jump_lostPeers (a : DWord) : (s.jump a).lostPeers = s.lostPeers := rfl
@[simp] theorem State.jump_peerWatches (a : DWord) : (s.jump a).peerWatches = s.peerWatches := rfl
@[simp] theorem State.jump_recalls (a : DWord) : (s.jump a).recalls = s.recalls := rfl
@[simp] theorem State.jump_heldBytes (a : DWord) : (s.jump a).heldBytes = s.heldBytes := rfl
@[simp] theorem State.jump_unplaced (a : DWord) : (s.jump a).unplaced = s.unplaced := rfl
@[simp] theorem State.jump_regErrs (a : DWord) : (s.jump a).regErrs = s.regErrs := rfl
@[simp] theorem State.jump_memErrs (a : DWord) : (s.jump a).memErrs = s.memErrs := rfl

@[simp] theorem State.signal_t (x : Signal) : (s.signal x).t = s.t := rfl
@[simp] theorem State.signal_perform (x : Signal) : (s.signal x).perform = s.perform := rfl
@[simp] theorem State.signal_ctxs (x : Signal) : (s.signal x).ctxs = s.ctxs := rfl
@[simp] theorem State.signal_fr (x : Signal) : (s.signal x).fr = s.fr := rfl
@[simp] theorem State.signal_agenda (x : Signal) : (s.signal x).agenda = s.agenda := rfl
@[simp] theorem State.signal_issue (x : Signal) : (s.signal x).issue = s.issue := rfl
@[simp] theorem State.signal_opened (x : Signal) : (s.signal x).opened = s.opened := rfl
@[simp] theorem State.signal_jobsIssued (x : Signal) : (s.signal x).jobsIssued = s.jobsIssued := rfl
@[simp] theorem State.signal_cores (x : Signal) : (s.signal x).cores = s.cores := rfl
@[simp] theorem State.signal_clusters (x : Signal) : (s.signal x).clusters = s.clusters := rfl
@[simp] theorem State.signal_dies (x : Signal) : (s.signal x).dies = s.dies := rfl
@[simp] theorem State.signal_launches (x : Signal) : (s.signal x).launches = s.launches := rfl
@[simp] theorem State.signal_queues (x : Signal) : (s.signal x).queues = s.queues := rfl
@[simp] theorem State.signal_mem (x : Signal) : (s.signal x).mem = s.mem := rfl
@[simp] theorem State.signal_pois (x : Signal) : (s.signal x).pois = s.pois := rfl
@[simp] theorem State.signal_rom (x : Signal) : (s.signal x).rom = s.rom := rfl
@[simp] theorem State.signal_pins (x : Signal) : (s.signal x).pins = s.pins := rfl
@[simp] theorem State.signal_switches (x : Signal) : (s.signal x).switches = s.switches := rfl
@[simp] theorem State.signal_access (x : Signal) : (s.signal x).access = s.access := rfl
@[simp] theorem State.signal_violations (x : Signal) : (s.signal x).violations = s.violations := rfl
@[simp] theorem State.signal_ptb (x : Signal) : (s.signal x).ptb = s.ptb := rfl
@[simp] theorem State.signal_asb (x : Signal) : (s.signal x).asb = s.asb := rfl
@[simp] theorem State.signal_gongc (x : Signal) : (s.signal x).gongc = s.gongc := rfl
@[simp] theorem State.signal_gongl (x : Signal) : (s.signal x).gongl = s.gongl := rfl
@[simp] theorem State.signal_gongErr (x : Signal) : (s.signal x).gongErr = s.gongErr := rfl
@[simp] theorem State.signal_gongStep (x : Signal) : (s.signal x).gongStep = s.gongStep := rfl
@[simp] theorem State.signal_gongNl (x : Signal) : (s.signal x).gongNl = s.gongNl := rfl
@[simp] theorem State.signal_gongFrom (x : Signal) : (s.signal x).gongFrom = s.gongFrom := rfl
@[simp] theorem State.signal_stream (x : Signal) : (s.signal x).stream = s.stream := rfl
@[simp] theorem State.signal_fdump (x : Signal) : (s.signal x).fdump = s.fdump := rfl
@[simp] theorem State.signal_dseed (x : Signal) : (s.signal x).dseed = s.dseed := rfl
@[simp] theorem State.signal_rrep (x : Signal) : (s.signal x).rrep = s.rrep := rfl
@[simp] theorem State.signal_reported (x : Signal) : (s.signal x).reported = s.reported := rfl
@[simp] theorem State.signal_bmap (x : Signal) : (s.signal x).bmap = s.bmap := rfl
@[simp] theorem State.signal_mypn (x : Signal) : (s.signal x).mypn = s.mypn := rfl
@[simp] theorem State.signal_ccb (x : Signal) : (s.signal x).ccb = s.ccb := rfl
@[simp] theorem State.signal_endpoints (x : Signal) : (s.signal x).endpoints = s.endpoints := rfl
@[simp] theorem State.signal_nextLid (x : Signal) : (s.signal x).nextLid = s.nextLid := rfl
@[simp] theorem State.signal_accepted (x : Signal) : (s.signal x).accepted = s.accepted := rfl
@[simp] theorem State.signal_rr (x : Signal) : (s.signal x).rr = s.rr := rfl
@[simp] theorem State.signal_preempting (x : Signal) : (s.signal x).preempting = s.preempting := rfl
@[simp] theorem State.signal_stalled (x : Signal) : (s.signal x).stalled = s.stalled := rfl
@[simp] theorem State.signal_peerClocks (x : Signal) : (s.signal x).peerClocks = s.peerClocks := rfl
@[simp] theorem State.signal_inserted (x : Signal) : (s.signal x).inserted = s.inserted := rfl
@[simp] theorem State.signal_poolless (x : Signal) : (s.signal x).poolless = s.poolless := rfl
@[simp] theorem State.signal_bootImage (x : Signal) : (s.signal x).bootImage = s.bootImage := rfl
@[simp] theorem State.signal_fenced (x : Signal) : (s.signal x).fenced = s.fenced := rfl
@[simp] theorem State.signal_toFence (x : Signal) : (s.signal x).toFence = s.toFence := rfl
@[simp] theorem State.signal_mapGen (x : Signal) : (s.signal x).mapGen = s.mapGen := rfl
@[simp] theorem State.signal_colls (x : Signal) : (s.signal x).colls = s.colls := rfl
@[simp] theorem State.signal_arrived (x : Signal) : (s.signal x).arrived = s.arrived := rfl
@[simp] theorem State.signal_grants (x : Signal) : (s.signal x).grants = s.grants := rfl
@[simp] theorem State.signal_directory (x : Signal) : (s.signal x).directory = s.directory := rfl
@[simp] theorem State.signal_deferred (x : Signal) : (s.signal x).deferred = s.deferred := rfl
@[simp] theorem State.signal_linkA (x : Signal) : (s.signal x).linkA = s.linkA := rfl
@[simp] theorem State.signal_linkB (x : Signal) : (s.signal x).linkB = s.linkB := rfl
@[simp] theorem State.signal_images (x : Signal) : (s.signal x).images = s.images := rfl
@[simp] theorem State.signal_streamed (x : Signal) : (s.signal x).streamed = s.streamed := rfl
@[simp] theorem State.signal_signals (x : Signal) : (s.signal x).signals = s.signals ++ [x] := rfl
@[simp] theorem State.signal_fatal (x : Signal) : (s.signal x).fatal = s.fatal := rfl
@[simp] theorem State.signal_ticks (x : Signal) : (s.signal x).ticks = s.ticks := rfl
@[simp] theorem State.signal_turn (x : Signal) : (s.signal x).turn = s.turn := rfl
@[simp] theorem State.signal_fresh (x : Signal) : (s.signal x).fresh = s.fresh := rfl
@[simp] theorem State.signal_upset (x : Signal) : (s.signal x).upset = s.upset := rfl
@[simp] theorem State.signal_spillErr (x : Signal) : (s.signal x).spillErr = s.spillErr := rfl
@[simp] theorem State.signal_islands (x : Signal) : (s.signal x).islands = s.islands := rfl
@[simp] theorem State.signal_lostPeers (x : Signal) : (s.signal x).lostPeers = s.lostPeers := rfl
@[simp] theorem State.signal_peerWatches (x : Signal) : (s.signal x).peerWatches = s.peerWatches := rfl
@[simp] theorem State.signal_recalls (x : Signal) : (s.signal x).recalls = s.recalls := rfl
@[simp] theorem State.signal_heldBytes (x : Signal) : (s.signal x).heldBytes = s.heldBytes := rfl
@[simp] theorem State.signal_unplaced (x : Signal) : (s.signal x).unplaced = s.unplaced := rfl
@[simp] theorem State.signal_regErrs (x : Signal) : (s.signal x).regErrs = s.regErrs := rfl
@[simp] theorem State.signal_memErrs (x : Signal) : (s.signal x).memErrs = s.memErrs := rfl

@[simp] theorem State.atWord_t (w : Word) (b : Bool) : (s.atWord w b).t = s.t := rfl
@[simp] theorem State.atWord_perform (w : Word) (b : Bool) : (s.atWord w b).perform = s.perform := rfl
@[simp] theorem State.atWord_ctxs (w : Word) (b : Bool) : (s.atWord w b).ctxs = s.ctxs := rfl
@[simp] theorem State.atWord_fr (w : Word) (b : Bool) : (s.atWord w b).fr = { s.fr with word := w, aw := b } := rfl
@[simp] theorem State.atWord_agenda (w : Word) (b : Bool) : (s.atWord w b).agenda = s.agenda := rfl
@[simp] theorem State.atWord_issue (w : Word) (b : Bool) : (s.atWord w b).issue = s.issue := rfl
@[simp] theorem State.atWord_opened (w : Word) (b : Bool) : (s.atWord w b).opened = s.opened := rfl
@[simp] theorem State.atWord_jobsIssued (w : Word) (b : Bool) : (s.atWord w b).jobsIssued = s.jobsIssued := rfl
@[simp] theorem State.atWord_cores (w : Word) (b : Bool) : (s.atWord w b).cores = s.cores := rfl
@[simp] theorem State.atWord_clusters (w : Word) (b : Bool) : (s.atWord w b).clusters = s.clusters := rfl
@[simp] theorem State.atWord_dies (w : Word) (b : Bool) : (s.atWord w b).dies = s.dies := rfl
@[simp] theorem State.atWord_launches (w : Word) (b : Bool) : (s.atWord w b).launches = s.launches := rfl
@[simp] theorem State.atWord_queues (w : Word) (b : Bool) : (s.atWord w b).queues = s.queues := rfl
@[simp] theorem State.atWord_mem (w : Word) (b : Bool) : (s.atWord w b).mem = s.mem := rfl
@[simp] theorem State.atWord_pois (w : Word) (b : Bool) : (s.atWord w b).pois = s.pois := rfl
@[simp] theorem State.atWord_rom (w : Word) (b : Bool) : (s.atWord w b).rom = s.rom := rfl
@[simp] theorem State.atWord_pins (w : Word) (b : Bool) : (s.atWord w b).pins = s.pins := rfl
@[simp] theorem State.atWord_switches (w : Word) (b : Bool) : (s.atWord w b).switches = s.switches := rfl
@[simp] theorem State.atWord_access (w : Word) (b : Bool) : (s.atWord w b).access = s.access := rfl
@[simp] theorem State.atWord_violations (w : Word) (b : Bool) : (s.atWord w b).violations = s.violations := rfl
@[simp] theorem State.atWord_ptb (w : Word) (b : Bool) : (s.atWord w b).ptb = s.ptb := rfl
@[simp] theorem State.atWord_asb (w : Word) (b : Bool) : (s.atWord w b).asb = s.asb := rfl
@[simp] theorem State.atWord_gongc (w : Word) (b : Bool) : (s.atWord w b).gongc = s.gongc := rfl
@[simp] theorem State.atWord_gongl (w : Word) (b : Bool) : (s.atWord w b).gongl = s.gongl := rfl
@[simp] theorem State.atWord_gongErr (w : Word) (b : Bool) : (s.atWord w b).gongErr = s.gongErr := rfl
@[simp] theorem State.atWord_gongStep (w : Word) (b : Bool) : (s.atWord w b).gongStep = s.gongStep := rfl
@[simp] theorem State.atWord_gongNl (w : Word) (b : Bool) : (s.atWord w b).gongNl = s.gongNl := rfl
@[simp] theorem State.atWord_gongFrom (w : Word) (b : Bool) : (s.atWord w b).gongFrom = s.gongFrom := rfl
@[simp] theorem State.atWord_stream (w : Word) (b : Bool) : (s.atWord w b).stream = s.stream := rfl
@[simp] theorem State.atWord_fdump (w : Word) (b : Bool) : (s.atWord w b).fdump = s.fdump := rfl
@[simp] theorem State.atWord_dseed (w : Word) (b : Bool) : (s.atWord w b).dseed = s.dseed := rfl
@[simp] theorem State.atWord_rrep (w : Word) (b : Bool) : (s.atWord w b).rrep = s.rrep := rfl
@[simp] theorem State.atWord_reported (w : Word) (b : Bool) : (s.atWord w b).reported = s.reported := rfl
@[simp] theorem State.atWord_bmap (w : Word) (b : Bool) : (s.atWord w b).bmap = s.bmap := rfl
@[simp] theorem State.atWord_mypn (w : Word) (b : Bool) : (s.atWord w b).mypn = s.mypn := rfl
@[simp] theorem State.atWord_ccb (w : Word) (b : Bool) : (s.atWord w b).ccb = s.ccb := rfl
@[simp] theorem State.atWord_endpoints (w : Word) (b : Bool) : (s.atWord w b).endpoints = s.endpoints := rfl
@[simp] theorem State.atWord_nextLid (w : Word) (b : Bool) : (s.atWord w b).nextLid = s.nextLid := rfl
@[simp] theorem State.atWord_accepted (w : Word) (b : Bool) : (s.atWord w b).accepted = s.accepted := rfl
@[simp] theorem State.atWord_rr (w : Word) (b : Bool) : (s.atWord w b).rr = s.rr := rfl
@[simp] theorem State.atWord_preempting (w : Word) (b : Bool) : (s.atWord w b).preempting = s.preempting := rfl
@[simp] theorem State.atWord_stalled (w : Word) (b : Bool) : (s.atWord w b).stalled = s.stalled := rfl
@[simp] theorem State.atWord_peerClocks (w : Word) (b : Bool) : (s.atWord w b).peerClocks = s.peerClocks := rfl
@[simp] theorem State.atWord_inserted (w : Word) (b : Bool) : (s.atWord w b).inserted = s.inserted := rfl
@[simp] theorem State.atWord_poolless (w : Word) (b : Bool) : (s.atWord w b).poolless = s.poolless := rfl
@[simp] theorem State.atWord_bootImage (w : Word) (b : Bool) : (s.atWord w b).bootImage = s.bootImage := rfl
@[simp] theorem State.atWord_fenced (w : Word) (b : Bool) : (s.atWord w b).fenced = s.fenced := rfl
@[simp] theorem State.atWord_toFence (w : Word) (b : Bool) : (s.atWord w b).toFence = s.toFence := rfl
@[simp] theorem State.atWord_mapGen (w : Word) (b : Bool) : (s.atWord w b).mapGen = s.mapGen := rfl
@[simp] theorem State.atWord_colls (w : Word) (b : Bool) : (s.atWord w b).colls = s.colls := rfl
@[simp] theorem State.atWord_arrived (w : Word) (b : Bool) : (s.atWord w b).arrived = s.arrived := rfl
@[simp] theorem State.atWord_grants (w : Word) (b : Bool) : (s.atWord w b).grants = s.grants := rfl
@[simp] theorem State.atWord_directory (w : Word) (b : Bool) : (s.atWord w b).directory = s.directory := rfl
@[simp] theorem State.atWord_deferred (w : Word) (b : Bool) : (s.atWord w b).deferred = s.deferred := rfl
@[simp] theorem State.atWord_linkA (w : Word) (b : Bool) : (s.atWord w b).linkA = s.linkA := rfl
@[simp] theorem State.atWord_linkB (w : Word) (b : Bool) : (s.atWord w b).linkB = s.linkB := rfl
@[simp] theorem State.atWord_images (w : Word) (b : Bool) : (s.atWord w b).images = s.images := rfl
@[simp] theorem State.atWord_streamed (w : Word) (b : Bool) : (s.atWord w b).streamed = s.streamed := rfl
@[simp] theorem State.atWord_signals (w : Word) (b : Bool) : (s.atWord w b).signals = s.signals := rfl
@[simp] theorem State.atWord_fatal (w : Word) (b : Bool) : (s.atWord w b).fatal = s.fatal := rfl
@[simp] theorem State.atWord_ticks (w : Word) (b : Bool) : (s.atWord w b).ticks = s.ticks := rfl
@[simp] theorem State.atWord_turn (w : Word) (b : Bool) : (s.atWord w b).turn = s.turn := rfl
@[simp] theorem State.atWord_fresh (w : Word) (b : Bool) : (s.atWord w b).fresh = s.fresh := rfl
@[simp] theorem State.atWord_upset (w : Word) (b : Bool) : (s.atWord w b).upset = s.upset := rfl
@[simp] theorem State.atWord_spillErr (w : Word) (b : Bool) : (s.atWord w b).spillErr = s.spillErr := rfl
@[simp] theorem State.atWord_islands (w : Word) (b : Bool) : (s.atWord w b).islands = s.islands := rfl
@[simp] theorem State.atWord_lostPeers (w : Word) (b : Bool) : (s.atWord w b).lostPeers = s.lostPeers := rfl
@[simp] theorem State.atWord_peerWatches (w : Word) (b : Bool) : (s.atWord w b).peerWatches = s.peerWatches := rfl
@[simp] theorem State.atWord_recalls (w : Word) (b : Bool) : (s.atWord w b).recalls = s.recalls := rfl
@[simp] theorem State.atWord_heldBytes (w : Word) (b : Bool) : (s.atWord w b).heldBytes = s.heldBytes := rfl
@[simp] theorem State.atWord_unplaced (w : Word) (b : Bool) : (s.atWord w b).unplaced = s.unplaced := rfl
@[simp] theorem State.atWord_regErrs (w : Word) (b : Bool) : (s.atWord w b).regErrs = s.regErrs := rfl
@[simp] theorem State.atWord_memErrs (w : Word) (b : Bool) : (s.atWord w b).memErrs = s.memErrs := rfl

end

end Sys2Proof.Machine
end

