-- ==== Sys2Proof/Laws/Operands.lean ====
section
/-! SUPPORT. What a Chime, the checks of a word, its pops, its writes and its flags come to. -/

namespace Sys2Proof.Machine

/-- A part of the state that no round of a loop changes is as it was after the loop. -/
theorem foldl_field {α β : Type} (φ : State → β) (f : State → α → State) (h : ∀ s a, φ (f s a) = φ s) (l : List α)
    (s : State) : φ (l.foldl f s) = φ s := by
  induction l generalizing s with
  | nil => rfl
  | cons a l ih => rw [List.foldl_cons, ih, h]

@[simp] theorem State.chime_perform (s : State) (k : Key) : (s.chime k).perform = s.perform := rfl
@[simp] theorem State.chime_fr (s : State) (k : Key) : (s.chime k).fr = s.fr := rfl
@[simp] theorem State.chime_agenda (s : State) (k : Key) : (s.chime k).agenda = s.agenda := rfl
@[simp] theorem State.chime_issue (s : State) (k : Key) : (s.chime k).issue = s.issue := rfl
@[simp] theorem State.chime_mem (s : State) (k : Key) : (s.chime k).mem = s.mem := rfl
@[simp] theorem State.chime_lostPeers (s : State) (k : Key) : (s.chime k).lostPeers = s.lostPeers := rfl
@[simp] theorem State.chime_peerWatches (s : State) (k : Key) : (s.chime k).peerWatches = s.peerWatches := rfl
@[simp] theorem State.chime_recalls (s : State) (k : Key) : (s.chime k).recalls = s.recalls := rfl
@[simp] theorem State.chime_heldBytes (s : State) (k : Key) : (s.chime k).heldBytes = s.heldBytes := rfl
@[simp] theorem State.chime_unplaced (s : State) (k : Key) : (s.chime k).unplaced = s.unplaced := rfl
@[simp] theorem State.chime_regErrs (s : State) (k : Key) : (s.chime k).regErrs = s.regErrs := rfl
@[simp] theorem State.chime_memErrs (s : State) (k : Key) : (s.chime k).memErrs = s.memErrs := rfl
@[simp] theorem State.chime_opened (s : State) (k : Key) : (s.chime k).opened = s.opened := rfl
@[simp] theorem State.chime_islands (s : State) (k : Key) : (s.chime k).islands = s.islands := rfl
@[simp] theorem State.chime_jobsIssued (s : State) (k : Key) : (s.chime k).jobsIssued = s.jobsIssued := rfl
@[simp] theorem State.chime_cores (s : State) (k : Key) : (s.chime k).cores = s.cores := rfl
@[simp] theorem State.chime_clusters (s : State) (k : Key) : (s.chime k).clusters = s.clusters := rfl
@[simp] theorem State.chime_dies (s : State) (k : Key) : (s.chime k).dies = s.dies := rfl
@[simp] theorem State.chime_launches (s : State) (k : Key) : (s.chime k).launches = s.launches := rfl
@[simp] theorem State.chime_queues (s : State) (k : Key) : (s.chime k).queues = s.queues := rfl
@[simp] theorem State.chime_pois (s : State) (k : Key) : (s.chime k).pois = s.pois := rfl
@[simp] theorem State.chime_rom (s : State) (k : Key) : (s.chime k).rom = s.rom := rfl
@[simp] theorem State.chime_pins (s : State) (k : Key) : (s.chime k).pins = s.pins := rfl
@[simp] theorem State.chime_switches (s : State) (k : Key) : (s.chime k).switches = s.switches := rfl
@[simp] theorem State.chime_access (s : State) (k : Key) : (s.chime k).access = s.access := rfl
@[simp] theorem State.chime_violations (s : State) (k : Key) : (s.chime k).violations = s.violations := rfl
@[simp] theorem State.chime_ptb (s : State) (k : Key) : (s.chime k).ptb = s.ptb := rfl
@[simp] theorem State.chime_asb (s : State) (k : Key) : (s.chime k).asb = s.asb := rfl
@[simp] theorem State.chime_gongc (s : State) (k : Key) : (s.chime k).gongc = s.gongc := rfl
@[simp] theorem State.chime_gongl (s : State) (k : Key) : (s.chime k).gongl = s.gongl := rfl
@[simp] theorem State.chime_gongErr (s : State) (k : Key) : (s.chime k).gongErr = s.gongErr := rfl
@[simp] theorem State.chime_gongStep (s : State) (k : Key) : (s.chime k).gongStep = s.gongStep := rfl
@[simp] theorem State.chime_gongNl (s : State) (k : Key) : (s.chime k).gongNl = s.gongNl := rfl
@[simp] theorem State.chime_gongFrom (s : State) (k : Key) : (s.chime k).gongFrom = s.gongFrom := rfl
@[simp] theorem State.chime_stream (s : State) (k : Key) : (s.chime k).stream = s.stream := rfl
@[simp] theorem State.chime_fdump (s : State) (k : Key) : (s.chime k).fdump = s.fdump := rfl
@[simp] theorem State.chime_dseed (s : State) (k : Key) : (s.chime k).dseed = s.dseed := rfl
@[simp] theorem State.chime_rrep (s : State) (k : Key) : (s.chime k).rrep = s.rrep := rfl
@[simp] theorem State.chime_reported (s : State) (k : Key) : (s.chime k).reported = s.reported := rfl
@[simp] theorem State.chime_bmap (s : State) (k : Key) : (s.chime k).bmap = s.bmap := rfl
@[simp] theorem State.chime_mypn (s : State) (k : Key) : (s.chime k).mypn = s.mypn := rfl
@[simp] theorem State.chime_ccb (s : State) (k : Key) : (s.chime k).ccb = s.ccb := rfl
@[simp] theorem State.chime_endpoints (s : State) (k : Key) : (s.chime k).endpoints = s.endpoints := rfl
@[simp] theorem State.chime_nextLid (s : State) (k : Key) : (s.chime k).nextLid = s.nextLid := rfl
@[simp] theorem State.chime_accepted (s : State) (k : Key) : (s.chime k).accepted = s.accepted := rfl
@[simp] theorem State.chime_rr (s : State) (k : Key) : (s.chime k).rr = s.rr := rfl
@[simp] theorem State.chime_preempting (s : State) (k : Key) : (s.chime k).preempting = s.preempting := rfl
@[simp] theorem State.chime_stalled (s : State) (k : Key) : (s.chime k).stalled = s.stalled := rfl
@[simp] theorem State.chime_peerClocks (s : State) (k : Key) : (s.chime k).peerClocks = s.peerClocks := rfl
@[simp] theorem State.chime_inserted (s : State) (k : Key) : (s.chime k).inserted = s.inserted := rfl
@[simp] theorem State.chime_poolless (s : State) (k : Key) : (s.chime k).poolless = s.poolless := rfl
@[simp] theorem State.chime_bootImage (s : State) (k : Key) : (s.chime k).bootImage = s.bootImage := rfl
@[simp] theorem State.chime_fenced (s : State) (k : Key) : (s.chime k).fenced = s.fenced := rfl
@[simp] theorem State.chime_toFence (s : State) (k : Key) : (s.chime k).toFence = s.toFence := rfl
@[simp] theorem State.chime_mapGen (s : State) (k : Key) : (s.chime k).mapGen = s.mapGen := rfl
@[simp] theorem State.chime_colls (s : State) (k : Key) : (s.chime k).colls = s.colls := rfl
@[simp] theorem State.chime_arrived (s : State) (k : Key) : (s.chime k).arrived = s.arrived := rfl
@[simp] theorem State.chime_grants (s : State) (k : Key) : (s.chime k).grants = s.grants := rfl
@[simp] theorem State.chime_directory (s : State) (k : Key) : (s.chime k).directory = s.directory := rfl
@[simp] theorem State.chime_deferred (s : State) (k : Key) : (s.chime k).deferred = s.deferred := rfl
@[simp] theorem State.chime_linkA (s : State) (k : Key) : (s.chime k).linkA = s.linkA := rfl
@[simp] theorem State.chime_linkB (s : State) (k : Key) : (s.chime k).linkB = s.linkB := rfl
@[simp] theorem State.chime_images (s : State) (k : Key) : (s.chime k).images = s.images := rfl
@[simp] theorem State.chime_streamed (s : State) (k : Key) : (s.chime k).streamed = s.streamed := rfl
@[simp] theorem State.chime_signals (s : State) (k : Key) : (s.chime k).signals = s.signals := rfl
@[simp] theorem State.chime_fatal (s : State) (k : Key) : (s.chime k).fatal = s.fatal := rfl
@[simp] theorem State.chime_ticks (s : State) (k : Key) : (s.chime k).ticks = s.ticks := rfl
@[simp] theorem State.chime_turn (s : State) (k : Key) : (s.chime k).turn = s.turn := rfl
@[simp] theorem State.chime_fresh (s : State) (k : Key) : (s.chime k).fresh = s.fresh := rfl
@[simp] theorem State.chime_upset (s : State) (k : Key) : (s.chime k).upset = s.upset := rfl
@[simp] theorem State.chime_spillErr (s : State) (k : Key) : (s.chime k).spillErr = s.spillErr := rfl

/-- A Chime leaves a running thread as it is (R36). -/
theorem Thread.chimed_running (th : Thread) (k : Key) (h : th.life = .running) : th.chimed k = th := by
  unfold Thread.chimed
  split
  · rfl
  · split
    · rfl
    · simp [h]

/-- A Chime leaves the current thread as it is while that runs. -/
@[simp] theorem State.chime_t (s : State) (k : Key) (h : s.t.life = .running) : (s.chime k).t = s.t := by
  simp only [State.chime, State.mapThreads, Thread.chimed_running _ _ h, ite_self]

theorem State.mem_threads (s : State) (th : Thread) :
    th ∈ s.threads ↔ (s.hasT = true ∧ th = s.t) ∨ ∃ x ∈ s.ctxs, x.2 = th := by
  unfold State.threads
  split
  · rename_i h; simp [h]
  · rename_i h; simp [h]

/-- Going from one state to another touches no byte of memory. -/
structure Quiet (s t : State) : Prop where
  wf : Memory.wf s.mem = true → Memory.wf t.mem = true
  mem : SameMemory s t

theorem Quiet.refl (s : State) : Quiet s s := ⟨id, fun _ => rfl⟩

theorem Quiet.trans {s t u : State} (h : Quiet s t) (g : Quiet t u) : Quiet s u :=
  ⟨g.wf ∘ h.wf, fun a => (g.mem a).trans (h.mem a)⟩

/-- A change of other fields is quiet. -/
theorem Quiet.of_eq {s t : State} (hm : t.mem = s.mem) : Quiet s t :=
  ⟨fun w => by rw [hm]; exact w, fun _ => by rw [hm]⟩

theorem State.modCore_quiet (s : State) (c : Nat) (f : Core → Core) : Quiet s (s.modCore c f) := Quiet.of_eq rfl
theorem State.modCluster_quiet (s : State) (c : Nat) (f : Cluster → Cluster) : Quiet s (s.modCluster c f) := Quiet.of_eq rfl
theorem State.modT_quiet (s : State) (f : Thread → Thread) : Quiet s (s.modT f) := Quiet.of_eq rfl

/-- A Chime is quiet. -/
theorem State.chime_quiet (s : State) (k : Key) : Quiet s (s.chime k) := Quiet.of_eq rfl

/-- A core after a core has been changed. -/
theorem State.core_modCore (s : State) (c d : Nat) (f : Core → Core) :
    (s.modCore c f).core d = if d = c then f (s.core c) else s.core d := by
  by_cases h : d = c
  · subst h; simp [State.core, State.modCore]
  · simp only [State.core, State.modCore, if_neg h]; rw [aget_aset_ne _ _ _ _ h]

@[simp] theorem State.core_chime (s : State) (k : Key) (c : Nat) : (s.chime k).core c = s.core c := rfl

/-- The contents of a queue in a core. -/
def Core.entriesOf (k : Core) (q : Nat) : List Reg := ((aget q k.queues).map (·.entries)).getD []

theorem State.entries_eq (s : State) (c q : Nat) : s.entries c q = (s.core c).entriesOf q := rfl

theorem isSome_aget_aset {α : Type} (k j : Nat) (x : α) (l : List (Nat × α)) (h : (aget k l).isSome = true) :
    (aget j (aset k x l)).isSome = (aget j l).isSome := by
  by_cases hj : j = k
  · subst hj; simp [h]
  · rw [aget_aset_ne _ _ _ _ hj]

theorem Core.modQueue_there (k : Core) (q q' : Nat) (f : List Reg → List Reg) :
    (aget q' (k.modQueue q f).queues).isSome = (aget q' k.queues).isSome := by
  unfold Core.modQueue
  split
  · rename_i x hx; exact isSome_aget_aset _ _ _ _ (by simp [hx])
  · rfl

theorem Core.modQueue_ne (k : Core) (q q' : Nat) (f : List Reg → List Reg) (h : q' ≠ q) :
    (k.modQueue q f).entriesOf q' = k.entriesOf q' := by
  unfold Core.modQueue Core.entriesOf
  split
  · simp only; rw [aget_aset_ne _ _ _ _ h]
  · rfl

theorem Core.modQueue_self (k : Core) (q : Nat) (f : List Reg → List Reg)
    (h : (aget q k.queues).isSome = true ∨ f [] = []) : (k.modQueue q f).entriesOf q = f (k.entriesOf q) := by
  unfold Core.modQueue Core.entriesOf
  split
  · rename_i x hx; simp [hx]
  · rename_i hx; rcases h with h | h
    · simp [hx] at h
    · simp [hx, h]

/-- Everything that pops and pushes of the current thread leave. -/
structure QueueStep (s t : State) : Prop where
  t_eq : t.t = s.t
  fr_eq : t.fr = s.fr
  upset_eq : t.upset = s.upset
  quiet : Quiet s t
  there : ∀ c q, (aget q (t.core c).queues).isSome = (aget q (s.core c).queues).isSome

theorem QueueStep.refl (s : State) : QueueStep s s := ⟨rfl, rfl, rfl, Quiet.refl s, fun _ _ => rfl⟩

theorem QueueStep.trans {s t u : State} (h : QueueStep s t) (g : QueueStep t u) : QueueStep s u :=
  ⟨g.t_eq.trans h.t_eq, g.fr_eq.trans h.fr_eq, g.upset_eq.trans h.upset_eq, h.quiet.trans g.quiet,
    fun c q => (g.there c q).trans (h.there c q)⟩

/-- A core's queues after the acquire mark has been raised. -/
@[simp] theorem State.queues_markAcquire (s : State) (c d : Nat) : ((s.markAcquire c).core d).queues = (s.core d).queues := by
  unfold State.markAcquire
  rw [State.core_modCore]
  split
  · rename_i h; subst h; rfl
  · rfl

theorem State.queues_pop (s : State) (c q d : Nat) :
    ((s.popQueue c q).core d).queues = if d = c then ((s.core c).modQueue q fun l => l.drop 1).queues else (s.core d).queues := by
  unfold State.popQueue
  rw [State.core_chime, State.queues_markAcquire, State.core_modCore]
  split <;> rfl

theorem State.queues_push (s : State) (c q d : Nat) (v : Reg) :
    ((s.pushQueue c q v).core d).queues = if d = c then ((s.core c).modQueue q fun l => l ++ [v]).queues else (s.core d).queues := by
  unfold State.pushQueue
  rw [State.core_chime, State.core_modCore]
  split <;> rfl

theorem Core.entriesOf_congr {k k' : Core} (h : k.queues = k'.queues) (q : Nat) : k.entriesOf q = k'.entriesOf q := by
  unfold Core.entriesOf; rw [h]

/-- A pop takes the oldest entry of one queue (R22). -/
theorem State.popQueue_spec (s : State) (c q : Nat) (hr : s.t.life = .running) :
    QueueStep s (s.popQueue c q) ∧
    ∀ c' q', (s.popQueue c q).entries c' q' = (s.entries c' q').drop (if c' = c ∧ q' = q then 1 else 0) := by
  refine ⟨⟨State.chime_t _ _ hr, rfl, rfl, ?_, fun c' q' => ?_⟩, fun c' q' => ?_⟩
  · exact ((State.modCore_quiet _ _ _).trans (State.modCore_quiet _ _ _)).trans (State.chime_quiet _ _)
  · rw [State.queues_pop]
    split
    · rename_i h; subst h; exact Core.modQueue_there _ _ _ _
    · rfl
  · rw [State.entries_eq, State.entries_eq]
    have := State.queues_pop s c q c'
    by_cases h : c' = c
    · subst h
      rw [if_pos rfl] at this
      rw [Core.entriesOf_congr this]
      by_cases hq : q' = q
      · subst hq; rw [Core.modQueue_self _ _ _ (Or.inr rfl)]; simp
      · rw [Core.modQueue_ne _ _ _ _ hq]; simp [hq]
    · rw [if_neg h] at this
      rw [Core.entriesOf_congr this]; simp [h]

/-- A push appends an entry to a queue that is there (R22). -/
theorem State.pushQueue_spec (s : State) (c q : Nat) (v : Reg) (hr : s.t.life = .running)
    (hq : (aget q (s.core c).queues).isSome = true) :
    QueueStep s (s.pushQueue c q v) ∧
    ∀ c' q', (s.pushQueue c q v).entries c' q' = s.entries c' q' ++ (if c' = c ∧ q' = q then [v] else []) := by
  refine ⟨⟨State.chime_t _ _ hr, rfl, rfl, ?_, fun c' q' => ?_⟩, fun c' q' => ?_⟩
  · exact (State.modCore_quiet _ _ _).trans (State.chime_quiet _ _)
  · rw [State.queues_push]
    split
    · rename_i h; subst h; exact Core.modQueue_there _ _ _ _
    · rfl
  · rw [State.entries_eq, State.entries_eq]
    have := State.queues_push s c q c' v
    by_cases h : c' = c
    · subst h
      rw [if_pos rfl] at this
      rw [Core.entriesOf_congr this]
      by_cases hq' : q' = q
      · subst hq'; rw [Core.modQueue_self _ _ _ (Or.inl hq)]; simp
      · rw [Core.modQueue_ne _ _ _ _ hq']; simp [hq']
    · rw [if_neg h] at this
      rw [Core.entriesOf_congr this]; simp [h]

/-- The current thread binds a queue. -/
def Binds (t : Thread) (q : Nat) : Prop := some (BitVec.ofNat 6 q) ∈ t.qb.toList

/-- A queue that the running thread binds is not released (R173). -/
theorem State.releaseQueue_bound (s : State) (q : Nat) (hr : s.t.life = .running) (hb : Binds s.t q) :
    s.releaseQueue s.t.core q = s := by
  have hm : s.t ∈ s.threads := (State.mem_threads _ _).2 (Or.inl ⟨by simp [State.hasT, hr], rfl⟩)
  have hf : s.t ∈ s.threads.filter fun th => th.core == s.t.core && th.life != .spilled &&
      th.qb.toList.any fun b => b == some (BitVec.ofNat 6 q) := by
    refine List.mem_filter.2 ⟨hm, ?_⟩
    simp only [beq_self_eq_true, hr, Bool.true_and, Bool.and_eq_true]
    exact ⟨rfl, List.any_eq_true.2 ⟨_, hb, by simp⟩⟩
  unfold State.releaseQueue
  simp only
  rw [if_neg]
  intro h
  simp only [Bool.and_eq_true, List.isEmpty_iff] at h
  rw [h.1.2] at hf
  simp at hf

/-- The pops of a word take the oldest entries of the queues that it names, one for each naming (R23). -/
theorem State.pops_spec (l : List Nat) (s : State) (hr : s.t.life = .running) (hb : ∀ q ∈ l, Binds s.t q) :
    QueueStep s (l.foldl State.popOne s) ∧
    ∀ q, (l.foldl State.popOne s).entries s.t.core q =
      (s.entries s.t.core q).drop (l.count q) := by
  induction l generalizing s with
  | nil => exact ⟨QueueStep.refl s, fun q => by simp⟩
  | cons p l ih =>
    obtain ⟨h1, h2⟩ := State.popQueue_spec s s.t.core p hr
    have hrel : (s.popQueue s.t.core p).releaseQueue s.t.core p = s.popQueue s.t.core p := by
      have := State.releaseQueue_bound (s.popQueue s.t.core p) p (by rw [h1.t_eq]; exact hr)
        (by rw [h1.t_eq]; exact hb p (by simp))
      rwa [h1.t_eq] at this
    have hone : s.popOne p = s.popQueue s.t.core p := by simp [State.popOne, hrel]
    simp only [List.foldl_cons]
    rw [hone]
    obtain ⟨g1, g2⟩ := ih (s.popQueue s.t.core p) (by rw [h1.t_eq]; exact hr)
      (fun q hq => by rw [h1.t_eq]; exact hb q (by simp [hq]))
    refine ⟨h1.trans g1, fun q => ?_⟩
    have := g2 q
    rw [h1.t_eq] at this
    rw [this, h2]
    simp only [List.drop_drop, List.count_cons, true_and, beq_iff_eq]
    congr 1
    by_cases hq : q = p
    · subst hq; simp [Nat.add_comm]
    · rw [if_neg hq, if_neg (Ne.symm hq)]; omega

end Sys2Proof.Machine
end

