-- ==== Sys2Proof/Laws/Results.lean ====
section
/-! SUPPORT. What the end of a word writes, and that a ready word passes its checks. -/

namespace Sys2Proof.Machine

/-- Everything that the writes of a word change. -/
structure WriteStep (s t : State) (o : OpSrc) (x : Word → Reg) (ws : List (Nat × Word)) : Prop where
  t_eq : t.t = { s.t with regs := t.t.regs }
  fr_eq : t.fr = s.fr
  upset_eq : t.upset = s.upset
  quiet : Quiet s t
  entries : ∀ q, t.entries s.t.core q = s.entries s.t.core q ++
    (ws.filter fun p => o.isQueue p.1 && o.queueOf p.1 == some q).map fun p => x p.2
  kept : ∀ r, r = 0 ∨ o.isQueue r = true ∨ (∀ p ∈ ws, p.1 ≠ r) → t.t.regs[r]! = s.t.regs[r]!
  written : (ws.map Prod.fst).Nodup → ∀ p ∈ ws, p.1 ≠ 0 → o.isQueue p.1 = false → t.t.regs[p.1]! = x p.2
  plain : (∀ p ∈ ws, o.isQueue p.1 = false) → t = { s with t := t.t }

theorem Vector.getElem!_set!_self {α : Type} [Inhabited α] {n : Nat} (v : Vector α n) (i : Nat) (x : α) (h : i < n) :
    (v.set! i x)[i]! = x := by
  rw [getElem!_pos (v.set! i x) i h, Vector.getElem_set!]; simp

theorem Vector.getElem!_set!_ne {α : Type} [Inhabited α] {n : Nat} (v : Vector α n) (i j : Nat) (x : α) (h : j ≠ i) :
    (v.set! i x)[j]! = v[j]! := by
  by_cases hj : j < n
  · rw [getElem!_pos (v.set! i x) j hj, getElem!_pos v j hj, Vector.getElem_set!]; simp [Ne.symm h]
  · rw [getElem!_neg (v.set! i x) j hj, getElem!_neg v j hj]

theorem State.writeRegs_spec (o : OpSrc) (ws : List (Nat × Word)) (s : State) (hr : s.t.life = .running)
    (hn : ∀ p ∈ ws, p.1 < 64)
    (hq : ∀ p ∈ ws, o.isQueue p.1 = true →
      ∃ q, o.queueOf p.1 = some q ∧ (aget q (s.core s.t.core).queues).isSome = true) :
    WriteStep s (s.writeRegs o ws) o (fun v => { val := v, pois := s.struck }) ws := by
  induction ws generalizing s with
  | nil =>
    exact ⟨rfl, rfl, rfl, Quiet.refl s, fun q => by simp [State.writeRegs], fun _ _ => rfl,
      fun _ p hp => by simp at hp, fun _ => rfl⟩
  | cons w ws ih =>
    obtain ⟨r, v⟩ := w
    by_cases hqr : o.isQueue r = true
    · obtain ⟨q, hq1, hq2⟩ := hq (r, v) (by simp) hqr
      obtain ⟨g1, g2⟩ := State.pushQueue_spec s s.t.core q { val := v, pois := s.struck } hr hq2
      have hs : (s.pushQueue s.t.core q { val := v, pois := s.struck }).struck = s.struck := rfl
      have := ih (s.pushQueue s.t.core q { val := v, pois := s.struck }) (by rw [g1.t_eq]; exact hr)
        (fun p hp => hn p (by simp [hp])) (fun p hp h => by
          obtain ⟨q', h1, h2⟩ := hq p (by simp [hp]) h
          exact ⟨q', h1, by rw [g1.there, g1.t_eq]; exact h2⟩)
      rw [hs] at this
      have hw : s.writeRegs o ((r, v) :: ws) =
          (s.pushQueue s.t.core q { val := v, pois := s.struck }).writeRegs o ws := by
        simp only [State.writeRegs, hqr, if_true, hq1]
      rw [hw]
      refine ⟨by rw [this.t_eq, g1.t_eq], by rw [this.fr_eq, g1.fr_eq], by rw [this.upset_eq, g1.upset_eq],
        g1.quiet.trans this.quiet, fun q' => ?_, fun r' h => ?_, fun hd p hp h1 h2 => ?_, fun h => ?_⟩
      · have h1 := this.entries q'
        rw [g1.t_eq] at h1
        rw [h1, g2]
        simp only [List.filter_cons, hqr, hq1, Bool.true_and, true_and, List.append_assoc]
        by_cases hqq : q' = q
        · subst hqq; simp
        · have h3 : ¬ (some q == some q') = true := by simp [Ne.symm hqq]
          rw [if_neg hqq, if_neg h3]; simp
      · rw [this.kept r' (by
          rcases h with h | h | h
          · exact Or.inl h
          · exact Or.inr (Or.inl h)
          · exact Or.inr (Or.inr fun p hp => h p (by simp [hp]))), g1.t_eq]
      · rcases List.mem_cons.1 hp with rfl | hp
        · rw [hqr] at h2; cases h2
        · exact this.written (by simp only [List.map_cons, List.nodup_cons] at hd; exact hd.2) p hp h1 h2
      · have := h (r, v) (by simp); rw [hqr] at this; cases this
    · have hqr' : o.isQueue r = false := by simpa using hqr
      by_cases h0 : r = 0
      · have hw : s.writeRegs o ((r, v) :: ws) = s.writeRegs o ws := by
          simp only [State.writeRegs, hqr', if_pos h0]; rfl
        have this := ih s hr (fun p hp => hn p (by simp [hp])) (fun p hp h => hq p (by simp [hp]) h)
        rw [hw]
        refine ⟨this.t_eq, this.fr_eq, this.upset_eq, this.quiet, fun q' => ?_, fun r' h => ?_,
          fun hd p hp h1 h2 => ?_, fun h => this.plain fun p hp => h p (by simp [hp])⟩
        · rw [this.entries q']; simp [hqr']
        · exact this.kept r' (by
            rcases h with h | h | h
            · exact Or.inl h
            · exact Or.inr (Or.inl h)
            · exact Or.inr (Or.inr fun p hp => h p (by simp [hp])))
        · rcases List.mem_cons.1 hp with rfl | hp
          · exact absurd h0 h1
          · exact this.written (by simp only [List.map_cons, List.nodup_cons] at hd; exact hd.2) p hp h1 h2
      · have hw : s.writeRegs o ((r, v) :: ws) =
            (s.modT fun t => { t with regs := t.regs.set! r { val := v, pois := s.struck } }).writeRegs o ws := by
          simp only [State.writeRegs, hqr', h0]; simp
        have this := ih (s.modT fun t => { t with regs := t.regs.set! r { val := v, pois := s.struck } }) hr
          (fun p hp => hn p (by simp [hp])) (fun p hp h => hq p (by simp [hp]) h)
        rw [hw]
        have hq' : Quiet s (s.modT fun t => { t with regs := t.regs.set! r { val := v, pois := s.struck } }) :=
          State.modT_quiet _ _
        refine ⟨by rw [this.t_eq]; rfl, by rw [this.fr_eq]; rfl, by rw [this.upset_eq]; rfl, hq'.trans this.quiet,
          fun q' => ?_, fun r' h => ?_, fun hd p hp h1 h2 => ?_, fun h => ?_⟩
        · have h1 := this.entries q'
          simp only [List.filter_cons, hqr', Bool.false_and]
          exact h1
        · rw [this.kept r' (by
            rcases h with h | h | h
            · exact Or.inl h
            · exact Or.inr (Or.inl h)
            · exact Or.inr (Or.inr fun p hp => h p (by simp [hp])))]
          show (s.t.regs.set! r _)[r']! = _
          refine Vector.getElem!_set!_ne _ _ _ _ fun e => ?_
          rcases h with h | h | h
          · exact h0 (e ▸ h)
          · rw [e, hqr'] at h; cases h
          · exact h (r, v) (by simp) e.symm
        · rcases List.mem_cons.1 hp with rfl | hp
          · simp only [List.map_cons, List.nodup_cons] at hd
            rw [this.kept r (Or.inr (Or.inr fun p hp e => hd.1 (List.mem_map.2 ⟨p, hp, e⟩)))]
            exact Vector.getElem!_set!_self _ _ _ (hn (r, v) (by simp))
          · exact this.written (by simp only [List.map_cons, List.nodup_cons] at hd; exact hd.2) p hp h1 h2
        · rw [this.plain fun p hp => h p (by simp [hp])]; rfl

theorem OpSrc.binds_of_queueOf (o : OpSrc) (r q : Nat) (h : o.queueOf r = some q) :
    some (BitVec.ofNat 6 q) ∈ o.qb.toList := by
  unfold OpSrc.queueOf at h
  obtain ⟨b, h1, h2⟩ := Option.map_eq_some_iff.1 h
  have hb : b = BitVec.ofNat 6 q := by subst h2; simp
  by_cases hl : r - 60 < 4
  · rw [getElem!_pos o.qb (r - 60) hl] at h1
    rw [← hb, ← h1]
    exact Vector.mem_toList_iff.2 (Vector.getElem_mem hl)
  · rw [getElem!_neg o.qb (r - 60) hl] at h1; cases h1

/-- The pops of a word whose bindings stand are of queues that the thread binds. -/
theorem Ready.pops_bound {s : State} {sh : Shape} (h : Ready s sh) : ∀ q ∈ s.src.pops sh, Binds s.t q := by
  intro q hq
  obtain ⟨r, hr, hq⟩ := List.mem_filterMap.1 hq
  obtain ⟨hr1, hr2⟩ := List.mem_filter.1 hr
  have : s.src.usesQueue sh = true := List.any_eq_true.2 ⟨r, List.mem_append.2 (Or.inl hr1), hr2⟩
  have hb := OpSrc.binds_of_queueOf s.src r q hq
  rw [← h.binds this] at hb
  exact hb

theorem State.shortQueue_none (s : State) (pops pushes : List Nat)
    (h : ∀ q ∈ pops ++ pushes, pops.count q ≤ (s.entries s.t.core q).length ∧
      (s.entries s.t.core q).length + pushes.count q ≤ 16 + pops.count q) : s.shortQueue pops pushes = none := by
  unfold State.shortQueue
  rw [List.find?_eq_none]
  intro q hq
  obtain ⟨h1, h2⟩ := h q hq
  simp only [Bool.or_eq_true, decide_eq_true_eq, not_or]
  omega

theorem State.poisoned_none (s : State) (sh : Shape) (h : ∀ x ∈ s.readings sh, x.pois = false) :
    s.poisoned [] sh = none := by
  unfold State.poisoned
  simp only [Option.map_eq_none_iff, List.find?_eq_none]
  intro p hp
  have := (List.of_mem_zip hp).2
  simpa using h p.2 this

/-- A ready word passes the checks of R148. -/
theorem Ready.precheck {s : State} {sh : Shape} (h : Ready s sh) : s.precheck sh = none := by
  have hn : s.namesOk sh = true := by
    unfold State.namesOk
    simp only [Bool.and_eq_true, List.all_eq_true]
    refine ⟨⟨⟨fun r hr => ?_, fun r hr => ?_⟩, fun r hr => ?_⟩, ?_⟩
    · rcases h.allocated r hr with h | h <;> simp [h]
    · by_cases hq : s.src.isQueue r = true
      · obtain ⟨q, hq1, -⟩ := h.bound r hr hq; simp [hq1]
      · simp [hq]
    · simp [h.plainD r hr]
    · split
      · rename_i r n hd
        rw [List.all_eq_true]; intro q hq; simp [h.plainSpan r n hd q hq]
      · rfl
  have hs : (sh.sup && !s.t.mode) = false := by
    by_cases hp : sh.sup = true
    · simp [h.allowed hp]
    · simp [hp]
  unfold State.precheck
  simp [h.classes, hn, hs, h.inQuantum, State.shortQueue_none _ _ _ h.queues, State.poisoned_none _ _ h.clean]

/-- A ready word has its effect on its operands. -/
theorem Ready.within {s : State} {sh : Shape} (h : Ready s sh) (body : Vals → State → State) :
    s.within sh body = .next (body (s.vals sh) s) := by
  unfold State.within; rw [h.precheck]

theorem opRegs_lt (d : Opd) (h : d.classOk = true) : ∀ r ∈ opRegs d, r < 64 := by
  intro r hr
  cases d with
  | no => simp [opRegs] at hr
  | g x => simp [opRegs] at hr; have := x.isLt; omega
  | w x =>
    have := x.isLt
    simp [Opd.classOk] at h
    by_cases h0 : x = 0#6 <;> simp [opRegs, h0] at hr
    omega
  | whi x =>
    have := x.isLt
    simp [Opd.classOk] at h
    by_cases h0 : x = 0#6 <;> simp [opRegs, h0] at hr
    omega
  | quad x =>
    have := x.isLt
    simp [Opd.classOk] at h
    by_cases h0 : x = 0#6 <;> simp [opRegs, h0] at hr <;> omega
  | span x n =>
    simp [Opd.classOk] at h
    simp [opRegs] at hr
    obtain ⟨i, hi, rfl⟩ := hr
    omega

theorem opRegs_nodup (d : Opd) : (opRegs d).Nodup := by
  cases d with
  | no => simp [opRegs]
  | g x => simp [opRegs]
  | w x => by_cases h0 : x = 0#6 <;> simp [opRegs, h0]
  | whi x => by_cases h0 : x = 0#6 <;> simp [opRegs, h0]
  | quad x => by_cases h0 : x = 0#6 <;> simp [opRegs, h0]
  | span x n =>
    simp only [opRegs]
    exact List.Pairwise.map _ (fun i j hij => by simpa using hij) List.nodup_range

theorem dstVals_keys (d : Opd) (vals : List Word) : ((dstVals d vals).map Prod.fst).Sublist (opRegs d) := by
  have hz : ∀ (l : List Nat) (v : List Word), ((l.zip v).map Prod.fst).Sublist l := by
    intro l
    induction l with
    | nil => intro v; simp
    | cons a l ih => intro v; cases v with
      | nil => simp
      | cons b v => simpa using ih v
  unfold dstVals
  split
  · split
    · simp
    · exact hz _ _
  · split <;> exact hz _ _
  · exact hz _ _

theorem State.src_congr {s t : State} (h1 : t.t = s.t) (h2 : t.fr = s.fr) : t.src = s.src := by
  unfold State.src; rw [h1, h2]

/-- The end of a ready word: what it pops, writes and flags (R10, R22, R23, R27). -/
theorem Ready.put_wrote {s : State} {sh : Shape} (h : Ready s sh) (vals : List Word) (f : Flags) :
    Wrote s (s.put sh vals f) sh (dstVals sh.dst vals) f := by
  obtain ⟨p1, p2⟩ := State.pops_spec (s.src.pops sh) s h.running h.pops_bound
  have hp : s.popOps sh = (s.src.pops sh).foldl State.popOne s := rfl
  rw [← hp] at p1 p2
  have hsrc := State.src_congr p1.t_eq p1.fr_eq
  have hcl : sh.dst.classOk = true := by
    have := h.classes
    simp only [Shape.classOk, Bool.and_eq_true] at this
    exact this.1.2
  have hmem : ∀ p ∈ dstVals sh.dst vals, p.1 ∈ opRegs sh.dst := fun p hp =>
    (dstVals_keys _ _).subset (List.mem_map.2 ⟨p, hp, rfl⟩)
  have w := State.writeRegs_spec s.src (dstVals sh.dst vals) (s.popOps sh) (by rw [p1.t_eq]; exact h.running)
    (fun p hp => opRegs_lt _ hcl _ (hmem p hp))
    (fun p hp hq => by
      obtain ⟨q, h1, h2⟩ := h.bound p.1 (List.mem_append.2 (Or.inr (hmem p hp))) hq
      exact ⟨q, h1, by rw [p1.there, p1.t_eq]; exact h2⟩)
  have hst : (s.popOps sh).struck = s.struck := by unfold State.struck; rw [p1.fr_eq, p1.upset_eq]
  rw [hst] at w
  have hput : s.put sh vals f = ((s.popOps sh).writeRegs s.src (dstVals sh.dst vals)).setFlags f := by
    show ((s.popOps sh).writeRegs (s.popOps sh).src _).setFlags f = _
    rw [hsrc]
  rw [hput]
  generalize hu : (s.popOps sh).writeRegs s.src (dstVals sh.dst vals) = u at w
  have hus : u.struck = s.struck := by
    unfold State.struck; rw [w.fr_eq, w.upset_eq, p1.fr_eq, p1.upset_eq]
  have hq : Quiet u (u.setFlags f) := by
    unfold State.setFlags
    split
    · exact Quiet.refl _
    · exact State.modT_quiet _ _
  have hregs : (u.setFlags f).t.regs = u.t.regs := by
    unfold State.setFlags; split <;> rfl
  have hent : ∀ c q, (u.setFlags f).entries c q = u.entries c q := by
    intro c q; unfold State.setFlags; split <;> rfl
  have ut : u.t = { s.t with regs := u.t.regs } := by rw [w.t_eq, p1.t_eq]
  refine ⟨?_, ⟨fun p hp h1 h2 => ?_, fun r hr => ?_⟩, fun hno => ?_, fun q => ?_, ?_⟩
  · rw [hregs]
    unfold State.setFlags
    rw [hus]
    split
    · exact ut
    · show ({ u.t with fctl := orFlags u.t.fctl f } : Thread) = _
      rw [show u.t.fctl = s.t.fctl by rw [ut]]
      conv => lhs; rw [ut]
  · rw [hregs]
    exact w.written ((opRegs_nodup _).sublist (dstVals_keys _ _)) p hp h1 h2
  · rw [hregs, w.kept r hr, p1.t_eq]
  · have hf : ∀ r ∈ sourcesOf sh ++ opRegs sh.dst, s.src.isQueue r = false := by
      intro r hr
      have := hno
      unfold OpSrc.usesQueue at this
      rw [List.any_eq_false] at this
      simpa using this r hr
    have hpop : s.popOps sh = s := by
      have : s.src.pops sh = [] := by
        unfold OpSrc.pops
        rw [List.filter_eq_nil_iff.2 fun r hr => by simp [hf r (List.mem_append.2 (Or.inl hr))]]; rfl
      unfold State.popOps; rw [this]; rfl
    have hu2 := w.plain fun p hp => hf p.1 (List.mem_append.2 (Or.inr (hmem p hp)))
    rw [hpop] at hu2
    unfold State.setFlags
    split
    · exact hu2
    · show ({ u with t := { u.t with fctl := orFlags u.t.fctl f } } : State) = _
      rw [hu2]; rfl
  · rw [hent]
    have := w.entries q
    rw [p1.t_eq] at this
    rw [this, p2]
  · exact ((p1.quiet.trans w.quiet).trans hq).mem

/-- A ready word with a g destination gives its value. -/
theorem Ready.givesG {s : State} {i : Instr} (h : Ready s i.shape) (d : RegNo) (hd : i.shape.dst = .g d)
    (w : Vals → Word) (f : Vals → Flags)
    (he : exec i s = s.within i.shape fun x s => s.put i.shape [w x] (f x)) :
    GivesG s i d (w (s.vals i.shape)) (f (s.vals i.shape)) := by
  refine ⟨_, by rw [he, h.within], ?_⟩
  have := h.put_wrote [w (s.vals i.shape)] (f (s.vals i.shape))
  rw [hd] at this
  exact this

/-- A ready word with a w destination gives its value. -/
theorem Ready.givesW {s : State} {i : Instr} (h : Ready s i.shape) (d : RegNo) (hd : i.shape.dst = .w d)
    (w : Vals → DWord) (f : Vals → Flags)
    (he : exec i s = s.within i.shape fun x s => s.put i.shape (wordsOf (w x)) (f x)) :
    GivesW s i d (w (s.vals i.shape)) (f (s.vals i.shape)) := by
  refine ⟨_, by rw [he, h.within], ?_⟩
  have := h.put_wrote (wordsOf (w (s.vals i.shape))) (f (s.vals i.shape))
  rw [hd] at this
  have e : dstVals (.w d) (wordsOf (w (s.vals i.shape))) = toW d (w (s.vals i.shape)) := by
    unfold dstVals toW
    by_cases h0 : d = 0
    · simp [h0]
    · rw [if_neg h0]
      show (if d = 0 then [] else _) = _
      rw [if_neg h0]
      show List.zip (if d = 0 then [] else [d.toNat, d.toNat + 1]) _ = _
      rw [if_neg h0]; rfl
  rw [e] at this
  exact this

end Sys2Proof.Machine
end

