-- ==== Sys2Proof/Laws/Cache.lean ====
section
/-! SUPPORT. What the operations on the L1 caches come to (R124, R125, R264): one lemma for each. -/

namespace Sys2Proof.Machine

/-! ### Lines by number -/

theorem Core.line?_some {k : Core} {n : Nat} {l : Line} (h : k.line? n = some l) : l ∈ k.l1 ∧ l.n = n := by
  unfold Core.line? at h
  exact ⟨List.mem_of_find?_eq_some h, by simpa using List.find?_some h⟩

theorem find_nodup {ls : List Line} (hn : (ls.map Line.n).Nodup) (l : Line) (hl : l ∈ ls) :
    ls.find? (fun x => x.n == l.n) = some l := by
  induction ls with
  | nil => simp at hl
  | cons x ls ih =>
    simp only [List.map_cons, List.nodup_cons] at hn
    rcases List.mem_cons.1 hl with rfl | h
    · simp
    · have : x.n ≠ l.n := fun e => hn.1 (e ▸ List.mem_map_of_mem h)
      rw [List.find?_cons_of_neg (by simp [this])]
      exact ih hn.2 h

/-- A line of an L1 in order is the one found under its number. -/
theorem Core.linesOk.line? {k : Core} (h : k.linesOk) {l : Line} (hl : l ∈ k.l1) : k.line? l.n = some l :=
  find_nodup h.1 l hl

theorem find_map_set (ls : List Line) (l : Line) (n : Nat) (h : ls.any (fun x => x.n == l.n) = true) :
    (ls.map fun x => if x.n == l.n then l else x).find? (fun x => x.n == n) =
      if n = l.n then some l else ls.find? fun x => x.n == n := by
  induction ls with
  | nil => simp at h
  | cons x ls ih =>
    by_cases hx : x.n = l.n
    · simp only [List.map_cons, hx, beq_self_eq_true, if_true]
      by_cases hn : n = l.n
      · subst hn; simp
      · rw [List.find?_cons_of_neg (by simpa using Ne.symm hn), List.find?_cons_of_neg (by rw [hx]; simpa using Ne.symm hn),
          if_neg hn]
        by_cases ha : ls.any (fun x => x.n == l.n) = true
        · rw [ih ha, if_neg hn]
        · have : (ls.map fun x => if x.n == l.n then l else x) = ls := by
            refine (List.map_congr_left fun y hy => ?_).trans (List.map_id ls)
            have : ¬ (y.n == l.n) = true := fun e => ha (List.any_eq_true.2 ⟨y, hy, e⟩)
            simp only [this]; rfl
          rw [this]
    · have hb : (x.n == l.n) = false := by simpa using hx
      have ha : ls.any (fun x => x.n == l.n) = true := by simpa [hb] using h
      simp only [List.map_cons, hb, Bool.false_eq_true, if_false]
      by_cases hn : x.n = n
      · have : n ≠ l.n := fun e => hx (hn.trans e)
        simp [hn, this]
      · rw [List.find?_cons_of_neg (by simpa using hn), List.find?_cons_of_neg (by simpa using hn), ih ha]

/-- A line put into an L1 is the one found under its number, and the others stay (R264). -/
theorem Core.line?_putLine (k : Core) (l : Line) (n : Nat) :
    (k.putLine l).line? n = if n = l.n then some l else k.line? n := by
  unfold Core.putLine Core.line?
  split
  · rename_i h; exact find_map_set k.l1 l n h
  · rename_i h
    simp only [List.find?_append]
    by_cases hn : n = l.n
    · subst hn
      have : k.l1.find? (fun x => x.n == l.n) = none := by
        rw [List.find?_eq_none]; intro x hx e; exact h (List.any_eq_true.2 ⟨x, hx, e⟩)
      simp [this]
    · rw [if_neg hn, List.find?_cons_of_neg (by simpa using Ne.symm hn)]
      simp

theorem Core.mem_putLine {k : Core} {l x : Line} (h : x ∈ (k.putLine l).l1) : x = l ∨ (x ∈ k.l1 ∧ x.n ≠ l.n) := by
  unfold Core.putLine at h
  split at h
  · obtain ⟨y, hy, rfl⟩ := List.mem_map.1 h
    by_cases e : y.n = l.n
    · simp [e]
    · have : (y.n == l.n) = false := by simpa using e
      simp [this, hy, e]
  · rename_i hn
    rcases List.mem_append.1 h with h | h
    · right
      exact ⟨h, fun e => hn (List.any_eq_true.2 ⟨x, h, by simpa using e⟩)⟩
    · left; simpa using h

theorem Core.linesOk.putLine {k : Core} (h : k.linesOk) {l : Line} (hl : l.data.length = 128) : (k.putLine l).linesOk := by
  refine ⟨?_, fun x hx => ?_⟩
  · unfold Core.putLine
    split
    · have : (k.l1.map fun x => if x.n == l.n then l else x).map Line.n = k.l1.map Line.n := by
        rw [List.map_map]
        refine List.map_congr_left fun x _ => ?_
        simp only [Function.comp]
        by_cases e : x.n = l.n <;> simp [e]
      rw [this]; exact h.1
    · rename_i hn
      simp only [List.map_append, List.map_cons, List.map_nil]
      refine List.nodup_append.2 ⟨h.1, by simp, fun a ha b hb => ?_⟩
      obtain ⟨x, hx, rfl⟩ := List.mem_map.1 ha
      have hb : b = l.n := by simpa using hb
      subst hb
      exact fun e => hn (List.any_eq_true.2 ⟨x, hx, by simpa using e⟩)
  · rcases Core.mem_putLine hx with rfl | hx
    · exact hl
    · exact h.2 x hx.1

theorem Core.length_putLine {k : Core} {l : Line} (h : (k.line? l.n).isSome = true) : (k.putLine l).l1.length = k.l1.length := by
  unfold Core.putLine
  have : k.l1.any (fun x => x.n == l.n) = true := by
    obtain ⟨x, hx⟩ := Option.isSome_iff_exists.1 h
    obtain ⟨h1, h2⟩ := Core.line?_some hx
    exact List.any_eq_true.2 ⟨x, h1, by simpa using h2⟩
  rw [if_pos this]; simp

theorem Core.numbers_putLine {k : Core} {l : Line} (h : (k.line? l.n).isSome = true) :
    (k.putLine l).l1.map Line.n = k.l1.map Line.n := by
  unfold Core.putLine
  have : k.l1.any (fun x => x.n == l.n) = true := by
    obtain ⟨x, hx⟩ := Option.isSome_iff_exists.1 h
    obtain ⟨h1, h2⟩ := Core.line?_some hx
    exact List.any_eq_true.2 ⟨x, h1, by simpa using h2⟩
  rw [if_pos this, List.map_map]
  refine List.map_congr_left fun x _ => ?_
  simp only [Function.comp]
  by_cases e : x.n = l.n <;> simp [e]

theorem find_filter {ls : List Line} (hn : (ls.map Line.n).Nodup) (p : Line → Bool) (n : Nat) :
    (ls.filter p).find? (fun x => x.n == n) = (ls.find? fun x => x.n == n).filter p := by
  induction ls with
  | nil => rfl
  | cons x ls ih =>
    simp only [List.map_cons, List.nodup_cons] at hn
    by_cases e : x.n = n
    · subst e
      by_cases hp : p x = true
      · simp [hp, Option.filter]
      · have : (ls.filter p).find? (fun y => y.n == x.n) = none := by
          rw [List.find?_eq_none]
          intro y hy hh
          exact hn.1 (List.mem_map.2 ⟨y, (List.mem_filter.1 hy).1, by simpa using hh⟩)
        simp [hp, this, Option.filter]
    · have e' : (x.n == n) = false := by simpa using e
      rw [List.find?_cons_of_neg (by simp [e']), ← ih hn.2]
      by_cases hp : p x = true
      · simp [hp, e']
      · simp [hp]

/-! ### What the caches' work leaves alone -/

/-- What the L1 of a core may change when it fills, writes back and drops lines. -/
structure CacheStep (c : Nat) (s t : State) : Prop where
  thread : t.t = s.t
  frame : t.fr = s.fr
  core : t.core c = { s.core c with l1 := (t.core c).l1, updates := (t.core c).updates, sent := (t.core c).sent }
  others : ∀ d, d ≠ c → t.core d = s.core d
  rest : t = { s with
    cores := t.cores, fresh := t.fresh, mem := t.mem, pois := t.pois, launches := t.launches, ctxs := t.ctxs
    signals := t.signals, peerWatches := t.peerWatches }
  wf : Memory.wf s.mem = true → Memory.wf t.mem = true
  memory : Memory.wf s.mem = true → ∀ a, cellRead t.mem a = cellRead s.mem a ∨ WasDirty s c a (cellRead t.mem a)
  dirty : ∀ a b, WasDirty t c a b → WasDirty s c a b
  lines : (s.core c).linesOk → (t.core c).linesOk
  calm : s.calm c → t.calm c

theorem CacheStep.refl (c : Nat) (s : State) : CacheStep c s s :=
  ⟨rfl, rfl, rfl, fun _ _ => rfl, rfl, id, fun _ _ => Or.inl rfl, fun _ _ => id, id, id⟩

theorem CacheStep.trans {c : Nat} {s t u : State} (h : CacheStep c s t) (g : CacheStep c t u) : CacheStep c s u where
  thread := g.thread.trans h.thread
  frame := g.frame.trans h.frame
  core := by rw [g.core, h.core]
  others := fun d hd => (g.others d hd).trans (h.others d hd)
  rest := by rw [g.rest, h.rest]
  wf := fun w => g.wf (h.wf w)
  memory := fun w a => by
    rcases g.memory (h.wf w) a with e | e
    · rw [e]; exact h.memory w a
    · exact Or.inr (h.dirty _ _ e)
  dirty := fun a b x => h.dirty a b (g.dirty a b x)
  lines := fun x => g.lines (h.lines x)
  calm := fun x => g.calm (h.calm x)

/-- The dirty bytes of a line are those of another one with its number. -/
def Line.DirtyIn (l x : Line) : Prop :=
  x.n = l.n ∧ x.h = l.h ∧ x.master = l.master ∧
    ∀ i, l.dirty.getLsbD i = true → x.dirty.getLsbD i = true ∧ x.data[i]? = l.data[i]?

theorem Line.DirtyIn.refl (l : Line) : l.DirtyIn l := ⟨rfl, rfl, rfl, fun _ h => ⟨h, rfl⟩⟩

theorem dirty_bit {v : BitVec 128} (h : v ≠ 0#128) : ∃ i, v.getLsbD i = true := by
  refine Classical.byContradiction fun hn => ?_
  refine h (BitVec.eq_of_getLsbD_eq fun i _ => ?_)
  cases e : v.getLsbD i with
  | false => simp
  | true => exact absurd ⟨i, e⟩ hn

/-- A core whose dirty bytes were dirty before is as calm as it was. -/
theorem State.calm_mono {s t : State} {c : Nat} (hg : t.granted = s.granted) (hp : t.heldByPeer = s.heldByPeer)
    (hq : t.place = s.place) (hd : ∀ l ∈ (t.core c).l1, l.dirty ≠ 0#128 → ∃ x ∈ (s.core c).l1, l.DirtyIn x) (h : s.calm c) :
    t.calm c := by
  intro l hl hz
  obtain ⟨x, hx, h1, h2, h3, h4⟩ := hd l hl hz
  obtain ⟨i, hi⟩ := dirty_bit hz
  have := h x hx (fun e => by have := (h4 i hi).1; rw [e] at this; simp at this)
  rw [h1, h2, h3] at this
  rw [hg, hp, hq]
  exact this

/-- A change of one core's L1 that makes no byte dirty. -/
theorem State.modCore_cacheStep (s : State) (c : Nat) (f : Core → Core)
    (hf : f (s.core c) = { s.core c with l1 := (f (s.core c)).l1, updates := (f (s.core c)).updates, sent := (f (s.core c)).sent })
    (hd : ∀ l ∈ (f (s.core c)).l1, l.dirty ≠ 0#128 → ∃ x ∈ (s.core c).l1, l.DirtyIn x)
    (hl : (s.core c).linesOk → (f (s.core c)).linesOk) : CacheStep c s (s.modCore c f) := by
  have hc : (s.modCore c f).core c = f (s.core c) := by rw [State.core_modCore, if_pos rfl]
  refine ⟨rfl, rfl, by rw [hc]; exact hf, fun d h => by rw [State.core_modCore, if_neg h], rfl, id,
    fun _ _ => Or.inl rfl, fun a b h => ?_, fun h => by rw [hc]; exact hl h,
    State.calm_mono rfl rfl rfl (by rw [hc]; exact hd)⟩
  obtain ⟨l, h1, h2, h3, h4⟩ := h
  rw [hc] at h1
  obtain ⟨x, g1, g2, -, -, g3⟩ := hd l h1 fun e => by rw [e] at h3; simp at h3
  exact ⟨x, g1, g2.trans h2, (g3 _ h3).1, (g3 _ h3).2.trans h4⟩

/-- Chimes leave the running thread, the frame, the cores and memory. -/
theorem State.chimes_spec (ks : List Key) (s : State) (hr : s.t.life = .running) :
    (s.chimes ks).t = s.t ∧ (s.chimes ks) = { s with ctxs := (s.chimes ks).ctxs } := by
  induction ks generalizing s with
  | nil => exact ⟨rfl, rfl⟩
  | cons k ks ih =>
    obtain ⟨h1, h2⟩ := ih (s.chime k) (by rw [State.chime_t _ _ hr]; exact hr)
    rw [State.chime_t _ _ hr] at h1
    refine ⟨h1, h2.trans ?_⟩
    show ({ s with t := (s.chime k).t, ctxs := ((s.chime k).chimes ks).ctxs } : State) = _
    rw [State.chime_t _ _ hr]
    rfl

/-- The Chimes of lines leave the running thread, the frame, the cores and memory. -/
theorem State.lineChimes_spec (lines : List Nat) (s : State) (hr : s.t.life = .running) :
    (s.lineChimes lines).t = s.t ∧ (s.lineChimes lines) = { s with
      ctxs := (s.lineChimes lines).ctxs, signals := (s.lineChimes lines).signals
      peerWatches := (s.lineChimes lines).peerWatches } := by
  obtain ⟨h1, h2⟩ := State.chimes_spec (lines.flatMap fun l => [.line l, .join l]) s hr
  refine ⟨h1, ?_⟩
  unfold State.lineChimes
  simp only
  rw [h2]

/-- A request at a place that is no peer's needs no grant (R374). -/
theorem State.takeGrant_own {s : State} {pa : Nat} (h : ∀ p da, s.place pa ≠ .peer p da) (w : Bool) : s.takeGrant pa w = s := by
  unfold State.takeGrant
  split
  · rename_i p da e; exact absurd e (h p da)
  · rfl

/-! ### Write-backs -/

theorem cellReadN_eq (m : List Host.Cell) (a n : Nat) : cellReadN m a n = (List.range n).map fun i => cellRead m (a + i) := by
  induction n generalizing a with
  | zero => rfl
  | succ n ih =>
    rw [cellReadN, ih, List.range_succ_eq_map]
    simp only [Nat.add_zero, List.map_cons, List.map_map]
    congr 1
    exact List.map_congr_left fun i _ => by simp only [Function.comp]; congr 1; omega

theorem mergeDirty_length (d : BitVec 128) (data old : List Byte) (h1 : data.length = 128) (h2 : old.length = 128) :
    (mergeDirty d data old).length = 128 := by
  simp [mergeDirty, h1, h2]

theorem mergeDirty_get (d : BitVec 128) (data old : List Byte) (h1 : data.length = 128) (h2 : old.length = 128) (i : Nat)
    (hi : i < 128) : (mergeDirty d data old)[i]? = if d.getLsbD i then data[i]? else old[i]? := by
  have e : ((List.range 128).zip (data.zip old))[i]? = some (i, data[i], old[i]) :=
    List.getElem?_zip_eq_some.2 ⟨List.getElem?_range hi,
      List.getElem?_zip_eq_some.2 ⟨List.getElem?_eq_getElem (by omega), List.getElem?_eq_getElem (by omega)⟩⟩
  unfold mergeDirty
  rw [List.getElem?_map, e]
  simp only [Option.map_some]
  split
  · rw [List.getElem?_eq_getElem (by omega)]
  · rw [List.getElem?_eq_getElem (by omega)]

/-- A line without dirty bytes. -/
def Line.clean (l : Line) : Line := if l.dirty = 0#128 then l else { l with dirty := 0#128, whole := [false, false, false, false] }

@[simp] theorem Line.clean_n (l : Line) : l.clean.n = l.n := by unfold Line.clean; split <;> rfl
@[simp] theorem Line.clean_data (l : Line) : l.clean.data = l.data := by unfold Line.clean; split <;> rfl
@[simp] theorem Line.clean_dirty (l : Line) : l.clean.dirty = 0#128 := by
  unfold Line.clean; split
  · assumption
  · rfl

theorem State.noteWrite_quiet (s : State) (a n : Nat) : Quiet s (s.noteWrite a n) := Quiet.of_eq rfl

theorem contains_filter_not (l : List Nat) (p : Nat → Bool) (m : Nat) (h : p m = true) : (l.filter p).contains m = l.contains m := by
  rw [Bool.eq_iff_iff]; simp [h]

/-- A write-back puts the dirty bytes of one line into memory, and marks the line clean (R124, R264). -/
theorem State.writeBackLine_spec (s : State) (c : Nat) (l : Line) (hr : s.t.life = .running) (hok : (s.core c).linesOk)
    (hcalm : s.calm c) (hl : l ∈ (s.core c).l1) :
    CacheStep c s (s.writeBackLine c l) ∧
    (∀ n, ((s.writeBackLine c l).core c).line? n = if n = l.n then some l.clean else (s.core c).line? n) ∧
    (Memory.wf s.mem = true → ∀ a, cellRead (s.writeBackLine c l).mem a =
      if a / 128 = l.n ∧ l.dirty.getLsbD (a % 128) = true then (l.data.drop (a % 128)).headD 0#8 else cellRead s.mem a) ∧
    ((s.writeBackLine c l).core c).l1.length = (s.core c).l1.length ∧
    ((s.writeBackLine c l).core c).updates = (s.core c).updates ∧
    ((s.writeBackLine c l).core c).sent = (s.core c).sent ∧
    ((s.writeBackLine c l).core c).l1.map Line.n = (s.core c).l1.map Line.n ∧
    (∀ m, l.n ≠ m / 4 → (s.writeBackLine c l).pois.contains m = s.pois.contains m) := by
  have hline := hok.line? hl
  have hdat := hok.2 l hl
  by_cases hz : l.dirty = 0#128
  · have : s.writeBackLine c l = s := by unfold State.writeBackLine; rw [if_pos hz]
    rw [this]
    refine ⟨CacheStep.refl c s, fun n => ?_, fun _ a => ?_, rfl, rfl, rfl, rfl, fun _ _ => rfl⟩
    · by_cases hn : n = l.n
      · subst hn; simp [hline, Line.clean, hz]
      · simp [hn]
    · simp [hz]
  · -- the state with its memory written, then the Chimes, then the line marked clean
    obtain ⟨m1, hm1⟩ : ∃ m1, m1 = cellWriteN s.mem (128 * l.n) (mergeDirty l.dirty l.data (cellReadN s.mem (128 * l.n) 128)) := ⟨_, rfl⟩
    obtain ⟨p1, hp1⟩ : ∃ p1 : List Nat, p1 = s.pois.filter fun p => !(((List.range 4).filter fun k => marked l.whole k &&
      sectorMask l.dirty k != 0#32).any fun k => p == 4 * l.n + k) := ⟨_, rfl⟩
    obtain ⟨s1, hs1⟩ : ∃ s1 : State, s1 = { s.noteWrite (128 * l.n) 128 with mem := m1, pois := p1 } := ⟨_, rfl⟩
    obtain ⟨s2, hs2⟩ : ∃ s2 : State, s2 = if cellReadN s.mem (128 * l.n) 128 ≠
      mergeDirty l.dirty l.data (cellReadN s.mem (128 * l.n) 128) then s1.lineChimes [128 * l.n] else s1 := ⟨_, rfl⟩
    obtain ⟨-, hg, hp, hq⟩ := hcalm l hl hz
    have hdef : s.writeBackLine c l = s2.modCore c fun k => match k.line? l.n with
        | some x => k.putLine { x with dirty := 0#128, whole := [false, false, false, false] }
        | none => k := by
      rw [hs2, hs1, hm1, hp1]; unfold State.writeBackLine State.putBack
      simp only [if_neg hz, if_pos hg, hp, State.takeGrant_own hq, Bool.false_eq_true, if_false]; rfl
    have h1t : s1.t = s.t := by rw [hs1]; rfl
    have h2 : s2.t = s1.t ∧ s2 = { s1 with
        ctxs := s2.ctxs, signals := s2.signals, peerWatches := s2.peerWatches } := by
      rw [hs2]; split
      · exact State.lineChimes_spec _ _ (by rw [h1t]; exact hr)
      · exact ⟨rfl, rfl⟩
    have hc2 : ∀ d, s2.core d = s.core d := fun d => by rw [h2.2, hs1]; rfl
    have hlen : (cellReadN s.mem (128 * l.n) 128).length = 128 := by rw [cellReadN_eq]; simp
    have hwf1 : Memory.wf s.mem = true → Memory.wf s1.mem = true := fun w => by rw [hs1, hm1]; exact wf_cellWriteN _ _ _ w
    have hmem1 : Memory.wf s.mem = true → ∀ a, cellRead s1.mem a =
        if a / 128 = l.n ∧ l.dirty.getLsbD (a % 128) = true then (l.data.drop (a % 128)).headD 0#8 else cellRead s.mem a := by
      intro w a
      rw [hs1, hm1]
      show cellRead (cellWriteN s.mem _ _) a = _
      by_cases ha : a / 128 = l.n
      · have hi : a % 128 < (mergeDirty l.dirty l.data (cellReadN s.mem (128 * l.n) 128)).length := by
          rw [mergeDirty_length _ _ _ hdat hlen]; omega
        have := cellRead_cellWriteN s.mem (128 * l.n) (a % 128) _ w hi
        rw [show 128 * l.n + a % 128 = a by omega] at this
        rw [this]
        have hg := mergeDirty_get l.dirty l.data _ hdat hlen (a % 128) (by omega)
        rw [List.getElem?_eq_getElem hi] at hg
        by_cases hb : l.dirty.getLsbD (a % 128) = true
        · rw [if_pos ⟨ha, hb⟩]
          rw [if_pos hb] at hg
          rw [List.headD_eq_head?_getD, List.head?_drop, ← hg]; rfl
        · rw [if_neg (by simp [hb])]
          have e : (cellReadN s.mem (128 * l.n) 128)[a % 128]? = some (cellRead s.mem (128 * l.n + a % 128)) := by
            rw [cellReadN_eq, List.getElem?_map, List.getElem?_range (by omega)]; rfl
          rw [if_neg hb, e] at hg
          simp only [Option.some.injEq] at hg
          rw [hg]; congr 1; omega
      · rw [if_neg (by simp [ha]), cellRead_cellWriteN_out _ _ _ _ w]
        rw [mergeDirty_length _ _ _ hdat hlen]; omega
    have hmem2 : Memory.wf s.mem = true → ∀ a, cellRead s2.mem a =
        if a / 128 = l.n ∧ l.dirty.getLsbD (a % 128) = true then (l.data.drop (a % 128)).headD 0#8 else cellRead s.mem a := by
      intro w a
      rw [show s2.mem = s1.mem by rw [h2.2], hmem1 w a]
    have hstep12 : CacheStep c s s2 := by
      refine ⟨h2.1.trans h1t, by rw [h2.2, hs1]; rfl, by rw [hc2], fun d _ => hc2 d, by rw [h2.2, hs1]; rfl,
        fun w => by rw [h2.2]; exact hwf1 w, fun w a => ?_, fun a b h => ?_, fun h => by rw [hc2]; exact h,
        State.calm_mono (by rw [h2.2, hs1]; rfl) (by rw [h2.2, hs1]; rfl) (by rw [h2.2, hs1]; rfl)
          (by rw [hc2]; exact fun x hx _ => ⟨x, hx, Line.DirtyIn.refl x⟩)⟩
      · rw [hmem2 w a]
        split
        · rename_i hh
          right
          refine ⟨l, hl, hh.1.symm, hh.2, ?_⟩
          rw [List.headD_eq_head?_getD, List.head?_drop, List.getElem?_eq_getElem (by rw [hdat]; omega)]; rfl
        · exact Or.inl rfl
      · obtain ⟨x, g⟩ := h
        rw [hc2] at g
        exact ⟨x, g⟩
    have hcore : (s.writeBackLine c l).core c = (s.core c).putLine { l with dirty := 0#128, whole := [false, false, false, false] } := by
      rw [hdef, State.core_modCore, if_pos rfl, hc2]; simp only [hline]
    rw [hdef] at hcore ⊢
    refine ⟨hstep12.trans (State.modCore_cacheStep _ _ _ ?_ ?_ ?_), fun n => ?_, fun w a => ?_, ?_, ?_, ?_, ?_, fun m hm => ?_⟩
    · rw [hc2]; simp only [hline]; unfold Core.putLine; split <;> rfl
    · rw [hc2]; simp only [hline]
      intro x hx hi
      rcases Core.mem_putLine hx with rfl | hx
      · simp at hi
      · exact ⟨x, hx.1, Line.DirtyIn.refl x⟩
    · rw [hc2]; simp only [hline]; intro h; exact h.putLine hdat
    · rw [hcore, Core.line?_putLine]
      simp only [Line.clean, if_neg hz]
    · exact hmem2 w a
    · rw [hcore]; exact Core.length_putLine (by rw [hline]; rfl)
    · rw [hcore]; unfold Core.putLine; split <;> rfl
    · rw [hcore]; unfold Core.putLine; split <;> rfl
    · rw [hcore]; exact Core.numbers_putLine (l := { l with dirty := 0#128, whole := [false, false, false, false] }) (by rw [hline]; rfl)
    · have e : s2.pois = p1 := by
        have := congrArg State.pois h2.2
        rw [this, hs1]
      show s2.pois.contains m = _
      rw [e, hp1]
      refine contains_filter_not _ _ _ ?_
      simp only [Bool.not_eq_true', List.any_eq_false, beq_iff_eq]
      intro k hk e
      have := List.mem_range.1 (List.mem_filter.1 hk).1
      omega

theorem State.writeBackList_spec (c : Nat) (L : List Line) (s : State) (hr : s.t.life = .running) (hok : (s.core c).linesOk)
    (hcalm : s.calm c) (hn : (L.map Line.n).Nodup) (hL : ∀ l ∈ L, l ∈ (s.core c).l1) :
    CacheStep c s (L.foldl (fun s l => s.writeBackLine c l) s) ∧
    (∀ n, ((L.foldl (fun s l => s.writeBackLine c l) s).core c).line? n =
      match L.find? fun x => x.n == n with
      | some l => some l.clean
      | none => (s.core c).line? n) ∧
    (Memory.wf s.mem = true → ∀ a, cellRead (L.foldl (fun s l => s.writeBackLine c l) s).mem a =
      match L.find? fun x => x.n == a / 128 with
      | some l => if l.dirty.getLsbD (a % 128) = true then (l.data.drop (a % 128)).headD 0#8 else cellRead s.mem a
      | none => cellRead s.mem a) ∧
    ((L.foldl (fun s l => s.writeBackLine c l) s).core c).l1.length = (s.core c).l1.length ∧
    ((L.foldl (fun s l => s.writeBackLine c l) s).core c).updates = (s.core c).updates ∧
    ((L.foldl (fun s l => s.writeBackLine c l) s).core c).sent = (s.core c).sent ∧
    (∀ m, (∀ l ∈ L, l.n ≠ m / 4) →
      (L.foldl (fun s l => s.writeBackLine c l) s).pois.contains m = s.pois.contains m) := by
  induction L generalizing s with
  | nil => exact ⟨CacheStep.refl c s, fun n => rfl, fun _ a => rfl, rfl, rfl, rfl, fun _ _ => rfl⟩
  | cons l L ih =>
    simp only [List.map_cons, List.nodup_cons] at hn
    obtain ⟨w1, w2, w3, w4, w5, w6, -, w7⟩ := State.writeBackLine_spec s c l hr hok hcalm (hL l (by simp))
    have hne : ∀ x ∈ L, x.n ≠ l.n := fun x hx e => hn.1 (e ▸ List.mem_map_of_mem hx)
    obtain ⟨v1, v2, v3, v4, v5, v6, v7⟩ := ih (s.writeBackLine c l) (by rw [w1.thread]; exact hr) (w1.lines hok) (w1.calm hcalm) hn.2 fun x hx => by
      have := w2 x.n
      rw [if_neg (hne x hx), hok.line? (hL x (by simp [hx]))] at this
      exact (Core.line?_some this).1
    simp only [List.foldl_cons]
    refine ⟨w1.trans v1, fun n => ?_, fun w a => ?_, v4.trans w4, v5.trans w5, v6.trans w6,
      fun m hm => (v7 m fun x hx => hm x (by simp [hx])).trans (w7 m (hm l (by simp)))⟩
    · rw [v2, w2]
      by_cases e : l.n = n
      · have : L.find? (fun x => x.n == n) = none := by
          rw [List.find?_eq_none]; intro x hx h
          exact hne x hx ((by simpa using h : x.n = n).trans e.symm)
        rw [List.find?_cons_of_pos (by simpa using e), this]
        simp [e]
      · rw [List.find?_cons_of_neg (by simpa using e), if_neg (Ne.symm e)]
    · rw [v3 (w1.wf w) a, w3 w a]
      by_cases e : l.n = a / 128
      · have : L.find? (fun x => x.n == a / 128) = none := by
          rw [List.find?_eq_none]; intro x hx h
          exact hne x hx ((by simpa using h : x.n = a / 128).trans e.symm)
        rw [List.find?_cons_of_pos (by simpa using e), this]
        simp [e.symm]
      · rw [List.find?_cons_of_neg (by simpa using e)]
        have : ¬ (a / 128 = l.n ∧ l.dirty.getLsbD (a % 128) = true) := fun h => e h.1.symm
        rw [if_neg this]

/-- A write-back of the lines of a core that satisfy a condition (R124, R264). -/
theorem State.writeBackWhere_spec (s : State) (c : Nat) (p : Line → Bool) (hr : s.t.life = .running) (hok : (s.core c).linesOk)
    (hcalm : s.calm c) :
    CacheStep c s (s.writeBackWhere c p) ∧
    (∀ n, ((s.writeBackWhere c p).core c).line? n = ((s.core c).line? n).map fun l => if p l then l.clean else l) ∧
    (Memory.wf s.mem = true → ∀ a, cellRead (s.writeBackWhere c p).mem a =
      match (s.core c).line? (a / 128) with
      | some l => if p l = true ∧ l.dirty.getLsbD (a % 128) = true then (l.data.drop (a % 128)).headD 0#8 else cellRead s.mem a
      | none => cellRead s.mem a) ∧
    ((s.writeBackWhere c p).core c).l1.length = (s.core c).l1.length ∧
    ((s.writeBackWhere c p).core c).updates = (s.core c).updates ∧
    ((s.writeBackWhere c p).core c).sent = (s.core c).sent ∧
    (∀ m, (∀ l ∈ (s.core c).l1, p l = true → l.n ≠ m / 4) →
      (s.writeBackWhere c p).pois.contains m = s.pois.contains m) := by
  have hf : ∀ n, ((s.core c).l1.filter p).find? (fun x => x.n == n) = ((s.core c).line? n).filter p := fun n =>
    find_filter hok.1 p n
  obtain ⟨h1, h2, h3, h4, h5, h6, h7⟩ := State.writeBackList_spec c ((s.core c).l1.filter p) s hr hok hcalm
    ((List.filter_sublist.map _).nodup hok.1) fun l hl => (List.mem_filter.1 hl).1
  refine ⟨h1, fun n => ?_, fun w a => ?_, h4, h5, h6,
    fun m hm => h7 m fun l hl => hm l (List.mem_filter.1 hl).1 (List.mem_filter.1 hl).2⟩
  · refine (h2 n).trans ?_
    rw [hf]
    cases e : (s.core c).line? n with
    | none => rfl
    | some l => by_cases hp : p l = true <;> simp [Option.filter, hp]
  · refine (h3 w a).trans ?_
    rw [hf]
    cases e : (s.core c).line? (a / 128) with
    | none => rfl
    | some l => by_cases hp : p l = true <;> simp [Option.filter, hp]

/-- Lines of a core dropped (R264). -/
theorem State.dropWhere_spec (s : State) (c : Nat) (p : Line → Bool) (hok : (s.core c).linesOk) :
    CacheStep c s (s.dropWhere c p) ∧
    (∀ n, ((s.dropWhere c p).core c).line? n = ((s.core c).line? n).filter fun l => !p l) ∧
    (s.dropWhere c p).mem = s.mem ∧ ((s.core c).sent = [] → ((s.dropWhere c p).core c).sent = []) := by
  refine ⟨State.modCore_cacheStep _ _ _ rfl (fun l hl _ => ⟨l, (List.mem_filter.1 hl).1, Line.DirtyIn.refl l⟩)
    fun h => ⟨?_, fun l hl => ?_⟩, fun n => ?_, rfl, fun h => ?_⟩
  · exact (List.filter_sublist.map _).nodup h.1
  · exact h.2 l (List.mem_filter.1 hl).1
  · unfold State.dropWhere
    rw [State.core_modCore, if_pos rfl]
    exact find_filter hok.1 _ n
  · unfold State.dropWhere
    rw [State.core_modCore, if_pos rfl]
    simp [h]

/-- Lines of a core written back and dropped; the condition does not look at what a write-back clears (R264). -/
theorem State.flushWhere_spec (s : State) (c : Nat) (p : Line → Bool) (hr : s.t.life = .running) (hok : (s.core c).linesOk)
    (hcalm : s.calm c) (hp : ∀ l : Line, p l.clean = p l) :
    CacheStep c s (s.flushWhere c p) ∧
    (∀ n, ((s.flushWhere c p).core c).line? n = ((s.core c).line? n).filter fun l => !p l) ∧
    (Memory.wf s.mem = true → ∀ a, cellRead (s.flushWhere c p).mem a =
      match (s.core c).line? (a / 128) with
      | some l => if p l = true ∧ l.dirty.getLsbD (a % 128) = true then (l.data.drop (a % 128)).headD 0#8 else cellRead s.mem a
      | none => cellRead s.mem a) ∧
    ((s.core c).sent = [] → ((s.flushWhere c p).core c).sent = []) ∧
    (∀ m, (∀ l ∈ (s.core c).l1, p l = true → l.n ≠ m / 4) → (s.flushWhere c p).pois.contains m = s.pois.contains m) := by
  obtain ⟨h1, h2, h3, -, -, h6, h7⟩ := State.writeBackWhere_spec s c p hr hok hcalm
  obtain ⟨g1, g2, g3, g4⟩ := State.dropWhere_spec (s.writeBackWhere c p) c p (h1.lines hok)
  refine ⟨h1.trans g1, fun n => ?_, fun w a => ?_, fun h => g4 (h6.trans h), h7⟩
  · refine (g2 n).trans ?_
    rw [h2]
    cases (s.core c).line? n with
    | none => rfl
    | some l => by_cases e : p l = true <;> simp [Option.filter, e, hp]
  · unfold State.flushWhere; rw [g3]; exact h3 w a

/-! ### Fills -/

/-- A line as it is allocated (R264). -/
def State.newLine (s : State) (a : Nat) (asn : BitVec 16) (vpn : BitVec 41) (size : Nat) : Line :=
  { n := a / 128, h := s.regionH a, stamp := s.stampNow, asn := asn, vpn := vpn, size := size }

theorem State.seen_congr {s t : State} {c x : Nat} (h1 : (t.core c).line? (x / 128) = (s.core c).line? (x / 128))
    (h2 : t.homeSeen c x = s.homeSeen c x) : t.seen c x = s.seen c x := by
  unfold State.seen; rw [h1, h2]

theorem headD_drop (l : List Byte) (i : Nat) : (l.drop i).headD 0#8 = l[i]?.getD 0#8 := by
  rw [List.headD_eq_head?_getD, List.head?_drop]

/-- A core that has no write on its way sees the bytes of memory at a home (R265). -/
theorem State.homeSeen_idle {s : State} {c : Nat} (h : (s.core c).sent = []) (x : Nat) : s.homeSeen c x = cellRead s.mem x := by
  unfold State.homeSeen
  rw [h]
  show ((cellReadN s.mem (128 * (x / 128)) 128).drop (x % 128)).headD 0#8 = _
  rw [headD_drop, cellReadN_eq, List.getElem?_map, List.getElem?_range (by omega)]
  show cellRead s.mem (128 * (x / 128) + x % 128) = _
  congr 1; omega

theorem State.homeSeen_congr {s t : State} {c : Nat} (h1 : t.mem = s.mem) (h2 : (t.core c).sent = (s.core c).sent) (x : Nat) :
    t.homeSeen c x = s.homeSeen c x := by
  unfold State.homeSeen; rw [h1, h2]

theorem setManyAt_length (off : Nat) (bs data : List Byte) : (setManyAt off bs data).length = data.length := by
  simp only [setManyAt, List.length_append, List.length_take, List.length_drop]; omega

theorem overSent_length (n : Nat) (sent : List Sent) (data : List Byte) : (overSent n sent data).length = data.length := by
  unfold overSent
  induction sent.filter (fun w => lineNo w.pa == n) generalizing data with
  | nil => rfl
  | cons w l ih => rw [List.foldl_cons, ih, setManyAt_length]

/-- The line of an address is held after its allocation: the one that was there, or an empty one. What the core sees of
that line is as before (R264). -/
theorem State.allocLine_spec (s : State) (c a : Nat) (asn : BitVec 16) (vpn : BitVec 41) (size : Nat) (hr : s.t.life = .running)
    (hok : (s.core c).linesOk) (hcalm : s.room c a ∨ s.calm c) :
    CacheStep c s (s.allocLine c a asn vpn size) ∧
    (((s.core c).line? (a / 128)).isSome = true ∧ s.allocLine c a asn vpn size = s ∨
      (s.core c).line? (a / 128) = none ∧ ∃ l, ((s.allocLine c a asn vpn size).core c).line? (a / 128) = some l ∧
        l.valid = [false, false, false, false] ∧ l.dirty = 0#128 ∧ l.whole = [false, false, false, false]) ∧
    (s.room c a → s.allocLine c a asn vpn size = { s with cores := (s.allocLine c a asn vpn size).cores } ∧
      ((s.allocLine c a asn vpn size).core c).updates = (s.core c).updates ∧
      ((s.allocLine c a asn vpn size).core c).sent = (s.core c).sent ∧
      ∀ n, n ≠ a / 128 → ((s.allocLine c a asn vpn size).core c).line? n = (s.core c).line? n) ∧
    (Memory.wf s.mem = true → ∀ x, x / 128 = a / 128 →
      cellRead (s.allocLine c a asn vpn size).mem x = cellRead s.mem x ∨ ((s.core c).line? (a / 128)).isSome = true) ∧
    (∀ m, m / 4 = a / 128 → (s.allocLine c a asn vpn size).pois.contains m = s.pois.contains m) ∧
    ((s.core c).sent = [] → ((s.allocLine c a asn vpn size).core c).sent = []) := by
  by_cases hl : ((s.core c).line? (a / 128)).isSome = true
  · have e : s.allocLine c a asn vpn size = s := by unfold State.allocLine; simp only [lineNo, hl, if_true]
    rw [e]
    exact ⟨CacheStep.refl c s, Or.inl ⟨hl, rfl⟩, fun _ => ⟨rfl, rfl, rfl, fun _ _ => rfl⟩, fun _ x _ => Or.inr hl,
      fun _ _ => rfl, id⟩
  · have hnone : (s.core c).line? (a / 128) = none := by simpa using hl
    -- the state once there is room
    obtain ⟨s1, hs1⟩ : ∃ s1 : State, (if ((s.core c).setOf (a / 128)).length < 8 then s else
        match (((s.core c).setOf (a / 128)).drop (s.draw.1 % ((s.core c).setOf (a / 128)).length)).head? with
        | some x => s.draw.2.flushWhere c fun l => l.n == x.n
        | none => s.draw.2) = s1 := ⟨_, rfl⟩
    have hdef : s.allocLine c a asn vpn size = s1.modCore c fun k => k.putLine (s1.newLine a asn vpn size) := by
      rw [← hs1]; unfold State.allocLine; simp only [lineNo, hl]; rfl
    rw [hdef]
    have key : CacheStep c s s1 ∧ (s1.core c).line? (a / 128) = none ∧ (s.room c a → s1 = s) ∧
        (Memory.wf s.mem = true → ∀ x, x / 128 = a / 128 → cellRead s1.mem x = cellRead s.mem x) ∧
        (∀ m, m / 4 = a / 128 → s1.pois.contains m = s.pois.contains m) ∧ ((s.core c).sent = [] → (s1.core c).sent = []) := by
      by_cases hf : ¬ ((s.core c).setOf (a / 128)).length < 8
      · rw [if_neg hf] at hs1
        have hroom : ¬ s.room c a := by
          rintro (h | h)
          · exact hl h
          · omega
        have hcalm := hcalm.resolve_left hroom
        have hd : CacheStep c s s.draw.2 := ⟨rfl, rfl, rfl, fun _ _ => rfl, rfl, id, fun _ _ => Or.inl rfl, fun _ _ => id, id, id⟩
        split at hs1
        · rename_i x hx
          have hx' : x ∈ (s.core c).l1 := by
            have := List.mem_of_mem_head? hx
            exact (List.mem_filter.1 (List.mem_of_mem_drop this)).1
          have hne : x.n ≠ a / 128 := fun e => by
            have := hok.line? hx'
            rw [e, hnone] at this
            exact absurd this (by simp)
          obtain ⟨f1, f2, f3, f4, hpo⟩ := State.flushWhere_spec s.draw.2 c (fun l => l.n == x.n) hr hok hcalm (fun l => by simp)
          rw [← hs1]
          refine ⟨hd.trans f1, ?_, fun h => absurd h hroom, fun w y hy => ?_, fun m hm => ?_, f4⟩
          · refine (f2 _).trans ?_
            show ((s.core c).line? (a / 128)).filter _ = none
            rw [hnone]; rfl
          · refine (f3 w y).trans ?_
            show (match (s.core c).line? (y / 128) with | some l => _ | none => _) = _
            rw [hy, hnone]; rfl
          · exact hpo m fun l _ he => by
              have : l.n = x.n := by simpa using he
              rw [this, hm]; exact hne
        · rw [← hs1]
          exact ⟨hd, hnone, fun h => absurd h hroom, fun _ _ _ => rfl, fun _ _ => rfl, id⟩
      · rw [if_pos (by omega)] at hs1
        subst hs1
        exact ⟨CacheStep.refl c s, hnone, fun _ => rfl, fun _ _ _ => rfl, fun _ _ => rfl, id⟩
    obtain ⟨k1, k2, k3, k4, k5, k6⟩ := key
    have hcore : ∀ f, (s1.modCore c f).core c = f (s1.core c) := fun f => by rw [State.core_modCore, if_pos rfl]
    refine ⟨k1.trans (State.modCore_cacheStep _ _ _ ?_ ?_ ?_), Or.inr ⟨hnone, s1.newLine a asn vpn size, ?_, rfl, rfl, rfl⟩, fun hroom => ?_, fun w x hx => Or.inl ?_, fun m hm => ?_, fun h => ?_⟩
    · unfold Core.putLine; split <;> rfl
    · intro x hx hi
      rcases Core.mem_putLine hx with rfl | hx
      · exact absurd rfl hi
      · exact ⟨x, hx.1, Line.DirtyIn.refl x⟩
    · intro h; exact h.putLine (by simp [State.newLine])
    · rw [hcore, Core.line?_putLine]; exact if_pos rfl
    · have e := k3 hroom
      rw [e]
      refine ⟨rfl, ?_, ?_, fun n hn => ?_⟩
      · rw [State.core_modCore, if_pos rfl]; unfold Core.putLine; split <;> rfl
      · rw [State.core_modCore, if_pos rfl]; unfold Core.putLine; split <;> rfl
      · rw [State.core_modCore, if_pos rfl, Core.line?_putLine]; exact if_neg hn
    · exact k4 w x hx
    · exact k5 m hm
    · rw [hcore]; refine Eq.trans ?_ (k6 h); unfold Core.putLine; split <;> rfl

/-- The sectors that a held line misses are filled; the core sees of every byte what it saw (R264). -/
theorem State.fillLine_spec (s : State) (c a : Nat) (l : Line) (hok : (s.core c).linesOk)
    (hl : (s.core c).line? (a / 128) = some l) :
    CacheStep c s (s.fillLine c a) ∧ s.fillLine c a = { s with cores := (s.fillLine c a).cores } ∧
    ((s.fillLine c a).core c).updates = (s.core c).updates ∧ ((s.fillLine c a).core c).sent = (s.core c).sent ∧
    (∀ x, (s.fillLine c a).seen c x = s.seen c x) ∧
    ∃ l', ((s.fillLine c a).core c).line? (a / 128) = some l' ∧ l'.data.length = 128 ∧
      (∀ k, k < 4 → marked l'.valid k = true) ∧ (∀ k, k < 4 → marked l'.pois k =
        if marked l.valid k || marked l.whole k then marked l.pois k else s.pois.contains (4 * (a / 128) + k)) ∧
      ∀ i, i < 128 → (l'.data.drop i).headD 0#8 = s.seen c (128 * (a / 128) + i) := by
  obtain ⟨hmem, hn⟩ := Core.line?_some hl
  have hdat := hok.2 l hmem
  obtain ⟨home, hhome⟩ : ∃ home, home = overSent (a / 128) (s.core c).sent (cellReadN s.mem (128 * (a / 128)) 128) := ⟨_, rfl⟩
  obtain ⟨d', hd'⟩ : ∃ d', d' = ((List.range 128).zip (l.data.zip home)).map fun p =>
      if marked l.valid (p.1 / 32) || l.dirty.getLsbD p.1 then p.2.1 else p.2.2 := ⟨_, rfl⟩
  obtain ⟨p', hp'⟩ : ∃ p', p' = (List.range 4).map fun k =>
      if marked l.valid k || marked l.whole k then marked l.pois k else s.pois.any fun p => p == 4 * (a / 128) + k := ⟨_, rfl⟩
  have hdef : s.fillLine c a = s.modCore c fun k => k.putLine { l with data := d', valid := [true, true, true, true], pois := p' } := by
    unfold State.fillLine; simp only [lineNo, hl, hd', hp', hhome]
  have hlen : home.length = 128 := by rw [hhome, overSent_length, cellReadN_eq]; simp
  have hdl : d'.length = 128 := by rw [hd']; simp [hdat, hlen]
  have hget : ∀ i, i < 128 → (d'.drop i).headD 0#8 = s.seen c (128 * (a / 128) + i) := by
    intro i hi
    have e : ((List.range 128).zip (l.data.zip home))[i]? = some (i, l.data[i], home[i]) :=
      List.getElem?_zip_eq_some.2 ⟨List.getElem?_range hi,
        List.getElem?_zip_eq_some.2 ⟨List.getElem?_eq_getElem (by omega), List.getElem?_eq_getElem (by omega)⟩⟩
    have e2 : home[i] = s.homeSeen c (128 * (a / 128) + i) := by
      unfold State.homeSeen
      rw [show (128 * (a / 128) + i) / 128 = a / 128 by omega, show (128 * (a / 128) + i) % 128 = i by omega, ← hhome,
        headD_drop, List.getElem?_eq_getElem (by omega)]
      rfl
    rw [headD_drop, hd', List.getElem?_map, e]
    unfold State.seen
    rw [show (128 * (a / 128) + i) / 128 = a / 128 by omega, show (128 * (a / 128) + i) % 128 = i by omega, hl]
    simp only [Option.map_some, Option.getD_some, e2]
    split
    · rw [headD_drop, List.getElem?_eq_getElem (by omega)]; rfl
    · rfl
  have hcore : (s.fillLine c a).core c = (s.core c).putLine { l with data := d', valid := [true, true, true, true], pois := p' } := by
    rw [hdef, State.core_modCore, if_pos rfl]
  have hline : ∀ n, ((s.fillLine c a).core c).line? n = if n = a / 128 then
      some { l with data := d', valid := [true, true, true, true], pois := p' } else (s.core c).line? n := fun n => by
    rw [hcore, Core.line?_putLine]; simp only [hn]
  have hval : ∀ k, k < 4 → marked [true, true, true, true] k = true := by decide
  refine ⟨?_, by rw [hdef]; rfl, ?_, ?_, fun x => ?_, _, by rw [hline, if_pos rfl], hdl, hval, fun k hk => ?_, hget⟩
  · rw [hdef]
    refine State.modCore_cacheStep _ _ _ ?_ ?_ ?_
    · unfold Core.putLine; split <;> rfl
    · intro x hx hz
      rcases Core.mem_putLine hx with rfl | hx
      · refine ⟨l, hmem, rfl, rfl, rfl, fun i hi => ⟨hi, ?_⟩⟩
        have hi' : i < 128 := BitVec.lt_of_getLsbD hi
        have := hget i hi'
        rw [headD_drop] at this
        have h2 : (s.seen c (128 * (a / 128) + i)) = (l.data.drop i).headD 0#8 := by
          unfold State.seen
          rw [show (128 * (a / 128) + i) / 128 = a / 128 by omega, show (128 * (a / 128) + i) % 128 = i by omega, hl]
          simp only
          rw [if_pos]
          have : l.dirty.getLsbD i = true := hi
          simp [this]
        rw [h2, headD_drop, List.getElem?_eq_getElem (show i < d'.length by omega),
          List.getElem?_eq_getElem (show i < l.data.length by omega)] at this
        show l.data[i]? = d'[i]?
        rw [List.getElem?_eq_getElem (show i < d'.length by omega), List.getElem?_eq_getElem (show i < l.data.length by omega)]
        exact congrArg some this.symm
      · exact ⟨x, hx.1, Line.DirtyIn.refl x⟩
    · intro h; exact h.putLine hdl
  · rw [hcore]; unfold Core.putLine; split <;> rfl
  · rw [hcore]; unfold Core.putLine; split <;> rfl
  · by_cases hx : x / 128 = a / 128
    · have h1 : (s.fillLine c a).seen c x = (d'.drop (x % 128)).headD 0#8 := by
        unfold State.seen
        rw [hx, hline, if_pos rfl]
        simp only
        rw [if_pos]
        have := hval (x % 128 / 32) (by omega)
        simp [this]
      rw [h1, hget _ (by omega)]
      congr 1; omega
    · refine State.seen_congr ?_ (State.homeSeen_congr (by rw [hdef]; rfl) (by rw [hcore]; unfold Core.putLine; split <;> rfl) x)
      rw [hline, if_neg hx]
  · show marked p' k = _
    rw [hp']
    unfold marked
    rw [List.headD_eq_head?_getD, List.head?_drop, List.getElem?_map, List.getElem?_range hk]
    simp only [Option.map_some, Option.getD_some]
    split
    · rfl
    · rw [Bool.eq_iff_iff, List.any_eq_true, List.contains_iff_mem]
      exact ⟨fun ⟨x, h1, h2⟩ => (beq_iff_eq.1 h2) ▸ h1, fun h => ⟨_, h, beq_self_eq_true _⟩⟩

/-- A load that performs in the core's L1 (R124, R125): it gives the bytes and the poison mark that the core sees. With
room for the line, nothing that the core sees changes. -/
theorem State.l1Load_spec (s : State) (c pa n : Nat) (asn : BitVec 16) (vpn : BitVec 41) (size : Nat) (hr : s.t.life = .running)
    (hok : (s.core c).linesOk) (hn : s.homeAddr pa % 32 + n ≤ 32)
    (hf : s.room c (s.homeAddr pa) ∨ (s.calm c ∧ (s.core c).sent = [] ∧ Memory.wf s.mem = true)) :
    CacheStep c s (s.l1Load c pa n asn vpn size).2.2 ∧
    (s.l1Load c pa n asn vpn size).1 = (List.range n).map (fun j => s.seen c (s.homeAddr pa + j)) ∧
    (s.l1Load c pa n asn vpn size).2.1 = s.seenPois c (s.homeAddr pa) ∧
    (s.room c (s.homeAddr pa) →
      (s.l1Load c pa n asn vpn size).2.2 = { s with cores := (s.l1Load c pa n asn vpn size).2.2.cores } ∧
      ((s.l1Load c pa n asn vpn size).2.2.core c).updates = (s.core c).updates ∧
      ((s.l1Load c pa n asn vpn size).2.2.core c).sent = (s.core c).sent ∧
      ∀ x, (s.l1Load c pa n asn vpn size).2.2.seen c x = s.seen c x) := by
  obtain ⟨a, ha⟩ : ∃ a, a = s.homeAddr pa := ⟨_, rfl⟩
  rw [← ha] at hn hf ⊢
  obtain ⟨a1, a2, a3, a4, a5, a6⟩ := State.allocLine_spec s c a asn vpn size hr hok (hf.imp id fun h => h.1)
  generalize hs1 : s.allocLine c a asn vpn size = s1 at a1 a2 a3 a4 a5 a6
  have hdef : s.l1Load c pa n asn vpn size =
      (let s2 := if (match (s1.core c).line? (a / 128) with | some l => marked l.valid (a % 128 / 32) | none => false) = true
        then s1 else s1.fillLine c a
      match (s2.core c).line? (a / 128) with
      | some l => ((l.data.drop (a % 128)).take n, marked l.pois (a % 128 / 32), s2)
      | none => (s2.homeRead pa n, s2.homePois pa n, s2)) := by
    unfold State.l1Load; simp only [lineNo]; rw [← ha, hs1]; rfl
  -- the line, once allocated
  obtain ⟨l, hl⟩ : ∃ l, (s1.core c).line? (a / 128) = some l := by
    rcases a2 with ⟨h1, h2⟩ | ⟨-, l, h, -⟩
    · rw [h2]; exact Option.isSome_iff_exists.1 h1
    · exact ⟨l, h⟩
  have hok1 := a1.lines hok
  have hld : l.data.length = 128 := hok1.2 l (Core.line?_some hl).1
  -- what the core sees in the line is as before
  have hseen1 : ∀ j, j < n → s1.seen c (a + j) = s.seen c (a + j) := by
    intro j hj
    rcases a2 with ⟨h1, h2⟩ | ⟨h0', l', h1, h2, h3, h4⟩
    · rw [h2]
    · rw [hl] at h1
      obtain rfl := Option.some.inj h1
      have hq : (a + j) / 128 = a / 128 := by omega
      have e1 : s1.seen c (a + j) = s1.homeSeen c (a + j) := by
        unfold State.seen
        rw [hq, hl]
        simp only [h2, h3]
        rw [if_neg]
        have : ∀ k, marked [false, false, false, false] k = false := fun k => by
          unfold marked
          rcases k with _ | _ | _ | _ | k <;> simp
        simp [this]
      have e2 : s.seen c (a + j) = s.homeSeen c (a + j) := by
        unfold State.seen; rw [hq, h0']
      rw [e1, e2]
      rcases hf with hf | ⟨-, hs, hw⟩
      · exact State.homeSeen_congr (by rw [(a3 hf).1]) (a3 hf).2.2.1 _
      · rw [State.homeSeen_idle hs, State.homeSeen_idle (a6 hs)]
        rcases a4 hw (a + j) hq with e | e
        · exact e
        · rw [h0'] at e; simp at e
  have hpois1 : s1.seenPois c a = s.seenPois c a := by
    rcases a2 with ⟨h1, h2⟩ | ⟨h0', l', h1, h2, h3, h4⟩
    · rw [h2]
    · rw [hl] at h1
      obtain rfl := Option.some.inj h1
      have : ∀ k, marked [false, false, false, false] k = false := fun k => by
        unfold marked
        rcases k with _ | _ | _ | _ | k <;> simp
      unfold State.seenPois
      rw [hl, h0']
      simp only [h2, h4, this, Bool.or_self, Bool.false_eq_true, if_false]
      exact a5 _ (by omega)
  have hroom1 : s.room c a → ∀ x, s1.seen c x = s.seen c x := by
    intro hroom x
    rcases a2 with ⟨h1, h2⟩ | ⟨h0', l', h1, h2, h3, h4⟩
    · rw [h2]
    · by_cases hx : x / 128 = a / 128
      · rw [hl] at h1
        obtain rfl := Option.some.inj h1
        have : ∀ k, marked [false, false, false, false] k = false := fun k => by
          unfold marked
          rcases k with _ | _ | _ | _ | k <;> simp
        have e1 : s1.seen c x = s1.homeSeen c x := by
          unfold State.seen
          rw [hx, hl]
          simp only [h2, h3, this]
          rw [if_neg]; simp
        have e2 : s.seen c x = s.homeSeen c x := by
          unfold State.seen; rw [hx, h0']
        rw [e1, e2]
        exact State.homeSeen_congr (by rw [(a3 hroom).1]) (a3 hroom).2.2.1 _
      · exact State.seen_congr ((a3 hroom).2.2.2 _ hx) (State.homeSeen_congr (by rw [(a3 hroom).1]) (a3 hroom).2.2.1 _)
  by_cases hhit : marked l.valid (a % 128 / 32) = true
  · have e : s.l1Load c pa n asn vpn size = ((l.data.drop (a % 128)).take n, marked l.pois (a % 128 / 32), s1) := by
      rw [hdef]; simp only [hl, hhit, if_true]
    rw [e]
    refine ⟨a1, ?_, ?_, fun hroom => ⟨(a3 hroom).1, (a3 hroom).2.1, (a3 hroom).2.2.1, hroom1 hroom⟩⟩
    · refine List.ext_getElem (by simp [hld]; omega) fun j h1 h2 => ?_
      have hj : j < n := by simpa using h2
      simp only [List.getElem_take, List.getElem_drop, List.getElem_map, List.getElem_range]
      rw [← hseen1 j hj]
      unfold State.seen
      rw [show (a + j) / 128 = a / 128 by omega, hl, show (a + j) % 128 = a % 128 + j by omega,
        show (a % 128 + j) / 32 = a % 128 / 32 by omega]
      simp only [hhit, Bool.true_or, if_true]
      rw [headD_drop, List.getElem?_eq_getElem (by omega)]; rfl
    · rw [← hpois1]; unfold State.seenPois; rw [hl]; simp [hhit]
  · obtain ⟨f1, f2, f3, f0, f4, l', g1, g2, g3, g4, g5⟩ := State.fillLine_spec s1 c a l hok1 hl
    have e : s.l1Load c pa n asn vpn size = ((l'.data.drop (a % 128)).take n, marked l'.pois (a % 128 / 32), s1.fillLine c a) := by
      rw [hdef]; simp only [hl, hhit, if_false, g1, Bool.false_eq_true]
    rw [e]
    refine ⟨a1.trans f1, ?_, ?_, fun hroom => ⟨by rw [f2, (a3 hroom).1], f3.trans (a3 hroom).2.1, f0.trans (a3 hroom).2.2.1, fun x => (f4 x).trans (hroom1 hroom x)⟩⟩
    · refine List.ext_getElem (by simp [g2]; omega) fun j h1 h2 => ?_
      have hj : j < n := by simpa using h2
      simp only [List.getElem_take, List.getElem_drop, List.getElem_map, List.getElem_range]
      rw [← hseen1 j hj]
      have := g5 (a % 128 + j) (by omega)
      rw [headD_drop, List.getElem?_eq_getElem (by omega), show 128 * (a / 128) + (a % 128 + j) = a + j by omega] at this
      simpa using this
    · rw [← hpois1, g4 _ (by omega)]; unfold State.seenPois; rw [hl]
      simp only
      rw [show 4 * (a / 128) + a % 128 / 32 = a / 32 by omega]

end Sys2Proof.Machine
end

