-- ==== Sys2Proof/Laws/Access.lean ====
section
/-! SUPPORT. What the checks of an access and the accesses of a thread come to (R13, R121 to R126, R296). -/

namespace Sys2Proof.Machine

/-- What the translation of a thread's access to data may change: the TLBs of its core and its cluster, a draw, and the
grants on peer pages with what their return sends. -/
structure CheckStep (c : Nat) (s t : State) : Prop where
  rest : t = { s with cores := t.cores, clusters := t.clusters, fresh := t.fresh, grants := t.grants, signals := t.signals }
  tlb : ∀ k, t.cluster k = { s.cluster k with tlb := (t.cluster k).tlb, asEntries := (t.cluster k).asEntries }
  dtlb : t.core c = { s.core c with dtlb := (t.core c).dtlb }
  others : ∀ d, d ≠ c → t.core d = s.core d

theorem CheckStep.refl (c : Nat) (s : State) : CheckStep c s s := ⟨rfl, fun _ => rfl, rfl, fun _ _ => rfl⟩

theorem CheckStep.trans {c : Nat} {s t u : State} (h : CheckStep c s t) (g : CheckStep c t u) : CheckStep c s u :=
  ⟨by rw [g.rest, h.rest], fun k => by rw [g.tlb k, h.tlb k], by rw [g.dtlb, h.dtlb],
    fun d hd => (g.others d hd).trans (h.others d hd)⟩

/-- A change of what no core and no cluster holds. -/
theorem CheckStep.of_rest {c : Nat} {s t : State}
    (h : t = { s with fresh := t.fresh, grants := t.grants, signals := t.signals }) : CheckStep c s t := by
  have h1 : t.cores = s.cores := by rw [h]
  have h2 : t.clusters = s.clusters := by rw [h]
  have hc : ∀ d, t.core d = s.core d := fun d => by unfold State.core; rw [h1]
  refine ⟨?_, fun k => ?_, by rw [hc], fun d _ => hc d⟩
  · rw [h1, h2]; exact h
  · have : t.cluster k = s.cluster k := by unfold State.cluster; rw [h2]
    rw [this]

/-- A cluster after a cluster has been changed. -/
theorem State.cluster_modCluster (s : State) (c d : Nat) (f : Cluster → Cluster) :
    (s.modCluster c f).cluster d = if d = c then f (s.cluster c) else s.cluster d := by
  by_cases h : d = c
  · subst h; simp [State.cluster, State.modCluster]
  · simp only [State.cluster, State.modCluster, if_neg h]; rw [aget_aset_ne _ _ _ _ h]

theorem State.modCluster_check (s : State) (c cl : Nat) (f : Cluster → Cluster)
    (hf : f (s.cluster cl) = { s.cluster cl with tlb := (f (s.cluster cl)).tlb, asEntries := (f (s.cluster cl)).asEntries }) :
    CheckStep c s (s.modCluster cl f) := by
  refine ⟨rfl, fun k => ?_, rfl, fun _ _ => rfl⟩
  rw [State.cluster_modCluster]
  split
  · rename_i h; subst h; exact hf
  · rfl

theorem State.modCore_check (s : State) (c : Nat) (f : Core → Core)
    (hf : f (s.core c) = { s.core c with dtlb := (f (s.core c)).dtlb }) : CheckStep c s (s.modCore c f) := by
  refine ⟨rfl, fun k => rfl, ?_, fun d hd => by rw [State.core_modCore, if_neg hd]⟩
  rw [State.core_modCore, if_pos rfl]; exact hf

theorem State.draw_check (s : State) (c : Nat) : CheckStep c s s.draw.2 := CheckStep.of_rest rfl

theorem State.keepTlb_check (s : State) (c cl : Nat) (e : Tlb) : CheckStep c s (s.keepTlb cl e) := by
  unfold State.keepTlb
  simp only
  split
  · exact State.modCluster_check _ _ _ _ rfl
  · exact (s.draw_check c).trans (State.modCluster_check _ _ _ _ rfl)

/-- Other parts of the state do not matter to what a target grants an agent. -/
theorem State.agentGranted_congr {s t : State} (h : t.mypn = s.mypn) (h2 : t.access = s.access) (h3 : t.linkA = s.linkA)
    (h4 : t.linkB = s.linkB) (agent pa : Nat) (k : AccKind) : t.agentGranted agent pa k = s.agentGranted agent pa k := by
  unfold State.agentGranted State.targetOf State.tableGrants State.place
  rw [h, h2, h3, h4]

theorem CheckStep.walkerFree {c : Nat} {s t : State} (h : CheckStep c s t) (g : s.walkerFree) : t.walkerFree := by
  have hr : ∀ pa, t.walkerReads pa = s.walkerReads pa := fun pa => by
    unfold State.walkerReads; rw [h.rest]; exact State.agentGranted_congr rfl rfl rfl rfl _ _ _
  have h1 : t.asb = s.asb := by rw [h.rest]
  have h2 : t.ptb = s.ptb := by rw [h.rest]
  unfold State.walkerFree State.asEntryPa State.ptBase State.logB at *
  simp only [hr, h1, h2]
  exact g

/-- The reading of an address space's entry changes no more than what the cluster caches, where no read is refused
(R290, R311). -/
theorem State.asEntry_check (s : State) (cl : Nat) (asn : BitVec 16) (c : Nat) (h : s.walkerFree) :
    CheckStep c s (s.asEntry cl asn).2 := by
  unfold State.asEntry
  split
  · exact CheckStep.refl c s
  · split
    · exact CheckStep.refl c s
    · rename_i h1
      have hw : s.walkerReads (s.asEntryPa asn) = true := (h (by simp at h1; exact h1.1)).1 asn
      rw [if_neg (by simp [hw])]
      simp only
      split
      · exact State.modCluster_check s c cl (fun k => { k with asEntries := aset asn.toNat (s.memDword (s.asEntryPa asn)) k.asEntries }) rfl
      · refine (s.draw_check c).trans ?_
        exact State.modCluster_check s.draw.2 c cl (fun k => { k with
          asEntries := aset asn.toNat (s.memDword (s.asEntryPa asn)) (dropNth k.asEntries s.draw.1) }) rfl

/-- A probe of which no read is refused is not refused (R293, R311). -/
theorem State.probe_free {s : State} (h : ∀ h, h < 2 ^ s.logB → s.walkerReads (s.ptBase + 128 * h) = true) (asn : BitVec 16)
    (va : DWord) (sz i n pa : Nat) : s.probe asn va sz i n ≠ .refused pa := by
  induction n generalizing i with
  | zero => exact Walk.noConfusion
  | succ n ih =>
    have hw := h (i % 2 ^ s.logB) (Nat.mod_lt _ (Nat.two_pow_pos _))
    unfold State.probe
    simp only [hw, Bool.not_true, Bool.false_eq_true, if_false]
    split
    · exact Walk.noConfusion
    · split
      · exact Walk.noConfusion
      · split
        · exact Walk.noConfusion
        · exact ih _

/-- A walk notes nothing where no read is refused (R311). -/
theorem State.noteWalk_free {s : State} (h : s.walkerFree) (asn : BitVec 16) (va entry : DWord) :
    s.noteWalk asn va entry = s := by
  have hn : s.walkRefusals asn va entry = [] := by
    refine List.filterMap_eq_nil_iff.2 fun sz _ => ?_
    unfold State.probeSize
    by_cases ha : (dbit s.asb 0 && dbit entry sz) = true
    · have := State.probe_free (h (by simp at ha; exact ha.1)).2 asn va sz (ptHash s.logB asn va sz) (bits s.ptb 10 8 + 1)
      rw [if_pos ha]
      split
      · rename_i pa e; exact absurd e (this pa)
      · rfl
    · rw [if_neg ha]
  unfold State.noteWalk
  split
  · rfl
  · rw [hn]; rfl

/-- A walk changes no more than the TLBs of the cluster, where no read is refused (R295). -/
theorem State.walkIn_check (s : State) (cl : Nat) (asn : BitVec 16) (va : DWord) (c : Nat) (h : s.walkerFree) :
    CheckStep c s (s.walkIn cl asn va).2 := by
  unfold State.walkIn
  split
  · exact CheckStep.refl c s
  · have ha := s.asEntry_check cl asn c h
    simp only [State.noteWalk_free (ha.walkerFree h)]
    split
    · exact ha.trans (State.keepTlb_check _ _ _ _)
    · exact ha

/-- A look-up changes no more than the TLBs of the cluster, where no read is refused (R295). -/
theorem State.lookup_check (s : State) (cl : Nat) (asn : BitVec 16) (va : DWord) (c : Nat) (h : s.walkerFree) :
    CheckStep c s (s.lookup cl asn va).2 := by
  unfold State.lookup
  split
  · exact CheckStep.refl c s
  · exact s.walkIn_check cl asn va c h

/-- A look-up for data changes no more than the TLBs of the core and its cluster, where no read is refused (R295). -/
theorem State.lookupCore_check (s : State) (c : Nat) (asn : BitVec 16) (va : DWord) (h : s.walkerFree) :
    CheckStep c s (s.lookupCore c false asn va).2 := by
  unfold State.lookupCore
  simp only [Bool.false_eq_true, if_false]
  split
  · exact CheckStep.refl c s
  · have hs := s.lookup_check (clusterOf c) asn va c h
    generalize s.lookup (clusterOf c) asn va = r at hs
    obtain ⟨x, s1⟩ := r
    cases x with
    | hit e =>
      simp only
      unfold State.l1TlbRoom
      split
      · exact hs.trans (State.modCore_check _ _ _ rfl)
      · exact (hs.trans (s1.draw_check c)).trans (State.modCore_check _ _ _ rfl)
    | _ => exact hs

/-- The device address of a place is the physical one, or its offset in the module's own window (R367). -/
theorem State.place_device {s : State} {pa da : Nat} (h : s.place pa = .device da) : da = pa ∨ da = pa % 2 ^ 40 := by
  unfold State.place at h
  simp only at h
  repeat' split at h
  all_goals cases h <;> simp

theorem State.homeAddr_mod (s : State) (pa n : Nat) (hn : n ∣ 65536) : s.homeAddr pa % n = pa % n := by
  unfold State.homeAddr
  cases h : s.place pa with
  | device da =>
    rcases State.place_device h with rfl | rfl
    · rfl
    · exact Nat.mod_mod_of_dvd _ (Nat.dvd_trans hn (by decide))
  | _ => rfl

/-- An access of data whose checks pass (R13): its address is aligned, and so is the physical one. -/
theorem State.memCheck_ok {s s' : State} {va : DWord} {n pa : Nat} {k : AccKind} (hk : k ≠ .fetch) (hw : s.walkerFree)
    (h : s.memCheck va n k = .ok pa s') :
    CheckStep s.t.core s s' ∧ va.toNat % n = 0 ∧ (n ∣ 65536 → pa % n = 0) := by
  unfold State.memCheck at h
  split at h
  · cases h
  · rename_i hal
    have hal : va.toNat % n = 0 := by simpa using hal
    -- what the address comes to
    have key : ∀ pa1 s1, s.address va n k = .ok pa1 s1 → CheckStep s.t.core s s1 ∧ (n ∣ 65536 → pa1 % n = 0) := by
      intro pa1 s1 h
      unfold State.address at h
      split at h
      · unfold State.untranslated at h
        split at h
        · cases h
        · cases h; exact ⟨CheckStep.refl _ s, fun _ => hal⟩
      · unfold State.translate State.translateIn at h
        split at h
        · cases h
        · have hf : (k == AccKind.fetch) = false := by simpa using hk
          rw [hf] at h
          have hstep := s.lookupCore_check s.t.core s.t.asn va hw
          generalize hl : s.lookupCore s.t.core false s.t.asn va = r at h hstep
          obtain ⟨x, s2⟩ := r
          cases x with
          | miss => cases h
          | bad => cases h
          | mig => cases h
          | held => cases h
          | hit e =>
            simp only at h
            by_cases c1 : (!e.permits s2.t.mode k) = true
            · rw [if_pos c1] at h; cases h
            rw [if_neg c1] at h
            by_cases c2 : (!e.grantsTo (if s2.t.mode then 1 else 0) k) = true
            · rw [if_pos c2] at h; cases h
            rw [if_neg c2] at h
            cases h
            refine ⟨hstep, fun hd => ?_⟩
            unfold Tlb.pa pageShift
            have h1 : e.ppn * 65536 % n = 0 := Nat.mod_eq_zero_of_dvd (Nat.dvd_mul_left_of_dvd hd _)
            have h2 : va.toNat % 2 ^ (if e.size = 0 then 16 else if e.size = 1 then 21 else 30) % n = 0 := by
              rw [Nat.mod_mod_of_dvd _ (Nat.dvd_trans hd ?_), hal]
              split
              · decide
              · split <;> decide
            rw [Nat.add_mod, h1, h2]; simp
    unfold State.xlate at h
    cases ha : s.address va n k with
    | stop x => rw [ha] at h; cases h
    | ok pa1 s1 =>
      rw [ha] at h
      obtain ⟨k1, k2⟩ := key pa1 s1 ha
      simp only [Res.andThen] at h
      unfold State.settle at h
      simp only at h
      split at h
      · cases h
      · split at h
        · cases h
        · cases h; exact ⟨k1, hal, k2⟩

/-- What a request at the proxy of a peer page changes: the grants, and what their return sends (R374). -/
theorem State.takeGrant_check (s : State) (c pa : Nat) (w : Bool) : CheckStep c s (s.takeGrant pa w) := by
  refine CheckStep.of_rest ?_
  unfold State.takeGrant
  split
  · simp only
    split <;> split <;> (try split) <;> rfl
  · rfl

/-- Other parts of the state do not matter to the place of an address. -/
theorem CheckStep.eqs {c : Nat} {s t : State} (h : CheckStep c s t) : t.t = s.t ∧ t.fr = s.fr ∧ t.mem = s.mem ∧
    t.mypn = s.mypn ∧ t.pois = s.pois ∧ t.launches = s.launches ∧ t.ctxs = s.ctxs ∧ t.access = s.access ∧ t.linkA = s.linkA ∧
    t.linkB = s.linkB ∧ t.ticks = s.ticks ∧ t.directory = s.directory := by
  rw [h.rest]; exact ⟨rfl, rfl, rfl, rfl, rfl, rfl, rfl, rfl, rfl, rfl, rfl, rfl⟩

/-- The loads that come before an access are those of the threads (R123, R166). -/
theorem CheckStep.priors {c : Nat} {s t : State} (h : CheckStep c s t) : t.priors = s.priors := by
  obtain ⟨h1, -, -, -, -, -, h7, -, -, -, h11, -⟩ := h.eqs
  unfold State.priors State.threads State.hasT
  rw [h1, h7, h11]

/-- No load comes before an access where none is outstanding. -/
theorem State.meetLoads_none {s : State} (h : s.priors = []) (a : Nat) : s.meetLoads a = s := by
  unfold State.meetLoads; rw [h]; rfl

theorem State.place_congr {s t : State} (h : t.mypn = s.mypn) (pa : Nat) : t.place pa = s.place pa := by
  unfold State.place; rw [h]

theorem State.homeAddr_congr {s t : State} (h : t.mypn = s.mypn) (pa : Nat) : t.homeAddr pa = s.homeAddr pa := by
  unfold State.homeAddr; rw [State.place_congr h]

theorem State.granted_congr {s t : State} (h : t.mypn = s.mypn) (h2 : t.access = s.access) (h3 : t.linkA = s.linkA)
    (h4 : t.linkB = s.linkB) (m : BitVec 20) (pa : Nat) (k : AccKind) : t.granted m pa k = s.granted m pa k := by
  unfold State.granted State.targetOf State.tableGrants
  rw [State.place_congr h, State.homeAddr_congr h, h2, h3, h4]

theorem CheckStep.granted {c : Nat} {s t : State} (h : CheckStep c s t) (m : BitVec 20) (pa : Nat) (k : AccKind) :
    t.granted m pa k = s.granted m pa k := by
  obtain ⟨-, -, -, h5, -, -, -, h9, h10, h11, -⟩ := h.eqs
  exact State.granted_congr h5 h9 h10 h11 m pa k

theorem CheckStep.atMemory {c : Nat} {s t : State} (h : CheckStep c s t) (pa : Nat) (k : AccKind) :
    t.atMemory pa k = s.atMemory pa k := by
  unfold State.atMemory
  rw [State.place_congr h.eqs.2.2.2.1, h.granted, h.eqs.1]

/-- A core's caches are as they were, but for its data TLB. -/
theorem CheckStep.core {c : Nat} {s t : State} (h : CheckStep c s t) (d : Nat) :
    t.core d = { s.core d with dtlb := (t.core d).dtlb } := by
  by_cases e : d = c
  · subst e; exact h.dtlb
  · rw [h.others d e]

theorem CheckStep.line? {c : Nat} {s t : State} (h : CheckStep c s t) (d n : Nat) : (t.core d).line? n = (s.core d).line? n := by
  unfold Core.line?; rw [h.core]

theorem CheckStep.linesOk {c : Nat} {s t : State} (h : CheckStep c s t) (d : Nat) (k : (s.core d).linesOk) : (t.core d).linesOk := by
  unfold Core.linesOk at k ⊢; rw [h.core]; exact k

theorem CheckStep.sent {c : Nat} {s t : State} (h : CheckStep c s t) (d : Nat) : (t.core d).sent = (s.core d).sent := by rw [h.core]

theorem CheckStep.seen {c : Nat} {s t : State} (h : CheckStep c s t) (d x : Nat) : t.seen d x = s.seen d x :=
  State.seen_congr (h.line? _ _) (State.homeSeen_congr h.eqs.2.2.1 (h.sent d) x)

theorem CheckStep.seenPois {c : Nat} {s t : State} (h : CheckStep c s t) (d x : Nat) : t.seenPois d x = s.seenPois d x := by
  unfold State.seenPois; rw [h.line?, h.eqs.2.2.2.2.1]

theorem CheckStep.homeAddr {c : Nat} {s t : State} (h : CheckStep c s t) (pa : Nat) : t.homeAddr pa = s.homeAddr pa :=
  State.homeAddr_congr h.eqs.2.2.2.1 pa

theorem CheckStep.wasDirty {c : Nat} {s t : State} (h : CheckStep c s t) (d a : Nat) (b : Byte) :
    WasDirty t d a b ↔ WasDirty s d a b := by
  unfold WasDirty; rw [h.core]

theorem CheckStep.room {c : Nat} {s t : State} (h : CheckStep c s t) (d a : Nat) : t.room d a ↔ s.room d a := by
  unfold State.room Core.setOf; rw [h.line?, h.core]

theorem CheckStep.calm {c : Nat} {s t : State} (h : CheckStep c s t) (d : Nat) (k : s.calm d) : t.calm d := by
  refine State.calm_mono ?_ ?_ ?_ ?_ k
  · funext m pa x; exact h.granted m pa x
  · funext a; unfold State.heldByPeer; rw [h.eqs.2.2.2.2.2.2.2.2.2.2.2]
  · funext pa; exact State.place_congr h.eqs.2.2.2.1 pa
  · rw [h.core]; exact fun x hx _ => ⟨x, hx, Line.DirtyIn.refl x⟩

/-- The checks of an access, the work of the L1 and the grants together (R13, R124). -/
theorem Accessed.of {s s1 s2 : State} {room : Prop} (h1 : CheckStep s.t.core s s1) (h2 : CacheStep s.t.core s1 s2)
    (h3 : room → s2 = { s1 with cores := s2.cores } ∧ (s2.core s.t.core).updates = (s1.core s.t.core).updates ∧
      (s2.core s.t.core).sent = (s1.core s.t.core).sent) :
    Accessed s s2 room := by
  obtain ⟨e1, e2, e3, -⟩ := h1.eqs
  refine ⟨h2.thread.trans e1, h2.frame.trans e2, ?_, fun d hd => ?_, fun k => ?_, ?_, fun w a => ?_,
    fun r => ⟨?_, ?_, ?_⟩⟩
  · rw [h2.core, h1.dtlb]
  · rw [h2.others d hd, h1.others d hd]
  · rw [show s2.cluster k = s1.cluster k by rw [h2.rest]; rfl, h1.tlb k]
  · rw [h2.rest, h1.rest]
  · rcases h2.memory (by rw [e3]; exact w) a with e | e
    · left; rw [e, e3]
    · right; exact (h1.wasDirty _ _ _).1 e
  · rw [(h3 r).1, h1.rest]
  · rw [(h3 r).2.1, h1.core]
  · rw [(h3 r).2.2, h1.core]

/-- A plain load of global memory (R13, R121, R124 to R126). -/
theorem State.loadGlobal_spec {s : State} {va : DWord} {n pa : Nat} (hr : s.t.life = .running)
    (hok : (s.core s.t.core).linesOk) (hre : s.reaches va n .read pa) (hn : n ∣ 32) (hl : s.priors = [])
    (hp : s.seenPois s.t.core (s.homeAddr pa) = false)
    (hf : s.room s.t.core (s.homeAddr pa) ∨
      (s.t.det = false ∧ s.calm s.t.core ∧ (s.core s.t.core).sent = [] ∧ Memory.wf s.mem = true)) :
    ∃ s2, s.loadGlobal va n false = .ok (if s.t.det then overlay s.t.sbuf (s.homeAddr pa) (s.committed pa n)
        else (List.range n).map fun j => s.seen s.t.core (s.homeAddr pa + j)) s2 ∧
      Accessed s s2 (s.room s.t.core (s.homeAddr pa)) ∧
      (s.room s.t.core (s.homeAddr pa) → ∀ x, s2.seen s.t.core x = s.seen s.t.core x) := by
  obtain ⟨⟨s1, hc⟩, hm, hw⟩ := hre
  obtain ⟨c1, c2, c3⟩ := State.memCheck_ok (by decide) hw hc
  obtain ⟨g1, g2, g3, g5, -⟩ := c1.eqs
  have hmem : (s.place pa).isMemory = true ∧ s.granted s.t.master pa .read = true := by
    unfold State.atMemory at hm; simpa using hm
  have hblk : (s.place pa).isBlock = false := by
    cases h : s.place pa <;> rw [h] at hmem <;> simp [Place.isMemory, Place.isBlock] at hmem ⊢
  -- the grant that the request obtains, unless it hits
  obtain ⟨s2, hs2⟩ : ∃ s2, s2 = if s1.l1Hit s.t.core (s.homeAddr pa) = true then s1 else s1.takeGrant pa false := ⟨_, rfl⟩
  have hk : CheckStep s.t.core s1 s2 := by
    rw [hs2]; split
    · exact CheckStep.refl _ _
    · exact State.takeGrant_check _ _ _ _
  have c12 := c1.trans hk
  have hal : s.homeAddr pa % 32 + n ≤ 32 := by
    have h1 : s.homeAddr pa % n = 0 := by
      rw [State.homeAddr_mod _ _ _ (Nat.dvd_trans hn (by decide))]; exact c3 (Nat.dvd_trans hn (by decide))
    have h2 : s.homeAddr pa % 32 % n = 0 := by rw [Nat.mod_mod_of_dvd _ hn]; exact h1
    obtain ⟨k, hk⟩ := hn
    obtain ⟨q, hq⟩ := Nat.dvd_of_mod_eq_zero h2
    have h3 : s.homeAddr pa % 32 < 32 := Nat.mod_lt _ (by decide)
    rw [hq]
    have hlt : n * q < n * k := by omega
    have : q < k := Nat.lt_of_mul_lt_mul_left hlt
    calc n * q + n = n * (q + 1) := by rw [Nat.mul_add]; simp
      _ ≤ n * k := Nat.mul_le_mul_left _ this
      _ = 32 := hk.symm
  obtain ⟨l1, l2, l3, l4⟩ := State.l1Load_spec s2 s.t.core pa n s.t.asn (vpnOf va)
    (s2.pageSize s.t.core false s.t.asn va) (by rw [c12.eqs.1]; exact hr)
    (c12.linesOk _ hok) (by rw [c12.homeAddr]; exact hal) (by
      rw [c12.homeAddr]
      rcases hf with h | ⟨-, h0, h1, h2⟩
      · exact Or.inl ((c12.room _ _).2 h)
      · exact Or.inr ⟨c12.calm _ h0, (c12.sent _).trans h1, by rw [c12.eqs.2.2.1]; exact h2⟩)
  rw [c12.homeAddr, c12.seenPois] at l3
  rw [c12.homeAddr] at l2 l4
  simp only [c12.seen] at l2 l4
  rw [c12.room] at l4
  generalize hL : s2.l1Load s.t.core pa n s.t.asn (vpnOf va) (s2.pageSize s.t.core false s.t.asn va) = L at l1 l2 l3 l4
  obtain ⟨bytes, pois, s3⟩ := L
  simp only at l1 l2 l3 l4
  have hacc : Accessed s s3 (s.room s.t.core (s.homeAddr pa)) :=
    Accessed.of c12 l1 fun h => ⟨(l4 h).1, (l4 h).2.1, (l4 h).2.2.1⟩
  have ht3 : s3.t = s.t := hacc.thread
  refine ⟨s3, ?_, hacc, fun h => (l4 h).2.2.2⟩
  unfold State.loadGlobal
  rw [hc]
  simp only [Res.andThen]
  rw [State.meetLoads_none (c1.priors.trans hl)]
  unfold State.readGlobal
  simp only [hblk, Bool.false_and, Bool.false_eq_true, if_false, c1.granted, g1, c1.homeAddr, State.place_congr g5, hmem.1, hmem.2,
    Bool.or_true, Bool.not_true, Bool.or_self, Bool.not_false, Bool.true_and]
  rw [← hs2, c12.eqs.1, hL]
  simp only
  rw [l3, hp]
  simp only [Bool.false_and, Bool.false_eq_true, if_false]
  congr 1
  rw [ht3]
  by_cases hd : s.t.det = true
  · rw [if_pos hd, if_pos hd]
    rcases hf with h | ⟨h, -⟩
    · congr 1
      unfold State.committed State.homeRead State.launch?
      rw [hacc.frame, ht3, (hacc.kept h).1]; rfl
    · rw [hd] at h; cases h
  · rw [if_neg hd, if_neg hd]; exact l2

theorem State.readReg_congr {s t : State} (h1 : t.t = s.t)
    (h3 : ∀ q, t.entries s.t.core q = s.entries s.t.core q) (o : OpSrc) (taken : List Nat) (r : Nat) :
    t.readReg o taken r = s.readReg o taken r := by
  unfold State.readReg
  rw [h1]
  simp only [h3]

theorem State.readRegs_congr {s t : State} (h1 : t.t = s.t)
    (h3 : ∀ q, t.entries s.t.core q = s.entries s.t.core q) (o : OpSrc) (taken rs : List Nat) :
    t.readRegs o taken rs = s.readRegs o taken rs := by
  induction rs generalizing taken with
  | nil => rfl
  | cons r rs ih => rw [State.readRegs, State.readRegs, ih, State.readReg_congr h1 h3]

theorem State.vals_congr {s t : State} (h1 : t.t = s.t) (h2 : t.fr = s.fr)
    (h3 : ∀ q, t.entries s.t.core q = s.entries s.t.core q) (sh : Shape) : t.vals sh = s.vals sh := by
  unfold State.vals
  simp only [State.src_congr h1 h2, State.readRegs_congr h1 h3]

/-- A word stays ready while its thread, its frame and its core's queues stay. -/
theorem Ready.congr {s t : State} {sh : Shape} (h : Ready s sh) (h1 : t.t = s.t) (h2 : t.fr = s.fr)
    (h3 : (t.core s.t.core).queues = (s.core s.t.core).queues) : Ready t sh := by
  have e : ∀ q, t.entries s.t.core q = s.entries s.t.core q := fun q => by unfold State.entries; rw [h3]
  have hs := State.src_congr h1 h2
  refine ⟨by rw [h1]; exact h.running, h.classes, by rw [hs, h1]; exact h.allocated, ?_, by rw [hs, h1]; exact h.binds,
    by rw [hs]; exact h.plainD, by rw [hs]; exact h.plainSpan, by rw [h1]; exact h.allowed, ?_, ?_, ?_⟩
  · rw [hs, h1, h3]; exact h.bound
  · have := h.inQuantum
    unfold State.endsQuantum at this ⊢
    rw [hs, h1, h2]; exact this
  · rw [hs, h1]
    intro q hq
    rw [e]; exact h.queues q hq
  · have : t.readings sh = s.readings sh := by
      unfold State.readings
      rw [hs, State.readRegs_congr h1 e, State.readRegs_congr h1 e]
    rw [this]; exact h.clean

theorem Accessed.ready {s t : State} {room : Prop} (h : Accessed s t room) {sh : Shape} (hr : Ready s sh) : Ready t sh :=
  hr.congr h.thread h.frame (by rw [h.core])

end Sys2Proof.Machine
end

