-- ==== Sys2Proof/Laws/Exec.lean ====
section
/-! SUPPORT. The meaning to which each arm of `exec` goes. -/

namespace Sys2Proof.Machine

theorem exec_rollCycle (core : Nat) (s : State) :
    exec (.rollCycle core) s = execRollCycle core s := rfl
theorem exec_chimeArrival (key : Key) (s : State) :
    exec (.chimeArrival key) s = execChimeArrival key s := rfl
theorem exec_pauseEnd (core : Nat) (num : Nat) (s : State) :
    exec (.pauseEnd core num) s = execPauseEnd core num s := rfl
theorem exec_watchPoll (core : Nat) (num : Nat) (s : State) :
    exec (.watchPoll core num) s = execWatchPoll core num s := rfl
theorem exec_sLineSweep (core : Nat) (line : Nat) (s : State) :
    exec (.sLineSweep core line) s = execSLineSweep core line s := rfl
theorem exec_coherentUpdate (core : Nat) (s : State) :
    exec (.coherentUpdate core) s = execCoherentUpdate core s := rfl
theorem exec_walk (acc : AccKind) (va : DWord) (n : Nat) (s : State) :
    exec (.walk acc va n) s = execWalk acc va n s := rfl
theorem exec_pendingRecordWrite (die : Nat) (s : State) :
    exec (.pendingRecordWrite die) s = execPendingRecordWrite die s := rfl
theorem exec_spill (core : Nat) (num : Nat) (s : State) :
    exec (.spill core num) s = execSpill core num s := rfl
theorem exec_refill (core : Nat) (num : Nat) (s : State) :
    exec (.refill core num) s = execRefill core num s := rfl
theorem exec_takeEntry (core : Nat) (s : State) :
    exec (.takeEntry core) s = execTakeEntry core s := rfl
theorem exec_tceJobRun (cluster : Nat) (job : Nat) (s : State) :
    exec (.tceJobRun cluster job) s = execTceJobRun cluster job s := rfl
theorem exec_tceSectorWrite (cluster : Nat) (job : Nat) (s : State) :
    exec (.tceSectorWrite cluster job) s = execTceSectorWrite cluster job s := rfl
theorem exec_tceJobEnd (cluster : Nat) (job : Nat) (s : State) :
    exec (.tceJobEnd cluster job) s = execTceJobEnd cluster job s := rfl
theorem exec_mmaJob (cluster : Nat) (job : Nat) (s : State) :
    exec (.mmaJob cluster job) s = execMmaJob cluster job s := rfl
theorem exec_mxMergeJob (cluster : Nat) (job : Nat) (s : State) :
    exec (.mxMergeJob cluster job) s = execMxMergeJob cluster job s := rfl
theorem exec_mxZeroJob (cluster : Nat) (job : Nat) (s : State) :
    exec (.mxZeroJob cluster job) s = execMxZeroJob cluster job s := rfl
theorem exec_mxStJob (cluster : Nat) (job : Nat) (s : State) :
    exec (.mxStJob cluster job) s = execMxStJob cluster job s := rfl
theorem exec_mxLdJob (cluster : Nat) (job : Nat) (s : State) :
    exec (.mxLdJob cluster job) s = execMxLdJob cluster job s := rfl
theorem exec_scratchPageRefill (cluster : Nat) (lid : Word) (page : Nat) (s : State) :
    exec (.scratchPageRefill cluster lid page) s = execScratchPageRefill cluster lid page s := rfl
theorem exec_switch (region : Nat) (s : State) :
    exec (.switch region) s = execSwitch region s := rfl
theorem exec_lqdWrite (q : BitVec 6) (v : DWord) (s : State) :
    exec (.lqdWrite q v) s = execLqdWrite q v s := rfl
theorem exec_doorbell (q : BitVec 6) (tail : BitVec 16) (s : State) :
    exec (.doorbell q tail) s = execDoorbell q tail s := rfl
theorem exec_packetAcceptance (q : BitVec 6) (s : State) :
    exec (.packetAcceptance q) s = execPacketAcceptance q s := rfl
theorem exec_launchReady (lid : Word) (s : State) :
    exec (.launchReady lid) s = execLaunchReady lid s := rfl
theorem exec_aging (q : BitVec 6) (s : State) :
    exec (.aging q) s = execAging q s := rfl
theorem exec_launchSuspended (lid : Word) (s : State) :
    exec (.launchSuspended lid) s = execLaunchSuspended lid s := rfl
theorem exec_launchCompletion (lid : Word) (s : State) :
    exec (.launchCompletion lid) s = execLaunchCompletion lid s := rfl
theorem exec_watchdog (lid : Word) (s : State) :
    exec (.watchdog lid) s = execWatchdog lid s := rfl
theorem exec_abort (q : BitVec 6) (lid : Word) (s : State) :
    exec (.abort q lid) s = execAbort q lid s := rfl
theorem exec_quantumEnd (core : Nat) (num : Nat) (s : State) :
    exec (.quantumEnd core num) s = execQuantumEnd core num s := rfl
theorem exec_quantumBoundary (lid : Word) (s : State) :
    exec (.quantumBoundary lid) s = execQuantumBoundary lid s := rfl
theorem exec_freeze (v : DWord) (s : State) :
    exec (.freeze v) s = execFreeze v s := rfl
theorem exec_checkpoint (v : DWord) (s : State) :
    exec (.checkpoint v) s = execCheckpoint v s := rfl
theorem exec_thaw (v : DWord) (s : State) :
    exec (.thaw v) s = execThaw v s := rfl
theorem exec_gongBadMode (v : DWord) (s : State) :
    exec (.gongBadMode v) s = execGongBadMode v s := rfl
theorem exec_hostLinkFailure (s : State) :
    exec (.hostLinkFailure) s = execHostLinkFailure s := rfl
theorem exec_fatalError (cause : Word) (die : Nat) (s : State) :
    exec (.fatalError cause die) s = execFatalError cause die s := rfl
theorem exec_poisonThreshold (cluster : Nat) (s : State) :
    exec (.poisonThreshold cluster) s = execPoisonThreshold cluster s := rfl
theorem exec_throttle (cluster : Nat) (fmhz : BitVec 12) (cause : BitVec 4) (s : State) :
    exec (.throttle cluster fmhz cause) s = execThrottle cluster fmhz cause s := rfl
theorem exec_islandResetRelease (cluster : Nat) (s : State) :
    exec (.islandResetRelease cluster) s = execIslandResetRelease cluster s := rfl
theorem exec_messageArrival (core : Nat) (s : State) :
    exec (.messageArrival core) s = execMessageArrival core s := rfl
theorem exec_chimePortWrite (die : Nat) (master : BitVec 20) (v : DWord) (s : State) :
    exec (.chimePortWrite die master v) s = execChimePortWrite die master v s := rfl
theorem exec_registerWrite (master : Option (BitVec 20)) (pa : Nat) (v : DWord) (s : State) :
    exec (.registerWrite master pa v) s = execRegisterWrite master pa v s := rfl
theorem exec_hostRequest (fn : BitVec 16) (req : HostReq) (s : State) :
    exec (.hostRequest fn req) s = execHostRequest fn req s := rfl
theorem exec_peerRequest (peer : Sender) (req : PeerReq) (s : State) :
    exec (.peerRequest peer req) s = execPeerRequest peer req s := rfl
theorem exec_grantRecall (page : Nat) (forRead : Bool) (s : State) :
    exec (.grantRecall page forRead) s = execGrantRecall page forRead s := rfl
theorem exec_recallTimeout (peer : BitVec 10) (page : Nat) (s : State) :
    exec (.recallTimeout peer page) s = execRecallTimeout peer page s := rfl
theorem exec_collCompletion (comm : Nat) (k : Nat) (s : State) :
    exec (.collCompletion comm k) s = execCollCompletion comm k s := rfl
theorem exec_residencyReport (s : State) :
    exec (.residencyReport) s = execResidencyReport s := rfl
theorem exec_halt (die : Nat) (s : State) :
    exec (.halt die) s = execHalt die s := rfl
theorem exec_cont (die : Nat) (s : State) :
    exec (.cont die) s = execCont die s := rfl
theorem exec_step (die : Nat) (s : State) :
    exec (.step die) s = execStep die s := rfl
theorem exec_rdreg (die : Nat) (s : State) :
    exec (.rdreg die) s = execRdreg die s := rfl
theorem exec_wrreg (die : Nat) (s : State) :
    exec (.wrreg die) s = execWrreg die s := rfl
theorem exec_rdsreg (die : Nat) (s : State) :
    exec (.rdsreg die) s = execRdsreg die s := rfl
theorem exec_wrsreg (die : Nat) (s : State) :
    exec (.wrsreg die) s = execWrsreg die s := rfl
theorem exec_rdpc (die : Nat) (s : State) :
    exec (.rdpc die) s = execRdpc die s := rfl
theorem exec_wrpc (die : Nat) (s : State) :
    exec (.wrpc die) s = execWrpc die s := rfl
theorem exec_packageReset (failing : List Nat) (s : State) :
    exec (.packageReset failing) s = execPackageReset failing s := rfl
theorem exec_level1Turn (q : BitVec 6) (s : State) :
    exec (.level1Turn q) s = execLevel1Turn q s := rfl
theorem exec_memberLost (peer : BitVec 10) (s : State) :
    exec (.memberLost peer) s = execMemberLost peer s := rfl
theorem exec_hostLinkDown (iodB : Bool) (down : Bool) (s : State) :
    exec (.hostLinkDown iodB down) s = execHostLinkDown iodB down s := rfl
theorem exec_bra (off : BitVec 23) (s : State) :
    exec (.bra off) s = execBra off s := rfl
theorem exec_call (off : BitVec 23) (s : State) :
    exec (.call off) s = execCall off s := rfl
theorem exec_bz (a : RegNo) (off : BitVec 17) (s : State) :
    exec (.bz a off) s = execBz a off s := rfl
theorem exec_bnz (a : RegNo) (off : BitVec 17) (s : State) :
    exec (.bnz a off) s = execBnz a off s := rfl
theorem exec_beq (a : RegNo) (b : RegNo) (off : BitVec 11) (s : State) :
    exec (.beq a b off) s = execBeq a b off s := rfl
theorem exec_bne (a : RegNo) (b : RegNo) (off : BitVec 11) (s : State) :
    exec (.bne a b off) s = execBne a b off s := rfl
theorem exec_blt (a : RegNo) (b : RegNo) (off : BitVec 11) (s : State) :
    exec (.blt a b off) s = execBlt a b off s := rfl
theorem exec_bge (a : RegNo) (b : RegNo) (off : BitVec 11) (s : State) :
    exec (.bge a b off) s = execBge a b off s := rfl
theorem exec_blo (a : RegNo) (b : RegNo) (off : BitVec 11) (s : State) :
    exec (.blo a b off) s = execBlo a b off s := rfl
theorem exec_bhs (a : RegNo) (b : RegNo) (off : BitVec 11) (s : State) :
    exec (.bhs a b off) s = execBhs a b off s := rfl
theorem exec_spawn (a : RegNo) (off : BitVec 17) (s : State) :
    exec (.spawn a off) s = execSpawn a off s := rfl
theorem exec_li (d : RegNo) (imm : Word) (s : State) :
    exec (.li d imm) s = execLi d imm s := rfl
theorem exec_lih (d : RegNo) (imm : Word) (s : State) :
    exec (.lih d imm) s = execLih d imm s := rfl
theorem exec_callx (imm : Word) (s : State) :
    exec (.callx imm) s = execCallx imm s := rfl
theorem exec_callr (a : RegNo) (s : State) :
    exec (.callr a) s = execCallr a s := rfl
theorem exec_ret (s : State) :
    exec (.ret) s = execRet s := rfl
theorem exec_jr (a : RegNo) (s : State) :
    exec (.jr a) s = execJr a s := rfl
theorem exec_exit (s : State) :
    exec (.exit) s = execExit s := rfl
theorem exec_pause (s : State) :
    exec (.pause) s = execPause s := rfl
theorem exec_tdone (s : State) :
    exec (.tdone) s = execTdone s := rfl
theorem exec_join (a : RegNo) (s : State) :
    exec (.join a) s = execJoin a s := rfl
theorem exec_tkill (a : RegNo) (s : State) :
    exec (.tkill a) s = execTkill a s := rfl
theorem exec_tresume (a : RegNo) (s : State) :
    exec (.tresume a) s = execTresume a s := rfl
theorem exec_trap (imm : BitVec 17) (s : State) :
    exec (.trap imm) s = execTrap imm s := rfl
theorem exec_sget (d : RegNo) (imm : BitVec 11) (s : State) :
    exec (.sget d imm) s = execSget d imm s := rfl
theorem exec_sset (a : RegNo) (imm : BitVec 11) (s : State) :
    exec (.sset a imm) s = execSset a imm s := rfl
theorem exec_brk (s : State) :
    exec (.brk) s = execBrk s := rfl
theorem exec_tret (s : State) :
    exec (.tret) s = execTret s := rfl
theorem exec_fenceI (s : State) :
    exec (.fenceI) s = execFenceI s := rfl
theorem exec_tlbi (a : RegNo) (s : State) :
    exec (.tlbi a) s = execTlbi a s := rfl
theorem exec_tlbiAsn (a : RegNo) (s : State) :
    exec (.tlbiAsn a) s = execTlbiAsn a s := rfl
theorem exec_tlbiAll (s : State) :
    exec (.tlbiAll) s = execTlbiAll s := rfl
theorem exec_chime (a : RegNo) (s : State) :
    exec (.chime a) s = execChime a s := rfl
theorem exec_l2pin (a : RegNo) (b : RegNo) (s : State) :
    exec (.l2pin a b) s = execL2pin a b s := rfl
theorem exec_l2unpin (a : RegNo) (b : RegNo) (s : State) :
    exec (.l2unpin a b) s = execL2unpin a b s := rfl
theorem exec_rgnSet (a : RegNo) (b : RegNo) (s : State) :
    exec (.rgnSet a b) s = execRgnSet a b s := rfl
theorem exec_rgnAcq (a : RegNo) (s : State) :
    exec (.rgnAcq a) s = execRgnAcq a s := rfl
theorem exec_rgnRel (a : RegNo) (s : State) :
    exec (.rgnRel a) s = execRgnRel a s := rfl
theorem exec_waiteqW (a : RegNo) (b : RegNo) (sc : Scope) (od : Ord) (s : State) :
    exec (.waiteqW a b sc od) s = execWaiteqW a b sc od s := rfl
theorem exec_waitneW (a : RegNo) (b : RegNo) (sc : Scope) (od : Ord) (s : State) :
    exec (.waitneW a b sc od) s = execWaitneW a b sc od s := rfl
theorem exec_waiteqD (a : RegNo) (b : RegNo) (sc : Scope) (od : Ord) (s : State) :
    exec (.waiteqD a b sc od) s = execWaiteqD a b sc od s := rfl
theorem exec_waitneD (a : RegNo) (b : RegNo) (sc : Scope) (od : Ord) (s : State) :
    exec (.waitneD a b sc od) s = execWaitneD a b sc od s := rfl
theorem exec_ld8s (d : RegNo) (a : RegNo) (sp : Space) (imm : BitVec 9) (s : State) :
    exec (.ld8s d a sp imm) s = execLd8s d a sp imm s := rfl
theorem exec_ld8z (d : RegNo) (a : RegNo) (sp : Space) (imm : BitVec 9) (s : State) :
    exec (.ld8z d a sp imm) s = execLd8z d a sp imm s := rfl
theorem exec_ld16s (d : RegNo) (a : RegNo) (sp : Space) (imm : BitVec 9) (s : State) :
    exec (.ld16s d a sp imm) s = execLd16s d a sp imm s := rfl
theorem exec_ld16z (d : RegNo) (a : RegNo) (sp : Space) (imm : BitVec 9) (s : State) :
    exec (.ld16z d a sp imm) s = execLd16z d a sp imm s := rfl
theorem exec_ld32 (d : RegNo) (a : RegNo) (sp : Space) (imm : BitVec 9) (s : State) :
    exec (.ld32 d a sp imm) s = execLd32 d a sp imm s := rfl
theorem exec_ld64 (d : RegNo) (a : RegNo) (sp : Space) (imm : BitVec 9) (s : State) :
    exec (.ld64 d a sp imm) s = execLd64 d a sp imm s := rfl
theorem exec_ld128 (d : RegNo) (a : RegNo) (sp : Space) (imm : BitVec 9) (s : State) :
    exec (.ld128 d a sp imm) s = execLd128 d a sp imm s := rfl
theorem exec_pf (d : RegNo) (a : RegNo) (imm : BitVec 9) (s : State) :
    exec (.pf d a imm) s = execPf d a imm s := rfl
theorem exec_st8 (d : RegNo) (a : RegNo) (sp : Space) (imm : BitVec 9) (s : State) :
    exec (.st8 d a sp imm) s = execSt8 d a sp imm s := rfl
theorem exec_st16 (d : RegNo) (a : RegNo) (sp : Space) (imm : BitVec 9) (s : State) :
    exec (.st16 d a sp imm) s = execSt16 d a sp imm s := rfl
theorem exec_st32 (d : RegNo) (a : RegNo) (sp : Space) (imm : BitVec 9) (s : State) :
    exec (.st32 d a sp imm) s = execSt32 d a sp imm s := rfl
theorem exec_st64 (d : RegNo) (a : RegNo) (sp : Space) (imm : BitVec 9) (s : State) :
    exec (.st64 d a sp imm) s = execSt64 d a sp imm s := rfl
theorem exec_st128 (d : RegNo) (a : RegNo) (sp : Space) (imm : BitVec 9) (s : State) :
    exec (.st128 d a sp imm) s = execSt128 d a sp imm s := rfl
theorem exec_ldm (d : RegNo) (a : RegNo) (n : BitVec 5) (s : State) :
    exec (.ldm d a n) s = execLdm d a n s := rfl
theorem exec_stm (d : RegNo) (a : RegNo) (n : BitVec 5) (s : State) :
    exec (.stm d a n) s = execStm d a n s := rfl
theorem exec_ld8sOrd (d : RegNo) (a : RegNo) (sc : Scope) (od : Ord) (s : State) :
    exec (.ld8sOrd d a sc od) s = execLd8sOrd d a sc od s := rfl
theorem exec_ld8zOrd (d : RegNo) (a : RegNo) (sc : Scope) (od : Ord) (s : State) :
    exec (.ld8zOrd d a sc od) s = execLd8zOrd d a sc od s := rfl
theorem exec_ld16sOrd (d : RegNo) (a : RegNo) (sc : Scope) (od : Ord) (s : State) :
    exec (.ld16sOrd d a sc od) s = execLd16sOrd d a sc od s := rfl
theorem exec_ld16zOrd (d : RegNo) (a : RegNo) (sc : Scope) (od : Ord) (s : State) :
    exec (.ld16zOrd d a sc od) s = execLd16zOrd d a sc od s := rfl
theorem exec_ld32Ord (d : RegNo) (a : RegNo) (sc : Scope) (od : Ord) (s : State) :
    exec (.ld32Ord d a sc od) s = execLd32Ord d a sc od s := rfl
theorem exec_ld64Ord (d : RegNo) (a : RegNo) (sc : Scope) (od : Ord) (s : State) :
    exec (.ld64Ord d a sc od) s = execLd64Ord d a sc od s := rfl
theorem exec_ld128Ord (d : RegNo) (a : RegNo) (sc : Scope) (od : Ord) (s : State) :
    exec (.ld128Ord d a sc od) s = execLd128Ord d a sc od s := rfl
theorem exec_fence (sc : Scope) (od : FenceOrd) (s : State) :
    exec (.fence sc od) s = execFence sc od s := rfl
theorem exec_st8Ord (d : RegNo) (a : RegNo) (sc : Scope) (od : Ord) (s : State) :
    exec (.st8Ord d a sc od) s = execSt8Ord d a sc od s := rfl
theorem exec_st16Ord (d : RegNo) (a : RegNo) (sc : Scope) (od : Ord) (s : State) :
    exec (.st16Ord d a sc od) s = execSt16Ord d a sc od s := rfl
theorem exec_st32Ord (d : RegNo) (a : RegNo) (sc : Scope) (od : Ord) (s : State) :
    exec (.st32Ord d a sc od) s = execSt32Ord d a sc od s := rfl
theorem exec_st64Ord (d : RegNo) (a : RegNo) (sc : Scope) (od : Ord) (s : State) :
    exec (.st64Ord d a sc od) s = execSt64Ord d a sc od s := rfl
theorem exec_st128Ord (d : RegNo) (a : RegNo) (sc : Scope) (od : Ord) (s : State) :
    exec (.st128Ord d a sc od) s = execSt128Ord d a sc od s := rfl
theorem exec_amoAddW (d : RegNo) (a : RegNo) (b : RegNo) (sc : Scope) (od : Ord) (s : State) :
    exec (.amoAddW d a b sc od) s = execAmoAddW d a b sc od s := rfl
theorem exec_amoAddD (d : RegNo) (a : RegNo) (b : RegNo) (sc : Scope) (od : Ord) (s : State) :
    exec (.amoAddD d a b sc od) s = execAmoAddD d a b sc od s := rfl
theorem exec_amoAndW (d : RegNo) (a : RegNo) (b : RegNo) (sc : Scope) (od : Ord) (s : State) :
    exec (.amoAndW d a b sc od) s = execAmoAndW d a b sc od s := rfl
theorem exec_amoAndD (d : RegNo) (a : RegNo) (b : RegNo) (sc : Scope) (od : Ord) (s : State) :
    exec (.amoAndD d a b sc od) s = execAmoAndD d a b sc od s := rfl
theorem exec_amoOrW (d : RegNo) (a : RegNo) (b : RegNo) (sc : Scope) (od : Ord) (s : State) :
    exec (.amoOrW d a b sc od) s = execAmoOrW d a b sc od s := rfl
theorem exec_amoOrD (d : RegNo) (a : RegNo) (b : RegNo) (sc : Scope) (od : Ord) (s : State) :
    exec (.amoOrD d a b sc od) s = execAmoOrD d a b sc od s := rfl
theorem exec_amoXorW (d : RegNo) (a : RegNo) (b : RegNo) (sc : Scope) (od : Ord) (s : State) :
    exec (.amoXorW d a b sc od) s = execAmoXorW d a b sc od s := rfl
theorem exec_amoXorD (d : RegNo) (a : RegNo) (b : RegNo) (sc : Scope) (od : Ord) (s : State) :
    exec (.amoXorD d a b sc od) s = execAmoXorD d a b sc od s := rfl
theorem exec_amoMinW (d : RegNo) (a : RegNo) (b : RegNo) (sc : Scope) (od : Ord) (s : State) :
    exec (.amoMinW d a b sc od) s = execAmoMinW d a b sc od s := rfl
theorem exec_amoMinD (d : RegNo) (a : RegNo) (b : RegNo) (sc : Scope) (od : Ord) (s : State) :
    exec (.amoMinD d a b sc od) s = execAmoMinD d a b sc od s := rfl
theorem exec_amoMaxW (d : RegNo) (a : RegNo) (b : RegNo) (sc : Scope) (od : Ord) (s : State) :
    exec (.amoMaxW d a b sc od) s = execAmoMaxW d a b sc od s := rfl
theorem exec_amoMaxD (d : RegNo) (a : RegNo) (b : RegNo) (sc : Scope) (od : Ord) (s : State) :
    exec (.amoMaxD d a b sc od) s = execAmoMaxD d a b sc od s := rfl
theorem exec_amoMinnW (d : RegNo) (a : RegNo) (b : RegNo) (sc : Scope) (od : Ord) (s : State) :
    exec (.amoMinnW d a b sc od) s = execAmoMinnW d a b sc od s := rfl
theorem exec_amoMinnD (d : RegNo) (a : RegNo) (b : RegNo) (sc : Scope) (od : Ord) (s : State) :
    exec (.amoMinnD d a b sc od) s = execAmoMinnD d a b sc od s := rfl
theorem exec_amoMaxnW (d : RegNo) (a : RegNo) (b : RegNo) (sc : Scope) (od : Ord) (s : State) :
    exec (.amoMaxnW d a b sc od) s = execAmoMaxnW d a b sc od s := rfl
theorem exec_amoMaxnD (d : RegNo) (a : RegNo) (b : RegNo) (sc : Scope) (od : Ord) (s : State) :
    exec (.amoMaxnD d a b sc od) s = execAmoMaxnD d a b sc od s := rfl
theorem exec_amoSwpW (d : RegNo) (a : RegNo) (b : RegNo) (sc : Scope) (od : Ord) (s : State) :
    exec (.amoSwpW d a b sc od) s = execAmoSwpW d a b sc od s := rfl
theorem exec_amoSwpD (d : RegNo) (a : RegNo) (b : RegNo) (sc : Scope) (od : Ord) (s : State) :
    exec (.amoSwpD d a b sc od) s = execAmoSwpD d a b sc od s := rfl
theorem exec_amoCasW (d : RegNo) (a : RegNo) (b : RegNo) (sc : Scope) (od : Ord) (s : State) :
    exec (.amoCasW d a b sc od) s = execAmoCasW d a b sc od s := rfl
theorem exec_amoCasD (d : RegNo) (a : RegNo) (b : RegNo) (sc : Scope) (od : Ord) (s : State) :
    exec (.amoCasD d a b sc od) s = execAmoCasD d a b sc od s := rfl
theorem exec_amoFaddW (d : RegNo) (a : RegNo) (b : RegNo) (sc : Scope) (od : Ord) (s : State) :
    exec (.amoFaddW d a b sc od) s = execAmoFaddW d a b sc od s := rfl
theorem exec_amoFaddD (d : RegNo) (a : RegNo) (b : RegNo) (sc : Scope) (od : Ord) (s : State) :
    exec (.amoFaddD d a b sc od) s = execAmoFaddD d a b sc od s := rfl
theorem exec_amoFminW (d : RegNo) (a : RegNo) (b : RegNo) (sc : Scope) (od : Ord) (s : State) :
    exec (.amoFminW d a b sc od) s = execAmoFminW d a b sc od s := rfl
theorem exec_amoFminD (d : RegNo) (a : RegNo) (b : RegNo) (sc : Scope) (od : Ord) (s : State) :
    exec (.amoFminD d a b sc od) s = execAmoFminD d a b sc od s := rfl
theorem exec_amoFmaxW (d : RegNo) (a : RegNo) (b : RegNo) (sc : Scope) (od : Ord) (s : State) :
    exec (.amoFmaxW d a b sc od) s = execAmoFmaxW d a b sc od s := rfl
theorem exec_amoFmaxD (d : RegNo) (a : RegNo) (b : RegNo) (sc : Scope) (od : Ord) (s : State) :
    exec (.amoFmaxD d a b sc od) s = execAmoFmaxD d a b sc od s := rfl
theorem exec_srel (d : RegNo) (a : RegNo) (sc : Scope) (s : State) :
    exec (.srel d a sc) s = execSrel d a sc s := rfl
theorem exec_sacq (d : RegNo) (a : RegNo) (sc : Scope) (s : State) :
    exec (.sacq d a sc) s = execSacq d a sc s := rfl
theorem exec_sadd (d : RegNo) (a : RegNo) (b : RegNo) (sc : Scope) (s : State) :
    exec (.sadd d a b sc) s = execSadd d a b sc s := rfl
theorem exec_scas (d : RegNo) (a : RegNo) (b : RegNo) (sc : Scope) (s : State) :
    exec (.scas d a b sc) s = execScas d a b sc s := rfl
theorem exec_rbind (d : RegNo) (a : RegNo) (s : State) :
    exec (.rbind d a) s = execRbind d a s := rfl
theorem exec_rwf (d : RegNo) (a : RegNo) (s : State) :
    exec (.rwf d a) s = execRwf d a s := rfl
theorem exec_rwe (d : RegNo) (a : RegNo) (s : State) :
    exec (.rwe d a) s = execRwe d a s := rfl
theorem exec_radvp (d : RegNo) (a : RegNo) (s : State) :
    exec (.radvp d a) s = execRadvp d a s := rfl
theorem exec_radvc (d : RegNo) (a : RegNo) (s : State) :
    exec (.radvc d a) s = execRadvc d a s := rfl
theorem exec_raddr (d : RegNo) (a : RegNo) (b : RegNo) (s : State) :
    exec (.raddr d a b) s = execRaddr d a b s := rfl
theorem exec_rbytes (d : RegNo) (a : RegNo) (b : RegNo) (s : State) :
    exec (.rbytes d a b) s = execRbytes d a b s := rfl
theorem exec_qbind (d : RegNo) (a : RegNo) (s : State) :
    exec (.qbind d a) s = execQbind d a s := rfl
theorem exec_conv (d : RegNo) (a : RegNo) (b : RegNo) (s : State) :
    exec (.conv d a b) s = execConv d a b s := rfl
theorem exec_gbar (s : State) :
    exec (.gbar) s = execGbar s := rfl
theorem exec_gbc (d : RegNo) (a : RegNo) (b : RegNo) (s : State) :
    exec (.gbc d a b) s = execGbc d a b s := rfl
theorem exec_gbcD (d : RegNo) (a : RegNo) (b : RegNo) (s : State) :
    exec (.gbcD d a b) s = execGbcD d a b s := rfl
theorem exec_gdis (s : State) :
    exec (.gdis) s = execGdis s := rfl
theorem exec_gredAddF32 (d : RegNo) (a : RegNo) (s : State) :
    exec (.gredAddF32 d a) s = execGredAddF32 d a s := rfl
theorem exec_gredAddF64 (d : RegNo) (a : RegNo) (s : State) :
    exec (.gredAddF64 d a) s = execGredAddF64 d a s := rfl
theorem exec_gredCaddF32 (d : RegNo) (a : RegNo) (s : State) :
    exec (.gredCaddF32 d a) s = execGredCaddF32 d a s := rfl
theorem exec_gredAddI32 (d : RegNo) (a : RegNo) (s : State) :
    exec (.gredAddI32 d a) s = execGredAddI32 d a s := rfl
theorem exec_gredAddI64 (d : RegNo) (a : RegNo) (s : State) :
    exec (.gredAddI64 d a) s = execGredAddI64 d a s := rfl
theorem exec_gredMaxF32 (d : RegNo) (a : RegNo) (s : State) :
    exec (.gredMaxF32 d a) s = execGredMaxF32 d a s := rfl
theorem exec_gredMinF32 (d : RegNo) (a : RegNo) (s : State) :
    exec (.gredMinF32 d a) s = execGredMinF32 d a s := rfl
theorem exec_gredMaxF64 (d : RegNo) (a : RegNo) (s : State) :
    exec (.gredMaxF64 d a) s = execGredMaxF64 d a s := rfl
theorem exec_gredMinF64 (d : RegNo) (a : RegNo) (s : State) :
    exec (.gredMinF64 d a) s = execGredMinF64 d a s := rfl
theorem exec_gredMaxI32 (d : RegNo) (a : RegNo) (s : State) :
    exec (.gredMaxI32 d a) s = execGredMaxI32 d a s := rfl
theorem exec_gredMinI32 (d : RegNo) (a : RegNo) (s : State) :
    exec (.gredMinI32 d a) s = execGredMinI32 d a s := rfl
theorem exec_gredAnd (d : RegNo) (a : RegNo) (s : State) :
    exec (.gredAnd d a) s = execGredAnd d a s := rfl
theorem exec_gredOr (d : RegNo) (a : RegNo) (s : State) :
    exec (.gredOr d a) s = execGredOr d a s := rfl
theorem exec_gredXor (d : RegNo) (a : RegNo) (s : State) :
    exec (.gredXor d a) s = execGredXor d a s := rfl
theorem exec_tcopy (d : RegNo) (a : RegNo) (b : RegNo) (s : State) :
    exec (.tcopy d a b) s = execTcopy d a b s := rfl
theorem exec_scopy (d : RegNo) (a : RegNo) (b : RegNo) (s : State) :
    exec (.scopy d a b) s = execScopy d a b s := rfl
theorem exec_tfill (d : RegNo) (a : RegNo) (b : RegNo) (s : State) :
    exec (.tfill d a b) s = execTfill d a b s := rfl
theorem exec_ewait (a : RegNo) (s : State) :
    exec (.ewait a) s = execEwait a s := rfl
theorem exec_eprog (d : RegNo) (a : RegNo) (s : State) :
    exec (.eprog d a) s = execEprog d a s := rfl
theorem exec_mxCfg (d : RegNo) (a : RegNo) (s : State) :
    exec (.mxCfg d a) s = execMxCfg d a s := rfl
theorem exec_mxZero (d : RegNo) (s : State) :
    exec (.mxZero d) s = execMxZero d s := rfl
theorem exec_mxLd (d : RegNo) (a : RegNo) (s : State) :
    exec (.mxLd d a) s = execMxLd d a s := rfl
theorem exec_mxSt (d : RegNo) (a : RegNo) (b : RegNo) (s : State) :
    exec (.mxSt d a b) s = execMxSt d a b s := rfl
theorem exec_mxMerge (d : RegNo) (a : RegNo) (b : RegNo) (s : State) :
    exec (.mxMerge d a b) s = execMxMerge d a b s := rfl
theorem exec_mmaF64 (d : RegNo) (a : RegNo) (b : RegNo) (s : State) :
    exec (.mmaF64 d a b) s = execMmaF64 d a b s := rfl
theorem exec_mmaF32 (d : RegNo) (a : RegNo) (b : RegNo) (s : State) :
    exec (.mmaF32 d a b) s = execMmaF32 d a b s := rfl
theorem exec_mmaBf16 (d : RegNo) (a : RegNo) (b : RegNo) (s : State) :
    exec (.mmaBf16 d a b) s = execMmaBf16 d a b s := rfl
theorem exec_mmaF16 (d : RegNo) (a : RegNo) (b : RegNo) (s : State) :
    exec (.mmaF16 d a b) s = execMmaF16 d a b s := rfl
theorem exec_mmaE4m3 (d : RegNo) (a : RegNo) (b : RegNo) (s : State) :
    exec (.mmaE4m3 d a b) s = execMmaE4m3 d a b s := rfl
theorem exec_mmaE5m2 (d : RegNo) (a : RegNo) (b : RegNo) (s : State) :
    exec (.mmaE5m2 d a b) s = execMmaE5m2 d a b s := rfl
theorem exec_mmaMx8 (d : RegNo) (a : RegNo) (b : RegNo) (s : State) :
    exec (.mmaMx8 d a b) s = execMmaMx8 d a b s := rfl
theorem exec_mmaE2m1 (d : RegNo) (a : RegNo) (b : RegNo) (s : State) :
    exec (.mmaE2m1 d a b) s = execMmaE2m1 d a b s := rfl
theorem exec_launch (d : RegNo) (a : RegNo) (s : State) :
    exec (.launch d a) s = execLaunch d a s := rfl
theorem exec_nsend (a : RegNo) (b : RegNo) (s : State) :
    exec (.nsend a b) s = execNsend a b s := rfl
theorem exec_nrecv (d : RegNo) (a : RegNo) (s : State) :
    exec (.nrecv d a) s = execNrecv d a s := rfl
theorem exec_nmcast (a : RegNo) (b : RegNo) (s : State) :
    exec (.nmcast a b) s = execNmcast a b s := rfl
theorem exec_collRedAddF32 (d : RegNo) (a : RegNo) (s : State) :
    exec (.collRedAddF32 d a) s = execCollRedAddF32 d a s := rfl
theorem exec_collRedAddF64 (d : RegNo) (a : RegNo) (s : State) :
    exec (.collRedAddF64 d a) s = execCollRedAddF64 d a s := rfl
theorem exec_collRedCaddF32 (d : RegNo) (a : RegNo) (s : State) :
    exec (.collRedCaddF32 d a) s = execCollRedCaddF32 d a s := rfl
theorem exec_collRedAddI32 (d : RegNo) (a : RegNo) (s : State) :
    exec (.collRedAddI32 d a) s = execCollRedAddI32 d a s := rfl
theorem exec_collRedAddI64 (d : RegNo) (a : RegNo) (s : State) :
    exec (.collRedAddI64 d a) s = execCollRedAddI64 d a s := rfl
theorem exec_collRedMaxF32 (d : RegNo) (a : RegNo) (s : State) :
    exec (.collRedMaxF32 d a) s = execCollRedMaxF32 d a s := rfl
theorem exec_collRedMinF32 (d : RegNo) (a : RegNo) (s : State) :
    exec (.collRedMinF32 d a) s = execCollRedMinF32 d a s := rfl
theorem exec_collRedMaxF64 (d : RegNo) (a : RegNo) (s : State) :
    exec (.collRedMaxF64 d a) s = execCollRedMaxF64 d a s := rfl
theorem exec_collRedMinF64 (d : RegNo) (a : RegNo) (s : State) :
    exec (.collRedMinF64 d a) s = execCollRedMinF64 d a s := rfl
theorem exec_collRedMaxI32 (d : RegNo) (a : RegNo) (s : State) :
    exec (.collRedMaxI32 d a) s = execCollRedMaxI32 d a s := rfl
theorem exec_collRedMinI32 (d : RegNo) (a : RegNo) (s : State) :
    exec (.collRedMinI32 d a) s = execCollRedMinI32 d a s := rfl
theorem exec_collRedAnd (d : RegNo) (a : RegNo) (s : State) :
    exec (.collRedAnd d a) s = execCollRedAnd d a s := rfl
theorem exec_collRedOr (d : RegNo) (a : RegNo) (s : State) :
    exec (.collRedOr d a) s = execCollRedOr d a s := rfl
theorem exec_collRedXor (d : RegNo) (a : RegNo) (s : State) :
    exec (.collRedXor d a) s = execCollRedXor d a s := rfl
theorem exec_collBc (d : RegNo) (a : RegNo) (s : State) :
    exec (.collBc d a) s = execCollBc d a s := rfl
theorem exec_collAg (d : RegNo) (a : RegNo) (s : State) :
    exec (.collAg d a) s = execCollAg d a s := rfl
theorem exec_add (d : RegNo) (a : RegNo) (b : RegNo) (s : State) :
    exec (.add d a b) s = execAdd d a b s := rfl
theorem exec_sub (d : RegNo) (a : RegNo) (b : RegNo) (s : State) :
    exec (.sub d a b) s = execSub d a b s := rfl
theorem exec_mul (d : RegNo) (a : RegNo) (b : RegNo) (s : State) :
    exec (.mul d a b) s = execMul d a b s := rfl
theorem exec_mulh (d : RegNo) (a : RegNo) (b : RegNo) (s : State) :
    exec (.mulh d a b) s = execMulh d a b s := rfl
theorem exec_mulhn (d : RegNo) (a : RegNo) (b : RegNo) (s : State) :
    exec (.mulhn d a b) s = execMulhn d a b s := rfl
theorem exec_div (d : RegNo) (a : RegNo) (b : RegNo) (s : State) :
    exec (.div d a b) s = execDiv d a b s := rfl
theorem exec_divn (d : RegNo) (a : RegNo) (b : RegNo) (s : State) :
    exec (.divn d a b) s = execDivn d a b s := rfl
theorem exec_rem (d : RegNo) (a : RegNo) (b : RegNo) (s : State) :
    exec (.rem d a b) s = execRem d a b s := rfl
theorem exec_remn (d : RegNo) (a : RegNo) (b : RegNo) (s : State) :
    exec (.remn d a b) s = execRemn d a b s := rfl
theorem exec_min (d : RegNo) (a : RegNo) (b : RegNo) (s : State) :
    exec (.min d a b) s = execMin d a b s := rfl
theorem exec_max (d : RegNo) (a : RegNo) (b : RegNo) (s : State) :
    exec (.max d a b) s = execMax d a b s := rfl
theorem exec_minn (d : RegNo) (a : RegNo) (b : RegNo) (s : State) :
    exec (.minn d a b) s = execMinn d a b s := rfl
theorem exec_maxn (d : RegNo) (a : RegNo) (b : RegNo) (s : State) :
    exec (.maxn d a b) s = execMaxn d a b s := rfl
theorem exec_abs (d : RegNo) (a : RegNo) (s : State) :
    exec (.abs d a) s = execAbs d a s := rfl
theorem exec_and (d : RegNo) (a : RegNo) (b : RegNo) (s : State) :
    exec (.and d a b) s = execAnd d a b s := rfl
theorem exec_or (d : RegNo) (a : RegNo) (b : RegNo) (s : State) :
    exec (.or d a b) s = execOr d a b s := rfl
theorem exec_xor (d : RegNo) (a : RegNo) (b : RegNo) (s : State) :
    exec (.xor d a b) s = execXor d a b s := rfl
theorem exec_shl (d : RegNo) (a : RegNo) (b : RegNo) (s : State) :
    exec (.shl d a b) s = execShl d a b s := rfl
theorem exec_shr (d : RegNo) (a : RegNo) (b : RegNo) (s : State) :
    exec (.shr d a b) s = execShr d a b s := rfl
theorem exec_sar (d : RegNo) (a : RegNo) (b : RegNo) (s : State) :
    exec (.sar d a b) s = execSar d a b s := rfl
theorem exec_clz (d : RegNo) (a : RegNo) (s : State) :
    exec (.clz d a) s = execClz d a s := rfl
theorem exec_ctz (d : RegNo) (a : RegNo) (s : State) :
    exec (.ctz d a) s = execCtz d a s := rfl
theorem exec_popc (d : RegNo) (a : RegNo) (s : State) :
    exec (.popc d a) s = execPopc d a s := rfl
theorem exec_brev (d : RegNo) (a : RegNo) (s : State) :
    exec (.brev d a) s = execBrev d a s := rfl
theorem exec_bfx (d : RegNo) (a : RegNo) (b : RegNo) (s : State) :
    exec (.bfx d a b) s = execBfx d a b s := rfl
theorem exec_bfi (d : RegNo) (a : RegNo) (b : RegNo) (s : State) :
    exec (.bfi d a b) s = execBfi d a b s := rfl
theorem exec_slt (d : RegNo) (a : RegNo) (b : RegNo) (s : State) :
    exec (.slt d a b) s = execSlt d a b s := rfl
theorem exec_sltn (d : RegNo) (a : RegNo) (b : RegNo) (s : State) :
    exec (.sltn d a b) s = execSltn d a b s := rfl
theorem exec_seq (d : RegNo) (a : RegNo) (b : RegNo) (s : State) :
    exec (.seq d a b) s = execSeq d a b s := rfl
theorem exec_sne (d : RegNo) (a : RegNo) (b : RegNo) (s : State) :
    exec (.sne d a b) s = execSne d a b s := rfl
theorem exec_rng (d : RegNo) (s : State) :
    exec (.rng d) s = execRng d s := rfl
theorem exec_addD (d : RegNo) (a : RegNo) (b : RegNo) (s : State) :
    exec (.addD d a b) s = execAddD d a b s := rfl
theorem exec_subD (d : RegNo) (a : RegNo) (b : RegNo) (s : State) :
    exec (.subD d a b) s = execSubD d a b s := rfl
theorem exec_mulD (d : RegNo) (a : RegNo) (b : RegNo) (s : State) :
    exec (.mulD d a b) s = execMulD d a b s := rfl
theorem exec_shlD (d : RegNo) (a : RegNo) (b : RegNo) (s : State) :
    exec (.shlD d a b) s = execShlD d a b s := rfl
theorem exec_shrD (d : RegNo) (a : RegNo) (b : RegNo) (s : State) :
    exec (.shrD d a b) s = execShrD d a b s := rfl
theorem exec_sarD (d : RegNo) (a : RegNo) (b : RegNo) (s : State) :
    exec (.sarD d a b) s = execSarD d a b s := rfl
theorem exec_andD (d : RegNo) (a : RegNo) (b : RegNo) (s : State) :
    exec (.andD d a b) s = execAndD d a b s := rfl
theorem exec_orD (d : RegNo) (a : RegNo) (b : RegNo) (s : State) :
    exec (.orD d a b) s = execOrD d a b s := rfl
theorem exec_xorD (d : RegNo) (a : RegNo) (b : RegNo) (s : State) :
    exec (.xorD d a b) s = execXorD d a b s := rfl
theorem exec_minD (d : RegNo) (a : RegNo) (b : RegNo) (s : State) :
    exec (.minD d a b) s = execMinD d a b s := rfl
theorem exec_maxD (d : RegNo) (a : RegNo) (b : RegNo) (s : State) :
    exec (.maxD d a b) s = execMaxD d a b s := rfl
theorem exec_minnD (d : RegNo) (a : RegNo) (b : RegNo) (s : State) :
    exec (.minnD d a b) s = execMinnD d a b s := rfl
theorem exec_maxnD (d : RegNo) (a : RegNo) (b : RegNo) (s : State) :
    exec (.maxnD d a b) s = execMaxnD d a b s := rfl
theorem exec_sltD (d : RegNo) (a : RegNo) (b : RegNo) (s : State) :
    exec (.sltD d a b) s = execSltD d a b s := rfl
theorem exec_sltnD (d : RegNo) (a : RegNo) (b : RegNo) (s : State) :
    exec (.sltnD d a b) s = execSltnD d a b s := rfl
theorem exec_seqD (d : RegNo) (a : RegNo) (b : RegNo) (s : State) :
    exec (.seqD d a b) s = execSeqD d a b s := rfl
theorem exec_addi (d : RegNo) (a : RegNo) (imm : BitVec 11) (s : State) :
    exec (.addi d a imm) s = execAddi d a imm s := rfl
theorem exec_andi (d : RegNo) (a : RegNo) (imm : BitVec 11) (s : State) :
    exec (.andi d a imm) s = execAndi d a imm s := rfl
theorem exec_ori (d : RegNo) (a : RegNo) (imm : BitVec 11) (s : State) :
    exec (.ori d a imm) s = execOri d a imm s := rfl
theorem exec_xori (d : RegNo) (a : RegNo) (imm : BitVec 11) (s : State) :
    exec (.xori d a imm) s = execXori d a imm s := rfl
theorem exec_slti (d : RegNo) (a : RegNo) (imm : BitVec 11) (s : State) :
    exec (.slti d a imm) s = execSlti d a imm s := rfl
theorem exec_shli (d : RegNo) (a : RegNo) (imm : BitVec 5) (s : State) :
    exec (.shli d a imm) s = execShli d a imm s := rfl
theorem exec_shri (d : RegNo) (a : RegNo) (imm : BitVec 5) (s : State) :
    exec (.shri d a imm) s = execShri d a imm s := rfl
theorem exec_sari (d : RegNo) (a : RegNo) (imm : BitVec 5) (s : State) :
    exec (.sari d a imm) s = execSari d a imm s := rfl
theorem exec_lui (d : RegNo) (imm : BitVec 17) (s : State) :
    exec (.lui d imm) s = execLui d imm s := rfl
theorem exec_fadd (d : RegNo) (a : RegNo) (b : RegNo) (s : State) :
    exec (.fadd d a b) s = execFadd d a b s := rfl
theorem exec_fsub (d : RegNo) (a : RegNo) (b : RegNo) (s : State) :
    exec (.fsub d a b) s = execFsub d a b s := rfl
theorem exec_fmul (d : RegNo) (a : RegNo) (b : RegNo) (s : State) :
    exec (.fmul d a b) s = execFmul d a b s := rfl
theorem exec_fdiv (d : RegNo) (a : RegNo) (b : RegNo) (s : State) :
    exec (.fdiv d a b) s = execFdiv d a b s := rfl
theorem exec_fsqrt (d : RegNo) (a : RegNo) (s : State) :
    exec (.fsqrt d a) s = execFsqrt d a s := rfl
theorem exec_fmin (d : RegNo) (a : RegNo) (b : RegNo) (s : State) :
    exec (.fmin d a b) s = execFmin d a b s := rfl
theorem exec_fmax (d : RegNo) (a : RegNo) (b : RegNo) (s : State) :
    exec (.fmax d a b) s = execFmax d a b s := rfl
theorem exec_fabs (d : RegNo) (a : RegNo) (s : State) :
    exec (.fabs d a) s = execFabs d a s := rfl
theorem exec_fneg (d : RegNo) (a : RegNo) (s : State) :
    exec (.fneg d a) s = execFneg d a s := rfl
theorem exec_feq (d : RegNo) (a : RegNo) (b : RegNo) (s : State) :
    exec (.feq d a b) s = execFeq d a b s := rfl
theorem exec_flt (d : RegNo) (a : RegNo) (b : RegNo) (s : State) :
    exec (.flt d a b) s = execFlt d a b s := rfl
theorem exec_fle (d : RegNo) (a : RegNo) (b : RegNo) (s : State) :
    exec (.fle d a b) s = execFle d a b s := rfl
theorem exec_funOrd (d : RegNo) (a : RegNo) (b : RegNo) (s : State) :
    exec (.funOrd d a b) s = execFunOrd d a b s := rfl
theorem exec_fclass (d : RegNo) (a : RegNo) (s : State) :
    exec (.fclass d a) s = execFclass d a s := rfl
theorem exec_frnd (d : RegNo) (a : RegNo) (b : RegNo) (rm : RmField) (s : State) :
    exec (.frnd d a b rm) s = execFrnd d a b rm s := rfl
theorem exec_dadd (d : RegNo) (a : RegNo) (b : RegNo) (s : State) :
    exec (.dadd d a b) s = execDadd d a b s := rfl
theorem exec_dsub (d : RegNo) (a : RegNo) (b : RegNo) (s : State) :
    exec (.dsub d a b) s = execDsub d a b s := rfl
theorem exec_dmul (d : RegNo) (a : RegNo) (b : RegNo) (s : State) :
    exec (.dmul d a b) s = execDmul d a b s := rfl
theorem exec_ddiv (d : RegNo) (a : RegNo) (b : RegNo) (s : State) :
    exec (.ddiv d a b) s = execDdiv d a b s := rfl
theorem exec_dsqrt (d : RegNo) (a : RegNo) (s : State) :
    exec (.dsqrt d a) s = execDsqrt d a s := rfl
theorem exec_dmin (d : RegNo) (a : RegNo) (b : RegNo) (s : State) :
    exec (.dmin d a b) s = execDmin d a b s := rfl
theorem exec_dmax (d : RegNo) (a : RegNo) (b : RegNo) (s : State) :
    exec (.dmax d a b) s = execDmax d a b s := rfl
theorem exec_dabs (d : RegNo) (a : RegNo) (s : State) :
    exec (.dabs d a) s = execDabs d a s := rfl
theorem exec_dneg (d : RegNo) (a : RegNo) (s : State) :
    exec (.dneg d a) s = execDneg d a s := rfl
theorem exec_deq (d : RegNo) (a : RegNo) (b : RegNo) (s : State) :
    exec (.deq d a b) s = execDeq d a b s := rfl
theorem exec_dlt (d : RegNo) (a : RegNo) (b : RegNo) (s : State) :
    exec (.dlt d a b) s = execDlt d a b s := rfl
theorem exec_dle (d : RegNo) (a : RegNo) (b : RegNo) (s : State) :
    exec (.dle d a b) s = execDle d a b s := rfl
theorem exec_dunOrd (d : RegNo) (a : RegNo) (b : RegNo) (s : State) :
    exec (.dunOrd d a b) s = execDunOrd d a b s := rfl
theorem exec_dclass (d : RegNo) (a : RegNo) (s : State) :
    exec (.dclass d a) s = execDclass d a s := rfl
theorem exec_drnd (d : RegNo) (a : RegNo) (b : RegNo) (rm : RmField) (s : State) :
    exec (.drnd d a b rm) s = execDrnd d a b rm s := rfl
theorem exec_p2addH (d : RegNo) (a : RegNo) (b : RegNo) (s : State) :
    exec (.p2addH d a b) s = execP2addH d a b s := rfl
theorem exec_p2subH (d : RegNo) (a : RegNo) (b : RegNo) (s : State) :
    exec (.p2subH d a b) s = execP2subH d a b s := rfl
theorem exec_p2mulH (d : RegNo) (a : RegNo) (b : RegNo) (s : State) :
    exec (.p2mulH d a b) s = execP2mulH d a b s := rfl
theorem exec_p2fmaH (d : RegNo) (a : RegNo) (b : RegNo) (s : State) :
    exec (.p2fmaH d a b) s = execP2fmaH d a b s := rfl
theorem exec_p2minH (d : RegNo) (a : RegNo) (b : RegNo) (s : State) :
    exec (.p2minH d a b) s = execP2minH d a b s := rfl
theorem exec_p2maxH (d : RegNo) (a : RegNo) (b : RegNo) (s : State) :
    exec (.p2maxH d a b) s = execP2maxH d a b s := rfl
theorem exec_p2addB (d : RegNo) (a : RegNo) (b : RegNo) (s : State) :
    exec (.p2addB d a b) s = execP2addB d a b s := rfl
theorem exec_p2subB (d : RegNo) (a : RegNo) (b : RegNo) (s : State) :
    exec (.p2subB d a b) s = execP2subB d a b s := rfl
theorem exec_p2mulB (d : RegNo) (a : RegNo) (b : RegNo) (s : State) :
    exec (.p2mulB d a b) s = execP2mulB d a b s := rfl
theorem exec_p2fmaB (d : RegNo) (a : RegNo) (b : RegNo) (s : State) :
    exec (.p2fmaB d a b) s = execP2fmaB d a b s := rfl
theorem exec_p2minB (d : RegNo) (a : RegNo) (b : RegNo) (s : State) :
    exec (.p2minB d a b) s = execP2minB d a b s := rfl
theorem exec_p2maxB (d : RegNo) (a : RegNo) (b : RegNo) (s : State) :
    exec (.p2maxB d a b) s = execP2maxB d a b s := rfl
theorem exec_cvtF64F32 (d : RegNo) (a : RegNo) (b : RegNo) (rm : RmField) (sat : Bool) (s : State) :
    exec (.cvtF64F32 d a b rm sat) s = execCvtF64F32 d a b rm sat s := rfl
theorem exec_cvtF64F16 (d : RegNo) (a : RegNo) (b : RegNo) (rm : RmField) (sat : Bool) (s : State) :
    exec (.cvtF64F16 d a b rm sat) s = execCvtF64F16 d a b rm sat s := rfl
theorem exec_cvtF64Bf16 (d : RegNo) (a : RegNo) (b : RegNo) (rm : RmField) (sat : Bool) (s : State) :
    exec (.cvtF64Bf16 d a b rm sat) s = execCvtF64Bf16 d a b rm sat s := rfl
theorem exec_cvtF64E4m3 (d : RegNo) (a : RegNo) (b : RegNo) (rm : RmField) (sat : Bool) (s : State) :
    exec (.cvtF64E4m3 d a b rm sat) s = execCvtF64E4m3 d a b rm sat s := rfl
theorem exec_cvtF64E5m2 (d : RegNo) (a : RegNo) (b : RegNo) (rm : RmField) (sat : Bool) (s : State) :
    exec (.cvtF64E5m2 d a b rm sat) s = execCvtF64E5m2 d a b rm sat s := rfl
theorem exec_cvtF64I32 (d : RegNo) (a : RegNo) (b : RegNo) (rm : RmField) (sat : Bool) (s : State) :
    exec (.cvtF64I32 d a b rm sat) s = execCvtF64I32 d a b rm sat s := rfl
theorem exec_cvtF64N32 (d : RegNo) (a : RegNo) (b : RegNo) (rm : RmField) (sat : Bool) (s : State) :
    exec (.cvtF64N32 d a b rm sat) s = execCvtF64N32 d a b rm sat s := rfl
theorem exec_cvtF64I64 (d : RegNo) (a : RegNo) (b : RegNo) (rm : RmField) (sat : Bool) (s : State) :
    exec (.cvtF64I64 d a b rm sat) s = execCvtF64I64 d a b rm sat s := rfl
theorem exec_cvtF64N64 (d : RegNo) (a : RegNo) (b : RegNo) (rm : RmField) (sat : Bool) (s : State) :
    exec (.cvtF64N64 d a b rm sat) s = execCvtF64N64 d a b rm sat s := rfl
theorem exec_cvtF32F64 (d : RegNo) (a : RegNo) (b : RegNo) (rm : RmField) (sat : Bool) (s : State) :
    exec (.cvtF32F64 d a b rm sat) s = execCvtF32F64 d a b rm sat s := rfl
theorem exec_cvtF32F16 (d : RegNo) (a : RegNo) (b : RegNo) (rm : RmField) (sat : Bool) (s : State) :
    exec (.cvtF32F16 d a b rm sat) s = execCvtF32F16 d a b rm sat s := rfl
theorem exec_cvtF32Bf16 (d : RegNo) (a : RegNo) (b : RegNo) (rm : RmField) (sat : Bool) (s : State) :
    exec (.cvtF32Bf16 d a b rm sat) s = execCvtF32Bf16 d a b rm sat s := rfl
theorem exec_cvtF32E4m3 (d : RegNo) (a : RegNo) (b : RegNo) (rm : RmField) (sat : Bool) (s : State) :
    exec (.cvtF32E4m3 d a b rm sat) s = execCvtF32E4m3 d a b rm sat s := rfl
theorem exec_cvtF32E5m2 (d : RegNo) (a : RegNo) (b : RegNo) (rm : RmField) (sat : Bool) (s : State) :
    exec (.cvtF32E5m2 d a b rm sat) s = execCvtF32E5m2 d a b rm sat s := rfl
theorem exec_cvtF32E2m1 (d : RegNo) (a : RegNo) (b : RegNo) (rm : RmField) (sat : Bool) (s : State) :
    exec (.cvtF32E2m1 d a b rm sat) s = execCvtF32E2m1 d a b rm sat s := rfl
theorem exec_cvtF32E8m0 (d : RegNo) (a : RegNo) (b : RegNo) (rm : RmField) (sat : Bool) (s : State) :
    exec (.cvtF32E8m0 d a b rm sat) s = execCvtF32E8m0 d a b rm sat s := rfl
theorem exec_cvtF32E3m5 (d : RegNo) (a : RegNo) (b : RegNo) (rm : RmField) (sat : Bool) (s : State) :
    exec (.cvtF32E3m5 d a b rm sat) s = execCvtF32E3m5 d a b rm sat s := rfl
theorem exec_cvtF32I32 (d : RegNo) (a : RegNo) (b : RegNo) (rm : RmField) (sat : Bool) (s : State) :
    exec (.cvtF32I32 d a b rm sat) s = execCvtF32I32 d a b rm sat s := rfl
theorem exec_cvtF32N32 (d : RegNo) (a : RegNo) (b : RegNo) (rm : RmField) (sat : Bool) (s : State) :
    exec (.cvtF32N32 d a b rm sat) s = execCvtF32N32 d a b rm sat s := rfl
theorem exec_cvtF32I64 (d : RegNo) (a : RegNo) (b : RegNo) (rm : RmField) (sat : Bool) (s : State) :
    exec (.cvtF32I64 d a b rm sat) s = execCvtF32I64 d a b rm sat s := rfl
theorem exec_cvtF32N64 (d : RegNo) (a : RegNo) (b : RegNo) (rm : RmField) (sat : Bool) (s : State) :
    exec (.cvtF32N64 d a b rm sat) s = execCvtF32N64 d a b rm sat s := rfl
theorem exec_cvtF16F64 (d : RegNo) (a : RegNo) (b : RegNo) (rm : RmField) (sat : Bool) (s : State) :
    exec (.cvtF16F64 d a b rm sat) s = execCvtF16F64 d a b rm sat s := rfl
theorem exec_cvtF16F32 (d : RegNo) (a : RegNo) (b : RegNo) (rm : RmField) (sat : Bool) (s : State) :
    exec (.cvtF16F32 d a b rm sat) s = execCvtF16F32 d a b rm sat s := rfl
theorem exec_cvtF16Bf16 (d : RegNo) (a : RegNo) (b : RegNo) (rm : RmField) (sat : Bool) (s : State) :
    exec (.cvtF16Bf16 d a b rm sat) s = execCvtF16Bf16 d a b rm sat s := rfl
theorem exec_cvtF16E4m3 (d : RegNo) (a : RegNo) (b : RegNo) (rm : RmField) (sat : Bool) (s : State) :
    exec (.cvtF16E4m3 d a b rm sat) s = execCvtF16E4m3 d a b rm sat s := rfl
theorem exec_cvtF16E5m2 (d : RegNo) (a : RegNo) (b : RegNo) (rm : RmField) (sat : Bool) (s : State) :
    exec (.cvtF16E5m2 d a b rm sat) s = execCvtF16E5m2 d a b rm sat s := rfl
theorem exec_cvtBf16F64 (d : RegNo) (a : RegNo) (b : RegNo) (rm : RmField) (sat : Bool) (s : State) :
    exec (.cvtBf16F64 d a b rm sat) s = execCvtBf16F64 d a b rm sat s := rfl
theorem exec_cvtBf16F32 (d : RegNo) (a : RegNo) (b : RegNo) (rm : RmField) (sat : Bool) (s : State) :
    exec (.cvtBf16F32 d a b rm sat) s = execCvtBf16F32 d a b rm sat s := rfl
theorem exec_cvtBf16F16 (d : RegNo) (a : RegNo) (b : RegNo) (rm : RmField) (sat : Bool) (s : State) :
    exec (.cvtBf16F16 d a b rm sat) s = execCvtBf16F16 d a b rm sat s := rfl
theorem exec_cvtBf16E4m3 (d : RegNo) (a : RegNo) (b : RegNo) (rm : RmField) (sat : Bool) (s : State) :
    exec (.cvtBf16E4m3 d a b rm sat) s = execCvtBf16E4m3 d a b rm sat s := rfl
theorem exec_cvtBf16E5m2 (d : RegNo) (a : RegNo) (b : RegNo) (rm : RmField) (sat : Bool) (s : State) :
    exec (.cvtBf16E5m2 d a b rm sat) s = execCvtBf16E5m2 d a b rm sat s := rfl
theorem exec_cvtE4m3F64 (d : RegNo) (a : RegNo) (b : RegNo) (rm : RmField) (sat : Bool) (s : State) :
    exec (.cvtE4m3F64 d a b rm sat) s = execCvtE4m3F64 d a b rm sat s := rfl
theorem exec_cvtE4m3F32 (d : RegNo) (a : RegNo) (b : RegNo) (rm : RmField) (sat : Bool) (s : State) :
    exec (.cvtE4m3F32 d a b rm sat) s = execCvtE4m3F32 d a b rm sat s := rfl
theorem exec_cvtE4m3F16 (d : RegNo) (a : RegNo) (b : RegNo) (rm : RmField) (sat : Bool) (s : State) :
    exec (.cvtE4m3F16 d a b rm sat) s = execCvtE4m3F16 d a b rm sat s := rfl
theorem exec_cvtE4m3Bf16 (d : RegNo) (a : RegNo) (b : RegNo) (rm : RmField) (sat : Bool) (s : State) :
    exec (.cvtE4m3Bf16 d a b rm sat) s = execCvtE4m3Bf16 d a b rm sat s := rfl
theorem exec_cvtE4m3E5m2 (d : RegNo) (a : RegNo) (b : RegNo) (rm : RmField) (sat : Bool) (s : State) :
    exec (.cvtE4m3E5m2 d a b rm sat) s = execCvtE4m3E5m2 d a b rm sat s := rfl
theorem exec_cvtE5m2F64 (d : RegNo) (a : RegNo) (b : RegNo) (rm : RmField) (sat : Bool) (s : State) :
    exec (.cvtE5m2F64 d a b rm sat) s = execCvtE5m2F64 d a b rm sat s := rfl
theorem exec_cvtE5m2F32 (d : RegNo) (a : RegNo) (b : RegNo) (rm : RmField) (sat : Bool) (s : State) :
    exec (.cvtE5m2F32 d a b rm sat) s = execCvtE5m2F32 d a b rm sat s := rfl
theorem exec_cvtE5m2F16 (d : RegNo) (a : RegNo) (b : RegNo) (rm : RmField) (sat : Bool) (s : State) :
    exec (.cvtE5m2F16 d a b rm sat) s = execCvtE5m2F16 d a b rm sat s := rfl
theorem exec_cvtE5m2Bf16 (d : RegNo) (a : RegNo) (b : RegNo) (rm : RmField) (sat : Bool) (s : State) :
    exec (.cvtE5m2Bf16 d a b rm sat) s = execCvtE5m2Bf16 d a b rm sat s := rfl
theorem exec_cvtE5m2E4m3 (d : RegNo) (a : RegNo) (b : RegNo) (rm : RmField) (sat : Bool) (s : State) :
    exec (.cvtE5m2E4m3 d a b rm sat) s = execCvtE5m2E4m3 d a b rm sat s := rfl
theorem exec_cvtE2m1F64 (d : RegNo) (a : RegNo) (b : RegNo) (rm : RmField) (sat : Bool) (s : State) :
    exec (.cvtE2m1F64 d a b rm sat) s = execCvtE2m1F64 d a b rm sat s := rfl
theorem exec_cvtE2m1F32 (d : RegNo) (a : RegNo) (b : RegNo) (rm : RmField) (sat : Bool) (s : State) :
    exec (.cvtE2m1F32 d a b rm sat) s = execCvtE2m1F32 d a b rm sat s := rfl
theorem exec_cvtE2m1F16 (d : RegNo) (a : RegNo) (b : RegNo) (rm : RmField) (sat : Bool) (s : State) :
    exec (.cvtE2m1F16 d a b rm sat) s = execCvtE2m1F16 d a b rm sat s := rfl
theorem exec_cvtE2m1Bf16 (d : RegNo) (a : RegNo) (b : RegNo) (rm : RmField) (sat : Bool) (s : State) :
    exec (.cvtE2m1Bf16 d a b rm sat) s = execCvtE2m1Bf16 d a b rm sat s := rfl
theorem exec_cvtE8m0F32 (d : RegNo) (a : RegNo) (b : RegNo) (rm : RmField) (sat : Bool) (s : State) :
    exec (.cvtE8m0F32 d a b rm sat) s = execCvtE8m0F32 d a b rm sat s := rfl
theorem exec_cvtE3m5F32 (d : RegNo) (a : RegNo) (b : RegNo) (rm : RmField) (sat : Bool) (s : State) :
    exec (.cvtE3m5F32 d a b rm sat) s = execCvtE3m5F32 d a b rm sat s := rfl
theorem exec_cvtI32F64 (d : RegNo) (a : RegNo) (b : RegNo) (rm : RmField) (sat : Bool) (s : State) :
    exec (.cvtI32F64 d a b rm sat) s = execCvtI32F64 d a b rm sat s := rfl
theorem exec_cvtI32F32 (d : RegNo) (a : RegNo) (b : RegNo) (rm : RmField) (sat : Bool) (s : State) :
    exec (.cvtI32F32 d a b rm sat) s = execCvtI32F32 d a b rm sat s := rfl
theorem exec_cvtI32I64 (d : RegNo) (a : RegNo) (sat : Bool) (s : State) :
    exec (.cvtI32I64 d a sat) s = execCvtI32I64 d a sat s := rfl
theorem exec_cvtN32F64 (d : RegNo) (a : RegNo) (b : RegNo) (rm : RmField) (sat : Bool) (s : State) :
    exec (.cvtN32F64 d a b rm sat) s = execCvtN32F64 d a b rm sat s := rfl
theorem exec_cvtN32F32 (d : RegNo) (a : RegNo) (b : RegNo) (rm : RmField) (sat : Bool) (s : State) :
    exec (.cvtN32F32 d a b rm sat) s = execCvtN32F32 d a b rm sat s := rfl
theorem exec_cvtN32N64 (d : RegNo) (a : RegNo) (sat : Bool) (s : State) :
    exec (.cvtN32N64 d a sat) s = execCvtN32N64 d a sat s := rfl
theorem exec_cvtI64F64 (d : RegNo) (a : RegNo) (b : RegNo) (rm : RmField) (sat : Bool) (s : State) :
    exec (.cvtI64F64 d a b rm sat) s = execCvtI64F64 d a b rm sat s := rfl
theorem exec_cvtI64F32 (d : RegNo) (a : RegNo) (b : RegNo) (rm : RmField) (sat : Bool) (s : State) :
    exec (.cvtI64F32 d a b rm sat) s = execCvtI64F32 d a b rm sat s := rfl
theorem exec_cvtI64I32 (d : RegNo) (a : RegNo) (sat : Bool) (s : State) :
    exec (.cvtI64I32 d a sat) s = execCvtI64I32 d a sat s := rfl
theorem exec_cvtN64F64 (d : RegNo) (a : RegNo) (b : RegNo) (rm : RmField) (sat : Bool) (s : State) :
    exec (.cvtN64F64 d a b rm sat) s = execCvtN64F64 d a b rm sat s := rfl
theorem exec_cvtN64F32 (d : RegNo) (a : RegNo) (b : RegNo) (rm : RmField) (sat : Bool) (s : State) :
    exec (.cvtN64F32 d a b rm sat) s = execCvtN64F32 d a b rm sat s := rfl
theorem exec_cvtN64N32 (d : RegNo) (a : RegNo) (sat : Bool) (s : State) :
    exec (.cvtN64N32 d a sat) s = execCvtN64N32 d a sat s := rfl
theorem exec_cvtI8I32 (d : RegNo) (a : RegNo) (sat : Bool) (s : State) :
    exec (.cvtI8I32 d a sat) s = execCvtI8I32 d a sat s := rfl
theorem exec_cvtN8I32 (d : RegNo) (a : RegNo) (sat : Bool) (s : State) :
    exec (.cvtN8I32 d a sat) s = execCvtN8I32 d a sat s := rfl
theorem exec_cvtI16I32 (d : RegNo) (a : RegNo) (sat : Bool) (s : State) :
    exec (.cvtI16I32 d a sat) s = execCvtI16I32 d a sat s := rfl
theorem exec_cvtN16I32 (d : RegNo) (a : RegNo) (sat : Bool) (s : State) :
    exec (.cvtN16I32 d a sat) s = execCvtN16I32 d a sat s := rfl
theorem exec_cvtpE4m3 (d : RegNo) (a : RegNo) (b : RegNo) (rm : RmField) (sat : Bool) (h : Bool) (s : State) :
    exec (.cvtpE4m3 d a b rm sat h) s = execCvtpE4m3 d a b rm sat h s := rfl
theorem exec_cvtpE5m2 (d : RegNo) (a : RegNo) (b : RegNo) (rm : RmField) (sat : Bool) (h : Bool) (s : State) :
    exec (.cvtpE5m2 d a b rm sat h) s = execCvtpE5m2 d a b rm sat h s := rfl
theorem exec_cvtpE2m1Low (d : RegNo) (a : RegNo) (b : RegNo) (rm : RmField) (sat : Bool) (h : Bool) (s : State) :
    exec (.cvtpE2m1Low d a b rm sat h) s = execCvtpE2m1Low d a b rm sat h s := rfl
theorem exec_cvtpE2m1High (d : RegNo) (a : RegNo) (b : RegNo) (rm : RmField) (sat : Bool) (h : Bool) (s : State) :
    exec (.cvtpE2m1High d a b rm sat h) s = execCvtpE2m1High d a b rm sat h s := rfl
theorem exec_cvtpF16 (d : RegNo) (a : RegNo) (b : RegNo) (rm : RmField) (sat : Bool) (s : State) :
    exec (.cvtpF16 d a b rm sat) s = execCvtpF16 d a b rm sat s := rfl
theorem exec_cvtpBf16 (d : RegNo) (a : RegNo) (b : RegNo) (rm : RmField) (sat : Bool) (s : State) :
    exec (.cvtpBf16 d a b rm sat) s = execCvtpBf16 d a b rm sat s := rfl
theorem exec_ffma (d : RegNo) (a : RegNo) (b : RegNo) (c : RegNo) (s : State) :
    exec (.ffma d a b c) s = execFfma d a b c s := rfl
theorem exec_dfma (d : RegNo) (a : RegNo) (b : RegNo) (c : RegNo) (s : State) :
    exec (.dfma d a b c) s = execDfma d a b c s := rfl
theorem exec_imad (d : RegNo) (a : RegNo) (b : RegNo) (c : RegNo) (s : State) :
    exec (.imad d a b c) s = execImad d a b c s := rfl
theorem exec_sel (d : RegNo) (a : RegNo) (b : RegNo) (c : RegNo) (s : State) :
    exec (.sel d a b c) s = execSel d a b c s := rfl

end Sys2Proof.Machine
end

