-- ==== Sys2Proof/Laws/Control.lean ====
section
/-! SUPPORT. Traps, parks, returns and transfers, each by what it does. -/

namespace Sys2Proof.Machine

theorem canonical_iff (v : DWord) : canonical v = true ↔ v.toNat < 2 ^ 56 ∨ 2 ^ 64 - 2 ^ 56 ≤ v.toNat := by
  have hb := v.isLt
  have h7 : (v.extractLsb' 57 7).toNat = v.toNat / 2 ^ 57 % 2 ^ 7 := by
    rw [BitVec.extractLsb'_toNat, Nat.shiftRight_eq_div_pow]
  have h56 : v.getLsbD 56 = decide (v.toNat / 2 ^ 56 % 2 = 1) := by
    show v.toNat.testBit 56 = _
    rw [Nat.testBit_eq_decide_div_mod_eq]
  have key : canonical v = true ↔ (v.extractLsb' 57 7).toNat = if v.toNat / 2 ^ 56 % 2 = 1 then 127 else 0 := by
    unfold canonical
    rw [h56, beq_iff_eq]
    constructor
    · intro h; rw [h]
      by_cases h1 : v.toNat / 2 ^ 56 % 2 = 1
      · rw [if_pos (decide_eq_true h1), if_pos h1]; rfl
      · rw [if_neg (fun hd => h1 (of_decide_eq_true hd)), if_neg h1]; rfl
    · intro h
      apply BitVec.eq_of_toNat_eq
      rw [h]
      by_cases h1 : v.toNat / 2 ^ 56 % 2 = 1
      · rw [if_pos h1, if_pos (decide_eq_true h1)] <;> rfl
      · rw [if_neg h1, if_neg (fun hd => h1 (of_decide_eq_true hd))] <;> rfl
  rw [key, h7]
  split <;> omega

theorem low2_iff (v : DWord) : v.extractLsb' 0 2 = 0#2 ↔ v.toNat % 4 = 0 := by
  rw [← BitVec.toNat_inj, BitVec.extractLsb'_toNat]; simp

theorem window_iff (v a : DWord) : v.extractLsb' 32 32 = a.extractLsb' 32 32 ↔ v.toNat / 2 ^ 32 = a.toNat / 2 ^ 32 := by
  have := v.isLt; have := a.isLt
  rw [← BitVec.toNat_inj, BitVec.extractLsb'_toNat, BitVec.extractLsb'_toNat, Nat.shiftRight_eq_div_pow,
    Nat.shiftRight_eq_div_pow]
  omega

/-- A good target passes the checks of R116. -/
theorem targetCheck_none {w : Bool} {a v : DWord} (h : GoodTarget w a v) :
    targetCheck (if w then some a else none) v = none := by
  obtain ⟨h1, h2, h3⟩ := h
  have c := (canonical_iff v).2 h3
  have l := (low2_iff v).2 h1
  unfold targetCheck
  cases w
  · simp [l, c, outside]
  · have := (window_iff v a).2 (h2 rfl)
    simp [l, c, outside, this]

/-- A misaligned target fails with ALIGN, and any other that is not good with ADDR. -/
theorem targetCheck_some {w : Bool} {a v : DWord} (h : ¬ GoodTarget w a v) :
    targetCheck (if w then some a else none) v = some (if v.toNat % 4 = 0 then 0x04 else 0x03) := by
  unfold targetCheck
  by_cases h1 : v.toNat % 4 = 0
  · have l := (low2_iff v).2 h1
    rw [if_neg (by simp [l]), if_pos h1]
    by_cases h2 : w = true → v.toNat / 2 ^ 32 = a.toNat / 2 ^ 32
    · have h3 : ¬ canonical v = true := fun c => h ⟨h1, h2, (canonical_iff v).1 c⟩
      cases w
      · simp [outside, h3]
      · simp [outside, h3]
    · cases w
      · simp at h2
      · have h3 : ¬ v.extractLsb' 32 32 = a.extractLsb' 32 32 := fun e => h2 fun _ => (window_iff v a).1 e
        simp [outside, h3]
  · have l : ¬ v.extractLsb' 0 2 = 0#2 := fun e => h1 ((low2_iff v).1 e)
    rw [if_pos l, if_neg h1]

/-- A transfer to a good target. -/
theorem State.transfer_good (s : State) {w : Bool} {v : DWord} (k : State → State) (h : GoodTarget w s.fr.first v) :
    s.transfer w v k = (k s).jump v := by
  unfold State.transfer; rw [targetCheck_none h]

/-- A transfer to a bad target traps. -/
theorem State.transfer_bad (s : State) {w : Bool} {v : DWord} (k : State → State) (h : ¬ GoodTarget w s.fr.first v) :
    s.transfer w v k = s.raise (if v.toNat % 4 = 0 then 0x04 else 0x03) v none := by
  unfold State.transfer; rw [targetCheck_some h]

theorem setBit_getLsbD (w : Word) (i j : Nat) (b : Bool) (hi : i < 32) :
    (setBit w i b).getLsbD j = if j = i then b else w.getLsbD j := by
  have h2 : (BitVec.ofNat 32 (2 ^ i)).getLsbD j = decide (j = i) := by
    rw [BitVec.getLsbD_ofNat, Nat.testBit_two_pow]
    by_cases h : i = j
    · subst h; simp [hi]
    · simp [h, Ne.symm h]
  unfold setBit
  cases b
  · simp only [Bool.false_eq_true, if_false, BitVec.getLsbD_and, BitVec.getLsbD_not, h2]
    by_cases h : j = i
    · simp [h]
    · by_cases hj : j < 32
      · simp [h, hj]
      · simp [h, BitVec.getLsbD_of_ge w j (by omega)]
  · simp only [if_true, BitVec.getLsbD_or, h2]
    by_cases h : j = i <;> simp [h]

/-- The bits of `tctl` after TR, PMODE and MODE have been written. -/
theorem Thread.setModes_bits (t : Thread) (tr pmode mode : Bool) (i : Nat) :
    (t.setModes tr pmode mode).tctl.getLsbD i =
      if i = 8 then tr else if i = 7 then pmode else if i = 6 then mode else t.tctl.getLsbD i := by
  show (setBit (setBit (setBit t.tctl 8 tr) 7 pmode) 6 mode).getLsbD i = _
  rw [setBit_getLsbD _ _ _ _ (by decide), setBit_getLsbD _ _ _ _ (by decide), setBit_getLsbD _ _ _ _ (by decide)]
  by_cases h6 : i = 6
  · subst h6; simp
  · by_cases h7 : i = 7
    · subst h7; simp
    · simp [h6, h7]

/-- The rest of a thread after TR, PMODE and MODE have been written. -/
theorem Thread.setModes_rest (t : Thread) (tr pmode mode : Bool) :
    t.setModes tr pmode mode = { t with tctl := (t.setModes tr pmode mode).tctl } := rfl

/-- Going to a handler (R145). -/
theorem State.deliver_spec (s : State) :
    s.deliver = { s with t := s.deliver.t, fr := { s.fr with stopped := true } } ∧
    s.deliver.t = { s.t with
      tctl := s.deliver.t.tctl
      pc := if s.t.mode = false ∧ s.t.tvec ≠ 0#64 then s.t.tvec else s.t.svec
      landed := true } ∧
    ∀ i, s.deliver.t.tctl.getLsbD i = if i = 8 then true else if i = 7 then s.t.mode
      else if i = 6 then decide ¬(s.t.mode = false ∧ s.t.tvec ≠ 0#64) else s.t.tctl.getLsbD i := by
  refine ⟨rfl, ?_⟩
  have key : ∀ b : Bool, (!s.t.mode && s.t.tvec != 0#64) = b →
      s.deliver.t = if b then { s.t.setModes true false false with pc := s.t.tvec, landed := true }
        else { s.t.setModes true s.t.mode true with pc := s.t.svec, landed := true } := by
    intro b hb; show (if (!s.t.mode && s.t.tvec != 0#64) = true then _ else _) = _; rw [hb]
  by_cases h : s.t.mode = false ∧ s.t.tvec ≠ 0#64
  · have := key true (by simp [h.1, h.2])
    rw [this]
    refine ⟨by rw [if_pos h]; rfl, fun i => ?_⟩
    show (s.t.setModes true false false).tctl.getLsbD i = _
    rw [Thread.setModes_bits]; simp [h]
  · have := key false (by
      apply Bool.eq_false_iff.2; intro e; apply h; simpa using e)
    rw [this]
    refine ⟨by rw [if_neg h]; rfl, fun i => ?_⟩
    show (s.t.setModes true s.t.mode true).tctl.getLsbD i = _
    rw [Thread.setModes_bits, decide_eq_true h]

end Sys2Proof.Machine
end

