-- ==== Sys2Proof/Laws/PerInstr.lean ====
section
/-! SUPPORT. The fields of each format, the arms of the maps, and the round trip of every instruction through the
encoder and the decoder, one lemma for each constructor. -/

namespace Sys2Proof

/-- What an encoder writes, the decoder reads, with L as given. -/
def Laws.RoundTrip.Statement (i : Instr) : Prop :=
  ∀ l : BitVec 1, i.wellFormed = true → ∀ w ws, encodeWords l i = w :: ws → decodeWords w (ws.headD 0#32) = some i

theorem cut_le {v w s n : Nat} {x : BitVec v} {y : BitVec w} (h : w ≤ s) :
    (x ++ y).extractLsb' s n = x.extractLsb' (s - w) n := BitVec.extractLsb'_append_eq_of_le h
theorem cut_add {v w s n : Nat} {x : BitVec v} {y : BitVec w} (h : s + n ≤ w) :
    (x ++ y).extractLsb' s n = y.extractLsb' s n := BitVec.extractLsb'_append_eq_of_add_le h

@[simp] theorem fL_encRR (l k : BitVec 1) (op : BitVec 7) (d a b : RegNo) (f : BitVec 5) : fL (encRR l k op d a b f) = l := by
  unfold fL encRR; rw [cut_le (by decide), cut_le (by decide), cut_le (by decide), cut_le (by decide), cut_le (by decide), cut_le (by decide)]; exact BitVec.extractLsb'_eq_self
@[simp] theorem fK_encRR (l k : BitVec 1) (op : BitVec 7) (d a b : RegNo) (f : BitVec 5) : fK (encRR l k op d a b f) = k := by
  unfold fK encRR; rw [cut_le (by decide), cut_le (by decide), cut_le (by decide), cut_le (by decide), cut_le (by decide), cut_add (by decide)]; exact BitVec.extractLsb'_eq_self
@[simp] theorem fOp_encRR (l k : BitVec 1) (op : BitVec 7) (d a b : RegNo) (f : BitVec 5) : fOp (encRR l k op d a b f) = op := by
  unfold fOp encRR; rw [cut_le (by decide), cut_le (by decide), cut_le (by decide), cut_le (by decide), cut_add (by decide)]; exact BitVec.extractLsb'_eq_self
@[simp] theorem fD_encRR (l k : BitVec 1) (op : BitVec 7) (d a b : RegNo) (f : BitVec 5) : fD (encRR l k op d a b f) = d := by
  unfold fD encRR; rw [cut_le (by decide), cut_le (by decide), cut_le (by decide), cut_add (by decide)]; exact BitVec.extractLsb'_eq_self
@[simp] theorem fA_encRR (l k : BitVec 1) (op : BitVec 7) (d a b : RegNo) (f : BitVec 5) : fA (encRR l k op d a b f) = a := by
  unfold fA encRR; rw [cut_le (by decide), cut_le (by decide), cut_add (by decide)]; exact BitVec.extractLsb'_eq_self
@[simp] theorem fB_encRR (l k : BitVec 1) (op : BitVec 7) (d a b : RegNo) (f : BitVec 5) : fB (encRR l k op d a b f) = b := by
  unfold fB encRR; rw [cut_le (by decide), cut_add (by decide)]; exact BitVec.extractLsb'_eq_self
@[simp] theorem fF_encRR (l k : BitVec 1) (op : BitVec 7) (d a b : RegNo) (f : BitVec 5) : fF (encRR l k op d a b f) = f := by
  unfold fF encRR; rw [cut_add (by decide)]; exact BitVec.extractLsb'_eq_self
@[simp] theorem fL_encRI (l k : BitVec 1) (op : BitVec 7) (d a : RegNo) (imm : BitVec 11) : fL (encRI l k op d a imm) = l := by
  unfold fL encRI; rw [cut_le (by decide), cut_le (by decide), cut_le (by decide), cut_le (by decide), cut_le (by decide)]; exact BitVec.extractLsb'_eq_self
@[simp] theorem fK_encRI (l k : BitVec 1) (op : BitVec 7) (d a : RegNo) (imm : BitVec 11) : fK (encRI l k op d a imm) = k := by
  unfold fK encRI; rw [cut_le (by decide), cut_le (by decide), cut_le (by decide), cut_le (by decide), cut_add (by decide)]; exact BitVec.extractLsb'_eq_self
@[simp] theorem fOp_encRI (l k : BitVec 1) (op : BitVec 7) (d a : RegNo) (imm : BitVec 11) : fOp (encRI l k op d a imm) = op := by
  unfold fOp encRI; rw [cut_le (by decide), cut_le (by decide), cut_le (by decide), cut_add (by decide)]; exact BitVec.extractLsb'_eq_self
@[simp] theorem fD_encRI (l k : BitVec 1) (op : BitVec 7) (d a : RegNo) (imm : BitVec 11) : fD (encRI l k op d a imm) = d := by
  unfold fD encRI; rw [cut_le (by decide), cut_le (by decide), cut_add (by decide)]; exact BitVec.extractLsb'_eq_self
@[simp] theorem fA_encRI (l k : BitVec 1) (op : BitVec 7) (d a : RegNo) (imm : BitVec 11) : fA (encRI l k op d a imm) = a := by
  unfold fA encRI; rw [cut_le (by decide), cut_add (by decide)]; exact BitVec.extractLsb'_eq_self
@[simp] theorem fImm11_encRI (l k : BitVec 1) (op : BitVec 7) (d a : RegNo) (imm : BitVec 11) : fImm11 (encRI l k op d a imm) = imm := by
  unfold fImm11 encRI; rw [cut_add (by decide)]; exact BitVec.extractLsb'_eq_self
@[simp] theorem fL_encRU (l k : BitVec 1) (op : BitVec 7) (d : RegNo) (imm : BitVec 17) : fL (encRU l k op d imm) = l := by
  unfold fL encRU; rw [cut_le (by decide), cut_le (by decide), cut_le (by decide), cut_le (by decide)]; exact BitVec.extractLsb'_eq_self
@[simp] theorem fK_encRU (l k : BitVec 1) (op : BitVec 7) (d : RegNo) (imm : BitVec 17) : fK (encRU l k op d imm) = k := by
  unfold fK encRU; rw [cut_le (by decide), cut_le (by decide), cut_le (by decide), cut_add (by decide)]; exact BitVec.extractLsb'_eq_self
@[simp] theorem fOp_encRU (l k : BitVec 1) (op : BitVec 7) (d : RegNo) (imm : BitVec 17) : fOp (encRU l k op d imm) = op := by
  unfold fOp encRU; rw [cut_le (by decide), cut_le (by decide), cut_add (by decide)]; exact BitVec.extractLsb'_eq_self
@[simp] theorem fD_encRU (l k : BitVec 1) (op : BitVec 7) (d : RegNo) (imm : BitVec 17) : fD (encRU l k op d imm) = d := by
  unfold fD encRU; rw [cut_le (by decide), cut_add (by decide)]; exact BitVec.extractLsb'_eq_self
@[simp] theorem fImm17_encRU (l k : BitVec 1) (op : BitVec 7) (d : RegNo) (imm : BitVec 17) : fImm17 (encRU l k op d imm) = imm := by
  unfold fImm17 encRU; rw [cut_add (by decide)]; exact BitVec.extractLsb'_eq_self
@[simp] theorem fL_encJ (l k : BitVec 1) (op : BitVec 7) (off : BitVec 23) : fL (encJ l k op off) = l := by
  unfold fL encJ; rw [cut_le (by decide), cut_le (by decide), cut_le (by decide)]; exact BitVec.extractLsb'_eq_self
@[simp] theorem fK_encJ (l k : BitVec 1) (op : BitVec 7) (off : BitVec 23) : fK (encJ l k op off) = k := by
  unfold fK encJ; rw [cut_le (by decide), cut_le (by decide), cut_add (by decide)]; exact BitVec.extractLsb'_eq_self
@[simp] theorem fOp_encJ (l k : BitVec 1) (op : BitVec 7) (off : BitVec 23) : fOp (encJ l k op off) = op := by
  unfold fOp encJ; rw [cut_le (by decide), cut_add (by decide)]; exact BitVec.extractLsb'_eq_self
@[simp] theorem fOff23_encJ (l k : BitVec 1) (op : BitVec 7) (off : BitVec 23) : fOff23 (encJ l k op off) = off := by
  unfold fOff23 encJ; rw [cut_add (by decide)]; exact BitVec.extractLsb'_eq_self
@[simp] theorem fL_encM (l k : BitVec 1) (op : BitVec 7) (d a : RegNo) (sp : BitVec 2) (imm : BitVec 9) : fL (encM l k op d a sp imm) = l := by
  unfold fL encM; rw [cut_le (by decide), cut_le (by decide), cut_le (by decide), cut_le (by decide), cut_le (by decide), cut_le (by decide)]; exact BitVec.extractLsb'_eq_self
@[simp] theorem fK_encM (l k : BitVec 1) (op : BitVec 7) (d a : RegNo) (sp : BitVec 2) (imm : BitVec 9) : fK (encM l k op d a sp imm) = k := by
  unfold fK encM; rw [cut_le (by decide), cut_le (by decide), cut_le (by decide), cut_le (by decide), cut_le (by decide), cut_add (by decide)]; exact BitVec.extractLsb'_eq_self
@[simp] theorem fOp_encM (l k : BitVec 1) (op : BitVec 7) (d a : RegNo) (sp : BitVec 2) (imm : BitVec 9) : fOp (encM l k op d a sp imm) = op := by
  unfold fOp encM; rw [cut_le (by decide), cut_le (by decide), cut_le (by decide), cut_le (by decide), cut_add (by decide)]; exact BitVec.extractLsb'_eq_self
@[simp] theorem fD_encM (l k : BitVec 1) (op : BitVec 7) (d a : RegNo) (sp : BitVec 2) (imm : BitVec 9) : fD (encM l k op d a sp imm) = d := by
  unfold fD encM; rw [cut_le (by decide), cut_le (by decide), cut_le (by decide), cut_add (by decide)]; exact BitVec.extractLsb'_eq_self
@[simp] theorem fA_encM (l k : BitVec 1) (op : BitVec 7) (d a : RegNo) (sp : BitVec 2) (imm : BitVec 9) : fA (encM l k op d a sp imm) = a := by
  unfold fA encM; rw [cut_le (by decide), cut_le (by decide), cut_add (by decide)]; exact BitVec.extractLsb'_eq_self
@[simp] theorem fSp_encM (l k : BitVec 1) (op : BitVec 7) (d a : RegNo) (sp : BitVec 2) (imm : BitVec 9) : fSp (encM l k op d a sp imm) = sp := by
  unfold fSp encM; rw [cut_le (by decide), cut_add (by decide)]; exact BitVec.extractLsb'_eq_self
@[simp] theorem fImm9_encM (l k : BitVec 1) (op : BitVec 7) (d a : RegNo) (sp : BitVec 2) (imm : BitVec 9) : fImm9 (encM l k op d a sp imm) = imm := by
  unfold fImm9 encM; rw [cut_add (by decide)]; exact BitVec.extractLsb'_eq_self
@[simp] theorem fL_encMO (l k : BitVec 1) (op : BitVec 7) (d a b : RegNo) (sc : BitVec 3) (od : BitVec 2) : fL (encMO l k op d a b sc od) = l := by
  unfold fL encMO; rw [cut_le (by decide), cut_le (by decide), cut_le (by decide), cut_le (by decide), cut_le (by decide), cut_le (by decide), cut_le (by decide)]; exact BitVec.extractLsb'_eq_self
@[simp] theorem fK_encMO (l k : BitVec 1) (op : BitVec 7) (d a b : RegNo) (sc : BitVec 3) (od : BitVec 2) : fK (encMO l k op d a b sc od) = k := by
  unfold fK encMO; rw [cut_le (by decide), cut_le (by decide), cut_le (by decide), cut_le (by decide), cut_le (by decide), cut_le (by decide), cut_add (by decide)]; exact BitVec.extractLsb'_eq_self
@[simp] theorem fOp_encMO (l k : BitVec 1) (op : BitVec 7) (d a b : RegNo) (sc : BitVec 3) (od : BitVec 2) : fOp (encMO l k op d a b sc od) = op := by
  unfold fOp encMO; rw [cut_le (by decide), cut_le (by decide), cut_le (by decide), cut_le (by decide), cut_le (by decide), cut_add (by decide)]; exact BitVec.extractLsb'_eq_self
@[simp] theorem fD_encMO (l k : BitVec 1) (op : BitVec 7) (d a b : RegNo) (sc : BitVec 3) (od : BitVec 2) : fD (encMO l k op d a b sc od) = d := by
  unfold fD encMO; rw [cut_le (by decide), cut_le (by decide), cut_le (by decide), cut_le (by decide), cut_add (by decide)]; exact BitVec.extractLsb'_eq_self
@[simp] theorem fA_encMO (l k : BitVec 1) (op : BitVec 7) (d a b : RegNo) (sc : BitVec 3) (od : BitVec 2) : fA (encMO l k op d a b sc od) = a := by
  unfold fA encMO; rw [cut_le (by decide), cut_le (by decide), cut_le (by decide), cut_add (by decide)]; exact BitVec.extractLsb'_eq_self
@[simp] theorem fB_encMO (l k : BitVec 1) (op : BitVec 7) (d a b : RegNo) (sc : BitVec 3) (od : BitVec 2) : fB (encMO l k op d a b sc od) = b := by
  unfold fB encMO; rw [cut_le (by decide), cut_le (by decide), cut_add (by decide)]; exact BitVec.extractLsb'_eq_self
@[simp] theorem fMid_encMO (l k : BitVec 1) (op : BitVec 7) (d a b : RegNo) (sc : BitVec 3) (od : BitVec 2) : fMid (encMO l k op d a b sc od) = sc := by
  unfold fMid encMO; rw [cut_le (by decide), cut_add (by decide)]; exact BitVec.extractLsb'_eq_self
@[simp] theorem fOrd_encMO (l k : BitVec 1) (op : BitVec 7) (d a b : RegNo) (sc : BitVec 3) (od : BitVec 2) : fOrd (encMO l k op d a b sc od) = od := by
  unfold fOrd encMO; rw [cut_add (by decide)]; exact BitVec.extractLsb'_eq_self
@[simp] theorem fL_encCV (l k : BitVec 1) (op : BitVec 7) (d a b : RegNo) (rm : BitVec 3) (sat h : BitVec 1) : fL (encCV l k op d a b rm sat h) = l := by
  unfold fL encCV; rw [cut_le (by decide), cut_le (by decide), cut_le (by decide), cut_le (by decide), cut_le (by decide), cut_le (by decide), cut_le (by decide), cut_le (by decide)]; exact BitVec.extractLsb'_eq_self
@[simp] theorem fK_encCV (l k : BitVec 1) (op : BitVec 7) (d a b : RegNo) (rm : BitVec 3) (sat h : BitVec 1) : fK (encCV l k op d a b rm sat h) = k := by
  unfold fK encCV; rw [cut_le (by decide), cut_le (by decide), cut_le (by decide), cut_le (by decide), cut_le (by decide), cut_le (by decide), cut_le (by decide), cut_add (by decide)]; exact BitVec.extractLsb'_eq_self
@[simp] theorem fOp_encCV (l k : BitVec 1) (op : BitVec 7) (d a b : RegNo) (rm : BitVec 3) (sat h : BitVec 1) : fOp (encCV l k op d a b rm sat h) = op := by
  unfold fOp encCV; rw [cut_le (by decide), cut_le (by decide), cut_le (by decide), cut_le (by decide), cut_le (by decide), cut_le (by decide), cut_add (by decide)]; exact BitVec.extractLsb'_eq_self
@[simp] theorem fD_encCV (l k : BitVec 1) (op : BitVec 7) (d a b : RegNo) (rm : BitVec 3) (sat h : BitVec 1) : fD (encCV l k op d a b rm sat h) = d := by
  unfold fD encCV; rw [cut_le (by decide), cut_le (by decide), cut_le (by decide), cut_le (by decide), cut_le (by decide), cut_add (by decide)]; exact BitVec.extractLsb'_eq_self
@[simp] theorem fA_encCV (l k : BitVec 1) (op : BitVec 7) (d a b : RegNo) (rm : BitVec 3) (sat h : BitVec 1) : fA (encCV l k op d a b rm sat h) = a := by
  unfold fA encCV; rw [cut_le (by decide), cut_le (by decide), cut_le (by decide), cut_le (by decide), cut_add (by decide)]; exact BitVec.extractLsb'_eq_self
@[simp] theorem fB_encCV (l k : BitVec 1) (op : BitVec 7) (d a b : RegNo) (rm : BitVec 3) (sat h : BitVec 1) : fB (encCV l k op d a b rm sat h) = b := by
  unfold fB encCV; rw [cut_le (by decide), cut_le (by decide), cut_le (by decide), cut_add (by decide)]; exact BitVec.extractLsb'_eq_self
@[simp] theorem fMid_encCV (l k : BitVec 1) (op : BitVec 7) (d a b : RegNo) (rm : BitVec 3) (sat h : BitVec 1) : fMid (encCV l k op d a b rm sat h) = rm := by
  unfold fMid encCV; rw [cut_le (by decide), cut_le (by decide), cut_add (by decide)]; exact BitVec.extractLsb'_eq_self
@[simp] theorem fSat_encCV (l k : BitVec 1) (op : BitVec 7) (d a b : RegNo) (rm : BitVec 3) (sat h : BitVec 1) : fSat (encCV l k op d a b rm sat h) = sat := by
  unfold fSat encCV; rw [cut_le (by decide), cut_add (by decide)]; exact BitVec.extractLsb'_eq_self
@[simp] theorem fH_encCV (l k : BitVec 1) (op : BitVec 7) (d a b : RegNo) (rm : BitVec 3) (sat h : BitVec 1) : fH (encCV l k op d a b rm sat h) = h := by
  unfold fH encCV; rw [cut_add (by decide)]; exact BitVec.extractLsb'_eq_self
@[simp] theorem fSub_encF4 (l : BitVec 1) (sub : BitVec 2) (d a b c : RegNo) : fSub (encF4 l sub d a b c) = sub := by
  unfold fSub encF4; rw [cut_le (by decide), cut_le (by decide), cut_le (by decide), cut_le (by decide), cut_add (by decide)]; exact BitVec.extractLsb'_eq_self
@[simp] theorem f4D_encF4 (l : BitVec 1) (sub : BitVec 2) (d a b c : RegNo) : f4D (encF4 l sub d a b c) = d := by
  unfold f4D encF4; rw [cut_le (by decide), cut_le (by decide), cut_le (by decide), cut_add (by decide)]; exact BitVec.extractLsb'_eq_self
@[simp] theorem f4A_encF4 (l : BitVec 1) (sub : BitVec 2) (d a b c : RegNo) : f4A (encF4 l sub d a b c) = a := by
  unfold f4A encF4; rw [cut_le (by decide), cut_le (by decide), cut_add (by decide)]; exact BitVec.extractLsb'_eq_self
@[simp] theorem f4B_encF4 (l : BitVec 1) (sub : BitVec 2) (d a b c : RegNo) : f4B (encF4 l sub d a b c) = b := by
  unfold f4B encF4; rw [cut_le (by decide), cut_add (by decide)]; exact BitVec.extractLsb'_eq_self
@[simp] theorem f4C_encF4 (l : BitVec 1) (sub : BitVec 2) (d a b c : RegNo) : f4C (encF4 l sub d a b c) = c := by
  unfold f4C encF4; rw [cut_add (by decide)]; exact BitVec.extractLsb'_eq_self

@[simp] theorem fF_encRI (l k : BitVec 1) (op : BitVec 7) (d a : RegNo) (x : BitVec 6) (f : BitVec 5) :
    fF (encRI l k op d a (x ++ f)) = f := by
  unfold fF encRI; rw [cut_add (by decide), cut_add (by decide)]; exact BitVec.extractLsb'_eq_self
@[simp] theorem mid_encRI (l k : BitVec 1) (op : BitVec 7) (d a : RegNo) (x : BitVec 6) (f : BitVec 5) :
    (encRI l k op d a (x ++ f)).extractLsb' 5 6 = x := by
  unfold encRI; rw [cut_add (by decide), cut_le (by decide)]; exact BitVec.extractLsb'_eq_self

@[simp] theorem decScope_encScope (s : Scope) : decScope (encScope s) = some s := by cases s <;> rfl
@[simp] theorem decOrd_encOrd (o : Ord) : decOrd (encOrd o) = o := by cases o <;> rfl
@[simp] theorem decFenceOrd_encFenceOrd (o : FenceOrd) : decFenceOrd (encFenceOrd o) = o := by cases o <;> rfl
@[simp] theorem decSpace_encSpace (s : Space) : decSpace (encSpace s) = some s := by cases s <;> rfl
@[simp] theorem decRm_encRm (r : RmField) : decRm (encRm r) = some r := by cases r <;> rfl
@[simp] theorem bit1_ofBit (b : Bool) : bit1 (ofBit b) = b := by cases b <;> rfl
@[simp] theorem needZero_zero {n : Nat} (r : Option Instr) : needZero (0 : BitVec n) r = r := rfl
@[simp] theorem needZero_zero' {n : Nat} (r : Option Instr) : needZero (BitVec.ofNat n 0) r = r := by simp [needZero]

theorem rawC_00 (w : Word) (h : fOp w = 0x00#7) : rawC w = (some (.bra (fOff23 w))) := by
  unfold rawC; rw [h]; rfl
theorem rawC_01 (w : Word) (h : fOp w = 0x01#7) : rawC w = (some (.call (fOff23 w))) := by
  unfold rawC; rw [h]; rfl
theorem rawC_02 (w : Word) (h : fOp w = 0x02#7) : rawC w = (some (.bz (fD w) (fImm17 w))) := by
  unfold rawC; rw [h]; rfl
theorem rawC_03 (w : Word) (h : fOp w = 0x03#7) : rawC w = (some (.bnz (fD w) (fImm17 w))) := by
  unfold rawC; rw [h]; rfl
theorem rawC_04 (w : Word) (h : fOp w = 0x04#7) : rawC w = (some (.beq (fD w) (fA w) (fImm11 w))) := by
  unfold rawC; rw [h]; rfl
theorem rawC_05 (w : Word) (h : fOp w = 0x05#7) : rawC w = (some (.bne (fD w) (fA w) (fImm11 w))) := by
  unfold rawC; rw [h]; rfl
theorem rawC_06 (w : Word) (h : fOp w = 0x06#7) : rawC w = (some (.blt (fD w) (fA w) (fImm11 w))) := by
  unfold rawC; rw [h]; rfl
theorem rawC_07 (w : Word) (h : fOp w = 0x07#7) : rawC w = (some (.bge (fD w) (fA w) (fImm11 w))) := by
  unfold rawC; rw [h]; rfl
theorem rawC_08 (w : Word) (h : fOp w = 0x08#7) : rawC w = (some (.blo (fD w) (fA w) (fImm11 w))) := by
  unfold rawC; rw [h]; rfl
theorem rawC_09 (w : Word) (h : fOp w = 0x09#7) : rawC w = (some (.bhs (fD w) (fA w) (fImm11 w))) := by
  unfold rawC; rw [h]; rfl
theorem rawC_0A (w : Word) (h : fOp w = 0x0A#7) : rawC w = (some (.spawn (fD w) (fImm17 w))) := by
  unfold rawC; rw [h]; rfl
theorem rawC_0E (w : Word) (h : fOp w = 0x0E#7) : rawC w = rawCOp0E w := by
  unfold rawC; rw [h]; rfl
theorem rawCOp0E_0 (w : Word) (h : fF w = 0#5) : rawCOp0E w = (needZero (fD w) <| needZero (fB w) <| some (.callr (fA w))) := by
  unfold rawCOp0E; rw [h]; rfl
theorem rawCOp0E_1 (w : Word) (h : fF w = 1#5) : rawCOp0E w = (needZero (fD w) <| needZero (fA w) <| needZero (fB w) <| some .ret) := by
  unfold rawCOp0E; rw [h]; rfl
theorem rawCOp0E_2 (w : Word) (h : fF w = 2#5) : rawCOp0E w = (needZero (fD w) <| needZero (fB w) <| some (.jr (fA w))) := by
  unfold rawCOp0E; rw [h]; rfl
theorem rawC_0F (w : Word) (h : fOp w = 0x0F#7) : rawC w = rawCOp0F w := by
  unfold rawC; rw [h]; rfl
theorem rawCOp0F_0 (w : Word) (h : fF w = 0#5) : rawCOp0F w = (needZero (fD w) <| needZero (fA w) <| needZero (fB w) <| some .exit) := by
  unfold rawCOp0F; rw [h]; rfl
theorem rawCOp0F_1 (w : Word) (h : fF w = 1#5) : rawCOp0F w = (needZero (fD w) <| needZero (fA w) <| needZero (fB w) <| some .pause) := by
  unfold rawCOp0F; rw [h]; rfl
theorem rawCOp0F_2 (w : Word) (h : fF w = 2#5) : rawCOp0F w = (needZero (fD w) <| needZero (fA w) <| needZero (fB w) <| some .tdone) := by
  unfold rawCOp0F; rw [h]; rfl
theorem rawCOp0F_3 (w : Word) (h : fF w = 3#5) : rawCOp0F w = (needZero (fD w) <| needZero (fB w) <| some (.join (fA w))) := by
  unfold rawCOp0F; rw [h]; rfl
theorem rawCOp0F_4 (w : Word) (h : fF w = 4#5) : rawCOp0F w = (needZero (fD w) <| needZero (fB w) <| some (.tkill (fA w))) := by
  unfold rawCOp0F; rw [h]; rfl
theorem rawCOp0F_5 (w : Word) (h : fF w = 5#5) : rawCOp0F w = (needZero (fD w) <| needZero (fB w) <| some (.tresume (fA w))) := by
  unfold rawCOp0F; rw [h]; rfl
theorem rawC_10 (w : Word) (h : fOp w = 0x10#7) : rawC w = (needZero (fD w) <| some (.trap (fImm17 w))) := by
  unfold rawC; rw [h]; rfl
theorem rawC_11 (w : Word) (h : fOp w = 0x11#7) : rawC w = (needZero (fA w) <| some (.sget (fD w) (fImm11 w))) := by
  unfold rawC; rw [h]; rfl
theorem rawC_12 (w : Word) (h : fOp w = 0x12#7) : rawC w = (needZero (fD w) <| some (.sset (fA w) (fImm11 w))) := by
  unfold rawC; rw [h]; rfl
theorem rawC_13 (w : Word) (h : fOp w = 0x13#7) : rawC w = rawCOp13 w := by
  unfold rawC; rw [h]; rfl
theorem rawCOp13_0 (w : Word) (h : fF w = 0#5) : rawCOp13 w = (needZero (fD w) <| needZero (fA w) <| needZero (fB w) <| some .brk) := by
  unfold rawCOp13; rw [h]; rfl
theorem rawCOp13_1 (w : Word) (h : fF w = 1#5) : rawCOp13 w = (needZero (fD w) <| needZero (fA w) <| needZero (fB w) <| some .tret) := by
  unfold rawCOp13; rw [h]; rfl
theorem rawCOp13_2 (w : Word) (h : fF w = 2#5) : rawCOp13 w = (needZero (fD w) <| needZero (fA w) <| needZero (fB w) <| some .fenceI) := by
  unfold rawCOp13; rw [h]; rfl
theorem rawCOp13_3 (w : Word) (h : fF w = 3#5) : rawCOp13 w = (needZero (fD w) <| needZero (fB w) <| some (.tlbi (fA w))) := by
  unfold rawCOp13; rw [h]; rfl
theorem rawCOp13_4 (w : Word) (h : fF w = 4#5) : rawCOp13 w = (needZero (fD w) <| needZero (fB w) <| some (.tlbiAsn (fA w))) := by
  unfold rawCOp13; rw [h]; rfl
theorem rawCOp13_5 (w : Word) (h : fF w = 5#5) : rawCOp13 w = (needZero (fD w) <| needZero (fA w) <| needZero (fB w) <| some .tlbiAll) := by
  unfold rawCOp13; rw [h]; rfl
theorem rawCOp13_6 (w : Word) (h : fF w = 6#5) : rawCOp13 w = (needZero (fD w) <| needZero (fB w) <| some (.chime (fA w))) := by
  unfold rawCOp13; rw [h]; rfl
theorem rawCOp13_7 (w : Word) (h : fF w = 7#5) : rawCOp13 w = (needZero (fD w) <| some (.l2pin (fA w) (fB w))) := by
  unfold rawCOp13; rw [h]; rfl
theorem rawCOp13_8 (w : Word) (h : fF w = 8#5) : rawCOp13 w = (needZero (fD w) <| some (.l2unpin (fA w) (fB w))) := by
  unfold rawCOp13; rw [h]; rfl
theorem rawCOp13_9 (w : Word) (h : fF w = 9#5) : rawCOp13 w = (needZero (fD w) <| some (.rgnSet (fA w) (fB w))) := by
  unfold rawCOp13; rw [h]; rfl
theorem rawCOp13_10 (w : Word) (h : fF w = 10#5) : rawCOp13 w = (needZero (fD w) <| needZero (fB w) <| some (.rgnAcq (fA w))) := by
  unfold rawCOp13; rw [h]; rfl
theorem rawCOp13_11 (w : Word) (h : fF w = 11#5) : rawCOp13 w = (needZero (fD w) <| needZero (fB w) <| some (.rgnRel (fA w))) := by
  unfold rawCOp13; rw [h]; rfl
theorem rawC_14 (w : Word) (h : fOp w = 0x14#7) : rawC w = (needZero (fD w) <| (decScope (fMid w)).bind fun sc => some (.waiteqW (fA w) (fB w) sc (decOrd (fOrd w)))) := by
  unfold rawC; rw [h]; rfl
theorem rawC_15 (w : Word) (h : fOp w = 0x15#7) : rawC w = (needZero (fD w) <| (decScope (fMid w)).bind fun sc => some (.waitneW (fA w) (fB w) sc (decOrd (fOrd w)))) := by
  unfold rawC; rw [h]; rfl
theorem rawC_16 (w : Word) (h : fOp w = 0x16#7) : rawC w = (needZero (fD w) <| (decScope (fMid w)).bind fun sc => some (.waiteqD (fA w) (fB w) sc (decOrd (fOrd w)))) := by
  unfold rawC; rw [h]; rfl
theorem rawC_17 (w : Word) (h : fOp w = 0x17#7) : rawC w = (needZero (fD w) <| (decScope (fMid w)).bind fun sc => some (.waitneD (fA w) (fB w) sc (decOrd (fOrd w)))) := by
  unfold rawC; rw [h]; rfl
theorem rawC_20 (w : Word) (h : fOp w = 0x20#7) : rawC w = ((decSpace (fSp w)).bind fun sp => some (.ld8s (fD w) (fA w) sp (fImm9 w))) := by
  unfold rawC; rw [h]; rfl
theorem rawC_21 (w : Word) (h : fOp w = 0x21#7) : rawC w = ((decSpace (fSp w)).bind fun sp => some (.ld8z (fD w) (fA w) sp (fImm9 w))) := by
  unfold rawC; rw [h]; rfl
theorem rawC_22 (w : Word) (h : fOp w = 0x22#7) : rawC w = ((decSpace (fSp w)).bind fun sp => some (.ld16s (fD w) (fA w) sp (fImm9 w))) := by
  unfold rawC; rw [h]; rfl
theorem rawC_23 (w : Word) (h : fOp w = 0x23#7) : rawC w = ((decSpace (fSp w)).bind fun sp => some (.ld16z (fD w) (fA w) sp (fImm9 w))) := by
  unfold rawC; rw [h]; rfl
theorem rawC_24 (w : Word) (h : fOp w = 0x24#7) : rawC w = ((decSpace (fSp w)).bind fun sp => some (.ld32 (fD w) (fA w) sp (fImm9 w))) := by
  unfold rawC; rw [h]; rfl
theorem rawC_25 (w : Word) (h : fOp w = 0x25#7) : rawC w = ((decSpace (fSp w)).bind fun sp => some (.ld64 (fD w) (fA w) sp (fImm9 w))) := by
  unfold rawC; rw [h]; rfl
theorem rawC_26 (w : Word) (h : fOp w = 0x26#7) : rawC w = ((decSpace (fSp w)).bind fun sp => some (.ld128 (fD w) (fA w) sp (fImm9 w))) := by
  unfold rawC; rw [h]; rfl
theorem rawC_27 (w : Word) (h : fOp w = 0x27#7) : rawC w = (needZero (fSp w) <| some (.pf (fD w) (fA w) (fImm9 w))) := by
  unfold rawC; rw [h]; rfl
theorem rawC_28 (w : Word) (h : fOp w = 0x28#7) : rawC w = ((decSpace (fSp w)).bind fun sp => some (.st8 (fD w) (fA w) sp (fImm9 w))) := by
  unfold rawC; rw [h]; rfl
theorem rawC_29 (w : Word) (h : fOp w = 0x29#7) : rawC w = ((decSpace (fSp w)).bind fun sp => some (.st16 (fD w) (fA w) sp (fImm9 w))) := by
  unfold rawC; rw [h]; rfl
theorem rawC_2A (w : Word) (h : fOp w = 0x2A#7) : rawC w = ((decSpace (fSp w)).bind fun sp => some (.st32 (fD w) (fA w) sp (fImm9 w))) := by
  unfold rawC; rw [h]; rfl
theorem rawC_2B (w : Word) (h : fOp w = 0x2B#7) : rawC w = ((decSpace (fSp w)).bind fun sp => some (.st64 (fD w) (fA w) sp (fImm9 w))) := by
  unfold rawC; rw [h]; rfl
theorem rawC_2C (w : Word) (h : fOp w = 0x2C#7) : rawC w = ((decSpace (fSp w)).bind fun sp => some (.st128 (fD w) (fA w) sp (fImm9 w))) := by
  unfold rawC; rw [h]; rfl
theorem rawC_2D (w : Word) (h : fOp w = 0x2D#7) : rawC w = (needZero (fB w) <| some (.ldm (fD w) (fA w) (fF w))) := by
  unfold rawC; rw [h]; rfl
theorem rawC_2E (w : Word) (h : fOp w = 0x2E#7) : rawC w = (needZero (fB w) <| some (.stm (fD w) (fA w) (fF w))) := by
  unfold rawC; rw [h]; rfl
theorem rawC_30 (w : Word) (h : fOp w = 0x30#7) : rawC w = (needZero (fB w) <| (decScope (fMid w)).bind fun sc => some (.ld8sOrd (fD w) (fA w) sc (decOrd (fOrd w)))) := by
  unfold rawC; rw [h]; rfl
theorem rawC_31 (w : Word) (h : fOp w = 0x31#7) : rawC w = (needZero (fB w) <| (decScope (fMid w)).bind fun sc => some (.ld8zOrd (fD w) (fA w) sc (decOrd (fOrd w)))) := by
  unfold rawC; rw [h]; rfl
theorem rawC_32 (w : Word) (h : fOp w = 0x32#7) : rawC w = (needZero (fB w) <| (decScope (fMid w)).bind fun sc => some (.ld16sOrd (fD w) (fA w) sc (decOrd (fOrd w)))) := by
  unfold rawC; rw [h]; rfl
theorem rawC_33 (w : Word) (h : fOp w = 0x33#7) : rawC w = (needZero (fB w) <| (decScope (fMid w)).bind fun sc => some (.ld16zOrd (fD w) (fA w) sc (decOrd (fOrd w)))) := by
  unfold rawC; rw [h]; rfl
theorem rawC_34 (w : Word) (h : fOp w = 0x34#7) : rawC w = (needZero (fB w) <| (decScope (fMid w)).bind fun sc => some (.ld32Ord (fD w) (fA w) sc (decOrd (fOrd w)))) := by
  unfold rawC; rw [h]; rfl
theorem rawC_35 (w : Word) (h : fOp w = 0x35#7) : rawC w = (needZero (fB w) <| (decScope (fMid w)).bind fun sc => some (.ld64Ord (fD w) (fA w) sc (decOrd (fOrd w)))) := by
  unfold rawC; rw [h]; rfl
theorem rawC_36 (w : Word) (h : fOp w = 0x36#7) : rawC w = (needZero (fB w) <| (decScope (fMid w)).bind fun sc => some (.ld128Ord (fD w) (fA w) sc (decOrd (fOrd w)))) := by
  unfold rawC; rw [h]; rfl
theorem rawC_37 (w : Word) (h : fOp w = 0x37#7) : rawC w = (needZero (fD w) <| needZero (fA w) <| needZero (fB w) <| (decScope (fMid w)).bind fun sc => some (.fence sc (decFenceOrd (fOrd w)))) := by
  unfold rawC; rw [h]; rfl
theorem rawC_38 (w : Word) (h : fOp w = 0x38#7) : rawC w = (needZero (fB w) <| (decScope (fMid w)).bind fun sc => some (.st8Ord (fD w) (fA w) sc (decOrd (fOrd w)))) := by
  unfold rawC; rw [h]; rfl
theorem rawC_39 (w : Word) (h : fOp w = 0x39#7) : rawC w = (needZero (fB w) <| (decScope (fMid w)).bind fun sc => some (.st16Ord (fD w) (fA w) sc (decOrd (fOrd w)))) := by
  unfold rawC; rw [h]; rfl
theorem rawC_3A (w : Word) (h : fOp w = 0x3A#7) : rawC w = (needZero (fB w) <| (decScope (fMid w)).bind fun sc => some (.st32Ord (fD w) (fA w) sc (decOrd (fOrd w)))) := by
  unfold rawC; rw [h]; rfl
theorem rawC_3B (w : Word) (h : fOp w = 0x3B#7) : rawC w = (needZero (fB w) <| (decScope (fMid w)).bind fun sc => some (.st64Ord (fD w) (fA w) sc (decOrd (fOrd w)))) := by
  unfold rawC; rw [h]; rfl
theorem rawC_3C (w : Word) (h : fOp w = 0x3C#7) : rawC w = (needZero (fB w) <| (decScope (fMid w)).bind fun sc => some (.st128Ord (fD w) (fA w) sc (decOrd (fOrd w)))) := by
  unfold rawC; rw [h]; rfl
theorem rawC_40 (w : Word) (h : fOp w = 0x40#7) : rawC w = ((decScope (fMid w)).bind fun sc => some (.amoAddW (fD w) (fA w) (fB w) sc (decOrd (fOrd w)))) := by
  unfold rawC; rw [h]; rfl
theorem rawC_41 (w : Word) (h : fOp w = 0x41#7) : rawC w = ((decScope (fMid w)).bind fun sc => some (.amoAddD (fD w) (fA w) (fB w) sc (decOrd (fOrd w)))) := by
  unfold rawC; rw [h]; rfl
theorem rawC_42 (w : Word) (h : fOp w = 0x42#7) : rawC w = ((decScope (fMid w)).bind fun sc => some (.amoAndW (fD w) (fA w) (fB w) sc (decOrd (fOrd w)))) := by
  unfold rawC; rw [h]; rfl
theorem rawC_43 (w : Word) (h : fOp w = 0x43#7) : rawC w = ((decScope (fMid w)).bind fun sc => some (.amoAndD (fD w) (fA w) (fB w) sc (decOrd (fOrd w)))) := by
  unfold rawC; rw [h]; rfl
theorem rawC_44 (w : Word) (h : fOp w = 0x44#7) : rawC w = ((decScope (fMid w)).bind fun sc => some (.amoOrW (fD w) (fA w) (fB w) sc (decOrd (fOrd w)))) := by
  unfold rawC; rw [h]; rfl
theorem rawC_45 (w : Word) (h : fOp w = 0x45#7) : rawC w = ((decScope (fMid w)).bind fun sc => some (.amoOrD (fD w) (fA w) (fB w) sc (decOrd (fOrd w)))) := by
  unfold rawC; rw [h]; rfl
theorem rawC_46 (w : Word) (h : fOp w = 0x46#7) : rawC w = ((decScope (fMid w)).bind fun sc => some (.amoXorW (fD w) (fA w) (fB w) sc (decOrd (fOrd w)))) := by
  unfold rawC; rw [h]; rfl
theorem rawC_47 (w : Word) (h : fOp w = 0x47#7) : rawC w = ((decScope (fMid w)).bind fun sc => some (.amoXorD (fD w) (fA w) (fB w) sc (decOrd (fOrd w)))) := by
  unfold rawC; rw [h]; rfl
theorem rawC_48 (w : Word) (h : fOp w = 0x48#7) : rawC w = ((decScope (fMid w)).bind fun sc => some (.amoMinW (fD w) (fA w) (fB w) sc (decOrd (fOrd w)))) := by
  unfold rawC; rw [h]; rfl
theorem rawC_49 (w : Word) (h : fOp w = 0x49#7) : rawC w = ((decScope (fMid w)).bind fun sc => some (.amoMinD (fD w) (fA w) (fB w) sc (decOrd (fOrd w)))) := by
  unfold rawC; rw [h]; rfl
theorem rawC_4A (w : Word) (h : fOp w = 0x4A#7) : rawC w = ((decScope (fMid w)).bind fun sc => some (.amoMaxW (fD w) (fA w) (fB w) sc (decOrd (fOrd w)))) := by
  unfold rawC; rw [h]; rfl
theorem rawC_4B (w : Word) (h : fOp w = 0x4B#7) : rawC w = ((decScope (fMid w)).bind fun sc => some (.amoMaxD (fD w) (fA w) (fB w) sc (decOrd (fOrd w)))) := by
  unfold rawC; rw [h]; rfl
theorem rawC_4C (w : Word) (h : fOp w = 0x4C#7) : rawC w = ((decScope (fMid w)).bind fun sc => some (.amoMinnW (fD w) (fA w) (fB w) sc (decOrd (fOrd w)))) := by
  unfold rawC; rw [h]; rfl
theorem rawC_4D (w : Word) (h : fOp w = 0x4D#7) : rawC w = ((decScope (fMid w)).bind fun sc => some (.amoMinnD (fD w) (fA w) (fB w) sc (decOrd (fOrd w)))) := by
  unfold rawC; rw [h]; rfl
theorem rawC_4E (w : Word) (h : fOp w = 0x4E#7) : rawC w = ((decScope (fMid w)).bind fun sc => some (.amoMaxnW (fD w) (fA w) (fB w) sc (decOrd (fOrd w)))) := by
  unfold rawC; rw [h]; rfl
theorem rawC_4F (w : Word) (h : fOp w = 0x4F#7) : rawC w = ((decScope (fMid w)).bind fun sc => some (.amoMaxnD (fD w) (fA w) (fB w) sc (decOrd (fOrd w)))) := by
  unfold rawC; rw [h]; rfl
theorem rawC_50 (w : Word) (h : fOp w = 0x50#7) : rawC w = ((decScope (fMid w)).bind fun sc => some (.amoSwpW (fD w) (fA w) (fB w) sc (decOrd (fOrd w)))) := by
  unfold rawC; rw [h]; rfl
theorem rawC_51 (w : Word) (h : fOp w = 0x51#7) : rawC w = ((decScope (fMid w)).bind fun sc => some (.amoSwpD (fD w) (fA w) (fB w) sc (decOrd (fOrd w)))) := by
  unfold rawC; rw [h]; rfl
theorem rawC_52 (w : Word) (h : fOp w = 0x52#7) : rawC w = ((decScope (fMid w)).bind fun sc => some (.amoCasW (fD w) (fA w) (fB w) sc (decOrd (fOrd w)))) := by
  unfold rawC; rw [h]; rfl
theorem rawC_53 (w : Word) (h : fOp w = 0x53#7) : rawC w = ((decScope (fMid w)).bind fun sc => some (.amoCasD (fD w) (fA w) (fB w) sc (decOrd (fOrd w)))) := by
  unfold rawC; rw [h]; rfl
theorem rawC_54 (w : Word) (h : fOp w = 0x54#7) : rawC w = ((decScope (fMid w)).bind fun sc => some (.amoFaddW (fD w) (fA w) (fB w) sc (decOrd (fOrd w)))) := by
  unfold rawC; rw [h]; rfl
theorem rawC_55 (w : Word) (h : fOp w = 0x55#7) : rawC w = ((decScope (fMid w)).bind fun sc => some (.amoFaddD (fD w) (fA w) (fB w) sc (decOrd (fOrd w)))) := by
  unfold rawC; rw [h]; rfl
theorem rawC_56 (w : Word) (h : fOp w = 0x56#7) : rawC w = ((decScope (fMid w)).bind fun sc => some (.amoFminW (fD w) (fA w) (fB w) sc (decOrd (fOrd w)))) := by
  unfold rawC; rw [h]; rfl
theorem rawC_57 (w : Word) (h : fOp w = 0x57#7) : rawC w = ((decScope (fMid w)).bind fun sc => some (.amoFminD (fD w) (fA w) (fB w) sc (decOrd (fOrd w)))) := by
  unfold rawC; rw [h]; rfl
theorem rawC_58 (w : Word) (h : fOp w = 0x58#7) : rawC w = ((decScope (fMid w)).bind fun sc => some (.amoFmaxW (fD w) (fA w) (fB w) sc (decOrd (fOrd w)))) := by
  unfold rawC; rw [h]; rfl
theorem rawC_59 (w : Word) (h : fOp w = 0x59#7) : rawC w = ((decScope (fMid w)).bind fun sc => some (.amoFmaxD (fD w) (fA w) (fB w) sc (decOrd (fOrd w)))) := by
  unfold rawC; rw [h]; rfl
theorem rawC_5C (w : Word) (h : fOp w = 0x5C#7) : rawC w = (needZero (fB w) <| needZero (fOrd w) <| (decScope (fMid w)).bind fun sc => some (.srel (fD w) (fA w) sc)) := by
  unfold rawC; rw [h]; rfl
theorem rawC_5D (w : Word) (h : fOp w = 0x5D#7) : rawC w = (needZero (fB w) <| needZero (fOrd w) <| (decScope (fMid w)).bind fun sc => some (.sacq (fD w) (fA w) sc)) := by
  unfold rawC; rw [h]; rfl
theorem rawC_5E (w : Word) (h : fOp w = 0x5E#7) : rawC w = (needZero (fOrd w) <| (decScope (fMid w)).bind fun sc => some (.sadd (fD w) (fA w) (fB w) sc)) := by
  unfold rawC; rw [h]; rfl
theorem rawC_5F (w : Word) (h : fOp w = 0x5F#7) : rawC w = (needZero (fOrd w) <| (decScope (fMid w)).bind fun sc => some (.scas (fD w) (fA w) (fB w) sc)) := by
  unfold rawC; rw [h]; rfl
theorem rawC_60 (w : Word) (h : fOp w = 0x60#7) : rawC w = rawCOp60 w := by
  unfold rawC; rw [h]; rfl
theorem rawCOp60_0 (w : Word) (h : fF w = 0#5) : rawCOp60 w = (needZero (fB w) <| some (.rbind (fD w) (fA w))) := by
  unfold rawCOp60; rw [h]; rfl
theorem rawCOp60_1 (w : Word) (h : fF w = 1#5) : rawCOp60 w = (needZero (fB w) <| some (.rwf (fD w) (fA w))) := by
  unfold rawCOp60; rw [h]; rfl
theorem rawCOp60_2 (w : Word) (h : fF w = 2#5) : rawCOp60 w = (needZero (fB w) <| some (.rwe (fD w) (fA w))) := by
  unfold rawCOp60; rw [h]; rfl
theorem rawCOp60_3 (w : Word) (h : fF w = 3#5) : rawCOp60 w = (needZero (fB w) <| some (.radvp (fD w) (fA w))) := by
  unfold rawCOp60; rw [h]; rfl
theorem rawCOp60_4 (w : Word) (h : fF w = 4#5) : rawCOp60 w = (needZero (fB w) <| some (.radvc (fD w) (fA w))) := by
  unfold rawCOp60; rw [h]; rfl
theorem rawCOp60_5 (w : Word) (h : fF w = 5#5) : rawCOp60 w = (some (.raddr (fD w) (fA w) (fB w))) := by
  unfold rawCOp60; rw [h]; rfl
theorem rawCOp60_6 (w : Word) (h : fF w = 6#5) : rawCOp60 w = (some (.rbytes (fD w) (fA w) (fB w))) := by
  unfold rawCOp60; rw [h]; rfl
theorem rawCOp60_7 (w : Word) (h : fF w = 7#5) : rawCOp60 w = (needZero (fB w) <| some (.qbind (fD w) (fA w))) := by
  unfold rawCOp60; rw [h]; rfl
theorem rawC_61 (w : Word) (h : fOp w = 0x61#7) : rawC w = rawCOp61 w := by
  unfold rawC; rw [h]; rfl
theorem rawCOp61_0 (w : Word) (h : fF w = 0#5) : rawCOp61 w = (some (.conv (fD w) (fA w) (fB w))) := by
  unfold rawCOp61; rw [h]; rfl
theorem rawCOp61_1 (w : Word) (h : fF w = 1#5) : rawCOp61 w = (needZero (fD w) <| needZero (fA w) <| needZero (fB w) <| some .gbar) := by
  unfold rawCOp61; rw [h]; rfl
theorem rawCOp61_2 (w : Word) (h : fF w = 2#5) : rawCOp61 w = (some (.gbc (fD w) (fA w) (fB w))) := by
  unfold rawCOp61; rw [h]; rfl
theorem rawCOp61_3 (w : Word) (h : fF w = 3#5) : rawCOp61 w = (some (.gbcD (fD w) (fA w) (fB w))) := by
  unfold rawCOp61; rw [h]; rfl
theorem rawCOp61_4 (w : Word) (h : fF w = 4#5) : rawCOp61 w = (needZero (fD w) <| needZero (fA w) <| needZero (fB w) <| some .gdis) := by
  unfold rawCOp61; rw [h]; rfl
theorem rawC_62 (w : Word) (h : fOp w = 0x62#7) : rawC w = rawCOp62 w := by
  unfold rawC; rw [h]; rfl
theorem rawCOp62_0 (w : Word) (h : fF w = 0#5) : rawCOp62 w = (needZero (fB w) <| some (.gredAddF32 (fD w) (fA w))) := by
  unfold rawCOp62; rw [h]; rfl
theorem rawCOp62_1 (w : Word) (h : fF w = 1#5) : rawCOp62 w = (needZero (fB w) <| some (.gredAddF64 (fD w) (fA w))) := by
  unfold rawCOp62; rw [h]; rfl
theorem rawCOp62_2 (w : Word) (h : fF w = 2#5) : rawCOp62 w = (needZero (fB w) <| some (.gredCaddF32 (fD w) (fA w))) := by
  unfold rawCOp62; rw [h]; rfl
theorem rawCOp62_3 (w : Word) (h : fF w = 3#5) : rawCOp62 w = (needZero (fB w) <| some (.gredAddI32 (fD w) (fA w))) := by
  unfold rawCOp62; rw [h]; rfl
theorem rawCOp62_4 (w : Word) (h : fF w = 4#5) : rawCOp62 w = (needZero (fB w) <| some (.gredAddI64 (fD w) (fA w))) := by
  unfold rawCOp62; rw [h]; rfl
theorem rawCOp62_5 (w : Word) (h : fF w = 5#5) : rawCOp62 w = (needZero (fB w) <| some (.gredMaxF32 (fD w) (fA w))) := by
  unfold rawCOp62; rw [h]; rfl
theorem rawCOp62_6 (w : Word) (h : fF w = 6#5) : rawCOp62 w = (needZero (fB w) <| some (.gredMinF32 (fD w) (fA w))) := by
  unfold rawCOp62; rw [h]; rfl
theorem rawCOp62_7 (w : Word) (h : fF w = 7#5) : rawCOp62 w = (needZero (fB w) <| some (.gredMaxF64 (fD w) (fA w))) := by
  unfold rawCOp62; rw [h]; rfl
theorem rawCOp62_8 (w : Word) (h : fF w = 8#5) : rawCOp62 w = (needZero (fB w) <| some (.gredMinF64 (fD w) (fA w))) := by
  unfold rawCOp62; rw [h]; rfl
theorem rawCOp62_9 (w : Word) (h : fF w = 9#5) : rawCOp62 w = (needZero (fB w) <| some (.gredMaxI32 (fD w) (fA w))) := by
  unfold rawCOp62; rw [h]; rfl
theorem rawCOp62_10 (w : Word) (h : fF w = 10#5) : rawCOp62 w = (needZero (fB w) <| some (.gredMinI32 (fD w) (fA w))) := by
  unfold rawCOp62; rw [h]; rfl
theorem rawCOp62_11 (w : Word) (h : fF w = 11#5) : rawCOp62 w = (needZero (fB w) <| some (.gredAnd (fD w) (fA w))) := by
  unfold rawCOp62; rw [h]; rfl
theorem rawCOp62_12 (w : Word) (h : fF w = 12#5) : rawCOp62 w = (needZero (fB w) <| some (.gredOr (fD w) (fA w))) := by
  unfold rawCOp62; rw [h]; rfl
theorem rawCOp62_13 (w : Word) (h : fF w = 13#5) : rawCOp62 w = (needZero (fB w) <| some (.gredXor (fD w) (fA w))) := by
  unfold rawCOp62; rw [h]; rfl
theorem rawC_63 (w : Word) (h : fOp w = 0x63#7) : rawC w = rawCOp63 w := by
  unfold rawC; rw [h]; rfl
theorem rawCOp63_0 (w : Word) (h : fF w = 0#5) : rawCOp63 w = (some (.tcopy (fD w) (fA w) (fB w))) := by
  unfold rawCOp63; rw [h]; rfl
theorem rawCOp63_1 (w : Word) (h : fF w = 1#5) : rawCOp63 w = (some (.scopy (fD w) (fA w) (fB w))) := by
  unfold rawCOp63; rw [h]; rfl
theorem rawCOp63_2 (w : Word) (h : fF w = 2#5) : rawCOp63 w = (some (.tfill (fD w) (fA w) (fB w))) := by
  unfold rawCOp63; rw [h]; rfl
theorem rawCOp63_3 (w : Word) (h : fF w = 3#5) : rawCOp63 w = (needZero (fD w) <| needZero (fB w) <| some (.ewait (fA w))) := by
  unfold rawCOp63; rw [h]; rfl
theorem rawCOp63_4 (w : Word) (h : fF w = 4#5) : rawCOp63 w = (needZero (fB w) <| some (.eprog (fD w) (fA w))) := by
  unfold rawCOp63; rw [h]; rfl
theorem rawC_64 (w : Word) (h : fOp w = 0x64#7) : rawC w = rawCOp64 w := by
  unfold rawC; rw [h]; rfl
theorem rawCOp64_0 (w : Word) (h : fF w = 0#5) : rawCOp64 w = (needZero (fB w) <| some (.mxCfg (fD w) (fA w))) := by
  unfold rawCOp64; rw [h]; rfl
theorem rawCOp64_1 (w : Word) (h : fF w = 1#5) : rawCOp64 w = (needZero (fA w) <| needZero (fB w) <| some (.mxZero (fD w))) := by
  unfold rawCOp64; rw [h]; rfl
theorem rawCOp64_2 (w : Word) (h : fF w = 2#5) : rawCOp64 w = (needZero (fB w) <| some (.mxLd (fD w) (fA w))) := by
  unfold rawCOp64; rw [h]; rfl
theorem rawCOp64_3 (w : Word) (h : fF w = 3#5) : rawCOp64 w = (some (.mxSt (fD w) (fA w) (fB w))) := by
  unfold rawCOp64; rw [h]; rfl
theorem rawCOp64_4 (w : Word) (h : fF w = 4#5) : rawCOp64 w = (some (.mxMerge (fD w) (fA w) (fB w))) := by
  unfold rawCOp64; rw [h]; rfl
theorem rawC_65 (w : Word) (h : fOp w = 0x65#7) : rawC w = rawCOp65 w := by
  unfold rawC; rw [h]; rfl
theorem rawCOp65_0 (w : Word) (h : fF w = 0#5) : rawCOp65 w = (some (.mmaF64 (fD w) (fA w) (fB w))) := by
  unfold rawCOp65; rw [h]; rfl
theorem rawCOp65_1 (w : Word) (h : fF w = 1#5) : rawCOp65 w = (some (.mmaF32 (fD w) (fA w) (fB w))) := by
  unfold rawCOp65; rw [h]; rfl
theorem rawCOp65_2 (w : Word) (h : fF w = 2#5) : rawCOp65 w = (some (.mmaBf16 (fD w) (fA w) (fB w))) := by
  unfold rawCOp65; rw [h]; rfl
theorem rawCOp65_3 (w : Word) (h : fF w = 3#5) : rawCOp65 w = (some (.mmaF16 (fD w) (fA w) (fB w))) := by
  unfold rawCOp65; rw [h]; rfl
theorem rawCOp65_4 (w : Word) (h : fF w = 4#5) : rawCOp65 w = (some (.mmaE4m3 (fD w) (fA w) (fB w))) := by
  unfold rawCOp65; rw [h]; rfl
theorem rawCOp65_5 (w : Word) (h : fF w = 5#5) : rawCOp65 w = (some (.mmaE5m2 (fD w) (fA w) (fB w))) := by
  unfold rawCOp65; rw [h]; rfl
theorem rawCOp65_6 (w : Word) (h : fF w = 6#5) : rawCOp65 w = (some (.mmaMx8 (fD w) (fA w) (fB w))) := by
  unfold rawCOp65; rw [h]; rfl
theorem rawCOp65_7 (w : Word) (h : fF w = 7#5) : rawCOp65 w = (some (.mmaE2m1 (fD w) (fA w) (fB w))) := by
  unfold rawCOp65; rw [h]; rfl
theorem rawC_66 (w : Word) (h : fOp w = 0x66#7) : rawC w = rawCOp66 w := by
  unfold rawC; rw [h]; rfl
theorem rawCOp66_0 (w : Word) (h : fF w = 0#5) : rawCOp66 w = (needZero (fB w) <| some (.launch (fD w) (fA w))) := by
  unfold rawCOp66; rw [h]; rfl
theorem rawCOp66_1 (w : Word) (h : fF w = 1#5) : rawCOp66 w = (needZero (fD w) <| some (.nsend (fA w) (fB w))) := by
  unfold rawCOp66; rw [h]; rfl
theorem rawCOp66_2 (w : Word) (h : fF w = 2#5) : rawCOp66 w = (needZero (fB w) <| some (.nrecv (fD w) (fA w))) := by
  unfold rawCOp66; rw [h]; rfl
theorem rawCOp66_3 (w : Word) (h : fF w = 3#5) : rawCOp66 w = (needZero (fD w) <| some (.nmcast (fA w) (fB w))) := by
  unfold rawCOp66; rw [h]; rfl
theorem rawC_67 (w : Word) (h : fOp w = 0x67#7) : rawC w = rawCOp67 w := by
  unfold rawC; rw [h]; rfl
theorem rawCOp67_0 (w : Word) (h : fF w = 0#5) : rawCOp67 w = (needZero (fB w) <| some (.collRedAddF32 (fD w) (fA w))) := by
  unfold rawCOp67; rw [h]; rfl
theorem rawCOp67_1 (w : Word) (h : fF w = 1#5) : rawCOp67 w = (needZero (fB w) <| some (.collRedAddF64 (fD w) (fA w))) := by
  unfold rawCOp67; rw [h]; rfl
theorem rawCOp67_2 (w : Word) (h : fF w = 2#5) : rawCOp67 w = (needZero (fB w) <| some (.collRedCaddF32 (fD w) (fA w))) := by
  unfold rawCOp67; rw [h]; rfl
theorem rawCOp67_3 (w : Word) (h : fF w = 3#5) : rawCOp67 w = (needZero (fB w) <| some (.collRedAddI32 (fD w) (fA w))) := by
  unfold rawCOp67; rw [h]; rfl
theorem rawCOp67_4 (w : Word) (h : fF w = 4#5) : rawCOp67 w = (needZero (fB w) <| some (.collRedAddI64 (fD w) (fA w))) := by
  unfold rawCOp67; rw [h]; rfl
theorem rawCOp67_5 (w : Word) (h : fF w = 5#5) : rawCOp67 w = (needZero (fB w) <| some (.collRedMaxF32 (fD w) (fA w))) := by
  unfold rawCOp67; rw [h]; rfl
theorem rawCOp67_6 (w : Word) (h : fF w = 6#5) : rawCOp67 w = (needZero (fB w) <| some (.collRedMinF32 (fD w) (fA w))) := by
  unfold rawCOp67; rw [h]; rfl
theorem rawCOp67_7 (w : Word) (h : fF w = 7#5) : rawCOp67 w = (needZero (fB w) <| some (.collRedMaxF64 (fD w) (fA w))) := by
  unfold rawCOp67; rw [h]; rfl
theorem rawCOp67_8 (w : Word) (h : fF w = 8#5) : rawCOp67 w = (needZero (fB w) <| some (.collRedMinF64 (fD w) (fA w))) := by
  unfold rawCOp67; rw [h]; rfl
theorem rawCOp67_9 (w : Word) (h : fF w = 9#5) : rawCOp67 w = (needZero (fB w) <| some (.collRedMaxI32 (fD w) (fA w))) := by
  unfold rawCOp67; rw [h]; rfl
theorem rawCOp67_10 (w : Word) (h : fF w = 10#5) : rawCOp67 w = (needZero (fB w) <| some (.collRedMinI32 (fD w) (fA w))) := by
  unfold rawCOp67; rw [h]; rfl
theorem rawCOp67_11 (w : Word) (h : fF w = 11#5) : rawCOp67 w = (needZero (fB w) <| some (.collRedAnd (fD w) (fA w))) := by
  unfold rawCOp67; rw [h]; rfl
theorem rawCOp67_12 (w : Word) (h : fF w = 12#5) : rawCOp67 w = (needZero (fB w) <| some (.collRedOr (fD w) (fA w))) := by
  unfold rawCOp67; rw [h]; rfl
theorem rawCOp67_13 (w : Word) (h : fF w = 13#5) : rawCOp67 w = (needZero (fB w) <| some (.collRedXor (fD w) (fA w))) := by
  unfold rawCOp67; rw [h]; rfl
theorem rawCOp67_14 (w : Word) (h : fF w = 14#5) : rawCOp67 w = (needZero (fB w) <| some (.collBc (fD w) (fA w))) := by
  unfold rawCOp67; rw [h]; rfl
theorem rawCOp67_15 (w : Word) (h : fF w = 15#5) : rawCOp67 w = (needZero (fB w) <| some (.collAg (fD w) (fA w))) := by
  unfold rawCOp67; rw [h]; rfl
theorem rawA_00 (w : Word) (h : fOp w = 0x00#7) : rawA w = rawAOp00 w := by
  unfold rawA; rw [h]; rfl
theorem rawAOp00_0 (w : Word) (h : fF w = 0#5) : rawAOp00 w = (some (.add (fD w) (fA w) (fB w))) := by
  unfold rawAOp00; rw [h]; rfl
theorem rawAOp00_1 (w : Word) (h : fF w = 1#5) : rawAOp00 w = (some (.sub (fD w) (fA w) (fB w))) := by
  unfold rawAOp00; rw [h]; rfl
theorem rawAOp00_2 (w : Word) (h : fF w = 2#5) : rawAOp00 w = (some (.mul (fD w) (fA w) (fB w))) := by
  unfold rawAOp00; rw [h]; rfl
theorem rawAOp00_3 (w : Word) (h : fF w = 3#5) : rawAOp00 w = (some (.mulh (fD w) (fA w) (fB w))) := by
  unfold rawAOp00; rw [h]; rfl
theorem rawAOp00_4 (w : Word) (h : fF w = 4#5) : rawAOp00 w = (some (.mulhn (fD w) (fA w) (fB w))) := by
  unfold rawAOp00; rw [h]; rfl
theorem rawAOp00_5 (w : Word) (h : fF w = 5#5) : rawAOp00 w = (some (.div (fD w) (fA w) (fB w))) := by
  unfold rawAOp00; rw [h]; rfl
theorem rawAOp00_6 (w : Word) (h : fF w = 6#5) : rawAOp00 w = (some (.divn (fD w) (fA w) (fB w))) := by
  unfold rawAOp00; rw [h]; rfl
theorem rawAOp00_7 (w : Word) (h : fF w = 7#5) : rawAOp00 w = (some (.rem (fD w) (fA w) (fB w))) := by
  unfold rawAOp00; rw [h]; rfl
theorem rawAOp00_8 (w : Word) (h : fF w = 8#5) : rawAOp00 w = (some (.remn (fD w) (fA w) (fB w))) := by
  unfold rawAOp00; rw [h]; rfl
theorem rawAOp00_9 (w : Word) (h : fF w = 9#5) : rawAOp00 w = (some (.min (fD w) (fA w) (fB w))) := by
  unfold rawAOp00; rw [h]; rfl
theorem rawAOp00_10 (w : Word) (h : fF w = 10#5) : rawAOp00 w = (some (.max (fD w) (fA w) (fB w))) := by
  unfold rawAOp00; rw [h]; rfl
theorem rawAOp00_11 (w : Word) (h : fF w = 11#5) : rawAOp00 w = (some (.minn (fD w) (fA w) (fB w))) := by
  unfold rawAOp00; rw [h]; rfl
theorem rawAOp00_12 (w : Word) (h : fF w = 12#5) : rawAOp00 w = (some (.maxn (fD w) (fA w) (fB w))) := by
  unfold rawAOp00; rw [h]; rfl
theorem rawAOp00_13 (w : Word) (h : fF w = 13#5) : rawAOp00 w = (needZero (fB w) <| some (.abs (fD w) (fA w))) := by
  unfold rawAOp00; rw [h]; rfl
theorem rawAOp00_14 (w : Word) (h : fF w = 14#5) : rawAOp00 w = (some (.and (fD w) (fA w) (fB w))) := by
  unfold rawAOp00; rw [h]; rfl
theorem rawAOp00_15 (w : Word) (h : fF w = 15#5) : rawAOp00 w = (some (.or (fD w) (fA w) (fB w))) := by
  unfold rawAOp00; rw [h]; rfl
theorem rawAOp00_16 (w : Word) (h : fF w = 16#5) : rawAOp00 w = (some (.xor (fD w) (fA w) (fB w))) := by
  unfold rawAOp00; rw [h]; rfl
theorem rawAOp00_17 (w : Word) (h : fF w = 17#5) : rawAOp00 w = (some (.shl (fD w) (fA w) (fB w))) := by
  unfold rawAOp00; rw [h]; rfl
theorem rawAOp00_18 (w : Word) (h : fF w = 18#5) : rawAOp00 w = (some (.shr (fD w) (fA w) (fB w))) := by
  unfold rawAOp00; rw [h]; rfl
theorem rawAOp00_19 (w : Word) (h : fF w = 19#5) : rawAOp00 w = (some (.sar (fD w) (fA w) (fB w))) := by
  unfold rawAOp00; rw [h]; rfl
theorem rawAOp00_20 (w : Word) (h : fF w = 20#5) : rawAOp00 w = (needZero (fB w) <| some (.clz (fD w) (fA w))) := by
  unfold rawAOp00; rw [h]; rfl
theorem rawAOp00_21 (w : Word) (h : fF w = 21#5) : rawAOp00 w = (needZero (fB w) <| some (.ctz (fD w) (fA w))) := by
  unfold rawAOp00; rw [h]; rfl
theorem rawAOp00_22 (w : Word) (h : fF w = 22#5) : rawAOp00 w = (needZero (fB w) <| some (.popc (fD w) (fA w))) := by
  unfold rawAOp00; rw [h]; rfl
theorem rawAOp00_23 (w : Word) (h : fF w = 23#5) : rawAOp00 w = (needZero (fB w) <| some (.brev (fD w) (fA w))) := by
  unfold rawAOp00; rw [h]; rfl
theorem rawAOp00_24 (w : Word) (h : fF w = 24#5) : rawAOp00 w = (some (.bfx (fD w) (fA w) (fB w))) := by
  unfold rawAOp00; rw [h]; rfl
theorem rawAOp00_25 (w : Word) (h : fF w = 25#5) : rawAOp00 w = (some (.bfi (fD w) (fA w) (fB w))) := by
  unfold rawAOp00; rw [h]; rfl
theorem rawAOp00_26 (w : Word) (h : fF w = 26#5) : rawAOp00 w = (some (.slt (fD w) (fA w) (fB w))) := by
  unfold rawAOp00; rw [h]; rfl
theorem rawAOp00_27 (w : Word) (h : fF w = 27#5) : rawAOp00 w = (some (.sltn (fD w) (fA w) (fB w))) := by
  unfold rawAOp00; rw [h]; rfl
theorem rawAOp00_28 (w : Word) (h : fF w = 28#5) : rawAOp00 w = (some (.seq (fD w) (fA w) (fB w))) := by
  unfold rawAOp00; rw [h]; rfl
theorem rawAOp00_29 (w : Word) (h : fF w = 29#5) : rawAOp00 w = (some (.sne (fD w) (fA w) (fB w))) := by
  unfold rawAOp00; rw [h]; rfl
theorem rawAOp00_30 (w : Word) (h : fF w = 30#5) : rawAOp00 w = (needZero (fA w) <| needZero (fB w) <| some (.rng (fD w))) := by
  unfold rawAOp00; rw [h]; rfl
theorem rawA_01 (w : Word) (h : fOp w = 0x01#7) : rawA w = rawAOp01 w := by
  unfold rawA; rw [h]; rfl
theorem rawAOp01_0 (w : Word) (h : fF w = 0#5) : rawAOp01 w = (some (.addD (fD w) (fA w) (fB w))) := by
  unfold rawAOp01; rw [h]; rfl
theorem rawAOp01_1 (w : Word) (h : fF w = 1#5) : rawAOp01 w = (some (.subD (fD w) (fA w) (fB w))) := by
  unfold rawAOp01; rw [h]; rfl
theorem rawAOp01_2 (w : Word) (h : fF w = 2#5) : rawAOp01 w = (some (.mulD (fD w) (fA w) (fB w))) := by
  unfold rawAOp01; rw [h]; rfl
theorem rawAOp01_3 (w : Word) (h : fF w = 3#5) : rawAOp01 w = (some (.shlD (fD w) (fA w) (fB w))) := by
  unfold rawAOp01; rw [h]; rfl
theorem rawAOp01_4 (w : Word) (h : fF w = 4#5) : rawAOp01 w = (some (.shrD (fD w) (fA w) (fB w))) := by
  unfold rawAOp01; rw [h]; rfl
theorem rawAOp01_5 (w : Word) (h : fF w = 5#5) : rawAOp01 w = (some (.sarD (fD w) (fA w) (fB w))) := by
  unfold rawAOp01; rw [h]; rfl
theorem rawAOp01_6 (w : Word) (h : fF w = 6#5) : rawAOp01 w = (some (.andD (fD w) (fA w) (fB w))) := by
  unfold rawAOp01; rw [h]; rfl
theorem rawAOp01_7 (w : Word) (h : fF w = 7#5) : rawAOp01 w = (some (.orD (fD w) (fA w) (fB w))) := by
  unfold rawAOp01; rw [h]; rfl
theorem rawAOp01_8 (w : Word) (h : fF w = 8#5) : rawAOp01 w = (some (.xorD (fD w) (fA w) (fB w))) := by
  unfold rawAOp01; rw [h]; rfl
theorem rawAOp01_9 (w : Word) (h : fF w = 9#5) : rawAOp01 w = (some (.minD (fD w) (fA w) (fB w))) := by
  unfold rawAOp01; rw [h]; rfl
theorem rawAOp01_10 (w : Word) (h : fF w = 10#5) : rawAOp01 w = (some (.maxD (fD w) (fA w) (fB w))) := by
  unfold rawAOp01; rw [h]; rfl
theorem rawAOp01_11 (w : Word) (h : fF w = 11#5) : rawAOp01 w = (some (.minnD (fD w) (fA w) (fB w))) := by
  unfold rawAOp01; rw [h]; rfl
theorem rawAOp01_12 (w : Word) (h : fF w = 12#5) : rawAOp01 w = (some (.maxnD (fD w) (fA w) (fB w))) := by
  unfold rawAOp01; rw [h]; rfl
theorem rawAOp01_13 (w : Word) (h : fF w = 13#5) : rawAOp01 w = (some (.sltD (fD w) (fA w) (fB w))) := by
  unfold rawAOp01; rw [h]; rfl
theorem rawAOp01_14 (w : Word) (h : fF w = 14#5) : rawAOp01 w = (some (.sltnD (fD w) (fA w) (fB w))) := by
  unfold rawAOp01; rw [h]; rfl
theorem rawAOp01_15 (w : Word) (h : fF w = 15#5) : rawAOp01 w = (some (.seqD (fD w) (fA w) (fB w))) := by
  unfold rawAOp01; rw [h]; rfl
theorem rawA_02 (w : Word) (h : fOp w = 0x02#7) : rawA w = (some (.addi (fD w) (fA w) (fImm11 w))) := by
  unfold rawA; rw [h]; rfl
theorem rawA_03 (w : Word) (h : fOp w = 0x03#7) : rawA w = (some (.andi (fD w) (fA w) (fImm11 w))) := by
  unfold rawA; rw [h]; rfl
theorem rawA_04 (w : Word) (h : fOp w = 0x04#7) : rawA w = (some (.ori (fD w) (fA w) (fImm11 w))) := by
  unfold rawA; rw [h]; rfl
theorem rawA_05 (w : Word) (h : fOp w = 0x05#7) : rawA w = (some (.xori (fD w) (fA w) (fImm11 w))) := by
  unfold rawA; rw [h]; rfl
theorem rawA_06 (w : Word) (h : fOp w = 0x06#7) : rawA w = (some (.slti (fD w) (fA w) (fImm11 w))) := by
  unfold rawA; rw [h]; rfl
theorem rawA_07 (w : Word) (h : fOp w = 0x07#7) : rawA w = (needZero (w.extractLsb' 5 6) <| some (.shli (fD w) (fA w) (fF w))) := by
  unfold rawA; rw [h]; rfl
theorem rawA_08 (w : Word) (h : fOp w = 0x08#7) : rawA w = (needZero (w.extractLsb' 5 6) <| some (.shri (fD w) (fA w) (fF w))) := by
  unfold rawA; rw [h]; rfl
theorem rawA_09 (w : Word) (h : fOp w = 0x09#7) : rawA w = (needZero (w.extractLsb' 5 6) <| some (.sari (fD w) (fA w) (fF w))) := by
  unfold rawA; rw [h]; rfl
theorem rawA_0A (w : Word) (h : fOp w = 0x0A#7) : rawA w = (some (.lui (fD w) (fImm17 w))) := by
  unfold rawA; rw [h]; rfl
theorem rawA_10 (w : Word) (h : fOp w = 0x10#7) : rawA w = rawAOp10 w := by
  unfold rawA; rw [h]; rfl
theorem rawAOp10_0 (w : Word) (h : fF w = 0#5) : rawAOp10 w = (some (.fadd (fD w) (fA w) (fB w))) := by
  unfold rawAOp10; rw [h]; rfl
theorem rawAOp10_1 (w : Word) (h : fF w = 1#5) : rawAOp10 w = (some (.fsub (fD w) (fA w) (fB w))) := by
  unfold rawAOp10; rw [h]; rfl
theorem rawAOp10_2 (w : Word) (h : fF w = 2#5) : rawAOp10 w = (some (.fmul (fD w) (fA w) (fB w))) := by
  unfold rawAOp10; rw [h]; rfl
theorem rawAOp10_3 (w : Word) (h : fF w = 3#5) : rawAOp10 w = (some (.fdiv (fD w) (fA w) (fB w))) := by
  unfold rawAOp10; rw [h]; rfl
theorem rawAOp10_4 (w : Word) (h : fF w = 4#5) : rawAOp10 w = (needZero (fB w) <| some (.fsqrt (fD w) (fA w))) := by
  unfold rawAOp10; rw [h]; rfl
theorem rawAOp10_5 (w : Word) (h : fF w = 5#5) : rawAOp10 w = (some (.fmin (fD w) (fA w) (fB w))) := by
  unfold rawAOp10; rw [h]; rfl
theorem rawAOp10_6 (w : Word) (h : fF w = 6#5) : rawAOp10 w = (some (.fmax (fD w) (fA w) (fB w))) := by
  unfold rawAOp10; rw [h]; rfl
theorem rawAOp10_7 (w : Word) (h : fF w = 7#5) : rawAOp10 w = (needZero (fB w) <| some (.fabs (fD w) (fA w))) := by
  unfold rawAOp10; rw [h]; rfl
theorem rawAOp10_8 (w : Word) (h : fF w = 8#5) : rawAOp10 w = (needZero (fB w) <| some (.fneg (fD w) (fA w))) := by
  unfold rawAOp10; rw [h]; rfl
theorem rawAOp10_9 (w : Word) (h : fF w = 9#5) : rawAOp10 w = (some (.feq (fD w) (fA w) (fB w))) := by
  unfold rawAOp10; rw [h]; rfl
theorem rawAOp10_10 (w : Word) (h : fF w = 10#5) : rawAOp10 w = (some (.flt (fD w) (fA w) (fB w))) := by
  unfold rawAOp10; rw [h]; rfl
theorem rawAOp10_11 (w : Word) (h : fF w = 11#5) : rawAOp10 w = (some (.fle (fD w) (fA w) (fB w))) := by
  unfold rawAOp10; rw [h]; rfl
theorem rawAOp10_12 (w : Word) (h : fF w = 12#5) : rawAOp10 w = (some (.funOrd (fD w) (fA w) (fB w))) := by
  unfold rawAOp10; rw [h]; rfl
theorem rawAOp10_13 (w : Word) (h : fF w = 13#5) : rawAOp10 w = (needZero (fB w) <| some (.fclass (fD w) (fA w))) := by
  unfold rawAOp10; rw [h]; rfl
theorem rawA_11 (w : Word) (h : fOp w = 0x11#7) : rawA w = (needZero (fSat w) <| needZero (fH w) <| (decRm (fMid w)).bind fun rm => some (.frnd (fD w) (fA w) (fB w) rm)) := by
  unfold rawA; rw [h]; rfl
theorem rawA_12 (w : Word) (h : fOp w = 0x12#7) : rawA w = rawAOp12 w := by
  unfold rawA; rw [h]; rfl
theorem rawAOp12_0 (w : Word) (h : fF w = 0#5) : rawAOp12 w = (some (.dadd (fD w) (fA w) (fB w))) := by
  unfold rawAOp12; rw [h]; rfl
theorem rawAOp12_1 (w : Word) (h : fF w = 1#5) : rawAOp12 w = (some (.dsub (fD w) (fA w) (fB w))) := by
  unfold rawAOp12; rw [h]; rfl
theorem rawAOp12_2 (w : Word) (h : fF w = 2#5) : rawAOp12 w = (some (.dmul (fD w) (fA w) (fB w))) := by
  unfold rawAOp12; rw [h]; rfl
theorem rawAOp12_3 (w : Word) (h : fF w = 3#5) : rawAOp12 w = (some (.ddiv (fD w) (fA w) (fB w))) := by
  unfold rawAOp12; rw [h]; rfl
theorem rawAOp12_4 (w : Word) (h : fF w = 4#5) : rawAOp12 w = (needZero (fB w) <| some (.dsqrt (fD w) (fA w))) := by
  unfold rawAOp12; rw [h]; rfl
theorem rawAOp12_5 (w : Word) (h : fF w = 5#5) : rawAOp12 w = (some (.dmin (fD w) (fA w) (fB w))) := by
  unfold rawAOp12; rw [h]; rfl
theorem rawAOp12_6 (w : Word) (h : fF w = 6#5) : rawAOp12 w = (some (.dmax (fD w) (fA w) (fB w))) := by
  unfold rawAOp12; rw [h]; rfl
theorem rawAOp12_7 (w : Word) (h : fF w = 7#5) : rawAOp12 w = (needZero (fB w) <| some (.dabs (fD w) (fA w))) := by
  unfold rawAOp12; rw [h]; rfl
theorem rawAOp12_8 (w : Word) (h : fF w = 8#5) : rawAOp12 w = (needZero (fB w) <| some (.dneg (fD w) (fA w))) := by
  unfold rawAOp12; rw [h]; rfl
theorem rawAOp12_9 (w : Word) (h : fF w = 9#5) : rawAOp12 w = (some (.deq (fD w) (fA w) (fB w))) := by
  unfold rawAOp12; rw [h]; rfl
theorem rawAOp12_10 (w : Word) (h : fF w = 10#5) : rawAOp12 w = (some (.dlt (fD w) (fA w) (fB w))) := by
  unfold rawAOp12; rw [h]; rfl
theorem rawAOp12_11 (w : Word) (h : fF w = 11#5) : rawAOp12 w = (some (.dle (fD w) (fA w) (fB w))) := by
  unfold rawAOp12; rw [h]; rfl
theorem rawAOp12_12 (w : Word) (h : fF w = 12#5) : rawAOp12 w = (some (.dunOrd (fD w) (fA w) (fB w))) := by
  unfold rawAOp12; rw [h]; rfl
theorem rawAOp12_13 (w : Word) (h : fF w = 13#5) : rawAOp12 w = (needZero (fB w) <| some (.dclass (fD w) (fA w))) := by
  unfold rawAOp12; rw [h]; rfl
theorem rawA_13 (w : Word) (h : fOp w = 0x13#7) : rawA w = (needZero (fSat w) <| needZero (fH w) <| (decRm (fMid w)).bind fun rm => some (.drnd (fD w) (fA w) (fB w) rm)) := by
  unfold rawA; rw [h]; rfl
theorem rawA_14 (w : Word) (h : fOp w = 0x14#7) : rawA w = rawAOp14 w := by
  unfold rawA; rw [h]; rfl
theorem rawAOp14_0 (w : Word) (h : fF w = 0#5) : rawAOp14 w = (some (.p2addH (fD w) (fA w) (fB w))) := by
  unfold rawAOp14; rw [h]; rfl
theorem rawAOp14_1 (w : Word) (h : fF w = 1#5) : rawAOp14 w = (some (.p2subH (fD w) (fA w) (fB w))) := by
  unfold rawAOp14; rw [h]; rfl
theorem rawAOp14_2 (w : Word) (h : fF w = 2#5) : rawAOp14 w = (some (.p2mulH (fD w) (fA w) (fB w))) := by
  unfold rawAOp14; rw [h]; rfl
theorem rawAOp14_3 (w : Word) (h : fF w = 3#5) : rawAOp14 w = (some (.p2fmaH (fD w) (fA w) (fB w))) := by
  unfold rawAOp14; rw [h]; rfl
theorem rawAOp14_4 (w : Word) (h : fF w = 4#5) : rawAOp14 w = (some (.p2minH (fD w) (fA w) (fB w))) := by
  unfold rawAOp14; rw [h]; rfl
theorem rawAOp14_5 (w : Word) (h : fF w = 5#5) : rawAOp14 w = (some (.p2maxH (fD w) (fA w) (fB w))) := by
  unfold rawAOp14; rw [h]; rfl
theorem rawAOp14_8 (w : Word) (h : fF w = 8#5) : rawAOp14 w = (some (.p2addB (fD w) (fA w) (fB w))) := by
  unfold rawAOp14; rw [h]; rfl
theorem rawAOp14_9 (w : Word) (h : fF w = 9#5) : rawAOp14 w = (some (.p2subB (fD w) (fA w) (fB w))) := by
  unfold rawAOp14; rw [h]; rfl
theorem rawAOp14_10 (w : Word) (h : fF w = 10#5) : rawAOp14 w = (some (.p2mulB (fD w) (fA w) (fB w))) := by
  unfold rawAOp14; rw [h]; rfl
theorem rawAOp14_11 (w : Word) (h : fF w = 11#5) : rawAOp14 w = (some (.p2fmaB (fD w) (fA w) (fB w))) := by
  unfold rawAOp14; rw [h]; rfl
theorem rawAOp14_12 (w : Word) (h : fF w = 12#5) : rawAOp14 w = (some (.p2minB (fD w) (fA w) (fB w))) := by
  unfold rawAOp14; rw [h]; rfl
theorem rawAOp14_13 (w : Word) (h : fF w = 13#5) : rawAOp14 w = (some (.p2maxB (fD w) (fA w) (fB w))) := by
  unfold rawAOp14; rw [h]; rfl
theorem rawA_20 (w : Word) (h : fOp w = 0x20#7) : rawA w = (needZero (fH w) <| (decRm (fMid w)).bind fun rm => some (.cvtF64F32 (fD w) (fA w) (fB w) rm (bit1 (fSat w)))) := by
  unfold rawA; rw [h]; rfl
theorem rawA_21 (w : Word) (h : fOp w = 0x21#7) : rawA w = (needZero (fH w) <| (decRm (fMid w)).bind fun rm => some (.cvtF64F16 (fD w) (fA w) (fB w) rm (bit1 (fSat w)))) := by
  unfold rawA; rw [h]; rfl
theorem rawA_22 (w : Word) (h : fOp w = 0x22#7) : rawA w = (needZero (fH w) <| (decRm (fMid w)).bind fun rm => some (.cvtF64Bf16 (fD w) (fA w) (fB w) rm (bit1 (fSat w)))) := by
  unfold rawA; rw [h]; rfl
theorem rawA_23 (w : Word) (h : fOp w = 0x23#7) : rawA w = (needZero (fH w) <| (decRm (fMid w)).bind fun rm => some (.cvtF64E4m3 (fD w) (fA w) (fB w) rm (bit1 (fSat w)))) := by
  unfold rawA; rw [h]; rfl
theorem rawA_24 (w : Word) (h : fOp w = 0x24#7) : rawA w = (needZero (fH w) <| (decRm (fMid w)).bind fun rm => some (.cvtF64E5m2 (fD w) (fA w) (fB w) rm (bit1 (fSat w)))) := by
  unfold rawA; rw [h]; rfl
theorem rawA_25 (w : Word) (h : fOp w = 0x25#7) : rawA w = (needZero (fH w) <| (decRm (fMid w)).bind fun rm => some (.cvtF64I32 (fD w) (fA w) (fB w) rm (bit1 (fSat w)))) := by
  unfold rawA; rw [h]; rfl
theorem rawA_26 (w : Word) (h : fOp w = 0x26#7) : rawA w = (needZero (fH w) <| (decRm (fMid w)).bind fun rm => some (.cvtF64N32 (fD w) (fA w) (fB w) rm (bit1 (fSat w)))) := by
  unfold rawA; rw [h]; rfl
theorem rawA_27 (w : Word) (h : fOp w = 0x27#7) : rawA w = (needZero (fH w) <| (decRm (fMid w)).bind fun rm => some (.cvtF64I64 (fD w) (fA w) (fB w) rm (bit1 (fSat w)))) := by
  unfold rawA; rw [h]; rfl
theorem rawA_28 (w : Word) (h : fOp w = 0x28#7) : rawA w = (needZero (fH w) <| (decRm (fMid w)).bind fun rm => some (.cvtF64N64 (fD w) (fA w) (fB w) rm (bit1 (fSat w)))) := by
  unfold rawA; rw [h]; rfl
theorem rawA_29 (w : Word) (h : fOp w = 0x29#7) : rawA w = (needZero (fH w) <| (decRm (fMid w)).bind fun rm => some (.cvtF32F64 (fD w) (fA w) (fB w) rm (bit1 (fSat w)))) := by
  unfold rawA; rw [h]; rfl
theorem rawA_2A (w : Word) (h : fOp w = 0x2A#7) : rawA w = (needZero (fH w) <| (decRm (fMid w)).bind fun rm => some (.cvtF32F16 (fD w) (fA w) (fB w) rm (bit1 (fSat w)))) := by
  unfold rawA; rw [h]; rfl
theorem rawA_2B (w : Word) (h : fOp w = 0x2B#7) : rawA w = (needZero (fH w) <| (decRm (fMid w)).bind fun rm => some (.cvtF32Bf16 (fD w) (fA w) (fB w) rm (bit1 (fSat w)))) := by
  unfold rawA; rw [h]; rfl
theorem rawA_2C (w : Word) (h : fOp w = 0x2C#7) : rawA w = (needZero (fH w) <| (decRm (fMid w)).bind fun rm => some (.cvtF32E4m3 (fD w) (fA w) (fB w) rm (bit1 (fSat w)))) := by
  unfold rawA; rw [h]; rfl
theorem rawA_2D (w : Word) (h : fOp w = 0x2D#7) : rawA w = (needZero (fH w) <| (decRm (fMid w)).bind fun rm => some (.cvtF32E5m2 (fD w) (fA w) (fB w) rm (bit1 (fSat w)))) := by
  unfold rawA; rw [h]; rfl
theorem rawA_2E (w : Word) (h : fOp w = 0x2E#7) : rawA w = (needZero (fH w) <| (decRm (fMid w)).bind fun rm => some (.cvtF32E2m1 (fD w) (fA w) (fB w) rm (bit1 (fSat w)))) := by
  unfold rawA; rw [h]; rfl
theorem rawA_2F (w : Word) (h : fOp w = 0x2F#7) : rawA w = (needZero (fH w) <| (decRm (fMid w)).bind fun rm => some (.cvtF32E8m0 (fD w) (fA w) (fB w) rm (bit1 (fSat w)))) := by
  unfold rawA; rw [h]; rfl
theorem rawA_30 (w : Word) (h : fOp w = 0x30#7) : rawA w = (needZero (fH w) <| (decRm (fMid w)).bind fun rm => some (.cvtF32E3m5 (fD w) (fA w) (fB w) rm (bit1 (fSat w)))) := by
  unfold rawA; rw [h]; rfl
theorem rawA_31 (w : Word) (h : fOp w = 0x31#7) : rawA w = (needZero (fH w) <| (decRm (fMid w)).bind fun rm => some (.cvtF32I32 (fD w) (fA w) (fB w) rm (bit1 (fSat w)))) := by
  unfold rawA; rw [h]; rfl
theorem rawA_32 (w : Word) (h : fOp w = 0x32#7) : rawA w = (needZero (fH w) <| (decRm (fMid w)).bind fun rm => some (.cvtF32N32 (fD w) (fA w) (fB w) rm (bit1 (fSat w)))) := by
  unfold rawA; rw [h]; rfl
theorem rawA_33 (w : Word) (h : fOp w = 0x33#7) : rawA w = (needZero (fH w) <| (decRm (fMid w)).bind fun rm => some (.cvtF32I64 (fD w) (fA w) (fB w) rm (bit1 (fSat w)))) := by
  unfold rawA; rw [h]; rfl
theorem rawA_34 (w : Word) (h : fOp w = 0x34#7) : rawA w = (needZero (fH w) <| (decRm (fMid w)).bind fun rm => some (.cvtF32N64 (fD w) (fA w) (fB w) rm (bit1 (fSat w)))) := by
  unfold rawA; rw [h]; rfl
theorem rawA_35 (w : Word) (h : fOp w = 0x35#7) : rawA w = (needZero (fH w) <| (decRm (fMid w)).bind fun rm => some (.cvtF16F64 (fD w) (fA w) (fB w) rm (bit1 (fSat w)))) := by
  unfold rawA; rw [h]; rfl
theorem rawA_36 (w : Word) (h : fOp w = 0x36#7) : rawA w = (needZero (fH w) <| (decRm (fMid w)).bind fun rm => some (.cvtF16F32 (fD w) (fA w) (fB w) rm (bit1 (fSat w)))) := by
  unfold rawA; rw [h]; rfl
theorem rawA_37 (w : Word) (h : fOp w = 0x37#7) : rawA w = (needZero (fH w) <| (decRm (fMid w)).bind fun rm => some (.cvtF16Bf16 (fD w) (fA w) (fB w) rm (bit1 (fSat w)))) := by
  unfold rawA; rw [h]; rfl
theorem rawA_38 (w : Word) (h : fOp w = 0x38#7) : rawA w = (needZero (fH w) <| (decRm (fMid w)).bind fun rm => some (.cvtF16E4m3 (fD w) (fA w) (fB w) rm (bit1 (fSat w)))) := by
  unfold rawA; rw [h]; rfl
theorem rawA_39 (w : Word) (h : fOp w = 0x39#7) : rawA w = (needZero (fH w) <| (decRm (fMid w)).bind fun rm => some (.cvtF16E5m2 (fD w) (fA w) (fB w) rm (bit1 (fSat w)))) := by
  unfold rawA; rw [h]; rfl
theorem rawA_3A (w : Word) (h : fOp w = 0x3A#7) : rawA w = (needZero (fH w) <| (decRm (fMid w)).bind fun rm => some (.cvtBf16F64 (fD w) (fA w) (fB w) rm (bit1 (fSat w)))) := by
  unfold rawA; rw [h]; rfl
theorem rawA_3B (w : Word) (h : fOp w = 0x3B#7) : rawA w = (needZero (fH w) <| (decRm (fMid w)).bind fun rm => some (.cvtBf16F32 (fD w) (fA w) (fB w) rm (bit1 (fSat w)))) := by
  unfold rawA; rw [h]; rfl
theorem rawA_3C (w : Word) (h : fOp w = 0x3C#7) : rawA w = (needZero (fH w) <| (decRm (fMid w)).bind fun rm => some (.cvtBf16F16 (fD w) (fA w) (fB w) rm (bit1 (fSat w)))) := by
  unfold rawA; rw [h]; rfl
theorem rawA_3D (w : Word) (h : fOp w = 0x3D#7) : rawA w = (needZero (fH w) <| (decRm (fMid w)).bind fun rm => some (.cvtBf16E4m3 (fD w) (fA w) (fB w) rm (bit1 (fSat w)))) := by
  unfold rawA; rw [h]; rfl
theorem rawA_3E (w : Word) (h : fOp w = 0x3E#7) : rawA w = (needZero (fH w) <| (decRm (fMid w)).bind fun rm => some (.cvtBf16E5m2 (fD w) (fA w) (fB w) rm (bit1 (fSat w)))) := by
  unfold rawA; rw [h]; rfl
theorem rawA_3F (w : Word) (h : fOp w = 0x3F#7) : rawA w = (needZero (fH w) <| (decRm (fMid w)).bind fun rm => some (.cvtE4m3F64 (fD w) (fA w) (fB w) rm (bit1 (fSat w)))) := by
  unfold rawA; rw [h]; rfl
theorem rawA_40 (w : Word) (h : fOp w = 0x40#7) : rawA w = (needZero (fH w) <| (decRm (fMid w)).bind fun rm => some (.cvtE4m3F32 (fD w) (fA w) (fB w) rm (bit1 (fSat w)))) := by
  unfold rawA; rw [h]; rfl
theorem rawA_41 (w : Word) (h : fOp w = 0x41#7) : rawA w = (needZero (fH w) <| (decRm (fMid w)).bind fun rm => some (.cvtE4m3F16 (fD w) (fA w) (fB w) rm (bit1 (fSat w)))) := by
  unfold rawA; rw [h]; rfl
theorem rawA_42 (w : Word) (h : fOp w = 0x42#7) : rawA w = (needZero (fH w) <| (decRm (fMid w)).bind fun rm => some (.cvtE4m3Bf16 (fD w) (fA w) (fB w) rm (bit1 (fSat w)))) := by
  unfold rawA; rw [h]; rfl
theorem rawA_43 (w : Word) (h : fOp w = 0x43#7) : rawA w = (needZero (fH w) <| (decRm (fMid w)).bind fun rm => some (.cvtE4m3E5m2 (fD w) (fA w) (fB w) rm (bit1 (fSat w)))) := by
  unfold rawA; rw [h]; rfl
theorem rawA_44 (w : Word) (h : fOp w = 0x44#7) : rawA w = (needZero (fH w) <| (decRm (fMid w)).bind fun rm => some (.cvtE5m2F64 (fD w) (fA w) (fB w) rm (bit1 (fSat w)))) := by
  unfold rawA; rw [h]; rfl
theorem rawA_45 (w : Word) (h : fOp w = 0x45#7) : rawA w = (needZero (fH w) <| (decRm (fMid w)).bind fun rm => some (.cvtE5m2F32 (fD w) (fA w) (fB w) rm (bit1 (fSat w)))) := by
  unfold rawA; rw [h]; rfl
theorem rawA_46 (w : Word) (h : fOp w = 0x46#7) : rawA w = (needZero (fH w) <| (decRm (fMid w)).bind fun rm => some (.cvtE5m2F16 (fD w) (fA w) (fB w) rm (bit1 (fSat w)))) := by
  unfold rawA; rw [h]; rfl
theorem rawA_47 (w : Word) (h : fOp w = 0x47#7) : rawA w = (needZero (fH w) <| (decRm (fMid w)).bind fun rm => some (.cvtE5m2Bf16 (fD w) (fA w) (fB w) rm (bit1 (fSat w)))) := by
  unfold rawA; rw [h]; rfl
theorem rawA_48 (w : Word) (h : fOp w = 0x48#7) : rawA w = (needZero (fH w) <| (decRm (fMid w)).bind fun rm => some (.cvtE5m2E4m3 (fD w) (fA w) (fB w) rm (bit1 (fSat w)))) := by
  unfold rawA; rw [h]; rfl
theorem rawA_49 (w : Word) (h : fOp w = 0x49#7) : rawA w = (needZero (fH w) <| (decRm (fMid w)).bind fun rm => some (.cvtE2m1F64 (fD w) (fA w) (fB w) rm (bit1 (fSat w)))) := by
  unfold rawA; rw [h]; rfl
theorem rawA_4A (w : Word) (h : fOp w = 0x4A#7) : rawA w = (needZero (fH w) <| (decRm (fMid w)).bind fun rm => some (.cvtE2m1F32 (fD w) (fA w) (fB w) rm (bit1 (fSat w)))) := by
  unfold rawA; rw [h]; rfl
theorem rawA_4B (w : Word) (h : fOp w = 0x4B#7) : rawA w = (needZero (fH w) <| (decRm (fMid w)).bind fun rm => some (.cvtE2m1F16 (fD w) (fA w) (fB w) rm (bit1 (fSat w)))) := by
  unfold rawA; rw [h]; rfl
theorem rawA_4C (w : Word) (h : fOp w = 0x4C#7) : rawA w = (needZero (fH w) <| (decRm (fMid w)).bind fun rm => some (.cvtE2m1Bf16 (fD w) (fA w) (fB w) rm (bit1 (fSat w)))) := by
  unfold rawA; rw [h]; rfl
theorem rawA_4D (w : Word) (h : fOp w = 0x4D#7) : rawA w = (needZero (fH w) <| (decRm (fMid w)).bind fun rm => some (.cvtE8m0F32 (fD w) (fA w) (fB w) rm (bit1 (fSat w)))) := by
  unfold rawA; rw [h]; rfl
theorem rawA_4E (w : Word) (h : fOp w = 0x4E#7) : rawA w = (needZero (fH w) <| (decRm (fMid w)).bind fun rm => some (.cvtE3m5F32 (fD w) (fA w) (fB w) rm (bit1 (fSat w)))) := by
  unfold rawA; rw [h]; rfl
theorem rawA_4F (w : Word) (h : fOp w = 0x4F#7) : rawA w = (needZero (fH w) <| (decRm (fMid w)).bind fun rm => some (.cvtI32F64 (fD w) (fA w) (fB w) rm (bit1 (fSat w)))) := by
  unfold rawA; rw [h]; rfl
theorem rawA_50 (w : Word) (h : fOp w = 0x50#7) : rawA w = (needZero (fH w) <| (decRm (fMid w)).bind fun rm => some (.cvtI32F32 (fD w) (fA w) (fB w) rm (bit1 (fSat w)))) := by
  unfold rawA; rw [h]; rfl
theorem rawA_51 (w : Word) (h : fOp w = 0x51#7) : rawA w = (needZero (fB w) <| needZero ((fMid w ^^^ 7#3)) <| needZero (fH w) <| some (.cvtI32I64 (fD w) (fA w) (bit1 (fSat w)))) := by
  unfold rawA; rw [h]; rfl
theorem rawA_52 (w : Word) (h : fOp w = 0x52#7) : rawA w = (needZero (fH w) <| (decRm (fMid w)).bind fun rm => some (.cvtN32F64 (fD w) (fA w) (fB w) rm (bit1 (fSat w)))) := by
  unfold rawA; rw [h]; rfl
theorem rawA_53 (w : Word) (h : fOp w = 0x53#7) : rawA w = (needZero (fH w) <| (decRm (fMid w)).bind fun rm => some (.cvtN32F32 (fD w) (fA w) (fB w) rm (bit1 (fSat w)))) := by
  unfold rawA; rw [h]; rfl
theorem rawA_54 (w : Word) (h : fOp w = 0x54#7) : rawA w = (needZero (fB w) <| needZero ((fMid w ^^^ 7#3)) <| needZero (fH w) <| some (.cvtN32N64 (fD w) (fA w) (bit1 (fSat w)))) := by
  unfold rawA; rw [h]; rfl
theorem rawA_55 (w : Word) (h : fOp w = 0x55#7) : rawA w = (needZero (fH w) <| (decRm (fMid w)).bind fun rm => some (.cvtI64F64 (fD w) (fA w) (fB w) rm (bit1 (fSat w)))) := by
  unfold rawA; rw [h]; rfl
theorem rawA_56 (w : Word) (h : fOp w = 0x56#7) : rawA w = (needZero (fH w) <| (decRm (fMid w)).bind fun rm => some (.cvtI64F32 (fD w) (fA w) (fB w) rm (bit1 (fSat w)))) := by
  unfold rawA; rw [h]; rfl
theorem rawA_57 (w : Word) (h : fOp w = 0x57#7) : rawA w = (needZero (fB w) <| needZero ((fMid w ^^^ 7#3)) <| needZero (fH w) <| some (.cvtI64I32 (fD w) (fA w) (bit1 (fSat w)))) := by
  unfold rawA; rw [h]; rfl
theorem rawA_58 (w : Word) (h : fOp w = 0x58#7) : rawA w = (needZero (fH w) <| (decRm (fMid w)).bind fun rm => some (.cvtN64F64 (fD w) (fA w) (fB w) rm (bit1 (fSat w)))) := by
  unfold rawA; rw [h]; rfl
theorem rawA_59 (w : Word) (h : fOp w = 0x59#7) : rawA w = (needZero (fH w) <| (decRm (fMid w)).bind fun rm => some (.cvtN64F32 (fD w) (fA w) (fB w) rm (bit1 (fSat w)))) := by
  unfold rawA; rw [h]; rfl
theorem rawA_5A (w : Word) (h : fOp w = 0x5A#7) : rawA w = (needZero (fB w) <| needZero ((fMid w ^^^ 7#3)) <| needZero (fH w) <| some (.cvtN64N32 (fD w) (fA w) (bit1 (fSat w)))) := by
  unfold rawA; rw [h]; rfl
theorem rawA_5B (w : Word) (h : fOp w = 0x5B#7) : rawA w = (needZero (fB w) <| needZero ((fMid w ^^^ 7#3)) <| needZero (fH w) <| some (.cvtI8I32 (fD w) (fA w) (bit1 (fSat w)))) := by
  unfold rawA; rw [h]; rfl
theorem rawA_5C (w : Word) (h : fOp w = 0x5C#7) : rawA w = (needZero (fB w) <| needZero ((fMid w ^^^ 7#3)) <| needZero (fH w) <| some (.cvtN8I32 (fD w) (fA w) (bit1 (fSat w)))) := by
  unfold rawA; rw [h]; rfl
theorem rawA_5D (w : Word) (h : fOp w = 0x5D#7) : rawA w = (needZero (fB w) <| needZero ((fMid w ^^^ 7#3)) <| needZero (fH w) <| some (.cvtI16I32 (fD w) (fA w) (bit1 (fSat w)))) := by
  unfold rawA; rw [h]; rfl
theorem rawA_5E (w : Word) (h : fOp w = 0x5E#7) : rawA w = (needZero (fB w) <| needZero ((fMid w ^^^ 7#3)) <| needZero (fH w) <| some (.cvtN16I32 (fD w) (fA w) (bit1 (fSat w)))) := by
  unfold rawA; rw [h]; rfl
theorem rawA_70 (w : Word) (h : fOp w = 0x70#7) : rawA w = ((decRm (fMid w)).bind fun rm => some (.cvtpE4m3 (fD w) (fA w) (fB w) rm (bit1 (fSat w)) (bit1 (fH w)))) := by
  unfold rawA; rw [h]; rfl
theorem rawA_71 (w : Word) (h : fOp w = 0x71#7) : rawA w = ((decRm (fMid w)).bind fun rm => some (.cvtpE5m2 (fD w) (fA w) (fB w) rm (bit1 (fSat w)) (bit1 (fH w)))) := by
  unfold rawA; rw [h]; rfl
theorem rawA_72 (w : Word) (h : fOp w = 0x72#7) : rawA w = ((decRm (fMid w)).bind fun rm => some (.cvtpE2m1Low (fD w) (fA w) (fB w) rm (bit1 (fSat w)) (bit1 (fH w)))) := by
  unfold rawA; rw [h]; rfl
theorem rawA_73 (w : Word) (h : fOp w = 0x73#7) : rawA w = ((decRm (fMid w)).bind fun rm => some (.cvtpE2m1High (fD w) (fA w) (fB w) rm (bit1 (fSat w)) (bit1 (fH w)))) := by
  unfold rawA; rw [h]; rfl
theorem rawA_74 (w : Word) (h : fOp w = 0x74#7) : rawA w = (needZero (fH w) <| (decRm (fMid w)).bind fun rm => some (.cvtpF16 (fD w) (fA w) (fB w) rm (bit1 (fSat w)))) := by
  unfold rawA; rw [h]; rfl
theorem rawA_75 (w : Word) (h : fOp w = 0x75#7) : rawA w = (needZero (fH w) <| (decRm (fMid w)).bind fun rm => some (.cvtpBf16 (fD w) (fA w) (fB w) rm (bit1 (fSat w)))) := by
  unfold rawA; rw [h]; rfl
theorem rawF4_0 (w : Word) (h : fSub w = 0#2) : rawF4 w = (some (.ffma (f4D w) (f4A w) (f4B w) (f4C w))) := by
  unfold rawF4; rw [h]; rfl
theorem rawF4_1 (w : Word) (h : fSub w = 1#2) : rawF4 w = (some (.dfma (f4D w) (f4A w) (f4B w) (f4C w))) := by
  unfold rawF4; rw [h]; rfl
theorem rawF4_2 (w : Word) (h : fSub w = 2#2) : rawF4 w = (some (.imad (f4D w) (f4A w) (f4B w) (f4C w))) := by
  unfold rawF4; rw [h]; rfl
theorem rawF4_3 (w : Word) (h : fSub w = 3#2) : rawF4 w = (some (.sel (f4D w) (f4A w) (f4B w) (f4C w))) := by
  unfold rawF4; rw [h]; rfl
theorem rawLong_0B (w lit : Word) (h : fOp w = 0x0B#7) : rawLong w lit = (needZero (fImm17 w) <| some (.li (fD w) lit)) := by
  unfold rawLong; rw [h]; rfl
theorem rawLong_0C (w lit : Word) (h : fOp w = 0x0C#7) : rawLong w lit = (needZero (fImm17 w) <| some (.lih (fD w) lit)) := by
  unfold rawLong; rw [h]; rfl
theorem rawLong_0D (w lit : Word) (h : fOp w = 0x0D#7) : rawLong w lit = (needZero (fD w) <| needZero (fImm17 w) <| some (.callx lit)) := by
  unfold rawLong; rw [h]; rfl

theorem rawDecode_C (w : Word) (h : fK w = 0#1) : rawDecode w = rawC w := by
  unfold rawDecode; rw [if_pos h]
theorem rawDecode_A (w : Word) (h : fK w = 1#1) (h4 : (fOp w).extractLsb' 3 4 ≠ 0xF#4) : rawDecode w = rawA w := by
  unfold rawDecode; rw [if_neg (by rw [h]; decide), if_neg h4]

theorem fK_encF4 (l : BitVec 1) (sub : BitVec 2) (d a b c : RegNo) : fK (encF4 l sub d a b c) = 1#1 := by
  unfold fK encF4
  rw [cut_le (by decide), cut_le (by decide), cut_le (by decide), cut_le (by decide), cut_le (by decide), cut_add (by decide)]
  decide
theorem fOp_encF4 (l : BitVec 1) (sub : BitVec 2) (d a b c : RegNo) :
    (fOp (encF4 l sub d a b c)).extractLsb' 3 4 = 0xF#4 := by
  have e : ∀ w : Word, (w.extractLsb' 23 7).extractLsb' 3 4 = w.extractLsb' 26 4 := by
    intro w
    apply BitVec.eq_of_getLsbD_eq
    intro i hi
    simp only [BitVec.getLsbD_extractLsb', hi, decide_true, Bool.true_and, show 3 + i < 7 by omega]
    rw [show 23 + (3 + i) = 26 + i by omega]
  unfold fOp
  rw [e]
  unfold encF4
  rw [cut_le (by decide), cut_le (by decide), cut_le (by decide), cut_le (by decide), cut_le (by decide), cut_add (by decide)]
  decide
theorem rawDecode_F4 (w : Word) (h : fK w = 1#1) (h4 : (fOp w).extractLsb' 3 4 = 0xF#4) : rawDecode w = rawF4 w := by
  unfold rawDecode; rw [if_neg (by rw [h]; decide), if_pos h4]

/-- A word that is no LONG word decodes to what the maps give, where that is well formed. -/
theorem decode_of_raw {w x : Word} {i : Instr} (hl : isLongWord w = false) (hr : rawDecode w = some i)
    (h : i.wellFormed = true) : decodeWords w x = some i := by
  unfold decodeWords decodeWord; rw [hl, hr]; simp [keepWellFormed, h]

/-- A class A word is no LONG word. -/
theorem notLong_A {w : Word} (h : fK w = 1#1) : isLongWord w = false := by unfold isLongWord; rw [h]; rfl
/-- A class C word with another OP is no LONG word. -/
theorem notLong_C {w : Word} {op : BitVec 7} (h : fOp w = op) (h1 : op ≠ 0x0B#7) (h2 : op ≠ 0x0C#7) (h3 : op ≠ 0x0D#7) :
    isLongWord w = false := by unfold isLongWord; simp [h, h1, h2, h3]

/-- A LONG word decodes with its literal. -/
theorem decode_of_long {w x : Word} {i : Instr} (hl : isLongWord w = true) (h0 : fL w = 0#1) (hr : rawLong w x = some i)
    (h : i.wellFormed = true) : decodeWords w x = some i := by
  unfold decodeWords decodeLong; rw [hl, hr]; simp [keepWellFormed, h, h0]

/-- One word that decodes back. -/
theorem roundTrip_one {i : Instr} (e : BitVec 1 → Word) (he : ∀ l, encodeWords l i = [e l])
    (hl : ∀ l, isLongWord (e l) = false) (hr : ∀ l, rawDecode (e l) = some i) : Laws.RoundTrip.Statement i := by
  intro l h w ws hw
  rw [he l] at hw
  cases hw
  exact decode_of_raw (hl l) (hr l) h

/-- An event has no word. -/
theorem roundTrip_none {i : Instr} (he : ∀ l, encodeWords l i = []) : Laws.RoundTrip.Statement i := by
  intro l h w ws hw
  rw [he l] at hw
  cases hw

/-- A LONG form that decodes back. -/
theorem roundTrip_long {i : Instr} (w0 lit : Word) (he : ∀ l, encodeWords l i = [w0, lit])
    (hl : isLongWord w0 = true) (h0 : fL w0 = 0#1) (hr : rawLong w0 lit = some i) : Laws.RoundTrip.Statement i := by
  intro l h w ws hw
  rw [he l] at hw
  cases hw
  exact decode_of_long hl h0 hr h

namespace Laws.RoundTrip

theorem rollCycle (core : Nat) : Statement (.rollCycle core) :=
  roundTrip_none fun _ => rfl
theorem chimeArrival (key : Key) : Statement (.chimeArrival key) :=
  roundTrip_none fun _ => rfl
theorem pauseEnd (core : Nat) (num : Nat) : Statement (.pauseEnd core num) :=
  roundTrip_none fun _ => rfl
theorem watchPoll (core : Nat) (num : Nat) : Statement (.watchPoll core num) :=
  roundTrip_none fun _ => rfl
theorem sLineSweep (core : Nat) (line : Nat) : Statement (.sLineSweep core line) :=
  roundTrip_none fun _ => rfl
theorem coherentUpdate (core : Nat) : Statement (.coherentUpdate core) :=
  roundTrip_none fun _ => rfl
theorem walk (acc : AccKind) (va : DWord) (n : Nat) : Statement (.walk acc va n) :=
  roundTrip_none fun _ => rfl
theorem pendingRecordWrite (die : Nat) : Statement (.pendingRecordWrite die) :=
  roundTrip_none fun _ => rfl
theorem spill (core : Nat) (num : Nat) : Statement (.spill core num) :=
  roundTrip_none fun _ => rfl
theorem refill (core : Nat) (num : Nat) : Statement (.refill core num) :=
  roundTrip_none fun _ => rfl
theorem takeEntry (core : Nat) : Statement (.takeEntry core) :=
  roundTrip_none fun _ => rfl
theorem tceJobRun (cluster : Nat) (job : Nat) : Statement (.tceJobRun cluster job) :=
  roundTrip_none fun _ => rfl
theorem tceSectorWrite (cluster : Nat) (job : Nat) : Statement (.tceSectorWrite cluster job) :=
  roundTrip_none fun _ => rfl
theorem tceJobEnd (cluster : Nat) (job : Nat) : Statement (.tceJobEnd cluster job) :=
  roundTrip_none fun _ => rfl
theorem mmaJob (cluster : Nat) (job : Nat) : Statement (.mmaJob cluster job) :=
  roundTrip_none fun _ => rfl
theorem mxMergeJob (cluster : Nat) (job : Nat) : Statement (.mxMergeJob cluster job) :=
  roundTrip_none fun _ => rfl
theorem mxZeroJob (cluster : Nat) (job : Nat) : Statement (.mxZeroJob cluster job) :=
  roundTrip_none fun _ => rfl
theorem mxStJob (cluster : Nat) (job : Nat) : Statement (.mxStJob cluster job) :=
  roundTrip_none fun _ => rfl
theorem mxLdJob (cluster : Nat) (job : Nat) : Statement (.mxLdJob cluster job) :=
  roundTrip_none fun _ => rfl
theorem scratchPageRefill (cluster : Nat) (lid : Word) (page : Nat) : Statement (.scratchPageRefill cluster lid page) :=
  roundTrip_none fun _ => rfl
theorem switch (region : Nat) : Statement (.switch region) :=
  roundTrip_none fun _ => rfl
theorem lqdWrite (q : BitVec 6) (v : DWord) : Statement (.lqdWrite q v) :=
  roundTrip_none fun _ => rfl
theorem doorbell (q : BitVec 6) (tail : BitVec 16) : Statement (.doorbell q tail) :=
  roundTrip_none fun _ => rfl
theorem packetAcceptance (q : BitVec 6) : Statement (.packetAcceptance q) :=
  roundTrip_none fun _ => rfl
theorem launchReady (lid : Word) : Statement (.launchReady lid) :=
  roundTrip_none fun _ => rfl
theorem aging (q : BitVec 6) : Statement (.aging q) :=
  roundTrip_none fun _ => rfl
theorem launchSuspended (lid : Word) : Statement (.launchSuspended lid) :=
  roundTrip_none fun _ => rfl
theorem launchCompletion (lid : Word) : Statement (.launchCompletion lid) :=
  roundTrip_none fun _ => rfl
theorem watchdog (lid : Word) : Statement (.watchdog lid) :=
  roundTrip_none fun _ => rfl
theorem abort (q : BitVec 6) (lid : Word) : Statement (.abort q lid) :=
  roundTrip_none fun _ => rfl
theorem quantumEnd (core : Nat) (num : Nat) : Statement (.quantumEnd core num) :=
  roundTrip_none fun _ => rfl
theorem quantumBoundary (lid : Word) : Statement (.quantumBoundary lid) :=
  roundTrip_none fun _ => rfl
theorem freeze (v : DWord) : Statement (.freeze v) :=
  roundTrip_none fun _ => rfl
theorem checkpoint (v : DWord) : Statement (.checkpoint v) :=
  roundTrip_none fun _ => rfl
theorem thaw (v : DWord) : Statement (.thaw v) :=
  roundTrip_none fun _ => rfl
theorem gongBadMode (v : DWord) : Statement (.gongBadMode v) :=
  roundTrip_none fun _ => rfl
theorem hostLinkFailure : Statement (.hostLinkFailure) :=
  roundTrip_none fun _ => rfl
theorem fatalError (cause : Word) (die : Nat) : Statement (.fatalError cause die) :=
  roundTrip_none fun _ => rfl
theorem poisonThreshold (cluster : Nat) : Statement (.poisonThreshold cluster) :=
  roundTrip_none fun _ => rfl
theorem throttle (cluster : Nat) (fmhz : BitVec 12) (cause : BitVec 4) : Statement (.throttle cluster fmhz cause) :=
  roundTrip_none fun _ => rfl
theorem islandResetRelease (cluster : Nat) : Statement (.islandResetRelease cluster) :=
  roundTrip_none fun _ => rfl
theorem messageArrival (core : Nat) : Statement (.messageArrival core) :=
  roundTrip_none fun _ => rfl
theorem chimePortWrite (die : Nat) (master : BitVec 20) (v : DWord) : Statement (.chimePortWrite die master v) :=
  roundTrip_none fun _ => rfl
theorem registerWrite (master : Option (BitVec 20)) (pa : Nat) (v : DWord) : Statement (.registerWrite master pa v) :=
  roundTrip_none fun _ => rfl
theorem hostRequest (fn : BitVec 16) (req : HostReq) : Statement (.hostRequest fn req) :=
  roundTrip_none fun _ => rfl
theorem peerRequest (peer : Sender) (req : PeerReq) : Statement (.peerRequest peer req) :=
  roundTrip_none fun _ => rfl
theorem grantRecall (page : Nat) (forRead : Bool) : Statement (.grantRecall page forRead) :=
  roundTrip_none fun _ => rfl
theorem recallTimeout (peer : BitVec 10) (page : Nat) : Statement (.recallTimeout peer page) :=
  roundTrip_none fun _ => rfl
theorem collCompletion (comm : Nat) (k : Nat) : Statement (.collCompletion comm k) :=
  roundTrip_none fun _ => rfl
theorem residencyReport : Statement (.residencyReport) :=
  roundTrip_none fun _ => rfl
theorem halt (die : Nat) : Statement (.halt die) :=
  roundTrip_none fun _ => rfl
theorem cont (die : Nat) : Statement (.cont die) :=
  roundTrip_none fun _ => rfl
theorem step (die : Nat) : Statement (.step die) :=
  roundTrip_none fun _ => rfl
theorem rdreg (die : Nat) : Statement (.rdreg die) :=
  roundTrip_none fun _ => rfl
theorem wrreg (die : Nat) : Statement (.wrreg die) :=
  roundTrip_none fun _ => rfl
theorem rdsreg (die : Nat) : Statement (.rdsreg die) :=
  roundTrip_none fun _ => rfl
theorem wrsreg (die : Nat) : Statement (.wrsreg die) :=
  roundTrip_none fun _ => rfl
theorem rdpc (die : Nat) : Statement (.rdpc die) :=
  roundTrip_none fun _ => rfl
theorem wrpc (die : Nat) : Statement (.wrpc die) :=
  roundTrip_none fun _ => rfl
theorem packageReset (failing : List Nat) : Statement (.packageReset failing) :=
  roundTrip_none fun _ => rfl
theorem level1Turn (q : BitVec 6) : Statement (.level1Turn q) :=
  roundTrip_none fun _ => rfl
theorem memberLost (peer : BitVec 10) : Statement (.memberLost peer) :=
  roundTrip_none fun _ => rfl
theorem hostLinkDown (iodB : Bool) (down : Bool) : Statement (.hostLinkDown iodB down) :=
  roundTrip_none fun _ => rfl
theorem bra (off : BitVec 23) : Statement (.bra off) :=
  roundTrip_one (fun l => encJ l 0#1 0x00#7 off) (fun _ => rfl) (fun l => notLong_C (fOp_encJ ..) (by decide) (by decide) (by decide))
    (fun l => by rw [rawDecode_C _ (fK_encJ ..), rawC_00 _ (fOp_encJ ..)]; simp)
theorem call (off : BitVec 23) : Statement (.call off) :=
  roundTrip_one (fun l => encJ l 0#1 0x01#7 off) (fun _ => rfl) (fun l => notLong_C (fOp_encJ ..) (by decide) (by decide) (by decide))
    (fun l => by rw [rawDecode_C _ (fK_encJ ..), rawC_01 _ (fOp_encJ ..)]; simp)
theorem bz (a : RegNo) (off : BitVec 17) : Statement (.bz a off) :=
  roundTrip_one (fun l => encRU l 0#1 0x02#7 a off) (fun _ => rfl) (fun l => notLong_C (fOp_encRU ..) (by decide) (by decide) (by decide))
    (fun l => by rw [rawDecode_C _ (fK_encRU ..), rawC_02 _ (fOp_encRU ..)]; simp)
theorem bnz (a : RegNo) (off : BitVec 17) : Statement (.bnz a off) :=
  roundTrip_one (fun l => encRU l 0#1 0x03#7 a off) (fun _ => rfl) (fun l => notLong_C (fOp_encRU ..) (by decide) (by decide) (by decide))
    (fun l => by rw [rawDecode_C _ (fK_encRU ..), rawC_03 _ (fOp_encRU ..)]; simp)
theorem beq (a : RegNo) (b : RegNo) (off : BitVec 11) : Statement (.beq a b off) :=
  roundTrip_one (fun l => encRI l 0#1 0x04#7 a b off) (fun _ => rfl) (fun l => notLong_C (fOp_encRI ..) (by decide) (by decide) (by decide))
    (fun l => by rw [rawDecode_C _ (fK_encRI ..), rawC_04 _ (fOp_encRI ..)]; simp)
theorem bne (a : RegNo) (b : RegNo) (off : BitVec 11) : Statement (.bne a b off) :=
  roundTrip_one (fun l => encRI l 0#1 0x05#7 a b off) (fun _ => rfl) (fun l => notLong_C (fOp_encRI ..) (by decide) (by decide) (by decide))
    (fun l => by rw [rawDecode_C _ (fK_encRI ..), rawC_05 _ (fOp_encRI ..)]; simp)
theorem blt (a : RegNo) (b : RegNo) (off : BitVec 11) : Statement (.blt a b off) :=
  roundTrip_one (fun l => encRI l 0#1 0x06#7 a b off) (fun _ => rfl) (fun l => notLong_C (fOp_encRI ..) (by decide) (by decide) (by decide))
    (fun l => by rw [rawDecode_C _ (fK_encRI ..), rawC_06 _ (fOp_encRI ..)]; simp)
theorem bge (a : RegNo) (b : RegNo) (off : BitVec 11) : Statement (.bge a b off) :=
  roundTrip_one (fun l => encRI l 0#1 0x07#7 a b off) (fun _ => rfl) (fun l => notLong_C (fOp_encRI ..) (by decide) (by decide) (by decide))
    (fun l => by rw [rawDecode_C _ (fK_encRI ..), rawC_07 _ (fOp_encRI ..)]; simp)
theorem blo (a : RegNo) (b : RegNo) (off : BitVec 11) : Statement (.blo a b off) :=
  roundTrip_one (fun l => encRI l 0#1 0x08#7 a b off) (fun _ => rfl) (fun l => notLong_C (fOp_encRI ..) (by decide) (by decide) (by decide))
    (fun l => by rw [rawDecode_C _ (fK_encRI ..), rawC_08 _ (fOp_encRI ..)]; simp)
theorem bhs (a : RegNo) (b : RegNo) (off : BitVec 11) : Statement (.bhs a b off) :=
  roundTrip_one (fun l => encRI l 0#1 0x09#7 a b off) (fun _ => rfl) (fun l => notLong_C (fOp_encRI ..) (by decide) (by decide) (by decide))
    (fun l => by rw [rawDecode_C _ (fK_encRI ..), rawC_09 _ (fOp_encRI ..)]; simp)
theorem spawn (a : RegNo) (off : BitVec 17) : Statement (.spawn a off) :=
  roundTrip_one (fun l => encRU l 0#1 0x0A#7 a off) (fun _ => rfl) (fun l => notLong_C (fOp_encRU ..) (by decide) (by decide) (by decide))
    (fun l => by rw [rawDecode_C _ (fK_encRU ..), rawC_0A _ (fOp_encRU ..)]; simp)
theorem li (d : RegNo) (imm : Word) : Statement (.li d imm) :=
  roundTrip_long (encRU 0#1 0#1 0x0B#7 d 0#17) imm (fun _ => rfl)
    (by simp [isLongWord, fK_encRU, fOp_encRU]) (by simp)
    (by rw [rawLong_0B _ _ (fOp_encRU ..)]; simp)
theorem lih (d : RegNo) (imm : Word) : Statement (.lih d imm) :=
  roundTrip_long (encRU 0#1 0#1 0x0C#7 d 0#17) imm (fun _ => rfl)
    (by simp [isLongWord, fK_encRU, fOp_encRU]) (by simp)
    (by rw [rawLong_0C _ _ (fOp_encRU ..)]; simp)
theorem callx (imm : Word) : Statement (.callx imm) :=
  roundTrip_long (encRU 0#1 0#1 0x0D#7 0#6 0#17) imm (fun _ => rfl)
    (by simp [isLongWord, fK_encRU, fOp_encRU]) (by simp)
    (by rw [rawLong_0D _ _ (fOp_encRU ..)]; simp)
theorem callr (a : RegNo) : Statement (.callr a) :=
  roundTrip_one (fun l => encRR l 0#1 0x0E#7 0#6 a 0#6 0#5) (fun _ => rfl) (fun l => notLong_C (fOp_encRR ..) (by decide) (by decide) (by decide))
    (fun l => by rw [rawDecode_C _ (fK_encRR ..), rawC_0E _ (fOp_encRR ..), rawCOp0E_0 _ (fF_encRR ..)]; simp)
theorem ret : Statement (.ret) :=
  roundTrip_one (fun l => encRR l 0#1 0x0E#7 0#6 0#6 0#6 1#5) (fun _ => rfl) (fun l => notLong_C (fOp_encRR ..) (by decide) (by decide) (by decide))
    (fun l => by rw [rawDecode_C _ (fK_encRR ..), rawC_0E _ (fOp_encRR ..), rawCOp0E_1 _ (fF_encRR ..)]; simp)
theorem jr (a : RegNo) : Statement (.jr a) :=
  roundTrip_one (fun l => encRR l 0#1 0x0E#7 0#6 a 0#6 2#5) (fun _ => rfl) (fun l => notLong_C (fOp_encRR ..) (by decide) (by decide) (by decide))
    (fun l => by rw [rawDecode_C _ (fK_encRR ..), rawC_0E _ (fOp_encRR ..), rawCOp0E_2 _ (fF_encRR ..)]; simp)
theorem exit : Statement (.exit) :=
  roundTrip_one (fun l => encRR l 0#1 0x0F#7 0#6 0#6 0#6 0#5) (fun _ => rfl) (fun l => notLong_C (fOp_encRR ..) (by decide) (by decide) (by decide))
    (fun l => by rw [rawDecode_C _ (fK_encRR ..), rawC_0F _ (fOp_encRR ..), rawCOp0F_0 _ (fF_encRR ..)]; simp)
theorem pause : Statement (.pause) :=
  roundTrip_one (fun l => encRR l 0#1 0x0F#7 0#6 0#6 0#6 1#5) (fun _ => rfl) (fun l => notLong_C (fOp_encRR ..) (by decide) (by decide) (by decide))
    (fun l => by rw [rawDecode_C _ (fK_encRR ..), rawC_0F _ (fOp_encRR ..), rawCOp0F_1 _ (fF_encRR ..)]; simp)
theorem tdone : Statement (.tdone) :=
  roundTrip_one (fun l => encRR l 0#1 0x0F#7 0#6 0#6 0#6 2#5) (fun _ => rfl) (fun l => notLong_C (fOp_encRR ..) (by decide) (by decide) (by decide))
    (fun l => by rw [rawDecode_C _ (fK_encRR ..), rawC_0F _ (fOp_encRR ..), rawCOp0F_2 _ (fF_encRR ..)]; simp)
theorem join (a : RegNo) : Statement (.join a) :=
  roundTrip_one (fun l => encRR l 0#1 0x0F#7 0#6 a 0#6 3#5) (fun _ => rfl) (fun l => notLong_C (fOp_encRR ..) (by decide) (by decide) (by decide))
    (fun l => by rw [rawDecode_C _ (fK_encRR ..), rawC_0F _ (fOp_encRR ..), rawCOp0F_3 _ (fF_encRR ..)]; simp)
theorem tkill (a : RegNo) : Statement (.tkill a) :=
  roundTrip_one (fun l => encRR l 0#1 0x0F#7 0#6 a 0#6 4#5) (fun _ => rfl) (fun l => notLong_C (fOp_encRR ..) (by decide) (by decide) (by decide))
    (fun l => by rw [rawDecode_C _ (fK_encRR ..), rawC_0F _ (fOp_encRR ..), rawCOp0F_4 _ (fF_encRR ..)]; simp)
theorem tresume (a : RegNo) : Statement (.tresume a) :=
  roundTrip_one (fun l => encRR l 0#1 0x0F#7 0#6 a 0#6 5#5) (fun _ => rfl) (fun l => notLong_C (fOp_encRR ..) (by decide) (by decide) (by decide))
    (fun l => by rw [rawDecode_C _ (fK_encRR ..), rawC_0F _ (fOp_encRR ..), rawCOp0F_5 _ (fF_encRR ..)]; simp)
theorem trap (imm : BitVec 17) : Statement (.trap imm) :=
  roundTrip_one (fun l => encRU l 0#1 0x10#7 0#6 imm) (fun _ => rfl) (fun l => notLong_C (fOp_encRU ..) (by decide) (by decide) (by decide))
    (fun l => by rw [rawDecode_C _ (fK_encRU ..), rawC_10 _ (fOp_encRU ..)]; simp)
theorem sget (d : RegNo) (imm : BitVec 11) : Statement (.sget d imm) :=
  roundTrip_one (fun l => encRI l 0#1 0x11#7 d 0#6 imm) (fun _ => rfl) (fun l => notLong_C (fOp_encRI ..) (by decide) (by decide) (by decide))
    (fun l => by rw [rawDecode_C _ (fK_encRI ..), rawC_11 _ (fOp_encRI ..)]; simp)
theorem sset (a : RegNo) (imm : BitVec 11) : Statement (.sset a imm) :=
  roundTrip_one (fun l => encRI l 0#1 0x12#7 0#6 a imm) (fun _ => rfl) (fun l => notLong_C (fOp_encRI ..) (by decide) (by decide) (by decide))
    (fun l => by rw [rawDecode_C _ (fK_encRI ..), rawC_12 _ (fOp_encRI ..)]; simp)
theorem brk : Statement (.brk) :=
  roundTrip_one (fun l => encRR l 0#1 0x13#7 0#6 0#6 0#6 0#5) (fun _ => rfl) (fun l => notLong_C (fOp_encRR ..) (by decide) (by decide) (by decide))
    (fun l => by rw [rawDecode_C _ (fK_encRR ..), rawC_13 _ (fOp_encRR ..), rawCOp13_0 _ (fF_encRR ..)]; simp)
theorem tret : Statement (.tret) :=
  roundTrip_one (fun l => encRR l 0#1 0x13#7 0#6 0#6 0#6 1#5) (fun _ => rfl) (fun l => notLong_C (fOp_encRR ..) (by decide) (by decide) (by decide))
    (fun l => by rw [rawDecode_C _ (fK_encRR ..), rawC_13 _ (fOp_encRR ..), rawCOp13_1 _ (fF_encRR ..)]; simp)
theorem fenceI : Statement (.fenceI) :=
  roundTrip_one (fun l => encRR l 0#1 0x13#7 0#6 0#6 0#6 2#5) (fun _ => rfl) (fun l => notLong_C (fOp_encRR ..) (by decide) (by decide) (by decide))
    (fun l => by rw [rawDecode_C _ (fK_encRR ..), rawC_13 _ (fOp_encRR ..), rawCOp13_2 _ (fF_encRR ..)]; simp)
theorem tlbi (a : RegNo) : Statement (.tlbi a) :=
  roundTrip_one (fun l => encRR l 0#1 0x13#7 0#6 a 0#6 3#5) (fun _ => rfl) (fun l => notLong_C (fOp_encRR ..) (by decide) (by decide) (by decide))
    (fun l => by rw [rawDecode_C _ (fK_encRR ..), rawC_13 _ (fOp_encRR ..), rawCOp13_3 _ (fF_encRR ..)]; simp)
theorem tlbiAsn (a : RegNo) : Statement (.tlbiAsn a) :=
  roundTrip_one (fun l => encRR l 0#1 0x13#7 0#6 a 0#6 4#5) (fun _ => rfl) (fun l => notLong_C (fOp_encRR ..) (by decide) (by decide) (by decide))
    (fun l => by rw [rawDecode_C _ (fK_encRR ..), rawC_13 _ (fOp_encRR ..), rawCOp13_4 _ (fF_encRR ..)]; simp)
theorem tlbiAll : Statement (.tlbiAll) :=
  roundTrip_one (fun l => encRR l 0#1 0x13#7 0#6 0#6 0#6 5#5) (fun _ => rfl) (fun l => notLong_C (fOp_encRR ..) (by decide) (by decide) (by decide))
    (fun l => by rw [rawDecode_C _ (fK_encRR ..), rawC_13 _ (fOp_encRR ..), rawCOp13_5 _ (fF_encRR ..)]; simp)
theorem chime (a : RegNo) : Statement (.chime a) :=
  roundTrip_one (fun l => encRR l 0#1 0x13#7 0#6 a 0#6 6#5) (fun _ => rfl) (fun l => notLong_C (fOp_encRR ..) (by decide) (by decide) (by decide))
    (fun l => by rw [rawDecode_C _ (fK_encRR ..), rawC_13 _ (fOp_encRR ..), rawCOp13_6 _ (fF_encRR ..)]; simp)
theorem l2pin (a : RegNo) (b : RegNo) : Statement (.l2pin a b) :=
  roundTrip_one (fun l => encRR l 0#1 0x13#7 0#6 a b 7#5) (fun _ => rfl) (fun l => notLong_C (fOp_encRR ..) (by decide) (by decide) (by decide))
    (fun l => by rw [rawDecode_C _ (fK_encRR ..), rawC_13 _ (fOp_encRR ..), rawCOp13_7 _ (fF_encRR ..)]; simp)
theorem l2unpin (a : RegNo) (b : RegNo) : Statement (.l2unpin a b) :=
  roundTrip_one (fun l => encRR l 0#1 0x13#7 0#6 a b 8#5) (fun _ => rfl) (fun l => notLong_C (fOp_encRR ..) (by decide) (by decide) (by decide))
    (fun l => by rw [rawDecode_C _ (fK_encRR ..), rawC_13 _ (fOp_encRR ..), rawCOp13_8 _ (fF_encRR ..)]; simp)
theorem rgnSet (a : RegNo) (b : RegNo) : Statement (.rgnSet a b) :=
  roundTrip_one (fun l => encRR l 0#1 0x13#7 0#6 a b 9#5) (fun _ => rfl) (fun l => notLong_C (fOp_encRR ..) (by decide) (by decide) (by decide))
    (fun l => by rw [rawDecode_C _ (fK_encRR ..), rawC_13 _ (fOp_encRR ..), rawCOp13_9 _ (fF_encRR ..)]; simp)
theorem rgnAcq (a : RegNo) : Statement (.rgnAcq a) :=
  roundTrip_one (fun l => encRR l 0#1 0x13#7 0#6 a 0#6 10#5) (fun _ => rfl) (fun l => notLong_C (fOp_encRR ..) (by decide) (by decide) (by decide))
    (fun l => by rw [rawDecode_C _ (fK_encRR ..), rawC_13 _ (fOp_encRR ..), rawCOp13_10 _ (fF_encRR ..)]; simp)
theorem rgnRel (a : RegNo) : Statement (.rgnRel a) :=
  roundTrip_one (fun l => encRR l 0#1 0x13#7 0#6 a 0#6 11#5) (fun _ => rfl) (fun l => notLong_C (fOp_encRR ..) (by decide) (by decide) (by decide))
    (fun l => by rw [rawDecode_C _ (fK_encRR ..), rawC_13 _ (fOp_encRR ..), rawCOp13_11 _ (fF_encRR ..)]; simp)
theorem waiteqW (a : RegNo) (b : RegNo) (sc : Scope) (od : Ord) : Statement (.waiteqW a b sc od) :=
  roundTrip_one (fun l => encMO l 0#1 0x14#7 0#6 a b (encScope sc) (encOrd od)) (fun _ => rfl) (fun l => notLong_C (fOp_encMO ..) (by decide) (by decide) (by decide))
    (fun l => by rw [rawDecode_C _ (fK_encMO ..), rawC_14 _ (fOp_encMO ..)]; simp)
theorem waitneW (a : RegNo) (b : RegNo) (sc : Scope) (od : Ord) : Statement (.waitneW a b sc od) :=
  roundTrip_one (fun l => encMO l 0#1 0x15#7 0#6 a b (encScope sc) (encOrd od)) (fun _ => rfl) (fun l => notLong_C (fOp_encMO ..) (by decide) (by decide) (by decide))
    (fun l => by rw [rawDecode_C _ (fK_encMO ..), rawC_15 _ (fOp_encMO ..)]; simp)
theorem waiteqD (a : RegNo) (b : RegNo) (sc : Scope) (od : Ord) : Statement (.waiteqD a b sc od) :=
  roundTrip_one (fun l => encMO l 0#1 0x16#7 0#6 a b (encScope sc) (encOrd od)) (fun _ => rfl) (fun l => notLong_C (fOp_encMO ..) (by decide) (by decide) (by decide))
    (fun l => by rw [rawDecode_C _ (fK_encMO ..), rawC_16 _ (fOp_encMO ..)]; simp)
theorem waitneD (a : RegNo) (b : RegNo) (sc : Scope) (od : Ord) : Statement (.waitneD a b sc od) :=
  roundTrip_one (fun l => encMO l 0#1 0x17#7 0#6 a b (encScope sc) (encOrd od)) (fun _ => rfl) (fun l => notLong_C (fOp_encMO ..) (by decide) (by decide) (by decide))
    (fun l => by rw [rawDecode_C _ (fK_encMO ..), rawC_17 _ (fOp_encMO ..)]; simp)
theorem ld8s (d : RegNo) (a : RegNo) (sp : Space) (imm : BitVec 9) : Statement (.ld8s d a sp imm) :=
  roundTrip_one (fun l => encM l 0#1 0x20#7 d a (encSpace sp) imm) (fun _ => rfl) (fun l => notLong_C (fOp_encM ..) (by decide) (by decide) (by decide))
    (fun l => by rw [rawDecode_C _ (fK_encM ..), rawC_20 _ (fOp_encM ..)]; simp)
theorem ld8z (d : RegNo) (a : RegNo) (sp : Space) (imm : BitVec 9) : Statement (.ld8z d a sp imm) :=
  roundTrip_one (fun l => encM l 0#1 0x21#7 d a (encSpace sp) imm) (fun _ => rfl) (fun l => notLong_C (fOp_encM ..) (by decide) (by decide) (by decide))
    (fun l => by rw [rawDecode_C _ (fK_encM ..), rawC_21 _ (fOp_encM ..)]; simp)
theorem ld16s (d : RegNo) (a : RegNo) (sp : Space) (imm : BitVec 9) : Statement (.ld16s d a sp imm) :=
  roundTrip_one (fun l => encM l 0#1 0x22#7 d a (encSpace sp) imm) (fun _ => rfl) (fun l => notLong_C (fOp_encM ..) (by decide) (by decide) (by decide))
    (fun l => by rw [rawDecode_C _ (fK_encM ..), rawC_22 _ (fOp_encM ..)]; simp)
theorem ld16z (d : RegNo) (a : RegNo) (sp : Space) (imm : BitVec 9) : Statement (.ld16z d a sp imm) :=
  roundTrip_one (fun l => encM l 0#1 0x23#7 d a (encSpace sp) imm) (fun _ => rfl) (fun l => notLong_C (fOp_encM ..) (by decide) (by decide) (by decide))
    (fun l => by rw [rawDecode_C _ (fK_encM ..), rawC_23 _ (fOp_encM ..)]; simp)
theorem ld32 (d : RegNo) (a : RegNo) (sp : Space) (imm : BitVec 9) : Statement (.ld32 d a sp imm) :=
  roundTrip_one (fun l => encM l 0#1 0x24#7 d a (encSpace sp) imm) (fun _ => rfl) (fun l => notLong_C (fOp_encM ..) (by decide) (by decide) (by decide))
    (fun l => by rw [rawDecode_C _ (fK_encM ..), rawC_24 _ (fOp_encM ..)]; simp)
theorem ld64 (d : RegNo) (a : RegNo) (sp : Space) (imm : BitVec 9) : Statement (.ld64 d a sp imm) :=
  roundTrip_one (fun l => encM l 0#1 0x25#7 d a (encSpace sp) imm) (fun _ => rfl) (fun l => notLong_C (fOp_encM ..) (by decide) (by decide) (by decide))
    (fun l => by rw [rawDecode_C _ (fK_encM ..), rawC_25 _ (fOp_encM ..)]; simp)
theorem ld128 (d : RegNo) (a : RegNo) (sp : Space) (imm : BitVec 9) : Statement (.ld128 d a sp imm) :=
  roundTrip_one (fun l => encM l 0#1 0x26#7 d a (encSpace sp) imm) (fun _ => rfl) (fun l => notLong_C (fOp_encM ..) (by decide) (by decide) (by decide))
    (fun l => by rw [rawDecode_C _ (fK_encM ..), rawC_26 _ (fOp_encM ..)]; simp)
theorem pf (d : RegNo) (a : RegNo) (imm : BitVec 9) : Statement (.pf d a imm) :=
  roundTrip_one (fun l => encM l 0#1 0x27#7 d a 0#2 imm) (fun _ => rfl) (fun l => notLong_C (fOp_encM ..) (by decide) (by decide) (by decide))
    (fun l => by rw [rawDecode_C _ (fK_encM ..), rawC_27 _ (fOp_encM ..)]; simp)
theorem st8 (d : RegNo) (a : RegNo) (sp : Space) (imm : BitVec 9) : Statement (.st8 d a sp imm) :=
  roundTrip_one (fun l => encM l 0#1 0x28#7 d a (encSpace sp) imm) (fun _ => rfl) (fun l => notLong_C (fOp_encM ..) (by decide) (by decide) (by decide))
    (fun l => by rw [rawDecode_C _ (fK_encM ..), rawC_28 _ (fOp_encM ..)]; simp)
theorem st16 (d : RegNo) (a : RegNo) (sp : Space) (imm : BitVec 9) : Statement (.st16 d a sp imm) :=
  roundTrip_one (fun l => encM l 0#1 0x29#7 d a (encSpace sp) imm) (fun _ => rfl) (fun l => notLong_C (fOp_encM ..) (by decide) (by decide) (by decide))
    (fun l => by rw [rawDecode_C _ (fK_encM ..), rawC_29 _ (fOp_encM ..)]; simp)
theorem st32 (d : RegNo) (a : RegNo) (sp : Space) (imm : BitVec 9) : Statement (.st32 d a sp imm) :=
  roundTrip_one (fun l => encM l 0#1 0x2A#7 d a (encSpace sp) imm) (fun _ => rfl) (fun l => notLong_C (fOp_encM ..) (by decide) (by decide) (by decide))
    (fun l => by rw [rawDecode_C _ (fK_encM ..), rawC_2A _ (fOp_encM ..)]; simp)
theorem st64 (d : RegNo) (a : RegNo) (sp : Space) (imm : BitVec 9) : Statement (.st64 d a sp imm) :=
  roundTrip_one (fun l => encM l 0#1 0x2B#7 d a (encSpace sp) imm) (fun _ => rfl) (fun l => notLong_C (fOp_encM ..) (by decide) (by decide) (by decide))
    (fun l => by rw [rawDecode_C _ (fK_encM ..), rawC_2B _ (fOp_encM ..)]; simp)
theorem st128 (d : RegNo) (a : RegNo) (sp : Space) (imm : BitVec 9) : Statement (.st128 d a sp imm) :=
  roundTrip_one (fun l => encM l 0#1 0x2C#7 d a (encSpace sp) imm) (fun _ => rfl) (fun l => notLong_C (fOp_encM ..) (by decide) (by decide) (by decide))
    (fun l => by rw [rawDecode_C _ (fK_encM ..), rawC_2C _ (fOp_encM ..)]; simp)
theorem ldm (d : RegNo) (a : RegNo) (n : BitVec 5) : Statement (.ldm d a n) :=
  roundTrip_one (fun l => encRR l 0#1 0x2D#7 d a 0#6 n) (fun _ => rfl) (fun l => notLong_C (fOp_encRR ..) (by decide) (by decide) (by decide))
    (fun l => by rw [rawDecode_C _ (fK_encRR ..), rawC_2D _ (fOp_encRR ..)]; simp)
theorem stm (d : RegNo) (a : RegNo) (n : BitVec 5) : Statement (.stm d a n) :=
  roundTrip_one (fun l => encRR l 0#1 0x2E#7 d a 0#6 n) (fun _ => rfl) (fun l => notLong_C (fOp_encRR ..) (by decide) (by decide) (by decide))
    (fun l => by rw [rawDecode_C _ (fK_encRR ..), rawC_2E _ (fOp_encRR ..)]; simp)
theorem ld8sOrd (d : RegNo) (a : RegNo) (sc : Scope) (od : Ord) : Statement (.ld8sOrd d a sc od) :=
  roundTrip_one (fun l => encMO l 0#1 0x30#7 d a 0#6 (encScope sc) (encOrd od)) (fun _ => rfl) (fun l => notLong_C (fOp_encMO ..) (by decide) (by decide) (by decide))
    (fun l => by rw [rawDecode_C _ (fK_encMO ..), rawC_30 _ (fOp_encMO ..)]; simp)
theorem ld8zOrd (d : RegNo) (a : RegNo) (sc : Scope) (od : Ord) : Statement (.ld8zOrd d a sc od) :=
  roundTrip_one (fun l => encMO l 0#1 0x31#7 d a 0#6 (encScope sc) (encOrd od)) (fun _ => rfl) (fun l => notLong_C (fOp_encMO ..) (by decide) (by decide) (by decide))
    (fun l => by rw [rawDecode_C _ (fK_encMO ..), rawC_31 _ (fOp_encMO ..)]; simp)
theorem ld16sOrd (d : RegNo) (a : RegNo) (sc : Scope) (od : Ord) : Statement (.ld16sOrd d a sc od) :=
  roundTrip_one (fun l => encMO l 0#1 0x32#7 d a 0#6 (encScope sc) (encOrd od)) (fun _ => rfl) (fun l => notLong_C (fOp_encMO ..) (by decide) (by decide) (by decide))
    (fun l => by rw [rawDecode_C _ (fK_encMO ..), rawC_32 _ (fOp_encMO ..)]; simp)
theorem ld16zOrd (d : RegNo) (a : RegNo) (sc : Scope) (od : Ord) : Statement (.ld16zOrd d a sc od) :=
  roundTrip_one (fun l => encMO l 0#1 0x33#7 d a 0#6 (encScope sc) (encOrd od)) (fun _ => rfl) (fun l => notLong_C (fOp_encMO ..) (by decide) (by decide) (by decide))
    (fun l => by rw [rawDecode_C _ (fK_encMO ..), rawC_33 _ (fOp_encMO ..)]; simp)
theorem ld32Ord (d : RegNo) (a : RegNo) (sc : Scope) (od : Ord) : Statement (.ld32Ord d a sc od) :=
  roundTrip_one (fun l => encMO l 0#1 0x34#7 d a 0#6 (encScope sc) (encOrd od)) (fun _ => rfl) (fun l => notLong_C (fOp_encMO ..) (by decide) (by decide) (by decide))
    (fun l => by rw [rawDecode_C _ (fK_encMO ..), rawC_34 _ (fOp_encMO ..)]; simp)
theorem ld64Ord (d : RegNo) (a : RegNo) (sc : Scope) (od : Ord) : Statement (.ld64Ord d a sc od) :=
  roundTrip_one (fun l => encMO l 0#1 0x35#7 d a 0#6 (encScope sc) (encOrd od)) (fun _ => rfl) (fun l => notLong_C (fOp_encMO ..) (by decide) (by decide) (by decide))
    (fun l => by rw [rawDecode_C _ (fK_encMO ..), rawC_35 _ (fOp_encMO ..)]; simp)
theorem ld128Ord (d : RegNo) (a : RegNo) (sc : Scope) (od : Ord) : Statement (.ld128Ord d a sc od) :=
  roundTrip_one (fun l => encMO l 0#1 0x36#7 d a 0#6 (encScope sc) (encOrd od)) (fun _ => rfl) (fun l => notLong_C (fOp_encMO ..) (by decide) (by decide) (by decide))
    (fun l => by rw [rawDecode_C _ (fK_encMO ..), rawC_36 _ (fOp_encMO ..)]; simp)
theorem fence (sc : Scope) (od : FenceOrd) : Statement (.fence sc od) :=
  roundTrip_one (fun l => encMO l 0#1 0x37#7 0#6 0#6 0#6 (encScope sc) (encFenceOrd od)) (fun _ => rfl) (fun l => notLong_C (fOp_encMO ..) (by decide) (by decide) (by decide))
    (fun l => by rw [rawDecode_C _ (fK_encMO ..), rawC_37 _ (fOp_encMO ..)]; simp)
theorem st8Ord (d : RegNo) (a : RegNo) (sc : Scope) (od : Ord) : Statement (.st8Ord d a sc od) :=
  roundTrip_one (fun l => encMO l 0#1 0x38#7 d a 0#6 (encScope sc) (encOrd od)) (fun _ => rfl) (fun l => notLong_C (fOp_encMO ..) (by decide) (by decide) (by decide))
    (fun l => by rw [rawDecode_C _ (fK_encMO ..), rawC_38 _ (fOp_encMO ..)]; simp)
theorem st16Ord (d : RegNo) (a : RegNo) (sc : Scope) (od : Ord) : Statement (.st16Ord d a sc od) :=
  roundTrip_one (fun l => encMO l 0#1 0x39#7 d a 0#6 (encScope sc) (encOrd od)) (fun _ => rfl) (fun l => notLong_C (fOp_encMO ..) (by decide) (by decide) (by decide))
    (fun l => by rw [rawDecode_C _ (fK_encMO ..), rawC_39 _ (fOp_encMO ..)]; simp)
theorem st32Ord (d : RegNo) (a : RegNo) (sc : Scope) (od : Ord) : Statement (.st32Ord d a sc od) :=
  roundTrip_one (fun l => encMO l 0#1 0x3A#7 d a 0#6 (encScope sc) (encOrd od)) (fun _ => rfl) (fun l => notLong_C (fOp_encMO ..) (by decide) (by decide) (by decide))
    (fun l => by rw [rawDecode_C _ (fK_encMO ..), rawC_3A _ (fOp_encMO ..)]; simp)
theorem st64Ord (d : RegNo) (a : RegNo) (sc : Scope) (od : Ord) : Statement (.st64Ord d a sc od) :=
  roundTrip_one (fun l => encMO l 0#1 0x3B#7 d a 0#6 (encScope sc) (encOrd od)) (fun _ => rfl) (fun l => notLong_C (fOp_encMO ..) (by decide) (by decide) (by decide))
    (fun l => by rw [rawDecode_C _ (fK_encMO ..), rawC_3B _ (fOp_encMO ..)]; simp)
theorem st128Ord (d : RegNo) (a : RegNo) (sc : Scope) (od : Ord) : Statement (.st128Ord d a sc od) :=
  roundTrip_one (fun l => encMO l 0#1 0x3C#7 d a 0#6 (encScope sc) (encOrd od)) (fun _ => rfl) (fun l => notLong_C (fOp_encMO ..) (by decide) (by decide) (by decide))
    (fun l => by rw [rawDecode_C _ (fK_encMO ..), rawC_3C _ (fOp_encMO ..)]; simp)
theorem amoAddW (d : RegNo) (a : RegNo) (b : RegNo) (sc : Scope) (od : Ord) : Statement (.amoAddW d a b sc od) :=
  roundTrip_one (fun l => encMO l 0#1 0x40#7 d a b (encScope sc) (encOrd od)) (fun _ => rfl) (fun l => notLong_C (fOp_encMO ..) (by decide) (by decide) (by decide))
    (fun l => by rw [rawDecode_C _ (fK_encMO ..), rawC_40 _ (fOp_encMO ..)]; simp)
theorem amoAddD (d : RegNo) (a : RegNo) (b : RegNo) (sc : Scope) (od : Ord) : Statement (.amoAddD d a b sc od) :=
  roundTrip_one (fun l => encMO l 0#1 0x41#7 d a b (encScope sc) (encOrd od)) (fun _ => rfl) (fun l => notLong_C (fOp_encMO ..) (by decide) (by decide) (by decide))
    (fun l => by rw [rawDecode_C _ (fK_encMO ..), rawC_41 _ (fOp_encMO ..)]; simp)
theorem amoAndW (d : RegNo) (a : RegNo) (b : RegNo) (sc : Scope) (od : Ord) : Statement (.amoAndW d a b sc od) :=
  roundTrip_one (fun l => encMO l 0#1 0x42#7 d a b (encScope sc) (encOrd od)) (fun _ => rfl) (fun l => notLong_C (fOp_encMO ..) (by decide) (by decide) (by decide))
    (fun l => by rw [rawDecode_C _ (fK_encMO ..), rawC_42 _ (fOp_encMO ..)]; simp)
theorem amoAndD (d : RegNo) (a : RegNo) (b : RegNo) (sc : Scope) (od : Ord) : Statement (.amoAndD d a b sc od) :=
  roundTrip_one (fun l => encMO l 0#1 0x43#7 d a b (encScope sc) (encOrd od)) (fun _ => rfl) (fun l => notLong_C (fOp_encMO ..) (by decide) (by decide) (by decide))
    (fun l => by rw [rawDecode_C _ (fK_encMO ..), rawC_43 _ (fOp_encMO ..)]; simp)
theorem amoOrW (d : RegNo) (a : RegNo) (b : RegNo) (sc : Scope) (od : Ord) : Statement (.amoOrW d a b sc od) :=
  roundTrip_one (fun l => encMO l 0#1 0x44#7 d a b (encScope sc) (encOrd od)) (fun _ => rfl) (fun l => notLong_C (fOp_encMO ..) (by decide) (by decide) (by decide))
    (fun l => by rw [rawDecode_C _ (fK_encMO ..), rawC_44 _ (fOp_encMO ..)]; simp)
theorem amoOrD (d : RegNo) (a : RegNo) (b : RegNo) (sc : Scope) (od : Ord) : Statement (.amoOrD d a b sc od) :=
  roundTrip_one (fun l => encMO l 0#1 0x45#7 d a b (encScope sc) (encOrd od)) (fun _ => rfl) (fun l => notLong_C (fOp_encMO ..) (by decide) (by decide) (by decide))
    (fun l => by rw [rawDecode_C _ (fK_encMO ..), rawC_45 _ (fOp_encMO ..)]; simp)
theorem amoXorW (d : RegNo) (a : RegNo) (b : RegNo) (sc : Scope) (od : Ord) : Statement (.amoXorW d a b sc od) :=
  roundTrip_one (fun l => encMO l 0#1 0x46#7 d a b (encScope sc) (encOrd od)) (fun _ => rfl) (fun l => notLong_C (fOp_encMO ..) (by decide) (by decide) (by decide))
    (fun l => by rw [rawDecode_C _ (fK_encMO ..), rawC_46 _ (fOp_encMO ..)]; simp)
theorem amoXorD (d : RegNo) (a : RegNo) (b : RegNo) (sc : Scope) (od : Ord) : Statement (.amoXorD d a b sc od) :=
  roundTrip_one (fun l => encMO l 0#1 0x47#7 d a b (encScope sc) (encOrd od)) (fun _ => rfl) (fun l => notLong_C (fOp_encMO ..) (by decide) (by decide) (by decide))
    (fun l => by rw [rawDecode_C _ (fK_encMO ..), rawC_47 _ (fOp_encMO ..)]; simp)
theorem amoMinW (d : RegNo) (a : RegNo) (b : RegNo) (sc : Scope) (od : Ord) : Statement (.amoMinW d a b sc od) :=
  roundTrip_one (fun l => encMO l 0#1 0x48#7 d a b (encScope sc) (encOrd od)) (fun _ => rfl) (fun l => notLong_C (fOp_encMO ..) (by decide) (by decide) (by decide))
    (fun l => by rw [rawDecode_C _ (fK_encMO ..), rawC_48 _ (fOp_encMO ..)]; simp)
theorem amoMinD (d : RegNo) (a : RegNo) (b : RegNo) (sc : Scope) (od : Ord) : Statement (.amoMinD d a b sc od) :=
  roundTrip_one (fun l => encMO l 0#1 0x49#7 d a b (encScope sc) (encOrd od)) (fun _ => rfl) (fun l => notLong_C (fOp_encMO ..) (by decide) (by decide) (by decide))
    (fun l => by rw [rawDecode_C _ (fK_encMO ..), rawC_49 _ (fOp_encMO ..)]; simp)
theorem amoMaxW (d : RegNo) (a : RegNo) (b : RegNo) (sc : Scope) (od : Ord) : Statement (.amoMaxW d a b sc od) :=
  roundTrip_one (fun l => encMO l 0#1 0x4A#7 d a b (encScope sc) (encOrd od)) (fun _ => rfl) (fun l => notLong_C (fOp_encMO ..) (by decide) (by decide) (by decide))
    (fun l => by rw [rawDecode_C _ (fK_encMO ..), rawC_4A _ (fOp_encMO ..)]; simp)
theorem amoMaxD (d : RegNo) (a : RegNo) (b : RegNo) (sc : Scope) (od : Ord) : Statement (.amoMaxD d a b sc od) :=
  roundTrip_one (fun l => encMO l 0#1 0x4B#7 d a b (encScope sc) (encOrd od)) (fun _ => rfl) (fun l => notLong_C (fOp_encMO ..) (by decide) (by decide) (by decide))
    (fun l => by rw [rawDecode_C _ (fK_encMO ..), rawC_4B _ (fOp_encMO ..)]; simp)
theorem amoMinnW (d : RegNo) (a : RegNo) (b : RegNo) (sc : Scope) (od : Ord) : Statement (.amoMinnW d a b sc od) :=
  roundTrip_one (fun l => encMO l 0#1 0x4C#7 d a b (encScope sc) (encOrd od)) (fun _ => rfl) (fun l => notLong_C (fOp_encMO ..) (by decide) (by decide) (by decide))
    (fun l => by rw [rawDecode_C _ (fK_encMO ..), rawC_4C _ (fOp_encMO ..)]; simp)
theorem amoMinnD (d : RegNo) (a : RegNo) (b : RegNo) (sc : Scope) (od : Ord) : Statement (.amoMinnD d a b sc od) :=
  roundTrip_one (fun l => encMO l 0#1 0x4D#7 d a b (encScope sc) (encOrd od)) (fun _ => rfl) (fun l => notLong_C (fOp_encMO ..) (by decide) (by decide) (by decide))
    (fun l => by rw [rawDecode_C _ (fK_encMO ..), rawC_4D _ (fOp_encMO ..)]; simp)
theorem amoMaxnW (d : RegNo) (a : RegNo) (b : RegNo) (sc : Scope) (od : Ord) : Statement (.amoMaxnW d a b sc od) :=
  roundTrip_one (fun l => encMO l 0#1 0x4E#7 d a b (encScope sc) (encOrd od)) (fun _ => rfl) (fun l => notLong_C (fOp_encMO ..) (by decide) (by decide) (by decide))
    (fun l => by rw [rawDecode_C _ (fK_encMO ..), rawC_4E _ (fOp_encMO ..)]; simp)
theorem amoMaxnD (d : RegNo) (a : RegNo) (b : RegNo) (sc : Scope) (od : Ord) : Statement (.amoMaxnD d a b sc od) :=
  roundTrip_one (fun l => encMO l 0#1 0x4F#7 d a b (encScope sc) (encOrd od)) (fun _ => rfl) (fun l => notLong_C (fOp_encMO ..) (by decide) (by decide) (by decide))
    (fun l => by rw [rawDecode_C _ (fK_encMO ..), rawC_4F _ (fOp_encMO ..)]; simp)
theorem amoSwpW (d : RegNo) (a : RegNo) (b : RegNo) (sc : Scope) (od : Ord) : Statement (.amoSwpW d a b sc od) :=
  roundTrip_one (fun l => encMO l 0#1 0x50#7 d a b (encScope sc) (encOrd od)) (fun _ => rfl) (fun l => notLong_C (fOp_encMO ..) (by decide) (by decide) (by decide))
    (fun l => by rw [rawDecode_C _ (fK_encMO ..), rawC_50 _ (fOp_encMO ..)]; simp)
theorem amoSwpD (d : RegNo) (a : RegNo) (b : RegNo) (sc : Scope) (od : Ord) : Statement (.amoSwpD d a b sc od) :=
  roundTrip_one (fun l => encMO l 0#1 0x51#7 d a b (encScope sc) (encOrd od)) (fun _ => rfl) (fun l => notLong_C (fOp_encMO ..) (by decide) (by decide) (by decide))
    (fun l => by rw [rawDecode_C _ (fK_encMO ..), rawC_51 _ (fOp_encMO ..)]; simp)
theorem amoCasW (d : RegNo) (a : RegNo) (b : RegNo) (sc : Scope) (od : Ord) : Statement (.amoCasW d a b sc od) :=
  roundTrip_one (fun l => encMO l 0#1 0x52#7 d a b (encScope sc) (encOrd od)) (fun _ => rfl) (fun l => notLong_C (fOp_encMO ..) (by decide) (by decide) (by decide))
    (fun l => by rw [rawDecode_C _ (fK_encMO ..), rawC_52 _ (fOp_encMO ..)]; simp)
theorem amoCasD (d : RegNo) (a : RegNo) (b : RegNo) (sc : Scope) (od : Ord) : Statement (.amoCasD d a b sc od) :=
  roundTrip_one (fun l => encMO l 0#1 0x53#7 d a b (encScope sc) (encOrd od)) (fun _ => rfl) (fun l => notLong_C (fOp_encMO ..) (by decide) (by decide) (by decide))
    (fun l => by rw [rawDecode_C _ (fK_encMO ..), rawC_53 _ (fOp_encMO ..)]; simp)
theorem amoFaddW (d : RegNo) (a : RegNo) (b : RegNo) (sc : Scope) (od : Ord) : Statement (.amoFaddW d a b sc od) :=
  roundTrip_one (fun l => encMO l 0#1 0x54#7 d a b (encScope sc) (encOrd od)) (fun _ => rfl) (fun l => notLong_C (fOp_encMO ..) (by decide) (by decide) (by decide))
    (fun l => by rw [rawDecode_C _ (fK_encMO ..), rawC_54 _ (fOp_encMO ..)]; simp)
theorem amoFaddD (d : RegNo) (a : RegNo) (b : RegNo) (sc : Scope) (od : Ord) : Statement (.amoFaddD d a b sc od) :=
  roundTrip_one (fun l => encMO l 0#1 0x55#7 d a b (encScope sc) (encOrd od)) (fun _ => rfl) (fun l => notLong_C (fOp_encMO ..) (by decide) (by decide) (by decide))
    (fun l => by rw [rawDecode_C _ (fK_encMO ..), rawC_55 _ (fOp_encMO ..)]; simp)
theorem amoFminW (d : RegNo) (a : RegNo) (b : RegNo) (sc : Scope) (od : Ord) : Statement (.amoFminW d a b sc od) :=
  roundTrip_one (fun l => encMO l 0#1 0x56#7 d a b (encScope sc) (encOrd od)) (fun _ => rfl) (fun l => notLong_C (fOp_encMO ..) (by decide) (by decide) (by decide))
    (fun l => by rw [rawDecode_C _ (fK_encMO ..), rawC_56 _ (fOp_encMO ..)]; simp)
theorem amoFminD (d : RegNo) (a : RegNo) (b : RegNo) (sc : Scope) (od : Ord) : Statement (.amoFminD d a b sc od) :=
  roundTrip_one (fun l => encMO l 0#1 0x57#7 d a b (encScope sc) (encOrd od)) (fun _ => rfl) (fun l => notLong_C (fOp_encMO ..) (by decide) (by decide) (by decide))
    (fun l => by rw [rawDecode_C _ (fK_encMO ..), rawC_57 _ (fOp_encMO ..)]; simp)
theorem amoFmaxW (d : RegNo) (a : RegNo) (b : RegNo) (sc : Scope) (od : Ord) : Statement (.amoFmaxW d a b sc od) :=
  roundTrip_one (fun l => encMO l 0#1 0x58#7 d a b (encScope sc) (encOrd od)) (fun _ => rfl) (fun l => notLong_C (fOp_encMO ..) (by decide) (by decide) (by decide))
    (fun l => by rw [rawDecode_C _ (fK_encMO ..), rawC_58 _ (fOp_encMO ..)]; simp)
theorem amoFmaxD (d : RegNo) (a : RegNo) (b : RegNo) (sc : Scope) (od : Ord) : Statement (.amoFmaxD d a b sc od) :=
  roundTrip_one (fun l => encMO l 0#1 0x59#7 d a b (encScope sc) (encOrd od)) (fun _ => rfl) (fun l => notLong_C (fOp_encMO ..) (by decide) (by decide) (by decide))
    (fun l => by rw [rawDecode_C _ (fK_encMO ..), rawC_59 _ (fOp_encMO ..)]; simp)
theorem srel (d : RegNo) (a : RegNo) (sc : Scope) : Statement (.srel d a sc) :=
  roundTrip_one (fun l => encMO l 0#1 0x5C#7 d a 0#6 (encScope sc) 0#2) (fun _ => rfl) (fun l => notLong_C (fOp_encMO ..) (by decide) (by decide) (by decide))
    (fun l => by rw [rawDecode_C _ (fK_encMO ..), rawC_5C _ (fOp_encMO ..)]; simp)
theorem sacq (d : RegNo) (a : RegNo) (sc : Scope) : Statement (.sacq d a sc) :=
  roundTrip_one (fun l => encMO l 0#1 0x5D#7 d a 0#6 (encScope sc) 0#2) (fun _ => rfl) (fun l => notLong_C (fOp_encMO ..) (by decide) (by decide) (by decide))
    (fun l => by rw [rawDecode_C _ (fK_encMO ..), rawC_5D _ (fOp_encMO ..)]; simp)
theorem sadd (d : RegNo) (a : RegNo) (b : RegNo) (sc : Scope) : Statement (.sadd d a b sc) :=
  roundTrip_one (fun l => encMO l 0#1 0x5E#7 d a b (encScope sc) 0#2) (fun _ => rfl) (fun l => notLong_C (fOp_encMO ..) (by decide) (by decide) (by decide))
    (fun l => by rw [rawDecode_C _ (fK_encMO ..), rawC_5E _ (fOp_encMO ..)]; simp)
theorem scas (d : RegNo) (a : RegNo) (b : RegNo) (sc : Scope) : Statement (.scas d a b sc) :=
  roundTrip_one (fun l => encMO l 0#1 0x5F#7 d a b (encScope sc) 0#2) (fun _ => rfl) (fun l => notLong_C (fOp_encMO ..) (by decide) (by decide) (by decide))
    (fun l => by rw [rawDecode_C _ (fK_encMO ..), rawC_5F _ (fOp_encMO ..)]; simp)
theorem rbind (d : RegNo) (a : RegNo) : Statement (.rbind d a) :=
  roundTrip_one (fun l => encRR l 0#1 0x60#7 d a 0#6 0#5) (fun _ => rfl) (fun l => notLong_C (fOp_encRR ..) (by decide) (by decide) (by decide))
    (fun l => by rw [rawDecode_C _ (fK_encRR ..), rawC_60 _ (fOp_encRR ..), rawCOp60_0 _ (fF_encRR ..)]; simp)
theorem rwf (d : RegNo) (a : RegNo) : Statement (.rwf d a) :=
  roundTrip_one (fun l => encRR l 0#1 0x60#7 d a 0#6 1#5) (fun _ => rfl) (fun l => notLong_C (fOp_encRR ..) (by decide) (by decide) (by decide))
    (fun l => by rw [rawDecode_C _ (fK_encRR ..), rawC_60 _ (fOp_encRR ..), rawCOp60_1 _ (fF_encRR ..)]; simp)
theorem rwe (d : RegNo) (a : RegNo) : Statement (.rwe d a) :=
  roundTrip_one (fun l => encRR l 0#1 0x60#7 d a 0#6 2#5) (fun _ => rfl) (fun l => notLong_C (fOp_encRR ..) (by decide) (by decide) (by decide))
    (fun l => by rw [rawDecode_C _ (fK_encRR ..), rawC_60 _ (fOp_encRR ..), rawCOp60_2 _ (fF_encRR ..)]; simp)
theorem radvp (d : RegNo) (a : RegNo) : Statement (.radvp d a) :=
  roundTrip_one (fun l => encRR l 0#1 0x60#7 d a 0#6 3#5) (fun _ => rfl) (fun l => notLong_C (fOp_encRR ..) (by decide) (by decide) (by decide))
    (fun l => by rw [rawDecode_C _ (fK_encRR ..), rawC_60 _ (fOp_encRR ..), rawCOp60_3 _ (fF_encRR ..)]; simp)
theorem radvc (d : RegNo) (a : RegNo) : Statement (.radvc d a) :=
  roundTrip_one (fun l => encRR l 0#1 0x60#7 d a 0#6 4#5) (fun _ => rfl) (fun l => notLong_C (fOp_encRR ..) (by decide) (by decide) (by decide))
    (fun l => by rw [rawDecode_C _ (fK_encRR ..), rawC_60 _ (fOp_encRR ..), rawCOp60_4 _ (fF_encRR ..)]; simp)
theorem raddr (d : RegNo) (a : RegNo) (b : RegNo) : Statement (.raddr d a b) :=
  roundTrip_one (fun l => encRR l 0#1 0x60#7 d a b 5#5) (fun _ => rfl) (fun l => notLong_C (fOp_encRR ..) (by decide) (by decide) (by decide))
    (fun l => by rw [rawDecode_C _ (fK_encRR ..), rawC_60 _ (fOp_encRR ..), rawCOp60_5 _ (fF_encRR ..)]; simp)
theorem rbytes (d : RegNo) (a : RegNo) (b : RegNo) : Statement (.rbytes d a b) :=
  roundTrip_one (fun l => encRR l 0#1 0x60#7 d a b 6#5) (fun _ => rfl) (fun l => notLong_C (fOp_encRR ..) (by decide) (by decide) (by decide))
    (fun l => by rw [rawDecode_C _ (fK_encRR ..), rawC_60 _ (fOp_encRR ..), rawCOp60_6 _ (fF_encRR ..)]; simp)
theorem qbind (d : RegNo) (a : RegNo) : Statement (.qbind d a) :=
  roundTrip_one (fun l => encRR l 0#1 0x60#7 d a 0#6 7#5) (fun _ => rfl) (fun l => notLong_C (fOp_encRR ..) (by decide) (by decide) (by decide))
    (fun l => by rw [rawDecode_C _ (fK_encRR ..), rawC_60 _ (fOp_encRR ..), rawCOp60_7 _ (fF_encRR ..)]; simp)
theorem conv (d : RegNo) (a : RegNo) (b : RegNo) : Statement (.conv d a b) :=
  roundTrip_one (fun l => encRR l 0#1 0x61#7 d a b 0#5) (fun _ => rfl) (fun l => notLong_C (fOp_encRR ..) (by decide) (by decide) (by decide))
    (fun l => by rw [rawDecode_C _ (fK_encRR ..), rawC_61 _ (fOp_encRR ..), rawCOp61_0 _ (fF_encRR ..)]; simp)
theorem gbar : Statement (.gbar) :=
  roundTrip_one (fun l => encRR l 0#1 0x61#7 0#6 0#6 0#6 1#5) (fun _ => rfl) (fun l => notLong_C (fOp_encRR ..) (by decide) (by decide) (by decide))
    (fun l => by rw [rawDecode_C _ (fK_encRR ..), rawC_61 _ (fOp_encRR ..), rawCOp61_1 _ (fF_encRR ..)]; simp)
theorem gbc (d : RegNo) (a : RegNo) (b : RegNo) : Statement (.gbc d a b) :=
  roundTrip_one (fun l => encRR l 0#1 0x61#7 d a b 2#5) (fun _ => rfl) (fun l => notLong_C (fOp_encRR ..) (by decide) (by decide) (by decide))
    (fun l => by rw [rawDecode_C _ (fK_encRR ..), rawC_61 _ (fOp_encRR ..), rawCOp61_2 _ (fF_encRR ..)]; simp)
theorem gbcD (d : RegNo) (a : RegNo) (b : RegNo) : Statement (.gbcD d a b) :=
  roundTrip_one (fun l => encRR l 0#1 0x61#7 d a b 3#5) (fun _ => rfl) (fun l => notLong_C (fOp_encRR ..) (by decide) (by decide) (by decide))
    (fun l => by rw [rawDecode_C _ (fK_encRR ..), rawC_61 _ (fOp_encRR ..), rawCOp61_3 _ (fF_encRR ..)]; simp)
theorem gdis : Statement (.gdis) :=
  roundTrip_one (fun l => encRR l 0#1 0x61#7 0#6 0#6 0#6 4#5) (fun _ => rfl) (fun l => notLong_C (fOp_encRR ..) (by decide) (by decide) (by decide))
    (fun l => by rw [rawDecode_C _ (fK_encRR ..), rawC_61 _ (fOp_encRR ..), rawCOp61_4 _ (fF_encRR ..)]; simp)
theorem gredAddF32 (d : RegNo) (a : RegNo) : Statement (.gredAddF32 d a) :=
  roundTrip_one (fun l => encRR l 0#1 0x62#7 d a 0#6 0#5) (fun _ => rfl) (fun l => notLong_C (fOp_encRR ..) (by decide) (by decide) (by decide))
    (fun l => by rw [rawDecode_C _ (fK_encRR ..), rawC_62 _ (fOp_encRR ..), rawCOp62_0 _ (fF_encRR ..)]; simp)
theorem gredAddF64 (d : RegNo) (a : RegNo) : Statement (.gredAddF64 d a) :=
  roundTrip_one (fun l => encRR l 0#1 0x62#7 d a 0#6 1#5) (fun _ => rfl) (fun l => notLong_C (fOp_encRR ..) (by decide) (by decide) (by decide))
    (fun l => by rw [rawDecode_C _ (fK_encRR ..), rawC_62 _ (fOp_encRR ..), rawCOp62_1 _ (fF_encRR ..)]; simp)
theorem gredCaddF32 (d : RegNo) (a : RegNo) : Statement (.gredCaddF32 d a) :=
  roundTrip_one (fun l => encRR l 0#1 0x62#7 d a 0#6 2#5) (fun _ => rfl) (fun l => notLong_C (fOp_encRR ..) (by decide) (by decide) (by decide))
    (fun l => by rw [rawDecode_C _ (fK_encRR ..), rawC_62 _ (fOp_encRR ..), rawCOp62_2 _ (fF_encRR ..)]; simp)
theorem gredAddI32 (d : RegNo) (a : RegNo) : Statement (.gredAddI32 d a) :=
  roundTrip_one (fun l => encRR l 0#1 0x62#7 d a 0#6 3#5) (fun _ => rfl) (fun l => notLong_C (fOp_encRR ..) (by decide) (by decide) (by decide))
    (fun l => by rw [rawDecode_C _ (fK_encRR ..), rawC_62 _ (fOp_encRR ..), rawCOp62_3 _ (fF_encRR ..)]; simp)
theorem gredAddI64 (d : RegNo) (a : RegNo) : Statement (.gredAddI64 d a) :=
  roundTrip_one (fun l => encRR l 0#1 0x62#7 d a 0#6 4#5) (fun _ => rfl) (fun l => notLong_C (fOp_encRR ..) (by decide) (by decide) (by decide))
    (fun l => by rw [rawDecode_C _ (fK_encRR ..), rawC_62 _ (fOp_encRR ..), rawCOp62_4 _ (fF_encRR ..)]; simp)
theorem gredMaxF32 (d : RegNo) (a : RegNo) : Statement (.gredMaxF32 d a) :=
  roundTrip_one (fun l => encRR l 0#1 0x62#7 d a 0#6 5#5) (fun _ => rfl) (fun l => notLong_C (fOp_encRR ..) (by decide) (by decide) (by decide))
    (fun l => by rw [rawDecode_C _ (fK_encRR ..), rawC_62 _ (fOp_encRR ..), rawCOp62_5 _ (fF_encRR ..)]; simp)
theorem gredMinF32 (d : RegNo) (a : RegNo) : Statement (.gredMinF32 d a) :=
  roundTrip_one (fun l => encRR l 0#1 0x62#7 d a 0#6 6#5) (fun _ => rfl) (fun l => notLong_C (fOp_encRR ..) (by decide) (by decide) (by decide))
    (fun l => by rw [rawDecode_C _ (fK_encRR ..), rawC_62 _ (fOp_encRR ..), rawCOp62_6 _ (fF_encRR ..)]; simp)
theorem gredMaxF64 (d : RegNo) (a : RegNo) : Statement (.gredMaxF64 d a) :=
  roundTrip_one (fun l => encRR l 0#1 0x62#7 d a 0#6 7#5) (fun _ => rfl) (fun l => notLong_C (fOp_encRR ..) (by decide) (by decide) (by decide))
    (fun l => by rw [rawDecode_C _ (fK_encRR ..), rawC_62 _ (fOp_encRR ..), rawCOp62_7 _ (fF_encRR ..)]; simp)
theorem gredMinF64 (d : RegNo) (a : RegNo) : Statement (.gredMinF64 d a) :=
  roundTrip_one (fun l => encRR l 0#1 0x62#7 d a 0#6 8#5) (fun _ => rfl) (fun l => notLong_C (fOp_encRR ..) (by decide) (by decide) (by decide))
    (fun l => by rw [rawDecode_C _ (fK_encRR ..), rawC_62 _ (fOp_encRR ..), rawCOp62_8 _ (fF_encRR ..)]; simp)
theorem gredMaxI32 (d : RegNo) (a : RegNo) : Statement (.gredMaxI32 d a) :=
  roundTrip_one (fun l => encRR l 0#1 0x62#7 d a 0#6 9#5) (fun _ => rfl) (fun l => notLong_C (fOp_encRR ..) (by decide) (by decide) (by decide))
    (fun l => by rw [rawDecode_C _ (fK_encRR ..), rawC_62 _ (fOp_encRR ..), rawCOp62_9 _ (fF_encRR ..)]; simp)
theorem gredMinI32 (d : RegNo) (a : RegNo) : Statement (.gredMinI32 d a) :=
  roundTrip_one (fun l => encRR l 0#1 0x62#7 d a 0#6 10#5) (fun _ => rfl) (fun l => notLong_C (fOp_encRR ..) (by decide) (by decide) (by decide))
    (fun l => by rw [rawDecode_C _ (fK_encRR ..), rawC_62 _ (fOp_encRR ..), rawCOp62_10 _ (fF_encRR ..)]; simp)
theorem gredAnd (d : RegNo) (a : RegNo) : Statement (.gredAnd d a) :=
  roundTrip_one (fun l => encRR l 0#1 0x62#7 d a 0#6 11#5) (fun _ => rfl) (fun l => notLong_C (fOp_encRR ..) (by decide) (by decide) (by decide))
    (fun l => by rw [rawDecode_C _ (fK_encRR ..), rawC_62 _ (fOp_encRR ..), rawCOp62_11 _ (fF_encRR ..)]; simp)
theorem gredOr (d : RegNo) (a : RegNo) : Statement (.gredOr d a) :=
  roundTrip_one (fun l => encRR l 0#1 0x62#7 d a 0#6 12#5) (fun _ => rfl) (fun l => notLong_C (fOp_encRR ..) (by decide) (by decide) (by decide))
    (fun l => by rw [rawDecode_C _ (fK_encRR ..), rawC_62 _ (fOp_encRR ..), rawCOp62_12 _ (fF_encRR ..)]; simp)
theorem gredXor (d : RegNo) (a : RegNo) : Statement (.gredXor d a) :=
  roundTrip_one (fun l => encRR l 0#1 0x62#7 d a 0#6 13#5) (fun _ => rfl) (fun l => notLong_C (fOp_encRR ..) (by decide) (by decide) (by decide))
    (fun l => by rw [rawDecode_C _ (fK_encRR ..), rawC_62 _ (fOp_encRR ..), rawCOp62_13 _ (fF_encRR ..)]; simp)
theorem tcopy (d : RegNo) (a : RegNo) (b : RegNo) : Statement (.tcopy d a b) :=
  roundTrip_one (fun l => encRR l 0#1 0x63#7 d a b 0#5) (fun _ => rfl) (fun l => notLong_C (fOp_encRR ..) (by decide) (by decide) (by decide))
    (fun l => by rw [rawDecode_C _ (fK_encRR ..), rawC_63 _ (fOp_encRR ..), rawCOp63_0 _ (fF_encRR ..)]; simp)
theorem scopy (d : RegNo) (a : RegNo) (b : RegNo) : Statement (.scopy d a b) :=
  roundTrip_one (fun l => encRR l 0#1 0x63#7 d a b 1#5) (fun _ => rfl) (fun l => notLong_C (fOp_encRR ..) (by decide) (by decide) (by decide))
    (fun l => by rw [rawDecode_C _ (fK_encRR ..), rawC_63 _ (fOp_encRR ..), rawCOp63_1 _ (fF_encRR ..)]; simp)
theorem tfill (d : RegNo) (a : RegNo) (b : RegNo) : Statement (.tfill d a b) :=
  roundTrip_one (fun l => encRR l 0#1 0x63#7 d a b 2#5) (fun _ => rfl) (fun l => notLong_C (fOp_encRR ..) (by decide) (by decide) (by decide))
    (fun l => by rw [rawDecode_C _ (fK_encRR ..), rawC_63 _ (fOp_encRR ..), rawCOp63_2 _ (fF_encRR ..)]; simp)
theorem ewait (a : RegNo) : Statement (.ewait a) :=
  roundTrip_one (fun l => encRR l 0#1 0x63#7 0#6 a 0#6 3#5) (fun _ => rfl) (fun l => notLong_C (fOp_encRR ..) (by decide) (by decide) (by decide))
    (fun l => by rw [rawDecode_C _ (fK_encRR ..), rawC_63 _ (fOp_encRR ..), rawCOp63_3 _ (fF_encRR ..)]; simp)
theorem eprog (d : RegNo) (a : RegNo) : Statement (.eprog d a) :=
  roundTrip_one (fun l => encRR l 0#1 0x63#7 d a 0#6 4#5) (fun _ => rfl) (fun l => notLong_C (fOp_encRR ..) (by decide) (by decide) (by decide))
    (fun l => by rw [rawDecode_C _ (fK_encRR ..), rawC_63 _ (fOp_encRR ..), rawCOp63_4 _ (fF_encRR ..)]; simp)
theorem mxCfg (d : RegNo) (a : RegNo) : Statement (.mxCfg d a) :=
  roundTrip_one (fun l => encRR l 0#1 0x64#7 d a 0#6 0#5) (fun _ => rfl) (fun l => notLong_C (fOp_encRR ..) (by decide) (by decide) (by decide))
    (fun l => by rw [rawDecode_C _ (fK_encRR ..), rawC_64 _ (fOp_encRR ..), rawCOp64_0 _ (fF_encRR ..)]; simp)
theorem mxZero (d : RegNo) : Statement (.mxZero d) :=
  roundTrip_one (fun l => encRR l 0#1 0x64#7 d 0#6 0#6 1#5) (fun _ => rfl) (fun l => notLong_C (fOp_encRR ..) (by decide) (by decide) (by decide))
    (fun l => by rw [rawDecode_C _ (fK_encRR ..), rawC_64 _ (fOp_encRR ..), rawCOp64_1 _ (fF_encRR ..)]; simp)
theorem mxLd (d : RegNo) (a : RegNo) : Statement (.mxLd d a) :=
  roundTrip_one (fun l => encRR l 0#1 0x64#7 d a 0#6 2#5) (fun _ => rfl) (fun l => notLong_C (fOp_encRR ..) (by decide) (by decide) (by decide))
    (fun l => by rw [rawDecode_C _ (fK_encRR ..), rawC_64 _ (fOp_encRR ..), rawCOp64_2 _ (fF_encRR ..)]; simp)
theorem mxSt (d : RegNo) (a : RegNo) (b : RegNo) : Statement (.mxSt d a b) :=
  roundTrip_one (fun l => encRR l 0#1 0x64#7 d a b 3#5) (fun _ => rfl) (fun l => notLong_C (fOp_encRR ..) (by decide) (by decide) (by decide))
    (fun l => by rw [rawDecode_C _ (fK_encRR ..), rawC_64 _ (fOp_encRR ..), rawCOp64_3 _ (fF_encRR ..)]; simp)
theorem mxMerge (d : RegNo) (a : RegNo) (b : RegNo) : Statement (.mxMerge d a b) :=
  roundTrip_one (fun l => encRR l 0#1 0x64#7 d a b 4#5) (fun _ => rfl) (fun l => notLong_C (fOp_encRR ..) (by decide) (by decide) (by decide))
    (fun l => by rw [rawDecode_C _ (fK_encRR ..), rawC_64 _ (fOp_encRR ..), rawCOp64_4 _ (fF_encRR ..)]; simp)
theorem mmaF64 (d : RegNo) (a : RegNo) (b : RegNo) : Statement (.mmaF64 d a b) :=
  roundTrip_one (fun l => encRR l 0#1 0x65#7 d a b 0#5) (fun _ => rfl) (fun l => notLong_C (fOp_encRR ..) (by decide) (by decide) (by decide))
    (fun l => by rw [rawDecode_C _ (fK_encRR ..), rawC_65 _ (fOp_encRR ..), rawCOp65_0 _ (fF_encRR ..)]; simp)
theorem mmaF32 (d : RegNo) (a : RegNo) (b : RegNo) : Statement (.mmaF32 d a b) :=
  roundTrip_one (fun l => encRR l 0#1 0x65#7 d a b 1#5) (fun _ => rfl) (fun l => notLong_C (fOp_encRR ..) (by decide) (by decide) (by decide))
    (fun l => by rw [rawDecode_C _ (fK_encRR ..), rawC_65 _ (fOp_encRR ..), rawCOp65_1 _ (fF_encRR ..)]; simp)
theorem mmaBf16 (d : RegNo) (a : RegNo) (b : RegNo) : Statement (.mmaBf16 d a b) :=
  roundTrip_one (fun l => encRR l 0#1 0x65#7 d a b 2#5) (fun _ => rfl) (fun l => notLong_C (fOp_encRR ..) (by decide) (by decide) (by decide))
    (fun l => by rw [rawDecode_C _ (fK_encRR ..), rawC_65 _ (fOp_encRR ..), rawCOp65_2 _ (fF_encRR ..)]; simp)
theorem mmaF16 (d : RegNo) (a : RegNo) (b : RegNo) : Statement (.mmaF16 d a b) :=
  roundTrip_one (fun l => encRR l 0#1 0x65#7 d a b 3#5) (fun _ => rfl) (fun l => notLong_C (fOp_encRR ..) (by decide) (by decide) (by decide))
    (fun l => by rw [rawDecode_C _ (fK_encRR ..), rawC_65 _ (fOp_encRR ..), rawCOp65_3 _ (fF_encRR ..)]; simp)
theorem mmaE4m3 (d : RegNo) (a : RegNo) (b : RegNo) : Statement (.mmaE4m3 d a b) :=
  roundTrip_one (fun l => encRR l 0#1 0x65#7 d a b 4#5) (fun _ => rfl) (fun l => notLong_C (fOp_encRR ..) (by decide) (by decide) (by decide))
    (fun l => by rw [rawDecode_C _ (fK_encRR ..), rawC_65 _ (fOp_encRR ..), rawCOp65_4 _ (fF_encRR ..)]; simp)
theorem mmaE5m2 (d : RegNo) (a : RegNo) (b : RegNo) : Statement (.mmaE5m2 d a b) :=
  roundTrip_one (fun l => encRR l 0#1 0x65#7 d a b 5#5) (fun _ => rfl) (fun l => notLong_C (fOp_encRR ..) (by decide) (by decide) (by decide))
    (fun l => by rw [rawDecode_C _ (fK_encRR ..), rawC_65 _ (fOp_encRR ..), rawCOp65_5 _ (fF_encRR ..)]; simp)
theorem mmaMx8 (d : RegNo) (a : RegNo) (b : RegNo) : Statement (.mmaMx8 d a b) :=
  roundTrip_one (fun l => encRR l 0#1 0x65#7 d a b 6#5) (fun _ => rfl) (fun l => notLong_C (fOp_encRR ..) (by decide) (by decide) (by decide))
    (fun l => by rw [rawDecode_C _ (fK_encRR ..), rawC_65 _ (fOp_encRR ..), rawCOp65_6 _ (fF_encRR ..)]; simp)
theorem mmaE2m1 (d : RegNo) (a : RegNo) (b : RegNo) : Statement (.mmaE2m1 d a b) :=
  roundTrip_one (fun l => encRR l 0#1 0x65#7 d a b 7#5) (fun _ => rfl) (fun l => notLong_C (fOp_encRR ..) (by decide) (by decide) (by decide))
    (fun l => by rw [rawDecode_C _ (fK_encRR ..), rawC_65 _ (fOp_encRR ..), rawCOp65_7 _ (fF_encRR ..)]; simp)
theorem launch (d : RegNo) (a : RegNo) : Statement (.launch d a) :=
  roundTrip_one (fun l => encRR l 0#1 0x66#7 d a 0#6 0#5) (fun _ => rfl) (fun l => notLong_C (fOp_encRR ..) (by decide) (by decide) (by decide))
    (fun l => by rw [rawDecode_C _ (fK_encRR ..), rawC_66 _ (fOp_encRR ..), rawCOp66_0 _ (fF_encRR ..)]; simp)
theorem nsend (a : RegNo) (b : RegNo) : Statement (.nsend a b) :=
  roundTrip_one (fun l => encRR l 0#1 0x66#7 0#6 a b 1#5) (fun _ => rfl) (fun l => notLong_C (fOp_encRR ..) (by decide) (by decide) (by decide))
    (fun l => by rw [rawDecode_C _ (fK_encRR ..), rawC_66 _ (fOp_encRR ..), rawCOp66_1 _ (fF_encRR ..)]; simp)
theorem nrecv (d : RegNo) (a : RegNo) : Statement (.nrecv d a) :=
  roundTrip_one (fun l => encRR l 0#1 0x66#7 d a 0#6 2#5) (fun _ => rfl) (fun l => notLong_C (fOp_encRR ..) (by decide) (by decide) (by decide))
    (fun l => by rw [rawDecode_C _ (fK_encRR ..), rawC_66 _ (fOp_encRR ..), rawCOp66_2 _ (fF_encRR ..)]; simp)
theorem nmcast (a : RegNo) (b : RegNo) : Statement (.nmcast a b) :=
  roundTrip_one (fun l => encRR l 0#1 0x66#7 0#6 a b 3#5) (fun _ => rfl) (fun l => notLong_C (fOp_encRR ..) (by decide) (by decide) (by decide))
    (fun l => by rw [rawDecode_C _ (fK_encRR ..), rawC_66 _ (fOp_encRR ..), rawCOp66_3 _ (fF_encRR ..)]; simp)
theorem collRedAddF32 (d : RegNo) (a : RegNo) : Statement (.collRedAddF32 d a) :=
  roundTrip_one (fun l => encRR l 0#1 0x67#7 d a 0#6 0#5) (fun _ => rfl) (fun l => notLong_C (fOp_encRR ..) (by decide) (by decide) (by decide))
    (fun l => by rw [rawDecode_C _ (fK_encRR ..), rawC_67 _ (fOp_encRR ..), rawCOp67_0 _ (fF_encRR ..)]; simp)
theorem collRedAddF64 (d : RegNo) (a : RegNo) : Statement (.collRedAddF64 d a) :=
  roundTrip_one (fun l => encRR l 0#1 0x67#7 d a 0#6 1#5) (fun _ => rfl) (fun l => notLong_C (fOp_encRR ..) (by decide) (by decide) (by decide))
    (fun l => by rw [rawDecode_C _ (fK_encRR ..), rawC_67 _ (fOp_encRR ..), rawCOp67_1 _ (fF_encRR ..)]; simp)
theorem collRedCaddF32 (d : RegNo) (a : RegNo) : Statement (.collRedCaddF32 d a) :=
  roundTrip_one (fun l => encRR l 0#1 0x67#7 d a 0#6 2#5) (fun _ => rfl) (fun l => notLong_C (fOp_encRR ..) (by decide) (by decide) (by decide))
    (fun l => by rw [rawDecode_C _ (fK_encRR ..), rawC_67 _ (fOp_encRR ..), rawCOp67_2 _ (fF_encRR ..)]; simp)
theorem collRedAddI32 (d : RegNo) (a : RegNo) : Statement (.collRedAddI32 d a) :=
  roundTrip_one (fun l => encRR l 0#1 0x67#7 d a 0#6 3#5) (fun _ => rfl) (fun l => notLong_C (fOp_encRR ..) (by decide) (by decide) (by decide))
    (fun l => by rw [rawDecode_C _ (fK_encRR ..), rawC_67 _ (fOp_encRR ..), rawCOp67_3 _ (fF_encRR ..)]; simp)
theorem collRedAddI64 (d : RegNo) (a : RegNo) : Statement (.collRedAddI64 d a) :=
  roundTrip_one (fun l => encRR l 0#1 0x67#7 d a 0#6 4#5) (fun _ => rfl) (fun l => notLong_C (fOp_encRR ..) (by decide) (by decide) (by decide))
    (fun l => by rw [rawDecode_C _ (fK_encRR ..), rawC_67 _ (fOp_encRR ..), rawCOp67_4 _ (fF_encRR ..)]; simp)
theorem collRedMaxF32 (d : RegNo) (a : RegNo) : Statement (.collRedMaxF32 d a) :=
  roundTrip_one (fun l => encRR l 0#1 0x67#7 d a 0#6 5#5) (fun _ => rfl) (fun l => notLong_C (fOp_encRR ..) (by decide) (by decide) (by decide))
    (fun l => by rw [rawDecode_C _ (fK_encRR ..), rawC_67 _ (fOp_encRR ..), rawCOp67_5 _ (fF_encRR ..)]; simp)
theorem collRedMinF32 (d : RegNo) (a : RegNo) : Statement (.collRedMinF32 d a) :=
  roundTrip_one (fun l => encRR l 0#1 0x67#7 d a 0#6 6#5) (fun _ => rfl) (fun l => notLong_C (fOp_encRR ..) (by decide) (by decide) (by decide))
    (fun l => by rw [rawDecode_C _ (fK_encRR ..), rawC_67 _ (fOp_encRR ..), rawCOp67_6 _ (fF_encRR ..)]; simp)
theorem collRedMaxF64 (d : RegNo) (a : RegNo) : Statement (.collRedMaxF64 d a) :=
  roundTrip_one (fun l => encRR l 0#1 0x67#7 d a 0#6 7#5) (fun _ => rfl) (fun l => notLong_C (fOp_encRR ..) (by decide) (by decide) (by decide))
    (fun l => by rw [rawDecode_C _ (fK_encRR ..), rawC_67 _ (fOp_encRR ..), rawCOp67_7 _ (fF_encRR ..)]; simp)
theorem collRedMinF64 (d : RegNo) (a : RegNo) : Statement (.collRedMinF64 d a) :=
  roundTrip_one (fun l => encRR l 0#1 0x67#7 d a 0#6 8#5) (fun _ => rfl) (fun l => notLong_C (fOp_encRR ..) (by decide) (by decide) (by decide))
    (fun l => by rw [rawDecode_C _ (fK_encRR ..), rawC_67 _ (fOp_encRR ..), rawCOp67_8 _ (fF_encRR ..)]; simp)
theorem collRedMaxI32 (d : RegNo) (a : RegNo) : Statement (.collRedMaxI32 d a) :=
  roundTrip_one (fun l => encRR l 0#1 0x67#7 d a 0#6 9#5) (fun _ => rfl) (fun l => notLong_C (fOp_encRR ..) (by decide) (by decide) (by decide))
    (fun l => by rw [rawDecode_C _ (fK_encRR ..), rawC_67 _ (fOp_encRR ..), rawCOp67_9 _ (fF_encRR ..)]; simp)
theorem collRedMinI32 (d : RegNo) (a : RegNo) : Statement (.collRedMinI32 d a) :=
  roundTrip_one (fun l => encRR l 0#1 0x67#7 d a 0#6 10#5) (fun _ => rfl) (fun l => notLong_C (fOp_encRR ..) (by decide) (by decide) (by decide))
    (fun l => by rw [rawDecode_C _ (fK_encRR ..), rawC_67 _ (fOp_encRR ..), rawCOp67_10 _ (fF_encRR ..)]; simp)
theorem collRedAnd (d : RegNo) (a : RegNo) : Statement (.collRedAnd d a) :=
  roundTrip_one (fun l => encRR l 0#1 0x67#7 d a 0#6 11#5) (fun _ => rfl) (fun l => notLong_C (fOp_encRR ..) (by decide) (by decide) (by decide))
    (fun l => by rw [rawDecode_C _ (fK_encRR ..), rawC_67 _ (fOp_encRR ..), rawCOp67_11 _ (fF_encRR ..)]; simp)
theorem collRedOr (d : RegNo) (a : RegNo) : Statement (.collRedOr d a) :=
  roundTrip_one (fun l => encRR l 0#1 0x67#7 d a 0#6 12#5) (fun _ => rfl) (fun l => notLong_C (fOp_encRR ..) (by decide) (by decide) (by decide))
    (fun l => by rw [rawDecode_C _ (fK_encRR ..), rawC_67 _ (fOp_encRR ..), rawCOp67_12 _ (fF_encRR ..)]; simp)
theorem collRedXor (d : RegNo) (a : RegNo) : Statement (.collRedXor d a) :=
  roundTrip_one (fun l => encRR l 0#1 0x67#7 d a 0#6 13#5) (fun _ => rfl) (fun l => notLong_C (fOp_encRR ..) (by decide) (by decide) (by decide))
    (fun l => by rw [rawDecode_C _ (fK_encRR ..), rawC_67 _ (fOp_encRR ..), rawCOp67_13 _ (fF_encRR ..)]; simp)
theorem collBc (d : RegNo) (a : RegNo) : Statement (.collBc d a) :=
  roundTrip_one (fun l => encRR l 0#1 0x67#7 d a 0#6 14#5) (fun _ => rfl) (fun l => notLong_C (fOp_encRR ..) (by decide) (by decide) (by decide))
    (fun l => by rw [rawDecode_C _ (fK_encRR ..), rawC_67 _ (fOp_encRR ..), rawCOp67_14 _ (fF_encRR ..)]; simp)
theorem collAg (d : RegNo) (a : RegNo) : Statement (.collAg d a) :=
  roundTrip_one (fun l => encRR l 0#1 0x67#7 d a 0#6 15#5) (fun _ => rfl) (fun l => notLong_C (fOp_encRR ..) (by decide) (by decide) (by decide))
    (fun l => by rw [rawDecode_C _ (fK_encRR ..), rawC_67 _ (fOp_encRR ..), rawCOp67_15 _ (fF_encRR ..)]; simp)
theorem add (d : RegNo) (a : RegNo) (b : RegNo) : Statement (.add d a b) :=
  roundTrip_one (fun l => encRR l 1#1 0x00#7 d a b 0#5) (fun _ => rfl) (fun l => notLong_A (fK_encRR ..))
    (fun l => by rw [rawDecode_A _ (fK_encRR ..) (by rw [fOp_encRR]; decide), rawA_00 _ (fOp_encRR ..), rawAOp00_0 _ (fF_encRR ..)]; simp)
theorem sub (d : RegNo) (a : RegNo) (b : RegNo) : Statement (.sub d a b) :=
  roundTrip_one (fun l => encRR l 1#1 0x00#7 d a b 1#5) (fun _ => rfl) (fun l => notLong_A (fK_encRR ..))
    (fun l => by rw [rawDecode_A _ (fK_encRR ..) (by rw [fOp_encRR]; decide), rawA_00 _ (fOp_encRR ..), rawAOp00_1 _ (fF_encRR ..)]; simp)
theorem mul (d : RegNo) (a : RegNo) (b : RegNo) : Statement (.mul d a b) :=
  roundTrip_one (fun l => encRR l 1#1 0x00#7 d a b 2#5) (fun _ => rfl) (fun l => notLong_A (fK_encRR ..))
    (fun l => by rw [rawDecode_A _ (fK_encRR ..) (by rw [fOp_encRR]; decide), rawA_00 _ (fOp_encRR ..), rawAOp00_2 _ (fF_encRR ..)]; simp)
theorem mulh (d : RegNo) (a : RegNo) (b : RegNo) : Statement (.mulh d a b) :=
  roundTrip_one (fun l => encRR l 1#1 0x00#7 d a b 3#5) (fun _ => rfl) (fun l => notLong_A (fK_encRR ..))
    (fun l => by rw [rawDecode_A _ (fK_encRR ..) (by rw [fOp_encRR]; decide), rawA_00 _ (fOp_encRR ..), rawAOp00_3 _ (fF_encRR ..)]; simp)
theorem mulhn (d : RegNo) (a : RegNo) (b : RegNo) : Statement (.mulhn d a b) :=
  roundTrip_one (fun l => encRR l 1#1 0x00#7 d a b 4#5) (fun _ => rfl) (fun l => notLong_A (fK_encRR ..))
    (fun l => by rw [rawDecode_A _ (fK_encRR ..) (by rw [fOp_encRR]; decide), rawA_00 _ (fOp_encRR ..), rawAOp00_4 _ (fF_encRR ..)]; simp)
theorem div (d : RegNo) (a : RegNo) (b : RegNo) : Statement (.div d a b) :=
  roundTrip_one (fun l => encRR l 1#1 0x00#7 d a b 5#5) (fun _ => rfl) (fun l => notLong_A (fK_encRR ..))
    (fun l => by rw [rawDecode_A _ (fK_encRR ..) (by rw [fOp_encRR]; decide), rawA_00 _ (fOp_encRR ..), rawAOp00_5 _ (fF_encRR ..)]; simp)
theorem divn (d : RegNo) (a : RegNo) (b : RegNo) : Statement (.divn d a b) :=
  roundTrip_one (fun l => encRR l 1#1 0x00#7 d a b 6#5) (fun _ => rfl) (fun l => notLong_A (fK_encRR ..))
    (fun l => by rw [rawDecode_A _ (fK_encRR ..) (by rw [fOp_encRR]; decide), rawA_00 _ (fOp_encRR ..), rawAOp00_6 _ (fF_encRR ..)]; simp)
theorem rem (d : RegNo) (a : RegNo) (b : RegNo) : Statement (.rem d a b) :=
  roundTrip_one (fun l => encRR l 1#1 0x00#7 d a b 7#5) (fun _ => rfl) (fun l => notLong_A (fK_encRR ..))
    (fun l => by rw [rawDecode_A _ (fK_encRR ..) (by rw [fOp_encRR]; decide), rawA_00 _ (fOp_encRR ..), rawAOp00_7 _ (fF_encRR ..)]; simp)
theorem remn (d : RegNo) (a : RegNo) (b : RegNo) : Statement (.remn d a b) :=
  roundTrip_one (fun l => encRR l 1#1 0x00#7 d a b 8#5) (fun _ => rfl) (fun l => notLong_A (fK_encRR ..))
    (fun l => by rw [rawDecode_A _ (fK_encRR ..) (by rw [fOp_encRR]; decide), rawA_00 _ (fOp_encRR ..), rawAOp00_8 _ (fF_encRR ..)]; simp)
theorem min (d : RegNo) (a : RegNo) (b : RegNo) : Statement (.min d a b) :=
  roundTrip_one (fun l => encRR l 1#1 0x00#7 d a b 9#5) (fun _ => rfl) (fun l => notLong_A (fK_encRR ..))
    (fun l => by rw [rawDecode_A _ (fK_encRR ..) (by rw [fOp_encRR]; decide), rawA_00 _ (fOp_encRR ..), rawAOp00_9 _ (fF_encRR ..)]; simp)
theorem max (d : RegNo) (a : RegNo) (b : RegNo) : Statement (.max d a b) :=
  roundTrip_one (fun l => encRR l 1#1 0x00#7 d a b 10#5) (fun _ => rfl) (fun l => notLong_A (fK_encRR ..))
    (fun l => by rw [rawDecode_A _ (fK_encRR ..) (by rw [fOp_encRR]; decide), rawA_00 _ (fOp_encRR ..), rawAOp00_10 _ (fF_encRR ..)]; simp)
theorem minn (d : RegNo) (a : RegNo) (b : RegNo) : Statement (.minn d a b) :=
  roundTrip_one (fun l => encRR l 1#1 0x00#7 d a b 11#5) (fun _ => rfl) (fun l => notLong_A (fK_encRR ..))
    (fun l => by rw [rawDecode_A _ (fK_encRR ..) (by rw [fOp_encRR]; decide), rawA_00 _ (fOp_encRR ..), rawAOp00_11 _ (fF_encRR ..)]; simp)
theorem maxn (d : RegNo) (a : RegNo) (b : RegNo) : Statement (.maxn d a b) :=
  roundTrip_one (fun l => encRR l 1#1 0x00#7 d a b 12#5) (fun _ => rfl) (fun l => notLong_A (fK_encRR ..))
    (fun l => by rw [rawDecode_A _ (fK_encRR ..) (by rw [fOp_encRR]; decide), rawA_00 _ (fOp_encRR ..), rawAOp00_12 _ (fF_encRR ..)]; simp)
theorem abs (d : RegNo) (a : RegNo) : Statement (.abs d a) :=
  roundTrip_one (fun l => encRR l 1#1 0x00#7 d a 0#6 13#5) (fun _ => rfl) (fun l => notLong_A (fK_encRR ..))
    (fun l => by rw [rawDecode_A _ (fK_encRR ..) (by rw [fOp_encRR]; decide), rawA_00 _ (fOp_encRR ..), rawAOp00_13 _ (fF_encRR ..)]; simp)
theorem and (d : RegNo) (a : RegNo) (b : RegNo) : Statement (.and d a b) :=
  roundTrip_one (fun l => encRR l 1#1 0x00#7 d a b 14#5) (fun _ => rfl) (fun l => notLong_A (fK_encRR ..))
    (fun l => by rw [rawDecode_A _ (fK_encRR ..) (by rw [fOp_encRR]; decide), rawA_00 _ (fOp_encRR ..), rawAOp00_14 _ (fF_encRR ..)]; simp)
theorem or (d : RegNo) (a : RegNo) (b : RegNo) : Statement (.or d a b) :=
  roundTrip_one (fun l => encRR l 1#1 0x00#7 d a b 15#5) (fun _ => rfl) (fun l => notLong_A (fK_encRR ..))
    (fun l => by rw [rawDecode_A _ (fK_encRR ..) (by rw [fOp_encRR]; decide), rawA_00 _ (fOp_encRR ..), rawAOp00_15 _ (fF_encRR ..)]; simp)
theorem xor (d : RegNo) (a : RegNo) (b : RegNo) : Statement (.xor d a b) :=
  roundTrip_one (fun l => encRR l 1#1 0x00#7 d a b 16#5) (fun _ => rfl) (fun l => notLong_A (fK_encRR ..))
    (fun l => by rw [rawDecode_A _ (fK_encRR ..) (by rw [fOp_encRR]; decide), rawA_00 _ (fOp_encRR ..), rawAOp00_16 _ (fF_encRR ..)]; simp)
theorem shl (d : RegNo) (a : RegNo) (b : RegNo) : Statement (.shl d a b) :=
  roundTrip_one (fun l => encRR l 1#1 0x00#7 d a b 17#5) (fun _ => rfl) (fun l => notLong_A (fK_encRR ..))
    (fun l => by rw [rawDecode_A _ (fK_encRR ..) (by rw [fOp_encRR]; decide), rawA_00 _ (fOp_encRR ..), rawAOp00_17 _ (fF_encRR ..)]; simp)
theorem shr (d : RegNo) (a : RegNo) (b : RegNo) : Statement (.shr d a b) :=
  roundTrip_one (fun l => encRR l 1#1 0x00#7 d a b 18#5) (fun _ => rfl) (fun l => notLong_A (fK_encRR ..))
    (fun l => by rw [rawDecode_A _ (fK_encRR ..) (by rw [fOp_encRR]; decide), rawA_00 _ (fOp_encRR ..), rawAOp00_18 _ (fF_encRR ..)]; simp)
theorem sar (d : RegNo) (a : RegNo) (b : RegNo) : Statement (.sar d a b) :=
  roundTrip_one (fun l => encRR l 1#1 0x00#7 d a b 19#5) (fun _ => rfl) (fun l => notLong_A (fK_encRR ..))
    (fun l => by rw [rawDecode_A _ (fK_encRR ..) (by rw [fOp_encRR]; decide), rawA_00 _ (fOp_encRR ..), rawAOp00_19 _ (fF_encRR ..)]; simp)
theorem clz (d : RegNo) (a : RegNo) : Statement (.clz d a) :=
  roundTrip_one (fun l => encRR l 1#1 0x00#7 d a 0#6 20#5) (fun _ => rfl) (fun l => notLong_A (fK_encRR ..))
    (fun l => by rw [rawDecode_A _ (fK_encRR ..) (by rw [fOp_encRR]; decide), rawA_00 _ (fOp_encRR ..), rawAOp00_20 _ (fF_encRR ..)]; simp)
theorem ctz (d : RegNo) (a : RegNo) : Statement (.ctz d a) :=
  roundTrip_one (fun l => encRR l 1#1 0x00#7 d a 0#6 21#5) (fun _ => rfl) (fun l => notLong_A (fK_encRR ..))
    (fun l => by rw [rawDecode_A _ (fK_encRR ..) (by rw [fOp_encRR]; decide), rawA_00 _ (fOp_encRR ..), rawAOp00_21 _ (fF_encRR ..)]; simp)
theorem popc (d : RegNo) (a : RegNo) : Statement (.popc d a) :=
  roundTrip_one (fun l => encRR l 1#1 0x00#7 d a 0#6 22#5) (fun _ => rfl) (fun l => notLong_A (fK_encRR ..))
    (fun l => by rw [rawDecode_A _ (fK_encRR ..) (by rw [fOp_encRR]; decide), rawA_00 _ (fOp_encRR ..), rawAOp00_22 _ (fF_encRR ..)]; simp)
theorem brev (d : RegNo) (a : RegNo) : Statement (.brev d a) :=
  roundTrip_one (fun l => encRR l 1#1 0x00#7 d a 0#6 23#5) (fun _ => rfl) (fun l => notLong_A (fK_encRR ..))
    (fun l => by rw [rawDecode_A _ (fK_encRR ..) (by rw [fOp_encRR]; decide), rawA_00 _ (fOp_encRR ..), rawAOp00_23 _ (fF_encRR ..)]; simp)
theorem bfx (d : RegNo) (a : RegNo) (b : RegNo) : Statement (.bfx d a b) :=
  roundTrip_one (fun l => encRR l 1#1 0x00#7 d a b 24#5) (fun _ => rfl) (fun l => notLong_A (fK_encRR ..))
    (fun l => by rw [rawDecode_A _ (fK_encRR ..) (by rw [fOp_encRR]; decide), rawA_00 _ (fOp_encRR ..), rawAOp00_24 _ (fF_encRR ..)]; simp)
theorem bfi (d : RegNo) (a : RegNo) (b : RegNo) : Statement (.bfi d a b) :=
  roundTrip_one (fun l => encRR l 1#1 0x00#7 d a b 25#5) (fun _ => rfl) (fun l => notLong_A (fK_encRR ..))
    (fun l => by rw [rawDecode_A _ (fK_encRR ..) (by rw [fOp_encRR]; decide), rawA_00 _ (fOp_encRR ..), rawAOp00_25 _ (fF_encRR ..)]; simp)
theorem slt (d : RegNo) (a : RegNo) (b : RegNo) : Statement (.slt d a b) :=
  roundTrip_one (fun l => encRR l 1#1 0x00#7 d a b 26#5) (fun _ => rfl) (fun l => notLong_A (fK_encRR ..))
    (fun l => by rw [rawDecode_A _ (fK_encRR ..) (by rw [fOp_encRR]; decide), rawA_00 _ (fOp_encRR ..), rawAOp00_26 _ (fF_encRR ..)]; simp)
theorem sltn (d : RegNo) (a : RegNo) (b : RegNo) : Statement (.sltn d a b) :=
  roundTrip_one (fun l => encRR l 1#1 0x00#7 d a b 27#5) (fun _ => rfl) (fun l => notLong_A (fK_encRR ..))
    (fun l => by rw [rawDecode_A _ (fK_encRR ..) (by rw [fOp_encRR]; decide), rawA_00 _ (fOp_encRR ..), rawAOp00_27 _ (fF_encRR ..)]; simp)
theorem seq (d : RegNo) (a : RegNo) (b : RegNo) : Statement (.seq d a b) :=
  roundTrip_one (fun l => encRR l 1#1 0x00#7 d a b 28#5) (fun _ => rfl) (fun l => notLong_A (fK_encRR ..))
    (fun l => by rw [rawDecode_A _ (fK_encRR ..) (by rw [fOp_encRR]; decide), rawA_00 _ (fOp_encRR ..), rawAOp00_28 _ (fF_encRR ..)]; simp)
theorem sne (d : RegNo) (a : RegNo) (b : RegNo) : Statement (.sne d a b) :=
  roundTrip_one (fun l => encRR l 1#1 0x00#7 d a b 29#5) (fun _ => rfl) (fun l => notLong_A (fK_encRR ..))
    (fun l => by rw [rawDecode_A _ (fK_encRR ..) (by rw [fOp_encRR]; decide), rawA_00 _ (fOp_encRR ..), rawAOp00_29 _ (fF_encRR ..)]; simp)
theorem rng (d : RegNo) : Statement (.rng d) :=
  roundTrip_one (fun l => encRR l 1#1 0x00#7 d 0#6 0#6 30#5) (fun _ => rfl) (fun l => notLong_A (fK_encRR ..))
    (fun l => by rw [rawDecode_A _ (fK_encRR ..) (by rw [fOp_encRR]; decide), rawA_00 _ (fOp_encRR ..), rawAOp00_30 _ (fF_encRR ..)]; simp)
theorem addD (d : RegNo) (a : RegNo) (b : RegNo) : Statement (.addD d a b) :=
  roundTrip_one (fun l => encRR l 1#1 0x01#7 d a b 0#5) (fun _ => rfl) (fun l => notLong_A (fK_encRR ..))
    (fun l => by rw [rawDecode_A _ (fK_encRR ..) (by rw [fOp_encRR]; decide), rawA_01 _ (fOp_encRR ..), rawAOp01_0 _ (fF_encRR ..)]; simp)
theorem subD (d : RegNo) (a : RegNo) (b : RegNo) : Statement (.subD d a b) :=
  roundTrip_one (fun l => encRR l 1#1 0x01#7 d a b 1#5) (fun _ => rfl) (fun l => notLong_A (fK_encRR ..))
    (fun l => by rw [rawDecode_A _ (fK_encRR ..) (by rw [fOp_encRR]; decide), rawA_01 _ (fOp_encRR ..), rawAOp01_1 _ (fF_encRR ..)]; simp)
theorem mulD (d : RegNo) (a : RegNo) (b : RegNo) : Statement (.mulD d a b) :=
  roundTrip_one (fun l => encRR l 1#1 0x01#7 d a b 2#5) (fun _ => rfl) (fun l => notLong_A (fK_encRR ..))
    (fun l => by rw [rawDecode_A _ (fK_encRR ..) (by rw [fOp_encRR]; decide), rawA_01 _ (fOp_encRR ..), rawAOp01_2 _ (fF_encRR ..)]; simp)
theorem shlD (d : RegNo) (a : RegNo) (b : RegNo) : Statement (.shlD d a b) :=
  roundTrip_one (fun l => encRR l 1#1 0x01#7 d a b 3#5) (fun _ => rfl) (fun l => notLong_A (fK_encRR ..))
    (fun l => by rw [rawDecode_A _ (fK_encRR ..) (by rw [fOp_encRR]; decide), rawA_01 _ (fOp_encRR ..), rawAOp01_3 _ (fF_encRR ..)]; simp)
theorem shrD (d : RegNo) (a : RegNo) (b : RegNo) : Statement (.shrD d a b) :=
  roundTrip_one (fun l => encRR l 1#1 0x01#7 d a b 4#5) (fun _ => rfl) (fun l => notLong_A (fK_encRR ..))
    (fun l => by rw [rawDecode_A _ (fK_encRR ..) (by rw [fOp_encRR]; decide), rawA_01 _ (fOp_encRR ..), rawAOp01_4 _ (fF_encRR ..)]; simp)
theorem sarD (d : RegNo) (a : RegNo) (b : RegNo) : Statement (.sarD d a b) :=
  roundTrip_one (fun l => encRR l 1#1 0x01#7 d a b 5#5) (fun _ => rfl) (fun l => notLong_A (fK_encRR ..))
    (fun l => by rw [rawDecode_A _ (fK_encRR ..) (by rw [fOp_encRR]; decide), rawA_01 _ (fOp_encRR ..), rawAOp01_5 _ (fF_encRR ..)]; simp)
theorem andD (d : RegNo) (a : RegNo) (b : RegNo) : Statement (.andD d a b) :=
  roundTrip_one (fun l => encRR l 1#1 0x01#7 d a b 6#5) (fun _ => rfl) (fun l => notLong_A (fK_encRR ..))
    (fun l => by rw [rawDecode_A _ (fK_encRR ..) (by rw [fOp_encRR]; decide), rawA_01 _ (fOp_encRR ..), rawAOp01_6 _ (fF_encRR ..)]; simp)
theorem orD (d : RegNo) (a : RegNo) (b : RegNo) : Statement (.orD d a b) :=
  roundTrip_one (fun l => encRR l 1#1 0x01#7 d a b 7#5) (fun _ => rfl) (fun l => notLong_A (fK_encRR ..))
    (fun l => by rw [rawDecode_A _ (fK_encRR ..) (by rw [fOp_encRR]; decide), rawA_01 _ (fOp_encRR ..), rawAOp01_7 _ (fF_encRR ..)]; simp)
theorem xorD (d : RegNo) (a : RegNo) (b : RegNo) : Statement (.xorD d a b) :=
  roundTrip_one (fun l => encRR l 1#1 0x01#7 d a b 8#5) (fun _ => rfl) (fun l => notLong_A (fK_encRR ..))
    (fun l => by rw [rawDecode_A _ (fK_encRR ..) (by rw [fOp_encRR]; decide), rawA_01 _ (fOp_encRR ..), rawAOp01_8 _ (fF_encRR ..)]; simp)
theorem minD (d : RegNo) (a : RegNo) (b : RegNo) : Statement (.minD d a b) :=
  roundTrip_one (fun l => encRR l 1#1 0x01#7 d a b 9#5) (fun _ => rfl) (fun l => notLong_A (fK_encRR ..))
    (fun l => by rw [rawDecode_A _ (fK_encRR ..) (by rw [fOp_encRR]; decide), rawA_01 _ (fOp_encRR ..), rawAOp01_9 _ (fF_encRR ..)]; simp)
theorem maxD (d : RegNo) (a : RegNo) (b : RegNo) : Statement (.maxD d a b) :=
  roundTrip_one (fun l => encRR l 1#1 0x01#7 d a b 10#5) (fun _ => rfl) (fun l => notLong_A (fK_encRR ..))
    (fun l => by rw [rawDecode_A _ (fK_encRR ..) (by rw [fOp_encRR]; decide), rawA_01 _ (fOp_encRR ..), rawAOp01_10 _ (fF_encRR ..)]; simp)
theorem minnD (d : RegNo) (a : RegNo) (b : RegNo) : Statement (.minnD d a b) :=
  roundTrip_one (fun l => encRR l 1#1 0x01#7 d a b 11#5) (fun _ => rfl) (fun l => notLong_A (fK_encRR ..))
    (fun l => by rw [rawDecode_A _ (fK_encRR ..) (by rw [fOp_encRR]; decide), rawA_01 _ (fOp_encRR ..), rawAOp01_11 _ (fF_encRR ..)]; simp)
theorem maxnD (d : RegNo) (a : RegNo) (b : RegNo) : Statement (.maxnD d a b) :=
  roundTrip_one (fun l => encRR l 1#1 0x01#7 d a b 12#5) (fun _ => rfl) (fun l => notLong_A (fK_encRR ..))
    (fun l => by rw [rawDecode_A _ (fK_encRR ..) (by rw [fOp_encRR]; decide), rawA_01 _ (fOp_encRR ..), rawAOp01_12 _ (fF_encRR ..)]; simp)
theorem sltD (d : RegNo) (a : RegNo) (b : RegNo) : Statement (.sltD d a b) :=
  roundTrip_one (fun l => encRR l 1#1 0x01#7 d a b 13#5) (fun _ => rfl) (fun l => notLong_A (fK_encRR ..))
    (fun l => by rw [rawDecode_A _ (fK_encRR ..) (by rw [fOp_encRR]; decide), rawA_01 _ (fOp_encRR ..), rawAOp01_13 _ (fF_encRR ..)]; simp)
theorem sltnD (d : RegNo) (a : RegNo) (b : RegNo) : Statement (.sltnD d a b) :=
  roundTrip_one (fun l => encRR l 1#1 0x01#7 d a b 14#5) (fun _ => rfl) (fun l => notLong_A (fK_encRR ..))
    (fun l => by rw [rawDecode_A _ (fK_encRR ..) (by rw [fOp_encRR]; decide), rawA_01 _ (fOp_encRR ..), rawAOp01_14 _ (fF_encRR ..)]; simp)
theorem seqD (d : RegNo) (a : RegNo) (b : RegNo) : Statement (.seqD d a b) :=
  roundTrip_one (fun l => encRR l 1#1 0x01#7 d a b 15#5) (fun _ => rfl) (fun l => notLong_A (fK_encRR ..))
    (fun l => by rw [rawDecode_A _ (fK_encRR ..) (by rw [fOp_encRR]; decide), rawA_01 _ (fOp_encRR ..), rawAOp01_15 _ (fF_encRR ..)]; simp)
theorem addi (d : RegNo) (a : RegNo) (imm : BitVec 11) : Statement (.addi d a imm) :=
  roundTrip_one (fun l => encRI l 1#1 0x02#7 d a imm) (fun _ => rfl) (fun l => notLong_A (fK_encRI ..))
    (fun l => by rw [rawDecode_A _ (fK_encRI ..) (by rw [fOp_encRI]; decide), rawA_02 _ (fOp_encRI ..)]; simp)
theorem andi (d : RegNo) (a : RegNo) (imm : BitVec 11) : Statement (.andi d a imm) :=
  roundTrip_one (fun l => encRI l 1#1 0x03#7 d a imm) (fun _ => rfl) (fun l => notLong_A (fK_encRI ..))
    (fun l => by rw [rawDecode_A _ (fK_encRI ..) (by rw [fOp_encRI]; decide), rawA_03 _ (fOp_encRI ..)]; simp)
theorem ori (d : RegNo) (a : RegNo) (imm : BitVec 11) : Statement (.ori d a imm) :=
  roundTrip_one (fun l => encRI l 1#1 0x04#7 d a imm) (fun _ => rfl) (fun l => notLong_A (fK_encRI ..))
    (fun l => by rw [rawDecode_A _ (fK_encRI ..) (by rw [fOp_encRI]; decide), rawA_04 _ (fOp_encRI ..)]; simp)
theorem xori (d : RegNo) (a : RegNo) (imm : BitVec 11) : Statement (.xori d a imm) :=
  roundTrip_one (fun l => encRI l 1#1 0x05#7 d a imm) (fun _ => rfl) (fun l => notLong_A (fK_encRI ..))
    (fun l => by rw [rawDecode_A _ (fK_encRI ..) (by rw [fOp_encRI]; decide), rawA_05 _ (fOp_encRI ..)]; simp)
theorem slti (d : RegNo) (a : RegNo) (imm : BitVec 11) : Statement (.slti d a imm) :=
  roundTrip_one (fun l => encRI l 1#1 0x06#7 d a imm) (fun _ => rfl) (fun l => notLong_A (fK_encRI ..))
    (fun l => by rw [rawDecode_A _ (fK_encRI ..) (by rw [fOp_encRI]; decide), rawA_06 _ (fOp_encRI ..)]; simp)
theorem shli (d : RegNo) (a : RegNo) (imm : BitVec 5) : Statement (.shli d a imm) :=
  roundTrip_one (fun l => encRI l 1#1 0x07#7 d a (0#6 ++ imm)) (fun _ => rfl) (fun l => notLong_A (fK_encRI ..))
    (fun l => by rw [rawDecode_A _ (fK_encRI ..) (by rw [fOp_encRI]; decide), rawA_07 _ (fOp_encRI ..)]; simp)
theorem shri (d : RegNo) (a : RegNo) (imm : BitVec 5) : Statement (.shri d a imm) :=
  roundTrip_one (fun l => encRI l 1#1 0x08#7 d a (0#6 ++ imm)) (fun _ => rfl) (fun l => notLong_A (fK_encRI ..))
    (fun l => by rw [rawDecode_A _ (fK_encRI ..) (by rw [fOp_encRI]; decide), rawA_08 _ (fOp_encRI ..)]; simp)
theorem sari (d : RegNo) (a : RegNo) (imm : BitVec 5) : Statement (.sari d a imm) :=
  roundTrip_one (fun l => encRI l 1#1 0x09#7 d a (0#6 ++ imm)) (fun _ => rfl) (fun l => notLong_A (fK_encRI ..))
    (fun l => by rw [rawDecode_A _ (fK_encRI ..) (by rw [fOp_encRI]; decide), rawA_09 _ (fOp_encRI ..)]; simp)
theorem lui (d : RegNo) (imm : BitVec 17) : Statement (.lui d imm) :=
  roundTrip_one (fun l => encRU l 1#1 0x0A#7 d imm) (fun _ => rfl) (fun l => notLong_A (fK_encRU ..))
    (fun l => by rw [rawDecode_A _ (fK_encRU ..) (by rw [fOp_encRU]; decide), rawA_0A _ (fOp_encRU ..)]; simp)
theorem fadd (d : RegNo) (a : RegNo) (b : RegNo) : Statement (.fadd d a b) :=
  roundTrip_one (fun l => encRR l 1#1 0x10#7 d a b 0#5) (fun _ => rfl) (fun l => notLong_A (fK_encRR ..))
    (fun l => by rw [rawDecode_A _ (fK_encRR ..) (by rw [fOp_encRR]; decide), rawA_10 _ (fOp_encRR ..), rawAOp10_0 _ (fF_encRR ..)]; simp)
theorem fsub (d : RegNo) (a : RegNo) (b : RegNo) : Statement (.fsub d a b) :=
  roundTrip_one (fun l => encRR l 1#1 0x10#7 d a b 1#5) (fun _ => rfl) (fun l => notLong_A (fK_encRR ..))
    (fun l => by rw [rawDecode_A _ (fK_encRR ..) (by rw [fOp_encRR]; decide), rawA_10 _ (fOp_encRR ..), rawAOp10_1 _ (fF_encRR ..)]; simp)
theorem fmul (d : RegNo) (a : RegNo) (b : RegNo) : Statement (.fmul d a b) :=
  roundTrip_one (fun l => encRR l 1#1 0x10#7 d a b 2#5) (fun _ => rfl) (fun l => notLong_A (fK_encRR ..))
    (fun l => by rw [rawDecode_A _ (fK_encRR ..) (by rw [fOp_encRR]; decide), rawA_10 _ (fOp_encRR ..), rawAOp10_2 _ (fF_encRR ..)]; simp)
theorem fdiv (d : RegNo) (a : RegNo) (b : RegNo) : Statement (.fdiv d a b) :=
  roundTrip_one (fun l => encRR l 1#1 0x10#7 d a b 3#5) (fun _ => rfl) (fun l => notLong_A (fK_encRR ..))
    (fun l => by rw [rawDecode_A _ (fK_encRR ..) (by rw [fOp_encRR]; decide), rawA_10 _ (fOp_encRR ..), rawAOp10_3 _ (fF_encRR ..)]; simp)
theorem fsqrt (d : RegNo) (a : RegNo) : Statement (.fsqrt d a) :=
  roundTrip_one (fun l => encRR l 1#1 0x10#7 d a 0#6 4#5) (fun _ => rfl) (fun l => notLong_A (fK_encRR ..))
    (fun l => by rw [rawDecode_A _ (fK_encRR ..) (by rw [fOp_encRR]; decide), rawA_10 _ (fOp_encRR ..), rawAOp10_4 _ (fF_encRR ..)]; simp)
theorem fmin (d : RegNo) (a : RegNo) (b : RegNo) : Statement (.fmin d a b) :=
  roundTrip_one (fun l => encRR l 1#1 0x10#7 d a b 5#5) (fun _ => rfl) (fun l => notLong_A (fK_encRR ..))
    (fun l => by rw [rawDecode_A _ (fK_encRR ..) (by rw [fOp_encRR]; decide), rawA_10 _ (fOp_encRR ..), rawAOp10_5 _ (fF_encRR ..)]; simp)
theorem fmax (d : RegNo) (a : RegNo) (b : RegNo) : Statement (.fmax d a b) :=
  roundTrip_one (fun l => encRR l 1#1 0x10#7 d a b 6#5) (fun _ => rfl) (fun l => notLong_A (fK_encRR ..))
    (fun l => by rw [rawDecode_A _ (fK_encRR ..) (by rw [fOp_encRR]; decide), rawA_10 _ (fOp_encRR ..), rawAOp10_6 _ (fF_encRR ..)]; simp)
theorem fabs (d : RegNo) (a : RegNo) : Statement (.fabs d a) :=
  roundTrip_one (fun l => encRR l 1#1 0x10#7 d a 0#6 7#5) (fun _ => rfl) (fun l => notLong_A (fK_encRR ..))
    (fun l => by rw [rawDecode_A _ (fK_encRR ..) (by rw [fOp_encRR]; decide), rawA_10 _ (fOp_encRR ..), rawAOp10_7 _ (fF_encRR ..)]; simp)
theorem fneg (d : RegNo) (a : RegNo) : Statement (.fneg d a) :=
  roundTrip_one (fun l => encRR l 1#1 0x10#7 d a 0#6 8#5) (fun _ => rfl) (fun l => notLong_A (fK_encRR ..))
    (fun l => by rw [rawDecode_A _ (fK_encRR ..) (by rw [fOp_encRR]; decide), rawA_10 _ (fOp_encRR ..), rawAOp10_8 _ (fF_encRR ..)]; simp)
theorem feq (d : RegNo) (a : RegNo) (b : RegNo) : Statement (.feq d a b) :=
  roundTrip_one (fun l => encRR l 1#1 0x10#7 d a b 9#5) (fun _ => rfl) (fun l => notLong_A (fK_encRR ..))
    (fun l => by rw [rawDecode_A _ (fK_encRR ..) (by rw [fOp_encRR]; decide), rawA_10 _ (fOp_encRR ..), rawAOp10_9 _ (fF_encRR ..)]; simp)
theorem flt (d : RegNo) (a : RegNo) (b : RegNo) : Statement (.flt d a b) :=
  roundTrip_one (fun l => encRR l 1#1 0x10#7 d a b 10#5) (fun _ => rfl) (fun l => notLong_A (fK_encRR ..))
    (fun l => by rw [rawDecode_A _ (fK_encRR ..) (by rw [fOp_encRR]; decide), rawA_10 _ (fOp_encRR ..), rawAOp10_10 _ (fF_encRR ..)]; simp)
theorem fle (d : RegNo) (a : RegNo) (b : RegNo) : Statement (.fle d a b) :=
  roundTrip_one (fun l => encRR l 1#1 0x10#7 d a b 11#5) (fun _ => rfl) (fun l => notLong_A (fK_encRR ..))
    (fun l => by rw [rawDecode_A _ (fK_encRR ..) (by rw [fOp_encRR]; decide), rawA_10 _ (fOp_encRR ..), rawAOp10_11 _ (fF_encRR ..)]; simp)
theorem funOrd (d : RegNo) (a : RegNo) (b : RegNo) : Statement (.funOrd d a b) :=
  roundTrip_one (fun l => encRR l 1#1 0x10#7 d a b 12#5) (fun _ => rfl) (fun l => notLong_A (fK_encRR ..))
    (fun l => by rw [rawDecode_A _ (fK_encRR ..) (by rw [fOp_encRR]; decide), rawA_10 _ (fOp_encRR ..), rawAOp10_12 _ (fF_encRR ..)]; simp)
theorem fclass (d : RegNo) (a : RegNo) : Statement (.fclass d a) :=
  roundTrip_one (fun l => encRR l 1#1 0x10#7 d a 0#6 13#5) (fun _ => rfl) (fun l => notLong_A (fK_encRR ..))
    (fun l => by rw [rawDecode_A _ (fK_encRR ..) (by rw [fOp_encRR]; decide), rawA_10 _ (fOp_encRR ..), rawAOp10_13 _ (fF_encRR ..)]; simp)
theorem frnd (d : RegNo) (a : RegNo) (b : RegNo) (rm : RmField) : Statement (.frnd d a b rm) :=
  roundTrip_one (fun l => encCV l 1#1 0x11#7 d a b (encRm rm) 0#1 0#1) (fun _ => rfl) (fun l => notLong_A (fK_encCV ..))
    (fun l => by rw [rawDecode_A _ (fK_encCV ..) (by rw [fOp_encCV]; decide), rawA_11 _ (fOp_encCV ..)]; simp)
theorem dadd (d : RegNo) (a : RegNo) (b : RegNo) : Statement (.dadd d a b) :=
  roundTrip_one (fun l => encRR l 1#1 0x12#7 d a b 0#5) (fun _ => rfl) (fun l => notLong_A (fK_encRR ..))
    (fun l => by rw [rawDecode_A _ (fK_encRR ..) (by rw [fOp_encRR]; decide), rawA_12 _ (fOp_encRR ..), rawAOp12_0 _ (fF_encRR ..)]; simp)
theorem dsub (d : RegNo) (a : RegNo) (b : RegNo) : Statement (.dsub d a b) :=
  roundTrip_one (fun l => encRR l 1#1 0x12#7 d a b 1#5) (fun _ => rfl) (fun l => notLong_A (fK_encRR ..))
    (fun l => by rw [rawDecode_A _ (fK_encRR ..) (by rw [fOp_encRR]; decide), rawA_12 _ (fOp_encRR ..), rawAOp12_1 _ (fF_encRR ..)]; simp)
theorem dmul (d : RegNo) (a : RegNo) (b : RegNo) : Statement (.dmul d a b) :=
  roundTrip_one (fun l => encRR l 1#1 0x12#7 d a b 2#5) (fun _ => rfl) (fun l => notLong_A (fK_encRR ..))
    (fun l => by rw [rawDecode_A _ (fK_encRR ..) (by rw [fOp_encRR]; decide), rawA_12 _ (fOp_encRR ..), rawAOp12_2 _ (fF_encRR ..)]; simp)
theorem ddiv (d : RegNo) (a : RegNo) (b : RegNo) : Statement (.ddiv d a b) :=
  roundTrip_one (fun l => encRR l 1#1 0x12#7 d a b 3#5) (fun _ => rfl) (fun l => notLong_A (fK_encRR ..))
    (fun l => by rw [rawDecode_A _ (fK_encRR ..) (by rw [fOp_encRR]; decide), rawA_12 _ (fOp_encRR ..), rawAOp12_3 _ (fF_encRR ..)]; simp)
theorem dsqrt (d : RegNo) (a : RegNo) : Statement (.dsqrt d a) :=
  roundTrip_one (fun l => encRR l 1#1 0x12#7 d a 0#6 4#5) (fun _ => rfl) (fun l => notLong_A (fK_encRR ..))
    (fun l => by rw [rawDecode_A _ (fK_encRR ..) (by rw [fOp_encRR]; decide), rawA_12 _ (fOp_encRR ..), rawAOp12_4 _ (fF_encRR ..)]; simp)
theorem dmin (d : RegNo) (a : RegNo) (b : RegNo) : Statement (.dmin d a b) :=
  roundTrip_one (fun l => encRR l 1#1 0x12#7 d a b 5#5) (fun _ => rfl) (fun l => notLong_A (fK_encRR ..))
    (fun l => by rw [rawDecode_A _ (fK_encRR ..) (by rw [fOp_encRR]; decide), rawA_12 _ (fOp_encRR ..), rawAOp12_5 _ (fF_encRR ..)]; simp)
theorem dmax (d : RegNo) (a : RegNo) (b : RegNo) : Statement (.dmax d a b) :=
  roundTrip_one (fun l => encRR l 1#1 0x12#7 d a b 6#5) (fun _ => rfl) (fun l => notLong_A (fK_encRR ..))
    (fun l => by rw [rawDecode_A _ (fK_encRR ..) (by rw [fOp_encRR]; decide), rawA_12 _ (fOp_encRR ..), rawAOp12_6 _ (fF_encRR ..)]; simp)
theorem dabs (d : RegNo) (a : RegNo) : Statement (.dabs d a) :=
  roundTrip_one (fun l => encRR l 1#1 0x12#7 d a 0#6 7#5) (fun _ => rfl) (fun l => notLong_A (fK_encRR ..))
    (fun l => by rw [rawDecode_A _ (fK_encRR ..) (by rw [fOp_encRR]; decide), rawA_12 _ (fOp_encRR ..), rawAOp12_7 _ (fF_encRR ..)]; simp)
theorem dneg (d : RegNo) (a : RegNo) : Statement (.dneg d a) :=
  roundTrip_one (fun l => encRR l 1#1 0x12#7 d a 0#6 8#5) (fun _ => rfl) (fun l => notLong_A (fK_encRR ..))
    (fun l => by rw [rawDecode_A _ (fK_encRR ..) (by rw [fOp_encRR]; decide), rawA_12 _ (fOp_encRR ..), rawAOp12_8 _ (fF_encRR ..)]; simp)
theorem deq (d : RegNo) (a : RegNo) (b : RegNo) : Statement (.deq d a b) :=
  roundTrip_one (fun l => encRR l 1#1 0x12#7 d a b 9#5) (fun _ => rfl) (fun l => notLong_A (fK_encRR ..))
    (fun l => by rw [rawDecode_A _ (fK_encRR ..) (by rw [fOp_encRR]; decide), rawA_12 _ (fOp_encRR ..), rawAOp12_9 _ (fF_encRR ..)]; simp)
theorem dlt (d : RegNo) (a : RegNo) (b : RegNo) : Statement (.dlt d a b) :=
  roundTrip_one (fun l => encRR l 1#1 0x12#7 d a b 10#5) (fun _ => rfl) (fun l => notLong_A (fK_encRR ..))
    (fun l => by rw [rawDecode_A _ (fK_encRR ..) (by rw [fOp_encRR]; decide), rawA_12 _ (fOp_encRR ..), rawAOp12_10 _ (fF_encRR ..)]; simp)
theorem dle (d : RegNo) (a : RegNo) (b : RegNo) : Statement (.dle d a b) :=
  roundTrip_one (fun l => encRR l 1#1 0x12#7 d a b 11#5) (fun _ => rfl) (fun l => notLong_A (fK_encRR ..))
    (fun l => by rw [rawDecode_A _ (fK_encRR ..) (by rw [fOp_encRR]; decide), rawA_12 _ (fOp_encRR ..), rawAOp12_11 _ (fF_encRR ..)]; simp)
theorem dunOrd (d : RegNo) (a : RegNo) (b : RegNo) : Statement (.dunOrd d a b) :=
  roundTrip_one (fun l => encRR l 1#1 0x12#7 d a b 12#5) (fun _ => rfl) (fun l => notLong_A (fK_encRR ..))
    (fun l => by rw [rawDecode_A _ (fK_encRR ..) (by rw [fOp_encRR]; decide), rawA_12 _ (fOp_encRR ..), rawAOp12_12 _ (fF_encRR ..)]; simp)
theorem dclass (d : RegNo) (a : RegNo) : Statement (.dclass d a) :=
  roundTrip_one (fun l => encRR l 1#1 0x12#7 d a 0#6 13#5) (fun _ => rfl) (fun l => notLong_A (fK_encRR ..))
    (fun l => by rw [rawDecode_A _ (fK_encRR ..) (by rw [fOp_encRR]; decide), rawA_12 _ (fOp_encRR ..), rawAOp12_13 _ (fF_encRR ..)]; simp)
theorem drnd (d : RegNo) (a : RegNo) (b : RegNo) (rm : RmField) : Statement (.drnd d a b rm) :=
  roundTrip_one (fun l => encCV l 1#1 0x13#7 d a b (encRm rm) 0#1 0#1) (fun _ => rfl) (fun l => notLong_A (fK_encCV ..))
    (fun l => by rw [rawDecode_A _ (fK_encCV ..) (by rw [fOp_encCV]; decide), rawA_13 _ (fOp_encCV ..)]; simp)
theorem p2addH (d : RegNo) (a : RegNo) (b : RegNo) : Statement (.p2addH d a b) :=
  roundTrip_one (fun l => encRR l 1#1 0x14#7 d a b 0#5) (fun _ => rfl) (fun l => notLong_A (fK_encRR ..))
    (fun l => by rw [rawDecode_A _ (fK_encRR ..) (by rw [fOp_encRR]; decide), rawA_14 _ (fOp_encRR ..), rawAOp14_0 _ (fF_encRR ..)]; simp)
theorem p2subH (d : RegNo) (a : RegNo) (b : RegNo) : Statement (.p2subH d a b) :=
  roundTrip_one (fun l => encRR l 1#1 0x14#7 d a b 1#5) (fun _ => rfl) (fun l => notLong_A (fK_encRR ..))
    (fun l => by rw [rawDecode_A _ (fK_encRR ..) (by rw [fOp_encRR]; decide), rawA_14 _ (fOp_encRR ..), rawAOp14_1 _ (fF_encRR ..)]; simp)
theorem p2mulH (d : RegNo) (a : RegNo) (b : RegNo) : Statement (.p2mulH d a b) :=
  roundTrip_one (fun l => encRR l 1#1 0x14#7 d a b 2#5) (fun _ => rfl) (fun l => notLong_A (fK_encRR ..))
    (fun l => by rw [rawDecode_A _ (fK_encRR ..) (by rw [fOp_encRR]; decide), rawA_14 _ (fOp_encRR ..), rawAOp14_2 _ (fF_encRR ..)]; simp)
theorem p2fmaH (d : RegNo) (a : RegNo) (b : RegNo) : Statement (.p2fmaH d a b) :=
  roundTrip_one (fun l => encRR l 1#1 0x14#7 d a b 3#5) (fun _ => rfl) (fun l => notLong_A (fK_encRR ..))
    (fun l => by rw [rawDecode_A _ (fK_encRR ..) (by rw [fOp_encRR]; decide), rawA_14 _ (fOp_encRR ..), rawAOp14_3 _ (fF_encRR ..)]; simp)
theorem p2minH (d : RegNo) (a : RegNo) (b : RegNo) : Statement (.p2minH d a b) :=
  roundTrip_one (fun l => encRR l 1#1 0x14#7 d a b 4#5) (fun _ => rfl) (fun l => notLong_A (fK_encRR ..))
    (fun l => by rw [rawDecode_A _ (fK_encRR ..) (by rw [fOp_encRR]; decide), rawA_14 _ (fOp_encRR ..), rawAOp14_4 _ (fF_encRR ..)]; simp)
theorem p2maxH (d : RegNo) (a : RegNo) (b : RegNo) : Statement (.p2maxH d a b) :=
  roundTrip_one (fun l => encRR l 1#1 0x14#7 d a b 5#5) (fun _ => rfl) (fun l => notLong_A (fK_encRR ..))
    (fun l => by rw [rawDecode_A _ (fK_encRR ..) (by rw [fOp_encRR]; decide), rawA_14 _ (fOp_encRR ..), rawAOp14_5 _ (fF_encRR ..)]; simp)
theorem p2addB (d : RegNo) (a : RegNo) (b : RegNo) : Statement (.p2addB d a b) :=
  roundTrip_one (fun l => encRR l 1#1 0x14#7 d a b 8#5) (fun _ => rfl) (fun l => notLong_A (fK_encRR ..))
    (fun l => by rw [rawDecode_A _ (fK_encRR ..) (by rw [fOp_encRR]; decide), rawA_14 _ (fOp_encRR ..), rawAOp14_8 _ (fF_encRR ..)]; simp)
theorem p2subB (d : RegNo) (a : RegNo) (b : RegNo) : Statement (.p2subB d a b) :=
  roundTrip_one (fun l => encRR l 1#1 0x14#7 d a b 9#5) (fun _ => rfl) (fun l => notLong_A (fK_encRR ..))
    (fun l => by rw [rawDecode_A _ (fK_encRR ..) (by rw [fOp_encRR]; decide), rawA_14 _ (fOp_encRR ..), rawAOp14_9 _ (fF_encRR ..)]; simp)
theorem p2mulB (d : RegNo) (a : RegNo) (b : RegNo) : Statement (.p2mulB d a b) :=
  roundTrip_one (fun l => encRR l 1#1 0x14#7 d a b 10#5) (fun _ => rfl) (fun l => notLong_A (fK_encRR ..))
    (fun l => by rw [rawDecode_A _ (fK_encRR ..) (by rw [fOp_encRR]; decide), rawA_14 _ (fOp_encRR ..), rawAOp14_10 _ (fF_encRR ..)]; simp)
theorem p2fmaB (d : RegNo) (a : RegNo) (b : RegNo) : Statement (.p2fmaB d a b) :=
  roundTrip_one (fun l => encRR l 1#1 0x14#7 d a b 11#5) (fun _ => rfl) (fun l => notLong_A (fK_encRR ..))
    (fun l => by rw [rawDecode_A _ (fK_encRR ..) (by rw [fOp_encRR]; decide), rawA_14 _ (fOp_encRR ..), rawAOp14_11 _ (fF_encRR ..)]; simp)
theorem p2minB (d : RegNo) (a : RegNo) (b : RegNo) : Statement (.p2minB d a b) :=
  roundTrip_one (fun l => encRR l 1#1 0x14#7 d a b 12#5) (fun _ => rfl) (fun l => notLong_A (fK_encRR ..))
    (fun l => by rw [rawDecode_A _ (fK_encRR ..) (by rw [fOp_encRR]; decide), rawA_14 _ (fOp_encRR ..), rawAOp14_12 _ (fF_encRR ..)]; simp)
theorem p2maxB (d : RegNo) (a : RegNo) (b : RegNo) : Statement (.p2maxB d a b) :=
  roundTrip_one (fun l => encRR l 1#1 0x14#7 d a b 13#5) (fun _ => rfl) (fun l => notLong_A (fK_encRR ..))
    (fun l => by rw [rawDecode_A _ (fK_encRR ..) (by rw [fOp_encRR]; decide), rawA_14 _ (fOp_encRR ..), rawAOp14_13 _ (fF_encRR ..)]; simp)
theorem cvtF64F32 (d : RegNo) (a : RegNo) (b : RegNo) (rm : RmField) (sat : Bool) : Statement (.cvtF64F32 d a b rm sat) :=
  roundTrip_one (fun l => encCV l 1#1 0x20#7 d a b (encRm rm) (ofBit sat) 0#1) (fun _ => rfl) (fun l => notLong_A (fK_encCV ..))
    (fun l => by rw [rawDecode_A _ (fK_encCV ..) (by rw [fOp_encCV]; decide), rawA_20 _ (fOp_encCV ..)]; simp)
theorem cvtF64F16 (d : RegNo) (a : RegNo) (b : RegNo) (rm : RmField) (sat : Bool) : Statement (.cvtF64F16 d a b rm sat) :=
  roundTrip_one (fun l => encCV l 1#1 0x21#7 d a b (encRm rm) (ofBit sat) 0#1) (fun _ => rfl) (fun l => notLong_A (fK_encCV ..))
    (fun l => by rw [rawDecode_A _ (fK_encCV ..) (by rw [fOp_encCV]; decide), rawA_21 _ (fOp_encCV ..)]; simp)
theorem cvtF64Bf16 (d : RegNo) (a : RegNo) (b : RegNo) (rm : RmField) (sat : Bool) : Statement (.cvtF64Bf16 d a b rm sat) :=
  roundTrip_one (fun l => encCV l 1#1 0x22#7 d a b (encRm rm) (ofBit sat) 0#1) (fun _ => rfl) (fun l => notLong_A (fK_encCV ..))
    (fun l => by rw [rawDecode_A _ (fK_encCV ..) (by rw [fOp_encCV]; decide), rawA_22 _ (fOp_encCV ..)]; simp)
theorem cvtF64E4m3 (d : RegNo) (a : RegNo) (b : RegNo) (rm : RmField) (sat : Bool) : Statement (.cvtF64E4m3 d a b rm sat) :=
  roundTrip_one (fun l => encCV l 1#1 0x23#7 d a b (encRm rm) (ofBit sat) 0#1) (fun _ => rfl) (fun l => notLong_A (fK_encCV ..))
    (fun l => by rw [rawDecode_A _ (fK_encCV ..) (by rw [fOp_encCV]; decide), rawA_23 _ (fOp_encCV ..)]; simp)
theorem cvtF64E5m2 (d : RegNo) (a : RegNo) (b : RegNo) (rm : RmField) (sat : Bool) : Statement (.cvtF64E5m2 d a b rm sat) :=
  roundTrip_one (fun l => encCV l 1#1 0x24#7 d a b (encRm rm) (ofBit sat) 0#1) (fun _ => rfl) (fun l => notLong_A (fK_encCV ..))
    (fun l => by rw [rawDecode_A _ (fK_encCV ..) (by rw [fOp_encCV]; decide), rawA_24 _ (fOp_encCV ..)]; simp)
theorem cvtF64I32 (d : RegNo) (a : RegNo) (b : RegNo) (rm : RmField) (sat : Bool) : Statement (.cvtF64I32 d a b rm sat) :=
  roundTrip_one (fun l => encCV l 1#1 0x25#7 d a b (encRm rm) (ofBit sat) 0#1) (fun _ => rfl) (fun l => notLong_A (fK_encCV ..))
    (fun l => by rw [rawDecode_A _ (fK_encCV ..) (by rw [fOp_encCV]; decide), rawA_25 _ (fOp_encCV ..)]; simp)
theorem cvtF64N32 (d : RegNo) (a : RegNo) (b : RegNo) (rm : RmField) (sat : Bool) : Statement (.cvtF64N32 d a b rm sat) :=
  roundTrip_one (fun l => encCV l 1#1 0x26#7 d a b (encRm rm) (ofBit sat) 0#1) (fun _ => rfl) (fun l => notLong_A (fK_encCV ..))
    (fun l => by rw [rawDecode_A _ (fK_encCV ..) (by rw [fOp_encCV]; decide), rawA_26 _ (fOp_encCV ..)]; simp)
theorem cvtF64I64 (d : RegNo) (a : RegNo) (b : RegNo) (rm : RmField) (sat : Bool) : Statement (.cvtF64I64 d a b rm sat) :=
  roundTrip_one (fun l => encCV l 1#1 0x27#7 d a b (encRm rm) (ofBit sat) 0#1) (fun _ => rfl) (fun l => notLong_A (fK_encCV ..))
    (fun l => by rw [rawDecode_A _ (fK_encCV ..) (by rw [fOp_encCV]; decide), rawA_27 _ (fOp_encCV ..)]; simp)
theorem cvtF64N64 (d : RegNo) (a : RegNo) (b : RegNo) (rm : RmField) (sat : Bool) : Statement (.cvtF64N64 d a b rm sat) :=
  roundTrip_one (fun l => encCV l 1#1 0x28#7 d a b (encRm rm) (ofBit sat) 0#1) (fun _ => rfl) (fun l => notLong_A (fK_encCV ..))
    (fun l => by rw [rawDecode_A _ (fK_encCV ..) (by rw [fOp_encCV]; decide), rawA_28 _ (fOp_encCV ..)]; simp)
theorem cvtF32F64 (d : RegNo) (a : RegNo) (b : RegNo) (rm : RmField) (sat : Bool) : Statement (.cvtF32F64 d a b rm sat) :=
  roundTrip_one (fun l => encCV l 1#1 0x29#7 d a b (encRm rm) (ofBit sat) 0#1) (fun _ => rfl) (fun l => notLong_A (fK_encCV ..))
    (fun l => by rw [rawDecode_A _ (fK_encCV ..) (by rw [fOp_encCV]; decide), rawA_29 _ (fOp_encCV ..)]; simp)
theorem cvtF32F16 (d : RegNo) (a : RegNo) (b : RegNo) (rm : RmField) (sat : Bool) : Statement (.cvtF32F16 d a b rm sat) :=
  roundTrip_one (fun l => encCV l 1#1 0x2A#7 d a b (encRm rm) (ofBit sat) 0#1) (fun _ => rfl) (fun l => notLong_A (fK_encCV ..))
    (fun l => by rw [rawDecode_A _ (fK_encCV ..) (by rw [fOp_encCV]; decide), rawA_2A _ (fOp_encCV ..)]; simp)
theorem cvtF32Bf16 (d : RegNo) (a : RegNo) (b : RegNo) (rm : RmField) (sat : Bool) : Statement (.cvtF32Bf16 d a b rm sat) :=
  roundTrip_one (fun l => encCV l 1#1 0x2B#7 d a b (encRm rm) (ofBit sat) 0#1) (fun _ => rfl) (fun l => notLong_A (fK_encCV ..))
    (fun l => by rw [rawDecode_A _ (fK_encCV ..) (by rw [fOp_encCV]; decide), rawA_2B _ (fOp_encCV ..)]; simp)
theorem cvtF32E4m3 (d : RegNo) (a : RegNo) (b : RegNo) (rm : RmField) (sat : Bool) : Statement (.cvtF32E4m3 d a b rm sat) :=
  roundTrip_one (fun l => encCV l 1#1 0x2C#7 d a b (encRm rm) (ofBit sat) 0#1) (fun _ => rfl) (fun l => notLong_A (fK_encCV ..))
    (fun l => by rw [rawDecode_A _ (fK_encCV ..) (by rw [fOp_encCV]; decide), rawA_2C _ (fOp_encCV ..)]; simp)
theorem cvtF32E5m2 (d : RegNo) (a : RegNo) (b : RegNo) (rm : RmField) (sat : Bool) : Statement (.cvtF32E5m2 d a b rm sat) :=
  roundTrip_one (fun l => encCV l 1#1 0x2D#7 d a b (encRm rm) (ofBit sat) 0#1) (fun _ => rfl) (fun l => notLong_A (fK_encCV ..))
    (fun l => by rw [rawDecode_A _ (fK_encCV ..) (by rw [fOp_encCV]; decide), rawA_2D _ (fOp_encCV ..)]; simp)
theorem cvtF32E2m1 (d : RegNo) (a : RegNo) (b : RegNo) (rm : RmField) (sat : Bool) : Statement (.cvtF32E2m1 d a b rm sat) :=
  roundTrip_one (fun l => encCV l 1#1 0x2E#7 d a b (encRm rm) (ofBit sat) 0#1) (fun _ => rfl) (fun l => notLong_A (fK_encCV ..))
    (fun l => by rw [rawDecode_A _ (fK_encCV ..) (by rw [fOp_encCV]; decide), rawA_2E _ (fOp_encCV ..)]; simp)
theorem cvtF32E8m0 (d : RegNo) (a : RegNo) (b : RegNo) (rm : RmField) (sat : Bool) : Statement (.cvtF32E8m0 d a b rm sat) :=
  roundTrip_one (fun l => encCV l 1#1 0x2F#7 d a b (encRm rm) (ofBit sat) 0#1) (fun _ => rfl) (fun l => notLong_A (fK_encCV ..))
    (fun l => by rw [rawDecode_A _ (fK_encCV ..) (by rw [fOp_encCV]; decide), rawA_2F _ (fOp_encCV ..)]; simp)
theorem cvtF32E3m5 (d : RegNo) (a : RegNo) (b : RegNo) (rm : RmField) (sat : Bool) : Statement (.cvtF32E3m5 d a b rm sat) :=
  roundTrip_one (fun l => encCV l 1#1 0x30#7 d a b (encRm rm) (ofBit sat) 0#1) (fun _ => rfl) (fun l => notLong_A (fK_encCV ..))
    (fun l => by rw [rawDecode_A _ (fK_encCV ..) (by rw [fOp_encCV]; decide), rawA_30 _ (fOp_encCV ..)]; simp)
theorem cvtF32I32 (d : RegNo) (a : RegNo) (b : RegNo) (rm : RmField) (sat : Bool) : Statement (.cvtF32I32 d a b rm sat) :=
  roundTrip_one (fun l => encCV l 1#1 0x31#7 d a b (encRm rm) (ofBit sat) 0#1) (fun _ => rfl) (fun l => notLong_A (fK_encCV ..))
    (fun l => by rw [rawDecode_A _ (fK_encCV ..) (by rw [fOp_encCV]; decide), rawA_31 _ (fOp_encCV ..)]; simp)
theorem cvtF32N32 (d : RegNo) (a : RegNo) (b : RegNo) (rm : RmField) (sat : Bool) : Statement (.cvtF32N32 d a b rm sat) :=
  roundTrip_one (fun l => encCV l 1#1 0x32#7 d a b (encRm rm) (ofBit sat) 0#1) (fun _ => rfl) (fun l => notLong_A (fK_encCV ..))
    (fun l => by rw [rawDecode_A _ (fK_encCV ..) (by rw [fOp_encCV]; decide), rawA_32 _ (fOp_encCV ..)]; simp)
theorem cvtF32I64 (d : RegNo) (a : RegNo) (b : RegNo) (rm : RmField) (sat : Bool) : Statement (.cvtF32I64 d a b rm sat) :=
  roundTrip_one (fun l => encCV l 1#1 0x33#7 d a b (encRm rm) (ofBit sat) 0#1) (fun _ => rfl) (fun l => notLong_A (fK_encCV ..))
    (fun l => by rw [rawDecode_A _ (fK_encCV ..) (by rw [fOp_encCV]; decide), rawA_33 _ (fOp_encCV ..)]; simp)
theorem cvtF32N64 (d : RegNo) (a : RegNo) (b : RegNo) (rm : RmField) (sat : Bool) : Statement (.cvtF32N64 d a b rm sat) :=
  roundTrip_one (fun l => encCV l 1#1 0x34#7 d a b (encRm rm) (ofBit sat) 0#1) (fun _ => rfl) (fun l => notLong_A (fK_encCV ..))
    (fun l => by rw [rawDecode_A _ (fK_encCV ..) (by rw [fOp_encCV]; decide), rawA_34 _ (fOp_encCV ..)]; simp)
theorem cvtF16F64 (d : RegNo) (a : RegNo) (b : RegNo) (rm : RmField) (sat : Bool) : Statement (.cvtF16F64 d a b rm sat) :=
  roundTrip_one (fun l => encCV l 1#1 0x35#7 d a b (encRm rm) (ofBit sat) 0#1) (fun _ => rfl) (fun l => notLong_A (fK_encCV ..))
    (fun l => by rw [rawDecode_A _ (fK_encCV ..) (by rw [fOp_encCV]; decide), rawA_35 _ (fOp_encCV ..)]; simp)
theorem cvtF16F32 (d : RegNo) (a : RegNo) (b : RegNo) (rm : RmField) (sat : Bool) : Statement (.cvtF16F32 d a b rm sat) :=
  roundTrip_one (fun l => encCV l 1#1 0x36#7 d a b (encRm rm) (ofBit sat) 0#1) (fun _ => rfl) (fun l => notLong_A (fK_encCV ..))
    (fun l => by rw [rawDecode_A _ (fK_encCV ..) (by rw [fOp_encCV]; decide), rawA_36 _ (fOp_encCV ..)]; simp)
theorem cvtF16Bf16 (d : RegNo) (a : RegNo) (b : RegNo) (rm : RmField) (sat : Bool) : Statement (.cvtF16Bf16 d a b rm sat) :=
  roundTrip_one (fun l => encCV l 1#1 0x37#7 d a b (encRm rm) (ofBit sat) 0#1) (fun _ => rfl) (fun l => notLong_A (fK_encCV ..))
    (fun l => by rw [rawDecode_A _ (fK_encCV ..) (by rw [fOp_encCV]; decide), rawA_37 _ (fOp_encCV ..)]; simp)
theorem cvtF16E4m3 (d : RegNo) (a : RegNo) (b : RegNo) (rm : RmField) (sat : Bool) : Statement (.cvtF16E4m3 d a b rm sat) :=
  roundTrip_one (fun l => encCV l 1#1 0x38#7 d a b (encRm rm) (ofBit sat) 0#1) (fun _ => rfl) (fun l => notLong_A (fK_encCV ..))
    (fun l => by rw [rawDecode_A _ (fK_encCV ..) (by rw [fOp_encCV]; decide), rawA_38 _ (fOp_encCV ..)]; simp)
theorem cvtF16E5m2 (d : RegNo) (a : RegNo) (b : RegNo) (rm : RmField) (sat : Bool) : Statement (.cvtF16E5m2 d a b rm sat) :=
  roundTrip_one (fun l => encCV l 1#1 0x39#7 d a b (encRm rm) (ofBit sat) 0#1) (fun _ => rfl) (fun l => notLong_A (fK_encCV ..))
    (fun l => by rw [rawDecode_A _ (fK_encCV ..) (by rw [fOp_encCV]; decide), rawA_39 _ (fOp_encCV ..)]; simp)
theorem cvtBf16F64 (d : RegNo) (a : RegNo) (b : RegNo) (rm : RmField) (sat : Bool) : Statement (.cvtBf16F64 d a b rm sat) :=
  roundTrip_one (fun l => encCV l 1#1 0x3A#7 d a b (encRm rm) (ofBit sat) 0#1) (fun _ => rfl) (fun l => notLong_A (fK_encCV ..))
    (fun l => by rw [rawDecode_A _ (fK_encCV ..) (by rw [fOp_encCV]; decide), rawA_3A _ (fOp_encCV ..)]; simp)
theorem cvtBf16F32 (d : RegNo) (a : RegNo) (b : RegNo) (rm : RmField) (sat : Bool) : Statement (.cvtBf16F32 d a b rm sat) :=
  roundTrip_one (fun l => encCV l 1#1 0x3B#7 d a b (encRm rm) (ofBit sat) 0#1) (fun _ => rfl) (fun l => notLong_A (fK_encCV ..))
    (fun l => by rw [rawDecode_A _ (fK_encCV ..) (by rw [fOp_encCV]; decide), rawA_3B _ (fOp_encCV ..)]; simp)
theorem cvtBf16F16 (d : RegNo) (a : RegNo) (b : RegNo) (rm : RmField) (sat : Bool) : Statement (.cvtBf16F16 d a b rm sat) :=
  roundTrip_one (fun l => encCV l 1#1 0x3C#7 d a b (encRm rm) (ofBit sat) 0#1) (fun _ => rfl) (fun l => notLong_A (fK_encCV ..))
    (fun l => by rw [rawDecode_A _ (fK_encCV ..) (by rw [fOp_encCV]; decide), rawA_3C _ (fOp_encCV ..)]; simp)
theorem cvtBf16E4m3 (d : RegNo) (a : RegNo) (b : RegNo) (rm : RmField) (sat : Bool) : Statement (.cvtBf16E4m3 d a b rm sat) :=
  roundTrip_one (fun l => encCV l 1#1 0x3D#7 d a b (encRm rm) (ofBit sat) 0#1) (fun _ => rfl) (fun l => notLong_A (fK_encCV ..))
    (fun l => by rw [rawDecode_A _ (fK_encCV ..) (by rw [fOp_encCV]; decide), rawA_3D _ (fOp_encCV ..)]; simp)
theorem cvtBf16E5m2 (d : RegNo) (a : RegNo) (b : RegNo) (rm : RmField) (sat : Bool) : Statement (.cvtBf16E5m2 d a b rm sat) :=
  roundTrip_one (fun l => encCV l 1#1 0x3E#7 d a b (encRm rm) (ofBit sat) 0#1) (fun _ => rfl) (fun l => notLong_A (fK_encCV ..))
    (fun l => by rw [rawDecode_A _ (fK_encCV ..) (by rw [fOp_encCV]; decide), rawA_3E _ (fOp_encCV ..)]; simp)
theorem cvtE4m3F64 (d : RegNo) (a : RegNo) (b : RegNo) (rm : RmField) (sat : Bool) : Statement (.cvtE4m3F64 d a b rm sat) :=
  roundTrip_one (fun l => encCV l 1#1 0x3F#7 d a b (encRm rm) (ofBit sat) 0#1) (fun _ => rfl) (fun l => notLong_A (fK_encCV ..))
    (fun l => by rw [rawDecode_A _ (fK_encCV ..) (by rw [fOp_encCV]; decide), rawA_3F _ (fOp_encCV ..)]; simp)
theorem cvtE4m3F32 (d : RegNo) (a : RegNo) (b : RegNo) (rm : RmField) (sat : Bool) : Statement (.cvtE4m3F32 d a b rm sat) :=
  roundTrip_one (fun l => encCV l 1#1 0x40#7 d a b (encRm rm) (ofBit sat) 0#1) (fun _ => rfl) (fun l => notLong_A (fK_encCV ..))
    (fun l => by rw [rawDecode_A _ (fK_encCV ..) (by rw [fOp_encCV]; decide), rawA_40 _ (fOp_encCV ..)]; simp)
theorem cvtE4m3F16 (d : RegNo) (a : RegNo) (b : RegNo) (rm : RmField) (sat : Bool) : Statement (.cvtE4m3F16 d a b rm sat) :=
  roundTrip_one (fun l => encCV l 1#1 0x41#7 d a b (encRm rm) (ofBit sat) 0#1) (fun _ => rfl) (fun l => notLong_A (fK_encCV ..))
    (fun l => by rw [rawDecode_A _ (fK_encCV ..) (by rw [fOp_encCV]; decide), rawA_41 _ (fOp_encCV ..)]; simp)
theorem cvtE4m3Bf16 (d : RegNo) (a : RegNo) (b : RegNo) (rm : RmField) (sat : Bool) : Statement (.cvtE4m3Bf16 d a b rm sat) :=
  roundTrip_one (fun l => encCV l 1#1 0x42#7 d a b (encRm rm) (ofBit sat) 0#1) (fun _ => rfl) (fun l => notLong_A (fK_encCV ..))
    (fun l => by rw [rawDecode_A _ (fK_encCV ..) (by rw [fOp_encCV]; decide), rawA_42 _ (fOp_encCV ..)]; simp)
theorem cvtE4m3E5m2 (d : RegNo) (a : RegNo) (b : RegNo) (rm : RmField) (sat : Bool) : Statement (.cvtE4m3E5m2 d a b rm sat) :=
  roundTrip_one (fun l => encCV l 1#1 0x43#7 d a b (encRm rm) (ofBit sat) 0#1) (fun _ => rfl) (fun l => notLong_A (fK_encCV ..))
    (fun l => by rw [rawDecode_A _ (fK_encCV ..) (by rw [fOp_encCV]; decide), rawA_43 _ (fOp_encCV ..)]; simp)
theorem cvtE5m2F64 (d : RegNo) (a : RegNo) (b : RegNo) (rm : RmField) (sat : Bool) : Statement (.cvtE5m2F64 d a b rm sat) :=
  roundTrip_one (fun l => encCV l 1#1 0x44#7 d a b (encRm rm) (ofBit sat) 0#1) (fun _ => rfl) (fun l => notLong_A (fK_encCV ..))
    (fun l => by rw [rawDecode_A _ (fK_encCV ..) (by rw [fOp_encCV]; decide), rawA_44 _ (fOp_encCV ..)]; simp)
theorem cvtE5m2F32 (d : RegNo) (a : RegNo) (b : RegNo) (rm : RmField) (sat : Bool) : Statement (.cvtE5m2F32 d a b rm sat) :=
  roundTrip_one (fun l => encCV l 1#1 0x45#7 d a b (encRm rm) (ofBit sat) 0#1) (fun _ => rfl) (fun l => notLong_A (fK_encCV ..))
    (fun l => by rw [rawDecode_A _ (fK_encCV ..) (by rw [fOp_encCV]; decide), rawA_45 _ (fOp_encCV ..)]; simp)
theorem cvtE5m2F16 (d : RegNo) (a : RegNo) (b : RegNo) (rm : RmField) (sat : Bool) : Statement (.cvtE5m2F16 d a b rm sat) :=
  roundTrip_one (fun l => encCV l 1#1 0x46#7 d a b (encRm rm) (ofBit sat) 0#1) (fun _ => rfl) (fun l => notLong_A (fK_encCV ..))
    (fun l => by rw [rawDecode_A _ (fK_encCV ..) (by rw [fOp_encCV]; decide), rawA_46 _ (fOp_encCV ..)]; simp)
theorem cvtE5m2Bf16 (d : RegNo) (a : RegNo) (b : RegNo) (rm : RmField) (sat : Bool) : Statement (.cvtE5m2Bf16 d a b rm sat) :=
  roundTrip_one (fun l => encCV l 1#1 0x47#7 d a b (encRm rm) (ofBit sat) 0#1) (fun _ => rfl) (fun l => notLong_A (fK_encCV ..))
    (fun l => by rw [rawDecode_A _ (fK_encCV ..) (by rw [fOp_encCV]; decide), rawA_47 _ (fOp_encCV ..)]; simp)
theorem cvtE5m2E4m3 (d : RegNo) (a : RegNo) (b : RegNo) (rm : RmField) (sat : Bool) : Statement (.cvtE5m2E4m3 d a b rm sat) :=
  roundTrip_one (fun l => encCV l 1#1 0x48#7 d a b (encRm rm) (ofBit sat) 0#1) (fun _ => rfl) (fun l => notLong_A (fK_encCV ..))
    (fun l => by rw [rawDecode_A _ (fK_encCV ..) (by rw [fOp_encCV]; decide), rawA_48 _ (fOp_encCV ..)]; simp)
theorem cvtE2m1F64 (d : RegNo) (a : RegNo) (b : RegNo) (rm : RmField) (sat : Bool) : Statement (.cvtE2m1F64 d a b rm sat) :=
  roundTrip_one (fun l => encCV l 1#1 0x49#7 d a b (encRm rm) (ofBit sat) 0#1) (fun _ => rfl) (fun l => notLong_A (fK_encCV ..))
    (fun l => by rw [rawDecode_A _ (fK_encCV ..) (by rw [fOp_encCV]; decide), rawA_49 _ (fOp_encCV ..)]; simp)
theorem cvtE2m1F32 (d : RegNo) (a : RegNo) (b : RegNo) (rm : RmField) (sat : Bool) : Statement (.cvtE2m1F32 d a b rm sat) :=
  roundTrip_one (fun l => encCV l 1#1 0x4A#7 d a b (encRm rm) (ofBit sat) 0#1) (fun _ => rfl) (fun l => notLong_A (fK_encCV ..))
    (fun l => by rw [rawDecode_A _ (fK_encCV ..) (by rw [fOp_encCV]; decide), rawA_4A _ (fOp_encCV ..)]; simp)
theorem cvtE2m1F16 (d : RegNo) (a : RegNo) (b : RegNo) (rm : RmField) (sat : Bool) : Statement (.cvtE2m1F16 d a b rm sat) :=
  roundTrip_one (fun l => encCV l 1#1 0x4B#7 d a b (encRm rm) (ofBit sat) 0#1) (fun _ => rfl) (fun l => notLong_A (fK_encCV ..))
    (fun l => by rw [rawDecode_A _ (fK_encCV ..) (by rw [fOp_encCV]; decide), rawA_4B _ (fOp_encCV ..)]; simp)
theorem cvtE2m1Bf16 (d : RegNo) (a : RegNo) (b : RegNo) (rm : RmField) (sat : Bool) : Statement (.cvtE2m1Bf16 d a b rm sat) :=
  roundTrip_one (fun l => encCV l 1#1 0x4C#7 d a b (encRm rm) (ofBit sat) 0#1) (fun _ => rfl) (fun l => notLong_A (fK_encCV ..))
    (fun l => by rw [rawDecode_A _ (fK_encCV ..) (by rw [fOp_encCV]; decide), rawA_4C _ (fOp_encCV ..)]; simp)
theorem cvtE8m0F32 (d : RegNo) (a : RegNo) (b : RegNo) (rm : RmField) (sat : Bool) : Statement (.cvtE8m0F32 d a b rm sat) :=
  roundTrip_one (fun l => encCV l 1#1 0x4D#7 d a b (encRm rm) (ofBit sat) 0#1) (fun _ => rfl) (fun l => notLong_A (fK_encCV ..))
    (fun l => by rw [rawDecode_A _ (fK_encCV ..) (by rw [fOp_encCV]; decide), rawA_4D _ (fOp_encCV ..)]; simp)
theorem cvtE3m5F32 (d : RegNo) (a : RegNo) (b : RegNo) (rm : RmField) (sat : Bool) : Statement (.cvtE3m5F32 d a b rm sat) :=
  roundTrip_one (fun l => encCV l 1#1 0x4E#7 d a b (encRm rm) (ofBit sat) 0#1) (fun _ => rfl) (fun l => notLong_A (fK_encCV ..))
    (fun l => by rw [rawDecode_A _ (fK_encCV ..) (by rw [fOp_encCV]; decide), rawA_4E _ (fOp_encCV ..)]; simp)
theorem cvtI32F64 (d : RegNo) (a : RegNo) (b : RegNo) (rm : RmField) (sat : Bool) : Statement (.cvtI32F64 d a b rm sat) :=
  roundTrip_one (fun l => encCV l 1#1 0x4F#7 d a b (encRm rm) (ofBit sat) 0#1) (fun _ => rfl) (fun l => notLong_A (fK_encCV ..))
    (fun l => by rw [rawDecode_A _ (fK_encCV ..) (by rw [fOp_encCV]; decide), rawA_4F _ (fOp_encCV ..)]; simp)
theorem cvtI32F32 (d : RegNo) (a : RegNo) (b : RegNo) (rm : RmField) (sat : Bool) : Statement (.cvtI32F32 d a b rm sat) :=
  roundTrip_one (fun l => encCV l 1#1 0x50#7 d a b (encRm rm) (ofBit sat) 0#1) (fun _ => rfl) (fun l => notLong_A (fK_encCV ..))
    (fun l => by rw [rawDecode_A _ (fK_encCV ..) (by rw [fOp_encCV]; decide), rawA_50 _ (fOp_encCV ..)]; simp)
theorem cvtI32I64 (d : RegNo) (a : RegNo) (sat : Bool) : Statement (.cvtI32I64 d a sat) :=
  roundTrip_one (fun l => encCV l 1#1 0x51#7 d a 0#6 7#3 (ofBit sat) 0#1) (fun _ => rfl) (fun l => notLong_A (fK_encCV ..))
    (fun l => by rw [rawDecode_A _ (fK_encCV ..) (by rw [fOp_encCV]; decide), rawA_51 _ (fOp_encCV ..)]; simp)
theorem cvtN32F64 (d : RegNo) (a : RegNo) (b : RegNo) (rm : RmField) (sat : Bool) : Statement (.cvtN32F64 d a b rm sat) :=
  roundTrip_one (fun l => encCV l 1#1 0x52#7 d a b (encRm rm) (ofBit sat) 0#1) (fun _ => rfl) (fun l => notLong_A (fK_encCV ..))
    (fun l => by rw [rawDecode_A _ (fK_encCV ..) (by rw [fOp_encCV]; decide), rawA_52 _ (fOp_encCV ..)]; simp)
theorem cvtN32F32 (d : RegNo) (a : RegNo) (b : RegNo) (rm : RmField) (sat : Bool) : Statement (.cvtN32F32 d a b rm sat) :=
  roundTrip_one (fun l => encCV l 1#1 0x53#7 d a b (encRm rm) (ofBit sat) 0#1) (fun _ => rfl) (fun l => notLong_A (fK_encCV ..))
    (fun l => by rw [rawDecode_A _ (fK_encCV ..) (by rw [fOp_encCV]; decide), rawA_53 _ (fOp_encCV ..)]; simp)
theorem cvtN32N64 (d : RegNo) (a : RegNo) (sat : Bool) : Statement (.cvtN32N64 d a sat) :=
  roundTrip_one (fun l => encCV l 1#1 0x54#7 d a 0#6 7#3 (ofBit sat) 0#1) (fun _ => rfl) (fun l => notLong_A (fK_encCV ..))
    (fun l => by rw [rawDecode_A _ (fK_encCV ..) (by rw [fOp_encCV]; decide), rawA_54 _ (fOp_encCV ..)]; simp)
theorem cvtI64F64 (d : RegNo) (a : RegNo) (b : RegNo) (rm : RmField) (sat : Bool) : Statement (.cvtI64F64 d a b rm sat) :=
  roundTrip_one (fun l => encCV l 1#1 0x55#7 d a b (encRm rm) (ofBit sat) 0#1) (fun _ => rfl) (fun l => notLong_A (fK_encCV ..))
    (fun l => by rw [rawDecode_A _ (fK_encCV ..) (by rw [fOp_encCV]; decide), rawA_55 _ (fOp_encCV ..)]; simp)
theorem cvtI64F32 (d : RegNo) (a : RegNo) (b : RegNo) (rm : RmField) (sat : Bool) : Statement (.cvtI64F32 d a b rm sat) :=
  roundTrip_one (fun l => encCV l 1#1 0x56#7 d a b (encRm rm) (ofBit sat) 0#1) (fun _ => rfl) (fun l => notLong_A (fK_encCV ..))
    (fun l => by rw [rawDecode_A _ (fK_encCV ..) (by rw [fOp_encCV]; decide), rawA_56 _ (fOp_encCV ..)]; simp)
theorem cvtI64I32 (d : RegNo) (a : RegNo) (sat : Bool) : Statement (.cvtI64I32 d a sat) :=
  roundTrip_one (fun l => encCV l 1#1 0x57#7 d a 0#6 7#3 (ofBit sat) 0#1) (fun _ => rfl) (fun l => notLong_A (fK_encCV ..))
    (fun l => by rw [rawDecode_A _ (fK_encCV ..) (by rw [fOp_encCV]; decide), rawA_57 _ (fOp_encCV ..)]; simp)
theorem cvtN64F64 (d : RegNo) (a : RegNo) (b : RegNo) (rm : RmField) (sat : Bool) : Statement (.cvtN64F64 d a b rm sat) :=
  roundTrip_one (fun l => encCV l 1#1 0x58#7 d a b (encRm rm) (ofBit sat) 0#1) (fun _ => rfl) (fun l => notLong_A (fK_encCV ..))
    (fun l => by rw [rawDecode_A _ (fK_encCV ..) (by rw [fOp_encCV]; decide), rawA_58 _ (fOp_encCV ..)]; simp)
theorem cvtN64F32 (d : RegNo) (a : RegNo) (b : RegNo) (rm : RmField) (sat : Bool) : Statement (.cvtN64F32 d a b rm sat) :=
  roundTrip_one (fun l => encCV l 1#1 0x59#7 d a b (encRm rm) (ofBit sat) 0#1) (fun _ => rfl) (fun l => notLong_A (fK_encCV ..))
    (fun l => by rw [rawDecode_A _ (fK_encCV ..) (by rw [fOp_encCV]; decide), rawA_59 _ (fOp_encCV ..)]; simp)
theorem cvtN64N32 (d : RegNo) (a : RegNo) (sat : Bool) : Statement (.cvtN64N32 d a sat) :=
  roundTrip_one (fun l => encCV l 1#1 0x5A#7 d a 0#6 7#3 (ofBit sat) 0#1) (fun _ => rfl) (fun l => notLong_A (fK_encCV ..))
    (fun l => by rw [rawDecode_A _ (fK_encCV ..) (by rw [fOp_encCV]; decide), rawA_5A _ (fOp_encCV ..)]; simp)
theorem cvtI8I32 (d : RegNo) (a : RegNo) (sat : Bool) : Statement (.cvtI8I32 d a sat) :=
  roundTrip_one (fun l => encCV l 1#1 0x5B#7 d a 0#6 7#3 (ofBit sat) 0#1) (fun _ => rfl) (fun l => notLong_A (fK_encCV ..))
    (fun l => by rw [rawDecode_A _ (fK_encCV ..) (by rw [fOp_encCV]; decide), rawA_5B _ (fOp_encCV ..)]; simp)
theorem cvtN8I32 (d : RegNo) (a : RegNo) (sat : Bool) : Statement (.cvtN8I32 d a sat) :=
  roundTrip_one (fun l => encCV l 1#1 0x5C#7 d a 0#6 7#3 (ofBit sat) 0#1) (fun _ => rfl) (fun l => notLong_A (fK_encCV ..))
    (fun l => by rw [rawDecode_A _ (fK_encCV ..) (by rw [fOp_encCV]; decide), rawA_5C _ (fOp_encCV ..)]; simp)
theorem cvtI16I32 (d : RegNo) (a : RegNo) (sat : Bool) : Statement (.cvtI16I32 d a sat) :=
  roundTrip_one (fun l => encCV l 1#1 0x5D#7 d a 0#6 7#3 (ofBit sat) 0#1) (fun _ => rfl) (fun l => notLong_A (fK_encCV ..))
    (fun l => by rw [rawDecode_A _ (fK_encCV ..) (by rw [fOp_encCV]; decide), rawA_5D _ (fOp_encCV ..)]; simp)
theorem cvtN16I32 (d : RegNo) (a : RegNo) (sat : Bool) : Statement (.cvtN16I32 d a sat) :=
  roundTrip_one (fun l => encCV l 1#1 0x5E#7 d a 0#6 7#3 (ofBit sat) 0#1) (fun _ => rfl) (fun l => notLong_A (fK_encCV ..))
    (fun l => by rw [rawDecode_A _ (fK_encCV ..) (by rw [fOp_encCV]; decide), rawA_5E _ (fOp_encCV ..)]; simp)
theorem cvtpE4m3 (d : RegNo) (a : RegNo) (b : RegNo) (rm : RmField) (sat : Bool) (h : Bool) : Statement (.cvtpE4m3 d a b rm sat h) :=
  roundTrip_one (fun l => encCV l 1#1 0x70#7 d a b (encRm rm) (ofBit sat) (ofBit h)) (fun _ => rfl) (fun l => notLong_A (fK_encCV ..))
    (fun l => by rw [rawDecode_A _ (fK_encCV ..) (by rw [fOp_encCV]; decide), rawA_70 _ (fOp_encCV ..)]; simp)
theorem cvtpE5m2 (d : RegNo) (a : RegNo) (b : RegNo) (rm : RmField) (sat : Bool) (h : Bool) : Statement (.cvtpE5m2 d a b rm sat h) :=
  roundTrip_one (fun l => encCV l 1#1 0x71#7 d a b (encRm rm) (ofBit sat) (ofBit h)) (fun _ => rfl) (fun l => notLong_A (fK_encCV ..))
    (fun l => by rw [rawDecode_A _ (fK_encCV ..) (by rw [fOp_encCV]; decide), rawA_71 _ (fOp_encCV ..)]; simp)
theorem cvtpE2m1Low (d : RegNo) (a : RegNo) (b : RegNo) (rm : RmField) (sat : Bool) (h : Bool) : Statement (.cvtpE2m1Low d a b rm sat h) :=
  roundTrip_one (fun l => encCV l 1#1 0x72#7 d a b (encRm rm) (ofBit sat) (ofBit h)) (fun _ => rfl) (fun l => notLong_A (fK_encCV ..))
    (fun l => by rw [rawDecode_A _ (fK_encCV ..) (by rw [fOp_encCV]; decide), rawA_72 _ (fOp_encCV ..)]; simp)
theorem cvtpE2m1High (d : RegNo) (a : RegNo) (b : RegNo) (rm : RmField) (sat : Bool) (h : Bool) : Statement (.cvtpE2m1High d a b rm sat h) :=
  roundTrip_one (fun l => encCV l 1#1 0x73#7 d a b (encRm rm) (ofBit sat) (ofBit h)) (fun _ => rfl) (fun l => notLong_A (fK_encCV ..))
    (fun l => by rw [rawDecode_A _ (fK_encCV ..) (by rw [fOp_encCV]; decide), rawA_73 _ (fOp_encCV ..)]; simp)
theorem cvtpF16 (d : RegNo) (a : RegNo) (b : RegNo) (rm : RmField) (sat : Bool) : Statement (.cvtpF16 d a b rm sat) :=
  roundTrip_one (fun l => encCV l 1#1 0x74#7 d a b (encRm rm) (ofBit sat) 0#1) (fun _ => rfl) (fun l => notLong_A (fK_encCV ..))
    (fun l => by rw [rawDecode_A _ (fK_encCV ..) (by rw [fOp_encCV]; decide), rawA_74 _ (fOp_encCV ..)]; simp)
theorem cvtpBf16 (d : RegNo) (a : RegNo) (b : RegNo) (rm : RmField) (sat : Bool) : Statement (.cvtpBf16 d a b rm sat) :=
  roundTrip_one (fun l => encCV l 1#1 0x75#7 d a b (encRm rm) (ofBit sat) 0#1) (fun _ => rfl) (fun l => notLong_A (fK_encCV ..))
    (fun l => by rw [rawDecode_A _ (fK_encCV ..) (by rw [fOp_encCV]; decide), rawA_75 _ (fOp_encCV ..)]; simp)
theorem ffma (d : RegNo) (a : RegNo) (b : RegNo) (c : RegNo) : Statement (.ffma d a b c) :=
  roundTrip_one (fun l => encF4 l 0#2 d a b c) (fun _ => rfl) (fun l => notLong_A (fK_encF4 ..))
    (fun l => by rw [rawDecode_F4 _ (fK_encF4 ..) (fOp_encF4 ..), rawF4_0 _ (fSub_encF4 ..)]; simp)
theorem dfma (d : RegNo) (a : RegNo) (b : RegNo) (c : RegNo) : Statement (.dfma d a b c) :=
  roundTrip_one (fun l => encF4 l 1#2 d a b c) (fun _ => rfl) (fun l => notLong_A (fK_encF4 ..))
    (fun l => by rw [rawDecode_F4 _ (fK_encF4 ..) (fOp_encF4 ..), rawF4_1 _ (fSub_encF4 ..)]; simp)
theorem imad (d : RegNo) (a : RegNo) (b : RegNo) (c : RegNo) : Statement (.imad d a b c) :=
  roundTrip_one (fun l => encF4 l 2#2 d a b c) (fun _ => rfl) (fun l => notLong_A (fK_encF4 ..))
    (fun l => by rw [rawDecode_F4 _ (fK_encF4 ..) (fOp_encF4 ..), rawF4_2 _ (fSub_encF4 ..)]; simp)
theorem sel (d : RegNo) (a : RegNo) (b : RegNo) (c : RegNo) : Statement (.sel d a b c) :=
  roundTrip_one (fun l => encF4 l 3#2 d a b c) (fun _ => rfl) (fun l => notLong_A (fK_encF4 ..))
    (fun l => by rw [rawDecode_F4 _ (fK_encF4 ..) (fOp_encF4 ..), rawF4_3 _ (fSub_encF4 ..)]; simp)

end Laws.RoundTrip

end Sys2Proof
end

