-- ==== Sys2Proof/Laws/Stores.lean ====
section
/-! SUPPORT. What writes come to: at a home (R125, R135, R265), into an L1, and the acquire and release actions
(R124). -/

namespace Sys2Proof.Machine

theorem byteMask_get (off n i : Nat) (hi : i < 128) : (byteMask off n).getLsbD i = decide (off ≤ i ∧ i < off + n) := by
  unfold byteMask
  rw [BitVec.getLsbD_ofNat, Nat.testBit_mul_two_pow, Nat.testBit_two_pow_sub_one]
  rw [Bool.eq_iff_iff]
  simp only [hi, decide_true, Bool.true_and, Bool.and_eq_true, decide_eq_true_eq]
  omega

theorem setManyAt_get {α : Type} (i j : Nat) (xs l : List α) (h : i + xs.length ≤ l.length) :
    (setManyAt i xs l)[j]? = if i ≤ j ∧ j < i + xs.length then xs[j - i]? else l[j]? := by
  unfold setManyAt
  rw [List.append_assoc, List.getElem?_append]
  have h1 : (l.take i).length = i := by simp; omega
  have h2 : (xs.take (l.length - i)) = xs := List.take_of_length_le (by omega)
  rw [h1, h2]
  by_cases c : j < i
  · rw [if_pos c, if_neg (by omega), List.getElem?_take, if_pos c]
  · rw [if_neg c, List.getElem?_append]
    by_cases d : j - i < xs.length
    · rw [if_pos d, if_pos (by omega)]
    · rw [if_neg d, if_neg (by omega), List.getElem?_drop]; congr 1; omega

/-- The update that the forwarding of bytes sends to a sharer (R125, R265). -/
def State.updateOf (s : State) (w : Option Nat) (a : Nat) (bytes : List Byte) : Update :=
  { pa := a, bytes := bytes, writer := w, pois := s.linePois (a / 128) }

/-- The cores after bytes of one line are forwarded: the sharers but for the writer have its update on the way (R265). -/
theorem State.core_forward (s : State) (w : Option Nat) (a : Nat) (bytes : List Byte) (d : Nat) :
    (s.forward w a bytes).core d = if some d ≠ w ∧ (s.core d).shares (a / 128) = true then
      { s.core d with updates := (s.core d).updates ++ [s.updateOf w a bytes] } else s.core d := by
  have key : ∀ l : List (Nat × Core), aget d (l.map fun c => if some c.1 ≠ w ∧ c.2.shares (a / 128) = true then
      (c.1, { c.2 with updates := c.2.updates ++ [s.updateOf w a bytes] }) else c) =
      (aget d l).map fun k => if some d ≠ w ∧ k.shares (a / 128) = true then
        { k with updates := k.updates ++ [s.updateOf w a bytes] } else k := by
    intro l
    induction l with
    | nil => rfl
    | cons x l ih =>
      obtain ⟨i, k⟩ := x
      simp only [List.map_cons]
      have e : (if some i ≠ w ∧ k.shares (a / 128) = true then
          (i, { k with updates := k.updates ++ [s.updateOf w a bytes] }) else (i, k)) =
          (i, if some i ≠ w ∧ k.shares (a / 128) = true then
            { k with updates := k.updates ++ [s.updateOf w a bytes] } else k) := by
        split <;> rfl
      rw [e]
      simp only [aget]
      by_cases h : i = d
      · subst h; simp
      · rw [if_neg h, if_neg h]
        split
        · rfl
        · exact ih
  show (aget d (s.forward w a bytes).cores).getD {} = _
  have : (s.forward w a bytes).cores = s.cores.map fun c => if some c.1 ≠ w ∧ c.2.shares (a / 128) = true then
      (c.1, { c.2 with updates := c.2.updates ++ [s.updateOf w a bytes] }) else c := rfl
  rw [this, key]
  unfold State.core
  cases aget d s.cores with
  | none => simp [Core.shares]
  | some k => rfl

/-- A write at a home performs at once where no peer holds the page of its bytes (R375). -/
theorem State.homeWrite_own {s : State} {w : Option Nat} {pa : Nat} {bytes : List Byte}
    (h : s.heldPage (s.homeAddr pa) bytes.length = none) : s.homeWrite w pa bytes = s.performWrite w pa bytes := by
  unfold State.homeWrite; rw [h]

/-- A write to a page that a peer holds waits at the home, and no byte of memory changes (R375). -/
theorem State.homeWrite_held {s : State} {w : Option Nat} {pa page : Nat} {bytes : List Byte}
    (h : s.heldPage (s.homeAddr pa) bytes.length = some page) :
    s.homeWrite w pa bytes = s.holdWrite page (s.homeAddr pa) bytes ∧ (s.homeWrite w pa bytes).mem = s.mem := by
  have e : s.homeWrite w pa bytes = s.holdWrite page (s.homeAddr pa) bytes := by unfold State.homeWrite; rw [h]
  refine ⟨e, ?_⟩
  rw [e]; unfold State.holdWrite State.recall
  dsimp only
  split <;> rfl

/-- What performs at a home, of bytes within one line: the bytes of memory, the updates to the sharers, and nothing else
but the poison marks, what a deterministic launch notes, and what the Chimes wake and signal (R125, R135, R265, R287). -/
theorem State.performWrite_spec (s : State) (w : Option Nat) (pa : Nat) (bytes : List Byte) (hr : s.t.life = .running)
    (hn : s.homeAddr pa % 128 + bytes.length ≤ 128) :
    (s.performWrite w pa bytes).t = s.t ∧
    s.performWrite w pa bytes = { s with
      cores := (s.performWrite w pa bytes).cores, mem := (s.performWrite w pa bytes).mem
      pois := (s.performWrite w pa bytes).pois, launches := (s.performWrite w pa bytes).launches
      ctxs := (s.performWrite w pa bytes).ctxs, signals := (s.performWrite w pa bytes).signals
      peerWatches := (s.performWrite w pa bytes).peerWatches } ∧
    (∀ d, (s.performWrite w pa bytes).core d =
      if some d ≠ w ∧ (s.core d).shares (s.homeAddr pa / 128) = true then
        { s.core d with updates := (s.core d).updates ++ [(s.performWrite w pa bytes).updateOf w (s.homeAddr pa) bytes] }
      else s.core d) ∧
    (Memory.wf s.mem = true → Memory.wf (s.performWrite w pa bytes).mem = true) ∧
    (Memory.wf s.mem = true → ∀ x, cellRead (s.performWrite w pa bytes).mem x =
      if s.homeAddr pa ≤ x ∧ x < s.homeAddr pa + bytes.length then bytes[x - s.homeAddr pa]?.getD 0#8 else cellRead s.mem x) := by
  obtain ⟨a, ha⟩ : ∃ a, a = s.homeAddr pa := ⟨_, rfl⟩
  rw [← ha] at hn
  obtain ⟨p1, hp1⟩ : ∃ p1 : List Nat, p1 = s.pois.filter fun p => !(decide (a ≤ 32 * p) && decide (32 * p + 32 ≤ a + bytes.length)) := ⟨_, rfl⟩
  obtain ⟨s1, hs1⟩ : ∃ s1 : State, s1 = { s.noteWrite a bytes.length with mem := cellWriteN s.mem a bytes, pois := p1 } := ⟨_, rfl⟩
  obtain ⟨s2, hs2⟩ : ∃ s2 : State, s2 = s1.forward w a bytes := ⟨_, rfl⟩
  have hdef : s.performWrite w pa bytes = if s.homeRead pa bytes.length ≠ bytes then s2.lineChimes (linesOf a bytes.length) else s2 := by
    have hl : s1.forwardLines w a bytes = s2 := by rw [hs2]; unfold State.forwardLines; rw [if_pos hn]
    rw [← hl, hs1, hp1, ha]; rfl
  have h2t : s2.t = s.t := by rw [hs2, hs1]; rfl
  obtain ⟨s3, hs3⟩ : ∃ s3, s3 = s.performWrite w pa bytes := ⟨_, rfl⟩
  have h3 : s3.t = s2.t ∧ s3 = { s2 with
      ctxs := s3.ctxs, signals := s3.signals, peerWatches := s3.peerWatches } := by
    rw [hs3, hdef]; split
    · exact State.lineChimes_spec _ _ (by rw [h2t]; exact hr)
    · exact ⟨rfl, rfl⟩
  have hwf2 : Memory.wf s.mem = true → Memory.wf s2.mem = true := fun h => by
    rw [hs2, hs1]; exact wf_cellWriteN _ _ _ h
  have hmem2 : s2.mem = cellWriteN s.mem a bytes := by rw [hs2, hs1]; rfl
  have hrest : s2 = { s with cores := s2.cores, mem := s2.mem, pois := s2.pois, launches := s2.launches } := by rw [hs2, hs1]; rfl
  rw [← hs3, ← ha]
  refine ⟨h3.1.trans h2t, by rw [h3.2, hrest], fun d => ?_, fun h => by rw [h3.2]; exact hwf2 h, fun h x => ?_⟩
  · have e1 : s3.core d = s2.core d := by rw [h3.2]; rfl
    have e2 : s3.updateOf w a bytes = s1.updateOf w a bytes := by
      have : s3.pois = s1.pois := by rw [h3.2, hs2]; rfl
      unfold State.updateOf State.linePois; rw [this]
    have e3 : ∀ d, s1.core d = s.core d := fun d => by rw [hs1]; rfl
    rw [e1, hs2, State.core_forward, e2, e3]
  · rw [show s3.mem = s2.mem by rw [h3.2], hmem2]
    split
    · rename_i hh
      have := cellRead_cellWriteN s.mem a (x - a) bytes h (by omega)
      rw [show a + (x - a) = x by omega] at this
      rw [this, List.getElem?_eq_getElem (by omega)]; rfl
    · exact cellRead_cellWriteN_out _ _ _ _ h (by omega)

/-- A store into an L1: the bytes are there and dirty, and what the core sees elsewhere stays (R124). -/
theorem State.l1Store_spec (s : State) (c pa : Nat) (bytes : List Byte) (asn : BitVec 16) (vpn : BitVec 41) (size : Nat) (hr : s.t.life = .running)
    (hok : (s.core c).linesOk) (hcalm : s.room c (s.homeAddr pa) ∨ s.calm c) (hn : s.homeAddr pa % 128 + bytes.length ≤ 128) :
    ∃ s1, CacheStep c s s1 ∧
      (s.room c (s.homeAddr pa) → s1 = { s with cores := s1.cores } ∧ (s1.core c).updates = (s.core c).updates ∧
        (s1.core c).sent = (s.core c).sent ∧ ∀ x, s1.seen c x = s.seen c x) ∧
      s.l1Store c pa bytes asn vpn size = { s1 with cores := (s.l1Store c pa bytes asn vpn size).cores } ∧
      (∀ d, d ≠ c → (s.l1Store c pa bytes asn vpn size).core d = s1.core d) ∧
      (s.l1Store c pa bytes asn vpn size).core c = { s1.core c with l1 := ((s.l1Store c pa bytes asn vpn size).core c).l1 } ∧
      ((s.l1Store c pa bytes asn vpn size).core c).linesOk ∧
      (∀ x, (s.l1Store c pa bytes asn vpn size).seen c x =
        if s.homeAddr pa ≤ x ∧ x < s.homeAddr pa + bytes.length then bytes[x - s.homeAddr pa]?.getD 0#8 else s1.seen c x) ∧
      (∀ x b, s.homeAddr pa ≤ x → x < s.homeAddr pa + bytes.length → bytes[x - s.homeAddr pa]? = some b →
        WasDirty (s.l1Store c pa bytes asn vpn size) c x b) := by
  obtain ⟨a, ha⟩ : ∃ a, a = s.homeAddr pa := ⟨_, rfl⟩
  rw [← ha] at hn hcalm ⊢
  obtain ⟨a1, a2, a3, -, -, -⟩ := State.allocLine_spec s c a asn vpn size hr hok hcalm
  generalize hs1 : s.allocLine c a asn vpn size = s1 at a1 a2 a3
  have hok1 := a1.lines hok
  obtain ⟨l, hl⟩ : ∃ l, (s1.core c).line? (a / 128) = some l := by
    rcases a2 with ⟨h1, h2⟩ | ⟨-, l, h, -⟩
    · rw [h2]; exact Option.isSome_iff_exists.1 h1
    · exact ⟨l, h⟩
  obtain ⟨hlm, hln⟩ := Core.line?_some hl
  have hld := hok1.2 l hlm
  obtain ⟨l', hl'⟩ : ∃ l', l' = { l with data := setManyAt (a % 128) bytes l.data, dirty := l.dirty ||| byteMask (a % 128) bytes.length, master := s1.t.master } := ⟨_, rfl⟩
  have hdef : s.l1Store c pa bytes asn vpn size = s1.modCore c fun k => match k.line? (a / 128) with
      | some l => k.putLine { l with data := setManyAt (a % 128) bytes l.data, dirty := l.dirty ||| byteMask (a % 128) bytes.length, master := s1.t.master }
      | none => k := by
    unfold State.l1Store; simp only [lineNo]; rw [← ha, hs1] <;> rfl
  have hcore : (s.l1Store c pa bytes asn vpn size).core c = (s1.core c).putLine l' := by
    rw [hdef, State.core_modCore, if_pos rfl, hl']; simp only [hl]
  have hdl : l'.data.length = 128 := by rw [hl']; exact (setManyAt_length _ _ _).trans hld
  have hline : ∀ n, ((s.l1Store c pa bytes asn vpn size).core c).line? n = if n = a / 128 then some l' else (s1.core c).line? n := fun n => by
    rw [hcore, Core.line?_putLine]; rw [hl']; simp only [hln]
  have hhome : ∀ x, (s.l1Store c pa bytes asn vpn size).homeSeen c x = s1.homeSeen c x := fun x =>
    State.homeSeen_congr (by rw [hdef]; rfl) (by rw [hcore]; unfold Core.putLine; split <;> rfl) x
  refine ⟨s1, a1, fun hroom => ⟨(a3 hroom).1, (a3 hroom).2.1, (a3 hroom).2.2.1, fun x => ?_⟩, by rw [hdef]; rfl, fun d hd => by rw [hdef, State.core_modCore, if_neg hd],
    ?_, by rw [hcore]; exact hok1.putLine hdl, fun x => ?_, fun x b h1 h2 h3 => ?_⟩
  · have hhome : ∀ x, s1.homeSeen c x = s.homeSeen c x := fun x =>
      State.homeSeen_congr (by rw [(a3 hroom).1]) (a3 hroom).2.2.1 x
    rcases a2 with ⟨-, h2⟩ | ⟨h0', l2, h1, h2, h3, h4⟩
    · rw [h2]
    · by_cases hx : x / 128 = a / 128
      · have : ∀ k, marked [false, false, false, false] k = false := fun k => by
          unfold marked
          rcases k with _ | _ | _ | _ | k <;> simp
        have e1 : s1.seen c x = s1.homeSeen c x := by
          unfold State.seen
          rw [hx, h1]
          simp only [h2, h3, this]
          rw [if_neg]; simp
        have e2 : s.seen c x = s.homeSeen c x := by
          unfold State.seen; rw [hx, h0']
        rw [e1, e2]; exact hhome x
      · exact State.seen_congr ((a3 hroom).2.2.2 _ hx) (hhome x)
  · rw [hcore]; unfold Core.putLine; split <;> rfl
  · by_cases hx : x / 128 = a / 128
    · have hm := hhome x
      unfold State.seen
      rw [hx, hline, if_pos rfl, hl, hm]
      simp only [hl']
      have hb := byteMask_get (a % 128) bytes.length (x % 128) (by omega)
      have hd : (l.dirty ||| byteMask (a % 128) bytes.length).getLsbD (x % 128) =
          (l.dirty.getLsbD (x % 128) || decide (a % 128 ≤ x % 128 ∧ x % 128 < a % 128 + bytes.length)) := by
        rw [BitVec.getLsbD_or, hb]
      rw [hd, headD_drop, setManyAt_get _ _ _ _ (by omega)]
      by_cases hin : a ≤ x ∧ x < a + bytes.length
      · have hin' : a % 128 ≤ x % 128 ∧ x % 128 < a % 128 + bytes.length := by omega
        rw [if_pos hin, if_pos hin']
        simp only [hin', and_self, decide_true, Bool.or_true, if_true]
        congr 2; omega
      · have hin' : ¬ (a % 128 ≤ x % 128 ∧ x % 128 < a % 128 + bytes.length) := by omega
        rw [if_neg hin, if_neg hin']
        simp only [hin', decide_false, Bool.or_false, headD_drop]
    · have hin : ¬ (a ≤ x ∧ x < a + bytes.length) := by omega
      rw [if_neg hin]
      exact State.seen_congr (by rw [hline, if_neg hx]) (hhome x)
  · have hx : x / 128 = a / 128 := by omega
    refine ⟨l', ?_, by rw [hl']; exact hln.trans hx.symm, ?_, ?_⟩
    · have := hline (a / 128)
      rw [if_pos rfl] at this
      exact (Core.line?_some this).1
    · rw [hl']
      show (l.dirty ||| byteMask (a % 128) bytes.length).getLsbD (x % 128) = true
      rw [BitVec.getLsbD_or, byteMask_get _ _ _ (by omega)]
      have : a % 128 ≤ x % 128 ∧ x % 128 < a % 128 + bytes.length := by omega
      simp [this]
    · rw [hl']
      show (setManyAt (a % 128) bytes l.data)[x % 128]? = _
      rw [setManyAt_get _ _ _ _ (by omega), if_pos (by omega), ← h3]
      congr 1; omega

/-- Bytes written into a present copy and to the home together: the core sees them, and elsewhere what it saw (R124). -/
theorem State.l1Through_spec (s : State) (c pa : Nat) (bytes : List Byte) (hok : (s.core c).linesOk)
    (hn : s.homeAddr pa % 128 + bytes.length ≤ 128) :
    s.l1Through c pa bytes = { s with cores := (s.l1Through c pa bytes).cores } ∧
    (∀ d, d ≠ c → (s.l1Through c pa bytes).core d = s.core d) ∧
    (s.l1Through c pa bytes).core c = { s.core c with l1 := ((s.l1Through c pa bytes).core c).l1 } ∧
    ((s.l1Through c pa bytes).core c).linesOk ∧
    (∀ x, ¬ (s.homeAddr pa ≤ x ∧ x < s.homeAddr pa + bytes.length) → (s.l1Through c pa bytes).seen c x = s.seen c x) ∧
    (∀ x, s.homeAddr pa ≤ x ∧ x < s.homeAddr pa + bytes.length →
      (s.l1Through c pa bytes).seen c x = bytes[x - s.homeAddr pa]?.getD 0#8 ∨
      (∀ l, ((s.l1Through c pa bytes).core c).line? (x / 128) = some l →
        marked l.valid (x % 128 / 32) = false ∧ l.dirty.getLsbD (x % 128) = false)) ∧
    (∀ x b, WasDirty (s.l1Through c pa bytes) c x b → WasDirty s c x b) := by
  obtain ⟨a, ha⟩ : ∃ a, a = s.homeAddr pa := ⟨_, rfl⟩
  rw [← ha] at hn ⊢
  have hdef : s.l1Through c pa bytes = s.modCore c fun k => match k.line? (a / 128) with
      | some l => k.putLine { l with data := setManyAt (a % 128) bytes l.data, dirty := l.dirty &&& ~~~(byteMask (a % 128) bytes.length) }
      | none => k := by
    unfold State.l1Through; simp only [lineNo]; rw [← ha] <;> rfl
  have hm : (s.l1Through c pa bytes).mem = s.mem := by rw [hdef]; rfl
  have hrest : s.l1Through c pa bytes = { s with cores := (s.l1Through c pa bytes).cores } := by rw [hdef]; rfl
  have hoth : ∀ d, d ≠ c → (s.l1Through c pa bytes).core d = s.core d := fun d hd => by rw [hdef, State.core_modCore, if_neg hd]
  cases hl : (s.core c).line? (a / 128) with
  | none =>
    have hcore : (s.l1Through c pa bytes).core c = s.core c := by rw [hdef, State.core_modCore, if_pos rfl]; simp only [hl]
    have hseen : ∀ x, (s.l1Through c pa bytes).seen c x = s.seen c x := fun x => State.seen_congr (by rw [hcore]) (State.homeSeen_congr hm (by rw [hcore]) x)
    refine ⟨hrest, hoth, by rw [hcore], by rw [hcore]; exact hok, fun x _ => hseen x, fun x hx => Or.inr fun l h => ?_, fun x b h => ?_⟩
    · rw [hcore, show x / 128 = a / 128 by omega, hl] at h; cases h
    · unfold WasDirty at h ⊢; rw [hcore] at h; exact h
  | some l =>
    obtain ⟨hlm, hln⟩ := Core.line?_some hl
    have hld := hok.2 l hlm
    obtain ⟨l', hl'⟩ : ∃ l', l' = { l with data := setManyAt (a % 128) bytes l.data, dirty := l.dirty &&& ~~~(byteMask (a % 128) bytes.length) } := ⟨_, rfl⟩
    have hcore : (s.l1Through c pa bytes).core c = (s.core c).putLine l' := by
      rw [hdef, State.core_modCore, if_pos rfl, hl']; simp only [hl]
    have hdl : l'.data.length = 128 := by rw [hl']; exact (setManyAt_length _ _ _).trans hld
    have hline : ∀ n, ((s.l1Through c pa bytes).core c).line? n = if n = a / 128 then some l' else (s.core c).line? n := fun n => by
      rw [hcore, Core.line?_putLine]; rw [hl']; simp only [hln]
    have hsent : ((s.l1Through c pa bytes).core c).sent = (s.core c).sent := by rw [hcore]; unfold Core.putLine; split <;> rfl
    have hdirty : ∀ i, i < 128 → l'.dirty.getLsbD i = (l.dirty.getLsbD i && !decide (a % 128 ≤ i ∧ i < a % 128 + bytes.length)) := by
      intro i hi
      rw [hl']
      show (l.dirty &&& ~~~(byteMask (a % 128) bytes.length)).getLsbD i = _
      rw [BitVec.getLsbD_and, BitVec.getLsbD_not, byteMask_get _ _ _ hi]; simp [hi]
    have hdata : ∀ i, l'.data[i]? = if a % 128 ≤ i ∧ i < a % 128 + bytes.length then bytes[i - a % 128]? else l.data[i]? := by
      intro i; rw [hl']; exact setManyAt_get _ _ _ _ (by omega)
    refine ⟨hrest, hoth, by rw [hcore]; unfold Core.putLine; split <;> rfl, by rw [hcore]; exact hok.putLine hdl, fun x hx => ?_, fun x hx => ?_, fun x b h => ?_⟩
    · by_cases hq : x / 128 = a / 128
      · unfold State.seen
        rw [hq, hline, if_pos rfl, hl, State.homeSeen_congr hm hsent]
        have hin : ¬ (a % 128 ≤ x % 128 ∧ x % 128 < a % 128 + bytes.length) := by omega
        simp only [hdirty _ (show x % 128 < 128 by omega), headD_drop, hdata, hin, if_false, decide_false, Bool.not_false, Bool.and_true]
        rw [hl']
      · exact State.seen_congr (by rw [hline, if_neg hq]) (State.homeSeen_congr hm hsent x)
    · have hq : x / 128 = a / 128 := by omega
      have hin : a % 128 ≤ x % 128 ∧ x % 128 < a % 128 + bytes.length := by omega
      by_cases hv : marked l.valid (x % 128 / 32) = true
      · left
        unfold State.seen
        rw [hq, hline, if_pos rfl]
        have : marked l'.valid (x % 128 / 32) = true := by rw [hl']; exact hv
        simp only [this, Bool.true_or, if_true, headD_drop, hdata, if_pos hin]
        congr 2; omega
      · right
        intro l2 h2
        rw [hq, hline, if_pos rfl] at h2
        obtain rfl := Option.some.inj h2
        exact ⟨by rw [hl']; simpa using hv, by rw [hdirty _ (by omega)]; simp [hin]⟩
    · obtain ⟨y, h1, h2, h3, h4⟩ := h
      rw [hcore] at h1
      rcases Core.mem_putLine h1 with rfl | ⟨h1, -⟩
      · have hlt : x % 128 < 128 := by omega
        rw [hdirty _ hlt, Bool.and_eq_true] at h3
        have hin : ¬ (a % 128 ≤ x % 128 ∧ x % 128 < a % 128 + bytes.length) := by
          have h5 := h3.2
          simp at h5
          omega
        rw [hdata, if_neg hin] at h4
        exact ⟨l, hlm, by rw [← h2, hl'], h3.1, h4⟩
      · exact ⟨y, h1, h2, h3, h4⟩

/-- What updates leave of a line: its number, its dirty and valid marks, and all of a line of a software-managed region
(R265). -/
structure Line.Updated (l x : Line) : Prop where
  number : x.n = l.n
  dirty : x.dirty = l.dirty
  valid : x.valid = l.valid
  coherent : x.h = l.h
  managed : l.h = false → x = l
  length : x.data.length = l.data.length

theorem Line.Updated.refl (l : Line) : l.Updated l := ⟨rfl, rfl, rfl, rfl, fun _ => rfl, rfl⟩

theorem Line.Updated.trans {l x y : Line} (h : l.Updated x) (g : x.Updated y) : l.Updated y :=
  ⟨g.number.trans h.number, g.dirty.trans h.dirty, g.valid.trans h.valid, g.coherent.trans h.coherent,
    fun e => (g.managed (h.coherent.trans e)).trans (h.managed e), g.length.trans h.length⟩

theorem Core.updated_spec (k : Core) (u : Update) (l : Line) : l.Updated (k.updated u l) := by
  unfold Core.updated
  split
  · rename_i h
    exact ⟨rfl, rfl, rfl, rfl, (by rw [h.1]; intro e; cases e), setManyAt_length _ _ _⟩
  · exact Line.Updated.refl l

/-- A sharer's turn with an update changes its lines of coherent regions and what it waits to be told of (R265). -/
theorem Core.apply_spec (k : Core) (c : Nat) (u : Update) :
    k.apply c u = { k with l1 := (k.apply c u).l1, sent := (k.apply c u).sent } ∧
    ∃ f : Line → Line, (∀ l, Line.Updated l (f l)) ∧ (k.apply c u).l1 = k.l1.map f := by
  refine ⟨by unfold Core.apply; dsimp only; split <;> rfl, ?_⟩
  by_cases h : u.writer = some c
  · exact ⟨({ k with sent := tellSent (lineNo u.pa) k.sent } : Core).updated u, Core.updated_spec _ u, by unfold Core.apply; simp only [h, if_true]⟩
  · exact ⟨k.updated u, Core.updated_spec k u, by unfold Core.apply; simp only [h, if_false]⟩

theorem Core.applies_spec (c : Nat) (us : List Update) (k : Core) :
    us.foldl (fun k u => k.apply c u) k = { k with
      l1 := (us.foldl (fun k u => k.apply c u) k).l1, sent := (us.foldl (fun k u => k.apply c u) k).sent } ∧
    ∃ f : Line → Line, (∀ l, Line.Updated l (f l)) ∧ (us.foldl (fun k u => k.apply c u) k).l1 = k.l1.map f := by
  induction us generalizing k with
  | nil => exact ⟨rfl, id, Line.Updated.refl, by simp⟩
  | cons u us ih =>
    obtain ⟨h1, f, hf, h2⟩ := k.apply_spec c u
    obtain ⟨g1, g, hg, g2⟩ := ih (k.apply c u)
    refine ⟨?_, g ∘ f, fun l => (hf l).trans (hg (f l)), ?_⟩
    · rw [List.foldl_cons, g1, h1]
    · rw [List.foldl_cons, g2, h2, List.map_map]

theorem find_map {ls : List Line} (f : Line → Line) (hf : ∀ l, (f l).n = l.n) (n : Nat) :
    (ls.map f).find? (fun x => x.n == n) = (ls.find? fun x => x.n == n).map f := by
  induction ls with
  | nil => rfl
  | cons x ls ih =>
    simp only [List.map_cons]
    by_cases e : x.n = n
    · simp [hf, e]
    · rw [List.find?_cons_of_neg (by simp [hf, e]), List.find?_cons_of_neg (by simpa using e), ih]

/-- The updates that wait for a core arrive (R265): its lines of coherent regions change, and what it is told of its own
writes, and nothing else. -/
theorem State.drain_spec (s : State) (c : Nat) :
    s.drain c = { s with cores := (s.drain c).cores } ∧ (∀ d, d ≠ c → (s.drain c).core d = s.core d) ∧
    (s.drain c).core c = { s.core c with l1 := ((s.drain c).core c).l1, sent := ((s.drain c).core c).sent, updates := [] } ∧
    (∀ n l, (s.core c).line? n = some l → ∃ x, ((s.drain c).core c).line? n = some x ∧ l.Updated x) ∧
    (∀ n, (s.core c).line? n = none → ((s.drain c).core c).line? n = none) ∧
    ((s.core c).linesOk → ((s.drain c).core c).linesOk) := by
  unfold State.drain
  split
  · rename_i h
    have h : (s.core c).updates = [] := List.isEmpty_iff.1 h
    exact ⟨rfl, fun _ _ => rfl, by rw [← h], fun n l h => ⟨l, h, Line.Updated.refl l⟩, fun _ => id, id⟩
  · obtain ⟨h1, f, hf, h2⟩ := Core.applies_spec c (s.core c).updates (s.core c)
    have hline : ∀ n, ((s.modCore c fun k => { k.updates.foldl (fun k u => k.apply c u) k with updates := [] }).core c).line? n =
        ((s.core c).line? n).map f := fun n => by
      rw [State.core_modCore, if_pos rfl]
      show List.find? _ ((s.core c).updates.foldl (fun k u => k.apply c u) (s.core c)).l1 = _
      rw [h2]; exact find_map f (fun l => (hf l).number) n
    refine ⟨rfl, fun d hd => by rw [State.core_modCore, if_neg hd], ?_, fun n l h => ⟨f l, by rw [hline, h]; rfl, hf l⟩,
      fun n h => by rw [hline, h]; rfl, fun h => ?_⟩
    · rw [State.core_modCore, if_pos rfl]; rw [h1]
    · rw [State.core_modCore, if_pos rfl]
      refine ⟨?_, fun l hl => ?_⟩
      · show (((s.core c).updates.foldl (fun k u => k.apply c u) (s.core c)).l1.map Line.n).Nodup
        rw [h2, List.map_map, show (Line.n ∘ f) = Line.n from funext fun l => (hf l).number]; exact h.1
      · have hl : l ∈ ((s.core c).updates.foldl (fun k u => k.apply c u) (s.core c)).l1 := hl
        rw [h2] at hl
        obtain ⟨x, hx, rfl⟩ := List.mem_map.1 hl
        exact (hf x).length.trans (h.2 x hx)

end Sys2Proof.Machine
end

