-- ==== Sys2Proof/Tests/Slice0.lean ====
section
/-! SUPPORT. Tests: ill-formed instructions that the check refuses, results written out from the spec's examples, the
word of each constructor as the spec's encodings give it, and for each statement with hypotheses a state that meets
them. -/

open Sys2Proof Sys2Proof.Machine

namespace Sys2Proof.Tests

noncomputable section

-- One theorem after another: each that is elaborated beside others takes a thread with a stack of its own.
set_option Elab.async false

/-- An entry of an access table that grants everything to everyone (R309). -/
def openEntry : AccessEntry := { w0 := 0xF#64, w1 := 0x3FFFFFFF80000000#64 }

/-- A boot thread of core 0 with 64 registers, in supervisor mode: its addresses are physical (R360). -/
def worker : Thread := { life := .running, blocks := 8, boot := true, tctl := 0x40#32, svec := 0x4000#64 }

/-- Give registers their values. -/
def withG (th : Thread) (l : List (Nat × Word)) : Thread :=
  { th with regs := l.foldl (fun r p => r.set! p.1 { val := p.2 }) th.regs }

/-- A package in which one thread is in execution, at 0x1000; die 0's slices and block grant everything. -/
def duty (th : Thread) : State :=
  { State.reset with
    agenda := [], t := th, access := [(0, openEntry), (8192, openEntry)], fr := { first := 0x1000#64, next := 0x1004#64 } }

/-- Some state of the outcome has the property. -/
def holdsAfter (o : Host.Outcome State Fault Refusal) (p : State → Bool) : Bool :=
  match o with
  | .next t => p t
  | _ => false

/-- A general register after an instruction. -/
def gAfter (i : Instr) (th : Thread) (r : Nat) : Word :=
  match exec i (duty th) with
  | .next t => (t.t.regs[r]!).val
  | _ => 0#32

/-- `fctl` after an instruction. -/
def fctlAfter (i : Instr) (th : Thread) : Word :=
  match exec i (duty th) with
  | .next t => t.t.fctl
  | _ => 0#32

/-! The checks of an encoding (R68, R74, R77, R79, R118, R127, R129, R141): an ill-formed term for each. -/

/-- R68: an odd pair, a quad that is no multiple of 4, a pair in the field of `lih`, a span beyond g63. -/
theorem smoke_classes : ∀ i ∈ [Instr.addD 5 6 8, .addD 4 7 8, .addD 4 6 9, .dfma 4 6 8 11, .join 5, .st64 5 6 .global 0,
    .ld128 2 6 .global 0, .st128 6 8 .global 0, .lih 5 1, .ldm 60 8 4, .stm 60 8 4], i.wellFormed = false := by decide +kernel
/-- R118, R141: a literal of `callx` that is no multiple of 4, and numbers that are no special register's. -/
theorem smoke_numbers : ∀ i ∈ [Instr.callx 6, .sget 4 0x0E, .sget 4 0x19F, .sset 4 0x15, .sset 4 0x400],
    i.wellFormed = false := by decide +kernel
/-- R129, R134: an order that a load, a wait or a store does not take. -/
theorem smoke_orders : ∀ i ∈ [Instr.waiteqW 4 5 .die .release, .waitneD 4 6 .die .acqRel, .ld32Ord 4 6 .die .release,
    .ld8sOrd 4 6 .core .acqRel, .st32Ord 4 6 .die .acquire, .st128Ord 4 8 .die .acqRel], i.wellFormed = false := by decide +kernel
/-- R127: an `ldm` that would load over its own base. -/
theorem smoke_ldm_base : (Instr.ldm 4 6 3).wellFormed = false ∧ (Instr.ldm 8 6 3).wellFormed = true := by decide +kernel
/-- R120, R206 to R210, R174, R213, R238: fields that name a hint, a ring handle, a queue register, an accumulator. -/
theorem smoke_handles : ∀ i ∈ [Instr.pf 2 6 0, .rbind 8 4, .rwf 9 4, .rwe 8 4, .radvp 8 4, .radvc 8 4, .raddr 4 8 5,
    .rbytes 4 8 5, .qbind 4 5, .tcopy 4 5 8, .scopy 4 5 62, .tfill 4 5 8, .mxCfg 4 5, .mxZero 4, .mxLd 4 5, .mxSt 4 5 6,
    .mxMerge 4 5 6, .mmaF64 4 5 6, .mmaE2m1 63 5 6], i.wellFormed = false := by decide +kernel
/-- R77, R79: a B field without a random operand, and a packed conversion with stochastic rounding. -/
theorem smoke_rounding : ∀ i ∈ [Instr.frnd 4 5 6 .rne, .drnd 4 6 8 .dyn, .cvtF32E4m3 4 5 6 .rtz true, .cvtI64F32 4 6 7 .rne false,
    .cvtpE4m3 4 5 6 .rs false false, .cvtpBf16 4 5 6 .rs true], i.wellFormed = false := by decide +kernel

/-! Results whose values the spec's worked examples give. -/

/-- R94: `mulh` and `mulhn` of 0xFFFFFFFF by itself. -/
theorem test_mulh :
    let th := withG worker [(5, 0xFFFFFFFF#32), (6, 0xFFFFFFFF#32)]
    gAfter (.mulh 4 5 6) th 4 = 0#32 ∧ gAfter (.mulhn 4 5 6) th 4 = 0xFFFFFFFE#32 := by decide +kernel
/-- R97: the examples of `bfx`, with and without the sign extension, and of `bfi`. -/
theorem test_bit_fields :
    gAfter (.bfx 5 6 7) (withG worker [(6, 0xDEADBEEF#32), (7, 0x00010C08#32)]) 5 = 0xFFFFFDBE#32 ∧
    gAfter (.bfx 5 6 7) (withG worker [(6, 0xDEADBEEF#32), (7, 0x00000C08#32)]) 5 = 0x00000DBE#32 ∧
    gAfter (.bfi 5 6 7) (withG worker [(5, 0x11111111#32), (6, 0xABC#32), (7, 0x804#32)]) 5 = 0x11111BC1#32 := by
  decide +kernel
/-- R95: a division by 0, and the one that overflows. -/
theorem test_div :
    gAfter (.div 4 5 6) (withG worker [(5, 7#32)]) 4 = 0xFFFFFFFF#32 ∧
    fctlAfter (.div 4 5 6) (withG worker [(5, 7#32)]) = 8#32 ∧
    gAfter (.rem 4 5 6) (withG worker [(5, 7#32)]) 4 = 7#32 ∧
    gAfter (.div 4 5 6) (withG worker [(5, 0x80000000#32), (6, 0xFFFFFFFF#32)]) 4 = 0x80000000#32 := by decide +kernel
/-- R104: 1.0 + 2^-24 under rne and under rup. -/
theorem test_fadd :
    let th := withG worker [(6, 0x3F800000#32), (7, 0x33800000#32)]
    gAfter (.fadd 5 6 7) th 5 = 0x3F800000#32 ∧ fctlAfter (.fadd 5 6 7) th = 1#32 ∧
    gAfter (.fadd 5 6 7) { th with fctl := 0x200#32 } 5 = 0x3F800001#32 := by decide +kernel
/-- R105: the examples of `fmin`. -/
theorem test_fmin :
    gAfter (.fmin 4 5 6) (withG worker [(6, 0x80000000#32)]) 4 = 0x80000000#32 ∧
    gAfter (.fmin 4 5 6) (withG worker [(5, 0x7FC00000#32), (6, 0x40400000#32)]) 4 = 0x40400000#32 ∧
    gAfter (.fmin 4 5 6) (withG worker [(5, 0x7F800001#32), (6, 0x40400000#32)]) 4 = 0x40400000#32 ∧
    fctlAfter (.fmin 4 5 6) (withG worker [(5, 0x7F800001#32), (6, 0x40400000#32)]) = 0x10#32 := by decide +kernel
/-- R110: the lanes of `p2mul.h`. -/
theorem test_p2mul :
    let th := withG worker [(6, 0x5BFF3C00#32), (7, 0x5BFF3C00#32)]
    gAfter (.p2mulH 5 6 7) th 5 = 0x7BFE3C00#32 ∧ fctlAfter (.p2mulH 5 6 7) th = 1#32 := by decide +kernel
/-- R51: the first step of the generator in the trace of file 07. -/
theorem test_rng : gAfter (.rng 4) worker 4 = 0x40AEC71F#32 := by decide +kernel
/-- R161: rows 0, 2, 5, 10 and 13 of the results of file 07: rne, `.sat` and stochastic rounding to e4m3. -/
theorem test_cvt_e4m3 : ([(0x43960000#32, 0x40AEC71F#32, 0x79#32, 0x79#32, 0x79#32),
    (0x43E80000#32, 0xA2188C32#32, 0x7E#32, 0x7E#32, 0x7F#32), (0x47700000#32, 0xDBD53EDE#32, 0x7F#32, 0x7E#32, 0x7F#32),
    (0xC47A0000#32, 0xB7BAFDBC#32, 0xFF#32, 0xFE#32, 0xFF#32), (0x7F800001#32, 0x8EAE858B#32, 0x7F#32, 0x7F#32, 0x7F#32)].all fun p =>
    let th := withG worker [(5, p.1), (6, p.2.1)]
    gAfter (.cvtE4m3F32 4 5 0 .rne false) th 4 == p.2.2.1 && gAfter (.cvtE4m3F32 4 5 0 .rne true) th 4 == p.2.2.2.1 &&
    gAfter (.cvtE4m3F32 4 5 6 .rs false) th 4 == p.2.2.2.2) = true := by decide +kernel
/-- R161: rows 0, 5, 7 and 15: the same to e5m2. -/
theorem test_cvt_e5m2 : ([(0x43960000#32, 0x40AEC71F#32, 0x5D#32, 0x5D#32, 0x5C#32),
    (0x47700000#32, 0xDBD53EDE#32, 0x7C#32, 0x7B#32, 0x7C#32), (0x3F880000#32, 0xF9BEC92D#32, 0x3C#32, 0x3C#32, 0x3D#32),
    (0xC3700000#32, 0x6E26CC2A#32, 0xDC#32, 0xDC#32, 0xDB#32)].all fun p =>
    let th := withG worker [(5, p.1), (6, p.2.1)]
    gAfter (.cvtE5m2F32 4 5 0 .rne false) th 4 == p.2.2.1 && gAfter (.cvtE5m2F32 4 5 0 .rne true) th 4 == p.2.2.2.1 &&
    gAfter (.cvtE5m2F32 4 5 6 .rs false) th 4 == p.2.2.2.2) = true := by decide +kernel
/-- R235: 1.0 and three times 2^-24 over four ranks, plain and compensated. -/
theorem test_group_sums :
    RedOp.addF32.reduce [some 0x3F800000, some 0x33800000, some 0x33800000, some 0x33800000] = 0x3F800001 ∧
    RedOp.caddF32.reduce [some 0x3F800000, some 0x33800000, some 0x33800000, some 0x33800000] = 0xB38000003F800002 := by
  decide +kernel
/-- R17: three leaves, of which the fourth is absent. -/
theorem test_absent_leaf : RedOp.addF32.reduce [some 0x3F800000, some 0x33800000, some 0x33800000] = 0x3F800000 := by
  decide +kernel
/-- R12, R145, R149: what `trap` saves, and where it goes. -/
theorem test_trap : holdsAfter (exec (.trap 0x123) (duty worker)) fun t =>
    t.t.tcause == 7#32 && t.t.tepc == 0x1000#64 && t.t.tval == 0x123#64 && t.t.pc == 0x4000#64 && t.t.tr && t.t.pmode := by
  decide +kernel
/-- R7, R121: a word stored little-endian, as its core then loads its bytes. -/
theorem test_store_load :
    let s := duty (withG worker [(4, 0x11223384#32), (6, 0x2000#32), (7, 0#32)])
    holdsAfter (exec (.st32 4 6 .global 1) s) fun t =>
      holdsAfter (exec (.ld8s 8 6 .global 4) t) fun u => (u.t.regs[8]!).val == 0xFFFFFF84#32 &&
        holdsAfter (exec (.ld16z 9 6 .global 3) u) fun v => (v.t.regs[9]!).val == 0x1122#32 := by decide +kernel
/-- R124, R132: the word stored stays in the L1, and a release at the die's scope brings it home. -/
theorem test_fence :
    let s := duty (withG worker [(4, 0xAB#32), (6, 0x2000#32)])
    holdsAfter (exec (.st8 4 6 .global 0) s) fun t => cellRead t.mem 0x2000 == 0#8 &&
      holdsAfter (exec (.fence .die .release) t) fun u => cellRead u.mem 0x2000 == 0xAB#8 := by decide +kernel
/-- R63, R27, R49: the bundle `sset fctl, g9 || fadd g5, g6, g7` of file 04, fetched and executed by one step. -/
theorem test_step_pair :
    let s := (State.reset.withFetchWord 32 0x0900480A).putRom 0x100000004 0x480A30E0#32
    holdsAfter (step { s with t := withG s.t [(6, 0x3F800000#32), (7, 0x33800000#32), (9, 0x200#32)] }) fun t =>
      match t.thread? 0 with
      | some th => (th.regs[5]!).val == 0x3F800000#32 && th.fctl == 0x201#32 && th.pc == 0x100000008#64
      | none => false := by decide +kernel
/-- R357: the first step after reset is the package's own start, and the islands follow in order. -/
theorem test_reset : holdsAfter (step State.reset) fun t =>
    decide (t.agenda.length = 512) && decide (t.agenda.head? = some (.islandResetRelease 0)) := by decide +kernel

/-! Decoding: words written out from the encodings of file 03, with every field at a value of its own. -/

/-- R132, R235, R190, R382, R80, R97, R104: words that the spec writes out with its rules. -/
theorem test_decode_examples : ∀ p ∈ [(0x9B800014#32, Instr.fence .system .sc), (0x9B80000E#32, .fence .die .release),
    (0xB08828C2#32, .gbc 4 5 6), (0xB10E2800#32, .gredAddF32 7 5), (0xB1083002#32, .gredCaddF32 4 6),
    (0x85140010#32, .spawn 10 0x10), (0xB3884000#32, .collRedAddF32 4 8), (0xB3884002#32, .collRedCaddF32 4 8),
    (0xB388400E#32, .collBc 4 8), (0xC00A30F8#32, .bfx 5 6 7), (0xC80A30E0#32, .fadd 5 6 7)],
    decodeWord p.1 = some p.2 := by decide +kernel
/-- R67, R101, R102, R118: the LONG forms; a literal of `callx` that is no multiple of 4 is none. -/
theorem test_decode_long :
    decodeLong 0x05880000#32 0x12345678#32 = some (.li 4 0x12345678#32) ∧
    decodeLong 0x06100000#32 0xFFFFFFFF#32 = some (.lih 8 0xFFFFFFFF#32) ∧
    decodeLong 0x06800000#32 0x1000#32 = some (.callx 0x1000#32) ∧
    decodeLong 0x06800000#32 0x1002#32 = none ∧ decodeLong 0x06120000#32 0#32 = none := by decide +kernel

/-- R70, R117 to R119, R190: branches, jumps and spawn: words written out from their encodings. -/
def wordsBranch : List (Word × Instr) :=
    [(0x807FFFFD#32, .bra 0x7ffffd), (0x80FFFFFD#32, .call 0x7ffffd), (0x8119FFFD#32, .bz 12 0x1fffd),
     (0x8199FFFD#32, .bnz 12 0x1fffd), (0x8218A7FD#32, .beq 12 20 0x7fd), (0x8298A7FD#32, .bne 12 20 0x7fd),
     (0x8318A7FD#32, .blt 12 20 0x7fd), (0x8398A7FD#32, .bge 12 20 0x7fd), (0x8418A7FD#32, .blo 12 20 0x7fd),
     (0x8498A7FD#32, .bhs 12 20 0x7fd), (0x8519FFFD#32, .spawn 12 0x1fffd), (0x87006000#32, .callr 12),
     (0x87000001#32, .ret), (0x87006002#32, .jr 12)]
theorem test_decode_branch : ∀ p ∈ wordsBranch, decodeWord p.1 = some p.2 := by decide +kernel

/-- R71, R136 to R142, R191 to R197: thread control, trap and special registers: words written out from their encodings. -/
def wordsThread : List (Word × Instr) :=
    [(0x87800000#32, .exit), (0x87800001#32, .pause), (0x87800002#32, .tdone), (0x87806003#32, .join 12),
     (0x87806004#32, .tkill 12), (0x87806005#32, .tresume 12), (0x8801FFFD#32, .trap 0x1fffd),
     (0x8890000C#32, .sget 8 0xc), (0x8900600C#32, .sset 12 0xc)]
theorem test_decode_thread : ∀ p ∈ wordsThread, decodeWord p.1 = some p.2 := by decide +kernel

/-- R71, R139, R140, R298 to R306, R268 to R270: OP 0x13: words written out from their encodings. -/
def wordsSystem : List (Word × Instr) :=
    [(0x89800000#32, .brk), (0x89800001#32, .tret), (0x89800002#32, .fenceI), (0x89806003#32, .tlbi 12),
     (0x89806004#32, .tlbiAsn 12), (0x89800005#32, .tlbiAll), (0x89806006#32, .chime 12),
     (0x89806287#32, .l2pin 12 20), (0x89806288#32, .l2unpin 12 20), (0x89806289#32, .rgnSet 12 20),
     (0x8980600A#32, .rgnAcq 12), (0x8980600B#32, .rgnRel 12)]
theorem test_decode_system : ∀ p ∈ wordsSystem, decodeWord p.1 = some p.2 := by decide +kernel

/-- R134: waits: words written out from their encodings. -/
def wordsWait : List (Word × Instr) :=
    [(0x8A00628D#32, .waiteqW 12 20 .die .acquire), (0x8A80628D#32, .waitneW 12 20 .die .acquire),
     (0x8B00628D#32, .waiteqD 12 20 .die .acquire), (0x8B80628D#32, .waitneD 12 20 .die .acquire)]
theorem test_decode_wait : ∀ p ∈ wordsWait, decodeWord p.1 = some p.2 := by decide +kernel

/-- R120 to R129: loads, stores, prefetch and multiple transfers: words written out from their encodings. -/
def wordsAccess : List (Word × Instr) :=
    [(0x901065FD#32, .ld8s 8 12 .interleave 0x1fd), (0x909065FD#32, .ld8z 8 12 .interleave 0x1fd),
     (0x911065FD#32, .ld16s 8 12 .interleave 0x1fd), (0x919065FD#32, .ld16z 8 12 .interleave 0x1fd),
     (0x921065FD#32, .ld32 8 12 .interleave 0x1fd), (0x929065FD#32, .ld64 8 12 .interleave 0x1fd),
     (0x931065FD#32, .ld128 8 12 .interleave 0x1fd), (0x938261FD#32, .pf 1 12 0x1fd),
     (0x941065FD#32, .st8 8 12 .interleave 0x1fd), (0x949065FD#32, .st16 8 12 .interleave 0x1fd),
     (0x951065FD#32, .st32 8 12 .interleave 0x1fd), (0x959065FD#32, .st64 8 12 .interleave 0x1fd),
     (0x961065FD#32, .st128 8 12 .interleave 0x1fd), (0x96906002#32, .ldm 8 12 0x2), (0x97106002#32, .stm 8 12 0x2)]
theorem test_decode_access : ∀ p ∈ wordsAccess, decodeWord p.1 = some p.2 := by decide +kernel

/-- R120, R132: ordered accesses and fence: words written out from their encodings. -/
def wordsOrdered : List (Word × Instr) :=
    [(0x9810600D#32, .ld8sOrd 8 12 .die .acquire), (0x9890600D#32, .ld8zOrd 8 12 .die .acquire),
     (0x9910600D#32, .ld16sOrd 8 12 .die .acquire), (0x9990600D#32, .ld16zOrd 8 12 .die .acquire),
     (0x9A10600D#32, .ld32Ord 8 12 .die .acquire), (0x9A90600D#32, .ld64Ord 8 12 .die .acquire),
     (0x9B10600D#32, .ld128Ord 8 12 .die .acquire), (0x9B80000E#32, .fence .die .release),
     (0x9C10600E#32, .st8Ord 8 12 .die .release), (0x9C90600E#32, .st16Ord 8 12 .die .release),
     (0x9D10600E#32, .st32Ord 8 12 .die .release), (0x9D90600E#32, .st64Ord 8 12 .die .release),
     (0x9E10600E#32, .st128Ord 8 12 .die .release)]
theorem test_decode_ordered : ∀ p ∈ wordsOrdered, decodeWord p.1 = some p.2 := by decide +kernel

/-- R72, R130: atomics: words written out from their encodings. -/
def wordsAtomic : List (Word × Instr) :=
    [(0xA010628F#32, .amoAddW 8 12 20 .die .acqRel), (0xA090628F#32, .amoAddD 8 12 20 .die .acqRel),
     (0xA110628F#32, .amoAndW 8 12 20 .die .acqRel), (0xA190628F#32, .amoAndD 8 12 20 .die .acqRel),
     (0xA210628F#32, .amoOrW 8 12 20 .die .acqRel), (0xA290628F#32, .amoOrD 8 12 20 .die .acqRel),
     (0xA310628F#32, .amoXorW 8 12 20 .die .acqRel), (0xA390628F#32, .amoXorD 8 12 20 .die .acqRel),
     (0xA410628F#32, .amoMinW 8 12 20 .die .acqRel), (0xA490628F#32, .amoMinD 8 12 20 .die .acqRel),
     (0xA510628F#32, .amoMaxW 8 12 20 .die .acqRel), (0xA590628F#32, .amoMaxD 8 12 20 .die .acqRel),
     (0xA610628F#32, .amoMinnW 8 12 20 .die .acqRel), (0xA690628F#32, .amoMinnD 8 12 20 .die .acqRel),
     (0xA710628F#32, .amoMaxnW 8 12 20 .die .acqRel), (0xA790628F#32, .amoMaxnD 8 12 20 .die .acqRel)] ++
    [(0xA810628F#32, .amoSwpW 8 12 20 .die .acqRel), (0xA890628F#32, .amoSwpD 8 12 20 .die .acqRel),
     (0xA910628F#32, .amoCasW 8 12 20 .die .acqRel), (0xA990628F#32, .amoCasD 8 12 20 .die .acqRel),
     (0xAA10628F#32, .amoFaddW 8 12 20 .die .acqRel), (0xAA90628F#32, .amoFaddD 8 12 20 .die .acqRel),
     (0xAB10628F#32, .amoFminW 8 12 20 .die .acqRel), (0xAB90628F#32, .amoFminD 8 12 20 .die .acqRel),
     (0xAC10628F#32, .amoFmaxW 8 12 20 .die .acqRel), (0xAC90628F#32, .amoFmaxD 8 12 20 .die .acqRel)]
theorem test_decode_atomic : ∀ p ∈ wordsAtomic, decodeWord p.1 = some p.2 := by decide +kernel

/-- R275: sync cells: words written out from their encodings. -/
def wordsSyncCell : List (Word × Instr) :=
    [(0xAE10600C#32, .srel 8 12 .die), (0xAE90600C#32, .sacq 8 12 .die), (0xAF10628C#32, .sadd 8 12 20 .die),
     (0xAF90628C#32, .scas 8 12 20 .die)]
theorem test_decode_syncCell : ∀ p ∈ wordsSyncCell, decodeWord p.1 = some p.2 := by decide +kernel

/-- R174, R207 to R210: rings and bindings: words written out from their encodings. -/
def wordsRing : List (Word × Instr) :=
    [(0xB0066000#32, .rbind 3 12), (0xB0066001#32, .rwf 3 12), (0xB0066002#32, .rwe 3 12),
     (0xB0066003#32, .radvp 3 12), (0xB0066004#32, .radvc 3 12), (0xB0122A85#32, .raddr 9 5 20),
     (0xB0122A86#32, .rbytes 9 5 20), (0xB0066007#32, .qbind 3 12)]
theorem test_decode_ring : ∀ p ∈ wordsRing, decodeWord p.1 = some p.2 := by decide +kernel

/-- R73, R230 to R235: groups: words written out from their encodings. -/
def wordsGroup : List (Word × Instr) :=
    [(0xB0906280#32, .conv 8 12 20), (0xB0800001#32, .gbar), (0xB0906282#32, .gbc 8 12 20),
     (0xB0906283#32, .gbcD 8 12 20), (0xB0800004#32, .gdis), (0xB1106000#32, .gredAddF32 8 12),
     (0xB1106001#32, .gredAddF64 8 12), (0xB1106002#32, .gredCaddF32 8 12), (0xB1106003#32, .gredAddI32 8 12),
     (0xB1106004#32, .gredAddI64 8 12), (0xB1106005#32, .gredMaxF32 8 12), (0xB1106006#32, .gredMinF32 8 12),
     (0xB1106007#32, .gredMaxF64 8 12), (0xB1106008#32, .gredMinF64 8 12), (0xB1106009#32, .gredMaxI32 8 12),
     (0xB110600A#32, .gredMinI32 8 12)] ++
    [(0xB110600B#32, .gredAnd 8 12), (0xB110600C#32, .gredOr 8 12), (0xB110600D#32, .gredXor 8 12)]
theorem test_decode_group : ∀ p ∈ wordsGroup, decodeWord p.1 = some p.2 := by decide +kernel

/-- R214, R222, R223: engine jobs: words written out from their encodings. -/
def wordsEngine : List (Word × Instr) :=
    [(0xB19060C0#32, .tcopy 8 12 6), (0xB19060C1#32, .scopy 8 12 6), (0xB19060C2#32, .tfill 8 12 6),
     (0xB1806003#32, .ewait 12), (0xB1906004#32, .eprog 8 12)]
theorem test_decode_engine : ∀ p ∈ wordsEngine, decodeWord p.1 = some p.2 := by decide +kernel

/-- R239 to R247: the matrix engine: words written out from their encodings. -/
def wordsMatrix : List (Word × Instr) :=
    [(0xB2066000#32, .mxCfg 3 12), (0xB2060001#32, .mxZero 3), (0xB2066002#32, .mxLd 3 12),
     (0xB2066283#32, .mxSt 3 12 20), (0xB2066284#32, .mxMerge 3 12 20), (0xB2866280#32, .mmaF64 3 12 20),
     (0xB2866281#32, .mmaF32 3 12 20), (0xB2866282#32, .mmaBf16 3 12 20), (0xB2866283#32, .mmaF16 3 12 20),
     (0xB2866284#32, .mmaE4m3 3 12 20), (0xB2866285#32, .mmaE5m2 3 12 20), (0xB2866286#32, .mmaMx8 3 12 20),
     (0xB2866287#32, .mmaE2m1 3 12 20)]
theorem test_decode_matrix : ∀ p ∈ wordsMatrix, decodeWord p.1 = some p.2 := by decide +kernel

/-- R335, R344 to R346, R382: launch, mesh and collectives: words written out from their encodings. -/
def wordsMesh : List (Word × Instr) :=
    [(0xB3106000#32, .launch 8 12), (0xB3006281#32, .nsend 12 20), (0xB3106002#32, .nrecv 8 12),
     (0xB3006283#32, .nmcast 12 20), (0xB3906000#32, .collRedAddF32 8 12), (0xB3906001#32, .collRedAddF64 8 12),
     (0xB3906002#32, .collRedCaddF32 8 12), (0xB3906003#32, .collRedAddI32 8 12),
     (0xB3906004#32, .collRedAddI64 8 12), (0xB3906005#32, .collRedMaxF32 8 12),
     (0xB3906006#32, .collRedMinF32 8 12), (0xB3906007#32, .collRedMaxF64 8 12),
     (0xB3906008#32, .collRedMinF64 8 12), (0xB3906009#32, .collRedMaxI32 8 12),
     (0xB390600A#32, .collRedMinI32 8 12), (0xB390600B#32, .collRedAnd 8 12)] ++
    [(0xB390600C#32, .collRedOr 8 12), (0xB390600D#32, .collRedXor 8 12), (0xB390600E#32, .collBc 8 12),
     (0xB390600F#32, .collAg 8 12)]
theorem test_decode_mesh : ∀ p ∈ wordsMesh, decodeWord p.1 = some p.2 := by decide +kernel

/-- R75, R94 to R98: OP 0x00 of class A: words written out from their encodings. -/
def wordsInteger : List (Word × Instr) :=
    [(0xC0106280#32, .add 8 12 20), (0xC0106281#32, .sub 8 12 20), (0xC0106282#32, .mul 8 12 20),
     (0xC0106283#32, .mulh 8 12 20), (0xC0106284#32, .mulhn 8 12 20), (0xC0106285#32, .div 8 12 20),
     (0xC0106286#32, .divn 8 12 20), (0xC0106287#32, .rem 8 12 20), (0xC0106288#32, .remn 8 12 20),
     (0xC0106289#32, .min 8 12 20), (0xC010628A#32, .max 8 12 20), (0xC010628B#32, .minn 8 12 20),
     (0xC010628C#32, .maxn 8 12 20), (0xC010600D#32, .abs 8 12), (0xC010628E#32, .and 8 12 20),
     (0xC010628F#32, .or 8 12 20)] ++
    [(0xC0106290#32, .xor 8 12 20), (0xC0106291#32, .shl 8 12 20), (0xC0106292#32, .shr 8 12 20),
     (0xC0106293#32, .sar 8 12 20), (0xC0106014#32, .clz 8 12), (0xC0106015#32, .ctz 8 12),
     (0xC0106016#32, .popc 8 12), (0xC0106017#32, .brev 8 12), (0xC0106298#32, .bfx 8 12 20),
     (0xC0106299#32, .bfi 8 12 20), (0xC010629A#32, .slt 8 12 20), (0xC010629B#32, .sltn 8 12 20),
     (0xC010629C#32, .seq 8 12 20), (0xC010629D#32, .sne 8 12 20), (0xC010001E#32, .rng 8)]
theorem test_decode_integer : ∀ p ∈ wordsInteger, decodeWord p.1 = some p.2 := by decide +kernel

/-- R99: OP 0x01 of class A: words written out from their encodings. -/
def wordsPair : List (Word × Instr) :=
    [(0xC0906280#32, .addD 8 12 20), (0xC0906281#32, .subD 8 12 20), (0xC0906282#32, .mulD 8 12 20),
     (0xC0906283#32, .shlD 8 12 20), (0xC0906284#32, .shrD 8 12 20), (0xC0906285#32, .sarD 8 12 20),
     (0xC0906286#32, .andD 8 12 20), (0xC0906287#32, .orD 8 12 20), (0xC0906288#32, .xorD 8 12 20),
     (0xC0906289#32, .minD 8 12 20), (0xC090628A#32, .maxD 8 12 20), (0xC090628B#32, .minnD 8 12 20),
     (0xC090628C#32, .maxnD 8 12 20), (0xC090628D#32, .sltD 8 12 20), (0xC090628E#32, .sltnD 8 12 20),
     (0xC090628F#32, .seqD 8 12 20)]
theorem test_decode_pair : ∀ p ∈ wordsPair, decodeWord p.1 = some p.2 := by decide +kernel

/-- R100, R101: the immediate forms: words written out from their encodings. -/
def wordsImmediate : List (Word × Instr) :=
    [(0xC11067FD#32, .addi 8 12 0x7fd), (0xC19067FD#32, .andi 8 12 0x7fd), (0xC21067FD#32, .ori 8 12 0x7fd),
     (0xC29067FD#32, .xori 8 12 0x7fd), (0xC31067FD#32, .slti 8 12 0x7fd), (0xC390601D#32, .shli 8 12 0x1d),
     (0xC410601D#32, .shri 8 12 0x1d), (0xC490601D#32, .sari 8 12 0x1d), (0xC511FFFD#32, .lui 8 0x1fffd)]
theorem test_decode_immediate : ∀ p ∈ wordsImmediate, decodeWord p.1 = some p.2 := by decide +kernel

/-- R76, R103 to R109: the f32 forms: words written out from their encodings. -/
def wordsFloat32 : List (Word × Instr) :=
    [(0xC8106280#32, .fadd 8 12 20), (0xC8106281#32, .fsub 8 12 20), (0xC8106282#32, .fmul 8 12 20),
     (0xC8106283#32, .fdiv 8 12 20), (0xC8106004#32, .fsqrt 8 12), (0xC8106285#32, .fmin 8 12 20),
     (0xC8106286#32, .fmax 8 12 20), (0xC8106007#32, .fabs 8 12), (0xC8106008#32, .fneg 8 12),
     (0xC8106289#32, .feq 8 12 20), (0xC810628A#32, .flt 8 12 20), (0xC810628B#32, .fle 8 12 20),
     (0xC810628C#32, .funOrd 8 12 20), (0xC810600D#32, .fclass 8 12), (0xC8906290#32, .frnd 8 12 20 .rs)]
theorem test_decode_float32 : ∀ p ∈ wordsFloat32, decodeWord p.1 = some p.2 := by decide +kernel

/-- R76, R103 to R109: the f64 forms: words written out from their encodings. -/
def wordsFloat64 : List (Word × Instr) :=
    [(0xC9106280#32, .dadd 8 12 20), (0xC9106281#32, .dsub 8 12 20), (0xC9106282#32, .dmul 8 12 20),
     (0xC9106283#32, .ddiv 8 12 20), (0xC9106004#32, .dsqrt 8 12), (0xC9106285#32, .dmin 8 12 20),
     (0xC9106286#32, .dmax 8 12 20), (0xC9106007#32, .dabs 8 12), (0xC9106008#32, .dneg 8 12),
     (0xC9106289#32, .deq 8 12 20), (0xC910628A#32, .dlt 8 12 20), (0xC910628B#32, .dle 8 12 20),
     (0xC910628C#32, .dunOrd 8 12 20), (0xC910600D#32, .dclass 8 12), (0xC9906290#32, .drnd 8 12 20 .rs)]
theorem test_decode_float64 : ∀ p ∈ wordsFloat64, decodeWord p.1 = some p.2 := by decide +kernel

/-- R110: the packed forms: words written out from their encodings. -/
def wordsPacked : List (Word × Instr) :=
    [(0xCA106280#32, .p2addH 8 12 20), (0xCA106281#32, .p2subH 8 12 20), (0xCA106282#32, .p2mulH 8 12 20),
     (0xCA106283#32, .p2fmaH 8 12 20), (0xCA106284#32, .p2minH 8 12 20), (0xCA106285#32, .p2maxH 8 12 20),
     (0xCA106288#32, .p2addB 8 12 20), (0xCA106289#32, .p2subB 8 12 20), (0xCA10628A#32, .p2mulB 8 12 20),
     (0xCA10628B#32, .p2fmaB 8 12 20), (0xCA10628C#32, .p2minB 8 12 20), (0xCA10628D#32, .p2maxB 8 12 20)]
theorem test_decode_packed : ∀ p ∈ wordsPacked, decodeWord p.1 = some p.2 := by decide +kernel

/-- R77, R78, R113: conversions: words written out from their encodings. -/
def wordsConvertF64 : List (Word × Instr) :=
    [(0xD0106292#32, .cvtF64F32 8 12 20 .rs true), (0xD0906292#32, .cvtF64F16 8 12 20 .rs true),
     (0xD1106292#32, .cvtF64Bf16 8 12 20 .rs true), (0xD1906292#32, .cvtF64E4m3 8 12 20 .rs true),
     (0xD2106292#32, .cvtF64E5m2 8 12 20 .rs true), (0xD2906292#32, .cvtF64I32 8 12 20 .rs true),
     (0xD3106292#32, .cvtF64N32 8 12 20 .rs true), (0xD3906292#32, .cvtF64I64 8 12 20 .rs true),
     (0xD4106292#32, .cvtF64N64 8 12 20 .rs true)]
theorem test_decode_convertF64 : ∀ p ∈ wordsConvertF64, decodeWord p.1 = some p.2 := by decide +kernel

/-- R77, R78, R113: conversions: words written out from their encodings. -/
def wordsConvertF32 : List (Word × Instr) :=
    [(0xD4906292#32, .cvtF32F64 8 12 20 .rs true), (0xD5106292#32, .cvtF32F16 8 12 20 .rs true),
     (0xD5906292#32, .cvtF32Bf16 8 12 20 .rs true), (0xD6106292#32, .cvtF32E4m3 8 12 20 .rs true),
     (0xD6906292#32, .cvtF32E5m2 8 12 20 .rs true), (0xD7106292#32, .cvtF32E2m1 8 12 20 .rs true),
     (0xD7906292#32, .cvtF32E8m0 8 12 20 .rs true), (0xD8106292#32, .cvtF32E3m5 8 12 20 .rs true),
     (0xD8906292#32, .cvtF32I32 8 12 20 .rs true), (0xD9106292#32, .cvtF32N32 8 12 20 .rs true),
     (0xD9906292#32, .cvtF32I64 8 12 20 .rs true), (0xDA106292#32, .cvtF32N64 8 12 20 .rs true)]
theorem test_decode_convertF32 : ∀ p ∈ wordsConvertF32, decodeWord p.1 = some p.2 := by decide +kernel

/-- R77, R78, R113: conversions: words written out from their encodings. -/
def wordsConvertOther : List (Word × Instr) :=
    [(0xDA906292#32, .cvtF16F64 8 12 20 .rs true), (0xDB106292#32, .cvtF16F32 8 12 20 .rs true),
     (0xDB906292#32, .cvtF16Bf16 8 12 20 .rs true), (0xDC106292#32, .cvtF16E4m3 8 12 20 .rs true),
     (0xDC906292#32, .cvtF16E5m2 8 12 20 .rs true), (0xDD106292#32, .cvtBf16F64 8 12 20 .rs true),
     (0xDD906292#32, .cvtBf16F32 8 12 20 .rs true), (0xDE106292#32, .cvtBf16F16 8 12 20 .rs true),
     (0xDE906292#32, .cvtBf16E4m3 8 12 20 .rs true), (0xDF106292#32, .cvtBf16E5m2 8 12 20 .rs true),
     (0xDF906292#32, .cvtE4m3F64 8 12 20 .rs true), (0xE0106292#32, .cvtE4m3F32 8 12 20 .rs true),
     (0xE0906292#32, .cvtE4m3F16 8 12 20 .rs true), (0xE1106292#32, .cvtE4m3Bf16 8 12 20 .rs true),
     (0xE1906292#32, .cvtE4m3E5m2 8 12 20 .rs true), (0xE2106292#32, .cvtE5m2F64 8 12 20 .rs true)] ++
    [(0xE2906292#32, .cvtE5m2F32 8 12 20 .rs true), (0xE3106292#32, .cvtE5m2F16 8 12 20 .rs true),
     (0xE3906292#32, .cvtE5m2Bf16 8 12 20 .rs true), (0xE4106292#32, .cvtE5m2E4m3 8 12 20 .rs true),
     (0xE4906292#32, .cvtE2m1F64 8 12 20 .rs true), (0xE5106292#32, .cvtE2m1F32 8 12 20 .rs true),
     (0xE5906292#32, .cvtE2m1F16 8 12 20 .rs true), (0xE6106292#32, .cvtE2m1Bf16 8 12 20 .rs true),
     (0xE6906292#32, .cvtE8m0F32 8 12 20 .rs true), (0xE7106292#32, .cvtE3m5F32 8 12 20 .rs true),
     (0xE7906292#32, .cvtI32F64 8 12 20 .rs true), (0xE8106292#32, .cvtI32F32 8 12 20 .rs true),
     (0xE890601E#32, .cvtI32I64 8 12 true), (0xE9106292#32, .cvtN32F64 8 12 20 .rs true),
     (0xE9906292#32, .cvtN32F32 8 12 20 .rs true), (0xEA10601E#32, .cvtN32N64 8 12 true)] ++
    [(0xEA906292#32, .cvtI64F64 8 12 20 .rs true), (0xEB106292#32, .cvtI64F32 8 12 20 .rs true),
     (0xEB90601E#32, .cvtI64I32 8 12 true), (0xEC106292#32, .cvtN64F64 8 12 20 .rs true),
     (0xEC906292#32, .cvtN64F32 8 12 20 .rs true), (0xED10601E#32, .cvtN64N32 8 12 true),
     (0xED90601E#32, .cvtI8I32 8 12 true), (0xEE10601E#32, .cvtN8I32 8 12 true),
     (0xEE90601E#32, .cvtI16I32 8 12 true), (0xEF10601E#32, .cvtN16I32 8 12 true)]
theorem test_decode_convertOther : ∀ p ∈ wordsConvertOther, decodeWord p.1 = some p.2 := by decide +kernel

/-- R79, R115: packed conversions: words written out from their encodings. -/
def wordsConvertPacked : List (Word × Instr) :=
    [(0xF810628F#32, .cvtpE4m3 8 12 20 .rdn true true), (0xF890628F#32, .cvtpE5m2 8 12 20 .rdn true true),
     (0xF910628F#32, .cvtpE2m1Low 8 12 20 .rdn true true), (0xF990628F#32, .cvtpE2m1High 8 12 20 .rdn true true),
     (0xFA10628E#32, .cvtpF16 8 12 20 .rdn true), (0xFA90628E#32, .cvtpBf16 8 12 20 .rdn true)]
theorem test_decode_convertPacked : ∀ p ∈ wordsConvertPacked, decodeWord p.1 = some p.2 := by decide +kernel

/-- R80, R111, R112: the four-operand forms: words written out from their encodings. -/
def wordsFused : List (Word × Instr) :=
    [(0xFC20C522#32, .ffma 8 12 20 34), (0xFD20C522#32, .dfma 8 12 20 34), (0xFE20C522#32, .imad 8 12 20 34),
     (0xFF20C522#32, .sel 8 12 20 34)]
theorem test_decode_fused : ∀ p ∈ wordsFused, decodeWord p.1 = some p.2 := by decide +kernel

/-! Witnesses: for each statement with hypotheses, a state and operands that meet them together. Where a statement
covers several instructions of one shape, one state meets the hypotheses of them all. -/

/-- A word with the operands of a shape has its own effect, as a test. -/
def readyB (s : State) (sh : Shape) : Bool :=
  s.t.life == .running && sh.classOk &&
    (sourcesOf sh ++ opRegs sh.dst ++ opRegs sh.dsrc).all (fun r => s.src.isQueue r || decide (r < 8 * s.t.blocks)) &&
    (sourcesOf sh ++ opRegs sh.dst).all (fun r => !s.src.isQueue r || match s.src.queueOf r with
      | some q => (aget q (s.core s.t.core).queues).isSome
      | none => false) &&
    decide (s.t.qb = s.src.qb) && (opRegs sh.dsrc).all (fun r => !s.src.isQueue r) &&
    (match sh.dst with
      | .span _ _ => (opRegs sh.dst).all fun r => !s.src.isQueue r
      | _ => true) &&
    (!sh.sup || s.t.mode) && !s.endsQuantum sh &&
    (s.src.pops sh ++ s.src.pushes sh).all (fun q =>
      decide ((s.src.pops sh).count q ≤ (s.entries s.t.core q).length) &&
      decide ((s.entries s.t.core q).length + (s.src.pushes sh).count q ≤ 16 + (s.src.pops sh).count q)) &&
    (s.readings sh).all fun x => !x.pois

/-- The test is right. -/
theorem ready_of (s : State) (sh : Shape) (h : readyB s sh = true) : Ready s sh := by
  simp only [readyB, Bool.and_eq_true, List.all_eq_true, Bool.or_eq_true, decide_eq_true_eq, beq_iff_eq,
    Bool.not_eq_true', List.mem_append] at h
  obtain ⟨⟨⟨⟨⟨⟨⟨⟨⟨⟨h1, h2⟩, h3⟩, h4⟩, h5⟩, h6⟩, h7⟩, h8⟩, h9⟩, h10⟩, h11⟩ := h
  refine ⟨h1, h2, ?_, ?_, fun _ => h5, h6, ?_, ?_, h9, ?_, h11⟩
  · intro r hr; exact h3 r (by simpa only [List.mem_append] using hr)
  · intro r hr hq
    have := h4 r (by simpa only [List.mem_append] using hr)
    rw [hq] at this
    rcases hs : s.src.queueOf r with _ | q
    · simp [hs] at this
    · exact ⟨q, rfl, by simpa [hs] using this⟩
  · intro r n e q hq
    rw [e] at h7 hq
    simp only [List.all_eq_true, Bool.not_eq_true'] at h7
    exact h7 q hq
  · intro hs; simpa [hs] using h8
  · intro q hq; exact h10 q (by simpa only [List.mem_append] using hq)

/-- Every instruction of a list has its own effect. -/
theorem ready_all (s : State) (l : List Instr) (h : (l.all fun i => readyB s i.shape) = true) :
    ∀ i ∈ l, Ready s i.shape := fun i hi => ready_of s _ (List.all_eq_true.1 h i hi)

/-- An access reaches memory, as a test. -/
def reachB (s : State) (va : DWord) (n : Nat) (k : AccKind) (pa : Nat) : Bool :=
  (match s.memCheck va n k with
    | .ok p _ => p == pa
    | .stop _ => false) && s.atMemory pa k && !dbit s.asb 0

/-- The test is right. -/
theorem reaches_of (s : State) (va : DWord) (n : Nat) (k : AccKind) (pa : Nat) (h : reachB s va n k pa = true) :
    s.reaches va n k pa := by
  simp only [reachB, Bool.and_eq_true, Bool.not_eq_true'] at h
  refine ⟨?_, h.1.2, fun g => by rw [h.2] at g; cases g⟩
  rcases hm : s.memCheck va n k with ⟨p, s'⟩ | s'
  · simp only [hm, beq_iff_eq] at h
    exact ⟨s', by rw [h.1.1]⟩
  · simp [hm] at h

/-- Where die 0 grants everything, the walker reads all of its memory (R293, R310). -/
theorem walkerReads_open (s : State) (h : (0, openEntry) ∈ s.access) (pa : Nat) (hp : pa < 0x1800000000) : s.walkerReads pa = true := by
  have hl : s.place pa = .device pa := if_pos (Nat.lt_trans hp (by decide))
  have hd : homeDie pa = 0 := Nat.div_eq_of_lt hp
  simp only [State.walkerReads, State.agentGranted, State.targetOf, hl, hd, Place.isMemory, Bool.true_and, State.tableGrants,
    List.any_eq_true]
  refine ⟨_, h, ?_⟩
  have hb : bits openEntry.w1 30 0 = 0 ∧ bits openEntry.w1 61 31 = 0x7FFFFFFF := by decide +kernel
  have hm : openEntry.w0.extractLsb' 24 20 = 0#20 := by decide +kernel
  have hw : dbit openEntry.w0 0 = true ∧ openEntry.bit .read = true := by decide +kernel
  have hu : pa / 2097152 ≤ 0x7FFFFFFF := by omega
  simp [AccessEntry.covers, hb, hm, hw, hu]

/-- So no read of the tables at 512 KiB and at 1 MiB is refused. -/
theorem walkerFree_open (s : State) (h : (0, openEntry) ∈ s.access) (ha : s.asb = 0x80001#64) (hp : s.ptb = 0x10030A#64) :
    s.walkerFree := by
  refine fun _ => ⟨fun asn => walkerReads_open s h _ ?_, fun n hn => walkerReads_open s h _ ?_⟩
  · have h1 : bits s.asb 51 19 = 1 := by rw [ha]; decide +kernel
    have h2 := asn.isLt
    simp only [State.asEntryPa, h1]
    omega
  · have h1 : s.logB = 10 := by rw [State.logB, hp]; decide +kernel
    have h2 : s.ptBase = 0x100000 := by rw [State.ptBase, h1, hp]; decide +kernel
    rw [h1] at hn
    simp only [h2]
    omega

/-- Without an address-space table nothing is read. -/
theorem walkerFree_none (s : State) (h : dbit s.asb 0 = false) : s.walkerFree := fun g => by rw [h] at g; cases g

/-- A worker with the queue map on, whose q0 and q1 are bound to the queues 5 and 7 of its core, with three entries
and none. -/
def mapped : State :=
  { duty { worker with tctl := 0x43#32, qb := (worker.qb.set! 0 (some 5#6)).set! 1 (some 7#6) } with
    cores := [(0, { queues := [(5, { lid := 0#32, logical := 0#6, entries := [{ val := 1#32 }, { val := 2#32 }, { val := 3#32 }] }),
      (7, { lid := 0#32, logical := 1#6 })] })] }

/-- The forms of R94, and of R95 to R98 and R112, on registers of the class that each takes. -/
def integerForms (d a b c : RegNo) : List Instr :=
  [.add d a b, .sub d a b, .mul d a b, .mulh d a b, .mulhn d a b, .min d a b, .max d a b, .minn d a b, .maxn d a b, .abs d a,
   .and d a b, .or d a b, .xor d a b, .clz d a, .ctz d a, .popc d a, .brev d a, .slt d a b, .sltn d a b, .seq d a b,
   .sne d a b, .div d a b, .rem d a b, .divn d a b, .remn d a b, .shl d a b, .shr d a b, .sar d a b, .shli d a 31,
   .shri d a 0, .sari d a 31, .bfx d a b, .imad d a b c, .sel d a b c, .addi d a 0x7FF, .andi d a 1, .ori d a 0x400, .xori d a 2,
   .slti d a 0x7FF, .lui d 0x1FFFF, .li d 0xFFFFFFFF, .rng d]

/-- IntegerResults, DivisionResults, ShiftResults, BitFieldResults, ImmediateAndRandomResults: general registers, the
register that reads 0, and queue registers. -/
theorem witness_integer : (∀ i ∈ integerForms 4 5 6 7, Ready (duty worker) i.shape) ∧
    (∀ i ∈ integerForms 0 0 0 0, Ready (duty worker) i.shape) ∧ (∀ i ∈ integerForms 61 60 60 60, Ready mapped i.shape) ∧
    Ready (duty worker) (Instr.bfi 63 0 5).shape ∧ Ready (duty worker) (Instr.lih 0 7).shape ∧
    Ready (duty worker) (Instr.lih 62 7).shape :=
  ⟨ready_all _ _ (by decide +kernel), ready_all _ _ (by decide +kernel), ready_all _ _ (by decide +kernel),
    ready_of _ _ (by decide +kernel), ready_of _ _ (by decide +kernel), ready_of _ _ (by decide +kernel)⟩

/-- PairResults and DoubleResults, SignAndClassResults and CompareResults of w operands. -/
theorem witness_pairs : ∀ i ∈ [Instr.addD 0 0 62, .subD 4 6 8, .mulD 4 6 8, .andD 4 6 8, .orD 4 6 8, .xorD 4 6 8, .minD 4 6 8,
    .maxD 4 6 8, .minnD 4 6 8, .maxnD 4 6 8, .shlD 4 6 7, .shrD 4 6 7, .sarD 4 6 7, .sltD 5 6 8, .sltnD 5 6 8, .seqD 5 6 8,
    .dadd 4 6 8, .dsub 4 6 8, .dmul 4 6 8, .ddiv 4 6 8, .dsqrt 4 6, .dmin 4 6 8, .dmax 4 6 8, .dfma 4 6 8 10, .drnd 4 6 7 .rs,
    .drnd 4 6 0 .dyn, .dabs 4 6, .dneg 4 6, .dclass 5 6, .deq 5 6 8, .dlt 5 6 8, .dle 5 6 8, .dunOrd 5 6 8],
    Ready (duty worker) i.shape := ready_all _ _ (by decide +kernel)

/-- FloatResults, PackedResults, and SignAndClassResults and CompareResults of g operands; the modes other than rs. -/
theorem witness_floats : (∀ i ∈ [Instr.fadd 4 5 6, .fsub 4 5 6, .fmul 4 5 6, .fdiv 4 5 6, .fsqrt 4 5, .fmin 4 5 6, .fmax 4 5 6,
    .ffma 4 5 6 7, .frnd 4 5 0 .rtz, .frnd 4 5 6 .rs, .fabs 4 5, .fneg 4 5, .fclass 4 5, .feq 4 5 6, .flt 4 5 6, .fle 4 5 6,
    .funOrd 4 5 6, .p2addH 4 5 6, .p2addB 4 5 6, .p2subH 4 5 6, .p2subB 4 5 6, .p2mulH 4 5 6, .p2mulB 4 5 6, .p2fmaH 4 5 6,
    .p2fmaB 4 5 6, .p2minH 4 5 6, .p2minB 4 5 6, .p2maxH 4 5 6, .p2maxB 4 5 6, .cvtpE4m3 4 5 6 .rne true true,
    .cvtpE5m2 4 5 6 .rne false false, .cvtpE2m1Low 4 5 6 .rup false true, .cvtpE2m1High 4 5 6 .dyn false false,
    .cvtpF16 4 5 6 .rdn false, .cvtpBf16 4 5 6 .rtz true], Ready (duty worker) i.shape) ∧ RmField.rne ≠ .rs :=
  ⟨ready_all _ _ (by decide +kernel), by decide⟩

/-- RoundingAndSpecialOperands: NaNs of both kinds, infinities, and a finite number over 0, in f32. -/
theorem witness_RoundingAndSpecialOperands :
    valueOf .f32 0x7FC00000 = .nan false ∧ valueOf .f32 0x7F800001 = .nan true ∧ valueOf .f32 0xFF800000 = .inf true ∧
    (∃ n e, valueOf .f32 0x3F800000 = .fin false n e ∧ n ≠ 0) ∧ (∃ k, valueOf .f32 0x80000000 = .fin true 0 k) ∧
    (∀ rm ∈ [Rm.rne, .rs], ∃ v f, roundFin .f32 rm false 1 3 7 = some (v, f)) ∧ (1 : Nat) < 3 ∧
    (let e : Int := -2; ¬ 0 ≤ e ∧ 3 ≤ 1 * 2 ^ (-e).toNat ∧ 1 * 2 ^ (-e).toNat < 2 * 3) ∧
    (∃ n d, valueOf .e4m3 0x38 = .fin false n d) ∧ valueOf .e5m2 0x7C = .inf false := by
  refine ⟨by decide +kernel, by decide +kernel, by decide +kernel, ⟨_, _, rfl, by decide⟩, ⟨_, rfl⟩, ?_, by decide,
    by decide, ⟨_, _, rfl⟩, by decide +kernel⟩
  intro rm h
  simp only [List.mem_cons, List.not_mem_nil, or_false] at h
  rcases h with rfl | rfl <;> exact ⟨_, _, rfl⟩

/-- ConversionResults: the widths of source and destination, and the conversions between integer types. -/
theorem witness_ConversionResults : (∀ i ∈ [Instr.cvtF64F32 4 5 0 .dyn true, .cvtE4m3F32 4 5 6 .rs false, .cvtF32F64 5 6 0 .rup false,
    .cvtN64F64 4 6 7 .rs true, .cvtI32F32 4 5 0 .rdn true, .cvtF32E2m1 4 5 0 .rne false, .cvtE8m0F32 4 5 0 .rtz false,
    .cvtI32I64 5 6 true, .cvtN32N64 5 6 false, .cvtI64I32 4 5 true, .cvtN64N32 4 5 false, .cvtI8I32 4 5 true, .cvtN8I32 4 5 false,
    .cvtI16I32 4 5 true, .cvtN16I32 4 5 false], Ready (duty worker) i.shape) ∧
    (∃ t u, tyI8 = .int t ∧ tyI32 = .int u) :=
  ⟨ready_all _ _ (by decide +kernel), ⟨_, _, rfl, rfl⟩⟩

/-- OperandReads: the map off, and on with two queues. -/
theorem witness_OperandReads : (duty worker).src.qm = false ∧ (duty worker).fr.latch = none ∧ mapped.src.qm = true ∧
    mapped.src.queueOf 60 = some 5 ∧ mapped.src.queueOf 61 = some 7 ∧ (5 : Nat) ≠ 7 ∧
    mapped.entries 0 5 = [{ val := 1#32 }, { val := 2#32 }, { val := 3#32 }] ∧ mapped.entries 0 7 = [] ∧
    Ready mapped (Instr.add 4 60 60).shape :=
  ⟨by decide +kernel, by decide +kernel, by decide +kernel, by decide +kernel, by decide +kernel, by decide, by decide +kernel,
    by decide +kernel, ready_of _ _ (by decide +kernel)⟩

/-- OperandChecks: a register beyond an allocation of 8, a queue register that is not bound, a queue register in a D
field that is read, numbers of no special register, and the supervisor's forms in user mode. -/
theorem witness_OperandChecks :
    (let s := duty { worker with blocks := 1 }
     s.t.tr = false ∧ s.t.kept = none ∧ ∀ i ∈ [Instr.add 8 4 5, .addD 4 8 2, .bfi 8 4 5, .fadd 4 5 63, .imad 4 5 6 8, .beq 4 8 0,
       .ld32 4 8 .global 0, .st64 8 4 .global 0, .join 8, .tkill 63, .qbind 0 8],
       ∃ r ∈ sourcesOf i.shape ++ opRegs i.shape.dst ++ opRegs i.shape.dsrc, s.src.isQueue r = false ∧ 8 * s.t.blocks ≤ r) ∧
    (mapped.t.tr = false ∧ mapped.t.kept = none ∧ (∃ r ∈ sourcesOf (Instr.add 4 62 5).shape ++ opRegs (Instr.add 4 62 5).shape.dst,
        mapped.src.isQueue r = true ∧ mapped.src.queueOf r = none) ∧
      ∃ r ∈ opRegs (Instr.bfi 60 4 5).shape.dsrc, mapped.src.isQueue r = true) ∧
    (∀ n ∈ [14, 15, 21, 23, 26, 2047], BitVec.toNat (n : BitVec 11) ∉
      [0, 1, 2, 3, 4, 5, 6, 7, 8, 9, 10, 11, 12, 13, 16, 17, 18, 19, 20, 24, 25]) ∧
    (let s := duty { worker with tctl := 0#32 }
     s.t.mode = false ∧ s.t.tr = false ∧ ∀ i ∈ [Instr.tlbi 4, .tlbiAsn 5, .tlbiAll, .chime 4, .l2pin 4 5, .l2unpin 4 5,
       .rgnSet 4 5, .nsend 4 5, .nrecv 4 5, .nmcast 4 5, .sget 4 0x18, .sget 4 0x19, .sset 4 0x0D, .sset 4 0x18, .sset 4 0x19],
       i.shape.classOk = true ∧ s.namesOk i.shape = true) := by decide +kernel

/-- QueueAndPoisonChecks: a word that pops an empty queue, one that pushes a full one, and one whose second operand is
poisoned. -/
theorem witness_QueueAndPoisonChecks :
    (let i := Instr.add 4 60 61
     let sh := mapped.liveShape i
     mapped.t.kept = none ∧ i.wellFormed = true ∧ mapped.namesOk i.shape = true ∧ mapped.endsQuantum i.shape = false ∧
     mapped.fr.pair = false ∧ mapped.src.pops sh ++ mapped.src.pushes sh = [5] ++ 7 :: [] ∧
     ¬ (mapped.entries 0 5).length < (mapped.src.pops sh).count 5 ∧ (mapped.entries 0 7).length < (mapped.src.pops sh).count 7) ∧
    (let s := { mapped with cores := [(0, { queues := [(5, { lid := 0#32, logical := 0#6, entries := List.replicate 16 {} })] })] }
     let sh := s.liveShape (Instr.li 60 7)
     s.namesOk (Instr.li 60 7).shape = true ∧ s.src.pops sh ++ s.src.pushes sh = [] ++ 5 :: [] ∧
     16 + (s.src.pops sh).count 5 < (s.entries s.t.core 5).length + (s.src.pushes sh).count 5) ∧
    (let s := duty { worker with regs := worker.regs.set! 6 { val := 9#32, pois := true } }
     let i := Instr.add 4 5 6
     let sh := s.liveShape i
     s.t.tr = false ∧ s.t.mode = true ∧ s.t.kept = none ∧ i.wellFormed = true ∧ s.namesOk i.shape = true ∧
     s.endsQuantum i.shape = false ∧
     (sourcesOf sh ++ opRegs sh.dsrc ++ sh.extraR.map BitVec.toNat).zip (s.readings sh) =
       [(5, { val := 0#32 })] ++ (6, { val := 9#32, pois := true }) :: []) := by
  decide +kernel

/-- QueueAndPoisonChecks: a pair whose C word pops q0, which has entries, and whose A word pops q1, which has none. -/
theorem witness_pair_queues :
    let c := Instr.add 5 60 0
    let a := Instr.bz 61 2
    let wc := (encodeWords 0#1 c).headD 0#32
    let wa := (encodeWords 0#1 a).headD 0#32
    let s := mapped.frame 8 wc true false
    decodeWord wc = some c ∧ decodeWord wa = some a ∧ s.pairIllegal c a = false ∧
    (∀ i ∈ [c, a], s.namesOk i.shape = true ∧ (i.shape.sup = true → mapped.t.mode = true)) ∧
    s.endsQuantum (s.liveShape c) = false ∧ s.endsQuantum a.shape = false ∧
    (let pops := s.src.pops (s.liveShape c) ++ s.src.pops a.shape
     pops ++ (s.src.pushes (s.liveShape c) ++ s.src.pushes a.shape) = [5] ++ 7 :: [] ∧ pops.count 5 ≤ (s.entries 0 5).length ∧
     (s.entries 0 7).length < pops.count 7) := by
  decide +kernel

/-- TrapsAndReturns: a trap outside a handler and one in a handler, `brk` with and without debug, and the returns. -/
theorem witness_TrapsAndReturns :
    (let s := duty worker
     s.t.tr = false ∧ ¬ (0x0B ≤ 1 ∧ 1 ≤ 0x10 ∧ s.t.mode = false ∧ s.t.tvec ≠ 0#64) ∧ Ready s (Instr.trap 5).shape ∧
     Ready s Instr.brk.shape ∧ s.launch? s.t.lid = none ∧ Ready s Instr.tret.shape) ∧
    (let s := { duty worker with launches := [(0, { pkt := { flags := 0x10#16 } })] }
     Ready s Instr.brk.shape ∧ (∃ l, s.launch? s.t.lid = some l ∧ l.pkt.flags.getLsbD 4 = true) ∧ s.t.stepMark = false) ∧
    (let s := duty { worker with tctl := 0x140#32, tepc := 0x2000#64 }
     s.t.tr = true ∧ s.t.life ≠ .exited ∧ Ready s Instr.tret.shape ∧ GoodTarget false s.fr.first s.t.tepc) ∧
    (let s := duty { worker with tctl := 0x140#32, tepc := 2#64 }
     Ready s Instr.tret.shape ∧ s.t.tr = true ∧ ¬ GoodTarget false s.fr.first s.t.tepc) := by
  unfold GoodTarget
  exact ⟨⟨by decide +kernel, by decide, ready_of _ _ (by decide +kernel), ready_of _ _ (by decide +kernel), by decide +kernel,
      ready_of _ _ (by decide +kernel)⟩,
    ⟨ready_of _ _ (by decide +kernel), ⟨_, rfl, by decide⟩, by decide +kernel⟩,
    ⟨by decide +kernel, by decide +kernel, ready_of _ _ (by decide +kernel), by decide +kernel⟩,
    ⟨ready_of _ _ (by decide +kernel), by decide +kernel, by decide +kernel⟩⟩

/-- BranchResults: each condition once true and once false, with a target in the code window. -/
theorem witness_BranchResults :
    let s := duty (withG worker [(5, 1#32)])
    (∀ i ∈ [Instr.bz 4 2, .bz 5 2, .bnz 4 2, .bnz 5 2, .beq 4 4 2, .beq 4 5 2, .bne 4 4 2, .bne 4 5 2, .blt 4 5 2, .blt 5 4 2,
      .bge 4 5 2, .bge 5 4 2, .blo 4 5 2, .blo 5 4 2, .bhs 4 5 2, .bhs 5 4 2, .pause], Ready s i.shape) ∧
    s.gA (Instr.bz 4 2).shape = 0#32 ∧ s.gA (Instr.bnz 5 2).shape = 1#32 ∧
    GoodTarget true s.fr.first (s.fr.first + BitVec.ofInt 64 (4 * (2 : BitVec 17).toInt)) :=
  ⟨ready_all _ _ (by decide +kernel), by decide +kernel, by decide +kernel, by unfold GoodTarget; decide +kernel⟩

/-- JumpResults: targets that pass the checks of R116, one outside the code window, one that is not aligned, and one
that is not canonical. -/
theorem witness_JumpResults :
    let s := duty (withG worker [(1, 0x3000#32), (4, 0x2000#32), (6, 0x2002#32), (9, 0x02000000#32), (11, 1#32)])
    s.t.tr = false ∧
    (∀ i ∈ [Instr.bra 4, .call 4, .callx 0x100, .callr 4, .jr 4, .ret, .jr 6, .callr 6, .jr 8, .callr 10], Ready s i.shape) ∧
    GoodTarget true s.fr.first (s.fr.first + BitVec.ofInt 64 (4 * (4 : BitVec 23).toInt)) ∧
    GoodTarget true s.fr.first (s.fr.first + BitVec.ofInt 64 (0x100 : Word).toInt) ∧
    GoodTarget true s.fr.first (s.wA (Instr.callr 4).shape) ∧ GoodTarget false s.fr.first (s.wA (Instr.jr 4).shape) ∧
    GoodTarget true s.fr.first (s.fr.first.extractLsb' 32 32 ++ (s.src.regs[1]!).val) ∧
    (let target := s.fr.first + BitVec.ofInt 64 (4 * (0x7FF800 : BitVec 23).toInt)
     target.toNat % 4 = 0 ∧ ¬ GoodTarget true s.fr.first target) ∧
    (s.wA (Instr.jr 6).shape).toNat % 4 ≠ 0 ∧
    ((s.wA (Instr.jr 8).shape).toNat % 4 = 0 ∧ ¬ GoodTarget false s.fr.first (s.wA (Instr.jr 8).shape)) ∧
    ((s.wA (Instr.callr 10).shape).toNat % 4 = 0 ∧ ¬ GoodTarget true s.fr.first (s.wA (Instr.callr 10).shape)) := by
  unfold GoodTarget
  exact ⟨by decide +kernel, ready_all _ _ (by decide +kernel), by decide +kernel⟩

/-- JumpResults: conditional branches that are taken to a target outside the code window. -/
theorem witness_branch_targets :
    let s := { duty (withG worker [(5, 1#32)]) with fr := { first := 0x800#64, next := 0x804#64 } }
    s.t.tr = false ∧
    (∀ i ∈ [Instr.bz 4 0x10000, .bnz 5 0x10000, .beq 4 4 0x400, .bne 4 5 0x400, .blt 4 5 0x400, .bge 5 4 0x400, .blo 4 5 0x400,
      .bhs 5 4 0x400], Ready s i.shape) ∧
    s.gA (Instr.bz 4 0x10000).shape = 0#32 ∧ s.gA (Instr.bnz 5 0x10000).shape = 1#32 ∧
    ∀ k ∈ [(0x10000 : BitVec 17).toInt, (0x400 : BitVec 11).toInt],
      let target := s.fr.first + BitVec.ofInt 64 (4 * k)
      target.toNat % 4 = 0 ∧ ¬ GoodTarget true s.fr.first target := by
  unfold GoodTarget
  exact ⟨by decide +kernel, ready_all _ _ (by decide +kernel), by decide +kernel⟩

/-- SpecialRegisters: every number, read and written in supervisor mode, both kinds of a write to `fctl`, and the boot
map's first entry. -/
theorem witness_SpecialRegisters :
    let s := duty (withG worker [(5, 0x400#32)])
    s.t.core < 4096 ∧ s.t.tr = false ∧
    (∀ n ∈ [0, 1, 2, 3, 4, 5, 6, 7, 10, 11, 12, 16, 19, 8, 9, 13, 17, 18, 20, 24, 25],
      Ready s (Instr.sget 4 (BitVec.ofNat 11 n)).shape ∧ Ready s (Instr.sset 4 (BitVec.ofNat 11 n)).shape) ∧
    (s.gA (Instr.sset 4 0x0A).shape).getLsbD 10 = false ∧ Ready s (Instr.sset 5 0x0A).shape ∧
    (s.gA (Instr.sset 5 0x0A).shape).getLsbD 10 = true ∧
    leNat (cellReadN s.mem (bits s.bmap 51 14 * 16384 + 0x1000 + 2 * 0) 2) = s.t.core / 8 := by
  refine ⟨by decide, by decide +kernel, ?_, by decide +kernel, ready_of _ _ (by decide +kernel), by decide +kernel, by decide +kernel⟩
  have h : ([0, 1, 2, 3, 4, 5, 6, 7, 10, 11, 12, 16, 19, 8, 9, 13, 17, 18, 20, 24, 25].all fun n =>
      readyB (duty (withG worker [(5, 0x400#32)])) (Instr.sget 4 (BitVec.ofNat 11 n)).shape &&
        readyB (duty (withG worker [(5, 0x400#32)])) (Instr.sset 4 (BitVec.ofNat 11 n)).shape) = true := by decide +kernel
  intro n hn
  have := List.all_eq_true.1 h n hn
  rw [Bool.and_eq_true] at this
  exact ⟨ready_of _ _ this.1, ready_of _ _ this.2⟩

/-- Every instruction of a list has its own effect, and its access at W(A) reaches memory. -/
theorem reach_all (s : State) (k : AccKind) (pa : Nat) (l : List (Instr × Nat))
    (h : (l.all fun p => readyB s p.1.shape && reachB s (s.wA p.1.shape) p.2 k pa) = true) :
    ∀ p ∈ l, Ready s p.1.shape ∧ s.reaches (s.wA p.1.shape) p.2 k pa := by
  intro p hp
  have := List.all_eq_true.1 h p hp
  rw [Bool.and_eq_true] at this
  exact ⟨ready_of _ _ this.1, reaches_of _ _ _ _ _ this.2⟩

/-- A physical address of a boot thread is canonical, in no region that is being switched and on no page that a peer
holds. -/
def plainB (s : State) (va : DWord) : Bool :=
  s.t.boot && canonical va && !s.regionSwitching (s.homeAddr va.toNat) && !s.heldByPeer (s.homeAddr va.toNat)

/-- Such an address waits for nothing (R360). -/
theorem xlate_boot (s : State) (va : DWord) (n : Nat) (k : AccKind) (h : plainB s va = true) : s.xlate va n k = .ok va.toNat s := by
  simp only [plainB, Bool.and_eq_true, Bool.not_eq_true'] at h
  obtain ⟨⟨⟨h1, h2⟩, h3⟩, h4⟩ := h
  simp [State.xlate, State.address, State.untranslated, State.settle, Res.andThen, h1, h2, h3, h4]

/-- The addresses of a boot thread are physical, where they are aligned (R360). -/
theorem memCheck_boot (s : State) (va : DWord) (n : Nat) (k : AccKind) (h : plainB s va = true) (ha : va.toNat % n = 0) :
    s.memCheck va n k = .ok va.toNat s := by
  simp [State.memCheck, xlate_boot s va n k h, ha]

/-- A core with no line in its L1 has no write-back that anything could meet. -/
theorem calm_empty (s : State) (c : Nat) (h : (s.core c).l1 = []) : s.calm c := by
  intro l hl
  simp [h] at hl

/-- Such a core has room in every set (R3). -/
theorem setOf_empty (k : Core) (n : Nat) (h : k.l1 = []) : (k.setOf n).length < 8 := by
  simp [Core.setOf, h]

/-- A worker whose w6 holds 0x2000, w8 0x10000, g10 0x40, g11 1 and g4 9, with a scratchpad of its own. -/
def loader : State :=
  { duty (withG worker [(6, 0x2000#32), (8, 0x10000#32), (10, 0x40#32), (11, 1#32), (4, 9#32)]) with
    clusters := [(0, { live := true, insts := [(0, { size := 65536 })] })] }

/-- The same in a coherent region (R267). -/
def sharer : State := { loader with mem := [(Config.regionTable, 1#8)] }

/-- The same thread, deterministic. -/
def quiet : State := { loader with t := { loader.t with tctl := 0x44#32 } }

/-- The L1 of core 0 is empty, so it is in order. -/
theorem loader_linesOk : (loader.core loader.t.core).linesOk ∧ (sharer.core sharer.t.core).linesOk ∧
    (quiet.core quiet.t.core).linesOk := by unfold Core.linesOk; decide +kernel

/-- The same thread with a load of 4 bytes at 0x2000 that has missed and is still to perform into g12. -/
def lateLoader : State :=
  { loader with t := { loader.t with loads := [{ pa := 0x2000, vpn := 0#41, n := 4, signed := false, regs := [12] }] } }

/-- GlobalLoads: each size at 0x2000, with room, for a thread of each kind; a line without room; a load that is left to
perform later, and one that performs. -/
theorem witness_GlobalLoads : (loader.core loader.t.core).linesOk ∧ loader.t.loads = [] ∧ loader.fr.late = false ∧
    (∀ p ∈ [(Instr.ld8s 12 6 .global 0, 1), (.ld8z 12 6 .global 0, 1), (.ld16s 12 6 .global 0, 2), (.ld16z 12 6 .global 0, 2),
      (.ld32 12 6 .global 0, 4), (.ld64 12 6 .global 0, 8), (.ld128 12 6 .global 0, 16), (.ld128 0 6 .global 0, 16)],
      Ready loader p.1.shape ∧ loader.reaches (loader.wA p.1.shape) p.2 .read 0x2000) ∧
    loader.seenPois 0 0x2000 = false ∧ loader.room 0 0x2000 ∧ loader.t.det = false ∧ Memory.wf loader.mem = true ∧
    loader.calm 0 ∧
    (∀ p ∈ [(Instr.ld32 12 6 .global 0, 4)], Ready quiet p.1.shape ∧ quiet.reaches (quiet.wA p.1.shape) p.2 .read 0x2000) ∧
    quiet.room 0 0x2000 ∧ quiet.t.det = true ∧
    (let s := { loader with fr := { loader.fr with late := true } }
     s.fr.late = true ∧ s.upset = 0 ∧ s.l1Hit 0 0x2000 = false ∧ s.homePois 0x2000 4 = false ∧
       Ready s (Instr.ld32 12 6 .global 0).shape ∧ s.reaches (s.wA (Instr.ld32 12 6 .global 0).shape) 4 .read 0x2000 ∧
       ∀ r ∈ opRegs (Instr.ld32 12 6 .global 0).shape.dst, s.src.isQueue r = false) ∧
    (∃ th x, lateLoader.thread? 0 = some th ∧ th.ckey = 0 ∧ th.loads[0]? = some x ∧ x.n ∣ 32 ∧ x.pa % x.n = 0 ∧
      x.regs.Nodup ∧ lateLoader.room th.core (lateLoader.homeAddr x.pa)) ∧
    lateLoader.t.life = .running ∧ (lateLoader.core 0).linesOk :=
  ⟨loader_linesOk.1, by decide +kernel, by decide +kernel, reach_all _ _ _ _ (by decide +kernel), by decide +kernel,
    .inr (by decide +kernel), by decide +kernel, by decide +kernel, calm_empty _ _ (by decide +kernel),
    reach_all _ _ _ _ (by decide +kernel), .inr (by decide +kernel), by decide +kernel,
    ⟨by decide +kernel, by decide +kernel, by decide +kernel, by decide +kernel, ready_of _ _ (by decide +kernel),
      reaches_of _ _ _ _ _ (by decide +kernel), by decide +kernel⟩,
    ⟨_, _, rfl, by decide +kernel, rfl, by decide, by decide, by decide, .inr (by decide +kernel)⟩, by decide +kernel,
    by unfold Core.linesOk; decide +kernel⟩

/-- ScratchLoads and ScratchStores: both views, at the lowest and the highest offset of an access. -/
theorem witness_ScratchLoads :
    (∀ i ∈ [Instr.ld8s 12 10 .interleave 0, .ld16z 12 10 .scratchLocal 1, .ld32 12 10 .interleave 0x1FC, .ld64 12 10 .scratchLocal 0,
      .ld128 12 10 .scratchLocal 0, .st8 4 10 .scratchLocal 0, .st16 4 10 .interleave 0, .st32 4 10 .scratchLocal 0,
      .st64 4 10 .interleave 0, .st128 4 10 .scratchLocal 0], Ready loader i.shape) ∧
    (let x := (loader.gA (Instr.ld32 12 10 .interleave 0x1FC).shape).toNat - 16
     x % 4 = 0 ∧ x + 4 ≤ loader.scratchBytes ∧ ∀ j, j < 4 →
       scratchByte .interleave loader.scratchBytes 0 (x + j) / 16384 ∉ (loader.inst 0 0#32).lost ∧
       scratchSector (scratchByte .interleave loader.scratchBytes 0 (x + j)) ∉ (loader.inst 0 0#32).pois) ∧
    loader.scratchBytes = 65536 ∧ loader.t.det = false ∧ (aget 0 (loader.cluster 0).insts).isSome = true ∧
    Memory.wf (loader.inst 0 0#32).data = true :=
  ⟨ready_all _ _ (by decide +kernel), by decide +kernel, by decide +kernel, by decide +kernel, by decide +kernel, by decide +kernel⟩

/-- The premise of many statements that no load comes before the access. ScratchStores: a deterministic thread whose buffer
has room, and one whose buffer has none. -/
theorem witness_buffered_stores : loader.priors = [] ∧ sharer.priors = [] ∧ quiet.priors = [] ∧ quiet.t.det = true ∧
    quiet.scratchBytes = 65536 ∧
    (let cells := (List.range 4).map fun j => (scratchByte .interleave 65536 0 (0x40 + j), 9#8)
     let put := fun sbuf => cells.foldl (fun b q => aset (scratchKey q.1) q.2 b) sbuf
     (sbufLines (put [])).length ≤ 24 ∧ 24 < (sbufLines (put ((List.range 24).map fun i => (128 * i, 1#8)))).length) := by
  decide +kernel

/-- GlobalStores: a software-managed region, a coherent one, and a store buffer with room and without. -/
theorem witness_GlobalStores :
    (∀ s ∈ [loader, sharer, quiet], ∀ p ∈ [(Instr.st8 4 6 .global 0, 1), (.st16 4 6 .global 0, 2), (.st32 4 6 .global 0, 4),
      (.st64 4 6 .global 0, 8), (.st128 4 6 .global 0, 16)],
      Ready s p.1.shape ∧ s.reaches (s.wA p.1.shape) p.2 .write 0x2000) ∧
    (∀ s ∈ [loader, sharer, quiet], s.t.loads = [] ∧ s.calm 0) ∧
    (loader.t.det = false ∧ loader.regionH 0x2000 = false ∧ loader.room 0 0x2000) ∧
    (sharer.t.det = false ∧ sharer.regionH 0x2000 = true ∧ Memory.wf sharer.mem = true) ∧
    (quiet.t.det = true ∧ (sbufLines (sbufPut quiet.t.sbuf 0x2000 (leBytes 4 9))).length ≤ 24 ∧
      24 < (sbufLines (sbufPut ((List.range 24).map fun i => (128 * i, 1#8)) 0x2000 (leBytes 4 9))).length) := by
  refine ⟨?_, ?_, ⟨by decide +kernel, by decide +kernel, .inr (by decide +kernel)⟩, ⟨by decide +kernel, by decide +kernel,
    by decide +kernel⟩, by decide +kernel⟩
  · intro s hs
    simp only [List.mem_cons, List.not_mem_nil, or_false] at hs
    rcases hs with rfl | rfl | rfl
    all_goals exact reach_all _ _ _ _ (by decide +kernel)
  · intro s hs
    simp only [List.mem_cons, List.not_mem_nil, or_false] at hs
    rcases hs with rfl | rfl | rfl
    all_goals exact ⟨by decide +kernel, calm_empty _ _ (by decide +kernel)⟩

/-- OrderedAccesses, OrderingActions, Atomics, Waits: accesses of both kinds of region, at the core and wider. -/
theorem witness_ordered :
    (∀ s ∈ [loader, sharer], ∀ p ∈ [(Instr.ld8sOrd 12 6 .core .relaxed, 1), (.ld8zOrd 12 6 .die .acquire, 1),
      (.ld16sOrd 12 6 .die .relaxed, 2), (.ld16zOrd 12 6 .system .acquire, 2), (.ld32Ord 12 6 .cluster .acquire, 4),
      (.ld64Ord 12 6 .package .acquire, 8), (.ld128Ord 12 6 .die .acquire, 16)],
      Ready s p.1.shape ∧ s.reaches (s.wA p.1.shape) p.2 .read 0x2000) ∧
    (∀ s ∈ [loader, sharer], ∀ p ∈ [(Instr.st8Ord 4 6 .core .relaxed, 1), (.st16Ord 4 6 .die .release, 2),
      (.st32Ord 4 6 .system .release, 4), (.st64Ord 4 6 .cluster .release, 8), (.st128Ord 4 6 .die .relaxed, 16)],
      Ready s p.1.shape ∧ s.reaches (s.wA p.1.shape) p.2 .write 0x2000) ∧
    loader.regionH 0x2000 = (loader.release 0 .die).regionH 0x2000 ∧ sharer.regionH 0x2000 = (sharer.release 0 .die).regionH 0x2000 ∧
    (∀ i ∈ [Instr.fence .core .sc, .fence .die .release, .fence .system .acquire, .fence .package .sc, .fenceI, .pf 0 6 0, .pf 1 6 3],
      Ready loader i.shape) ∧
    (∀ p ∈ [(Instr.amoAddW 12 6 4 .die .acqRel, 4), (.amoAndW 12 6 4 .core .relaxed, 4), (.amoOrW 12 6 4 .die .release, 4),
      (.amoXorW 12 6 4 .die .acquire, 4), (.amoMinW 12 6 4 .die .relaxed, 4), (.amoMaxW 12 6 4 .die .relaxed, 4),
      (.amoMinnW 12 6 4 .die .relaxed, 4), (.amoMaxnW 12 6 4 .die .relaxed, 4), (.amoSwpW 12 6 4 .die .relaxed, 4),
      (.amoCasW 0 6 4 .die .acqRel, 4), (.amoCasW 4 6 4 .die .acqRel, 4), (.amoFaddW 12 6 4 .die .relaxed, 4),
      (.amoFminW 12 6 4 .die .relaxed, 4), (.amoFmaxW 12 6 4 .die .relaxed, 4), (.amoAddD 12 6 4 .die .acqRel, 8),
      (.amoAndD 12 6 4 .core .relaxed, 8), (.amoOrD 12 6 4 .die .release, 8), (.amoXorD 12 6 4 .die .acquire, 8),
      (.amoMinD 12 6 4 .die .relaxed, 8), (.amoMaxD 12 6 4 .die .relaxed, 8), (.amoMinnD 12 6 4 .die .relaxed, 8),
      (.amoMaxnD 12 6 4 .die .relaxed, 8), (.amoSwpD 12 6 4 .die .relaxed, 8), (.amoCasD 4 6 4 .die .acqRel, 8),
      (.amoFaddD 12 6 4 .die .relaxed, 8), (.amoFminD 12 6 4 .die .relaxed, 8), (.amoFmaxD 12 6 4 .die .relaxed, 8)],
      Ready loader p.1.shape ∧ loader.reaches (loader.wA p.1.shape) p.2 .atomic 0x2000) ∧
    (∀ p ∈ [(Instr.waiteqW 6 0 .die .acquire, 4), (.waitneW 6 4 .die .acquire, 4), (.waiteqD 6 0 .core .relaxed, 8),
      (.waitneD 6 4 .system .acquire, 8)], Ready loader p.1.shape ∧ loader.reaches (loader.wA p.1.shape) p.2 .read 0x2000) ∧
    loader.pois.contains (0x2000 / 32) = false ∧
    (loader.calm 0 ∧ (loader.core 0).sent = [] ∧ ∀ n, ((loader.core 0).setOf n).length < 8) ∧
    (sharer.calm 0 ∧ (sharer.core 0).sent = [] ∧ sharer.seenPois 0 0x2000 = false) := by
  refine ⟨?_, ?_, by decide +kernel, by decide +kernel, ready_all _ _ (by decide +kernel), reach_all _ _ _ _ (by decide +kernel),
    reach_all _ _ _ _ (by decide +kernel), by decide +kernel,
    ⟨calm_empty _ _ (by decide +kernel), by decide +kernel, fun n => setOf_empty _ _ (by decide +kernel)⟩,
    ⟨calm_empty _ _ (by decide +kernel), by decide +kernel, by decide +kernel⟩⟩
  all_goals
    intro s hs
    simp only [List.mem_cons, List.not_mem_nil, or_false] at hs
    rcases hs with rfl | rfl
    all_goals exact reach_all _ _ _ _ (by decide +kernel)

/-- MultipleTransfers: two words from 0x2000 up, all of them, the last alone, and the first alone where the transfer
stands off after it. -/
theorem witness_MultipleTransfers : ∀ s ∈ [loader, { loader with t := { loader.t with tprog := 1#32 } },
      { loader with fr := { loader.fr with burst := some 0 } }],
    (s.core s.t.core).linesOk ∧ Memory.wf s.mem = true ∧ s.t.det = false ∧ s.t.loads = [] ∧
    (∀ e, e ≤ 1 → s.homeAddr (0x2000 + 4 * e) / 128 = 0x40 ∧ ((s.core 0).setOf 0x40).length + 2 ≤ 8) ∧
    Ready s (Instr.ldm 12 6 1).shape ∧ Ready s (Instr.stm 12 6 1).shape ∧
    Ready s (stmShape 12 6 1 (min s.t.tprog.toNat (1 + 1))) ∧ (s.wA (Instr.ldm 12 6 1).shape).toNat % 4 = 0 ∧
    (∀ e, e ≤ 1 → ∀ k, s.memCheck (s.wA (Instr.stm 12 6 1).shape + BitVec.ofNat 64 (4 * e)) 4 k = .ok (0x2000 + 4 * e) s) ∧
    (∀ e, e ≤ 1 → s.atMemory (0x2000 + 4 * e) .read = true ∧ s.atMemory (0x2000 + 4 * e) .write = true ∧
      s.place (0x2000 + 4 * e) = .device (0x2000 + 4 * e) ∧ s.regionH (0x2000 + 4 * e) = false ∧
      s.seenPois 0 (0x2000 + 4 * e) = false) ∧
    (∀ b, s.fr.burst = some b → b = 0 ∧ s.t.tprog.toNat + b < 1) := by
  intro s hs
  simp only [List.mem_cons, List.not_mem_nil, or_false] at hs
  rcases hs with rfl | rfl | rfl
  all_goals
    refine ⟨by unfold Core.linesOk; decide +kernel, by decide +kernel, by decide +kernel, by decide +kernel, fun e he => ?_,
      ready_of _ _ (by decide +kernel), ready_of _ _ (by decide +kernel), ready_of _ _ (by decide +kernel), by decide +kernel,
      fun e he k => ?_, ?_, ?_⟩
    · have h : e = 0 ∨ e = 1 := by omega
      rcases h with rfl | rfl <;> decide +kernel
    · have h : e = 0 ∨ e = 1 := by omega
      rcases h with rfl | rfl <;> exact memCheck_boot _ _ _ _ (by decide +kernel) (by decide +kernel)
    · intro e he
      have h : e = 0 ∨ e = 1 := by omega
      rcases h with rfl | rfl <;> decide +kernel
    · intro b hb
      cases hb
      try decide +kernel

/-- The worker's cell lies in its own module's memory. -/
theorem loader_own (q da : Nat) : loader.place 0x2000 ≠ .peer q da := by
  rw [show loader.place 0x2000 = .device 0x2000 by decide +kernel]
  intro h
  cases h

/-- SyncCells: the four operations on the cell at 0x2000, a `scas` that writes and one that does not. -/
theorem witness_SyncCells :
    (∀ p ∈ [(Instr.srel 4 6 .die, 128), (.srel 4 6 .core, 128), (.sadd 12 6 4 .die, 128), (.scas 12 6 4 .system, 128),
      (.scas 4 6 4 .die, 128)], Ready loader p.1.shape ∧ loader.reaches (loader.wA p.1.shape) p.2 .atomic 0x2000) ∧
    (∀ p ∈ [(Instr.sacq 12 6 .die, 128), (.sacq 12 6 .core, 128)],
      Ready loader p.1.shape ∧ loader.reaches (loader.wA p.1.shape) p.2 .syncRead 0x2000) ∧
    (∀ m, m < 4 → loader.pois.contains (0x2000 / 32 + m) = false) ∧
    (∀ q da, loader.place 0x2000 ≠ .peer q da) ∧ loader.calm 0 ∧ (loader.core 0).sent = [] :=
  ⟨reach_all _ _ _ _ (by decide +kernel), reach_all _ _ _ _ (by decide +kernel),
    by decide +kernel, loader_own,
    calm_empty _ _ (by decide +kernel), by decide +kernel⟩

/-- Page 0 for reading alone, in address space 0. -/
def readPage : Tlb :=
  { asn := 0#16, vpn := 0#41, size := 0, ppn := 0, r := true, w := false, x := false, sup := false
    grants := [(true, true, true), (true, true, true), (true, true, true)] }

/-- A thread in user mode, with w6 = 0x2000, w8 not aligned and w10 not canonical. -/
def tenantThread : Thread :=
  let th := withG worker [(6, 0x2000#32), (8, 0x2001#32), (11, 0x10000000#32)]
  { th with boot := false, tctl := 0#32 }

/-- The same thread in execution, its page in the TLB. -/
def tenant : State := { duty tenantThread with clusters := [(0, { live := true, tlb := [readPage] })] }

/-- The same thread with no page in the TLB, and the tables of R289 to R291 in memory: the page's entry is a bad one, or
one with MIG. -/
def migrating (bad : Bool) : State :=
  { tenant with
    asb := 0x80001#64, ptb := 0x10030A#64, clusters := []
    mem := [(0x80000, 1#8), (0x100008, if bad then 0x39#8 else 0xB9#8)] ++ if bad then [(0x100009, 1#8)] else [] }

/-- SyncCells: a core with two lines of software-managed regions, of which the clave of the cell at 0x2000 hits one: the
acquirer's core drops that one and keeps the other. -/
theorem witness_sweep :
    let hit : Line := { n := 0x60 }
    let kept : Line := { n := 0x61 }
    let k := sigBits (loader.sigLine (128 * 0x60))
    let s := { loader with
      ticks := 9000, cores := [(0, { l1 := [hit, kept] })]
      mem := (List.range 64).filterMap fun j =>
        let b := BitVec.ofNat 8 (k.toNat / 2 ^ (8 * j))
        if b = 0#8 then none else some (0x2040 + j, b) }
    let old := cellOf ((List.range 128).map fun j => s.settled 0 (0x2000 + j))
    (∀ l ∈ [hit, kept], l ∈ (s.core 0).l1 ∧ l.n ≠ 0x2000 / 128 ∧ l.h = false) ∧ old.clave = k ∧
    sigHit old.clave (s.sigLine (128 * 0x60)) = true ∧ sigHit old.clave (s.sigLine (128 * 0x61)) = false := by
  decide +kernel

/-- AccessChecks: an address that is not aligned, one that is not canonical, a page that permits no write, one that
migrates, one that another walk has reported, and a register of a block. -/
theorem witness_AccessChecks :
    (tenant.t.tr = false ∧ tenant.t.boot = false ∧ (∀ i ∈ [Instr.ld32 4 8 .global 0, .st32 4 6 .global 0, .ld64 4 10 .global 0,
        .amoAddW 4 6 5 .die .relaxed, .waiteqW 6 0 .die .relaxed], Ready tenant i.shape) ∧
      (tenant.wA (Instr.ld32 4 8 .global 0).shape).toNat % 4 ≠ 0 ∧
      (let va := tenant.wA (Instr.ld64 4 10 .global 0).shape
       va.toNat % 8 = 0 ∧ ¬ (va.toNat < 2 ^ 56 ∨ 2 ^ 64 - 2 ^ 56 ≤ va.toNat)) ∧
      (∃ e, (tenant.lookupCore 0 false tenant.t.asn 0x2000#64).1 = .hit e ∧ e.permits tenant.t.mode .write = false) ∧
      tenant.walkerFree) ∧
    (Ready (migrating false) (Instr.ld32 4 6 .global 0).shape ∧ (migrating false).t.boot = false ∧
      ((migrating false).lookupCore 0 false 0#16 0x2000#64).1 = .mig ∧ (migrating false).walkerFree) ∧
    (let s := { tenant with clusters := [], dies := [(0, { outst := [(0#16, vpnOf 0x2000#64)] })] }
     Ready s (Instr.ld32 4 6 .global 0).shape ∧ (s.lookupCore 0 false s.t.asn 0x2000#64).1 = .miss ∧
     (s.die 0).outst.contains (s.t.asn, vpnOf 0x2000#64) = true ∧
     s.walkerFree) ∧
    (let s := duty (withG worker [(7, 0xC0#32)])
     (s.place 0xC000000000).isBlock = true ∧ Ready s (Instr.ld64 4 6 .global 0).shape ∧ Ready s (Instr.st64 4 6 .global 0).shape ∧
     (∀ k, s.memCheck (s.wA (Instr.ld64 4 6 .global 0).shape) 8 k = .ok 0xC000000000 s) ∧
     s.granted s.t.master 0xC000000000 .read = true ∧ s.granted s.t.master 0xC000000000 .write = true ∧ s.t.det = false ∧
     s.t.loads = []) := by
  refine ⟨⟨by decide +kernel, by decide +kernel, ready_all _ _ (by decide +kernel), by decide +kernel, by decide +kernel,
      ⟨_, rfl, by decide +kernel⟩, walkerFree_none _ (by decide +kernel)⟩,
    ⟨ready_of _ _ (by decide +kernel), by decide +kernel, by decide +kernel, walkerFree_open _ (by decide +kernel) rfl rfl⟩,
    ⟨ready_of _ _ (by decide +kernel), by decide +kernel, by decide +kernel, walkerFree_none _ (by decide +kernel)⟩,
    ⟨by decide +kernel, ready_of _ _ (by decide +kernel), ready_of _ _ (by decide +kernel), fun k => ?_, by decide +kernel,
      by decide +kernel, by decide +kernel, by decide +kernel⟩⟩
  exact memCheck_boot _ _ _ _ (by decide +kernel) (by decide +kernel)

/-- AccessChecks: scratchpad addresses below 0, beyond the launch's bytes and not aligned, of both views; and elements and
messages that are not aligned or lie beyond the bytes. -/
theorem witness_scratch_checks :
    let s := duty (withG worker [(8, 0x2001#32), (10, 4#32), (12, 0x41#32), (14, 0x100000#32), (16, 0x10000#32), (18, 0x40000#32)])
    s.t.tr = false ∧ s.t.kept = none ∧
    (∀ i ∈ [Instr.ld32 5 10 .scratchLocal (-2), .st64 4 10 .interleave (-1), .ld16z 5 12 .interleave 0, .st128 4 10 .scratchLocal 0,
        .ld8s 5 14 .interleave 0, .st8 5 14 .scratchLocal 0, .ldm 20 8 3, .stm 20 8 3, .nsend 16 12, .nmcast 18 14, .nrecv 5 12,
        .nrecv 5 14], Ready s i.shape) ∧
    Ready s (stmShape 20 8 3 (min s.t.tprog.toNat 4)) ∧
    (4 + (-2 : BitVec 9).toInt * 4 < 0 ∧ 0x41 % 2 ≠ 0 ∧ s.scratchBytes < 0x100000 + 1) ∧
    (s.wA (Instr.ldm 20 8 3).shape).toNat % 4 ≠ 0 ∧
    sendOk (s.gA (shSend 16 12)).toNat = true ∧ mcastOk (s.gA (shSend 18 14)).toNat = true ∧
    (s.gB (shSend 16 12)).toNat % 64 ≠ 0 ∧ (s.gB (shSend 18 14)).toNat % 64 = 0 ∧ s.scratchBytes < (s.gB (shSend 18 14)).toNat + 64 :=
  ⟨by decide +kernel, by decide +kernel, ready_all _ _ (by decide +kernel), ready_of _ _ (by decide +kernel), by decide +kernel,
    by decide +kernel, by decide +kernel, by decide +kernel, by decide +kernel, by decide +kernel, by decide +kernel⟩

/-- JoinBlocks: a `spawn` with a target in its window, a `join` on a block whose PEND is 0 and on one where it is 1, and
an end of a thread that owns nothing and of one whose newest entry is a continuation. -/
theorem witness_JoinBlocks :
    (loader.core loader.t.core).linesOk ∧ Memory.wf loader.mem = true ∧
    (∀ p ∈ [(Instr.spawn 6 0x10, 16)], Ready loader p.1.shape ∧ loader.reaches (loader.wA p.1.shape) p.2 .atomic 0x2000) ∧
    GoodTarget true loader.fr.first (loader.fr.first + BitVec.ofInt 64 (4 * (0x10 : BitVec 17).toInt)) ∧
    loader.calm 0 ∧ (loader.core 0).sent = [] ∧ loader.t.det = false ∧ ((loader.core 0).deque.filter fun e => e.slot.isNone).length < 64 ∧
    loader.pois.contains (0x2000 / 32) = false ∧
    (∀ s ∈ [loader, { loader with mem := [(0x2000, 1#8)] }], ∀ p ∈ [(Instr.join 6, 16)],
      Ready s p.1.shape ∧ s.reaches (s.wA p.1.shape) p.2 .read 0x2000) ∧
    (Ready loader Instr.tdone.shape ∧ (loader.core 0).owned loader.t.handle = []) ∧
    (let e : Entry := { kind := 1, pc := 0x3000#64, join := 0x2000#64 }
     let s := { loader with cores := [(0, { deque := [e] })] }
     Ready s Instr.tdone.shape ∧ ((s.core 0).owned s.t.handle).getLast? = some e ∧ (∃ s', s.meetEntry e = .ok .unit s') ∧
     s.reaches e.join 16 .atomic 0x2000) := by
  refine ⟨loader_linesOk.1, by decide +kernel, reach_all _ _ _ _ (by decide +kernel), by unfold GoodTarget; decide +kernel,
    calm_empty _ _ (by decide +kernel), by decide +kernel, by decide +kernel, by decide +kernel, by decide +kernel, ?_,
    ⟨ready_of _ _ (by decide +kernel), by decide +kernel⟩,
    ⟨ready_of _ _ (by decide +kernel), by decide +kernel, ⟨_, rfl⟩, reaches_of _ _ _ _ _ (by decide +kernel)⟩⟩
  intro s hs
  simp only [List.mem_cons, List.not_mem_nil, or_false] at hs
  rcases hs with rfl | rfl
  all_goals exact reach_all _ _ _ _ (by decide +kernel)

/-- JoinBlocks: an end of a thread whose newest entry is a stub. -/
theorem witness_stub :
    let e : Entry := { kind := 2, join := 0x2000#64 }
    let s := { loader with cores := [(0, { deque := [e] })] }
    Ready s Instr.tdone.shape ∧ s.priors = [] ∧ ((s.core 0).owned s.t.handle).getLast? = some e ∧ e.kind ≠ 1 ∧
    (∃ s', s.meetEntry e = .ok .unit s') ∧ s.reaches e.join 16 .atomic 0x2000 :=
  ⟨ready_of _ _ (by decide +kernel), by decide +kernel, by decide +kernel, by decide +kernel, ⟨_, rfl⟩,
    reaches_of _ _ _ _ _ (by decide +kernel)⟩

/-- A worker of core 0, and beside it a running, a spilled and a faulted context; g4 to g7 hold their handles, and g8 a
handle of nothing. -/
def crowd : State :=
  { duty (withG worker [(4, 0#32), (5, 1#32), (6, 2#32), (7, 3#32), (8, 9#32)]) with
    ctxs := [(1, { worker with num := 1 }), (2, { worker with num := 2, life := .spilled }),
      (3, { worker with num := 3, life := .faulted, frec := some { kind := 4, pc := 0x3000#64, elsewhere := true } })] }

/-- ThreadEnds: `exit`, and handles of the thread itself, of another one, of a spilled one, of a faulted one and of none. -/
theorem witness_ThreadEnds :
    (crowd.core crowd.t.core).linesOk ∧ Memory.wf crowd.mem = true ∧ (crowd.ctxs.map Prod.fst).Pairwise (· < ·) ∧
    (∀ p ∈ crowd.ctxs, p.2.ckey = p.1 ∧ p.1 ≠ crowd.t.ckey) ∧
    (∀ i ∈ [Instr.exit, .tkill 4, .tkill 5, .tkill 6, .tkill 8, .tresume 5, .tresume 7, .tresume 8], Ready crowd i.shape) ∧
    ((crowd.core 0).owned crowd.t.handle = [] ∧ (crowd.release 0 .system).tokensOf crowd.t.handle = []) ∧
    (∀ p ∈ [((4 : RegNo), some 0), (5, some 1), (6, some 2), (7, some 3), (8, none)],
      (((crowd.fin (Instr.tkill p.1).shape).taskTarget (crowd.gA (Instr.tkill p.1).shape)).map fun th => th.ckey) = p.2) ∧
    (∃ th r, crowd.taskTarget (crowd.gA (Instr.tresume 7).shape) = some th ∧ th.frec = some r ∧
      crowd.resumeOf th r = .ok 0x3000#64 crowd ∧ th.life ≠ .spilled ∧ th.ckey ≠ crowd.t.ckey) ∧
    GoodTarget false crowd.fr.first 0x3000#64 ∧ (crowd.calm 0 ∧ (crowd.core 0).sent = []) ∧
    (1 ∉ crowd.issue ∧ Ready ({ crowd with issue := [1] } : State) (Instr.tkill 5).shape) := by
  refine ⟨by unfold Core.linesOk; decide +kernel, by decide +kernel, by decide +kernel, by decide +kernel,
    ready_all _ _ (by decide +kernel), by decide +kernel, ?_, ⟨_, _, rfl, rfl, rfl, by decide +kernel, by decide +kernel⟩,
    by unfold GoodTarget; decide +kernel, ⟨calm_empty _ _ (by decide +kernel), by decide +kernel⟩,
    ⟨by decide +kernel, ready_of _ _ (by decide +kernel)⟩⟩
  simp only [List.mem_cons, List.not_mem_nil, or_false, forall_eq_or_imp, forall_eq]
  decide +kernel

/-- A thread that reads its launch's scratchpad, with values in g4 to g11. -/
def member (num : Nat) : Thread :=
  withG { worker with num := num } [(4, 2#32), (6, 0x40#32), (8, 0x100#32), (10, 0x2000#32)]

/-- A formed group of two threads. -/
def pair : Group := { lid := 0#32, key := 0x100#64, n := 2, formed := true, members := [0, 1] }

/-- Context 0 of the formed group, in execution, with context 1 beside it. -/
def grouped : State :=
  let th := { member 0 with gid := some 0, gsize := 2#32 }
  { duty th with
    ctxs := [(1, { member 1 with gid := some 0, gsize := 2#32, grank := 1#32 })]
    clusters := [(0, { live := true, groups := [(0, pair)], insts := [(0, { size := 65536 })] })] }

/-- Convocations: the first arrival, the last one, an arrival that is evaluated again before and after the group has
formed, arrivals that trap, and a departure. -/
theorem witness_Convocations :
    (let s := duty (member 0)
     (s.core 0).linesOk ∧ s.t.kept = none ∧ Ready s (Instr.conv 12 8 4).shape ∧ s.t.gsize = 0#32 ∧
     (s.wA (Instr.conv 12 8 4).shape).toNat = 0x100 ∧ (s.gB (Instr.conv 12 8 4).shape).toNat = 2 ∧
     (s.cluster 0).groups.find? (fun p => !p.2.formed && p.2.lid == s.t.lid && p.2.key == 0x100#64) = none ∧
     freshKey 0 (s.cluster 0).groups = 0) ∧
    (let s := { duty (member 1) with clusters := [(0, { groups := [(0, { lid := 0#32, key := 0x100#64, n := 2, members := [0] })] })] }
     Ready s (Instr.conv 12 8 4).shape ∧
     (s.cluster 0).groups.find? (fun p => !p.2.formed && p.2.lid == s.t.lid && p.2.key == 0x100#64) =
       some (0, { lid := 0#32, key := 0x100#64, n := 2, members := [0] })) ∧
    (∀ g ∈ [pair, { pair with formed := false }],
      let s := { grouped with t := { grouped.t with kept := some { kind := .conv 0 } }, clusters := [(0, { groups := [(0, g)] })] }
      Ready s (recorded (Instr.conv 12 8 4).shape) ∧ s.group? 0 0 = some g) ∧
    (grouped.t.kept = none ∧ Ready grouped (Instr.conv 12 8 4).shape ∧ grouped.t.tr = false ∧ grouped.t.gsize ≠ 0#32) ∧
    (let s := duty (member 0)
     Ready s (Instr.conv 12 8 13).shape ∧ (s.gB (Instr.conv 12 8 13).shape).toNat = 0 ∧ s.t.tr = false ∧
     ∀ i ∈ [Instr.gdis, .gbar, .gbc 12 4 5, .gbcD 12 4 5, .gredAddF32 12 4, .gredAddI64 12 4], Ready s i.shape) ∧
    (Ready grouped Instr.gdis.shape ∧ (grouped.cluster 0).groups = [(0, pair)] ∧ grouped.t.ckey ∈ pair.members ∧
      pair.members.idxOf grouped.t.ckey ∉ pair.departed ∧ pair.departed.length + 1 < pair.n) := by
  refine ⟨⟨by unfold Core.linesOk; decide +kernel, by decide +kernel, ready_of _ _ (by decide +kernel), by decide +kernel,
      by decide +kernel, by decide +kernel, by decide +kernel, by decide +kernel⟩, ⟨ready_of _ _ (by decide +kernel), by decide +kernel⟩,
    ?_, ⟨by decide +kernel, ready_of _ _ (by decide +kernel), by decide +kernel, by decide +kernel⟩,
    ⟨ready_of _ _ (by decide +kernel), by decide +kernel, by decide +kernel, ready_all _ _ (by decide +kernel)⟩,
    ⟨ready_of _ _ (by decide +kernel), by decide +kernel, by decide +kernel, by decide +kernel, by decide +kernel⟩⟩
  intro g hg
  simp only [List.mem_cons, List.not_mem_nil, or_false] at hg
  rcases hg with rfl | rfl <;> exact ⟨ready_of _ _ (by decide +kernel), by decide +kernel⟩

/-- GroupOperations: the first arrival, the last, and an arrival that is evaluated again. -/
theorem witness_GroupOperations :
    (grouped.t.gid = some 0 ∧ grouped.group? 0 0 = some pair ∧ grouped.t.gsize ≠ 0#32 ∧ grouped.t.kept = none ∧
      (∀ i ∈ [Instr.gbar, .gbc 12 4 5, .gbcD 12 8 5, .gredAddF32 12 4, .gredAddF64 12 8, .gredCaddF32 12 8, .gredAddI32 12 4,
        .gredAddI64 12 8, .gredMaxF32 12 4, .gredMinF32 12 4, .gredMaxF64 12 8, .gredMinF64 12 8, .gredMaxI32 12 4,
        .gredMinI32 12 4, .gredAnd 12 4, .gredOr 12 4, .gredXor 12 4], Ready grouped i.shape) ∧ pair.arrivals = []) ∧
    (let g := { pair with arrivals := [{ rank := 1, op := 0, kind := .bar, root := 0, v := 0#64 }] }
     let arr : GArrival := { rank := 0, op := 0, kind := .bar, root := 0, v := 0#64 }
     (∀ x ∈ g.arrivals, x.op = 0 → x.rank ≠ 0) ∧
     (let g' := { g with arrivals := g.arrivals ++ [arr] }
      (∀ r, r < g'.n → r ∈ g'.departed ∨ ∃ x ∈ g'.arrivals, x.rank = r ∧ x.op = 0) ∧
      (∀ x ∈ g'.arrivals, x.op = 0 → x.kind = .bar ∧ x.root = 0 ∧ 0 < g'.n)) ∧
     arr ∈ ({ pair with arrivals := [arr] } : Group).arrivals) ∧
    (let s := { grouped with t := { grouped.t with kept := some { kind := .groupOp } } }
     Ready s (recorded Instr.gbar.shape)) :=
  ⟨⟨by decide +kernel, by decide +kernel, by decide +kernel, by decide +kernel, ready_all _ _ (by decide +kernel), by decide +kernel⟩,
    by decide +kernel, ready_of _ _ (by decide +kernel)⟩

/-- GroupOperations: a last arrival that differs, and one at a root that the group does not have. -/
theorem witness_differing_arrivals : ∀ x ∈ [(GKind.bcast, 0), (.bar, 2)],
    let arr : GArrival := { rank := 0, op := 0, kind := .bar, root := 0, v := 0#64 }
    let g' : Group := { pair with arrivals := [{ rank := 1, op := 0, kind := x.1, root := x.2, v := 0#64 }, arr] }
    (∀ r, r < g'.n → r ∈ g'.departed ∨ ∃ x ∈ g'.arrivals, x.rank = r ∧ x.op = 0) ∧
    (¬ ∀ x ∈ g'.arrivals, x.op = 0 → x.kind = .bar ∧ x.root = arr.root ∧ arr.root < g'.n) ∧ grouped.t.tr = false := by
  decide +kernel

/-- A ring of four slots of 64 bytes, of which two are filled. -/
def halfRing : Ring :=
  { lid := 0#32, lrn := 0#6, base := 0, slot := 64, nslot := 4, pp := 2#32, clm := 2#32, done := List.replicate 4 false
    bytes := List.replicate 4 0 }

/-- A thread with its handle k1 on that ring. -/
def ringed : State :=
  { duty { member 0 with rings := worker.rings.set! 1 (some 3#6) } with
    clusters := [(0, { live := true, rings := [(3, halfRing)], insts := [(0, { size := 65536 })] })] }

/-- RingsAndBindings: counts that are met, that are not met yet and that the ring does not have, a handle that is not
bound, and words that bind, unbind and make a ring or a queue. -/
theorem witness_RingsAndBindings :
    (∃ r, ringed.t.rings[(1 : RegNo).toNat]! = some 3#6 ∧ ringed.ring? 0 3 = some r ∧ (r.pp - r.cp).toNat = 2 ∧
      r.nslot - (r.clm - r.cp).toNat = 2 ∧ r.nslot = 4 ∧ r.pp = r.clm ∧ r.clm.toNat + 2 < 2 ^ 32 ∧ r.done.length = r.nslot ∧
      r.bytes.length = r.nslot) ∧
    (∀ n ∈ [2, 3, 5], ∀ i ∈ [Instr.rwf 1 4, .rwe 1 4, .radvp 1 4, .radvc 1 4],
      let s := { ringed with t := withG ringed.t [(4, BitVec.ofNat 32 n)] }
      Ready s i.shape ∧ (s.gA i.shape).toNat = n) ∧
    (∀ i ∈ [Instr.raddr 12 1 13, .rbytes 12 1 13], Ready ringed i.shape ∧ (ringed.gB i.shape).toNat % 65536 < 4) ∧
    (∀ i ∈ [Instr.raddr 12 1 13, .rbytes 12 1 13],
      let s := { ringed with t := withG ringed.t [(13, 4#32)] }
      Ready s i.shape ∧ (s.gB i.shape).toNat % 65536 = 4) ∧
    (ringed.t.tr = false ∧ ringed.t.det = false ∧ ringed.t.rings[(2 : RegNo).toNat]! = none ∧
      ∀ i ∈ [Instr.rwf 2 4, .rwe 2 4, .radvp 2 4, .radvc 2 4, .raddr 12 2 13, .rbytes 12 2 13], Ready ringed i.shape) ∧
    (∀ w ∈ [0xFFFFFFFF, 3, 0x04000003],
      let s := { ringed with t := withG { ringed.t with tctl := 0x42#32 } [(4, BitVec.ofNat 32 w)] }
      Ready s (Instr.rbind 1 4).shape ∧ Ready s (Instr.qbind 0 4).shape ∧ (s.gA (Instr.rbind 1 4).shape).toNat = w ∧ s.t.qe = true) ∧
    (ringed.t.qe = false ∧ Ready ringed (Instr.qbind 0 4).shape) ∧
    (let w := 3#32
     w ≠ 0xFFFFFFFF#32 ∧ w.toNat / 2 ^ 10 % 16 ≤ 10 ∧ w.toNat / 256 % 4 = 0 ∧
       256 * (w.toNat / 2 ^ 14 % 4096) + (w.toNat % 256 + 1) * 2 ^ (w.toNat / 2 ^ 10 % 16 + 6) ≤ ringed.scratchBytes ∧
       (∃ r, (ringed.cluster 0).rings.find? (fun p => p.2.lid == ringed.t.lid && p.2.lrn == BitVec.ofNat 6 (w.toNat / 2 ^ 26)) =
         some (3, r) ∧ r.base = 0 ∧ r.slot = 64 ∧ r.nslot = 4)) ∧
    (let w := 0x04000003#32
     (ringed.cluster 0).rings.find? (fun p => p.2.lid == ringed.t.lid && p.2.lrn == BitVec.ofNat 6 (w.toNat / 2 ^ 26)) = none ∧
       freshKey 0 (ringed.cluster 0).rings < 64 ∧ (ringed.ring? 0 (3#6).toNat).isSome = true) := by
  refine ⟨⟨_, by decide +kernel, rfl, by decide +kernel, by decide +kernel, by decide +kernel, by decide +kernel, by decide +kernel,
      by decide +kernel, by decide +kernel⟩, ?_, ?_, ?_, ⟨by decide +kernel, by decide +kernel, by decide +kernel, ready_all _ _ (by decide +kernel)⟩, ?_,
    ⟨by decide +kernel, ready_of _ _ (by decide +kernel)⟩,
    ⟨by decide, by decide, by decide, by decide +kernel, _, rfl, by decide +kernel, by decide +kernel, by decide +kernel⟩,
    by decide +kernel⟩
  · intro n hn i hi
    simp only [List.mem_cons, List.not_mem_nil, or_false] at hn hi
    rcases hn with rfl | rfl | rfl <;> rcases hi with rfl | rfl | rfl | rfl <;>
      exact ⟨ready_of _ _ (by decide +kernel), by decide +kernel⟩
  · intro i hi
    simp only [List.mem_cons, List.not_mem_nil, or_false] at hi
    rcases hi with rfl | rfl <;> exact ⟨ready_of _ _ (by decide +kernel), by decide +kernel⟩
  · intro i hi
    simp only [List.mem_cons, List.not_mem_nil, or_false] at hi
    rcases hi with rfl | rfl <;> exact ⟨ready_of _ _ (by decide +kernel), by decide +kernel⟩
  · intro w hw
    simp only [List.mem_cons, List.not_mem_nil, or_false] at hw
    rcases hw with rfl | rfl | rfl <;>
      exact ⟨ready_of _ _ (by decide +kernel), ready_of _ _ (by decide +kernel), by decide +kernel, by decide +kernel⟩

/-- The descriptor, at 0x40, of a `tfill` of 8 bytes at 0 of the scratchpad, or of its slot. -/
def fillDesc : List Host.Cell := [(0x58, 8#8), (0x5A, 1#8), (0x78, 8#8)]

/-- A job of the engine, as it is queued. -/
def someJob (kind : JobKind) : Job :=
  { id := 0, kind := kind, lid := 0#32, n := 1#32, asn := 0#16, core := 0, mode := true, handle := 0#32, tix := 0#32, path := 0#64
    pc := 0x1000#64, pair := false, tr := false }

/-- The same thread with a descriptor, and with a full engine queue. -/
def filler (jobs : List Job) : State :=
  { ringed with clusters := [(0, { live := true, insts := [(0, { size := 65536, data := fillDesc })], jobs := jobs, rings := (ringed.cluster 0).rings })] }

/-- CopyJobs: a fill that is queued, one that finds the queue full, one whose check fails, one that claims a slot, one
with a handle that is not bound; and waits for numbers of every status. -/
theorem witness_CopyJobs :
    (let s := filler []
     let desc := (List.range 64).map fun j => cellRead (s.inst 0 0#32).data (0x40 + j)
     (s.core 0).linesOk ∧ (∀ i ∈ [Instr.tfill 12 6 63, .tfill 12 6 1, .tfill 12 6 2, .tcopy 12 6 63, .scopy 12 6 63], Ready s i.shape) ∧
     (s.gA (Instr.tfill 12 6 63).shape).toNat = 0x40 ∧ s.t.det = false ∧ (aget 0 (s.cluster 0).insts).isSome = true ∧
     (∀ j, j < 64 → (0x40 + j) / 16384 ∉ (s.inst 0 0#32).lost ∧ scratchSector (0x40 + j) ∉ (s.inst 0 0#32).pois) ∧
     s.copyVerdict .tfill none desc = none ∧ s.queueFull = false ∧ (s.copyVerdict .scopy none desc).isSome = true ∧
     (∃ r, s.ring? 0 3 = some r ∧ s.copyVerdict .tfill (some r) desc = none) ∧ s.t.rings[(2 : RegNo).toNat]! = none) ∧
    (let s := filler (List.replicate 64 (someJob .tfill))
     Ready s (Instr.tfill 12 6 63).shape ∧ s.queueFull = true) ∧
    (∀ p ∈ [(0#32, 1#32), (5#32, 0#32), (1#32, 0#32), (2#32, 0#32), (3#32, 0#32)],
      let s := { filler [{ someJob .tfill with n := 2#32 }] with t := withG ringed.t [(4, p.1)] }
      Ready s (Instr.ewait 4).shape ∧ Ready s (Instr.eprog 12 4).shape) ∧
    (let i : Inst := { size := 65536, next := 5#32, issued := true, ended := [{ n := 1#32, state := 0, done := 1, writes := [] },
        { n := 3#32, state := 4, done := 0, writes := [] }] }
     let s := { ringed with clusters := [(0, { insts := [(0, i)], jobs := [{ someJob .tfill with n := 2#32 }] })] }
     s.jobStatus 9#32 = .unissued ∧ s.jobStatus 2#32 = .live { someJob .tfill with n := 2#32 } ∧
     s.jobStatus 1#32 = .ended { n := 1#32, state := 0, done := 1, writes := [] } ∧
     s.jobStatus 3#32 = .ended { n := 3#32, state := 4, done := 0, writes := [] } ∧ s.t.mode = true ∧
     ({ s with clusters := [(0, { insts := [(0, { i with next := 0x1000#32, ended := [] })] })] } : State).jobStatus 1#32 = .old) := by
  refine ⟨⟨by unfold Core.linesOk; decide +kernel, ready_all _ _ (by decide +kernel), by decide +kernel, by decide +kernel,
      by decide +kernel, by decide +kernel, by decide +kernel, by decide +kernel, by decide +kernel, ⟨_, rfl, by decide +kernel⟩,
      by decide +kernel⟩, ⟨ready_of _ _ (by decide +kernel), by decide +kernel⟩, ?_, by decide +kernel⟩
  intro p hp
  simp only [List.mem_cons, List.not_mem_nil, or_false] at hp
  rcases hp with rfl | rfl | rfl | rfl | rfl <;> exact ⟨ready_of _ _ (by decide +kernel), ready_of _ _ (by decide +kernel)⟩

/-- An accumulator of the group 0 in the form bf16, of which nothing has been issued. -/
def freshAcc (form : Nat) : Acc := { owner := some 0, cfg := BitVec.ofNat 32 form, form := form }

/-- The grouped thread's state with accumulators, jobs and bytes of the scratchpad. -/
def tensor (accs : List (Nat × Acc)) (jobs : List Job) (data : List Host.Cell) : State :=
  { grouped with
    clusters := [(0, { live := true, groups := [(0, pair)], accs := accs, jobs := jobs, insts := [(0, { size := 65536, data := data })] })] }

/-- MatrixIssue: an accumulator that is given, that another group holds and that is freed; `mx.zero` with a queue that
takes it and one that is full; a chunk of each form in its turn and one out of turn; and a subtree. -/
theorem witness_MatrixIssue :
    (let s := duty (member 0)
     Ready s (Instr.mxCfg 1 4).shape ∧ s.t.gsize = 0#32 ∧ s.t.tr = false) ∧
    (let s := tensor [] [] []
     (s.core 0).linesOk ∧ Ready s (Instr.mxCfg 1 4).shape ∧ s.t.gsize ≠ 0#32 ∧ s.t.gid = some 0 ∧
     s.gA (Instr.mxCfg 1 4).shape = 2#32 ∧ cfgOk 2#32 = true ∧ s.acc? 0 1 = none) ∧
    (let s := tensor [(1, { freshAcc 2 with owner := some 7 })] [] []
     Ready s (Instr.mxCfg 1 4).shape ∧ ∃ e, s.acc? 0 1 = some e ∧ e.owner ≠ some 0) ∧
    (let s := tensor [(1, freshAcc 2)] [] []
     (∀ i ∈ [Instr.mxCfg 1 4, .mxZero 1], Ready { s with t := withG s.t [(4, 0xFFFFFFFF#32)] } i.shape) ∧
     s.acc? 0 1 = some (freshAcc 2) ∧ s.accJob 0 1 = none ∧ (s.cluster 0).accs = [(1, freshAcc 2)] ∧ s.queueFull = false) ∧
    (let s := tensor [(1, freshAcc 2)] (List.replicate 64 (someJob .tfill)) []
     Ready s (Instr.mxZero 1).shape ∧ s.queueFull = true ∧ ∀ j ∈ (s.cluster 0).jobs, j.onAcc 1 = true → j.kind ≠ .mxLd) ∧
    (∀ p ∈ [(0, Instr.mmaF64 1 6 5, 4), (1, .mmaF32 1 6 5, 16), (2, .mmaBf16 1 6 5, 64), (3, .mmaF16 1 6 5, 64),
        (4, .mmaE4m3 1 6 5, 128), (5, .mmaE5m2 1 6 5, 128), (6, .mmaMx8 1 6 5, 4), (7, .mmaE2m1 1 6 5, 32)],
      let s := tensor [(1, freshAcc p.1)] [] []
      let desc := (List.range 64).map fun j => cellRead (s.inst 0 0#32).data (0x40 + j)
      Ready s p.2.1.shape ∧ s.acc? 0 1 = some (freshAcc p.1) ∧ (s.gA p.2.1.shape).toNat = 0x40 ∧ (s.gB p.2.1.shape).toNat = 0 ∧
      s.mmaVerdict p.1 desc = none ∧ (carryLabels [] { l := Nat.log2 p.2.2, j := 0 }).length ≤ 6 ∧ s.queueFull = false ∧ s.t.det = false) ∧
    (let s := tensor [(1, freshAcc 2)] [] []
     Ready s (Instr.mmaBf16 1 6 4).shape ∧ (s.gB (Instr.mmaBf16 1 6 4).shape).toNat * 64 ≠ (freshAcc 2).cnt ∧
     Ready s (Instr.mmaF32 1 6 4).shape ∧ s.t.tr = false) ∧
    (let s := tensor [(1, freshAcc 2)] [] []
     Ready s (Instr.mxMerge 1 6 5).shape ∧ (s.gB (Instr.mxMerge 1 6 5).shape).toNat / 64 % 4 = 0 ∧ 0x40 + 16384 ≤ s.scratchBytes ∧
     (carryLabels [] { l := 0, j := 0 }).length ≤ 12) ∧
    (let s := { tensor [(1, freshAcc 2)] [] [] with t := withG grouped.t [(6, 0xF000#32)] }
     Ready s (Instr.mxMerge 1 6 5).shape ∧ (s.gA (Instr.mxMerge 1 6 5).shape).toNat % 64 = 0 ∧ s.scratchBytes < 0xF000 + 16384) := by
  refine ⟨⟨ready_of _ _ (by decide +kernel), by decide +kernel, by decide +kernel⟩,
    ⟨by unfold Core.linesOk; decide +kernel, ready_of _ _ (by decide +kernel), by decide +kernel, by decide +kernel, by decide +kernel,
      by decide +kernel, by decide +kernel⟩, ⟨ready_of _ _ (by decide +kernel), _, rfl, by decide +kernel⟩,
    ⟨ready_all _ _ (by decide +kernel), by decide +kernel, by decide +kernel, by decide +kernel, by decide +kernel⟩,
    ⟨ready_of _ _ (by decide +kernel), by decide +kernel, by decide +kernel⟩, ?_,
    ⟨ready_of _ _ (by decide +kernel), by decide +kernel, ready_of _ _ (by decide +kernel), by decide +kernel⟩,
    ⟨ready_of _ _ (by decide +kernel), by decide +kernel, by decide +kernel, by decide +kernel⟩,
    ⟨ready_of _ _ (by decide +kernel), by decide +kernel, by decide +kernel⟩⟩
  intro p hp
  simp only [List.mem_cons, List.not_mem_nil, or_false] at hp
  rcases hp with rfl | rfl | rfl | rfl | rfl | rfl | rfl | rfl <;> exact ⟨ready_of _ _ (by decide +kernel), by decide +kernel⟩

/-- Every instruction of a list has its own effect with its shape changed. -/
theorem ready_shapes (s : State) (l : List Instr) (f : Shape → Shape) (h : (l.all fun i => readyB s (f i.shape)) = true) :
    ∀ i ∈ l, Ready s (f i.shape) := fun i hi => ready_of s _ (List.all_eq_true.1 h i hi)

/-- MatrixMoves: a store and a load that are issued, a load from an address that is not aligned, and both evaluated again
while the job runs, once it has ended, and once it has failed. -/
theorem witness_MatrixMoves :
    (∀ p ∈ [([someJob .mxSt], []), ([], [({ n := 1#32, state := 0, done := 1, writes := [] } : Ended)]),
        ([], [{ n := 1#32, state := 4, done := 1, writes := [] }])],
      let s := { grouped with
        t := { grouped.t with kept := some { kind := .mxJob 1#32 } }
        clusters := [(0, { jobs := p.1, insts := [(0, { size := 65536, next := 2#32, issued := true, ended := p.2 })] })] }
      (∀ i ∈ [Instr.mxSt 1 6 4, .mxLd 1 6], Ready s (recorded i.shape)) ∧ s.t.tr = false ∧ s.t.mode = true ∧
      (s.jobStatus 1#32 = .live (someJob .mxSt) ∨ ∃ e, s.jobStatus 1#32 = .ended e)) ∧
    (let s := { tensor [(1, freshAcc 2)] [] [] with t := withG grouped.t [(4, 0#32)] }
     let desc := (List.range 64).map fun j => cellRead (s.inst 0 0#32).data (0x40 + j)
     s.t.kept = none ∧ s.t.gsize ≠ 0#32 ∧ s.t.gid = some 0 ∧ s.acc? 0 1 = some (freshAcc 2) ∧ s.t.det = false ∧ s.queueFull = false ∧
     Ready s (Instr.mxSt 1 6 4).shape ∧ Ready s (Instr.mxLd 1 6).shape ∧ (s.gA (Instr.mxSt 1 6 4).shape).toNat = 0x40 ∧
     s.gB (Instr.mxSt 1 6 4).shape = 0#32 ∧ stWordOk 0#32 = true ∧ s.stVerdict (freshAcc 2) 0#32 desc = none ∧
     leNat ((List.range 8).map fun j => cellRead (s.inst 0 0#32).data (0x40 + j)) = 0) ∧
    (let s := tensor [(1, freshAcc 2)] [] [(0x40, 8#8)]
     Ready s (Instr.mxLd 1 6).shape ∧ leNat ((List.range 8).map fun j => cellRead (s.inst 0 0#32).data (0x40 + j)) % 128 ≠ 0) := by
  refine ⟨?_, ⟨by decide +kernel, by decide +kernel, by decide +kernel, by decide +kernel, by decide +kernel, by decide +kernel,
      ready_of _ _ (by decide +kernel), ready_of _ _ (by decide +kernel), by decide +kernel, by decide +kernel, by decide +kernel,
      by decide +kernel, by decide +kernel⟩, ⟨ready_of _ _ (by decide +kernel), by decide +kernel⟩⟩
  intro p hp
  simp only [List.mem_cons, List.not_mem_nil, or_false] at hp
  rcases hp with rfl | rfl | rfl
  · exact ⟨ready_shapes _ [.mxSt 1 6 4, .mxLd 1 6] recorded (by decide +kernel), by decide +kernel, by decide +kernel, .inl (by decide +kernel)⟩
  all_goals exact ⟨ready_shapes _ [.mxSt 1 6 4, .mxLd 1 6] recorded (by decide +kernel), by decide +kernel, by decide +kernel, .inr ⟨_, rfl⟩⟩

/-- Every page of a run of bytes is plain. -/
def pagesB (s : State) (va : DWord) (n : Nat) : Nat → Bool
  | 0 => true
  | f + 1 => n == 0 || (plainB s va &&
      pagesB s (va + BitVec.ofNat 64 (min n (65536 - va.toNat % 65536))) (n - min n (65536 - va.toNat % 65536)) f)

/-- The pages of a boot thread's run of bytes wait for nothing. -/
theorem checkPages_boot (s : State) (k : AccKind) (f n : Nat) (va : DWord) (h : pagesB s va n f = true) :
    s.checkPages va n k f = .ok .unit s := by
  induction f generalizing n va with
  | zero => rfl
  | succ f ih =>
    unfold State.checkPages
    split
    · rfl
    · rename_i hn
      simp only [pagesB, Bool.or_eq_true, Bool.and_eq_true, beq_iff_eq] at h
      rcases h with h | ⟨h1, h2⟩
      · exact absurd h hn
      · simp only [xlate_boot s va 1 k h1, Res.andThen]
        exact ih _ _ h2

/-- A worker with the descriptor, at 0x2000, of a collective of one element, and a communicator of one module. -/
def caller (valid : Byte) : State :=
  { loader with
    ccb := 0x4001#64
    mem := [(0x2010, 1#8), (0x4000, 1#8), (0x4002, 1#8)] ++ (if valid = 1#8 then [(0x4003, 1#8)] else []) ++ [(0x4004, 1#8)] }

/-- CollectiveResults: an arrival at a valid communicator and at one that is not valid, and an arrival evaluated again
before and after the operation has its status. -/
theorem witness_CollectiveResults :
    (∀ v ∈ [0#8, 1#8],
      let s := caller v
      let i := Instr.collRedAddF32 12 6
      let desc := (List.range 64).map fun j => s.settled 0 (0x2000 + j)
      let x := collDesc 0 desc s.t.ckey s.t.asn
      (s.core 0).linesOk ∧ Memory.wf s.mem = true ∧ s.t.kept = none ∧ Ready s i.shape ∧
      s.memCheck (s.wA i.shape) 64 .read = .ok 0x2000 s ∧ s.atMemory 0x2000 .read = true ∧ collDescOk 0 desc = true ∧
      s.ccb.getLsbD 0 = true ∧ ((s.release 0 .system).commValid 0 = decide (v = 1#8)) ∧
      s.calm 0 ∧ (s.core 0).sent = [] ∧ (∀ m, m < 2 → s.pois.contains (0x2000 / 32 + m) = false) ∧
      (((s.returnPage 0x2000 true).ownHome 0 0x2000).checkPages x.src x.srcBytes .read (pagesOf x.srcBytes)).andThen
        (fun _ u => u.checkPages x.dst x.dstBytes .write (pagesOf x.dstBytes)) =
          .ok .unit ((s.returnPage 0x2000 true).ownHome 0 0x2000)) ∧
    (∀ st ∈ [none, some 0],
      let s := { loader with t := { loader.t with kept := some { kind := .coll 0 0 } }, colls := [{ comm := 0, k := 0, status := st }] }
      Ready s (recorded (Instr.collBc 12 6).shape) ∧ (s.coll? 0 0).bind Coll.status = st) := by
  refine ⟨?_, ?_⟩
  · intro v hv
    simp only [List.mem_cons, List.not_mem_nil, or_false] at hv
    rcases hv with rfl | rfl
    all_goals
      refine ⟨by unfold Core.linesOk; decide +kernel, by decide +kernel, by decide +kernel, ready_of _ _ (by decide +kernel),
        memCheck_boot _ _ _ _ (by decide +kernel) (by decide +kernel), by decide +kernel, by decide +kernel, by decide +kernel,
        by decide +kernel, calm_empty _ _ (by decide +kernel), by decide +kernel, by decide +kernel, ?_⟩
      rw [checkPages_boot _ _ _ _ _ (by decide +kernel)]
      exact checkPages_boot _ _ _ _ _ (by decide +kernel)
  · intro st hs
    simp only [List.mem_cons, List.not_mem_nil, or_false] at hs
    rcases hs with rfl | rfl <;> exact ⟨ready_of _ _ (by decide +kernel), by decide +kernel⟩

/-- A page table that maps page 0 of address space 0 to itself (R289 to R291), and the packet, at 0x2000, of a launch of
one thread that waits for the token at 0x3000. -/
def offering (tcnt : Byte) : State :=
  { loader with
    asb := 0x80001#64, ptb := 0x10030A#64, queues := [(0, { lqd := 0x8C#64 })], launches := [(0, { st := .waiting })]
    mem := (if tcnt = 0#8 then [] else [(0x2008, tcnt)]) ++
      [(0x200C, 1#8), (0x2050, 1#8), (0x2051, 0x30#8), (0x80000, 1#8), (0x100008, 0x39#8)] }

/-- No launch waits for the scheduler, so no queue has a candidate. -/
theorem no_candidate (s : State) (q : Nat) (h : (s.launches.all fun x => !x.2.waits) = true) : s.candidateOf q = none := by
  have : (s.launches.filter fun x => x.2.q == q && x.2.waits) = [] := by
    rw [List.filter_eq_nil_iff]
    intro x hx
    have := List.all_eq_true.1 h x hx
    simp_all
  unfold State.candidateOf
  rw [this]
  rfl

/-- LaunchAndMesh, `launch`: a packet that is accepted, one that is refused, no room for a record, and no launch. -/
theorem witness_launch :
    (∀ v ∈ [1#8, 0#8],
      let s := offering v
      let bytes := (List.range 128).map fun j => s.settled 0 (0x2000 + j)
      let s3 := ((s.returnPage 0x2000 true).ownHome 0 0x2000).release 0 .system
      (s.core 0).linesOk ∧ Memory.wf s.mem = true ∧ Ready s (Instr.launch 12 6).shape ∧ s.launch? s.t.lid = some { st := .waiting } ∧
      s.memCheck (s.wA (Instr.launch 12 6).shape) 128 .read = .ok 0x2000 s ∧ s.atMemory 0x2000 .read = true ∧
      s.recordsFull 0 = false ∧ s3.refusal (s.queue 0) (packetOf bytes) true = (if v = 1#8 then 0 else 3) ∧ s.stream = false ∧
      s3.packetHeld (s.queue 0) (packetOf bytes) true = none ∧ (s3.place 0x3000).isMemory = true ∧ s3.walkerFree ∧
      (packetOf bytes).tokens.filterMap (s3.cellPa (s.queue 0).asn (s.queue 0).sup) = [0x3000] ∧
      ((packetOf bytes).tokens.filterMap (s3.cellPa (s.queue 0).asn (s.queue 0).sup)).map s3.tokenStatus = [0] ∧
      (∀ x ∈ s.launches, x.2.st ≠ .suspending) ∧ s.calm 0 ∧ (s.core 0).sent = [] ∧
      (∀ m, m < 4 → s.pois.contains (0x2000 / 32 + m) = false) ∧ ∀ q, s.candidateOf q = none) ∧
    (Ready loader (Instr.launch 12 6).shape ∧ loader.launch? loader.t.lid = none ∧ loader.t.tr = false) ∧
    ({ loader with launches := (List.range 256).map fun l => (l, {}) } : State).recordsFull 0 = true := by
  refine ⟨?_, ⟨ready_of _ _ (by decide +kernel), by decide +kernel, by decide +kernel⟩, by decide +kernel⟩
  intro v hv
  simp only [List.mem_cons, List.not_mem_nil, or_false] at hv
  rcases hv with rfl | rfl
  all_goals
    exact ⟨by unfold Core.linesOk; decide +kernel, by decide +kernel, ready_of _ _ (by decide +kernel), by decide +kernel,
      memCheck_boot _ _ _ _ (by decide +kernel) (by decide +kernel), by decide +kernel,
      by decide +kernel, by decide +kernel, by decide +kernel, by decide +kernel, by decide +kernel,
      walkerFree_open _ (by decide +kernel) (by decide +kernel) (by decide +kernel), by decide +kernel, by decide +kernel, by decide +kernel,
      calm_empty _ _ (by decide +kernel), by decide +kernel, by decide +kernel,
      fun q => no_candidate _ q (by decide +kernel)⟩

/-- A worker whose w4 names core 1 of the cluster (0, 0) and whose g6 names the message at 0x40, with the mail of core 1
and of its own core. -/
def poster (mail own : List (Word × List Byte)) : State :=
  { loader with
    t := withG worker [(4, 0x10000#32), (5, 0x40000#32), (6, 0x40#32), (8, 0x20#32)]
    cores := [(0, { mail := own }), (1, { mail := mail })] }

/-- LaunchAndMesh, the messages: a target that is none, one with room, one without, a send evaluated again, and a
mailbox that is empty and one with a message. -/
theorem witness_messages :
    (∀ i ∈ [Instr.nsend 4 6, .nmcast 5 6, .nsend 8 6, .nrecv 12 6], Ready (poster [] []) i.shape) ∧
    sendOk 0x10000 = true ∧ sendTarget 0x10000 = 1 ∧ sendOk 0x20 = false ∧ mcastOk 0x40000 = true ∧ mcastTargets 0x40000 = [1] ∧
    ((poster [] []).t.kept = none ∧ (poster [] []).t.det = false ∧ 0x40 + 64 ≤ (poster [] []).scratchBytes ∧
      (∀ k ∈ (poster [] []).cores, ∀ m ∈ k.2.inbound, m.1 ≠ (poster [] []).t.ckey) ∧ ((poster [] []).core 1).inbound = [] ∧
      (poster [] []).liveCluster 0 = true ∧ ((poster [] []).core 1).mail.length < 16 ∧ ((poster [] []).core 0).mail = []) ∧
    (let s := poster (List.replicate 16 (0#32, [])) []
     Ready s (Instr.nsend 4 6).shape ∧ (s.core 1).mail.length = 16) ∧
    (let s := { poster [] [] with t := { (poster [] []).t with kept := some { kind := .sent } } }
     Ready s (recorded (Instr.nsend 4 6).shape)) ∧
    (let s := poster [] [(5#32, List.replicate 64 7#8)]
     Ready s (Instr.nrecv 12 6).shape ∧ (s.core 0).mail = [(5#32, List.replicate 64 7#8)] ∧ (s.core 0).inbound = [] ∧
     (aget 0 (s.cluster 0).insts).isSome = true ∧ Memory.wf (s.inst 0 0#32).data = true) ∧
    ((poster [] []).core 0).linesOk ∧ (poster [] []).calm 0 ∧ ((poster [] []).core 0).sent = [] ∧
    (∀ j, j < 64 → (0x40 + j) / 16384 ∉ ((poster [] []).inst 0 0#32).lost ∧
      scratchSector (0x40 + j) ∉ ((poster [] []).inst 0 0#32).pois) :=
  ⟨ready_all _ _ (by decide +kernel), by decide, by decide +kernel, by decide, by decide, by decide +kernel, by decide +kernel,
    ⟨ready_of _ _ (by decide +kernel), by decide +kernel⟩, ready_of _ _ (by decide +kernel),
    ⟨ready_of _ _ (by decide +kernel), by decide +kernel⟩, by unfold Core.linesOk; decide +kernel,
    calm_empty _ _ (by decide +kernel), by decide +kernel, by decide +kernel⟩

/-- What every clause of Completions asks of a state. -/
def Fit (s : State) : Prop :=
  s.fr.stopped = false ∧ (s.core s.t.core).linesOk ∧ Memory.wf s.mem = true ∧ s.calm s.t.core ∧ (s.core s.t.core).sent = []

/-- A state whose core has an empty L1 is fit. -/
theorem fit_empty (s : State) (h : s.fr.stopped = false ∧ (s.core s.t.core).l1 = [] ∧ Memory.wf s.mem = true ∧
    (s.core s.t.core).sent = []) : Fit s :=
  ⟨h.1, by unfold Core.linesOk; simp [h.2.1], h.2.2.1, calm_empty _ _ h.2.1, h.2.2.2⟩

/-- A line of the scratchpad that is whole and not poisoned. -/
def CleanAt (s : State) (x : Nat) : Prop :=
  x % 64 = 0 ∧ x + 64 ≤ s.scratchBytes ∧ ∀ j, j < 64 → (x + j) / 16384 ∉ (s.inst (s.t.core / 8) s.t.lid).lost ∧
    scratchSector (x + j) ∉ (s.inst (s.t.core / 8) s.t.lid).pois

/-- The thread with a descriptor of a copy within its scratchpad. -/
def copier : State :=
  { filler [] with
    clusters := [(0, { live := true, insts := [(0, { size := 65536, data := [(0x58, 8#8), (0x5A, 1#8), (0x78, 10#8)] })] })] }

/-- Completions: the ordering actions and the prefetch; the sync cells; a copy of each kind; a wait for a job that has ended;
the matrix words; a packet that is accepted; and the messages. -/
theorem witness_Completions :
    (Fit loader ∧ ∀ i ∈ [Instr.fence .system .sc, .fenceI, .pf 0 6 3, .srel 4 6 .die, .sacq 12 6 .die, .sadd 12 6 4 .die,
      .scas 12 6 4 .die], Ready loader i.shape) ∧
    (∀ p ∈ [(filler [], Instr.tcopy 12 6 63, JobKind.tcopy), (copier, .scopy 12 6 63, .scopy), (filler [], .tfill 12 6 63, .tfill)],
      let s := p.1
      Fit s ∧ s.t.det = false ∧ (aget s.t.lid.toNat (s.cluster 0).insts).isSome = true ∧ s.queueFull = false ∧ Ready s p.2.1.shape ∧
      (s.gA p.2.1.shape).toNat = 0x40 ∧ CleanAt s 0x40 ∧
      s.copyVerdict p.2.2 none ((List.range 64).map fun j => cellRead (s.inst 0 0#32).data (0x40 + j)) = none) ∧
    (let i : Inst := { size := 65536, next := 5#32, issued := true, ended := [{ n := 1#32, state := 0, done := 1, writes := [] }] }
     let s := { filler [] with t := withG ringed.t [(4, 1#32)], clusters := [(0, { insts := [(0, i)] })] }
     Fit s ∧ (∀ i ∈ [Instr.ewait 4, .eprog 12 4], Ready s i.shape) ∧ s.gA (Instr.ewait 4).shape = 1#32 ∧
     s.jobStatus 1#32 = .ended { n := 1#32, state := 0, done := 1, writes := [] }) ∧
    (let s := tensor [] [] []
     Fit s ∧ Ready s (Instr.mxCfg 1 4).shape ∧ s.t.gsize ≠ 0#32 ∧ s.t.gid = some 0 ∧ s.gA (Instr.mxCfg 1 4).shape ≠ 0xFFFFFFFF#32 ∧
     cfgOk (s.gA (Instr.mxCfg 1 4).shape) = true ∧ s.acc? 0 1 = none) ∧
    (∀ p ∈ [(0, Instr.mmaF64 1 6 5, 4), (1, .mmaF32 1 6 5, 16), (2, .mmaBf16 1 6 5, 64), (3, .mmaF16 1 6 5, 64),
        (4, .mmaE4m3 1 6 5, 128), (5, .mmaE5m2 1 6 5, 128), (6, .mmaMx8 1 6 5, 4), (7, .mmaE2m1 1 6 5, 32)],
      let s := tensor [(1, freshAcc p.1)] [] []
      Fit s ∧ s.acc? 0 1 = some (freshAcc p.1) ∧ (freshAcc p.1).owner = some 0 ∧ s.queueFull = false ∧ s.t.det = false ∧
      (s.cluster 0).jobs = [] ∧ (freshAcc p.1).closed = false ∧ (∀ i ∈ [Instr.mxZero 1, .mxMerge 1 6 5, p.2.1], Ready s i.shape) ∧
      p.1 = (freshAcc p.1).form ∧ CleanAt s (s.gA p.2.1.shape).toNat ∧
      s.mmaVerdict p.1 ((List.range 64).map fun j => cellRead (s.inst 0 0#32).data ((s.gA p.2.1.shape).toNat + j)) = none ∧
      (s.gB p.2.1.shape).toNat = 0 ∧ (freshAcc p.1).cnt = 0 ∧ (carryLabels [] { l := Nat.log2 p.2.2, j := 0 }).length ≤ 6 ∧
      (s.gA (Instr.mxMerge 1 6 5).shape).toNat = 0x40 ∧ 0x40 + 32768 ≤ s.scratchBytes ∧ (s.gB (Instr.mxMerge 1 6 5).shape).toNat = 0 ∧
      (carryLabels [] { l := 0, j := 0 }).length ≤ 6) ∧
    Fit (offering 1#8) ∧ (Fit (poster [] []) ∧ CleanAt (poster [] []) 0x40) ∧ Fit (poster [] [(5#32, List.replicate 64 7#8)]) := by
  unfold CleanAt
  refine ⟨⟨fit_empty _ (by decide +kernel), ready_all _ _ (by decide +kernel)⟩, ?_,
    ⟨fit_empty _ (by decide +kernel), ready_all _ _ (by decide +kernel), by decide +kernel, by decide +kernel⟩,
    ⟨fit_empty _ (by decide +kernel), ready_of _ _ (by decide +kernel), by decide +kernel, by decide +kernel, by decide +kernel,
      by decide +kernel, by decide +kernel⟩, ?_, fit_empty _ (by decide +kernel),
    ⟨fit_empty _ (by decide +kernel), by decide +kernel⟩, fit_empty _ (by decide +kernel)⟩
  · intro p hp
    simp only [List.mem_cons, List.not_mem_nil, or_false] at hp
    rcases hp with rfl | rfl | rfl <;> exact ⟨fit_empty _ (by decide +kernel), by decide +kernel, by decide +kernel,
      by decide +kernel, ready_of _ _ (by decide +kernel), by decide +kernel, by decide +kernel, by decide +kernel⟩
  · intro p hp
    simp only [List.mem_cons, List.not_mem_nil, or_false] at hp
    rcases hp with rfl | rfl | rfl | rfl | rfl | rfl | rfl | rfl <;> exact ⟨fit_empty _ (by decide +kernel), by decide +kernel,
      by decide +kernel, by decide +kernel, by decide +kernel, by decide +kernel, by decide +kernel, ready_all _ _ (by decide +kernel),
      by decide +kernel⟩

/-- The address that a boot thread names is physical (R360). -/
theorem address_boot (s : State) (va : DWord) (n : Nat) (k : AccKind) (hb : s.t.boot = true) (hc : canonical va = true) :
    s.address va n k = .ok va.toNat s := by
  simp [State.address, State.untranslated, hb, hc]

/-- An empty L1 has no dirty byte. -/
theorem not_dirty (s : State) (c a : Nat) (v : Byte) (h : (s.core c).l1 = []) : ¬ WasDirty s c a v := by
  rintro ⟨l, hl, -⟩
  simp [h] at hl

/-- A worker with page 0 in the TLB, and the low bytes of the entry of region 0. -/
def region (kept : Option Kept) (low owner : Byte) : State :=
  { loader with
    t := { loader.t with kept := kept }
    mem := (if low = 0#8 then [] else [(Config.regionTable, low)]) ++ (if owner = 0#8 then [] else [(Config.regionTable + 4, owner)])
    clusters := [(0, { live := true, tlb := [readPage], insts := [(0, { size := 65536 })] })] }

/-- RegionResults: a region that is fixed, one whose switch is under way, one of the kind asked for, one that is switched,
and a switch evaluated again after its end and before it; a token that is free, one that the thread holds, and one that another thread holds. -/
theorem witness_RegionResults :
    (∀ p ∈ [(none, 2#8, 0#8), (none, 4#8, 0#8), (none, 1#8, 0#8), (none, 0#8, 0#8), (some { kind := .switch 0, a := 0x2000#64 }, 0#8, 0#8),
        (some { kind := .switch 0, a := 0x2000#64 }, 4#8, 0#8), (none, 8#8, 0#8), (none, 8#8, 5#8)],
      let s := region p.1 p.2.1 p.2.2
      (s.core 0).linesOk ∧ Memory.wf s.mem = true ∧ (∀ i ∈ [Instr.rgnAcq 6, .rgnRel 6], Ready s i.shape) ∧
      Ready s (if p.1 = none then (Instr.rgnSet 6 11).shape else recorded (Instr.rgnSet 6 11).shape) ∧
      (s.gB (Instr.rgnSet 6 11).shape).toNat = 1 ∧ s.address (s.wA (Instr.rgnSet 6 11).shape) 1 .read = .ok 0x2000 s ∧
      s.address 0x2000#64 1 .read = .ok 0x2000 s ∧ s.fr.stopped = false ∧
      (p.2.1 = 4#8 ∨ s.memCheck (s.wA (Instr.rgnAcq 6).shape) 1 .read = .ok 0x2000 s) ∧
      s.heldByPeer (regionEntryAddr 0) = false ∧ s.calm 0 ∧ (s.core 0).sent = [] ∧
      s.place 0x2000 = .device 0x2000 ∧ s.regionEntry 0 = BitVec.ofNat 64 (p.2.1.toNat + p.2.2.toNat * 2 ^ 32) ∧
      (∀ a v, ¬ WasDirty s 0 a v) ∧ s.t.handle = 0#32) := by
  intro p hp
  simp only [List.mem_cons, List.not_mem_nil, or_false] at hp
  rcases hp with rfl | rfl | rfl | rfl | rfl | rfl | rfl | rfl
  all_goals
    exact ⟨by unfold Core.linesOk; decide +kernel, by decide +kernel, ready_all _ _ (by decide +kernel), ready_of _ _ (by decide +kernel),
      by decide +kernel, address_boot _ _ _ _ (by decide +kernel) (by decide +kernel),
      address_boot _ _ _ _ (by decide +kernel) (by decide +kernel), by decide +kernel,
      (by first
        | exact .inl rfl
        | exact .inr (memCheck_boot _ _ _ _ (by decide +kernel) (by decide +kernel))),
      by decide +kernel, calm_empty _ _ (by decide +kernel), by decide +kernel, by decide +kernel, by decide +kernel,
      fun a v => not_dirty _ _ _ _ (by decide +kernel), by decide +kernel⟩

/-- RegionResults: a kind that is none, and addresses outside device memory. -/
theorem witness_region_checks :
    let s := duty (withG worker [(7, 0x40100#32), (11, 2#32), (13, 1#32)])
    s.t.tr = false ∧ s.t.kept = none ∧ (∀ i ∈ [Instr.rgnSet 6 11, .rgnSet 6 13, .rgnAcq 6, .rgnRel 6], Ready s i.shape) ∧
    1 < (s.gB (Instr.rgnSet 6 11).shape).toNat ∧ (s.gB (Instr.rgnSet 6 13).shape).toNat ≤ 1 ∧
    s.address (s.wA (Instr.rgnSet 6 13).shape) 1 .read = .ok 0x4010000000000 s ∧
    s.memCheck (s.wA (Instr.rgnAcq 6).shape) 1 .read = .ok 0x4010000000000 s ∧ s.place 0x4010000000000 = .peer 1 0 :=
  ⟨by decide +kernel, by decide +kernel, ready_all _ _ (by decide +kernel), by decide +kernel, by decide +kernel,
    address_boot _ _ _ _ (by decide +kernel) (by decide +kernel), memCheck_boot _ _ _ _ (by decide +kernel) (by decide +kernel),
    by decide +kernel⟩

/-- Shootdown: the invalidations with addresses and numbers in range and out of it, a `chime` that a thread waits for,
and lengths and addresses of pinned lines. -/
theorem witness_Shootdown :
    (let s := { loader with t := withG loader.t [(12, 0x10000#32), (15, 0x10000000#32)] }
     s.memoriesOk ∧ (s.cores.map Prod.fst).Pairwise (· < ·) ∧ (s.clusters.map Prod.fst).Pairwise (· < ·) ∧ s.t.tr = false ∧
     (∀ i ∈ [Instr.tlbi 6, .tlbi 14, .tlbiAsn 6, .tlbiAsn 12, .tlbiAll, .chime 6], Ready s i.shape) ∧
     (s.wA (Instr.tlbi 6).shape).toNat < 2 ^ 56 ∧
     ¬ ((s.wA (Instr.tlbi 14).shape).toNat < 2 ^ 56 ∨ 2 ^ 64 - 2 ^ 56 ≤ (s.wA (Instr.tlbi 14).shape).toNat) ∧
     (s.gA (Instr.tlbiAsn 6).shape).toNat < 65536 ∧ 65536 ≤ (s.gA (Instr.tlbiAsn 12).shape).toNat ∧ (∀ l ∈ s.launches, l.2.pend = [])) ∧
    (let key : Key := .page 0#16 (vpnOf 0x10000#64)
     let j := { someJob .tfill with state := 3, page := some (vpnOf 0x10000#64) }
     let s := { loader with
       ctxs := [(1, { worker with num := 1, life := .parked, park := some { reason := 6, key := key } })]
       clusters := [(0, { live := true, jobs := [j] })] }
     s.job? 0 0 = some j ∧ j.state = 3 ∧ j.asn = 0#16 ∧ j.recPend = false ∧ s.held j.lid = false ∧
     Ready s (Instr.chime 8).shape ∧ (s.wA (Instr.chime 8).shape).extractLsb' 0 16 = 0#16 ∧
     ∃ th p, aget 1 s.ctxs = some th ∧ th.life = .parked ∧ th.park = some p ∧ p.key = key ∧ p.reason = 6 ∧ th.recPend = false ∧
       th.pollAt = none) ∧
    (let s := { loader with t := withG loader.t [(12, 0x100#32), (14, 0x2001#32), (16, 100#32)] }
     (∀ i ∈ [Instr.l2pin 6 12, .l2unpin 6 12, .l2pin 6 16, .l2unpin 14 12, .l2unpin 14 0], Ready s i.shape) ∧
     (s.gB (Instr.l2pin 6 12).shape).toNat = 0x100 ∧ (s.gB (Instr.l2pin 6 16).shape).toNat % 128 ≠ 0 ∧
     (s.wA (Instr.l2unpin 14 12).shape).toNat % 128 ≠ 0 ∧ s.pins.length + 2 ≤ 4096 ∧
     ∀ i, i < 2 → s.memCheck (s.wA (Instr.l2pin 6 12).shape + BitVec.ofNat 64 (128 * i)) 128 .read = .ok (0x2000 + 128 * i) s ∧
       s.place (0x2000 + 128 * i) = .device (128 * (0x40 + i))) := by
  refine ⟨⟨by unfold State.memoriesOk Core.linesOk; decide +kernel, by decide +kernel, by decide +kernel, by decide +kernel,
      ready_all _ _ (by decide +kernel), by decide +kernel, by decide +kernel, by decide +kernel, by decide +kernel, by decide +kernel⟩,
    ⟨by decide +kernel, rfl, rfl, rfl, by decide +kernel, ready_of _ _ (by decide +kernel), by decide +kernel, _, _, rfl, rfl, rfl,
      by decide +kernel, by decide +kernel, by decide +kernel, by decide +kernel⟩,
    ⟨ready_all _ _ (by decide +kernel), by decide +kernel, by decide +kernel, by decide +kernel, by decide +kernel, fun i hi => ?_⟩⟩
  have h : i = 0 ∨ i = 1 := by omega
  rcases h with rfl | rfl <;>
    exact ⟨memCheck_boot _ _ _ _ (by decide +kernel) (by decide +kernel), by decide +kernel⟩

/-- Threads of core 0 that pause, that wait on a line, that are deterministic and that are suspended with a park. -/
def resting : State :=
  { State.reset with
    agenda := [], clusters := [(0, { live := true })]
    ctxs := [(0, { worker with pauseLeft := 1 }), (1, { worker with num := 1, life := .parked, park := some { reason := 1, key := .line 0x2000 } }),
      (2, { worker with num := 2, tctl := 0x44#32 }),
      (3, { worker with num := 3, life := .suspended, park := some { reason := 3, key := .join 0x2000 } })] }

/-- RollEvents: a live cluster, and one thread for each of the events of one thread. -/
theorem witness_RollEvents :
    (resting.cluster 0).live = true ∧ Memory.wf resting.mem = true ∧
    (∀ k, k < 4 → ∃ th, resting.thread? k = some th ∧ th.core = 0 ∧ th.num = k ∧ th.stale = false) ∧ resting.opened = [] ∧
    (∃ th, resting.thread? 0 = some th ∧ th.life ≠ .exited ∧ th.pauseLeft = 1) ∧
    (∃ th p, resting.thread? 1 = some th ∧ th.life = .parked ∧ th.park = some p ∧ p.key = .line 0x2000 ∧ th.det = false ∧ th.recPend = false ∧
      th.pollAt = none) ∧
    (∃ th, resting.thread? 2 = some th ∧ th.det = true ∧ th.life = .running) ∧
    (∃ th p, resting.thread? 3 = some th ∧ th.life = .suspended ∧ th.park = some p ∧ p.key = .join 0x2000) := by
  refine ⟨by decide +kernel, by decide +kernel, ?_, rfl, ⟨_, rfl, by decide +kernel, by decide +kernel⟩,
    ⟨_, _, rfl, rfl, rfl, by decide +kernel, by decide +kernel, by decide +kernel, by decide +kernel⟩,
    ⟨_, rfl, by decide +kernel, by decide +kernel⟩, ⟨_, _, rfl, rfl, rfl, by decide +kernel⟩⟩
  intro k hk
  have h : k = 0 ∨ k = 1 ∨ k = 2 ∨ k = 3 := by omega
  rcases h with rfl | rfl | rfl | rfl <;> exact ⟨_, rfl, by decide +kernel, by decide +kernel, by decide +kernel⟩

/-- One plane of a fill of 8 bytes at 0x1000 of the scratchpad, and of a copy within it. -/
def fillPlane (ssp : Nat) : Plane :=
  { src := 0x40#64, dst := 0x1000#64, sstr := 0, dstr := 0, rb := 8, rows := 1, ssp := ssp, dsp := 2 }

/-- A cluster with one job, one scratchpad and one accumulator. -/
def factory (j : Job) (i : Inst) (e : Acc) : State :=
  { State.reset with agenda := [], clusters := [(0, { live := true, jobs := [j], insts := [(0, i)], accs := [(1, e)] })] }

/-- EngineEvents, the copies: a job that starts, one that moves its sector, one that ends, and a page that comes back. -/
theorem witness_copies :
    (∀ p ∈ [(JobKind.tfill, 0), (.scopy, 2)],
      let j := { someJob p.1 with state := 2, planes := [fillPlane p.2] }
      let s := factory j { size := 65536 } {}
      (s.job? 0 0 = some j ∧ s.startable 0 { j with state := 1 } = true ∧ s.runnable j = true ∧ j.copies = true ∧
        s.selfMeets 0 j = false ∧ j.staged = [] ∧ j.claim = none) ∧
      (∃ x, j.sectors = [x] ∧ x.dsp = 2 ∧ 0 ≤ x.dst ∧ 0 ≤ x.src ∧ (j.kind = .tfill ∨ x.ssp = 2)) ∧
      (aget 0 (s.cluster 0).insts).isSome = true ∧ Memory.wf (s.inst 0 0#32).data = true ∧
      j.sectors.length ≤ ({ j with done := 1 } : Job).done) ∧
    (let s := factory (someJob .tfill) { size := 65536, lost := [1, 3] } {}
     (aget 0 (s.cluster 0).insts).isSome = true ∧ 3 ∈ (s.inst 0 0#32).lost ∧ (s.inst 0 0#32).lost.Nodup ∧
     Memory.wf (s.inst 0 0#32).data = true ∧ s.backingHeld 0 0#32 3 = none) := by
  refine ⟨?_, by decide +kernel⟩
  intro p hp
  simp only [List.mem_cons, List.not_mem_nil, or_false] at hp
  rcases hp with rfl | rfl
  all_goals
    exact ⟨by decide +kernel, ⟨_, rfl, by decide +kernel⟩, by decide +kernel⟩

/-- The image of an accumulator in the form f64 of which nothing has been issued (R247). -/
def emptyImage : List Byte := List.replicate 60 0#8 ++ leBytes 4 (crc32 (List.replicate 60 0#8))

/-- EngineEvents, the matrix engine: a job of each kind that has its turn, an image that is whole, and the last sector
of a store. -/
theorem witness_matrix_jobs :
    (∀ k ∈ [JobKind.mxZero, .mma 2, .mxMerge, .mxLd, .mxSt],
      let j := { someJob k with acc := 1 }
      let s := factory j { size := 65536 } (freshAcc 2)
      s.job? 0 0 = some j ∧ s.mxReady 0 j = true ∧ s.acc? 0 1 = some (freshAcc 2) ∧
      (∀ p ∈ (s.cluster 0).accs, p.1 = 1 → p.2.releasing = false) ∧ (s.inst 0 0#32).lost = [] ∧
      (aget 0 (s.cluster 0).insts).isSome = true ∧ Memory.wf (s.inst 0 0#32).data = true) ∧
    (∃ e, accOfImage (some 0) ([(emptyImage, false)].flatMap Prod.fst) = some e) ∧
    (let j := { someJob .mxSt with acc := 1, state := 2, ctl := 1#32, planes := [fillPlane 0] }
     j.ctl.toNat % 4 = 1 ∧ ∃ x, j.sectors.drop j.done = [x] ∧ x.dsp = 2 ∧ 0 ≤ x.dst ∧ x.n % ((outFmt (j.ctl.toNat / 4 % 8)).width / 8) = 0) := by
  refine ⟨?_, ⟨?_, ?_⟩⟩
  · intro k hk
    simp only [List.mem_cons, List.not_mem_nil, or_false] at hk
    rcases hk with rfl | rfl | rfl | rfl | rfl <;> decide +kernel
  · have h : (accOfImage (some 0) ([(emptyImage, false)].flatMap Prod.fst)).isSome = true := by decide +kernel
    exact Option.isSome_iff_exists.1 h
  · exact ⟨by decide +kernel, _, rfl, by decide +kernel, by decide +kernel, by decide +kernel⟩

/-- MemoryEvents: an old line, an update on its way to a sharer, walks that end in each way, a record that waits, a
switch, and a message that waits. -/
theorem witness_MemoryEvents :
    (let s := { State.reset with agenda := [], ticks := 9 * (0x7FFF * 4096), cores := [(0, { l1 := [{ n := 5 }] })] }
     s.memoriesOk ∧ (s.cores.map Prod.fst).Pairwise (· < ·) ∧ (s.core 0).line? 5 = some { n := 5 } ∧ s.sweeps { n := 5 } = true ∧
     s.calm 0) ∧
    (let u : Update := { pa := 0x280, bytes := [1#8] }
     let s := { State.reset with agenda := [], cores := [(0, { l1 := [{ n := 5, h := true }], updates := [u] })] }
     s.memoriesOk ∧ (s.core 0).updates = [u] ∧ (s.core 0).line? (u.pa / 128) = some { n := 5, h := true } ∧ u.pa % 128 + u.bytes.length ≤ 128) ∧
    (let s := { tenant with dies := [(0, { outst := [(0#16, vpnOf 0x10000#64)] })] }
     s.memoriesOk ∧ s.t.life = .running ∧ s.t.boot = false ∧ s.t.tr = false ∧ s.t.tvec = 0#64 ∧
     (s.lookupCore 0 true s.t.asn 0x2000#64).1 = .hit readPage ∧ (s.lookupCore 0 false s.t.asn 0x10000#64).1 = .miss ∧
     (s.die 0).outst.contains (s.t.asn, vpnOf 0x10000#64) = true ∧ s.walkerFree) ∧
    (∀ p ∈ [(true, Xl.bad), (false, .mig)],
      (migrating p.1).memoriesOk ∧ ((migrating p.1).lookupCore 0 false 0#16 0x2000#64).1 = p.2 ∧ (migrating p.1).walkerFree) ∧
    (let r : PendRec := { stime := 0#64, kind := 4, bytes := List.replicate 64 0#8 }
     let s := { State.reset with agenda := [], access := [(0, openEntry)], dies := [(0, { fqd := 0x1000026#64, pending := [r] })] }
     s.memoriesOk ∧ (s.die 0).pending = [r] ∧ s.ringOpen (some 3) (s.die 0).fqd (s.die 0).fprod = true ∧ r.bytes.length = 64 ∧
     touchesRegions 0x1000080 64 = false ∧
     bits (s.die 0).fqd 51 12 * 4096 + 128 + 64 ≤ 0xC000000000 ∧
     ∀ a ∈ [0x1000080, 0x1000000], s.agentGranted 3 a .write = true ∧ s.heldByPeer a = false) ∧
    (let s := { State.reset with agenda := [], access := [(7168, openEntry)], switches := [{ region := 7, kind := true }] }
     s.memoriesOk ∧ s.switches.find? (fun w => w.region == 7) = some { region := 7, kind := true } ∧
     s.agentGranted 5 (regionEntryAddr 7) .write = true ∧ s.heldByPeer (regionEntryAddr 7) = false ∧
     ∀ d, (s.core d).updates = [] ∧ (s.core d).sent = [] ∧ s.calm d) ∧
    (let th := { worker with life := .parked, park := some { reason := 8, key := .mailbox 0 } }
     let s := { State.reset with agenda := [], clusters := [(0, { live := true })], ctxs := [(0, th)], cores := [(0, { inbound := [(9, 0#32, [])] })] }
     s.memoriesOk ∧ (s.core 0).inbound = [(9, 0#32, [])] ∧ s.liveCluster 0 = true ∧ (s.core 0).mail.length < 16 ∧
     aget 0 s.ctxs = some th ∧ th.det = false ∧ th.recPend = false ∧ th.pollAt = none) := by
  unfold State.memoriesOk Core.linesOk
  refine ⟨⟨by decide +kernel, by decide +kernel, by decide +kernel, ?_, ?_⟩, by decide +kernel,
    ⟨by decide +kernel, by decide +kernel, by decide +kernel, by decide +kernel, by decide +kernel, by decide +kernel,
      by decide +kernel, by decide +kernel, walkerFree_none _ (by decide +kernel)⟩, ?_, by decide +kernel,
    ⟨by decide +kernel, by decide +kernel, by decide +kernel, by decide +kernel, fun d => ⟨rfl, rfl, calm_empty _ _ rfl⟩⟩,
    by decide +kernel⟩
  · simp only [State.sweeps, Bool.and_eq_true, Bool.not_eq_true', decide_eq_true_eq]
    exact ⟨trivial, Nat.le_trans (Nat.min_le_left _ _) (by decide +kernel)⟩
  · intro l hl hd
    obtain rfl : l = { n := 5 } := List.mem_singleton.1 hl
    exact absurd rfl hd
  · intro p hp
    simp only [List.mem_cons, List.not_mem_nil, or_false] at hp
    rcases hp with rfl | rfl <;>
      exact ⟨by decide +kernel, by decide +kernel, walkerFree_open _ (by decide +kernel) (by decide +kernel) (by decide +kernel)⟩

/-- OutsideEvents: writes that are granted and one that is not, requests of the host and of a peer, grants that are
recalled, taken back and lost, a report that is due, and an operation that may complete. -/
theorem witness_OutsideEvents :
    (let s := { State.reset with agenda := [], access := [(0, openEntry), (17408, openEntry), (18432, openEntry)] }
     Memory.wf s.mem = true ∧ s.granted (masterId 3 0) 0xC020003008 .write = true ∧ s.place 0xC020003008 = .iodA 0x3008 ∧
     s.granted (masterId 3 0) 0xC000000000 .write = false ∧ s.granted (masterId 3 0) 0x2000 .read = true ∧
     (∀ k, k < 8 → s.granted (masterId 3 0) (0x2000 + k) .read = true ∧ s.granted (masterId 3 0) (0x2000 + k) .write = true ∧
       s.heldByPeer (0x2000 + k) = false) ∧ s.homePois 0x2000 8 = false ∧
     s.peerGranted 5#10 0x2000 .read = true ∧ s.peerGranted 5#10 0x2000 .write = true ∧ s.heldByOther 5#10 0 false = false ∧ touchesRegions 0x2000 8 = false ∧ (∀ l ∈ s.launches, l.2.pend = []) ∧
     (s.queue 0).en = false) ∧
    (let s := { State.reset with agenda := [], dies := [(0, { mevd := 0x1000026#64 })] }
     let k := s.die 0
     s.granted (masterId 3 0) 0x3000 .write = false ∧ s.targetOf 0x3000 = some (0, 0) ∧ k.events = [] ∧
     (s.die 1).mevd.getLsbD 5 = false ∧ s.ringOpen none k.mevd k.mprod = true ∧ s.heldByPeer 0x1000080 = false ∧
     touchesRegions 0x1000080 32 = false ∧ s.threads = []) ∧
    (let s := { State.reset with queues := [(1, { lqd := 0x8C#64 })] }
     (s.queue 1).en = true) ∧
    (let key : Key := .page 0#16 (vpnOf 0x10000#64)
     let s := { State.reset with ctxs := [(1, { worker with num := 1, life := .parked, park := some { reason := 6, key := key } })] }
     ∃ th p, aget 1 s.ctxs = some th ∧ th.life = .parked ∧ th.park = some p ∧ p.key = key ∧ p.reason = 6 ∧ th.recPend = false ∧
       th.pollAt = none) ∧
    (let g : Grant := { page := 3, exclusive := true, holders := [5] }
     let s := { State.reset with grants := [g], directory := [g], recalls := [(3, 0)], ticks := 90000000 }
     (∃ r ∈ s.recalls, r.1 = 3 ∧ r.2 + 90000000 ≤ s.ticks) ∧
     s.grants.find? (fun g => g.page == 3) = some g ∧ s.grantOf 3 = some g ∧ g.exclusive = true ∧
     g.holders.contains (5#10 : BitVec 10).toNat = true ∧ (s.die (homeDie (65536 * 3))).mevd.getLsbD 5 = false ∧ s.dies = [] ∧ s.launches = []) ∧
    (let s := { State.reset with rrep := 0x0010000000000000#64, ticks := 9000000 }
     bits s.rrep 63 52 ≠ 0 ∧ 9000000 * bits s.rrep 63 52 ≤ s.ticks - s.reported ∧ bits s.rrep 51 7 * 128 + 128 ≤ 0xC000000000 ∧
     s.heldByPeer (bits s.rrep 51 7 * 128) = false ∧ touchesRegions (bits s.rrep 51 7 * 128) 128 = false) ∧
    (let c : Coll := { comm := 0, k := 0, lost := true }
     let s := { State.reset with colls := [c] }
     s.coll? 0 0 = some c ∧ s.collReady c = true ∧ s.collHeld c = none) ∧
    (let c : Coll := { comm := 0, k := 0, lost := true }
     let th := { worker with life := .parked, park := some { reason := 4, key := .coll 0 0 } }
     let s := { State.reset with colls := [c], ctxs := [(0, th)] }
     aget 0 s.ctxs = some th ∧ th.det = false ∧ th.recPend = false ∧ th.pollAt = none) := by
  refine ⟨by decide +kernel, by decide +kernel, by decide +kernel, ⟨_, _, rfl, rfl, rfl, by decide +kernel⟩, by decide +kernel⟩

/-- With no grants given, no peer holds a page. -/
theorem heldByPeer_none (s : State) (a : Nat) (h : s.directory = []) : s.heldByPeer a = false := by
  simp [State.heldByPeer, h]

/-- Queue 0 with one packet before it, at 0, whose TCNT is given and which waits for the token at 0x3000. -/
def offered (tcnt : Byte) : State :=
  { State.reset with
    agenda := [], asb := 0x80001#64, ptb := 0x10030A#64, queues := [(0, { lqd := 0x8C#64, tail := 1#16 })], access := [(0, openEntry)]
    mem := (if tcnt = 0#8 then [] else [(8, tcnt)]) ++ [(12, 1#8), (0x50, 1#8), (0x51, 0x30#8), (0x80000, 1#8), (0x100008, 0x39#8)] }

/-- SchedulerEvents: packets that are accepted and refused, and launches in each of their conditions. -/
theorem witness_SchedulerEvents :
    (∀ v ∈ [0#8, 1#8],
      let s := offered v
      let k := s.queue 0
      let p := packetOf (s.homeRead (bits k.lqd 47 8 * 4096 + 128 * (k.head.toNat % 2 ^ k.log.toNat)) 128)
      (Memory.wf s.mem = true ∧ s.packetWaits 0 = true ∧ s.refusal k p false = (if v = 0#8 then 3 else 0) ∧ p.ccell = 0#64 ∧
      s.nextLid = 1#32 ∧ s.launch? 1#32 = none ∧ s.launches = []) ∧ s.atRest s.nextLid ∧ p.tokens.filterMap (s.cellPa k.asn k.sup) = [0x3000] ∧ s.tokenStatus 0x3000 = 0 ∧
        (s.place 0x3000).isMemory = true ∧ s.walkerFree) ∧
    (∀ p ∈ [(0x2007, 2#8), (0x2007, 1#8)],
      let l : Launch := { tokens := [0x2000] }
      let s := { State.reset with launches := [(1, l)], mem := [p], stream := true }
      s.launch? 1#32 = some l ∧ l.st = .waiting ∧ s.tokenStatus 0x2000 = p.2.toNat ∧ s.place 0x2000 = .device 0x2000) ∧
    (let l : Launch := { st := .suspending }
     let s := { State.reset with launches := [(1, l)], stream := true }
     s.launch? 1#32 = some l ∧ l.st = .suspending ∧ s.threads = []) ∧
    (let l : Launch := { st := .ending 2, ccell := some 0x2000 }
     let th := { worker with life := .parked, park := some { reason := 9, key := .launchQueue 0#6 } }
     let s := { State.reset with launches := [(1, l)], ctxs := [(0, th)] }
     s.completes 1#32 l = some 2 ∧ touchesRegions 0x2000 128 = false ∧ s.atRest 1#32 ∧ (∀ x, 0x2000 ≤ x → x < 0x2000 + 128 → s.heldByPeer x = false) ∧
     aget 0 s.ctxs = some th ∧ th.det = false ∧ th.recPend = false ∧ th.pollAt = none) ∧
    (let l : Launch := { st := .ready, pkt := { wdog := 1 }, active := 9000000 }
     let th := { worker with num := 3, boot := false, lid := 1#32 }
     let s := { State.reset with
       launches := [(1, l)], ctxs := [(3, th)], clusters := [(0, { live := true, jobs := [{ someJob .tfill with lid := 1#32 }] })] }
     (l.overdue = true ∧ s.launch? 1#32 = some l ∧ s.ofLaunch 1#32 = [th] ∧ (s.jobsOf 1#32).length = 1 ∧ l.q = 0 ∧
       (∀ p ∈ s.ctxs, p.2.ckey = p.1 ∧ (s.hasT = true → p.1 ≠ s.t.ckey)) ∧ (s.ctxs.map Prod.fst).Pairwise (· < ·) ∧
       (s.clusters.map Prod.fst).Pairwise (· < ·)) ∧ s.atRest 1#32 ∧ ∀ n, l.st ≠ .ending n) ∧
    (let l : Launch := { st := .ready, boundary := true, pkt := { flags := 1#16 } }
     let th := { worker with boot := false, lid := 1#32, tctl := 4#32, qended := true }
     let s := { State.reset with launches := [(1, l)], ctxs := [(0, th)] }
     l.boundary = true ∧ s.launch? 1#32 = some l ∧ s.perform = [] ∧ l.st = .ready ∧ s.jobsOf 1#32 = [] ∧ s.thread? 0 = some th ∧ th.life = .running ∧ th.qop = false) ∧
    (let l : Launch := { st := .ready, pkt := { flags := 1#16 } }
     let th := { worker with boot := false, lid := 1#32, tctl := 4#32, qended := true, sbuf := [(0x2000, 7#8)] }
     let s := { State.reset with launches := [(1, l)], ctxs := [(0, th)], access := [(0, openEntry)] }
     (l.boundary = false ∧ s.boundaryReady 1#32 l = true ∧ s.ofLaunch 1#32 = [th] ∧ s.thread? 0 = some th ∧
       (∀ c ∈ th.sbuf, c.1 < 0xC000000000 ∧ s.granted th.master (128 * (c.1 / 128)) .write = true ∧ s.heldByPeer c.1 = false) ∧
       (th.sbuf.map Prod.fst).Nodup ∧ s.memoriesOk) ∧ s.calm 0) := by
  unfold State.atRest State.memoriesOk Core.linesOk
  refine ⟨?_, ?_, by decide +kernel,
    ⟨by decide +kernel, by decide +kernel, ?_, fun x _ _ => heldByPeer_none _ x rfl, by decide +kernel⟩,
    ⟨by decide +kernel, ?_, fun _ h => nomatch h⟩, by decide +kernel, ⟨by decide +kernel, calm_empty _ _ rfl⟩⟩
  · intro v hv
    simp only [List.mem_cons, List.not_mem_nil, or_false] at hv
    rcases hv with rfl | rfl <;>
      exact ⟨by decide +kernel, fun x hx => (nomatch hx), by decide +kernel, by decide +kernel, by decide +kernel,
        walkerFree_open _ (by decide +kernel) (by decide +kernel) (by decide +kernel)⟩
  · intro p hp
    simp only [List.mem_cons, List.not_mem_nil, or_false] at hp
    rcases hp with rfl | rfl <;> decide +kernel
  · intro x hx
    obtain rfl := List.mem_singleton.1 hx
    exact .inl rfl
  · intro x hx
    obtain rfl := List.mem_singleton.1 hx
    exact .inl rfl

/-- A launch of level 1 that waits for the whole scratchpad of cluster 0, and one of level 3 that holds it; the boot map
names so many clusters. -/
def rivals (n : Byte) : State :=
  { State.reset with
    agenda := [], mem := if n = 0#8 then [] else [(6, n)]
    launches := [(1, { st := .ready, level := 1, pkt := { tcnt := 1#32, nreg := 1, scratch := 1048576 } }),
      (2, { q := 1, st := .ready, level := 3, pkt := { tcnt := 1#32, nreg := 1, scratch := 1048576 }, placed := 1 })]
    clusters := [(0, { live := true, insts := [(2, { size := 1048576 })] })] }

/-- SchedulerEvents, the last clause: a candidate for which room could be freed, and one for which none could. -/
theorem witness_preemption :
    (∀ v ∈ [0#8, 1#8],
      let s := rivals v
      let s1 := s.noteLevels
      s.stream = false ∧ (∀ x ∈ s.launches, x.2.st ≠ .suspending) ∧ (s.candidateOf 0).map Prod.fst = some 1#32 ∧
      (∀ p, p < 64 → p ≠ 0 → s.candidateOf p = none) ∧
      (∀ x ∈ s.launches, x.1 = 1 → x.2.lastE ≠ some (s.effLevel x.2) ∧ s.effLevel x.2 = 1 ∧ (s.preemptee 1#32 x.2 1).isSome = true) ∧
      ((s1.launch? 1#32).map Launch.st = some .ready) ∧
      (∀ l1 ∈ s1.launches, l1.1 = 1 →
        (∀ x ∈ l1.2.tries 1#32 l1.2.placed s1.logical,
          s1.assign 1#32 l1.2 l1.2.placed ((s1.logical.drop x).headD 0xFFFF) false = none) ∧
        s1.freeable 1#32 l1.2 = decide (v = 1#8) ∧ s1.preemptee 1#32 l1.2 1 = some 2#32)) := by
  intro v hv
  simp only [List.mem_cons, List.not_mem_nil, or_false] at hv
  rcases hv with rfl | rfl <;> decide +kernel

/-- A context that is to be spilled, or that lies in the save area. -/
def sleeper (life : Life) : Thread :=
  { worker with num := 1, boot := false, lid := 1#32, life := life, pc := 0x3000#64 }

/-- A core with a save area in page 0 and the sleeper's record at 0x200. -/
def dormitory (life : Life) (mem : List Host.Cell) : State :=
  { State.reset with
    agenda := [], asb := 0x80001#64, ptb := 0x10030A#64, access := [(0, openEntry)], cores := [(0, { spla := 0x80000#64 })]
    mem := mem, ctxs := [(1, sleeper life)] }

/-- The same on a core whose other 511 places run threads of another launch, of which a spilled context is to come
back. -/
def crowded : State :=
  let s := dormitory .suspended [(0x80000, 1#8), (0x100008, 0x39#8)]
  { s with
    launches := [(1, { st := .suspended, placed := 1 }), (2, { st := .ready, placed := 1 })]
    ctxs := s.ctxs ++ [(2, { sleeper .spilled with num := 2, lid := 2#32, wanted := true })] ++
      ((List.range 511).map fun i => (3 + i, { sleeper .running with num := 3 + i, lid := 2#32 })) }

/-- A record whose bytes are 0 but for its first four and its CRC. -/
def sleeperRecord : List Byte :=
  List.replicate 4 0xFF#8 ++ List.replicate 504 0#8 ++ List.replicate 4 0xFF#8

/-- Memory with that record at 0x200, and the tables that map page 0. -/
def recordMem : List Host.Cell :=
  ([0x200, 0x201, 0x202, 0x203, 0x3FC, 0x3FD, 0x3FE, 0x3FF].map fun a => (a, 0xFF#8)) ++ [(0x80000, 1#8), (0x100008, 0x39#8)]

/-- The record lies there. -/
theorem recordMem_read : cellReadN recordMem 0x200 512 = sleeperRecord := by decide +kernel

/-- Bytes whose CRC register ends at 0 have the same CRC with bytes of 0 after them (R185, with the parameters of
assumption 44). -/
theorem crc_zeros (p : List Byte) (n : Nat) (h : crc32 p = 0xFFFFFFFF) : crc32 (p ++ List.replicate n 0#8) = 0xFFFFFFFF := by
  have key : ∀ (f : Nat → Byte → Nat), f 0 0#8 = 0 → p.foldl f 0xFFFFFFFF ^^^ 0xFFFFFFFF = 0xFFFFFFFF →
      (p ++ List.replicate n 0#8).foldl f 0xFFFFFFFF ^^^ 0xFFFFFFFF = 0xFFFFFFFF := by
    intro f hf h0
    have h1 : p.foldl f 0xFFFFFFFF = 0 := by
      have := congrArg (· ^^^ 0xFFFFFFFF) h0
      simpa [Nat.xor_assoc] using this
    have h2 : ∀ n, (List.replicate n 0#8).foldl f 0 = 0 := by
      intro n
      induction n with
      | zero => rfl
      | succ n ih => rw [List.replicate_succ, List.foldl_cons, hf, ih]
    rw [List.foldl_append, h1, h2]
    rfl
  exact key _ (by decide +kernel) h

/-- The record's CRC is right. -/
theorem sleeperRecord_crc : crc32 (sleeperRecord.take 508) = field sleeperRecord 508 4 := by
  rw [show sleeperRecord.take 508 = List.replicate 4 0xFF#8 ++ List.replicate 504 0#8 from
    List.take_left' (by rw [List.length_append, List.length_replicate, List.length_replicate]), crc_zeros _ _ (by decide +kernel)]
  decide +kernel

/-- ContextEvents: a context that can be spilled. -/
theorem witness_ContextEvents_spill :
    let s := crowded
    let th := sleeper .suspended
    (Memory.wf s.mem = true ∧ s.thread? 1 = some th ∧ th.core = 0 ∧ th.num = 1 ∧ (s.core 0).spla.getLsbD 19 = true ∧
      (s.core 0).spillHeld = false ∧ (s.core 0).spillFailed = false ∧ s.spillErr = 0 ∧ th.qb = Vector.replicate 4 none ∧
      th.sbuf = [] ∧ th.det = false ∧ s.wantsSpill th = true ∧ s.spillWaits th = none ∧ touchesRegions 512 512 = false ∧
      s.areaPa (s.core 0).spla 512 .write = some 512 ∧ th.park = none) ∧
    ∀ k, k < 512 → s.heldByPeer (512 + k) = false :=
  ⟨by decide +kernel, fun _ _ => heldByPeer_none _ _ rfl⟩

/-- ContextEvents: a record that is whole, and room for its context. -/
theorem witness_ContextEvents_refill :
    let th := { sleeper .spilled with wanted := true }
    let s := { dormitory .spilled recordMem with ctxs := [(1, th)] }
    let bs := cellReadN s.mem 0x200 512
    s.recordPa th .read = some 0x200 ∧ crc32 (bs.take 508) = field bs 508 4 ∧ (∀ j, j < 4 → field bs (472 + j) 1 < 128) ∧ field bs 18 1 = 0 ∧
    Memory.wf s.mem = true ∧ s.thread? 1 = some th ∧ th.halted = false ∧ th.killPend = false ∧ th.frec = none ∧
    th.resumeAt = none ∧ s.refills th = true ∧ s.roomNow 0 1 th.blocks = true ∧ th.reflag = false ∧ s.refillWaits th = none ∧
    (∀ p ∈ s.pois, p < 0x200 / 32 ∨ 0x200 / 32 + 16 ≤ p) ∧ th.det = false ∧ th.park = none := by
  have hb : cellReadN (dormitory .spilled recordMem).mem 0x200 512 = sleeperRecord := recordMem_read
  simp only [hb]
  exact ⟨by decide +kernel, sleeperRecord_crc, by decide +kernel⟩

/-- ContextEvents: an entry that its core may take. -/
theorem witness_ContextEvents_takeEntry :
    let e : Entry := { kind := 1, lid := 1#32, pc := 0x3000#64 }
    let l : Launch := { st := .ready, pkt := { tcnt := 1#32, nreg := 1 }, placed := 1 }
    let s := { dormitory .suspended [] with launches := [(1, l)], cores := [(0, { deque := [e] })] }
    s.pickEntry 0 0 = some e ∧ s.launch? e.lid = some l ∧ e.orphan = false ∧ stubOf (s.core 0).deque e.owner = none ∧
      (s.fetchEntry 0 e).1.isSome = true := by
  decide +kernel

/-- The debug ring of die 0 at 0x1000000 with one command for context 1. -/
def debugger (code item : Byte) (stepping : Bool) (th : Thread) : State :=
  { State.reset with
    agenda := [], launches := [(0, { st := .ready, pkt := { flags := 0x10#16 } })], ctxs := [(1, th)]
    dies := [(0, { dbgd := 0x1000026#64, stepping := stepping })]
    mem := [(0x1000000, 1#8), (0x1000080, code), (0x1000084, 1#8)] ++ if item = 0#8 then [] else [(0x1000088, item)] }

/-- DebugEvents: a command of each code, for a context that runs and for one that is halted. -/
theorem witness_DebugEvents :
    (∀ p ∈ [(1#8, 0#8, false, { worker with num := 1 }), (3#8, 0#8, true, { worker with num := 1, life := .parked }),
        (2#8, 0#8, false, { worker with num := 1, life := .suspended, halted := true }),
        (3#8, 0#8, false, { worker with num := 1, life := .suspended, halted := true }),
        (4#8, 5#8, false, { worker with num := 1, life := .suspended, halted := true }),
        (5#8, 63#8, false, { worker with num := 1, life := .suspended, halted := true }),
        (6#8, 0x11#8, false, { worker with num := 1, life := .suspended, halted := true }),
        (7#8, 0x11#8, false, { worker with num := 1, life := .suspended, halted := true }),
        (8#8, 0#8, false, { worker with num := 1, life := .suspended, halted := true }),
        (9#8, 0#8, false, { worker with num := 1, life := .suspended, halted := true })],
      let s := debugger p.1 p.2.1 p.2.2.1 p.2.2.2
      Memory.wf s.mem = true ∧ s.cmdWaits 0 = true ∧ s.cmdTarget 0 = .inr p.2.2.2 ∧ s.thread? p.2.2.2.ckey = some p.2.2.2 ∧
      p.2.2.2.park = none ∧ p.2.2.2.ckey ∉ s.issue ∧ p.2.2.2.kept = none ∧ s.cmdCode 0 = p.1.toNat ∧ s.cmdItem 0 = p.2.1.toNat ∧ s.cmdAddr 0 + 32 ≤ 0xC000000000 ∧
      s.held p.2.2.2.lid = false ∧ (s.launch? p.2.2.2.lid).map Launch.boundary = some false ∧ (s.die 0).stepping = p.2.2.1 ∧ p.2.2.2.atBrk = false ∧ p.2.1.toNat < 8 * p.2.2.2.blocks) ∧
    touchesRegions 0x1000000 160 = false ∧ ∀ p x, (debugger p 0#8 false { worker with num := 1 }).heldByPeer x = false := by
  refine ⟨?_, by decide +kernel, fun p x => heldByPeer_none _ x rfl⟩
  intro p hp
  simp only [List.mem_cons, List.not_mem_nil, or_false] at hp
  rcases hp with rfl | rfl | rfl | rfl | rfl | rfl | rfl | rfl | rfl | rfl <;> decide +kernel

/-- DebugEvents: the other statuses: a code that is none, a handle of another die, one of no context, a launch without
debug, a context that runs; and an item that is none of a halted context's. -/
theorem witness_debug_statuses :
    let th : Thread := { worker with num := 1 }
    let halted : Thread := { worker with num := 1, life := .suspended, halted := true }
    let waits := fun (s : State) => Memory.wf s.mem = true ∧ s.cmdWaits 0 = true ∧ (s.die 0).stepping = false
    let h := fun (s : State) => s.debugHandle (s.memWord (s.cmdAddr 0 + 4))
    (let s := debugger 10#8 0#8 false th
     waits s ∧ 9 < s.cmdCode 0) ∧
    (let s := { debugger 4#8 0#8 false th with mem := [(0x1000000, 1#8), (0x1000080, 4#8), (0x1000086, 8#8)] }
     waits s ∧ s.cmdCode 0 = 4 ∧ dieOf (wbits (h s) 21 10) ≠ 0) ∧
    (let s := { debugger 4#8 0#8 false th with ctxs := [] }
     waits s ∧ s.cmdCode 0 = 4 ∧ dieOf (wbits (h s) 21 10) = 0 ∧ s.byHandle (h s) = none) ∧
    (let s := { debugger 4#8 0#8 false th with launches := [(0, { st := .ready })] }
     waits s ∧ s.cmdCode 0 = 4 ∧ s.byHandle (h s) = some th ∧ ∀ l, s.launch? th.lid = some l → l.pkt.flags.getLsbD 4 = false) ∧
    (let s := debugger 4#8 0#8 false th
     waits s ∧ s.cmdTarget 0 = .inr th ∧ th.halted = false) ∧
    (let s := debugger 4#8 64#8 false halted
     waits s ∧ s.cmdTarget 0 = .inr halted ∧ s.cmdItem 0 = 64) ∧
    (let s := debugger 6#8 14#8 false halted
     waits s ∧ s.cmdTarget 0 = .inr halted ∧ s.cmdItem 0 = 14) := by
  refine ⟨by decide +kernel, by decide +kernel, by decide +kernel, ⟨by decide +kernel, by decide +kernel, by decide +kernel, ?_⟩,
    by decide +kernel, by decide +kernel, by decide +kernel⟩
  intro l hl
  obtain rfl : ({ st := .ready } : Launch) = l := Option.some.inj hl
  decide

/-- The cells that bytes from an address on take: those that are not 0. -/
def cellsOf (a : Nat) : List Byte → List Host.Cell
  | [] => []
  | b :: bs => (if b = 0#8 then [] else [(a, b)]) ++ cellsOf (a + 1) bs

/-- Memory with the header of an image at 0 (R350), of which the first bytes are given: bytes that end with four that make
its CRC register 0 before the bytes of 0 that follow, and its CRC. -/
def headerMem (top : List Byte) : List Host.Cell := cellsOf 0 top ++ cellsOf 4092 (List.replicate 4 0xFF#8)

/-- The header's first bytes: its magic number, its version, and the four bytes; then those of another version, and of a
package with more memory. -/
def headerTop : List Byte := [0x47#8, 0x4F#8, 0x4E#8, 0x47#8, 1#8, 0#8, 0#8, 0#8, 0xD2#8, 0x66#8, 0xFB#8, 0x6C#8]
def otherTop : List Byte := [0x47#8, 0x4F#8, 0x4E#8, 0x47#8, 2#8, 0#8, 0#8, 0#8, 0x3C#8, 0xC9#8, 0x4E#8, 0x7E#8]
def largerTop : List Byte :=
  [0x47#8, 0x4F#8, 0x4E#8, 0x47#8, 1#8] ++ List.replicate 15 0#8 ++ [0xC1#8, 0#8, 0#8, 0#8, 0x6E#8, 0x1C#8, 0x5C#8, 0x0F#8]

/-- The bytes of a header. -/
def header (top : List Byte) : List Byte := top ++ List.replicate (4092 - top.length) 0#8 ++ List.replicate 4 0xFF#8

/-- An image of one launch that waits. -/
def heldImage : Image := { launches := [(5, {})], head := header headerTop }

/-- A header in memory, and the image. -/
def thawing (top : List Byte) : State :=
  { State.reset with
    agenda := [], gongc := 1#64, queues := [(0, { lqd := 0x80#64 })], images := [(0, heldImage)], mem := headerMem top
    access := [(0, openEntry)] }

/-- Bytes are read in two parts. -/
theorem cellReadN_add (m : List Host.Cell) (a n k : Nat) : cellReadN m a (n + k) = cellReadN m a n ++ cellReadN m (a + n) k := by
  induction n generalizing a with
  | zero => simp [cellReadN]
  | succ n ih =>
    rw [Nat.succ_add, cellReadN, ih, cellReadN, Nat.succ_add_eq_add_succ]
    rfl

/-- Bytes that memory lists nowhere read 0. -/
theorem cellReadN_zeros (m : List Host.Cell) (a n : Nat) (h : ∀ c ∈ m, c.1 < a ∨ a + n ≤ c.1) :
    cellReadN m a n = List.replicate n 0#8 := by
  have hg : ∀ (m : List Host.Cell) (k : Nat), (∀ c ∈ m, c.1 ≠ k) → aget k m = none := by
    intro m k hk
    induction m with
    | nil => rfl
    | cons c m ih =>
      obtain ⟨i, x⟩ := c
      have h1 : i ≠ k := hk _ (List.mem_cons_self ..)
      simp only [aget, h1, if_false]
      split
      · rfl
      · exact ih fun c hc => hk c (List.mem_cons_of_mem _ hc)
  induction n generalizing a with
  | zero => rfl
  | succ n ih =>
    rw [cellReadN, ih (a + 1) (fun c hc => by have := h c hc; omega), cellRead, hg m a (fun c hc => by have := h c hc; omega)]
    rfl

/-- A header whose memory is in order: its first bytes, zeros, and the CRC. -/
def HeaderOk (top : List Byte) : Prop :=
  top.length ≤ 4092 ∧ cellReadN (headerMem top) 0 top.length = top ∧ cellReadN (headerMem top) 4092 4 = List.replicate 4 0xFF#8 ∧
  (∀ c ∈ headerMem top, c.1 < top.length ∨ 4092 ≤ c.1) ∧ crc32 top = 0xFFFFFFFF

/-- It lies at 0. -/
theorem header_read (top : List Byte) (h : HeaderOk top) : cellReadN (headerMem top) 0 4096 = header top := by
  obtain ⟨hl, h1, h2, h3, -⟩ := h
  rw [show 4096 = top.length + (4092 - top.length) + 4 by omega, cellReadN_add, cellReadN_add, h1,
    cellReadN_zeros (headerMem top) (0 + top.length) (4092 - top.length) (fun c hc => by have := h3 c hc; omega),
    show 0 + (top.length + (4092 - top.length)) = 4092 by omega, h2]
  rfl

/-- How long a header is before its CRC. -/
theorem header_length (top : List Byte) (h : HeaderOk top) :
    (top ++ List.replicate (4092 - top.length) 0#8).length = 4092 := by
  have := h.1
  rw [List.length_append, List.length_replicate]
  omega

/-- A header's CRC is right. -/
theorem header_crc (top : List Byte) (h : HeaderOk top) : crc32 ((header top).take 4092) = field (header top) 4092 4 := by
  have hc : crc32 ((header top).take 4092) = 0xFFFFFFFF := by
    rw [header, List.take_left' (header_length top h), crc_zeros _ _ h.2.2.2.2]
  have hl : field (header top) 4092 4 = 0xFFFFFFFF := by
    rw [field, header, List.drop_left' (header_length top h)]
    decide +kernel
  rw [hc, hl]

/-- A field of a header before its CRC. -/
theorem header_field (top : List Byte) (h : HeaderOk top) (o n : Nat) (ho : o + n ≤ 4092) :
    field (header top) o n = leNat (((top ++ List.replicate (4092 - top.length) 0#8).drop o).take n) := by
  have hl := header_length top h
  rw [field, header, List.drop_append_of_le_length (by rw [hl]; omega),
    List.take_append_of_le_length (by rw [List.length_drop, hl]; omega)]

/-- The three headers are in order. -/
theorem headers_ok : HeaderOk headerTop ∧ HeaderOk otherTop ∧ HeaderOk largerTop := by
  unfold HeaderOk
  decide +kernel

/-- The image passes the checks of a thaw. -/
theorem thawing_check : (thawing headerTop).thawCheck 0 = .image heldImage := by
  have ok := headers_ok.1
  have h : (thawing headerTop).homeRead 0 4096 = header headerTop := header_read _ ok
  have f0 : field (header headerTop) 0 4 = 0x474E4F47 := (header_field _ ok 0 4 (by decide)).trans (by decide +kernel)
  have f4 : field (header headerTop) 4 2 = 1 := (header_field _ ok 4 2 (by decide)).trans (by decide +kernel)
  have f6 : field (header headerTop) 6 2 = 0 := (header_field _ ok 6 2 (by decide)).trans (by decide +kernel)
  have f16 : field (header headerTop) 16 8 = 0 := (header_field _ ok 16 8 (by decide)).trans (by decide +kernel)
  have hs : (thawing headerTop).segmentsOk 0 (header headerTop) = true := by simp [State.segmentsOk, f6]
  have hi : (thawing headerTop).thawImage 0 (header headerTop) = heldImage := by
    have : (thawing headerTop).images.find? (fun x => x.2.head == header headerTop) = some (0, heldImage) := by
      show List.find? _ [(0, heldImage)] = _
      rw [List.find?_cons_of_pos]
      exact beq_self_eq_true (header headerTop)
    rw [State.thawImage, this]
    rfl
  have hl : heldImage.launches.any (fun x => (aget x.1 (thawing headerTop).launches).isSome) = false := by decide +kernel
  have hq : heldImage.launches.all (fun x =>
      let q := (thawing headerTop).queue x.2.q
      q.en && q.asn == x.2.asn && q.sup == x.2.sup && dbit q.lqd 5 == x.2.det) = true := by decide +kernel
  have hm : heldImage.launches.all (fun x => (thawing headerTop).packetMapped x.2) = true := by decide +kernel
  have hu : heldImage.units = [] := rfl
  simp only [State.thawCheck, h, header_crc _ ok, hs, hi, f0, f4, f6, f16]
  simp only [hl, hq, hm, hu]
  simp [Config.fwMajor, deviceBytes]

/-- The Gong engine may read a header of no segments, and waits for no page. -/
theorem thawing_reads (top : List Byte) (ok : HeaderOk top) (h6 : field (header top) 6 2 = 0) :
    (thawing top).manifestRefused 0 = none ∧ (thawing top).tablesHeld = none := by
  have h : (thawing top).homeRead 0 4096 = header top := header_read _ ok
  have hr : (thawing []).readRefused 4 0 4096 = none := by decide +kernel
  have hr : (thawing top).readRefused 4 0 4096 = none := hr
  refine ⟨?_, rfl⟩
  simp only [State.manifestRefused, h, hr, h6, Option.none_or]
  split <;> rfl

/-- A freeze in one of its steps, of one launch in a condition with one running thread. -/
def freezing (step : Nat) (st : LState) : State :=
  { State.reset with
    agenda := [], gongc := 1#64, gongl := 0x40000000#64, gongStep := step, stream := true, launches := [(1, { st := st, placed := 1 })]
    ctxs := [(0, { worker with boot := false, lid := 1#32 })] }

/-- GongEvents, a freeze: a GO, each of its steps, and its last one. -/
theorem witness_freeze :
    (dbit State.reset.gongc 0 = false ∧ State.reset.stream = false ∧ (State.reset.launches.map Prod.fst).Pairwise (· < ·)) ∧
    (∀ n ∈ [1, 2, 3, 4, 5, 6],
      let s := freezing n .ready
      s.tablesHeld = none ∧ dbit s.gongc 0 = true ∧ s.gongStep = n ∧ s.perform = [] ∧ s.switches = [] ∧ s.issue = [] ∧ s.cores = [] ∧
      s.launches = [(1, { st := .ready, placed := 1 })] ∧ (∀ x ∈ s.launches, x.2.boundary = false) ∧
      s.thread? 0 = some { worker with boot := false, lid := 1#32 } ∧ s.threads.all (fun th => th.kept.isNone) = true) ∧
    (let s := { State.reset with agenda := [], gongc := 1#64, gongl := 0x40000000#64, gongStep := 7, stream := true }
     dbit s.gongc 0 = true ∧ s.stream = true ∧ s.streamHeld = none ∧
       ((s.streamUnits 0 (bits s.gongl 51 12 * 4096)).1.map fun p => p.2.launches) = some []) := by
  refine ⟨by decide +kernel, ?_, by decide +kernel⟩
  intro n hn
  simp only [List.mem_cons, List.not_mem_nil, or_false] at hn
  rcases hn with rfl | rfl | rfl | rfl | rfl | rfl <;> decide +kernel

/-- GongEvents, a thaw: an image that passes, a manifest that is none, headers in order of another version and of a package
with more memory, and a write of MODE 11. -/
theorem witness_thaw :
    (let s := thawing headerTop
     dbit s.gongc 0 = true ∧ s.thawCheck 0 = .image heldImage ∧ s.manifestRefused 0 = none ∧ s.thawHeld = none ∧
      heldImage = { launches := [(5, {})], foreign := heldImage.foreign, stime := heldImage.stime, head := heldImage.head, begun := heldImage.begun } ∧
      (∀ x ∈ s.launches, x.2.pend = []) ∧ s.atRest 0#32 ∧ s.launch? 0#32 = none) ∧
    (let s := { thawing headerTop with mem := [] }
     (dbit s.gongc 0 = true ∧ s.tablesHeld = none) ∧ field (s.homeRead 0 4096) 0 4 ≠ 0x474E4F47 ∧ s.manifestRefused 0 = none) ∧
    (∀ p ∈ [(otherTop, 2, 0), (largerTop, 1, 0xC100000000)],
      ((thawing p.1).manifestRefused 0 = none ∧ (thawing p.1).tablesHeld = none) ∧
      let head := (thawing p.1).homeRead 0 4096
      field head 0 4 = 0x474E4F47 ∧ crc32 (head.take 4092) = field head 4092 4 ∧ field head 6 2 = 0 ∧ field head 4 2 = p.2.1 ∧
      field head 16 8 = p.2.2) ∧
    Config.fwMajor = 1 ∧ deviceBytes < 0xC100000000 ∧ bits 6#64 2 1 = 3 := by
  have f6 := (header_field _ headers_ok.1 6 2 (by decide)).trans (show _ = 0 by decide +kernel)
  refine ⟨⟨by decide +kernel, thawing_check, (thawing_reads _ headers_ok.1 f6).1, ?_, rfl, by decide +kernel,
      fun x hx => (nomatch hx), by decide +kernel⟩,
    ⟨by decide +kernel, ?_, by decide +kernel⟩, ?_, rfl, by decide, by decide⟩
  · rw [State.thawHeld, (thawing_reads _ headers_ok.1 f6).2, show (thawing headerTop).gongArea = 0 by decide +kernel,
      thawing_check]
    rfl
  · show field (cellReadN [] 0 4096) 0 4 ≠ _
    rw [cellReadN_zeros [] 0 4096 (fun c hc => nomatch hc)]
    decide +kernel
  · have key : ∀ (top : List Byte) (ver mem : Nat), HeaderOk top →
        (let u := top ++ List.replicate (4092 - top.length) 0#8
         leNat ((u.drop 0).take 4) = 0x474E4F47 ∧ leNat ((u.drop 6).take 2) = 0 ∧ leNat ((u.drop 4).take 2) = ver ∧
           leNat ((u.drop 16).take 8) = mem) →
        ((thawing top).manifestRefused 0 = none ∧ (thawing top).tablesHeld = none) ∧
        (let head := (thawing top).homeRead 0 4096
         field head 0 4 = 0x474E4F47 ∧ crc32 (head.take 4092) = field head 4092 4 ∧ field head 6 2 = 0 ∧ field head 4 2 = ver ∧
           field head 16 8 = mem) := by
      intro top ver mem ok hu
      have h : (thawing top).homeRead 0 4096 = header top := header_read top ok
      have h6 : field (header top) 6 2 = 0 := by rw [header_field top ok _ _ (by decide)]; exact hu.2.1
      refine ⟨thawing_reads top ok h6, ?_⟩
      simp only [h]
      refine ⟨?_, header_crc top ok, h6, ?_, ?_⟩ <;> rw [header_field top ok _ _ (by decide)]
      · exact hu.1
      · exact hu.2.2.1
      · exact hu.2.2.2
    intro p hp
    simp only [List.mem_cons, List.not_mem_nil, or_false] at hp
    rcases hp with rfl | rfl
    · exact key _ _ _ headers_ok.2.1 (by decide +kernel)
    · exact key _ _ _ headers_ok.2.2 (by decide +kernel)

/-- PackageEvents: poisonings enough, a cluster's and another island that are throttled, a package that no fatal error
has stopped, and an island that is not live yet. -/
theorem witness_PackageEvents :
    (let s := { State.reset with clusters := [(0, { poisonTimes := List.replicate 17 0 })] }
     Memory.wf s.mem = true ∧ 16 < ((s.cluster 0).poisonTimes.filter fun t => decide (s.ticks - t ≤ 32400000000000)).length) ∧
    (500 ≤ (500#12).toNat ∧ (500#12).toNat ≤ 2250 ∧ (500#12).toNat % 125 = 0 ∧ (4#4).toNat ≤ 4 ∧ 512 ≤ 521 ∧ 521 < 522) ∧
    (State.reset.fatal = none ∧ (State.reset.die 0).mevd.getLsbD 5 = false ∧ 511 ∉ State.reset.fenced ∧
      (State.reset.cluster 511).live = false) := by decide +kernel

/-- DecodeEncodeAgree and EncodeDecodeAgree: an instruction of one word and one with a literal, and their words. -/
theorem witness_codes :
    (Instr.ldm 8 6 3).wellFormed = true ∧ (∃ w ws, encodeWords 1#1 (.ldm 8 6 3) = w :: ws) ∧
    (Instr.lih 8 5).wellFormed = true ∧ (∃ w ws, encodeWords 0#1 (.lih 8 5) = w :: ws) ∧
    isLongWord 0xC00A30E0#32 = false ∧ decodeWord 0xC00A30E0#32 = some (.add 5 6 7) ∧
    isLongWord 0x06100000#32 = true ∧ fL 0x06100000#32 = 0#1 ∧ decodeLong 0x06100000#32 5#32 = some (.lih 8 5) :=
  ⟨by decide +kernel, ⟨_, _, rfl⟩, by decide +kernel, ⟨_, _, rfl⟩, by decide +kernel, by decide +kernel, by decide +kernel,
    by decide +kernel, by decide +kernel⟩

/-- A boot thread fetches from the ROM. -/
theorem fetchWord_boot (s : State) (va : DWord) (h : (s.t.boot && canonical va) = true) : s.fetchWord va = .ok (s.romWord va) s := by
  rw [Bool.and_eq_true] at h
  simp [State.fetchWord, h.1, h.2]

/-- StepRunsDecodedWords: a lone word, a LONG word, and the pair `sset fctl, g9 || fadd g5, g6, g7`. -/
theorem witness_StepRunsDecodedWords :
    (∀ p ∈ [(0xC00A30E0, Instr.add 5 6 7), (0x06100000 + 5 * 2 ^ 32, .lih 8 5)],
      let s := State.reset.withFetchWord 64 p.1
      let s0 := ({ s with issue := [], fr := { s.fr with boundary := false } } : State).fetchFrame
      let w := BitVec.ofNat 32 p.1
      (s.fatal = none ∧ s.agenda = [] ∧ s.issue = [0] ∧ s.t.life = .running ∧ s.t.ckey = 0 ∧ s.t.pc.toNat % 8 = 0 ∧
        s.t.receiver = false ∧ s.t.loads = [] ∧ s.t.owed = none) ∧
      s0.fetchWord s.t.pc = .ok w s0 ∧ s0.upset = 0 ∧ s0.t.kept = none ∧
      s0.fetchWord (s.t.pc + 4#64) = .ok (BitVec.ofNat 32 (p.1 / 2 ^ 32)) s0 ∧
      (if isLongWord w then decodeLong w (BitVec.ofNat 32 (p.1 / 2 ^ 32)) = some p.2 ∧
          let s2 := s0.frame 8 w true false
          Ready s2 p.2.shape ∧ Ready s2 (s2.liveShape p.2)
        else fL w = 1#1 ∧ decodeWord w = some p.2 ∧
          let s2 := s0.frame 4 w false (bit1 (fK w))
          Ready s2 p.2.shape ∧ Ready s2 (s2.liveShape p.2))) ∧
    (let s := (State.reset.withFetchWord 32 0x0900480A).putRom 0x100000004 0x480A30E0#32
     let s0 := ({ s with issue := [], fr := { s.fr with boundary := false } } : State).fetchFrame
     let s2 := s0.frame 8 0x0900480A#32 true false
     let c := Instr.sset 9 0x0A
     let a := Instr.fadd 5 6 7
     s0.fetchWord s.t.pc = .ok 0x0900480A#32 s0 ∧ s0.fetchWord (s.t.pc + 4#64) = .ok 0x480A30E0#32 s0 ∧ fL 0x0900480A#32 = 0#1 ∧
     fK 0x0900480A#32 = 0#1 ∧ isLongWord 0x0900480A#32 = false ∧ fK 0x480A30E0#32 = 1#1 ∧ fL 0x480A30E0#32 = 0#1 ∧
     decodeWord 0x0900480A#32 = some c ∧ decodeWord 0x480A30E0#32 = some a ∧
     (match s2.prologue [(0x0900480A#32, false, c), (0x480A30E0#32, true, a)] with
       | .ok _ t => t = s2
       | .stop _ => False) ∧
     holdsAfter (exec c (s2.paced c)) fun s3 => !s3.fr.stopped && s3.t.life != .exited &&
       holdsAfter (exec a { s3 with fr := { s3.fr with word := 0x480A30E0#32, aw := true, latch := some s2.src } }) fun _ => true) := by
  refine ⟨?_, ?_⟩
  · intro p hp
    simp only [List.mem_cons, List.not_mem_nil, or_false] at hp
    rcases hp with rfl | rfl
    · refine ⟨by decide +kernel, ?_, by decide +kernel, by decide +kernel, ?_, ?_⟩
      · exact (fetchWord_boot _ _ (by decide +kernel)).trans (congrArg (Res.ok · _) (by decide +kernel))
      · exact (fetchWord_boot _ _ (by decide +kernel)).trans (congrArg (Res.ok · _) (by decide +kernel))
      · exact ⟨by decide +kernel, by decide +kernel, ready_of _ _ (by decide +kernel), ready_of _ _ (by decide +kernel)⟩
    · refine ⟨by decide +kernel, ?_, by decide +kernel, by decide +kernel, ?_, ?_⟩
      · exact (fetchWord_boot _ _ (by decide +kernel)).trans (congrArg (Res.ok · _) (by decide +kernel))
      · exact (fetchWord_boot _ _ (by decide +kernel)).trans (congrArg (Res.ok · _) (by decide +kernel))
      · exact ⟨by decide +kernel, ready_of _ _ (by decide +kernel), ready_of _ _ (by decide +kernel)⟩
  · refine ⟨?_, ?_, by decide +kernel, by decide +kernel, by decide +kernel, by decide +kernel, by decide +kernel, by decide +kernel,
      by decide +kernel, ?_, by decide +kernel⟩
    · exact (fetchWord_boot _ _ (by decide +kernel)).trans (congrArg (Res.ok · _) (by decide +kernel))
    · exact (fetchWord_boot _ _ (by decide +kernel)).trans (congrArg (Res.ok · _) (by decide +kernel))
    · rfl

/-- R360, R363: the words of the two rectangles, the first word of the primary's program, and branches of its listing with
offsets counted by hand. -/
theorem test_boot_rom : bootRects 0 = [0x0003C3E1#32, 0x0003C400#32] ∧ (assemble (bootProgram 0)).head?.bind decodeWord = some (.addi 21 0 1) ∧
    ∀ i ∈ [Instr.bz 15 9, .bnz 15 (-7), .beq 7 25 3, .bnz 15 (-10)], some i ∈ (assemble (bootProgram 0)).map decodeWord := by
  decide +kernel

/-- The boot thread of cluster 1, a receiver, whose mailbox holds a message of kind 1 from core 0 (R362, R363). -/
def receiving : State :=
  { State.reset with
    agenda := [], t := { worker with core := 8, receiver := true }
    clusters := [(1, { live := true, insts := [(0, { size := 65536 })] })]
    cores := [(8, { mail := [(0x80000000#32, 1#8 :: List.replicate 63 0#8)] })] }

/-- R363: a receiver in STATE 0 that takes a message of kind 1 from the primary goes to STATE 1. -/
theorem test_receiver : receiving.recvTurn.recvWord .state = 1 ∧ receiving.recvTurn.recvWord .errs = 0 := by decide +kernel

/-- TablesStayInOrder: a state with a context, a line and a launch, whose tables are in order. -/
theorem witness_TablesStayInOrder :
    let s := { duty worker with
      ctxs := [(1, { worker with num := 1 })], cores := [(0, { l1 := [{ n := 5 }, { n := 3 }] })], launches := [(1, {}), (2, {})]
      agenda := [.hostLinkFailure] }
    s.orderly ∧ holdsAfter (step s) fun _ => true := by
  unfold State.orderly State.memoriesOk Core.linesOk
  decide +kernel

/-- PackageGoesOn: a state with an agenda, one that a fatal error has stopped, and one that then has a reset before it.
MemoryStaysCanonical: a state from which a step is taken, with its memory in canonical form. -/
theorem witness_PackageGoesOn :
    (State.reset.fatal = none ∧ State.reset.issue = [] ∧ State.reset.agenda = [.packageReset []] ∧ State.reset.threads = [] ∧
      State.reset.eventWaits (.packageReset []) = none ∧ Memory.wf State.reset.mem = true) ∧
    (let s := { duty worker with issue := [1], agenda := [.hostLinkFailure, .scratchPageRefill 0 0#32 0] }
     s.fatal = none ∧ s.issue ≠ [] ∧ s.agenda.find? Instr.follows = some (.scratchPageRefill 0 0#32 0)) ∧
    (let s := { State.reset with fatal := some 1#32 }
     s.fatal ≠ none ∧ s.agenda = [.packageReset []]) ∧
    (let s := { State.reset with fatal := some 1#32, agenda := [] }
     s.fatal ≠ none ∧ s.agenda.head? = none) ∧
    holdsAfter (step State.reset) fun _ => true := by decide +kernel

end

end Sys2Proof.Tests
end

section
/-! The conversions of R113: the words that a conversion leaves for its result, the integer that IntToInt gives (R47),
and what a ready conversion writes. -/

namespace Sys2Proof.Machine

/-- A type is held in a w pair exactly where it has 64 bits (R39, R40). -/
theorem NumTy.wide_iff (t : NumTy) : t.wide = true ↔ t.bits = 64 := by
  cases t with
  | flt f => cases f <;> decide
  | int u => exact beq_iff_eq

/-- The bits of a conversion's source, by its width alone. -/
theorem cvtSource_eq (src : NumTy) (l : List Reg) :
    cvtSource src l = if src.bits = 64 then (wOf l).toNat else (gOf l).toNat % 2 ^ src.bits := by
  simp only [cvtSource, NumTy.wide_iff]

/-- A result of a type other than i8 and i16 is zero-extended to its register or its pair. -/
theorem cvtWords_eq (dst : NumTy) (v : Nat) (h8 : dst ≠ tyI8) (h16 : dst ≠ tyI16) :
    cvtWords dst v = if dst.bits = 64 then wordsOf (BitVec.ofNat 64 v) else [BitVec.ofNat 32 v] := by
  unfold cvtWords
  split
  · exact absurd rfl h8
  · exact absurd rfl h16
  · simp only [NumTy.wide_iff]

/-! ### Conversions with a rounding field -/

/-- The mode of a rounding field: `fctl` decides at code 111 alone (R48). -/
theorem RmField.mode_eq (fctl : Word) (rm : RmField) :
    RmField.mode fctl rm = if rm = .dyn then Rm.ofFctl fctl else RmField.mode 0#32 rm := by
  cases rm <;> rfl

/-- The result of a conversion and its flags, from the operands of the word (R45, R48). -/
def State.cvtResult (s : State) (sh : Shape) (dst src : NumTy) (rm : RmField) (sat : Bool) : Nat × Flags :=
  convert src dst (if rm = .dyn then Rm.ofFctl s.src.fctl else RmField.mode 0#32 rm) sat
    (if rm = .rs then (s.gB sh).toNat else 0)
    (if src.bits = 64 then (s.wA sh).toNat else (s.gA sh).toNat % 2 ^ src.bits)

/-- Without `.rs` a conversion reads no random operand, and its gB counts as 0. -/
theorem gB_cvtShape (s : State) (dst src : NumTy) (d a b : RegNo) (rm : RmField) :
    (s.gB (cvtShape dst src d a b rm)).toNat =
      if rm = .rs then (s.gB (cvtShape dst src d a b rm)).toNat else 0 := by
  split
  · rfl
  · rename_i h
    have hb : (s.vals (cvtShape dst src d a b rm)).b = [] := by
      simp only [State.vals, cvtShape, rsOpd, if_neg h, opRegs, List.length_nil, List.take_zero]
    rw [State.gB, hb]
    rfl

/-- A conversion with its operands ready puts the words of its result. -/
theorem Ready.cvt {s : State} {dst src : NumTy} {d a b : RegNo} {rm : RmField}
    (h : Ready s (cvtShape dst src d a b rm)) (sat : Bool) :
    let r := s.cvtResult (cvtShape dst src d a b rm) dst src rm sat
    s.cvt dst src d a b rm sat = .next (s.put (cvtShape dst src d a b rm) (cvtWords dst r.1) r.2) := by
  have hr : s.cvtResult (cvtShape dst src d a b rm) dst src rm sat = convert src dst (RmField.mode s.src.fctl rm) sat
      (s.gB (cvtShape dst src d a b rm)).toNat (cvtSource src (s.vals (cvtShape dst src d a b rm)).a) := by
    rw [RmField.mode_eq, cvtSource_eq, gB_cvtShape]
    rfl
  rw [hr, State.cvt, h.within]
  rfl

/-- The word converts from one type to another under a rounding field, and its destination is neither i8 nor i16 (R77). -/
structure IsCvt (i : Instr) (dst src : NumTy) (d a b : RegNo) (rm : RmField) (sat : Bool) : Prop where
  shape : i.shape = cvtShape dst src d a b rm
  runs : ∀ s, exec i s = s.cvt dst src d a b rm sat
  not_i8 : dst ≠ tyI8
  not_i16 : dst ≠ tyI16

/-- A ready word that puts the words of a 64-bit result, or of a narrower one, gives it in wD or gD. -/
theorem Ready.gives_of_width {s : State} {i : Instr} (h : Ready s i.shape) (d : RegNo) (wide : Prop) [Decidable wide]
    (hd : i.shape.dst = if wide then .w d else .g d) (v : DWord) (w : Word) (f : Flags)
    (he : exec i s = .next (s.put i.shape (if wide then wordsOf v else [w]) f)) :
    if wide then GivesW s i d v f else GivesG s i d w f := by
  by_cases hw : wide
  · rw [if_pos hw] at hd he ⊢
    exact h.givesW d hd (fun _ => v) (fun _ => f) (by rw [he, h.within])
  · rw [if_neg hw] at hd he ⊢
    exact h.givesG d hd (fun _ => w) (fun _ => f) (by rw [he, h.within])

/-- A ready conversion with a rounding field writes the result of Convert (R45, R113). -/
theorem IsCvt.gives {i : Instr} {dst src : NumTy} {d a b : RegNo} {rm : RmField} {sat : Bool}
    (hc : IsCvt i dst src d a b rm sat) {s : State} (h : Ready s i.shape) :
    let r := s.cvtResult i.shape dst src rm sat
    if dst.bits = 64 then GivesW s i d (BitVec.ofNat 64 r.1) r.2 else GivesG s i d (BitVec.ofNat 32 r.1) r.2 := by
  intro r
  refine h.gives_of_width d (dst.bits = 64) ?_ _ _ _ ?_
  · simp only [hc.shape, cvtShape, NumTy.wide_iff]
  · have hn := Ready.cvt (hc.shape ▸ h) sat
    rw [hc.runs, hn, ← hc.shape, cvtWords_eq dst _ hc.not_i8 hc.not_i16]

/-! ### Conversions between integer types -/

/-- The encoding of a two's complement value is that value (R39, R41). -/
theorem IntTy.valueOf_toNat (n : Nat) (sg : Bool) (v : BitVec n) :
    IntTy.valueOf { signed := sg, width := n } v.toNat = if sg then v.toInt else v.toNat := by
  cases sg
  · simp only [IntTy.valueOf, Nat.mod_eq_of_lt v.isLt, Bool.false_and, Bool.false_eq_true, if_false]
  · simp only [IntTy.valueOf, Nat.mod_eq_of_lt v.isLt, Bool.true_and, if_true, BitVec.toInt_eq_msb_cond,
      BitVec.msb_eq_getLsbD_last, BitVec.getLsbD, Int.natCast_pow, Int.cast_ofNat_Int]

/-- The operand of a conversion from a 32-bit or a 64-bit integer type, as its register or pair holds it. -/
theorem valueOf_cvtSource (u : IntTy) (l : List Reg) (hu : u.width = 32 ∨ u.width = 64) :
    u.valueOf (cvtSource (.int u) l) =
      if u.width = 64 then (if u.signed then (wOf l).toInt else (wOf l).toNat)
      else if u.signed then (gOf l).toInt else (gOf l).toNat := by
  obtain ⟨sg, n⟩ := u
  obtain rfl | rfl : n = 32 ∨ n = 64 := hu
  · have hs : cvtSource (.int ⟨sg, 32⟩) l = (gOf l).toNat := (cvtSource_eq _ _).trans (Nat.mod_eq_of_lt (gOf l).isLt)
    rw [hs]
    exact IntTy.valueOf_toNat 32 sg (gOf l)
  · have hs : cvtSource (.int ⟨sg, 64⟩) l = (wOf l).toNat := cvtSource_eq _ _
    rw [hs]
    exact IntTy.valueOf_toNat 64 sg (wOf l)

/-- The integer that a conversion to an integer type gives: with `.sat` the nearest value of the type (R47). -/
def IntTy.fit (t : IntTy) (sat : Bool) (x : Int) : Int := if sat then max t.minInt (min t.maxInt x) else x

theorem IntTy.minInt_le_maxInt (t : IntTy) : t.minInt ≤ t.maxInt := by
  have h1 : (0 : Int) < 2 ^ (t.width - 1) := Int.pow_pos (by decide)
  have h2 : (0 : Int) < 2 ^ t.width := Int.pow_pos (by decide)
  unfold IntTy.minInt IntTy.maxInt
  split <;> omega

/-- IntToInt clamps with `.sat` alone, and raises OF where that changes the value (R47). -/
theorem intToInt_eq (t : IntTy) (sat : Bool) (x : Int) :
    intToInt t sat x = (t.fit sat x, if sat && decide (t.fit sat x ≠ x) then flagOF else noFlags) := by
  have hle := t.minInt_le_maxInt
  cases sat with
  | false => rfl
  | true =>
    simp only [intToInt, IntTy.fit, if_true, Bool.true_and, decide_eq_true_eq]
    split
    · rename_i hx
      rw [Int.min_eq_left (Int.le_of_lt hx), Int.max_eq_right hle, if_pos (Int.ne_of_lt hx)]
    · rename_i hx
      rw [Int.min_eq_right (Int.not_lt.1 hx)]
      split
      · rename_i hn
        rw [Int.max_eq_left (Int.le_of_lt hn), if_pos (Int.ne_of_gt hn)]
      · rename_i hn
        rw [Int.max_eq_right (Int.not_lt.1 hn), if_neg (fun h => h rfl)]
        rfl

/-- An encoding read at any width is the integer's low bits, cut or zero-extended to that width (R39). -/
theorem IntTy.ofNat_encode (t : IntTy) (y : Int) (n : Nat) :
    BitVec.ofNat n (t.encode y) = (BitVec.ofInt t.width y).setWidth n := by
  apply BitVec.eq_of_toNat_eq
  simp only [IntTy.encode, BitVec.toNat_ofNat, BitVec.toNat_setWidth, BitVec.toNat_ofInt, Int.natCast_pow,
    Int.cast_ofNat_Int]

/-- An encoding read at its own width is the integer's low bits. -/
theorem IntTy.ofNat_width_encode (t : IntTy) (y : Int) : BitVec.ofNat t.width (t.encode y) = BitVec.ofInt t.width y := by
  rw [IntTy.ofNat_encode, BitVec.setWidth_eq]

/-- The word that an integer result of at most 32 bits leaves in gD (R39). -/
def IntTy.word (t : IntTy) (y : Int) : Word :=
  if t.signed then (BitVec.ofInt t.width y).signExtend 32 else (BitVec.ofInt t.width y).zeroExtend 32

/-- i8 and i16 are sign-extended, n8 and n16 zero-extended, and a 64-bit result fills its pair (R39, R113). -/
theorem cvtWords_encode (t : IntTy) (y : Int) (ht : t.width ∈ [8, 16, 32, 64]) :
    cvtWords (.int t) (t.encode y) =
      if t.width = 64 then wordsOf (BitVec.ofInt 64 y) else [t.word y] := by
  obtain ⟨sg, n⟩ := t
  simp only [List.mem_cons, List.not_mem_nil, or_false] at ht
  obtain rfl | rfl | rfl | rfl := ht
  · cases sg
    · exact congrArg ([·]) (IntTy.ofNat_encode ⟨false, 8⟩ y 32)
    · exact congrArg ([BitVec.signExtend 32 ·]) (IntTy.ofNat_width_encode ⟨true, 8⟩ y)
  · cases sg
    · exact congrArg ([·]) (IntTy.ofNat_encode ⟨false, 16⟩ y 32)
    · exact congrArg ([BitVec.signExtend 32 ·]) (IntTy.ofNat_width_encode ⟨true, 16⟩ y)
  · cases sg
    · exact congrArg ([·]) (IntTy.ofNat_encode ⟨false, 32⟩ y 32)
    · exact congrArg ([·]) ((IntTy.ofNat_width_encode ⟨true, 32⟩ y).trans (BitVec.signExtend_eq _).symm)
  · cases sg <;> exact congrArg wordsOf (IntTy.ofNat_width_encode ⟨_, 64⟩ y)

/-- The word converts between integer types, from 32 or 64 bits (R47, R113). -/
structure IsCvtI (i : Instr) (dst src : NumTy) (d a : RegNo) (sat : Bool) : Prop where
  shape : i.shape = cvtShapeI dst src d a
  runs : ∀ s, exec i s = s.cvtI dst src d a sat
  dst_bits : dst.bits ∈ [8, 16, 32, 64]
  src_bits : src.bits = 32 ∨ src.bits = 64

/-- The value of a conversion's operand of an integer type, as its register or pair holds it. -/
def State.intOperand (s : State) (sh : Shape) (u : IntTy) : Int :=
  if u.width = 64 then (if u.signed then (s.wA sh).toInt else (s.wA sh).toNat)
  else if u.signed then (s.gA sh).toInt else (s.gA sh).toNat

/-- A ready conversion between integer types writes the integer that fits, with OF where `.sat` changed it (R47). -/
theorem IsCvtI.gives {i : Instr} {t u : IntTy} {d a : RegNo} {sat : Bool} (hc : IsCvtI i (.int t) (.int u) d a sat)
    {s : State} (h : Ready s i.shape) :
    let x := s.intOperand i.shape u
    let y := t.fit sat x
    let f := if sat && decide (y ≠ x) then flagOF else noFlags
    if t.width = 64 then GivesW s i d (BitVec.ofInt 64 y) f else GivesG s i d (t.word y) f := by
  intro x y f
  have hx : u.valueOf (cvtSource (.int u) (s.vals i.shape).a) = x := valueOf_cvtSource u _ hc.src_bits
  have hr : convert (.int u) (.int t) .rne sat 0 (cvtSource (.int u) (s.vals i.shape).a) = (t.encode y, f) := by
    simp only [convert, hx, intToInt_eq]
    rfl
  refine h.gives_of_width d (t.width = 64) ?_ _ _ _ ?_
  · rw [hc.shape]
    simp only [cvtShapeI, NumTy.wide_iff, NumTy.bits]
  · rw [← cvtWords_encode t y hc.dst_bits, hc.runs, State.cvtI, ← hc.shape, h.within, hr]

end Sys2Proof.Machine
end

section
open Sys2Proof Sys2Proof.Machine

/-- Settles O13: every listed word is a conversion of its two types, and a ready conversion writes the result of
Convert, or the integer that fits. -/
theorem conversionResults : Obligations.ConversionResults := by
  unfold Obligations.ConversionResults
  refine ⟨fun s d a b rm sat p hp h => ?_, fun s d a sat p hp h t u ht hu => ?_⟩
  · have hc : IsCvt p.1 p.2.1 p.2.2 d a b rm sat := by
      clear h
      revert p
      simp only [List.forall_mem_cons, List.not_mem_nil, false_implies, implies_true, and_true]
      and_intros <;> exact ⟨rfl, fun _ => rfl, by decide, by decide⟩
    exact hc.gives h
  · have hc : IsCvtI p.1 p.2.1 p.2.2 d a sat := by
      clear h ht hu
      revert p
      simp only [List.forall_mem_cons, List.not_mem_nil, false_implies, implies_true, and_true]
      and_intros <;> exact ⟨rfl, fun _ => rfl, by decide, by decide⟩
    rw [ht, hu] at hc
    exact hc.gives h
end

section
/-! The round trip of any instruction through the encoder and the decoder (R61 to R81), from those of its forms. -/

namespace Sys2Proof.Laws.RoundTrip

/-- Every instruction decodes back from its words: one lemma for each constructor, in the order of `Instr`. -/
theorem roundTrip (i : Instr) : Statement i :=
  i.casesOn
    rollCycle chimeArrival pauseEnd watchPoll sLineSweep coherentUpdate walk pendingRecordWrite spill refill takeEntry
    tceJobRun tceSectorWrite tceJobEnd mmaJob mxMergeJob mxZeroJob mxStJob mxLdJob scratchPageRefill switch lqdWrite
    doorbell packetAcceptance launchReady aging launchSuspended launchCompletion watchdog abort quantumEnd
    quantumBoundary freeze checkpoint thaw gongBadMode hostLinkFailure fatalError poisonThreshold throttle
    islandResetRelease messageArrival chimePortWrite registerWrite hostRequest peerRequest grantRecall recallTimeout
    collCompletion residencyReport halt cont step rdreg wrreg rdsreg wrsreg rdpc wrpc packageReset level1Turn
    memberLost hostLinkDown bra call bz bnz beq bne blt bge blo bhs spawn li lih callx callr ret jr exit pause tdone
    join tkill tresume trap sget sset brk tret fenceI tlbi tlbiAsn tlbiAll chime l2pin l2unpin rgnSet rgnAcq rgnRel
    waiteqW waitneW waiteqD waitneD ld8s ld8z ld16s ld16z ld32 ld64 ld128 pf st8 st16 st32 st64 st128 ldm stm ld8sOrd
    ld8zOrd ld16sOrd ld16zOrd ld32Ord ld64Ord ld128Ord fence st8Ord st16Ord st32Ord st64Ord st128Ord amoAddW amoAddD
    amoAndW amoAndD amoOrW amoOrD amoXorW amoXorD amoMinW amoMinD amoMaxW amoMaxD amoMinnW amoMinnD amoMaxnW amoMaxnD
    amoSwpW amoSwpD amoCasW amoCasD amoFaddW amoFaddD amoFminW amoFminD amoFmaxW amoFmaxD srel sacq sadd scas rbind
    rwf rwe radvp radvc raddr rbytes qbind conv gbar gbc gbcD gdis gredAddF32 gredAddF64 gredCaddF32 gredAddI32
    gredAddI64 gredMaxF32 gredMinF32 gredMaxF64 gredMinF64 gredMaxI32 gredMinI32 gredAnd gredOr gredXor tcopy scopy
    tfill ewait eprog mxCfg mxZero mxLd mxSt mxMerge mmaF64 mmaF32 mmaBf16 mmaF16 mmaE4m3 mmaE5m2 mmaMx8 mmaE2m1
    launch nsend nrecv nmcast collRedAddF32 collRedAddF64 collRedCaddF32 collRedAddI32 collRedAddI64 collRedMaxF32
    collRedMinF32 collRedMaxF64 collRedMinF64 collRedMaxI32 collRedMinI32 collRedAnd collRedOr collRedXor collBc
    collAg add sub mul mulh mulhn div divn rem remn min max minn maxn abs and or xor shl shr sar clz ctz popc brev bfx
    bfi slt sltn seq sne rng addD subD mulD shlD shrD sarD andD orD xorD minD maxD minnD maxnD sltD sltnD seqD addi
    andi ori xori slti shli shri sari lui fadd fsub fmul fdiv fsqrt fmin fmax fabs fneg feq flt fle funOrd fclass frnd
    dadd dsub dmul ddiv dsqrt dmin dmax dabs dneg deq dlt dle dunOrd dclass drnd p2addH p2subH p2mulH p2fmaH p2minH
    p2maxH p2addB p2subB p2mulB p2fmaB p2minB p2maxB cvtF64F32 cvtF64F16 cvtF64Bf16 cvtF64E4m3 cvtF64E5m2 cvtF64I32
    cvtF64N32 cvtF64I64 cvtF64N64 cvtF32F64 cvtF32F16 cvtF32Bf16 cvtF32E4m3 cvtF32E5m2 cvtF32E2m1 cvtF32E8m0
    cvtF32E3m5 cvtF32I32 cvtF32N32 cvtF32I64 cvtF32N64 cvtF16F64 cvtF16F32 cvtF16Bf16 cvtF16E4m3 cvtF16E5m2 cvtBf16F64
    cvtBf16F32 cvtBf16F16 cvtBf16E4m3 cvtBf16E5m2 cvtE4m3F64 cvtE4m3F32 cvtE4m3F16 cvtE4m3Bf16 cvtE4m3E5m2 cvtE5m2F64
    cvtE5m2F32 cvtE5m2F16 cvtE5m2Bf16 cvtE5m2E4m3 cvtE2m1F64 cvtE2m1F32 cvtE2m1F16 cvtE2m1Bf16 cvtE8m0F32 cvtE3m5F32
    cvtI32F64 cvtI32F32 cvtI32I64 cvtN32F64 cvtN32F32 cvtN32N64 cvtI64F64 cvtI64F32 cvtI64I32 cvtN64F64 cvtN64F32
    cvtN64N32 cvtI8I32 cvtN8I32 cvtI16I32 cvtN16I32 cvtpE4m3 cvtpE5m2 cvtpE2m1Low cvtpE2m1High cvtpF16 cvtpBf16 ffma
    dfma imad sel
end Sys2Proof.Laws.RoundTrip
end

section
open Sys2Proof Sys2Proof.Machine

/-- Settles O53: by cases on the constructor, each of which has its own round trip. -/
theorem decodeEncodeAgree : Obligations.DecodeEncodeAgree := by
  unfold Obligations.DecodeEncodeAgree
  exact Laws.RoundTrip.roundTrip
end

section
/-! Words that the maps read are the words that the encoder writes (R61 to R81, R386): a word is put together again from
the fields of its format, and the maps fix the fields that an instruction does not hold. -/

namespace Sys2Proof

/-! ### A word from its fields

One lemma for each format (R66): a word with given fields is the format's word of these fields. -/

/-- A field and the one below it are one field. -/
theorem join_fields {w s t m n : Nat} {x : BitVec w} (h : s = t + n) :
    x.extractLsb' s m ++ x.extractLsb' t n = x.extractLsb' t (m + n) :=
  BitVec.extractLsb'_append_extractLsb'_eq_extractLsb' h

theorem encRR_eq {w : Word} {k : BitVec 1} {op : BitVec 7} {d a b : RegNo} {f : BitVec 5}
    (hk : fK w = k) (hop : (fOp w).toNat = op.toNat) (hd : fD w = d) (ha : fA w = a) (hb : fB w = b)
    (hf : (fF w).toNat = f.toNat) : encRR (fL w) k op d a b f = w := by
  obtain rfl := BitVec.eq_of_toNat_eq hop
  obtain rfl := BitVec.eq_of_toNat_eq hf
  subst hk hd ha hb
  unfold encRR fL fK fOp fD fA fB fF
  iterate 6 rw [join_fields (by decide)]
  exact BitVec.extractLsb'_eq_self

theorem encRI_eq {w : Word} {k : BitVec 1} {op : BitVec 7} {d a : RegNo} {imm : BitVec 11}
    (hk : fK w = k) (hop : (fOp w).toNat = op.toNat) (hd : fD w = d) (ha : fA w = a) (himm : fImm11 w = imm) :
    encRI (fL w) k op d a imm = w := by
  obtain rfl := BitVec.eq_of_toNat_eq hop
  subst hk hd ha himm
  unfold encRI fL fK fOp fD fA fImm11
  iterate 5 rw [join_fields (by decide)]
  exact BitVec.extractLsb'_eq_self

theorem encRU_eq {w : Word} {k : BitVec 1} {op : BitVec 7} {d : RegNo} {imm : BitVec 17}
    (hk : fK w = k) (hop : (fOp w).toNat = op.toNat) (hd : fD w = d) (himm : fImm17 w = imm) :
    encRU (fL w) k op d imm = w := by
  obtain rfl := BitVec.eq_of_toNat_eq hop
  subst hk hd himm
  unfold encRU fL fK fOp fD fImm17
  iterate 4 rw [join_fields (by decide)]
  exact BitVec.extractLsb'_eq_self

theorem encJ_eq {w : Word} {k : BitVec 1} {op : BitVec 7} {off : BitVec 23}
    (hk : fK w = k) (hop : (fOp w).toNat = op.toNat) (hoff : fOff23 w = off) :
    encJ (fL w) k op off = w := by
  obtain rfl := BitVec.eq_of_toNat_eq hop
  subst hk hoff
  unfold encJ fL fK fOp fOff23
  iterate 3 rw [join_fields (by decide)]
  exact BitVec.extractLsb'_eq_self

theorem encM_eq {w : Word} {k : BitVec 1} {op : BitVec 7} {d a : RegNo} {sp : BitVec 2} {imm : BitVec 9}
    (hk : fK w = k) (hop : (fOp w).toNat = op.toNat) (hd : fD w = d) (ha : fA w = a) (hsp : fSp w = sp)
    (himm : fImm9 w = imm) : encM (fL w) k op d a sp imm = w := by
  obtain rfl := BitVec.eq_of_toNat_eq hop
  subst hk hd ha hsp himm
  unfold encM fL fK fOp fD fA fSp fImm9
  iterate 6 rw [join_fields (by decide)]
  exact BitVec.extractLsb'_eq_self

theorem encMO_eq {w : Word} {k : BitVec 1} {op : BitVec 7} {d a b : RegNo} {sc : BitVec 3} {od : BitVec 2}
    (hk : fK w = k) (hop : (fOp w).toNat = op.toNat) (hd : fD w = d) (ha : fA w = a) (hb : fB w = b)
    (hsc : fMid w = sc) (hod : fOrd w = od) : encMO (fL w) k op d a b sc od = w := by
  obtain rfl := BitVec.eq_of_toNat_eq hop
  subst hk hd ha hb hsc hod
  unfold encMO fL fK fOp fD fA fB fMid fOrd
  iterate 7 rw [join_fields (by decide)]
  exact BitVec.extractLsb'_eq_self

theorem encCV_eq {w : Word} {k : BitVec 1} {op : BitVec 7} {d a b : RegNo} {rm : BitVec 3} {sat h : BitVec 1}
    (hk : fK w = k) (hop : (fOp w).toNat = op.toNat) (hd : fD w = d) (ha : fA w = a) (hb : fB w = b)
    (hrm : fMid w = rm) (hsat : fSat w = sat) (hh : fH w = h) : encCV (fL w) k op d a b rm sat h = w := by
  obtain rfl := BitVec.eq_of_toNat_eq hop
  subst hk hd ha hb hrm hsat hh
  unfold encCV fL fK fOp fD fA fB fMid fSat fH
  iterate 8 rw [join_fields (by decide)]
  exact BitVec.extractLsb'_eq_self

/-- The four bits of OP that mark the F4 forms, in the word (R66, R80). -/
theorem fOp_high (w : Word) : (fOp w).extractLsb' 3 4 = w.extractLsb' 26 4 := by
  ext i hi
  simp only [fOp, BitVec.getElem_extractLsb', BitVec.getLsbD_extractLsb', ← Nat.add_assoc]
  rw [decide_eq_true (by omega), Bool.true_and]

theorem encF4_eq {w : Word} {sub : BitVec 2} {d a b c : RegNo} (hk : fK w = 1#1)
    (hop : (fOp w).extractLsb' 3 4 = 0xF#4) (hsub : fSub w = sub) (hd : f4D w = d) (ha : f4A w = a) (hb : f4B w = b)
    (hc : f4C w = c) : encF4 (fL w) sub d a b c = w := by
  subst hsub hd ha hb hc
  unfold encF4
  rw [← hk, ← hop, fOp_high]
  unfold fL fK fSub f4D f4A f4B f4C
  iterate 7 rw [join_fields (by decide)]
  exact BitVec.extractLsb'_eq_self

/-- The immediate of a shift whose reserved bits are 0 (R76). -/
theorem fImm11_eq {w : Word} (h : w.extractLsb' 5 6 = 0#6) : fImm11 w = 0#6 ++ fF w := by
  unfold fImm11 fF
  rw [← h, join_fields (by decide)]

/-! ### Fields that hold codes -/

@[simp] theorem decScope_eq_some {b : BitVec 3} {sc : Scope} : decScope b = some sc ↔ encScope sc = b := by
  constructor
  · revert b; cases sc <;> decide
  · rintro rfl; exact decScope_encScope sc
@[simp] theorem decSpace_eq_some {b : BitVec 2} {sp : Space} : decSpace b = some sp ↔ encSpace sp = b := by
  constructor
  · revert b; cases sp <;> decide
  · rintro rfl; exact decSpace_encSpace sp
@[simp] theorem decRm_eq_some {b : BitVec 3} {rm : RmField} : decRm b = some rm ↔ encRm rm = b := by
  constructor
  · revert b; cases rm <;> decide
  · rintro rfl; exact decRm_encRm rm
@[simp] theorem encOrd_decOrd (b : BitVec 2) : encOrd (decOrd b) = b := by revert b; decide
@[simp] theorem encFenceOrd_decFenceOrd (b : BitVec 2) : encFenceOrd (decFenceOrd b) = b := by revert b; decide
@[simp] theorem ofBit_bit1 (b : BitVec 1) : ofBit (bit1 b) = b := by revert b; decide

/-! ### The maps

In each arm of a map the OP, F and reserved fields are known, since the arm has tested them, and the instruction holds
the other fields of its format; so the format's word of all these fields is the word. -/

@[simp] theorem needZero_eq_some {n : Nat} {b : BitVec n} {r : Option Instr} {i : Instr} :
    needZero b r = some i ↔ b = 0 ∧ r = some i := by
  unfold needZero
  split
  case isTrue h => simp only [h, true_and]
  case isFalse h => simp only [h, false_and, reduceCtorEq]

/-- What a map reads in a word, the encoder writes as that word. -/
def Reads (w : Word) (r : Option Instr) : Prop := ∀ i, r = some i → encodeWords (fL w) i = [w]

@[simp] theorem reads_none {w : Word} : Reads w none := by simp [Reads]
@[simp] theorem reads_some {w : Word} {i : Instr} : Reads w (some i) ↔ encodeWords (fL w) i = [w] := by simp [Reads]
@[simp] theorem reads_needZero {w : Word} {n : Nat} {b : BitVec n} {r : Option Instr} :
    Reads w (needZero b r) ↔ (b = 0 → Reads w r) := by
  simp only [Reads, needZero_eq_some, and_imp]
  exact forall_comm
@[simp] theorem reads_bind {w : Word} {α : Type} {o : Option α} {f : α → Option Instr} :
    Reads w (o.bind f) ↔ ∀ x, o = some x → Reads w (f x) := by
  cases o <;> simp

/-- The arms of class C by OP, and where an OP has several forms, by F (R70, R71). -/
theorem reads_rawC {w : Word} (hk : fK w = 0#1) : Reads w (rawC w) := by
  unfold rawC rawCOp0E rawCOp0F rawCOp13 rawCOp60 rawCOp61 rawCOp62 rawCOp63 rawCOp64 rawCOp65 rawCOp66 rawCOp67
  split <;> try split
  all_goals simp +contextual [encodeWords, encJ_eq, encRU_eq, encRI_eq, encM_eq, encMO_eq, encRR_eq, *]

/-- The arms of class A by OP, and where an OP has several forms, by F (R75, R76). -/
theorem reads_rawA {w : Word} (hk : fK w = 1#1) : Reads w (rawA w) := by
  unfold rawA rawAOp00 rawAOp01 rawAOp10 rawAOp12 rawAOp14
  split <;> try split
  all_goals simp +contextual [encodeWords, encRI_eq, encRU_eq, encCV_eq, encRR_eq, fImm11_eq, BitVec.xor_eq_zero_iff,
    *]

theorem reads_rawF4 {w : Word} (hk : fK w = 1#1) (h4 : (fOp w).extractLsb' 3 4 = 0xF#4) : Reads w (rawF4 w) := by
  have hs : fSub w = 0#2 ∨ fSub w = 1#2 ∨ fSub w = 2#2 ∨ fSub w = 3#2 := by
    generalize fSub w = b
    revert b; decide
  rcases hs with h | h | h | h <;> simp [rawF4, h, encodeWords, encF4_eq hk h4 h]

/-- A word that is read is the word of what is read, whichever map reads it. -/
theorem reads_rawDecode (w : Word) : Reads w (rawDecode w) := by
  rcases BitVec.eq_zero_or_eq_one (fK w) with hk | hk
  · rw [rawDecode_C w hk]
    exact reads_rawC hk
  · by_cases h4 : (fOp w).extractLsb' 3 4 = 0xF#4
    · rw [rawDecode_F4 w hk h4]
      exact reads_rawF4 hk h4
    · rw [rawDecode_A w hk h4]
      exact reads_rawA hk

/-- A LONG form that is read is written with its literal as second word, whatever the L asked for (R64). -/
theorem encodeWords_rawLong {w lit : Word} (l : BitVec 1) {i : Instr} (hk : fK w = 0#1) (hl : fL w = 0#1)
    (h : rawLong w lit = some i) : encodeWords l i = [w, lit] := by
  have hw : ∀ {op : BitVec 7} {d : RegNo}, (fOp w).toNat = op.toNat → fD w = d → fImm17 w = 0#17 →
      encRU 0#1 0#1 op d 0#17 = w := fun ho hd h0 =>
    (congrArg (encRU · 0#1 _ _ 0#17) hl).symm.trans (encRU_eq hk ho hd h0)
  unfold rawLong at h
  split at h
  case h_1 ho | h_2 ho =>
    obtain ⟨h0, hi⟩ := needZero_eq_some.1 h
    cases hi
    exact congrArg (fun x => [x, lit]) (hw ho rfl h0)
  case h_3 ho =>
    obtain ⟨hd, h⟩ := needZero_eq_some.1 h
    obtain ⟨h0, hi⟩ := needZero_eq_some.1 h
    cases hi
    exact congrArg (fun x => [x, lit]) (hw ho hd h0)
  case h_4 => cases h

theorem fK_of_isLongWord {w : Word} (h : isLongWord w = true) : fK w = 0#1 := by
  unfold isLongWord at h
  simp only [Bool.and_eq_true, beq_iff_eq] at h
  exact h.1

theorem eq_some_of_keepWellFormed {r : Option Instr} {i : Instr} (h : keepWellFormed r = some i) : r = some i := by
  unfold keepWellFormed at h
  obtain ⟨j, hj, h⟩ := Option.bind_eq_some_iff.1 h
  split at h
  · exact hj.trans h
  · cases h

end Sys2Proof
end

section
open Sys2Proof Sys2Proof.Machine

/-- Settles O54: each map reads only words that their formats put together again from what it reads. -/
theorem encodeDecodeAgree : Obligations.EncodeDecodeAgree := by
  unfold Obligations.EncodeDecodeAgree
  refine ⟨fun w i _ h => reads_rawDecode w i (eq_some_of_keepWellFormed h), fun w lit l i hlong hl h => ?_⟩
  exact encodeWords_rawLong l (fK_of_isLongWord hlong) hl (eq_some_of_keepWellFormed h)

/-- Settles O55: the decoder evaluated on each word. -/
theorem wordsOfTheSpec : Obligations.WordsOfTheSpec := by
  unfold Obligations.WordsOfTheSpec
  exact ⟨rfl, rfl, rfl, rfl, rfl, rfl⟩
end

section
/-! Immediates, long literals and the random generator (R51, R67, R98, R100 to R102): the values that they write. -/

namespace Sys2Proof.Machine

/-- A sign-extended field that is shifted left is the signed field times a power of 2 (R67). -/
theorem signExtend_shiftLeft {m n : Nat} (x : BitVec m) (k : Nat) :
    x.signExtend n <<< k = BitVec.ofInt n (x.toInt * 2 ^ k) := by
  have h2 : BitVec.ofInt n (2 ^ k) = BitVec.twoPow n k := by
    apply BitVec.eq_of_toNat_eq
    rw [BitVec.toNat_twoPow, BitVec.toNat_ofInt]
    norm_cast
  rw [BitVec.ofInt_mul, BitVec.shiftLeft_eq_mul_twoPow, h2]
  rfl

theorem ofBool_slt_signExtend {n : Nat} (hn : n ≤ 32) (x : Word) (i : BitVec n) :
    ofBool (x.slt (i.signExtend 32)) = if x.toInt < i.toInt then 1#32 else 0#32 := by
  rw [ofBool, BitVec.slt_eq_decide, BitVec.toInt_signExtend_of_le hn]
  simp

/-- The word writes to gD a function of its operand A, and raises no flag (R100 to R102). -/
structure IsImmediate (i : Instr) (d : RegNo) (f : Word → Word) : Prop where
  dst : i.shape.dst = .g d
  runs : ∀ s, exec i s = s.within i.shape fun v s => s.put i.shape [f (gOf v.a)] noFlags

theorem IsImmediate.gives {i : Instr} {d : RegNo} {f : Word → Word} (hi : IsImmediate i d f) {s : State}
    (h : Ready s i.shape) : GivesG s i d (f (s.gA i.shape)) noFlags :=
  h.givesG d hi.dst (fun v => f (gOf v.a)) (fun _ => noFlags) (hi.runs s)

/-- The high word of wD alone falls to a register; the model names the low one nowhere (R102, assumption 19). -/
theorem dstVals_whi (d : RegNo) (w : Word) : dstVals (.whi d) [w] = if d = 0 then [] else [(d.toNat + 1, w)] := by
  show (if d = 0 then [] else [d.toNat + 1]).zip [w] = _
  split <;> rfl

/-- Only the generator of a word's source operands tells apart threads that differ in their generator. -/
theorem State.src_rngs (s : State) (z : Word) :
    ∃ r, ({ s with t := { s.t with rngs := z } } : State).src = { s.src with rngs := r } := by
  unfold State.src
  cases h : s.fr.latch with
  | none => exact ⟨z, rfl⟩
  | some o => exact ⟨o.rngs, rfl⟩

/-- A word that has written its results has written them too where the generator has stepped besides. -/
theorem Wrote.step_rngs {s t : State} {sh : Shape} {ws : List (Nat × Word)} {f : Flags} (h : Wrote s t sh ws f)
    (z : Word) :
    Wrote { s with t := { s.t with rngs := z } } (t.modT fun th => { th with rngs := z }) sh ws f := by
  obtain ⟨ht, hregs, hplain, hentries, hmem⟩ := h
  obtain ⟨r, hr⟩ := s.src_rngs z
  refine ⟨congrArg (fun th : Thread => { th with rngs := z }) ht, ?_, fun hq => ?_, ?_, hmem⟩
  · unfold RegsWritten
    rw [hr]
    exact hregs
  · rw [hr] at hq
    exact congrArg (fun u : State => u.modT fun th => { th with rngs := z }) (hplain hq)
  · rw [hr]
    exact hentries

end Sys2Proof.Machine
end

section
open Sys2Proof Sys2Proof.Machine

/-- Settles O6: each immediate form writes a function of gA, and the others put their words; `rng` steps the generator
besides. -/
theorem immediateAndRandomResults : Obligations.ImmediateAndRandomResults := by
  unfold Obligations.ImmediateAndRandomResults
  refine ⟨fun s d a b c i j w => ⟨fun p hp h => ?_, fun h => ?_, fun h => ?_, fun h => ?_⟩, fun s d h => ?_⟩
  · have hi : IsImmediate p.1 d p.2 := by
      clear h
      revert p
      simp only [List.forall_mem_cons, List.not_mem_nil, false_implies, implies_true, and_true,
        BitVec.ofNat_toNat, ← ofBool_slt_signExtend (n := 11) (by decide), ← signExtend_shiftLeft]
      and_intros <;> exact ⟨rfl, fun _ => rfl⟩
    exact hi.gives h
  · refine ⟨_, (exec_lih d w s).trans (h.within _), ?_⟩
    rw [← dstVals_whi]
    exact h.put_wrote [w] noFlags
  · exact h.givesG d rfl (fun v => gOf v.a * gOf v.b + gOf v.c) (fun _ => noFlags) rfl
  · rw [← ite_not]
    exact h.givesG d rfl (fun v => if gOf v.c ≠ 0#32 then gOf v.a else gOf v.b) (fun _ => noFlags) rfl
  · exact ⟨_, (exec_rng d s).trans (h.within _), rfl, (h.put_wrote [rngStep s.src.rngs] noFlags).step_rngs _⟩
end

section
/-! Transfers of control (R67, R116 to R119): what a ready word leaves that goes to a target, that calls, that goes on
to the next bundle, or whose target fails a check. -/

namespace Sys2Proof.Machine

theorem offTarget_eq {n : Nat} (a : DWord) (off : BitVec n) :
    offTarget a off = a + BitVec.ofInt 64 (4 * off.toInt) := by
  rw [offTarget, signExtend_shiftLeft, Int.mul_comm]
  rfl

/-! ### The end of a word without results -/

/-- A word without results that names no queue leaves everything as it is. -/
theorem State.fin_plain (s : State) (sh : Shape) (h : s.src.usesQueue sh = false) : s.fin sh = s := by
  have hp : s.src.pops sh = [] := by
    unfold OpSrc.usesQueue at h
    rw [List.any_append, Bool.or_eq_false_iff, List.any_eq_false] at h
    rw [OpSrc.pops, List.filter_eq_nil_iff.2 h.1, List.filterMap_nil]
  rw [State.fin, State.popOps, hp, List.foldl_nil]

/-- The end of a ready word without results: its pops, and nothing else (R22, R23). -/
theorem Ready.fin {s : State} {sh : Shape} (h : Ready s sh) :
    (s.fin sh).t = s.t ∧ (s.fin sh).fr = s.fr ∧ (s.fin sh).struck = s.struck ∧ Rest s (s.fin sh) sh [] := by
  obtain ⟨hstep, hentries⟩ := State.pops_spec (s.src.pops sh) s h.running h.pops_bound
  refine ⟨hstep.t_eq, hstep.fr_eq, ?_, fun hq => ?_, fun q => ?_, hstep.quiet.mem⟩
  · unfold State.struck
    rw [show (s.fin sh).fr = s.fr from hstep.fr_eq, show (s.fin sh).upset = s.upset from hstep.upset_eq]
  · rw [s.fin_plain sh hq]
  · exact (hentries q).trans (List.append_nil _).symm

/-- What a word leaves behind it does not hang on its thread. -/
theorem Rest.modT {s t : State} {sh : Shape} {ws : List (Nat × Word)} (h : Rest s t sh ws) (f : Thread → Thread) :
    Rest s (t.modT f) sh ws := by
  obtain ⟨hplain, hentries, hmem⟩ := h
  exact ⟨fun hq => congrArg (fun u : State => u.modT f) (hplain hq), hentries, hmem⟩

/-! ### Transfers -/

/-- A ready word that goes to a good target. -/
theorem Ready.goes {s : State} {sh : Shape} (h : Ready s sh) {w : Bool} {target : DWord}
    (hg : GoodTarget w s.fr.first target) :
    let t := s.transfer w target fun s => s.fin sh
    Went s t target ∧ Rest s t sh [] := by
  obtain ⟨ht, -, -, hrest⟩ := h.fin
  rw [State.transfer_good s _ hg]
  refine ⟨?_, hrest.modT _⟩
  rw [Went, ← ht]
  rfl

/-- The return address goes to g1, which is no queue register (R67). -/
theorem State.link_eq (s : State) :
    s.link = s.modT fun t =>
      { t with regs := t.regs.set! 1 { val := s.fr.next.extractLsb' 0 32, pois := s.struck } } := by
  have hq : s.src.isQueue 1 = false := Bool.and_false _
  simp only [State.link, State.writeRegs, hq, Bool.false_eq_true, if_false, Nat.one_ne_zero]

/-- A ready word that calls a good target. -/
theorem Ready.calls {s : State} {sh : Shape} (h : Ready s sh) {w : Bool} {target : DWord}
    (hg : GoodTarget w s.fr.first target) :
    let t := s.transfer w target fun s => (s.fin sh).link
    Called s t target ∧ Rest s t sh [] := by
  obtain ⟨ht, hfr, hstruck, hrest⟩ := h.fin
  rw [State.transfer_good s _ hg, State.link_eq, hfr, hstruck]
  refine ⟨⟨?_, ?_, fun r hr => ?_⟩, (hrest.modT _).modT _⟩
  · rw [← ht]
    rfl
  · exact Vector.getElem!_set!_self _ _ _ (by decide)
  · exact (Vector.getElem!_set!_ne _ _ _ _ hr).trans (congrArg (fun th : Thread => th.regs[r]!) ht)

/-- A trap whose cause is below those of class F enters its handler where none is entered (R144, R145). -/
theorem State.raise_taken (s : State) (cause : Nat) (val : DWord) (acc : Option (AccKind × Nat)) (htr : s.t.tr = false)
    (hc : cause < 0x0B) : TrapTaken s (s.raise cause val acc) cause val := by
  have hl : s.t.leavesTask cause = false := by
    unfold Thread.leavesTask
    rw [decide_eq_false (Nat.not_le.2 hc)]
    rfl
  have hr : s.raise cause val acc = (s.except cause val).deliver := by
    unfold State.raise
    rw [htr, hl]
    rfl
  rw [hr]
  exact (s.except cause val).deliver_spec

/-- A transfer to a target that fails a check traps with the target in `tval`: ALIGN first, then ADDR (R116). -/
theorem State.transfer_traps {s : State} {w : Bool} {target : DWord} (k : State → State) (htr : s.t.tr = false) :
    (target.toNat % 4 ≠ 0 → TrapTaken s (s.transfer w target k) 0x03 target) ∧
    (target.toNat % 4 = 0 → ¬ GoodTarget w s.fr.first target → TrapTaken s (s.transfer w target k) 0x04 target) := by
  refine ⟨fun h4 => ?_, fun h4 hg => ?_⟩
  · rw [State.transfer_bad s k fun hg => h4 hg.1, if_neg h4]
    exact s.raise_taken _ _ _ htr (by decide)
  · rw [State.transfer_bad s k hg, if_pos h4]
    exact s.raise_taken _ _ _ htr (by decide)

/-! ### Conditional branches -/

/-- The word branches to the address of its bundle plus 4 × OFF where a condition on its operands holds (R67, R117). -/
def IsBranch (i : Instr) (off : Int) (c : Word → Word → Prop) : Prop :=
  ∃ taken : Word → Word → Bool, (∀ x y, taken x y = true ↔ c x y) ∧ ∀ s, exec i s =
    s.branch i.shape (s.fr.first + BitVec.ofInt 64 (4 * off)) fun v => taken (gOf v.a) (gOf v.b)

/-- A word that runs as a branch of the model is one. -/
theorem IsBranch.of_runs {i : Instr} {n : Nat} {off : BitVec n} {c : Word → Word → Prop} (taken : Word → Word → Bool)
    (hc : ∀ x y, taken x y = true ↔ c x y)
    (hr : ∀ s, exec i s = s.branch i.shape (offTarget s.fr.first off) fun v => taken (gOf v.a) (gOf v.b)) :
    IsBranch i off.toInt c :=
  ⟨taken, hc, fun s => offTarget_eq s.fr.first off ▸ hr s⟩

theorem isBranch_bz (a : RegNo) (off : BitVec 17) : IsBranch (.bz a off) off.toInt fun x _ => x = 0#32 :=
  .of_runs (fun x _ => x == 0#32) (fun _ _ => beq_iff_eq) fun _ => rfl
theorem isBranch_bnz (a : RegNo) (off : BitVec 17) : IsBranch (.bnz a off) off.toInt fun x _ => x ≠ 0#32 :=
  .of_runs (fun x _ => x != 0#32) (fun _ _ => bne_iff_ne) fun _ => rfl
theorem isBranch_beq (a b : RegNo) (off : BitVec 11) : IsBranch (.beq a b off) off.toInt fun x y => x = y :=
  .of_runs (fun x y => x == y) (fun _ _ => beq_iff_eq) fun _ => rfl
theorem isBranch_bne (a b : RegNo) (off : BitVec 11) : IsBranch (.bne a b off) off.toInt fun x y => x ≠ y :=
  .of_runs (fun x y => x != y) (fun _ _ => bne_iff_ne) fun _ => rfl
theorem isBranch_blt (a b : RegNo) (off : BitVec 11) : IsBranch (.blt a b off) off.toInt fun x y => x.toInt < y.toInt :=
  .of_runs (fun x y => x.slt y) (fun _ _ => BitVec.slt_iff_toInt_lt) fun _ => rfl
theorem isBranch_bge (a b : RegNo) (off : BitVec 11) : IsBranch (.bge a b off) off.toInt fun x y => y.toInt ≤ x.toInt :=
  .of_runs (fun x y => !x.slt y) (fun x y => by simp [BitVec.slt_eq_decide]) fun _ => rfl
theorem isBranch_blo (a b : RegNo) (off : BitVec 11) : IsBranch (.blo a b off) off.toInt fun x y => x.toNat < y.toNat :=
  .of_runs (fun x y => x.ult y) (fun _ _ => BitVec.ult_iff_lt) fun _ => rfl
theorem isBranch_bhs (a b : RegNo) (off : BitVec 11) : IsBranch (.bhs a b off) off.toInt fun x y => y.toNat ≤ x.toNat :=
  .of_runs (fun x y => !x.ult y) (fun x y => by simp [BitVec.ult_eq_decide]) fun _ => rfl

/-- A ready branch whose condition holds transfers control. -/
theorem IsBranch.taken {i : Instr} {off : Int} {c : Word → Word → Prop} (hb : IsBranch i off c) {s : State}
    (h : Ready s i.shape) (hc : c (s.gA i.shape) (s.gB i.shape)) :
    exec i s = .next (s.transfer true (s.fr.first + BitVec.ofInt 64 (4 * off)) fun s => s.fin i.shape) := by
  obtain ⟨taken, ht, hr⟩ := hb
  rw [hr, State.branch, h.within]
  exact congrArg _ (if_pos ((ht _ _).2 hc))

/-- A ready branch whose condition does not hold goes on to the next bundle. -/
theorem IsBranch.passed {i : Instr} {off : Int} {c : Word → Word → Prop} (hb : IsBranch i off c) {s : State}
    (h : Ready s i.shape) (hc : ¬ c (s.gA i.shape) (s.gB i.shape)) : exec i s = .next (s.fin i.shape) := by
  obtain ⟨taken, ht, hr⟩ := hb
  rw [hr, State.branch, h.within]
  exact congrArg _ (if_neg fun hv => hc ((ht _ _).1 hv))

/-! ### Unconditional transfers -/

theorem exec_bra_ready {s : State} {off : BitVec 23} (h : Ready s (Instr.bra off).shape) :
    exec (.bra off) s = .next (s.transfer true (s.fr.first + BitVec.ofInt 64 (4 * off.toInt)) fun s =>
      s.fin (Instr.bra off).shape) := by
  rw [← offTarget_eq]
  exact (exec_bra off s).trans (h.within _)
theorem exec_call_ready {s : State} {off : BitVec 23} (h : Ready s (Instr.call off).shape) :
    exec (.call off) s = .next (s.transfer true (s.fr.first + BitVec.ofInt 64 (4 * off.toInt)) fun s =>
      (s.fin (Instr.call off).shape).link) := by
  rw [← offTarget_eq]
  exact (exec_call off s).trans (h.within _)
theorem exec_callx_ready {s : State} {lit : Word} (h : Ready s (Instr.callx lit).shape) :
    exec (.callx lit) s = .next (s.transfer true (s.fr.first + BitVec.ofInt 64 lit.toInt) fun s =>
      (s.fin (Instr.callx lit).shape).link) := (exec_callx lit s).trans (h.within _)
theorem exec_callr_ready {s : State} {a : RegNo} (h : Ready s (Instr.callr a).shape) :
    exec (.callr a) s = .next (s.transfer true (s.wA (Instr.callr a).shape) fun s =>
      (s.fin (Instr.callr a).shape).link) := (exec_callr a s).trans (h.within _)
theorem exec_jr_ready {s : State} {a : RegNo} (h : Ready s (Instr.jr a).shape) :
    exec (.jr a) s = .next (s.transfer false (s.wA (Instr.jr a).shape) fun s => s.fin (Instr.jr a).shape) :=
  (exec_jr a s).trans (h.within _)
theorem exec_ret_ready {s : State} (h : Ready s Instr.ret.shape) :
    exec .ret s = .next (s.transfer true (s.fr.first.extractLsb' 32 32 ++ (s.src.regs[1]!).val) fun s =>
      s.fin Instr.ret.shape) := (exec_ret s).trans (h.within _)

/-- The word transfers control to a target, with the check of the code window unless it is `jr` (R116, R119). -/
def TransfersTo (s : State) (a : RegNo) (i : Instr) (target : DWord) : Prop :=
  ∃ k, exec i s = .next (s.transfer (decide (i ≠ .jr a)) target k)

theorem TransfersTo.of_ne {s : State} {a : RegNo} {i : Instr} {target : DWord} {k : State → State} (hi : i ≠ .jr a)
    (he : exec i s = .next (s.transfer true target k)) : TransfersTo s a i target :=
  ⟨k, by rw [decide_eq_true hi, he]⟩

theorem TransfersTo.branch {s : State} {a : RegNo} {i : Instr} {off : Int} {c : Word → Word → Prop}
    (hb : IsBranch i off c) (hi : i ≠ .jr a) (h : Ready s i.shape) (hc : c (s.gA i.shape) (s.gB i.shape)) :
    TransfersTo s a i (s.fr.first + BitVec.ofInt 64 (4 * off)) := .of_ne hi (hb.taken h hc)

theorem TransfersTo.jr {s : State} {a : RegNo} (h : Ready s (Instr.jr a).shape) :
    TransfersTo s a (.jr a) (s.wA (Instr.jr a).shape) :=
  ⟨_, by rw [decide_eq_false fun hi : Instr.jr a ≠ .jr a => hi rfl]; exact exec_jr_ready h⟩

end Sys2Proof.Machine
end

section
open Sys2Proof Sys2Proof.Machine

/-- Settles O18: each form is a branch on its condition, which ends the word with or without a transfer. -/
theorem branchResults : Obligations.BranchResults := by
  unfold Obligations.BranchResults
  refine ⟨fun s a b off imm p hp h => ?_, fun s h => (exec_pause s).trans (h.within _)⟩
  have hb : IsBranch p.1 p.2.1 p.2.2 := by
    clear h
    revert p
    simp only [List.forall_mem_cons, List.not_mem_nil, false_implies, implies_true, and_true]
    exact ⟨isBranch_bz a off, isBranch_bnz a off, isBranch_beq a b imm, isBranch_bne a b imm, isBranch_blt a b imm,
      isBranch_bge a b imm, isBranch_blo a b imm, isBranch_bhs a b imm⟩
  refine ⟨fun hc hg => ⟨_, hb.taken h hc, h.goes hg⟩, fun hc => ?_⟩
  obtain ⟨ht, -, -, hrest⟩ := h.fin
  exact ⟨_, hb.passed h hc, ht, hrest⟩

/-- Settles O19: each form goes through `State.transfer`, which jumps to a good target and traps at any other. -/
theorem jumpResults : Obligations.JumpResults := by
  unfold Obligations.JumpResults
  refine ⟨fun s a off lit => ⟨fun h hg => ⟨_, exec_bra_ready h, h.goes hg⟩,
    fun h hg => ⟨_, exec_call_ready h, h.calls hg⟩, fun h hg => ⟨_, exec_callx_ready h, h.calls hg⟩,
    fun h hg => ⟨_, exec_callr_ready h, h.calls hg⟩, fun h hg => ⟨_, exec_jr_ready h, h.goes hg⟩,
    fun h hg => ⟨_, exec_ret_ready h, h.goes hg⟩⟩,
    fun s a b imm off far lit htr p hp h hc => ?_⟩
  have ht : TransfersTo s a p.1 p.2.1 := by
    revert p
    simp only [List.forall_mem_cons, List.not_mem_nil, false_implies, implies_true, and_true]
    exact ⟨fun h _ => .of_ne nofun (exec_bra_ready h), fun h _ => .of_ne nofun (exec_call_ready h),
      fun h _ => .of_ne nofun (exec_callx_ready h), fun h _ => .of_ne nofun (exec_callr_ready h), fun h _ => .jr h,
      fun h _ => .of_ne nofun (exec_ret_ready h), fun h hc => .branch (isBranch_bz a off) nofun h hc,
      fun h hc => .branch (isBranch_bnz a off) nofun h hc, fun h hc => .branch (isBranch_beq a b imm) nofun h hc,
      fun h hc => .branch (isBranch_bne a b imm) nofun h hc, fun h hc => .branch (isBranch_blt a b imm) nofun h hc,
      fun h hc => .branch (isBranch_bge a b imm) nofun h hc, fun h hc => .branch (isBranch_blo a b imm) nofun h hc,
      fun h hc => .branch (isBranch_bhs a b imm) nofun h hc⟩
  obtain ⟨k, hk⟩ := ht
  obtain ⟨halign, haddr⟩ := State.transfer_traps k htr
  exact ⟨fun h4 => ⟨_, hk, halign h4⟩, fun h4 hg => ⟨_, hk, haddr h4 hg⟩⟩
end
